-- ==== Sys2Proof/Word.lean ====
section
/-! DEFINITION. The words the model computes with, and nothing more. -/

namespace Sys2Proof

/-- One byte of a memory-resident structure. -/
abbrev Byte := BitVec 8

/-- One 64-bit word: a register (R475), a mailbox word (R378), a Slate word (R154). -/
abbrev Word := BitVec 64

end Sys2Proof
end

