-- ==== Sys2Proof/Syntax.lean ====
section
/-! DEFINITION. The commands of the block: one constructor of `Instr` for each row of
spec/opcode_table.json, with the operands that the event of the row carries. -/

namespace Sys2Proof

/-- How a hart's access covers an 8-byte register (R475): all of it, bits [31:0], or bits [63:32]. -/
inductive Acc where
  | full | lo | hi
  deriving DecidableEq, Repr

/-- What a CSR instruction does with its value: write it (csrrw), set or clear its bits (csrrs, csrrc), or read alone (csrrs or csrrc
of x0). -/
inductive CsrOp where
  | write | set | clear | read
  deriving DecidableEq, Repr

/-- What a REGISTER_WRITE addresses: a device register by the physical address and width of the store
(R474), or a CSR whose old value goes to `rd`. -/
inductive RegTarget where
  | mmio (addr : Nat) (wide : Bool)
  | csr (num rd : Nat) (op : CsrOp)
  deriving DecidableEq, Repr

/-- How a mailbox request reaches the Caboose: by go, with the header and payload that stand in the
request area (R378), or by CBX_URGENT with its uarg (R394). -/
inductive Submission where
  | go (hdr : Word) (pl : List Word)
  | urgent (uarg : BitVec 48)
  deriving DecidableEq, Repr

/-- The three ordering scopes, from the narrowest to the widest (R248). -/
inductive Scope where
  | tile | package | consist
  deriving DecidableEq, Repr

/-- A requester of Table 09-1. -/
inductive Requester where
  | hart (h : Nat)
  | dray (d : Nat)
  | updatePort (tile : Nat)
  | queueEngine (hd : Nat)
  | collective (e : Nat)
  | caboose (hd : Nat)
  | pcie (sub rid : Nat)
  | remote (pkg : Nat)
  deriving DecidableEq, Repr

/-- Whose work a Dray operation is: the next accepted command of a queue (R355), or the next entry of a
Slate stream (R165). -/
inductive DrayWork where
  | queue (q : Nat)
  | stream (s : Nat)
  deriving DecidableEq, Repr

/-- What the tests of a power-on or reset found (Table 17-1): the outcome of the hardware's own tests, which
the manual leaves to the part that is tested. -/
structure SelfTest where
  /-- A critical failure: step of Table 17-1, cause of Table 17-2, unit. -/
  critical : Option (Nat × Nat × Nat) := none
  /-- Physical tiles whose logic BIST fails at step 7. -/
  bist : List Nat := []
  /-- Physical tiles whose march fails at step 8. -/
  march : List Nat := []
  /-- Lanes that fail training at step 9: link × 2 + direction, lane. -/
  lanes : List (Nat × Nat) := []
  /-- Directions, link × 2 + direction, whose training exceeded its limit at a step of Table 11-6, 1 to 6 (R312). -/
  overruns : List (Nat × Nat) := []
  /-- Whether QREF is valid at step 12. -/
  qref : Bool := false
  /-- The bif pins of the four root ports, sensed at step 2 (R368). -/
  bifPins : List Nat := [0, 0, 0, 0]
  /-- Revisions of the twelve logic dies (Table 11-7), read at step 9. -/
  revisions : List Nat := [16, 16, 16, 16, 16, 16, 16, 16, 16, 16, 16, 16]
  /-- Flash stacks whose spare space is exhausted at step 11 (R228). -/
  readOnly : List Nat := []
  deriving DecidableEq, Repr

/-- The fields of a timetable notice (Table 06-11, Table 12-8). -/
structure Notice where
  kind : Nat
  origin : Nat
  cause : Nat
  serial : Nat
  epoch : Nat
  job : Nat
  instant : Nat
  n : Nat
  deriving DecidableEq, Repr

/-- A remote request or response (Table 12-9) with its line of data. `reserved` tells that a reserved bit is set. -/
structure RemoteMsg where
  dst : Nat
  src : Nat
  op : Nat
  tag : Nat
  pseq : Nat
  addr : Nat
  mask : BitVec 64
  data : List Byte
  reserved : Bool := false
  deriving DecidableEq, Repr

/-- A collective data packet (R340). -/
structure CollPacket where
  engine : Nat
  ring : Nat
  entry : Nat
  origin : Nat
  step : Nat
  ovf : Bool
  clamp : Bool
  exponents : Bool
  attempt : Nat
  epoch : Nat
  offset : Nat
  elems : List (BitVec 128)
  deriving DecidableEq, Repr

/-- How an ECC check of a word, a line, a sector or a region came out (R134, R139, R194, R228). -/
inductive EccOutcome where
  | clean | corrected | uncorrectable
  deriving DecidableEq, Repr

/-- How a step of the background SRAM test came out (R139): ECC of the save, then the march. -/
inductive TestOutcome where
  | pass
  | singleBit (word : Nat)
  | doubleBit
  /-- The march failed: whether the save had corrected a word, and each failing sub-array, row or column, and its number. -/
  | march (corrected : Bool) (fails : List (Nat × Bool × Nat))
  | abandoned
  deriving DecidableEq, Repr

/-- The operation of an AMO (RISC-V Zaamo, Zacas, Zabha; R275). -/
inductive AmoOp where
  | swap | add | xor | and | or | min | max | minu | maxu | cas
  deriving DecidableEq, Repr

/-- What a port's training found (Table 12-4, Table 12-5): the limit at which it stopped, or none when it
is up, the lanes that failed, the peer's feature word, identity and port, and the measured delay. -/
structure PortTrain where
  ok : Bool
  failed : List Nat
  feature : Word
  peerDevice : Word
  peerPort : Nat
  delay : Nat
  deriving DecidableEq, Repr

/-- The measurements of one control interval (R431): mean power of the twelve processor-cluster groups is held
by domain (28 domains of R442), by share (ten shares), the input means over the interval and over the last
millisecond, and the input voltage in mV. -/
structure PowerSample where
  domains : List Nat
  shares : List Nat
  inputMean : Nat
  inputMs : Nat
  millivolts : Nat
  deriving DecidableEq, Repr

/-- What the margin monitors of a die report (R438, R439). -/
inductive Margin where
  /-- A point needs the guardband of `mv`. -/
  | raise (mv : Nat)
  /-- A point of a domain has no margin at 45 mV. -/
  | lost (domain point : Nat)
  deriving DecidableEq, Repr

/-- The commands: one constructor per row of spec/opcode_table.json. -/
inductive Instr where
  -- mailbox commands (14_caboose_mailbox.md)
  | versionHello (ch : Nat) (hdr : Word) (pl : List Word)
  | partCreate (ch : Nat) (hdr : Word) (pl : List Word)
  | partDissolve (ch : Nat) (hdr : Word) (pl : List Word)
  | slateInstall (ch : Nat) (hdr : Word) (pl : List Word)
  | jobOpen (ch : Nat) (hdr : Word) (pl : List Word)
  | jobClose (ch : Nat) (hdr : Word) (pl : List Word)
  | sealModel (ch : Nat) (hdr : Word) (pl : List Word)
  | tileRetire (ch : Nat) (sub : Submission)
  | telemetryRead (ch : Nat) (hdr : Word) (pl : List Word)
  | clampReportRead (ch : Nat) (hdr : Word) (pl : List Word)
  | receiptFetch (ch : Nat) (hdr : Word) (pl : List Word)
  | routeInstall (ch : Nat) (hdr : Word) (pl : List Word)
  | powerSet (ch : Nat) (hdr : Word) (pl : List Word)
  | powerDown (ch : Nat) (sub : Submission)
  | reset (ch : Nat) (sub : Submission)
  | packageReset (ch : Nat) (sub : Submission) (t : SelfTest)
  | lifecycleAdvance (ch : Nat) (hdr : Word) (pl : List Word) (t : SelfTest)
  | lifecycleStage (ch : Nat) (hdr : Word) (pl : List Word)
  | lifecycleCommit (ch : Nat) (hdr : Word) (pl : List Word)
  | cbxAck (ch : Nat) (acc : Acc) (v : Word)
  | cbxIrqWrite (ch : Nat) (acc : Acc) (v : Word)
  | cbxDiscardsRead (hart rd ch : Nat) (acc : Acc)
  | standbyTakeover (t : SelfTest)
  -- device registers (19_register_reference.md)
  | registerWrite (hart : Nat) (tgt : RegTarget) (v : Word)
  | queueEnable (q : Nat) (acc : Acc) (v : Word)
  | queueDisable (q : Nat) (acc : Acc) (v : Word)
  | regionValidate (r : Nat) (acc : Acc) (v : Word)
  | regionInvalidate (r : Nat) (acc : Acc) (v : Word)
  | qtzLoad (acc : Acc) (v : Word)
  | qtzStateWrite (acc : Acc) (v : Word)
  | dblAheadCountRead (hart rd : Nat) (acc : Acc)
  | dblDiscardsRead (hart rd : Nat) (acc : Acc)
  | fncMismatchRead (hart rd u : Nat) (acc : Acc)
  | pwrFlagsWrite (acc : Acc) (v : Word)
  | thmFlagsWrite (acc : Acc) (v : Word)
  -- harts (10_processor_complex.md)
  | hartLoad (hart rd addr size : Nat) (signed : Bool)
  | hartStore (hart rs2 addr size : Nat)
  | scld (hart : Nat) (insn : BitVec 32)
  | scst (hart : Nat) (insn : BitVec 32)
  | scfence (hart : Nat) (insn : BitVec 32)
  | fence (hart : Nat) (tso : Bool) (pred succ : BitVec 4)
  | qsubmit (hart : Nat) (insn : BitVec 32)
  | cboClean (hart addr : Nat)
  | cboFlush (hart addr : Nat)
  | cboInval (hart addr : Nat)
  | cboZero (hart addr : Nat)
  | qtimeRead (hart rd : Nat)
  | sipiWrite (hart : Nat) (v : Word)
  | mipiWrite (hart : Nat) (v : Word)
  | machineTimer (hart : Nat)
  | rfClean (hart : Nat) (v : Word)
  | rfFlush (hart : Nat) (v : Word)
  | rfInvalidate (hart : Nat) (v : Word)
  | rfComplete (pd : Nat)
  -- coherence (09_ordering_and_coherence.md)
  | coherentRead (req : Requester) (addr len : Nat) (acq : Option Scope)
  | coherentWrite (req : Requester) (addr : Nat) (data : List Byte) (rel : Option Scope)
  | directRead (req : Requester) (addr len : Nat) (acq : Bool)
  | directWrite (req : Requester) (addr : Nat) (data : List Byte)
  | directWriteDrain (home : Nat)
  | lineWriteback (cache line : Nat)
  | grantHoldExpiry (line : Nat)
  | snoopAnswer (line : Nat)
  -- queues (13_queues_dray_pcie.md)
  | doorbell (q : Nat) (v : Word)
  | descriptorReadReturn (q : Nat)
  | descriptorRepoll (q : Nat)
  | completionRecord (q : Nat)
  | copy (w : DrayWork)
  | gather (w : DrayWork)
  | scatter (w : DrayWork)
  | convert (w : DrayWork)
  | digest (w : DrayWork)
  | invalidate (w : DrayWork)
  -- Slate actions (03, 04, 05, 06, 08, 12)
  | cubeOperation (stream : Nat)
  | vectorProgram (stream : Nat)
  | updateProgram (stream : Nat)
  | bankGrant (stream : Nat)
  | nullAction (stream : Nat)
  | allReduce (stream : Nat)
  | reduceScatter (stream : Nat)
  | allGather (stream : Nat)
  | gradientAllReduce (stream : Nat)
  | barrier (stream : Nat)
  | promote (stream : Nat)
  | demote (stream : Nat)
  | writeBack (stream : Nat)
  | discard (stream : Nat)
  | relocationWindow (stream : Nat)
  | expire (stream : Nat)
  | actionComplete (stream entry : Nat)
  | gateVisible (stream cls : Nat)
  -- vector instructions (04_vector_engine.md): the engine of a physical tile and the instruction word
  | nop (tile : Nat) (insn : Word)
  | vadd (tile : Nat) (insn : Word)
  | vmul (tile : Nat) (insn : Word)
  | vfma (tile : Nat) (insn : Word)
  | vmax (tile : Nat) (insn : Word)
  | vmin (tile : Nat) (insn : Word)
  | vsel (tile : Nat) (insn : Word)
  | vcmp (tile : Nat) (insn : Word)
  | vsign (tile : Nat) (insn : Word)
  | vexp (tile : Nat) (insn : Word)
  | vlog (tile : Nat) (insn : Word)
  | vrsqrt (tile : Nat) (insn : Word)
  | vcvt (tile : Nat) (insn : Word)
  | vcvta (tile : Nat) (insn : Word)
  | va128add (tile : Nat) (insn : Word)
  | va128rsum (tile : Nat) (insn : Word)
  | vreanchor (tile : Nat) (insn : Word)
  | va128drain (tile : Nat) (insn : Word)
  | vld (tile : Nat) (insn : Word)
  | vst (tile : Nat) (insn : Word)
  | aset (tile : Nat) (insn : Word)
  | aadd (tile : Nat) (insn : Word)
  | loop (tile : Nat) (insn : Word)
  | endProg (tile : Nat) (insn : Word)
  | updateMarkerWrite (tile : Nat)
  | updatePhase2 (tile : Nat)
  | updateWriteback (tile : Nat)
  -- timetable (06_timetable.md)
  | t0Reached (part : Nat)
  | slotBind (part : Nat)
  | slotOpen (part : Nat)
  | epochLocalComplete (part : Nat)
  | latenessReport (stream : Nat)
  | holdNotice (port : Nat) (n : Notice)
  | replayNotice (port : Nat) (n : Notice)
  | abortNotice (port : Nat) (n : Notice)
  | degradeNotice (port : Nat) (n : Notice)
  | commitNotice (port : Nat) (n : Notice)
  | probeNotice (port : Nat) (n : Notice)
  | probeSend
  | holdInstant (part : Nat)
  | replayInstant (part : Nat)
  | restartInstant (part : Nat)
  | abortInstant (part : Nat)
  | tileWatchdog (stream : Nat)
  | unitWatchdog (stream : Nat)
  -- background tests and the vault (05_tile_memory.md)
  | testStepStart (tile mem : Nat)
  | testStepComplete (tile mem : Nat) (o : TestOutcome)
  | vaultTestStep (hd : Nat) (o : EccOutcome)
  | vaultWipeComplete (hd : Nat)
  -- HBM, read cache and flash (07, 08, 17)
  | hbmBucketRefill
  | flashBucketRefill
  | patrolScrub (line : Nat) (o : EccOutcome)
  | channelFault (stack channel : Nat)
  | cacheFill (die line : Nat)
  | sectorRead (req : Requester) (ext sector : Nat) (o : EccOutcome)
  | promotionSwitch (ext : Nat)
  | demotionPass (ext : Nat)
  | relocationStart (stack block : Nat)
  | relocationSwitch (stack block : Nat)
  | blockFailure (stack block : Nat)
  | tenderRestart (hd : Nat)
  | tenderRestartDone (hd : Nat)
  -- coupling and Nguix (11, 12)
  | flit (link dir : Nat) (bytes : List Byte)
  | laneFailure (link dir lane : Nat)
  | directionResume (link dir : Nat)
  | frame (port : Nat) (bytes : List Byte)
  | nguixLaneFailure (port lane : Nat)
  | portResume (port : Nat)
  | portTraining (port : Nat) (r : PortTrain)
  | routeAnnounce (port nbr nbrPort : Nat)
  | laserModuleReady (k : Nat)
  | laserModuleFault (k : Nat)
  | timingSymbol (port tTx tE1 tE2 tHold : Nat)
  | timingSymbolSend (port : Nat)
  | remoteRead (m : RemoteMsg)
  | remoteReadAcquire (m : RemoteMsg)
  | remoteWrite (m : RemoteMsg)
  | remoteWriteRelease (m : RemoteMsg)
  | remoteWriteAcked (m : RemoteMsg)
  | remoteWriteReleaseAcked (m : RemoteMsg)
  | remoteReadData (m : RemoteMsg)
  | remoteWriteAck (m : RemoteMsg)
  | remoteError (m : RemoteMsg)
  | pseqGapSkip (src : Nat)
  | remoteTimeout (dst tag : Nat)
  | collectivePacket (p : CollPacket)
  -- PCIe (13)
  | pcieInboundMsi (sub rid addr : Nat) (data : List Byte)
  | pcieInboundP2p (sub rid addr : Nat) (write : Bool) (data : List Byte)
  | pcieInboundRead (sub rid addr len : Nat)
  | pcieInboundWrite (sub rid addr : Nat) (data : List Byte)
  | pcieLinkUp (sub : Nat)
  | pcieLinkDown (sub : Nat)
  -- Quartz (06, 18)
  | qrefLock
  | qrefLoss
  | upstreamLoss
  | alternateLock (port : Nat)
  | ppsEdge (width : Nat)
  -- power and thermal (16)
  | controlInterval (m : PowerSample)
  | pointChangeComplete (a : Nat)
  | thermalSample (tj temps : List Int)
  | thermalTrip (die : Nat)
  | guardbandRaise (die : Nat) (m : Margin)
  | clockStretch (cluster percent : Nat)
  | supplyWarn (mv : Nat)
  | supplyFault (mv : Nat)
  | supplyRecovery (t : SelfTest)
  | islandSupplyLoss (mv : Nat)
  | wakeFromOff (t : SelfTest)
  -- life-cycle, pins, bring-up, receipts (15, 17, 18)
  | tamperEvent (hd source : Nat)
  | pwrGoodInRise (t : SelfTest)
  | pwrGoodInFall
  | resetInNAssert
  | resetInNRelease (t : SelfTest)
  | bringupStepTimeout (step : Nat)
  | recordCommit
  | batchTimeout
  | batchRecord
  -- external management (14)
  | i3cDynamicAddress (hd addr : Nat) (setdasa : Bool)
  | mctpControl (hd : Nat) (msg : List Byte)
  | pldmSensorRead (hd sensor : Nat)
  | getVersion (hd : Nat) (msg : List Byte)
  | getCapabilities (hd : Nat) (msg : List Byte)
  | negotiateAlgorithms (hd : Nat) (msg : List Byte)
  | getDigests (hd : Nat) (msg : List Byte)
  | getCertificate (hd : Nat) (slot offset len : Nat)
  | challenge (hd slot : Nat) (nonce : List Byte)
  | getMeasurements (hd index : Nat) (nonce : List Byte)
  | keyExchange (hd slot : Nat) (msg : List Byte)
  | finish (hd : Nat) (msg : List Byte)
  | endSession (hd : Nat)
  | uartReceive (hd : Nat) (c : Byte)
  -- hart atomics, PCIe completions, TAP, timers, supply
  | amo (hart : Nat) (op : AmoOp) (rd rs2 addr size : Nat) (aq rl : Bool)
  | lr (hart rd addr size : Nat) (aq rl : Bool)
  | sc (hart rd rs2 addr size : Nat) (aq rl : Bool)
  | pcieCompletion (hart : Nat) (ok : Bool) (data : Word)
  | tapInstruction (code : Nat)
  | stimecmp (hart : Nat) (virt : Bool)
  | supplyWarnRearm (mv : Nat)
  deriving DecidableEq, Repr

end Sys2Proof
end

