-- ==== Sys2Proof/Decode.lean ====
section
/-! DEFINITION. Words of the opcode table. No row of the table gives bits, so no word spells a command. -/

namespace Sys2Proof

/-- The command that a word of the opcode table spells: no row has an encoding, so none does. -/
def decodeTableWord (_nbits _w : Nat) : Option Instr := none

end Sys2Proof
end

