-- ==== Sys2Proof/Config.lean ====
section
/-! DEFINITION. What the manual leaves open: opaque constants without a body, so that no proof can see
a value of one. `free64` is drawn at the counter `State.freeCtr`. -/

namespace Sys2Proof.Config

/-- A fresh value the manual does not state, at each value of the counter `State.freeCtr` (log 3). -/
opaque free64 : Nat → BitVec 64

/-- The 96-byte ECDSA P-384 signature of a message under the key of a life-cycle code (R410, R411, R419):
a function of the key and the message alone. The key comes from the PUF, which the manual does not give (log 16). -/
opaque ecdsaSign : (stateCode : Nat) → (deviceId : Nat) → (msg : List (BitVec 8)) → List (BitVec 8)

/-- The 3,309-byte ML-DSA-65 signature of a message (R411, R419, FIPS 204) (log 16). -/
opaque mldsaSign : (stateCode : Nat) → (deviceId : Nat) → (msg : List (BitVec 8)) → List (BitVec 8)

/-- Whether an ECDSA P-384 signature verifies (FIPS 186-5), used by R404 and R413 (log 16). -/
opaque ecdsaVerify : (key sig msg : List (BitVec 8)) → Bool

/-- Whether an ML-DSA-65 signature verifies (FIPS 204), used by R413 (log 16). -/
opaque mldsaVerify : (key sig msg : List (BitVec 8)) → Bool

/-- The digests fused at manufacture: 0 the life-cycle key (R404), 1 and 2 the Caboose image's ECDSA and ML-DSA keys, 3 and 4
the processor image's (R413). -/
opaque fusedHash : Nat → List (BitVec 8)

/-- Whether the PUF enrolment of R410 succeeds at the n-th try (log 16). -/
opaque pufEnrols : Nat → Bool

/-- The erase block (0 to 131,071 of its stack, taken modulo that) that holds a 4 KiB sector of a flash space
at the given generation of its translation: the Tender's placement, which R223 calls not architectural (log 8). -/
opaque blockOf : (extent sector generation : Nat) → Nat

/-- The row of a pseudo-channel that holds the lines whose frame offset bits [20:16] and frame number bits [16:6] are given:
Table 07-2 calls the choice of bank, row and column not architectural (log 29). -/
opaque hbmRow : (offsetBits frameBits : Nat) → Nat

/-- The body of an answer that a standard outside the manual lays out (R397, R398): by protocol code and
request bytes (log 17). -/
opaque answerBody : (protocol : Nat) → (request : List (BitVec 8)) → List (BitVec 8)

/-- The sensor that a PLDM sensor identifier names, in the order in which R398 lists them: 0 input voltage, 1 input power, 2 to 13
the dies' hottest Tj, 14 to 29 the HBM stacks, 30 the safe state, 31 the life-cycle state; no sensor from 32 (log 45). -/
opaque sensorOf : Nat → Nat

/-- The device certificate that Garoux issues over the device identity and both public keys (R411, log 45). -/
opaque certificate : (deviceId : Nat) → List (BitVec 8)

/-- Whether an instruction code of the TAP is one of the Garoux debug instructions, which the manual does not number
(R401, log 15). -/
opaque tapDebug : Nat → Bool

/-- The cause code of an event occurrence that the manual names but does not number (R12, R395), by event code and
a number of the model's for the named cause (log 18). -/
opaque causeCode : (event which : Nat) → BitVec 8

/-- Whether the set of a home's directory into which a line would go is full, where the home holds the given lines. The manual gives
a home's number of entries and not their sets (R262, R263; log 61). -/
opaque dirFull : (home : Nat) → (lines : List Nat) → (line : Nat) → Bool

/-- What the symbol code makes of an error pattern for which R194 makes no claim, modulo 3: nothing seen, corrected, uncorrectable. -/
opaque eccOther : (bits : Nat) → Nat

/-- The credits of a class of a Nguix port when it comes up, in frames: the manual gives none (log 65). -/
opaque portCredits : (cls : Nat) → Nat

end Sys2Proof.Config
end

