-- ==== Sys2Proof/Machine/Bits.lean ====
section
/-! DEFINITION. Bit fields, byte order and sign extension: the helpers by which the model reads and
writes words, structures and messages (R3). -/

namespace Sys2Proof.Machine

/-- The field [hi:lo] of a number. -/
def fld (v hi lo : Nat) : Nat := (v >>> lo) % 2 ^ (hi + 1 - lo)

/-- Bit `b` of a number. -/
def bit (v b : Nat) : Bool := (v >>> b) % 2 == 1

/-- A Boolean as a bit. -/
def b2n (b : Bool) : Nat := if b then 1 else 0

/-- `v` with its field [hi:lo] replaced by `x`. -/
def setFld (v hi lo x : Nat) : Nat :=
  (v >>> (hi + 1)) <<< (hi + 1) + (x % 2 ^ (hi + 1 - lo)) <<< lo + v % 2 ^ lo

/-- A field of `w` bits read as two's complement. -/
def sext (w v : Nat) : Int :=
  if v % 2 ^ w < 2 ^ (w - 1) then (v % 2 ^ w : Nat) else ((v % 2 ^ w : Nat) : Int) - (2 ^ w : Nat)

/-- An integer as a `w`-bit two's-complement code. -/
def toCode (w : Nat) (i : Int) : Nat := (i % ((2 ^ w : Nat) : Int)).toNat

/-- The number that little-endian bytes hold (R3). -/
def leNat : List Byte → Nat
  | [] => 0
  | b :: bs => b.toNat + 256 * leNat bs

/-- `n` little-endian bytes of a number (R3). -/
def leBytes : Nat → Nat → List Byte
  | 0, _ => []
  | n + 1, v => BitVec.ofNat 8 v :: leBytes n (v / 256)

/-- `n` big-endian bytes of a number (digests and signatures stand in the order their algorithm emits, R3). -/
def beBytes (n v : Nat) : List Byte := (leBytes n v).reverse

/-- The number that big-endian bytes hold. -/
def beNat (bs : List Byte) : Nat := leNat bs.reverse

/-- The smallest integer at or above a / b. -/
def ceilDiv (a b : Nat) : Nat := (a + b - 1) / b

/-- `v` rounded up to a multiple of `m`. -/
def roundUp (v m : Nat) : Nat := ceilDiv v m * m

/-- Saturating addition of a counter that stops at `max`. -/
def satAdd (max a b : Nat) : Nat := min max (a + b)

/-- 0xFFFF_FFFF, where the 32-bit counters stop. -/
def max32 : Nat := 0xFFFFFFFF

/-- Counts the bits set among the lowest `n` of `v`. -/
def popcount : Nat → Nat → Nat
  | 0, _ => 0
  | n + 1, v => popcount n v + b2n (bit v n)

/-- The positions below `n` of the bits set in `v`, ascending. -/
def bitsOf : Nat → Nat → List Nat
  | 0, _ => []
  | n + 1, v => if bit v n then bitsOf n v ++ [n] else bitsOf n v

/-- Whether two half-open ranges, given by base and length, share a byte. -/
def overlap (a n b m : Nat) : Bool := decide (a < b + m) && decide (b < a + n) && decide (0 < n) && decide (0 < m)

/-- Whether [a, a + n) lies in [b, b + m). -/
def inside (a n b m : Nat) : Bool := decide (b ≤ a) && decide (a + n ≤ b + m)

/-- Left rotation of a 64-bit word. -/
def rotl64 (x : BitVec 64) (k : Nat) : BitVec 64 := (x <<< k) ||| (x >>> (64 - k))

/-- Cuts a list into pieces of `n` (at most `fuel` of them). -/
def chunks {α : Type} (n : Nat) : Nat → List α → List (List α)
  | 0, _ => []
  | f + 1, l => if l.isEmpty then [] else l.take n :: chunks n f (l.drop n)

/-- The list padded to `n` elements, or cut to them. -/
def padTo {α : Type} (n : Nat) (d : α) (l : List α) : List α := (l ++ List.replicate (n - l.length) d).take n

/-- Element `i` replaced. -/
def setAt {α : Type} (l : List α) (i : Nat) (v : α) : List α := l.set i v

/-- The code of `w` bits at bit `o` of packed bytes (R35). -/
def codeAt (bytes : List Byte) (o w : Nat) : Nat := fld (leNat ((bytes.drop (o / 8)).take (w / 8 + 2))) (o % 8 + w - 1) (o % 8)

/-- A 64-bit word from a number. -/
def word (v : Nat) : Word := BitVec.ofNat 64 v

/-- Signed value of a word. -/
def sword (w : Word) : Int := w.toInt

end Sys2Proof.Machine
end

