-- ==== Sys2Proof/Machine/Table.lean ====
section
/-! DEFINITION. Sparse plain-data tables and byte memory, each in one canonical form: keys strictly
rising, and in a memory no byte that an unlisted address reads as. -/

namespace Sys2Proof.Machine

/-- A table by number: entries in strictly rising order of key. -/
abbrev Tbl (α : Type) := List (Nat × α)

/-- The entry of key `k`. -/
def tblGet? {α : Type} : Tbl α → Nat → Option α
  | [], _ => none
  | (k', v) :: t, k => if k' = k then some v else tblGet? t k

/-- The entry of key `k`, or `d` where the table lists none. -/
def tblGet {α : Type} (d : α) (t : Tbl α) (k : Nat) : α := (tblGet? t k).getD d

/-- The table with the entry of key `k` set. -/
def tblSet {α : Type} (k : Nat) (v : α) : Tbl α → Tbl α
  | [] => [(k, v)]
  | (k', v') :: t =>
    if k < k' then (k, v) :: (k', v') :: t
    else if k = k' then (k, v) :: t
    else (k', v') :: tblSet k v t

/-- The table without the entry of key `k`. -/
def tblDel {α : Type} (k : Nat) (t : Tbl α) : Tbl α := t.filter (fun e => e.1 ≠ k)

/-- The entry of key `k` replaced by its image. -/
def tblMod {α : Type} (d : α) (k : Nat) (f : α → α) (t : Tbl α) : Tbl α := tblSet k (f (tblGet d t k)) t

/-- Keys rise strictly. -/
def tblWf {α : Type} : Tbl α → Bool
  | [] => true
  | [_] => true
  | a :: b :: t => decide (a.1 < b.1) && tblWf (b :: t)

/-- Byte memory: (address, byte) pairs, addresses strictly rising, no byte equal to what an unlisted
address reads as, which is 0 (R217 for HBM-home extents; log 4). -/
abbrev Mem := List Host.Cell

/-- The byte at an address. -/
def memGet (m : Mem) (a : Nat) : Byte := tblGet 0#8 m a

/-- The memory with one byte written; writing 0 removes the entry. -/
def memSet (a : Nat) (v : Byte) (m : Mem) : Mem := if v = 0#8 then tblDel a m else tblSet a v m

/-- The canonical form of a memory. -/
def memWf (m : Mem) : Bool := tblWf m && m.all (fun c => decide (c.2 ≠ 0#8))

/-- `n` bytes from an address. -/
def memRead (m : Mem) : Nat → Nat → List Byte
  | _, 0 => []
  | a, n + 1 => memGet m a :: memRead m (a + 1) n

/-- Bytes written from an address up. -/
def memWrite (m : Mem) : Nat → List Byte → Mem
  | _, [] => m
  | a, b :: bs => memWrite (memSet a b m) (a + 1) bs

/-- Bytes written under a byte-enable mask (bit i enables byte i). -/
def memWriteMask (m : Mem) (mask : Nat) : Nat → Nat → List Byte → Mem
  | _, _, [] => m
  | a, i, b :: bs => memWriteMask (if bit mask i then memSet (a + i) b m else m) mask a (i + 1) bs

/-- The memory without the bytes of [a, a + n), which then read 0. -/
def memClear (a n : Nat) (m : Mem) : Mem := m.filter (fun c => decide (c.1 < a) || decide (a + n ≤ c.1))

/-- The cells of [a, a + n). -/
def memPart (a n : Nat) (m : Mem) : Mem := m.filter (fun c => decide (a ≤ c.1) && decide (c.1 < a + n))

/-- `src`'s bytes of [a, a + n) copied over `dst`'s. -/
def memCopyRange (a n : Nat) (src dst : Mem) : Mem :=
  (memPart a n src).foldl (fun m c => memSet c.1 c.2 m) (memClear a n dst)

/-- Little-endian number of `n` bytes at an address (R3). -/
def memLe (m : Mem) (a n : Nat) : Nat := leNat (memRead m a n)

/-- A set of numbers in strictly rising order. -/
abbrev NatSet := List Nat

/-- The set with a number added. -/
def setIns (k : Nat) : NatSet → NatSet
  | [] => [k]
  | h :: t => if k < h then k :: h :: t else if k = h then h :: t else h :: setIns k t

/-- The set without a number. -/
def setDel (k : Nat) (l : NatSet) : NatSet := l.filter (fun x => x ≠ k)

/-- Membership. -/
def setHas (l : NatSet) (k : Nat) : Bool := l.elem k

end Sys2Proof.Machine
end

