-- ==== Sys2Proof/Machine/Types.lean ====
section
/-! DEFINITION. The pieces of State, as plain data. Every default value is the piece's reset value. -/

namespace Sys2Proof.Machine

/-! ### The Quartz (06) -/

/-- Quartz states (Table 06-1); their codes are 0 to 3. `localRef` is LOCAL. -/
inductive QState where
  | free | localRef | consist | holdover
  deriving DecidableEq, Repr

/-- The package's time base. Times are in ns. -/
structure Quartz where
  /-- HD0's counter (R147). -/
  now : Nat := 0
  /-- Its fraction in units of 2^-32 ns (R148). -/
  frac : Nat := 0
  /-- The rate word, ns per timing tick with 32 fraction bits; nominal 4 ns (R148, Table 19-3). -/
  rate : Nat := 0x400000000
  state : QState := .free
  /-- Last value read on each die, which a later read never undercuts (R147). -/
  dieRead : Tbl Nat := []
  loadRefused : Bool := false
  ppsPresent : Bool := false
  ppsStamp : Nat := 0
  /-- Edges ignored since the last accepted one, and in all (R467). -/
  ppsIgnored : Nat := 0
  ppsIgnoredTotal : Nat := 0
  qref : Bool := false
  /-- The member has made its first lock to its upstream port (R330). -/
  firstLocked : Bool := false
  /-- The port whose symbols discipline the counter (R150, R152). -/
  timingPort : Option Nat := none
  holdoverSince : Option Nat := none
  holdoverTotal : Nat := 0
  /-- When the member reached CONSIST, and when it last sent a probe (R333). -/
  consistSince : Option Nat := none
  lastProbe : Option Nat := none
  /-- The latest probe's arrival less its instant, for each other member (R333). -/
  probes : Tbl Nat := []
  /-- Serial of the next probe, and of the latest probe held of each member (R332). -/
  probeSerial : Nat := 0
  probeSeen : Tbl Nat := []
  deriving DecidableEq, Repr

/-! ### Memory tiers (07, 08) -/

/-- Extent states (Table 08-3). -/
inductive ExtState where
  | flash | promoting | hbm | demoting
  deriving DecidableEq, Repr

/-- Why an extent is DEMOTING (R229, R230). -/
inductive DemoteWhy where
  | demote | writeBack | evict
  deriving DecidableEq, Repr

/-- A tier request on one extent: its kind, and the stream and entry of the action it belongs to, if any.
`promote die pin part`. -/
inductive TierKind where
  | promote (die : Nat) (pin : Bool) (part : Nat)
  | demandPromote (die : Nat)
  | demote
  | writeBack
  | discard
  deriving DecidableEq, Repr

structure TierReq where
  ext : Nat
  kind : TierKind
  owner : Option (Nat × Nat) := none
  deriving DecidableEq, Repr

/-- An access of a hart that also writes a register or depends on one (R275, R278, R285). Register values it needs are
taken when it issues. -/
inductive HartOp where
  | load (rd n : Nat) (signed : Bool) (acq : Option Scope)
  | amo (op : AmoOp) (rd src cmp n : Nat) (aq rl : Bool)
  | lr (rd n : Nat) (aq : Bool)
  | sc (rd v n : Nat) (aq rl : Bool)
  deriving DecidableEq, Repr

/-- A request that waits at a home: a read or a write of a requester. -/
inductive WaitReq where
  | read (req : Requester) (addr len : Nat) (acq : Option Scope)
  | write (req : Requester) (addr : Nat) (data : List Byte) (rel : Option Scope)
  | directWrite (req : Requester) (addr : Nat) (data : List Byte) (rel : Option Scope)
  | directRead (req : Requester) (addr len : Nat) (acq : Bool)
  | remoteWrite (m : RemoteMsg)
  /-- `addr` is the UMR address; `direct` tells the path. -/
  | hartOp (h addr : Nat) (direct : Bool) (op : HartOp)
  deriving DecidableEq, Repr

/-- An extent (R216, R229, R237, R238). -/
structure Ext where
  st : ExtState
  why : DemoteWhy := .demote
  die : Nat := 0
  frame : Nat := 0
  /-- Bit s: sector s of 4 KiB is dirty. -/
  dirty : BitVec 512 := 0
  /-- Sectors that the passes of a demotion or write-back have read since it started (R230): dirty again if it is
  abandoned. -/
  copying : BitVec 512 := 0
  retained : Bool := false
  pin : Option Nat := none
  /-- Age stamp in µs. -/
  stamp : Nat := 0
  /-- Passes of a demotion or write-back completed (R230). -/
  passes : Nat := 0
  /-- The request in progress, and those that wait for it (R231). -/
  doing : Option TierReq := none
  queue : List TierReq := []
  /-- Writes held until the switch (R221, R229, R230), and requests held while the Tender restarts (R458). -/
  held : List WaitReq := []
  deriving DecidableEq, Repr

/-- A token bucket (R198, R219): `owed` is what admitted-in-order requests still wait for. -/
structure Bucket where
  rate : Nat
  burst : Nat
  tokens : Nat
  owed : Nat := 0
  /-- All tokens ever asked for, which tells when a given request has been admitted. -/
  asked : Nat := 0
  deriving DecidableEq, Repr

/-- A way of a weight read cache set (R204). -/
structure WrcWay where
  tag : Nat
  data : List Byte
  /-- Erroneous bits of the stored line (R204, R212; log 52). -/
  bad : Nat := 0
  deriving DecidableEq, Repr

/-- A set: the valid ways, and the 15 plru bits with bit n for node n (R206). -/
structure WrcSet where
  ways : Tbl WrcWay := []
  plru : Nat := 0
  deriving DecidableEq, Repr

/-- An outstanding fill (R207, R208, R210, R211). -/
structure WrcFill where
  die : Nat
  line : Nat
  part : Nat
  mask : Nat
  prefetch : Bool
  /-- False once a range invalidation covers the line: delivered, not retained (R210). -/
  keep : Bool := true
  /-- Dray writes that met the fill, applied after it (R208): UMR address and bytes. -/
  writes : List (Nat × List Byte) := []
  deriving DecidableEq, Repr

/-- A stride detector (R211): the last line read, the last delta, and whether it is trained. -/
structure Detector where
  last : Option Nat := none
  delta : Option Int := none
  trained : Bool := false
  deriving DecidableEq, Repr

structure Wrc where
  /-- By die × 32,768 + set. -/
  sets : Tbl WrcSet := []
  fills : List WrcFill := []
  /-- By die × 64 + detector. -/
  det : Tbl Detector := []
  /-- Corrected errors and lines lost to uncorrectable ones (R212). -/
  corrected : Nat := 0
  lost : Nat := 0
  deriving DecidableEq, Repr

/-- One flash stack (R224 to R228). -/
structure Stack where
  /-- Sector reads of each erase block since its erase. -/
  reads : Tbl Nat := []
  /-- Blocks queued for relocation, oldest first. -/
  queued : List Nat := []
  /-- Relocations in progress: old block to new block. -/
  reloc : Tbl Nat := []
  /-- Where a block's sectors stand now, where relocation or retirement moved them. -/
  moved : Tbl Nat := []
  bad : NatSet := []
  /-- Erase cycles of each block (R244). -/
  erases : Tbl Nat := []
  spareBlocks : Nat := 4096
  readOnly : Bool := false
  /-- How often a sector, extent × 512 + sector, has been programmed (R223). -/
  gen : Tbl Nat := []
  deriving DecidableEq, Repr

/-- A relocation window granted to a stack (R226). -/
structure Window where
  stack : Nat
  share : Nat
  from_ : Nat
  until_ : Nat
  deriving DecidableEq, Repr

/-- A Tender's restart state (R458, R459). -/
structure Tender where
  restarting : Bool := false
  /-- Quartz of its restarts that failed. -/
  fails : List Nat := []
  dead : Bool := false
  deriving DecidableEq, Repr

/-! ### Coherence (09) -/

/-- What a home and the hart caches hold of one line (R255, R262, R265). Caches are 0 to 95 for the L2s,
96 and 97 for the L3s. -/
structure Line where
  owner : Option Nat := none
  /-- The data each cache holds. -/
  copies : Tbl (List Byte) := []
  /-- The owner's copy differs from memory and must be written back. -/
  dirty : Bool := false
  overflow : Bool := false
  /-- Scope and origin hart of the latest release write in the dirty line. -/
  tag : Option (Scope × Nat) := none
  /-- A direct write was accepted while the line was dirty (R259). -/
  clash : Bool := false
  hold : Nat := 0
  /-- Caches whose copy is older than a direct write accepted since (R259). -/
  stale : NatSet := []
  waiting : List WaitReq := []
  /-- The home has forwarded the snoop of the oldest waiting request. -/
  snooped : Bool := false
  deriving DecidableEq, Repr

/-- A direct write accepted by a home's direct buffer (R247). -/
structure DWrite where
  addr : Nat
  data : List Byte
  at_ : Nat
  deriving DecidableEq, Repr

/-- A recorded release write (R255). -/
structure Release where
  line : Nat
  scope : Scope
  origin : Requester
  /-- The release was a direct-path write (R248, R252). -/
  direct : Bool := false
  deriving DecidableEq, Repr

/-- A home's direct buffer and sync unit (R247, R255, Table 19-6). -/
structure Home where
  /-- Oldest first, at most 64. -/
  dbuf : List DWrite := []
  /-- At most 128. -/
  readAhead : Tbl (List Byte) := []
  lastDirect : List (Requester × Nat) := []
  /-- Newest first, at most 256. -/
  rels : List Release := []
  mismatch : Nat := 0
  lastRel : Nat := 0
  lastAcq : Nat := 0
  lastLine : Nat := 0
  deriving DecidableEq, Repr

/-! ### Harts (10) -/

inductive Mode where
  | m | hs | s | vs | u | vu
  deriving DecidableEq, Repr

/-- The exceptions the manual names (R22, R276, R278, R279, R281, R286, R291). -/
inductive Trap where
  | illegal | virtualInstr | loadFault | storeFault | loadMisaligned | storeMisaligned
  deriving DecidableEq, Repr

/-- A load of two lines of another package: the awaited parts by tag, with each part's place in the value, and the bytes
that have arrived. -/
structure SplitLoad where
  rd : Nat
  size : Nat
  signed : Bool
  dst : Nat
  parts : List (Nat × Nat)
  got : Mem := []
  deriving DecidableEq, Repr

structure Hart where
  /-- x1 to x31; x0 reads zero. -/
  x : Tbl Word := []
  mode : Mode := .m
  /-- The last exception raised and the address or instruction it names. -/
  trap : Option (Trap × Nat) := none
  mgxcfg : Nat := 0
  mgxevm : Nat := 0
  mgxevs : Nat := 0
  mqcmp : Nat := 2 ^ 64 - 1
  rfbase : Nat := 0
  rflen : Nat := 0
  /-- What a read of rfgo returns (R288). -/
  rfgo : Nat := 0
  rfskip : Nat := 0
  menvcfg : Nat := 0
  senvcfg : Nat := 0
  henvcfg : Nat := 0
  stimecmp : Nat := 2 ^ 64 - 1
  vstimecmp : Nat := 2 ^ 64 - 1
  mtip : Bool := false
  stip : Bool := false
  vstip : Bool := false
  hstatus : Nat := 0
  /-- The interrupt files' registers, by file as `files`: enabled identities, delivery, threshold (R293; log 63). -/
  eie : Tbl NatSet := []
  eidelivery : Tbl Nat := []
  eithreshold : Tbl Nat := []
  /-- miselect, siselect, vsiselect. -/
  iselect : Tbl Nat := []
  /-- Pending identities of file 0 (machine), 1 (supervisor), 2 to 8 (guest files). -/
  files : Tbl NatSet := []
  /-- The reservation of an LR: the line it is on, and until when R265 keeps it. -/
  resv : Option Nat := none
  /-- Loads from PCIe windows that wait for their completions, oldest first: rd, address, size, sign extension (R271). -/
  pcieLoads : List (Nat × Nat × Nat × Bool) := []
  /-- Loads from another package that cross a line and wait for both lines (R276). -/
  splits : List SplitLoad := []
  /-- Instructions that have not issued, in program order: the first waits for a register or for an ordering (R251, R253; log 46). -/
  waiting : List Instr := []
  deriving DecidableEq, Repr

/-- A range-flush request (R288). op: 1 clean, 2 flush, 3 invalidate. -/
structure RfReq where
  hart : Nat
  ticket : Nat
  op : Nat
  base : Nat
  len : Nat
  notify : Bool
  deriving DecidableEq, Repr

structure RangeFlush where
  ctr : Nat := 0
  queue : List RfReq := []
  done : Nat := 0
  deriving DecidableEq, Repr

/-! ### Coupling and Nguix (11, 12) -/

/-- One direction of a coupling link (R299 to R308). -/
structure LinkDir where
  failed : NatSet := []
  /-- Lanes in use: 64, 32 or 0. -/
  width : Nat := 64
  /-- The group in use at half width: 0 L (lanes 0 to 33), 1 H (34 to 67). -/
  group : Nat := 0
  /-- The step of Table 11-6 at which training ended: 6 where the direction came up with its credits (R312). -/
  step : Nat := 6
  stopUntil : Option Nat := none
  /-- Transmitter: packets that wait, with the line address of each; they wait too while the number of the pair's working links has
  changed and earlier flits are unacknowledged (R304; log 65). -/
  queue : List (Nat × List Byte) := []
  hold : Bool := false
  /-- Next sequence; the slots of data flits sent and not acknowledged, oldest first; and the packets that these end, by the sequence of
  a packet's last flit (R303, R304). -/
  txNext : Nat := 0
  replay : List (Nat × List Byte) := []
  sent : List (Nat × Nat × List Byte) := []
  /-- Credits left by virtual channel, in slots; one not listed has its initial credits (R301, R312). -/
  credits : Tbl Nat := []
  /-- Receiver: next sequence expected; replays of it in a row; a nak that waits to be sent, and one that no good flit has followed. -/
  rxNext : Nat := 0
  replays : Nat := 0
  nakDue : Bool := false
  nakked : Bool := false
  laneCheck : Bool := false
  /-- Slots freed by virtual channel and not yet returned as credits. -/
  freed : Tbl Nat := []
  /-- Slots of a packet that continues, and packets delivered, newest last. -/
  partialPkt : List Byte := []
  delivered : List (List Byte) := []
  /-- The instants of the parity errors of a physical lane within the last 1 ms. -/
  parity : Tbl (List Nat) := []
  deriving DecidableEq, Repr

/-- A Nguix port (R316 to R330). -/
structure Port where
  up : Bool := false
  failed : NatSet := []
  /-- Lanes in use: 8, 4 or 0. -/
  lanes : Nat := 0
  stopUntil : Option Nat := none
  generation : Nat := 0
  features : Nat := 0
  peerDevice : Nat := 0
  peerPort : Nat := 0
  delay : Nat := 0
  /-- Lost while it was up, or excluded by R327. -/
  lost : Bool := false
  /-- Packets that wait, with the class of each (log 65). -/
  queue : List (Nat × List Byte) := []
  /-- Next sequence, and the slots of data frames sent and not acknowledged, oldest first (R321). -/
  txNext : Nat := 0
  replay : List (Nat × List Byte) := []
  rxNext : Nat := 0
  replays : Nat := 0
  /-- A nak that waits to be sent, and one that no good frame has followed. -/
  nakDue : Bool := false
  nakked : Bool := false
  laneCheck : Bool := false
  /-- Credits left by class, in frames; one not listed has its initial credits. -/
  credits : Tbl Nat := []
  delivered : List (List Byte) := []
  /-- t_tx of the last symbol received, and its receive stamp, in 1/256 ns. -/
  tE1 : Nat := 0
  tE2 : Nat := 0
  /-- Last measured link delay, in 1/256 ns. -/
  symDelay : Int := 0
  lastSent : Option Nat := none
  deriving DecidableEq, Repr

/-- An external laser module (R318). -/
structure Laser where
  ready : Bool := false
  enabled : Bool := false
  faulted : Bool := false
  deriving DecidableEq, Repr

structure RtPort where
  used : Bool := false
  nbr : Nat := 0
  nbrPort : Nat := 0
  deriving DecidableEq, Repr

structure RtRing where
  used : Bool := false
  succ : Nat := 0
  pred : Nat := 0
  pos : Nat := 0
  size : Nat := 1
  mask : Nat := 0
  deriving DecidableEq, Repr

structure RtDest where
  valid : Bool := false
  port : Nat := 0
  altValid : Bool := false
  altPort : Nat := 0
  deriving DecidableEq, Repr

/-- A route table (Table 12-6). -/
structure Route where
  self : Nat
  members : Nat
  timeRoot : Nat
  torus : Bool
  dims : Nat × Nat × Nat
  upstream : Nat
  alt1 : Option Nat
  alt2 : Option Nat
  maxHop : Nat
  ports : Tbl RtPort
  rings : Tbl RtRing
  dests : Tbl RtDest
  deriving DecidableEq, Repr

/-- A remote read or acked write that waits for its response (R335). -/
structure Outstanding where
  dst : Nat
  tag : Nat
  op : Nat
  addr : Nat
  req : Requester
  /-- For a hart's load: rd, byte offset in the line, size, sign extension. -/
  load : Option (Nat × Nat × Nat × Bool)
  at_ : Nat
  deriving DecidableEq, Repr

/-- Requests of one source (R335). -/
structure Source where
  next : Nat := 0
  early : List RemoteMsg := []
  gapSince : Option Nat := none
  deriving DecidableEq, Repr

structure Remote where
  out : List Outstanding := []
  nextTag : Nat := 0
  pseqOut : Tbl Nat := []
  src : Tbl Source := []
  /-- Responses completed, newest last: requester, tag, error, data. -/
  done : List (Requester × Nat × Bool × List Byte) := []
  discarded : Nat := 0
  gapSkips : Nat := 0
  deriving DecidableEq, Repr

/-- A collective action in progress on a reduction engine (R337 to R341, R344). -/
structure Coll where
  stream : Nat
  entry : Nat
  code : Nat
  ring : Nat
  attempt : Nat
  epoch : Nat
  /-- This member's contribution: A128 integers, or gradient codes before round 2. -/
  own : List Int
  /-- The result, by element index. -/
  result : Tbl Int := []
  /-- Gradient rounds: own exponents, the maxima by block. -/
  exps : List Int := []
  emax : Tbl Int := []
  round2 : Bool := false
  ovf : Bool := false
  clamp : Bool := false
  ovfN : Nat := 0
  /-- Barrier: times the token has passed. -/
  passes : Nat := 0
  /-- A fixed-tree fallback (R344): FP32 sums received of the left and right child, and whether the own sum went up. -/
  fallback : Bool := false
  left : Tbl Int := []
  right : Tbl Int := []
  sentUp : Bool := false
  deriving DecidableEq, Repr

/-! ### Tiles (02 to 05) -/

/-- One pyrite cube (R70 to R73, R87). -/
structure Cube where
  /-- Accumulator (i, j) at 8 i + j. -/
  acc : Tbl (BitVec 128) := []
  /-- The stationary register, by byte. -/
  panel : Mem := []
  /-- The slices the panel holds (R71). -/
  slices : Nat := 0
  ovf : Bool := false
  clamp : Bool := false
  deriving DecidableEq, Repr

/-- A loop in progress of a vector program (R101): first instruction, number of them, passes left. -/
structure VLoop where
  start : Nat
  len : Nat
  left : Nat
  deriving DecidableEq, Repr

/-- A vector engine (Table 04-1). -/
structure Vec where
  /-- Byte b of register vr at 256 r + b. -/
  v : Mem := []
  /-- k1 to k7; k0 is all ones and read-only, and an unlisted register is zero. -/
  k : Tbl (BitVec 128) := []
  /-- a0 to a7, 40 bits. -/
  a : Tbl Nat := []
  ovf : Bool := false
  clamp : Bool := false
  /-- The instruction store. -/
  prog : Tbl Word := []
  pc : Nat := 0
  loops : List VLoop := []
  running : Bool := false
  tensor : Nat := 0
  indexBase : Nat := 0
  seed : Nat := 0
  deriving DecidableEq, Repr

/-- An update action in progress on a tile's update port (R115). -/
structure UpdAct where
  stream : Nat
  entry : Nat
  /-- Launch time, descriptor, stream table and program, fetched at the start (Table 04-10). -/
  launched : Nat
  desc : List Word
  tab : List Word
  prog : List Nat
  /-- The touched blocks of the action, by their place in it: the bitmap as it was read at the start (Table 04-10). -/
  map : List Nat := []
  /-- Pairs whose write-back has issued. -/
  next : Nat := 0
  phase2 : Bool := false
  markerWritten : Bool := false
  /-- The pre-action contents written to the retain area (R115, R119). -/
  kept : Bool := false
  deriving DecidableEq, Repr

/-- The background test of one tile memory (R137 to R141). -/
structure TestSt where
  /-- The save buffer of a step in progress. -/
  save : List Byte := []
  startAt : Option Nat := none
  /-- Quartz of the memory's last walk completion (R141). -/
  lastWalk : Nat := 0
  deriving DecidableEq, Repr

/-- A repair of a sub-array of a tile memory: 8 × tile + memory, sub-array, row or column, and its number (R139, R140). -/
structure Repair where
  mem : Nat
  sub : Nat
  row : Bool
  no : Nat
  deriving DecidableEq, Repr

/-- A physical tile, without its memory and cubes. -/
structure Tile where
  /-- Owner of banks 0 to 3: 0 none, 1 feeder, 2 vector engine, 4 exchange, 8 + d Dray d (R122). -/
  owner : Tbl Nat := []
  vec : Vec := {}
  upd : Option UpdAct := none
  /-- Epoch flags and their counts (R56, R87). -/
  ovf : Bool := false
  clamp : Bool := false
  ovfN : Nat := 0
  clampN : Nat := 0
  /-- Memories 0 to 3 (banks) and 4 (exchange). -/
  tests : Tbl TestSt := []
  /-- The region, of 384 of tile SRAM and 16 of exchange SRAM, that the background test takes next (R137). -/
  walk : Nat := 0
  deriving DecidableEq, Repr

/-! ### Images, jobs, partitions (06, 14) -/

structure Seg where
  startNom : Nat
  startDeg : Nat
  slackNom : Nat
  slackDeg : Nat
  deriving DecidableEq, Repr

structure EpochRow where
  lenNom : Nat
  lenDeg : Nat
  segs : List Seg
  deriving DecidableEq, Repr

/-- A Slate entry (Table 06-4). -/
structure Entry where
  launchNom : Nat
  launchDeg : Nat
  budgetNom : Nat
  budgetDeg : Nat
  segment : Nat
  epoch : Nat
  /-- Valid gates: stream, count (Table 06-5). -/
  gates : List (Nat × Nat)
  /-- The eight words of the action descriptor. -/
  desc : List Word
  /-- Memories of its tile that a vector program accesses, as installation has worked them out (R99, R124). -/
  banks : NatSet := []
  deriving DecidableEq, Repr

/-- An installed Slate image (R154 to R158). -/
structure Image where
  addr : Nat
  len : Nat
  service : Bool
  members : Nat
  seed : Nat
  nEpochs : Nat
  holdQuantum : Nat
  holdLimit : Nat
  holdLead : Nat
  recovery : Nat
  slotNum : Nat := 0
  slotDen : Nat := 1
  svcQueue : Nat := 0
  bindLead : Nat := 0
  epochs : List EpochRow
  /-- Entries by stream, in image order. -/
  streams : Tbl (List Entry)
  /-- Update stream tables, 48 words each (R108). -/
  utabs : List (List Word)
  digest : List Byte
  /-- For each request buffer: read, written (R365). -/
  bufUse : List (Bool × Bool)
  deriving DecidableEq, Repr

/-- A bound service request (R365): queue, descriptor words, and the fixed extent of each buffer: UMR or
aperture address and bytes. -/
structure Bound where
  queue : Nat
  desc : List Word
  bufs : List (Nat × Nat)
  deriving DecidableEq, Repr

/-- A notice that is held until its instant (R178). -/
structure HeldNotice where
  n : Notice
  applied : Bool := false
  deriving DecidableEq, Repr

/-- The open job or session of a partition (R164 to R186, R418). -/
structure Job where
  id : Nat
  t0 : Nat
  recQueue : Nat := 0
  irq : Bool := false
  sealSlot : Option Nat := none
  service : Bool := false
  members : Nat := 1
  /-- T0 has been reached, or a slot is open. -/
  running : Bool := false
  openedAt : Nat := 0
  /-- Service: the next slot to open, or the one in progress while running. -/
  slot : Nat := 0
  bound : Option Bound := none
  /-- The request bound to the next slot to open (R185). -/
  nextBound : Option Bound := none
  /-- The lowest epoch not committed of the job or slot, and those committed in earlier slots. -/
  epoch : Nat := 0
  epochBase : Nat := 0
  localDone : Bool := false
  /-- Commit notices held: epoch (counted across slots) × 1024 + origin. -/
  commits : NatSet := []
  /-- First epoch in degraded mode, counted across slots. -/
  degFrom : Option Nat := none
  holds : Nat := 0
  replays : Nat := 0
  lateNotices : Nat := 0
  fallbacks : Nat := 0
  skipped : Nat := 0
  late : Bool := false
  replayed : Bool := false
  degraded : Bool := false
  inexact : Bool := false
  trunc : Bool := false
  ovfN : Nat := 0
  clampN : Nat := 0
  /-- Flags and counts of the epoch that have not been committed (R58). -/
  epTrunc : Bool := false
  epOvfN : Nat := 0
  epClampN : Nat := 0
  /-- Flags without a count that a collective carried (R59, R340). -/
  epOvf : Bool := false
  epClamp : Bool := false
  /-- Replays of the epoch (R340). -/
  attempt : Nat := 0
  serial : Nat := 0
  notices : List HeldNotice := []
  /-- Copies already held: origin, serial. -/
  seen : List (Nat × Nat) := []
  /-- Consecutive holds of an entry, by its key (R181). -/
  consec : Tbl Nat := []
  /-- A replay in progress: the instant at which entries launch again. -/
  restartAt : Option Nat := none
  /-- Retirements since the job opened, the first retired tile, and tiles to remap at the boundary. -/
  retires : Nat := 0
  firstRetired : Option Nat := none
  remap : Tbl (Option Nat) := []
  /-- Digests marked by receipt fields: (stream, epoch, entry) × bytes (R360). -/
  digIn : List ((Nat × Nat × Nat) × List Byte) := []
  digOut : List ((Nat × Nat × Nat) × List Byte) := []
  epDigIn : List ((Nat × Nat × Nat) × List Byte) := []
  epDigOut : List ((Nat × Nat × Nat) × List Byte) := []
  /-- Update actions launched in the epoch: stream, entry, launch time (R115, R119). -/
  upds : List (Nat × Nat × Nat) := []
  /-- Causes that arose before the completion: reset, power, retire (R9). -/
  causes : List Nat := []
  /-- A JOB_CLOSE that waits for the slot's end: channel, seq. -/
  closing : Option (Nat × Nat) := none
  deriving DecidableEq, Repr

/-- An occupied seal slot (R389). -/
structure Seal where
  root : List Byte
  base : Nat
  len : Nat
  deriving DecidableEq, Repr

/-- A partition (Table 14-5, Table 07-5, Table 08-8). -/
structure Part where
  chan : Nat := 0
  ring : Bool := false
  redMask : Nat := 0
  tiles : Nat × Nat := (0, 0)
  queues : Nat × Nat := (0, 0)
  regions : Nat × Nat := (0, 0)
  drayMask : Nat := 0
  portMask : Nat := 0
  wayMask : List Nat := [0, 0, 0, 0]
  pfDepth : Nat := 0
  rates : List Nat := [0, 0, 0, 0]
  bursts : List Nat := [0, 0, 0, 0]
  quotas : List Nat := [0, 0, 0, 0]
  rdRates : List Nat := [0, 0, 0, 0]
  pgRates : List Nat := [0, 0, 0, 0]
  /-- Extent ranges: first extent, count. -/
  ranges : List (Nat × Nat) := []
  /-- Held frames of each die that hold no pinned extent (R237). -/
  held : List NatSet := [[], [], [], []]
  image : Option Image := none
  offset : Nat := 0
  seals : Tbl Seal := []
  job : Option Job := none
  lastJob : Option Job := none
  /-- A PART_DISSOLVE that waits for the records of the partition's queues: channel, seq (R385). -/
  dissolving : Option (Nat × Nat) := none
  /-- A PART_CREATE that waits for quota frames: channel, seq, clamps made (R237). -/
  creating : Option (Nat × Nat × Nat) := none
  deriving DecidableEq, Repr

/-- Sequencer states (Table 06-10); their codes are 0 to 7. -/
inductive SeqState where
  | idle | installed | armed | wait | late | epoch | replay | done
  deriving DecidableEq, Repr

/-- A launched entry that has not completed: index within its epoch, launch time, and what it still waits for
(coded by the operation that runs it; 0: only its completion). -/
structure Flight where
  idx : Nat
  at_ : Nat
  waits : Nat := 0
  /-- Tokens its requests wait for: bucket (flash buckets from 2^20) and the total asked that must be paid (R198, R219). -/
  needs : List (Nat × Nat) := []
  deriving DecidableEq, Repr

/-- A sequencer (R159, R165, R169). -/
structure Seq where
  st : SeqState := .idle
  part : Nat := 0
  epoch : Nat := 0
  /-- Index within the epoch of the next entry to launch. -/
  entry : Nat := 0
  inflight : List Flight := []
  /-- Completed entries of the epoch. -/
  done : NatSet := []
  /-- Watermark visible at each latency class of Table 06-8 (0 same stream to 3 different halves). -/
  vis : Tbl Nat := []
  /-- The entries (epoch, index) reported at their P + S (R177). -/
  reported : List (Nat × Nat) := []
  deriving DecidableEq, Repr

/-! ### Queues, regions, PCIe (13) -/

/-- A completion record (Table 13-3) that waits to be written, and whether its descriptor asked for an interrupt. -/
structure Rec where
  kind : Nat
  seq : Nat
  tag : Nat
  status : Nat
  count : Nat := 0
  job : Nat := 0
  irq : Bool
  /-- The wait for a full ring has been counted (R354). -/
  counted : Bool := false
  /-- The log index of the job's receipt (R418). -/
  logIdx : Option Nat := none
  /-- Tokens its command's requests wait for, as in `Flight`. -/
  needs : List (Nat × Nat) := []
  deriving DecidableEq, Repr

inductive QRun where
  | disabled | running | parked
  deriving DecidableEq, Repr

/-- A queue context (Table 13-1) and the engine's work on the queue. -/
structure QCtx where
  sqBase : Nat := 0
  sqLog : Nat := 0
  cqBase : Nat := 0
  cqLog : Nat := 0
  enable : Bool := false
  qtype : Nat := 0
  state : QRun := .disabled
  cfgErr : Bool := false
  dray : Nat := 0
  irqEn : Bool := false
  irqHart : Nat := 0
  irqFile : Nat := 0
  irqId : Nat := 0
  head : Nat := 0
  expSeq : Nat := 0
  sqPhase : Bool := false
  cqPhase : Bool := false
  cqTail : Nat := 0
  dbTail : Nat := 0
  dbSeq : Nat := 0
  cqHead : Nat := 0
  /-- A descriptor read is in progress. -/
  reading : Bool := false
  /-- A re-poll is due: its number 1 to 16 and its instant. -/
  repoll : Option (Nat × Nat) := none
  /-- The number of the re-poll whose read is in progress; 0 for the first read. -/
  repollNo : Nat := 0
  /-- Accepted and not started, oldest first: descriptor words and acceptance time. -/
  accepted : List (List Word × Nat) := []
  /-- The command in progress: it has run on its Dray and its record has not been performed. -/
  cur : Option (List Word) := none
  /-- Records that wait to be performed, oldest first. -/
  recs : List Rec := []
  disabling : Bool := false
  deriving DecidableEq, Repr

/-- A queue command of a Dray that waits for lines of another package (R357, R335): its queue, and the bytes that have
arrived by remote address. -/
structure DrayWait where
  queue : Nat
  got : Mem := []
  lines : NatSet := []
  deriving DecidableEq, Repr

/-- A region entry (Table 13-11). -/
structure Region where
  valid : Bool := false
  inRd : Bool := false
  inWr : Bool := false
  drayRd : Bool := false
  drayWr : Bool := false
  msi : Bool := false
  port : Nat := 0
  rid : Nat := 0
  ridMask : Nat := 0
  err : Bool := false
  pcieBase : Nat := 0
  target : Nat := 0
  lenPages : Nat := 0
  deriving DecidableEq, Repr

/-- DBL_ counters (Table 19-5). -/
structure Dbl where
  aheadLast : Nat := 0
  aheadCount : Nat := 0
  discards : Nat := 0
  deriving DecidableEq, Repr

structure Pcie where
  p2p : Tbl Nat := []
  /-- bif of each root port (R368). -/
  bifs : List Nat := [0, 0, 0, 0]
  link : NatSet := []
  /-- Accesses to a window whose link is down (R25), and inbound requests that resolved nowhere (R371). -/
  downs : Nat := 0
  unresolved : Nat := 0
  deriving DecidableEq, Repr

/-! ### The Caboose (14) -/

/-- A mailbox channel (Table 14-1). -/
structure Chan where
  req : Mem := []
  reply : Mem := []
  busy : Bool := false
  replyValid : Bool := false
  ubusy : Bool := false
  gen : Nat := 0
  lastSeq : Nat := 0
  lastStatus : Nat := 0
  irqEn : Bool := false
  irqHart : Nat := 0
  irqFile : Nat := 0
  ucmd : Nat := 0
  ustatus : Nat := 0
  discards : Nat := 0
  /-- The reply of the last executed request (R379). -/
  stored : List Word := []
  clampSeq : Nat := 0
  clamps : List (Word × Word) := []
  /-- The request has not been executed: its place in the order behind an earlier one that it waits for (R382). -/
  turn : Option Nat := none
  deriving DecidableEq, Repr

/-- An event record (R12, R395). -/
structure EventRec where
  code : Nat
  unit : Nat
  cause : Nat
  at_ : Nat
  deriving DecidableEq, Repr

/-! ### Life-cycle and receipts (15) -/

/-- A boot slot (R414). -/
structure BootSlot where
  serial : Nat := 0
  svn : Nat := 0
  valid : Bool := false
  digest : List Byte := []
  deriving DecidableEq, Repr

structure LifeCycle where
  /-- State code of Table 15-1: 1 BLANK, 2 PROVISIONED, 3 DEPLOYED, 4 RMA, 5 SCRAP. -/
  state : Nat := 1
  transCount : Nat := 0
  rmaEntries : Nat := 0
  svnCab : Nat := 0
  svnProc : Nat := 0
  /-- Commits of each type of image (R415). -/
  commitsCab : Nat := 0
  commitsProc : Nat := 0
  deviceId : Nat := 0
  /-- PUF enrolment done, and tries (R410). -/
  enrolled : Bool := false
  tries : Nat := 0
  tamper : Bool := false
  tamperCause : Nat := 0
  /-- Type × 2 + slot: Caboose 0, processor 1. One slot of each holds the image that runs (log 1). -/
  slots : Tbl BootSlot := [(0, { serial := 1, valid := true }), (2, { serial := 1, valid := true })]
  runCab : Nat := 0
  runProc : Nat := 0
  deriving DecidableEq, Repr

/-- A basalt vault (R142 to R146). -/
structure Vault where
  /-- A wipe ends at this time. -/
  wiping : Option Nat := none
  /-- It holds the keys of the life-cycle state; in BLANK there are none (R401, R410). -/
  keys : Bool := false
  data : Mem := []
  /-- A stored word holds an error of two bits or more (R146; log 52). -/
  bad : Bool := false
  region : Nat := 0
  save : List Byte := []
  deriving DecidableEq, Repr

/-- A batch of receipts (R419, R420). -/
structure Batch where
  num : Nat
  first : Nat
  count : Nat := 0
  openedAt : Nat
  /-- Quartz at closing. -/
  closedAt : Option Nat := none
  /-- The record once it is written; a batch whose signing was stopped never gets one. -/
  record : List Byte := []
  stopped : Bool := false
  deriving DecidableEq, Repr

structure Receipts where
  /-- Receipts by log index. -/
  log : Tbl (List Byte) := []
  next : Nat := 0
  batches : List Batch := []
  nextBatch : Nat := 0
  deriving DecidableEq, Repr

/-! ### Power and thermal (16) -/

/-- A power domain (R427 to R439). -/
structure Dom where
  point : Nat
  target : Option Nat := none
  highest : Nat := 15
  limit : Nat := 15
  /-- Throttling is in force (R436). -/
  throttled : Bool := false
  deriving DecidableEq, Repr

structure Power where
  /-- Input, mV. -/
  vin : Nat := 48000
  fault : Bool := false
  armed : Bool := true
  rails : Bool := true
  islands : Bool := true
  cap : Nat := 3200
  newCap : Option Nat := none
  /-- The POWER_SET that is answered at the next boundary: channel, seq, clamps (R430). -/
  capReply : Option (Nat × Nat × Nat) := none
  doms : Tbl Dom := []
  allow : List Nat := []
  mean : List Nat := []
  excess : Nat := 0
  input : Nat := 0
  floored : Bool := false
  maxInput : Bool := false
  capFloor : Bool := false
  supplyWarn : Bool := false
  /-- Guardband of each die in mV where it was raised (R438). -/
  guard : Tbl Nat := []
  trip : Option (Nat × Nat) := none
  stretch : Tbl Nat := []
  lastInterval : Nat := 0
  deriving DecidableEq, Repr

structure Thermal where
  /-- Hottest sensor of each die, and stack temperatures, 0.1 °C. -/
  tj : List Int := []
  /-- Hottest of the present control interval, and of the last (item 0x0308). -/
  peak : List Int := []
  last : List Int := []
  hot : NatSet := []
  temps : List Int := []
  over95 : NatSet := []
  over85 : NatSet := []
  flag : Bool := false
  /-- Since when every sensor of a die has read below 102 °C, and a stack below 92 °C (R436). -/
  coolSince : Tbl Nat := []
  stackCool : Tbl Nat := []
  deriving DecidableEq, Repr

/-! ### Bring-up and the persistent record (17, 18) -/

structure BringUp where
  /-- 0 in progress, 1 complete, 2 safe state, 3 as Table 17-4 gives. -/
  state : Nat := 1
  step : Nat := 14
  /-- Completion of each step in µs after the release of the islands; 0 if not completed. -/
  done : Tbl Nat := [(1, 200), (2, 1000), (3, 6000), (4, 6200), (5, 200000), (6, 2000000), (7, 5000000), (8, 12000000),
    (9, 12010000), (10, 22000000), (11, 38000000), (12, 38200000), (13, 40000000), (14, 45000000)]
  cause : Nat := 0
  unit : Nat := 0
  at_ : Nat := 0
  count : Nat := 1
  copies : Nat := 3
  /-- Steps of Table 17-1 still to run while a bring-up waits for PWR_GOOD_IN or RESET_IN_N (R451, R468). -/
  todo : List Nat := []
  /-- What is off since a POWER_DOWN: the rails stay off until a power restart (R451). -/
  down : Bool := false
  /-- Tiles retired at steps 7 and 8 and not yet reported, with the cause of each: step 13 raises EV_RETIRE (Table 17-1). -/
  retires : List (Nat × Nat) := []
  deriving DecidableEq, Repr

/-- Input and output pins (Table 18-4). -/
structure Pins where
  pwrGood : Bool := true
  resetN : Bool := true
  safeOut : Bool := false
  tamperOutN : Bool := true
  thermTripN : Bool := true
  lidB : Bool := true
  peRst : Bool := true
  deriving DecidableEq, Repr

/-- An entry of the persistent record (R449): its kind and two numbers. -/
structure RecEntry where
  kind : Nat
  a : Nat
  b : Nat := 0
  deriving DecidableEq, Repr

structure PRecord where
  committed : List RecEntry := []
  buffered : List RecEntry := []
  deriving DecidableEq, Repr

/-! ### External management (14, 15) -/

/-- The I3C port of one island (R397, R398). -/
structure Mgmt where
  addr : Option Nat := none
  eid : Nat := 0
  /-- SPDM connection: 0 none, 1 version, 2 capabilities, 3 algorithms negotiated. -/
  spdm : Nat := 0
  /-- Session: 0 none, 1 key exchange done, 2 established. -/
  session : Nat := 0
  /-- Messages of the connection so far (the transcript). -/
  transcript : List Byte := []
  uart : List Byte := []
  deriving DecidableEq, Repr

/-! ### What leaves the package -/

/-- What the package has sent outside or between its dies: log 5. -/
inductive Out where
  | notice (port : Nat) (n : Notice)
  /-- A timing symbol: t_tx, t_e1, t_e2 and t_hold (R330). -/
  | symbol (port tTx tE1 tE2 tHold : Nat)
  | remote (m : RemoteMsg)
  | collective (p : CollPacket)
  /-- A flit on a direction of a coupling link; idle flits that say nothing are not listed (log 65). -/
  | flit (link dir : Nat) (bytes : List Byte)
  /-- A frame of a Nguix port; idle frames that say nothing are not listed (log 65). -/
  | frame (port : Nat) (bytes : List Byte)
  | pcieRead (sub addr len : Nat)
  | pcieWrite (sub addr : Nat) (data : List Byte)
  | pcieForward (sub rid addr : Nat) (write : Bool) (data : List Byte)
  /-- A completion: `ok` is false for Unsupported Request, `ep` tells that the data are poisoned. -/
  | pcieDone (sub rid : Nat) (ok ep : Bool) (data : List Byte)
  | announce (port number own : Nat)
  | i3c (hd : Nat) (msg : List Byte)
  /-- A sensor reading in the units of Table 16-4; none where the identifier names no sensor (R398). -/
  | pldm (hd sensor : Nat) (reading : Option Int)
  /-- The content of an SPDM answer to a request code, or an SPDM error (R398). -/
  | spdm (hd code : Nat) (content : Option (List Byte))
  | uart (hd : Nat) (c : Byte)
  | tap (code : Nat) (data : Nat)
  deriving DecidableEq, Repr

/-- The latest read return on the fabric (R246, R247). -/
structure ReadRet where
  req : Requester
  addr : Nat
  data : List Byte
  poison : Bool := false
  err : Bool := false
  deriving DecidableEq, Repr

end Sys2Proof.Machine
end

