-- ==== Sys2Proof/Machine/State.lean ====
section
/-! DEFINITION. The state of the package as plain data, and the state after reset. -/

namespace Sys2Proof.Machine

/-- The LX-3200. A default value is the value after reset: the package after a wake from off whose bring-up
met no fault (log 1). -/
structure State where
  /-- The commands that wait, first in first out. -/
  pending : List Instr := []
  /-- How many free values have been drawn (log 3). -/
  freeCtr : Nat := 0
  /-- What has been sent outside, newest last (log 5). -/
  out : List Out := []
  /-- The latest read return on the fabric (R246, R247; log 5). -/
  ret : Option ReadRet := none
  quartz : Quartz := {}
  /-- Present contents by UMR address (R18). -/
  mem : Mem := []
  /-- Flash-space contents of each extent as of its last switch (R216, R217; log 4). -/
  flash : Mem := []
  /-- Poisoned 64 B lines, by UMR address / 64 (R196). -/
  poison : NatSet := []
  /-- Poisoned lines of flash spaces, by UMR address / 64 (R196, R228). -/
  flashPoison : NatSet := []
  /-- Erroneous stored bits of lines in HBM, by UMR address / 64 (R194; log 52). -/
  lineErr : Tbl Nat := []
  /-- Extents; one not listed is as R21, R191 and R216 leave it after a wake from off. -/
  exts : Tbl Ext := []
  /-- Free frames of the shared pool of each compute die (R190, R237). -/
  freeFrames : List NatSet := [[], [], [], []]
  /-- Promotions that wait for a frame, oldest first (R239). -/
  tierWait : List TierReq := []
  /-- HBM buckets by stack × 16 + partition (R198). -/
  hbmBuckets : Tbl Bucket := []
  /-- Corrected errors of an HBM row since the last power-on, by `rowKey` (R195; log 29). -/
  hbmRows : Tbl Nat := []
  /-- HBM channels that stopped, by stack × 64 + channel (R197). -/
  deadCh : NatSet := []
  wrc : Wrc := {}
  /-- Flash read buckets by stack × 16 + partition (R219). -/
  flBuckets : Tbl Bucket := []
  /-- Flash stacks F0 to F3 (R223). -/
  flStacks : Tbl Stack := []
  /-- The instant of the latest sector-path reads, and their sectors, extent × 512 + sector (R218; log 60). -/
  sectors : Nat × NatSet := (0, [])
  windows : List Window := []
  tenders : Tbl Tender := []
  /-- Directory and cache contents by line, UMR address / 64 (R262). -/
  dir : Tbl Line := []
  /-- Homes 0 to 17 (R484). -/
  homes : Tbl Home := []
  /-- Requests that wait at their requester: a release for earlier writes (R251), and what follows it to its line (R256). -/
  reqWait : List WaitReq := []
  harts : Tbl Hart := []
  /-- Range-flush engines of PD0 and PD1 (R287). -/
  rfs : Tbl RangeFlush := []
  /-- Coupling directions by link × 2 + direction (R299). -/
  links : Tbl LinkDir := []
  /-- Package feature level: 0x1F is FL-B, 0x07 FL-A (R314; log 12). -/
  level : Nat := 0x1F
  /-- Revisions of the dies in the order of item 0x0232 (Table 11-7; log 12). -/
  revs : List Nat := [16, 16, 16, 16, 16, 16, 16, 16, 16, 16, 16, 16]
  /-- The degraded condition (R182). -/
  degraded : Bool := false
  ports : Tbl Port := []
  lasers : Tbl Laser := []
  route : Option Route := none
  remote : Remote := {}
  /-- Collective actions in progress, by reduction engine (R337). -/
  colls : Tbl Coll := []
  /-- Collective packets that came before their action or round, by engine (R337). -/
  collEarly : Tbl (List CollPacket) := []
  /-- Tile and exchange SRAM by physical tile × 0x20_0000 + address (R121). -/
  tileMem : Mem := []
  /-- Erroneous bits of a stored 128-bit word of tile or exchange SRAM, by byte address of `tileMem` / 16 (R134; log 52). -/
  tileErr : Tbl Nat := []
  /-- Fuse repairs of tile memories, and the repairs in force (R140; log 52). -/
  fuses : List Repair := []
  repairs : List Repair := []
  /-- Physical tiles 0 to 575. -/
  tiles : Tbl Tile := []
  /-- Cubes by physical tile × 16 + cube. -/
  cubes : Tbl Cube := []
  /-- Fused spare positions (R89; log 1). -/
  spares : NatSet := [136, 137, 138, 139, 140, 141, 142, 143, 280, 281, 282, 283, 284, 285, 286, 287,
    424, 425, 426, 427, 428, 429, 430, 431, 568, 569, 570, 571, 572, 573, 574, 575]
  /-- Where a logical tile stands, when that is not its position by R90: `none` is unbacked (R92). -/
  map : Tbl (Option Nat) := []
  parts : Tbl Part := []
  /-- The last job of partitions that a package reset ended (R187). -/
  lastJobs : Tbl Job := []
  /-- Sequencers by stream (R156). -/
  seqs : Tbl Seq := []
  queues : Tbl QCtx := []
  regions : Tbl Region := []
  dbl : Dbl := {}
  pcie : Pcie := {}
  /-- The queue each Dray served last (R355). -/
  drayLast : Tbl Nat := []
  /-- Commands of a Dray that wait for remote data, by Dray (R335, R357). -/
  drayWait : Tbl DrayWait := []
  /-- The hub die whose Caboose is active (R375). -/
  active : Option Nat := some 0
  /-- HD1's Caboose took over (R375). -/
  standby : Bool := false
  chans : Tbl Chan := []
  /-- The event log, oldest first (R395). -/
  events : List EventRec := []
  /-- Telemetry counters by item × 65536 + index (Table 14-7). -/
  ctr : Tbl Nat := []
  lc : LifeCycle := {}
  vaults : Tbl Vault := []
  rcpt : Receipts := {}
  power : Power := {}
  thermal : Thermal := {}
  bu : BringUp := {}
  pins : Pins := {}
  record : PRecord := {}
  mgmt : Tbl Mgmt := []
  /-- The instruction in the TAP's instruction register (R401; log 15). -/
  tap : Nat := 1
  deriving DecidableEq, Repr

/-- Why the block stops. -/
inductive Fault where
  /-- A command's operand names no unit of Table 00-3 or carries a value its field cannot hold, so it is no command
  of the package (R2). Raised by every command that takes such an operand. Safe: nothing is claimed of it. -/
  | noSuchUnit
  deriving DecidableEq, Repr

/-- Why the model has no meaning to give. -/
inductive Refusal where
  /-- The command has no meaning in the model yet. Raised by an arm of `exec` alone. Safe. -/
  | notModelled (mnemonic : String)
  deriving DecidableEq, Repr

/-- The package right after a wake from off that met no fault (log 1): every field at its default. -/
def State.reset : State := {}

/-- The outcome of a command. -/
abbrev Out1 := Host.Outcome State Fault Refusal

end Sys2Proof.Machine
end

