-- ==== Sys2Proof/WellFormed.lean ====
section
/-! DEFINITION. Which terms of `Instr` are commands of the package: every unit number in its range of
Table 00-3 (R2), every field within its width, every message within its size. -/

namespace Sys2Proof

/-- Hub dies HD0 and HD1. -/
def okHub (d : Nat) : Bool := decide (d < 2)
def okHart (h : Nat) : Bool := decide (h < 96)
def okReg (r : Nat) : Bool := decide (r < 32)
def okChan (c : Nat) : Bool := decide (c < 16)
def okQueue (q : Nat) : Bool := decide (q < 16384)
def okRegion (r : Nat) : Bool := decide (r < 4096)
def okPart (p : Nat) : Bool := decide (p < 16)
def okStream (s : Nat) : Bool := decide (s < 600)
def okTile (t : Nat) : Bool := decide (t < 576)
def okDray (d : Nat) : Bool := decide (d < 40)
def okNport (p : Nat) : Bool := decide (p < 20)
def okSub (p : Nat) : Bool := decide (p < 16)
def okPkg (p : Nat) : Bool := decide (p < 1024)
def okExt (x : Nat) : Bool := decide (x < 4059136)
/-- A 56-bit physical address (R17). -/
def okAddr (a : Nat) : Bool := decide (a < 2 ^ 56)
/-- A byte range of 56-bit addresses. -/
def okSpan (a n : Nat) : Bool := decide (a + n ≤ 2 ^ 56)
/-- A line of the backed UMR (R17). -/
def okLine (l : Nat) : Bool := decide (l < 0x1EF80000000 / 16)
/-- A natural access size in bytes. -/
def okSize (n : Nat) : Bool := n == 1 || n == 2 || n == 4 || n == 8

/-- The payload fits the request area (R378). -/
def okPayload (pl : List Word) : Bool := decide (pl.length ≤ 255)

def okSubmission : Submission → Bool
  | .go _ pl => okPayload pl
  | .urgent _ => true

def okRequester : Requester → Bool
  | .hart h => okHart h
  | .dray d => okDray d
  | .updatePort t => okTile t
  | .queueEngine d => okHub d
  | .collective e => decide (e < 16)
  | .caboose d => okHub d
  | .pcie p r => okSub p && decide (r < 65536)
  | .remote p => okPkg p

/-- The requesters of the coherent path (Table 09-1): all of this package. -/
def okCoherent : Requester → Bool
  | .remote _ => false
  | .hart _ => true
  | .dray _ => true
  | .updatePort _ => true
  | .queueEngine _ => true
  | .collective _ => true
  | .caboose _ => true
  | .pcie _ _ => true

/-- The requesters of the direct path (Table 09-1). -/
def okDirect : Requester → Bool
  | .remote _ => true
  | .hart _ => true
  | .dray _ => true
  | .pcie _ _ => true
  | .updatePort _ => false
  | .queueEngine _ => false
  | .collective _ => false
  | .caboose _ => false

/-- The requesters of the sector path (Table 08-2). -/
def okSector : Requester → Bool
  | .dray _ => true
  | .updatePort _ => true
  | .remote _ => false
  | .hart _ => false
  | .pcie _ _ => false
  | .queueEngine _ => false
  | .collective _ => false
  | .caboose _ => false

def okWork : DrayWork → Bool
  | .queue q => okQueue q
  | .stream s => decide (544 ≤ s) && decide (s < 584)

/-- The units and lists a self-test outcome names exist. -/
def okTest (t : SelfTest) : Bool :=
  (match t.critical with
   | some (st, c, _) => decide (1 ≤ st) && decide (st ≤ 14) && decide (1 ≤ c) && decide (c ≤ 15)
   | none => true) &&
  t.bist.all okTile && t.march.all okTile && t.lanes.all (fun e => decide (e.1 < 82) && decide (e.2 < 68)) &&
  t.overruns.all (fun e => decide (e.1 < 82) && decide (1 ≤ e.2) && decide (e.2 ≤ 6) && decide (e.2 ≠ 4)) &&
  decide (t.bifPins.length = 4) && t.bifPins.all (fun b => decide (b < 4)) &&
  decide (t.revisions.length = 12) && t.revisions.all (fun r => r == 0 || r == 16) && t.readOnly.all (fun f => decide (f < 4))

def okNotice (n : Notice) : Bool :=
  decide (n.kind < 8) && okPkg n.origin && decide (n.cause < 16) && decide (n.serial < 2 ^ 32) &&
  decide (n.epoch < 2 ^ 32) && decide (n.job < 2 ^ 64) && decide (n.instant < 2 ^ 64) && decide (n.n < 2 ^ 32)

def okMsg (m : RemoteMsg) : Bool :=
  okPkg m.dst && okPkg m.src && decide (m.op < 16) && decide (m.tag < 4096) && decide (m.pseq < 65536) &&
  decide (m.addr < 2 ^ 43) && decide (m.data.length = 64)

def okColl (p : CollPacket) : Bool :=
  decide (p.engine < 16) && decide (p.ring < 16) && decide (p.entry < 2 ^ 20) && okPkg p.origin && decide (p.step < 2048) &&
  decide (p.attempt < 256) && decide (p.epoch < 2 ^ 32) && decide (p.elems.length ≤ 30)

/-- The failing rows and columns of a march lie in sub-arrays of the memory: 48 of a bank, 8 of the exchange SRAM (R140). -/
def okOutcome (m : Nat) (o : TestOutcome) : Bool :=
  match o with
  | .march _ fs => fs.all (fun f => decide (f.1 < (if m = 4 then 8 else 48)))
  | _ => true

/-- The term is a command of the package. -/
def Instr.wellFormed : Instr → Bool
  | .versionHello ch _ pl => okChan ch && okPayload pl
  | .partCreate ch _ pl => okChan ch && okPayload pl
  | .partDissolve ch _ pl => okChan ch && okPayload pl
  | .slateInstall ch _ pl => okChan ch && okPayload pl
  | .jobOpen ch _ pl => okChan ch && okPayload pl
  | .jobClose ch _ pl => okChan ch && okPayload pl
  | .sealModel ch _ pl => okChan ch && okPayload pl
  | .tileRetire ch sub => okChan ch && okSubmission sub
  | .telemetryRead ch _ pl => okChan ch && okPayload pl
  | .clampReportRead ch _ pl => okChan ch && okPayload pl
  | .receiptFetch ch _ pl => okChan ch && okPayload pl
  | .routeInstall ch _ pl => okChan ch && okPayload pl
  | .powerSet ch _ pl => okChan ch && okPayload pl
  | .powerDown ch sub => okChan ch && okSubmission sub
  | .reset ch sub => okChan ch && okSubmission sub
  | .packageReset ch sub t => okChan ch && okSubmission sub && okTest t
  | .lifecycleAdvance ch _ pl t => okChan ch && okPayload pl && okTest t
  | .lifecycleStage ch _ pl => okChan ch && okPayload pl
  | .lifecycleCommit ch _ pl => okChan ch && okPayload pl
  | .cbxAck ch _ _ => okChan ch
  | .cbxIrqWrite ch _ _ => okChan ch
  | .cbxDiscardsRead h rd ch _ => okHart h && okReg rd && okChan ch
  | .standbyTakeover t => okTest t
  | .registerWrite h tgt _ => okHart h && (match tgt with | .mmio a _ => okAddr a | .csr n rd _ => decide (n < 4096) && okReg rd)
  | .queueEnable q _ _ => okQueue q
  | .queueDisable q _ _ => okQueue q
  | .regionValidate r _ _ => okRegion r
  | .regionInvalidate r _ _ => okRegion r
  | .qtzLoad _ _ => true
  | .qtzStateWrite _ _ => true
  | .dblAheadCountRead h rd _ => okHart h && okReg rd
  | .dblDiscardsRead h rd _ => okHart h && okReg rd
  | .fncMismatchRead h rd u _ => okHart h && okReg rd && decide (u < 18)
  | .pwrFlagsWrite _ _ => true
  | .thmFlagsWrite _ _ => true
  | .hartLoad h rd a n _ => okHart h && okReg rd && okSize n && okSpan a n
  | .hartStore h rs a n => okHart h && okReg rs && okSize n && okSpan a n
  | .scld h _ => okHart h
  | .scst h _ => okHart h
  | .scfence h _ => okHart h
  | .fence h _ _ _ => okHart h
  | .qsubmit h _ => okHart h
  | .cboClean h a => okHart h && okAddr a
  | .cboFlush h a => okHart h && okAddr a
  | .cboInval h a => okHart h && okAddr a
  | .cboZero h a => okHart h && okAddr a
  | .qtimeRead h rd => okHart h && okReg rd
  | .sipiWrite h _ => okHart h
  | .mipiWrite h _ => okHart h
  | .machineTimer h => okHart h
  | .rfClean h _ => okHart h
  | .rfFlush h _ => okHart h
  | .rfInvalidate h _ => okHart h
  | .rfComplete pd => decide (pd < 2)
  | .coherentRead r a n _ => okRequester r && okCoherent r && okSpan a n && decide (0 < n) && decide (a / 64 = (a + n - 1) / 64)
  | .coherentWrite r a d _ => okRequester r && okCoherent r && okSpan a d.length && decide (0 < d.length) && decide (a / 64 = (a + d.length - 1) / 64)
  | .directRead r a n _ => okRequester r && okDirect r && okSpan a n && decide (0 < n) && decide (a / 64 = (a + n - 1) / 64)
  | .directWrite r a d => okRequester r && okDirect r && okSpan a d.length && decide (0 < d.length) && decide (a / 64 = (a + d.length - 1) / 64)
  | .directWriteDrain u => decide (u < 18)
  | .lineWriteback c l => decide (c < 98) && okLine l
  | .grantHoldExpiry l => okLine l
  | .snoopAnswer l => okLine l
  | .doorbell q _ => okQueue q
  | .descriptorReadReturn q => okQueue q
  | .descriptorRepoll q => okQueue q
  | .completionRecord q => okQueue q
  | .copy w => okWork w
  | .gather w => okWork w
  | .scatter w => okWork w
  | .convert w => okWork w
  | .digest w => okWork w
  | .invalidate w => okWork w
  | .cubeOperation st => decide (st < 544)
  | .vectorProgram st => decide (st < 544)
  | .updateProgram st => decide (st < 544)
  | .bankGrant st => decide (st < 544)
  | .nullAction st => okStream st
  | .allReduce st => decide (584 ≤ st) && okStream st
  | .reduceScatter st => decide (584 ≤ st) && okStream st
  | .allGather st => decide (584 ≤ st) && okStream st
  | .gradientAllReduce st => decide (584 ≤ st) && okStream st
  | .barrier st => decide (584 ≤ st) && okStream st
  | .promote st => decide (544 ≤ st) && decide (st < 584)
  | .demote st => decide (544 ≤ st) && decide (st < 584)
  | .writeBack st => decide (544 ≤ st) && decide (st < 584)
  | .discard st => decide (544 ≤ st) && decide (st < 584)
  | .relocationWindow st => decide (576 ≤ st) && decide (st < 584)
  | .expire st => decide (544 ≤ st) && decide (st < 584)
  | .actionComplete st e => okStream st && decide (e < 1048576)
  | .gateVisible st c => okStream st && decide (c < 4)
  | .nop t _ => okTile t
  | .vadd t _ => okTile t
  | .vmul t _ => okTile t
  | .vfma t _ => okTile t
  | .vmax t _ => okTile t
  | .vmin t _ => okTile t
  | .vsel t _ => okTile t
  | .vcmp t _ => okTile t
  | .vsign t _ => okTile t
  | .vexp t _ => okTile t
  | .vlog t _ => okTile t
  | .vrsqrt t _ => okTile t
  | .vcvt t _ => okTile t
  | .vcvta t _ => okTile t
  | .va128add t _ => okTile t
  | .va128rsum t _ => okTile t
  | .vreanchor t _ => okTile t
  | .va128drain t _ => okTile t
  | .vld t _ => okTile t
  | .vst t _ => okTile t
  | .aset t _ => okTile t
  | .aadd t _ => okTile t
  | .loop t _ => okTile t
  | .endProg t _ => okTile t
  | .updateMarkerWrite t => okTile t
  | .updatePhase2 t => okTile t
  | .updateWriteback t => okTile t
  | .t0Reached p => okPart p
  | .slotBind p => okPart p
  | .slotOpen p => okPart p
  | .epochLocalComplete p => okPart p
  | .latenessReport st => okStream st
  | .holdNotice p n => okNport p && okNotice n
  | .replayNotice p n => okNport p && okNotice n
  | .abortNotice p n => okNport p && okNotice n
  | .degradeNotice p n => okNport p && okNotice n
  | .commitNotice p n => okNport p && okNotice n
  | .probeNotice p n => okNport p && okNotice n
  | .probeSend => true
  | .holdInstant p => okPart p
  | .replayInstant p => okPart p
  | .restartInstant p => okPart p
  | .abortInstant p => okPart p
  | .tileWatchdog st => decide (st < 544)
  | .unitWatchdog st => decide (544 ≤ st) && okStream st
  | .testStepStart t m => okTile t && decide (m < 5)
  | .testStepComplete t m o => okTile t && decide (m < 5) && okOutcome m o
  | .vaultTestStep d _ => okHub d
  | .vaultWipeComplete d => okHub d
  | .hbmBucketRefill => true
  | .flashBucketRefill => true
  | .patrolScrub l _ => decide (l < 0x1EF80000000 / 16 + 4096 * 32768)
  | .channelFault st c => decide (st < 16) && decide (c < 32)
  | .cacheFill d _ => decide (d < 4)
  | .sectorRead r x k _ => okRequester r && okSector r && okExt x && decide (k < 512)
  | .promotionSwitch x => okExt x
  | .demotionPass x => okExt x
  | .relocationStart f b => decide (f < 4) && decide (b < 131072)
  | .relocationSwitch f b => decide (f < 4) && decide (b < 131072)
  | .blockFailure f b => decide (f < 4) && decide (b < 131072)
  | .tenderRestart d => okHub d
  | .tenderRestartDone d => okHub d
  | .flit l d bs => decide (l < 41) && decide (d < 2) && decide (bs.length ≤ 272)
  | .laneFailure l d n => decide (l < 41) && decide (d < 2) && decide (n < 68)
  | .directionResume l d => decide (l < 41) && decide (d < 2)
  | .frame p bs => okNport p && decide (bs.length ≤ 544)
  | .nguixLaneFailure p n => okNport p && decide (n < 8)
  | .portResume p => okNport p
  | .portTraining p r => okNport p && r.failed.all (fun l => decide (l < 8)) && decide (r.peerPort < 20)
  | .routeAnnounce p n np => okNport p && okPkg n && okNport np
  | .laserModuleReady k => decide (k < 4)
  | .laserModuleFault k => decide (k < 4)
  | .timingSymbol p _ _ _ _ => okNport p
  | .timingSymbolSend p => okNport p
  | .remoteRead m => okMsg m
  | .remoteReadAcquire m => okMsg m
  | .remoteWrite m => okMsg m
  | .remoteWriteRelease m => okMsg m
  | .remoteWriteAcked m => okMsg m
  | .remoteWriteReleaseAcked m => okMsg m
  | .remoteReadData m => okMsg m
  | .remoteWriteAck m => okMsg m
  | .remoteError m => okMsg m
  | .pseqGapSkip src => okPkg src
  | .remoteTimeout d t => okPkg d && decide (t < 4096)
  | .collectivePacket p => okColl p
  | .pcieInboundMsi p r _ d => okSub p && decide (r < 65536) && decide (d.length ≤ 512)
  | .pcieInboundP2p p r _ _ d => okSub p && decide (r < 65536) && decide (d.length ≤ 4096)
  | .pcieInboundRead p r _ n => okSub p && decide (r < 65536) && decide (0 < n) && decide (n ≤ 4096)
  | .pcieInboundWrite p r _ d => okSub p && decide (r < 65536) && decide (0 < d.length) && decide (d.length ≤ 512)
  | .pcieLinkUp p => okSub p
  | .pcieLinkDown p => okSub p
  | .qrefLock => true
  | .qrefLoss => true
  | .upstreamLoss => true
  | .alternateLock p => okNport p
  | .ppsEdge _ => true
  | .controlInterval m => decide (m.domains.length = 28) && decide (m.shares.length = 10)
  | .pointChangeComplete a => decide (a < 28)
  | .thermalSample tj ts => decide (tj.length = 12) && decide (ts.length = 16)
  | .thermalTrip d => decide (d < 12)
  | .guardbandRaise d m => decide (d < 12) && (match m with | .raise _ => true | .lost a pt => decide (a < 28) && decide (pt < 16))
  | .clockStretch c pc => decide (c < 24) && decide (pc ≤ 100)
  | .supplyWarn _ => true
  | .supplyFault _ => true
  | .supplyRecovery t => okTest t
  | .islandSupplyLoss _ => true
  | .wakeFromOff t => okTest t
  | .tamperEvent d c => okHub d && decide (1 ≤ c) && decide (c ≤ 5)
  | .pwrGoodInRise t => okTest t
  | .pwrGoodInFall => true
  | .resetInNAssert => true
  | .resetInNRelease t => okTest t
  | .bringupStepTimeout st => decide (1 ≤ st) && decide (st ≤ 14)
  | .recordCommit => true
  | .batchTimeout => true
  | .batchRecord => true
  | .i3cDynamicAddress d a _ => okHub d && decide (a < 128)
  | .mctpControl d _ => okHub d
  | .pldmSensorRead d k => okHub d && decide (k < 65536)
  | .getVersion d _ => okHub d
  | .getCapabilities d _ => okHub d
  | .negotiateAlgorithms d _ => okHub d
  | .getDigests d _ => okHub d
  | .getCertificate d _ _ _ => okHub d
  | .challenge d _ _ => okHub d
  | .getMeasurements d _ _ => okHub d
  | .keyExchange d _ _ => okHub d
  | .finish d _ => okHub d
  | .endSession d => okHub d
  | .uartReceive d _ => okHub d
  | .amo h op rd rs a n _ _ => okHart h && okReg rd && okReg rs && okSpan a n &&
    (okSize n || (n == 16 && op == .cas && rd % 2 == 0 && rs % 2 == 0))
  | .lr h rd a n _ _ => okHart h && okReg rd && (n == 4 || n == 8) && okSpan a n
  | .sc h rd rs a n _ _ => okHart h && okReg rd && okReg rs && (n == 4 || n == 8) && okSpan a n
  | .pcieCompletion h _ _ => okHart h
  | .tapInstruction c => decide (c < 256)
  | .stimecmp h _ => okHart h
  | .supplyWarnRearm _ => true

end Sys2Proof
end

