-- ==== Sys2Proof/Machine/Ops.lean ====
section
/-! DEFINITION. The named operations over State that more than one command uses: unit numbers and
accessors, events and telemetry, interrupts, time, the address map and the bytes of the UMR. -/

namespace Sys2Proof.Machine

/-- A command of the package has its effect; a term that is none stops (R2). -/
def onWf (i : Instr) (t : State) : Host.Outcome State Fault Refusal :=
  if i.wellFormed then .next t else .fault .noSuchUnit

/-! ### Accessors -/

def hartOf (s : State) (h : Nat) : Hart := tblGet {} s.harts h
def setHart (h : Nat) (x : Hart) (s : State) : State := { s with harts := tblSet h x s.harts }
def modHart (h : Nat) (f : Hart → Hart) (s : State) : State := setHart h (f (hartOf s h)) s

/-- The value of a general register; x0 reads zero. -/
def rdX (s : State) (h r : Nat) : Word := if r = 0 then 0 else tblGet 0 (hartOf s h).x r

/-- Writes a general register; a write to x0 is discarded. -/
def wrX (h r : Nat) (v : Word) (s : State) : State :=
  if r = 0 then s else modHart h (fun x => { x with x := tblSet r v x.x }) s

/-- A hart raises an exception: what it is and the address or instruction it names (log 9). -/
def raiseTrap (h : Nat) (t : Trap) (v : Nat) (s : State) : State := modHart h (fun x => { x with trap := some (t, v) }) s

def queueOf (s : State) (q : Nat) : QCtx := tblGet {} s.queues q
def setQueue (q : Nat) (x : QCtx) (s : State) : State := { s with queues := tblSet q x s.queues }
def regionOf (s : State) (r : Nat) : Region := tblGet {} s.regions r
def setRegion (r : Nat) (x : Region) (s : State) : State := { s with regions := tblSet r x s.regions }
def chanOf (s : State) (c : Nat) : Chan := tblGet {} s.chans c
def setChan (c : Nat) (x : Chan) (s : State) : State := { s with chans := tblSet c x s.chans }
def partOf (s : State) (p : Nat) : Part := tblGet {} s.parts p
def setPart (p : Nat) (x : Part) (s : State) : State := { s with parts := tblSet p x s.parts }
def partExists (s : State) (p : Nat) : Bool := (tblGet? s.parts p).isSome
def seqOf (s : State) (n : Nat) : Seq := tblGet {} s.seqs n
def setSeq (n : Nat) (x : Seq) (s : State) : State := { s with seqs := tblSet n x s.seqs }
def tileOf (s : State) (t : Nat) : Tile := tblGet {} s.tiles t
def setTile (t : Nat) (x : Tile) (s : State) : State := { s with tiles := tblSet t x s.tiles }
def cubeOf (s : State) (t c : Nat) : Cube := tblGet {} s.cubes (t * 16 + c)
def setCube (t c : Nat) (x : Cube) (s : State) : State := { s with cubes := tblSet (t * 16 + c) x s.cubes }
def portOf (s : State) (p : Nat) : Port := tblGet {} s.ports p
def setPort (p : Nat) (x : Port) (s : State) : State := { s with ports := tblSet p x s.ports }
def linkOf (s : State) (l d : Nat) : LinkDir := tblGet {} s.links (l * 2 + d)
def setLink (l d : Nat) (x : LinkDir) (s : State) : State := { s with links := tblSet (l * 2 + d) x s.links }
def homeOf (s : State) (u : Nat) : Home := tblGet {} s.homes u
def setHome (u : Nat) (x : Home) (s : State) : State := { s with homes := tblSet u x s.homes }
def lineOf (s : State) (l : Nat) : Line := tblGet {} s.dir l
def setLine (l : Nat) (x : Line) (s : State) : State := { s with dir := tblSet l x s.dir }
def stackOf (s : State) (f : Nat) : Stack := tblGet {} s.flStacks f
def setStack (f : Nat) (x : Stack) (s : State) : State := { s with flStacks := tblSet f x s.flStacks }
def vaultOf (s : State) (d : Nat) : Vault := tblGet {} s.vaults d
def setVault (d : Nat) (x : Vault) (s : State) : State := { s with vaults := tblSet d x s.vaults }
def mgmtOf (s : State) (d : Nat) : Mgmt := tblGet {} s.mgmt d
def setMgmt (d : Nat) (x : Mgmt) (s : State) : State := { s with mgmt := tblSet d x s.mgmt }
def rfOf (s : State) (d : Nat) : RangeFlush := tblGet {} s.rfs d
def setRf (d : Nat) (x : RangeFlush) (s : State) : State := { s with rfs := tblSet d x s.rfs }

/-- The open job of a partition. -/
def jobOf (s : State) (p : Nat) : Option Job := (partOf s p).job

def setJob (p : Nat) (j : Job) (s : State) : State := setPart p { partOf s p with job := some j } s

/-- Changes the open job of a partition, if one is open. -/
def modJob (p : Nat) (f : Job → Job) (s : State) : State :=
  match jobOf s p with
  | some j => setJob p (f j) s
  | none => s

/-- A job is open on some partition (R151, R480). -/
def anyJob (s : State) : Bool := s.parts.any (fun e => e.2.job.isSome)

/-- Bits [hi:lo] of a word as a number. -/
def wf (w : Word) (hi lo : Nat) : Nat := fld w.toNat hi lo

/-- Word `i` of a descriptor; a missing word is zero. -/
def wd (l : List Word) (i : Nat) : Word := l.getD i 0

/-- The little-endian words of bytes. -/
def wordsOf (bs : List Byte) : List Word := (chunks 8 (bs.length / 8 + 1) bs).map (fun c => word (leNat c))

/-- The little-endian bytes of words. -/
def bytesOf (ws : List Word) : List Byte := ws.flatMap (fun w => leBytes 8 w.toNat)

/-! ### Free values -/

/-- Draws the next free value (log 3). -/
def draw (s : State) : Word × State := (Config.free64 s.freeCtr, { s with freeCtr := s.freeCtr + 1 })

/-! ### Time -/

/-- The package's time, ns (R147). -/
def now (s : State) : Nat := s.quartz.now

/-- Time passes up to an instant that a time-driven command reports (log 2). -/
def advance (t : Nat) (s : State) : State := { s with quartz := { s.quartz with now := max s.quartz.now t } }

/-- The codes of Table 06-1's states (R281, R480). -/
def quartzCode : QState → Nat
  | .free => 0
  | .localRef => 1
  | .consist => 2
  | .holdover => 3

/-- One tick of the 250 MHz timing clock (R148). -/
def tick (s : State) : State :=
  let v := s.quartz.frac + s.quartz.rate
  { s with quartz := { s.quartz with now := s.quartz.now + v / 2 ^ 32, frac := v % 2 ^ 32 } }

/-! ### Telemetry, events, interrupts -/

/-- The key of a telemetry counter. -/
def ctrKey (item idx : Nat) : Nat := item * 65536 + idx

def ctrGet (s : State) (item idx : Nat) : Nat := tblGet 0 s.ctr (ctrKey item idx)

/-- Adds to a telemetry counter, which stops at its maximum (R395). -/
def bump (item idx n : Nat) (s : State) : State :=
  { s with ctr := tblSet (ctrKey item idx) (min (2 ^ 64 - 1) (ctrGet s item idx + n)) s.ctr }

/-- Identity `id` becomes pending in a file of a hart: 0 machine, 1 supervisor, 2 to 8 guest (R293); in none while the harts are in
reset (R295, R297; log 50). -/
def pend (h file id : Nat) (s : State) : State :=
  if s.bu.state = 1 then modHart h (fun x => { x with files := tblSet file (setIns id (tblGet [] x.files file)) x.files }) s else s

/-- An event's identity becomes pending in the files of one hart that subscribe to it (R294). -/
def pendSubscribed (code : Nat) (x : Hart) : Hart :=
  let f0 := if bit x.mgxevm code then tblSet 0 (setIns code (tblGet [] x.files 0)) x.files else x.files
  { x with files := if bit x.mgxevs code then tblSet 1 (setIns code (tblGet [] f0 1)) f0 else f0 }

/-- An event occurs: it enters the log (R395) and its identity becomes pending in every subscribed file
(R294), or in none while the harts are in reset (R295). -/
def raiseEvent (code unit cause : Nat) (s : State) : State :=
  let evs := s.events ++ [{ code, unit, cause, at_ := now s }]
  let s := if evs.length ≤ 1024 then { s with events := evs } else bump 0x0262 16 1 { s with events := evs.drop 1 }
  if s.bu.state = 1 then { s with harts := s.harts.map (fun e => (e.1, pendSubscribed code e.2)) } else s

def evSupplyWarn := 0x01
def evThermThrottle := 0x02
def evCapFloor := 0x03
def evHold := 0x04
def evRetire := 0x05
def evScopeMismatch := 0x06
def evDoorbellAhead := 0x07
def evLaneDegrade := 0x08
def evTamper := 0x09
def evRegionFault := 0x0A

/-- A cause the manual names without a number (log 18). -/
def causeOf (event which : Nat) : Nat := (Config.causeCode event which).toNat

/-- Something leaves the package (log 5). -/
def send (o : Out) (s : State) : State := { s with out := s.out ++ [o] }

/-- Buffers an entry of the persistent record (R449). -/
def recordEntry (e : RecEntry) (s : State) : State :=
  { s with record := { s.record with buffered := s.record.buffered ++ [e] } }

/-! ### Status codes (Table 00-6) -/

def stDone := 0x00
def stFormat := 0x10
def stRegion := 0x11
def stQuota := 0x12
def stState := 0x13
def stRetire := 0x20
def stReset := 0x21
def stPower := 0x22
def stAhead := 0x30

/-- The status of the rejection checks that failed, the lowest-valued (R8); none when none failed. -/
def lowest : List (Bool × Nat) → Option Nat
  | [] => none
  | (b, st) :: t =>
    match lowest t with
    | none => if b then some st else none
    | some x => if b then some (min st x) else some x

/-! ### Placement (R2, R15, R69, R89, R90) -/

/-- The physical index at which R90 places logical tile `l` before any retirement: the n-th non-spare
position of its die. -/
def defaultPos (spares : NatSet) (l : Nat) : Nat :=
  let d := l / 136
  ((List.range 144).map (fun i => 144 * d + i)).filter (fun p => !setHas spares p) |>.getD (l % 136) 0

/-- The physical tile that carries logical tile `l`, if one does (R90 to R92). -/
def physOf (s : State) (l : Nat) : Option Nat := (tblGet? s.map l).getD (some (defaultPos s.spares l))

/-- Physical tiles retired by the persistent record, committed or not (R449, R452). -/
def retired (s : State) (p : Nat) : Bool :=
  (s.record.committed ++ s.record.buffered).any (fun e => e.kind == 0 && e.a == p)

/-- The logical tile that a physical tile carries. -/
def logicalOf (s : State) (p : Nat) : Option Nat := (List.range 544).find? (fun l => physOf s l == some p)

/-- The compute die of a stack, hub die of a flash stack, and so on follow Table 00-3. -/
def drayDie (d : Nat) : Nat := if d < 32 then d / 8 else 4 + (d - 32) / 4

/-- The die of a stream's unit: 0 to 3 CD0 to CD3, 4 and 5 HD0 and HD1, 6 to 9 LD0 to LD3 (R156). -/
def streamDie (st : Nat) : Nat :=
  if st < 544 then st / 136 else if st < 584 then drayDie (st - 544) else 6 + (st - 584) / 4

/-- The half of a die numbered as `streamDie` numbers them. -/
def dieHalf (d : Nat) : Nat := if d < 4 then d / 2 else if d < 6 then d - 4 else (d - 6) / 2

/-- The class of Table 06-8 between two streams: 0 the same stream, 1 the same die, 2 the same half, 3 neither. -/
def visClass (a b : Nat) : Nat :=
  if a = b then 0 else if streamDie a = streamDie b then 1
  else if dieHalf (streamDie a) = dieHalf (streamDie b) then 2 else 3

/-- The latency V of each class (Table 06-8). -/
def visLatency (c : Nat) : Nat := if c = 0 then 4 else if c = 1 then 12 else if c = 2 then 40 else 64

/-- Whether [first, first + count) holds n. -/
def inRange (r : Nat × Nat) (n : Nat) : Bool := decide (r.1 ≤ n) && decide (n < r.1 + r.2)

/-- The partition that holds a logical tile, a Dray or a reduction engine. -/
def tilePart (s : State) (l : Nat) : Option Nat := (s.parts.find? (fun e => inRange e.2.tiles l)).map (·.1)
def drayPart (s : State) (d : Nat) : Option Nat := (s.parts.find? (fun e => bit e.2.drayMask d)).map (·.1)
def redPart (s : State) (r : Nat) : Option Nat := (s.parts.find? (fun e => bit e.2.redMask r)).map (·.1)
def queuePart (s : State) (q : Nat) : Option Nat := (s.parts.find? (fun e => inRange e.2.queues q)).map (·.1)
def regionPart (s : State) (r : Nat) : Option Nat := (s.parts.find? (fun e => inRange e.2.regions r)).map (·.1)

/-- The partition that holds a stream's unit. -/
def streamPart (s : State) (st : Nat) : Option Nat :=
  if st < 544 then tilePart s st else if st < 584 then drayPart s (st - 544) else redPart s (st - 584)

/-! ### The address map (Table 01-4) -/

/-- Where an address leads. -/
inductive Space where
  | umr (a : Nat)
  | direct (a : Nat)
  | regs (off : Nat)
  | door (q off : Nat)
  | pcie (p off : Nat)
  | remote (pkg off : Nat)
  | none
  deriving DecidableEq, Repr

/-- The end of the backed UMR (R17). -/
def umrEnd : Nat := 0x7BE00000000

def directBase : Nat := 0x80000000000
def regBase : Nat := 0x100000000000
def doorBase : Nat := 0x100100000000
def pcieBase : Nat := 0x200000000000

/-- The decoding of a physical address (R17, R19, R24 to R26). -/
def classify (a : Nat) : Space :=
  if a < umrEnd then .umr a
  else if directBase ≤ a && a < directBase + umrEnd then .direct (a - directBase)
  else if regBase ≤ a && a < doorBase then .regs (a - regBase)
  else if doorBase ≤ a && a < doorBase + 0x4000000 then .door ((a - doorBase) / 0x1000) ((a - doorBase) % 0x1000)
  else if pcieBase ≤ a && a < 0x600000000000 then .pcie ((a - pcieBase) / 2 ^ 44) ((a - pcieBase) % 2 ^ 44)
  else if 2 ^ 55 ≤ a && a < 0xA0000000000000 then .remote ((a - 2 ^ 55) / 2 ^ 43) ((a - 2 ^ 55) % 2 ^ 43)
  else .none

/-- The UMR address that an address of the UMR or of the direct aperture reaches. -/
def umrOf (a : Nat) : Option Nat :=
  match classify a with
  | .umr x => some x
  | .direct x => some x
  | _ => none

/-! ### Requests that wait -/

/-- A request of `r` that writes. -/
def isWriteOf (r : Requester) (w : WaitReq) : Bool :=
  match w with
  | .write q _ _ _ => q == r
  | .directWrite q _ _ _ => q == r
  | .remoteWrite m => r == .remote m.src
  | .hartOp h _ _ (.amo _ _ _ _ _ _ _) => r == .hart h
  | .hartOp h _ _ (.sc _ _ _ _ _) => r == .hart h
  | .hartOp _ _ _ (.load _ _ _ _) => false
  | .hartOp _ _ _ (.lr _ _ _) => false
  | .read _ _ _ _ => false
  | .directRead _ _ _ _ => false

/-- A request of `r` that reads. -/
def isReadOf (r : Requester) (w : WaitReq) : Bool :=
  match w with
  | .hartOp h _ _ _ => r == .hart h
  | .read q _ _ _ => q == r
  | .directRead q _ _ _ => q == r
  | .write _ _ _ _ => false
  | .directWrite _ _ _ _ => false
  | .remoteWrite _ => false

/-- A write of `r`, on one path, that meets a range. -/
def writeMeets (r : Requester) (direct : Bool) (a n : Nat) (w : WaitReq) : Bool :=
  isWriteOf r w && (match w with
    | .write _ b d _ => !direct && overlap b d.length a n
    | .directWrite _ b d _ => direct && overlap b d.length a n
    | .remoteWrite m => direct && overlap m.addr 64 a n
    | .hartOp _ b _ (.amo _ _ _ _ m _ _) => !direct && overlap b m a n
    | .hartOp _ b _ (.sc _ _ m _ _) => !direct && overlap b m a n
    | _ => false)

/-- Some request that waits, at an extent, at a line's home or at its requester. -/
def anyWait (s : State) (f : WaitReq → Bool) : Bool :=
  s.exts.any (fun e => e.2.held.any f) || s.dir.any (fun e => e.2.waiting.any f) || s.reqWait.any f

/-- A write of a requester has not been performed. -/
def writesWait (s : State) (r : Requester) : Bool := anyWait s (isWriteOf r)

/-! ### Extents and the bytes of the UMR -/

/-- Extent size, 2 MiB (R18). -/
def extSize : Nat := 0x200000

/-- An extent as it stands after a wake from off (R21, R191, R216, R217). -/
def extReset (x : Nat) : Ext :=
  if x < 389120 then { st := .hbm, die := x / 97280, frame := x % 97280, dirty := BitVec.allOnes 512 }
  else { st := .flash }

def extOf (s : State) (x : Nat) : Ext := (tblGet? s.exts x).getD (extReset x)
def setExt (x : Nat) (e : Ext) (s : State) : State := { s with exts := tblSet x e s.exts }

/-- Extents that a byte range touches. -/
def extsOf (a n : Nat) : List Nat :=
  if n = 0 then [] else (List.range ((a + n - 1) / extSize + 1 - a / extSize)).map (· + a / extSize)

/-- The flash stack of an extent (R215). -/
def flashStack (x : Nat) : Nat := 2 * (x % 2) + (x / 2) % 2

/-- The home of a UMR line (R193, R220, R484): the HBM stack's slice, or the Tender. Lines of an HBM-resident
extent interleave over the four stacks of its die (R192). -/
def homeNum (s : State) (a : Nat) : Nat :=
  let e := extOf s (a / extSize)
  match e.st with
  | .flash | .promoting => 16 + (a / extSize) % 2
  | _ => 4 * e.die + (a / 256) % 4

/-- An access refreshes an extent's age stamp, at most once every 64 µs (R238). -/
def touchExt (x : Nat) (s : State) : State :=
  let e := extOf s x
  let us := now s / 1000
  if (e.st == .hbm || e.st == .demoting) && e.stamp + 64 ≤ us then setExt x { e with stamp := us } s else s

def touch (a n : Nat) (s : State) : State := (extsOf a n).foldl (fun s x => touchExt x s) s

/-- Sectors of an extent that a byte range touches become dirty (R216). -/
def dirtyMask (x a n : Nat) : BitVec 512 :=
  let lo := max a (x * extSize)
  let hi := min (a + n) ((x + 1) * extSize)
  if lo < hi then
    let b := (lo - x * extSize) / 4096
    let t := (hi - 1 - x * extSize) / 4096
    (BitVec.ofNat 512 (2 ^ (t + 1 - b) - 1)) <<< b
  else 0

def markDirty (a n : Nat) (s : State) : State :=
  (extsOf a n).foldl (fun s x => let e := extOf s x; setExt x { e with dirty := e.dirty ||| dirtyMask x a n } s) s

/-- A write to a line clears its poison, since it acts on whole granules (R196, R132), and its stored errors. -/
def clearPoison (a n : Nat) (s : State) : State :=
  { s with poison := s.poison.filter (fun l => !overlap (l * 64) 64 a n), lineErr := s.lineErr.filter (fun e => !overlap (e.1 * 64) 64 a n) }

/-- Whether a range holds a poisoned line. -/
def poisoned (s : State) (a n : Nat) : Bool := s.poison.any (fun l => overlap (l * 64) 64 a n)

/-- Bytes are written to memory: contents, dirty map, poison and age stamp. -/
def poke (a : Nat) (bs : List Byte) (s : State) : State :=
  touch a bs.length (clearPoison a bs.length (markDirty a bs.length { s with mem := memWrite s.mem a bs }))

/-- Bytes are written under a byte-enable mask. -/
def pokeMask (a mask : Nat) (bs : List Byte) (s : State) : State :=
  if mask = 0 then s
  else touch a bs.length (clearPoison a bs.length (markDirty a bs.length { s with mem := memWriteMask s.mem mask a 0 bs }))

/-- Bytes of memory. -/
def peek (s : State) (a n : Nat) : List Byte := memRead s.mem a n

/-- The extent ranges of a partition hold a byte range (Table 08-8). -/
def inPart (p : Part) (a n : Nat) : Bool :=
  (extsOf a n).all (fun x => p.ranges.any (fun r => inRange r x))

/-- The partition whose extent ranges hold an extent. -/
def extPart (s : State) (x : Nat) : Option Nat :=
  (s.parts.find? (fun e => e.2.ranges.any (fun r => inRange r x))).map (·.1)

/-- Extents that an installed image or an occupied seal slot write-protects (R154, R389). -/
def imageExts (p : Part) : List (Nat × Nat) :=
  (match p.image with
   | some i => [(i.addr, i.len)]
   | none => []) ++ p.seals.map (fun e => (e.2.base, e.2.len))

def protectedExt (s : State) (x : Nat) : Bool :=
  s.parts.any (fun e => (imageExts e.2).any (fun r => overlap r.1 r.2 (x * extSize) extSize))

/-- Whether a write of a range meets a write-protected extent. -/
def protectedRange (s : State) (a n : Nat) : Bool := (extsOf a n).any (protectedExt s)

end Sys2Proof.Machine
end

