-- ==== Sys2Proof/Machine/Lines.lean ====
section
/-! DEFINITION. Lines of HBM: where one stands, its errors, its poison; and the token buckets of the controllers and flash stacks
(R192, R194 to R200, R219). -/

namespace Sys2Proof.Machine

/-! ### Where a line stands (R190, R192) -/

/-- The die and frame of an extent in HBM; numbers from 4,059,136 on name the reserved frames, 1,024 of each die in turn (R190). -/
def frameOf (s : State) (x : Nat) : Nat × Nat :=
  if x < 4059136 then ((extOf s x).die, (extOf s x).frame) else ((x - 4059136) / 1024, 97280 + (x - 4059136) % 1024)

/-- Stack and channel of a line that is in HBM (R192). -/
def lineStack (s : State) (l : Nat) : Nat := 4 * (frameOf s (l / 32768)).1 + (l / 4) % 4
def lineChannel (s : State) (l : Nat) : Nat := ((l * 64 / 1024) % 32) ^^^ ((frameOf s (l / 32768)).2 % 32)

def inHbm (s : State) (x : Nat) : Bool :=
  decide (4059136 ≤ x) ||
  (match (extOf s x).st with
   | .hbm => true
   | .demoting => true
   | .flash => false
   | .promoting => false)

/-- A Tender that failed two restarts within 60 s (R459). -/
def tenderDead (s : State) (hd : Nat) : Bool := (tblGet {} s.tenders hd).dead

/-- Lines that a byte range touches. -/
def linesOf (a n : Nat) : List Nat :=
  if n = 0 then [] else (List.range ((a + n - 1) / 64 + 1 - a / 64)).map (· + a / 64)

/-! ### The symbol code (R194) -/

/-- The symbols of 16 bits in which a line's stored bits are in error. -/
def badSymbols (e : Nat) : List Nat := (List.range 32).filter (fun k => decide (e / 2 ^ (16 * k) % 2 ^ 16 ≠ 0))

/-- Whether every erroneous bit belongs to one 4-bit pin group: pins 4g to 4g + 3 of the 32 of a pseudo-channel (log 52). -/
def onePinGroup (e : Nat) : Bool := (List.range 8).any (fun g => (List.range 512).all (fun b => !bit e b || b % 32 / 4 == g))

/-- What the code makes of the erroneous bits of a line (R194): one symbol is corrected; two, or one pin group, are detected; of any
other pattern nothing is claimed, and a free value says. -/
def codeOutcome (e : Nat) : EccOutcome :=
  match (badSymbols e).length with
  | 0 => .clean
  | 1 => .corrected
  | 2 => .uncorrectable
  | _ => if onePinGroup e then .uncorrectable
    else match Config.eccOther e % 3 with
      | 0 => .clean
      | 1 => .corrected
      | _ => .uncorrectable

/-- What a read of a line in HBM finds (R194). -/
def lineOutcome (s : State) (l : Nat) : EccOutcome := if inHbm s (l / 32768) then codeOutcome (tblGet 0 s.lineErr l) else .clean

/-- A read of the line completes poisoned: its check bits say so, its error is uncorrectable (R196), its channel stopped (R197), or
its Tender no longer serves (R459). -/
def linePoisoned (s : State) (l : Nat) : Bool :=
  setHas s.poison l || (!s.lineErr.isEmpty && lineOutcome s l == .uncorrectable) ||
  (if inHbm s (l / 32768) then s.deadCh.elem (lineStack s l * 64 + lineChannel s l) else tenderDead s ((l / 32768) % 2))

/-- Whether a read of a range meets poison. -/
def rangePoisoned (s : State) (a n : Nat) : Bool :=
  poisoned s a n ||
  ((!s.deadCh.isEmpty || !s.lineErr.isEmpty || s.tenders.any (fun e => e.2.dead)) && (linesOf a n).any (linePoisoned s))

/-- A poisoned read is counted on its stack (Table 07-3). -/
def countPoison (l : Nat) (s : State) : State :=
  if inHbm s (l / 32768) then bump 0x0211 (lineStack s l) 1 s else s

/-! ### Corrected errors (R195) -/

/-- Kinds of entries of the persistent record (R449). -/
def recTile := 0
def recUnit := 1
def recSoftRepair := 2
def recHbmRow := 3
def recLane := 4
def recGuardband := 5
def recPoint := 6
def recDie := 7

/-- The number of the HBM row that holds a line: stack, channel, pseudo-channel and row (Table 07-2). -/
def rowKey (s : State) (l : Nat) : Nat :=
  let o := l * 64 % extSize
  let f := (frameOf s (l / 32768)).2
  ((lineStack s l * 32 + lineChannel s l) * 2 + ((o / 32768) % 2 + (f / 32) % 2) % 2) * 2 ^ 32 + Config.hbmRow (o / 65536) (f / 64) % 2 ^ 32

/-- A corrected error: the stack's count advances, and a row that reaches 8 is recorded for repair (R195). -/
def hbmCorrected (l : Nat) (s : State) : State :=
  let k := rowKey s l
  let n := tblGet 0 s.hbmRows k + 1
  let f := lineStack s l
  let s1 := if ctrGet s 0x0210 f < max32 then bump 0x0210 f 1 s else s
  let s2 := { s1 with hbmRows := tblSet k n s1.hbmRows }
  if n = 8 then recordEntry { kind := recHbmRow, a := k } s2 else s2

/-- The controller acts on what a read of a line found: a corrected line is counted and rewritten, an uncorrectable one poisoned; an
error that the code makes no claim for and does not see leaves its data free (R194 to R196). -/
def actOnError (l : Nat) (o : EccOutcome) (s : State) : State :=
  let s1 := { s with lineErr := tblDel l s.lineErr }
  match o with
  | .clean =>
    if (badSymbols (tblGet 0 s.lineErr l)).isEmpty then s
    else (List.range 8).foldl (fun s i => let (v, s2) := draw s; { s2 with mem := memWrite s2.mem (l * 64 + 8 * i) (leBytes 8 v.toNat) }) s1
  | .corrected => hbmCorrected l s1
  | .uncorrectable => { s1 with poison := setIns l s1.poison }

/-- A line is read from HBM (R194 to R196). -/
def meetError (l : Nat) (s : State) : State :=
  if (tblGet? s.lineErr l).isSome && inHbm s (l / 32768) then actOnError l (lineOutcome s l) s else s

/-- What reads of an extent's lines would find goes with a copy of them (R196, R197): a line that cannot be read travels poisoned. -/
def carryErrors (x : Nat) (s : State) : State :=
  if s.deadCh.isEmpty && s.lineErr.isEmpty then s
  else
    let s1 := ((s.lineErr.filter (fun e => decide (e.1 / 32768 = x))).map (·.1)).foldl (fun s l => meetError l s) s
    { s1 with poison := (((List.range 32768).map (· + x * 32768)).filter (linePoisoned s1)).foldl (fun p l => setIns l p) s1.poison }

/-! ### Token buckets (R198 to R200, R219) -/

/-- What a bucket still owes is paid in arrival order as far as its tokens reach. -/
def payBucket (b : Bucket) : Bucket :=
  let p := min b.tokens b.owed
  { b with tokens := b.tokens - p, owed := b.owed - p }

/-- Requests of a partition at a controller, one token each: they take their tokens in arrival order, or wait for them. -/
def takeTokens (cost : Nat) (b : Bucket) : Bucket := payBucket { b with owed := b.owed + cost, asked := b.asked + cost }

/-- One refill period (R198, R219). -/
def refillBucket (b : Bucket) : Bucket := payBucket { b with tokens := min b.burst (b.tokens + b.rate) }

/-- Charges a bucket, if the partition has one. -/
def chargeHbm (k cost : Nat) (s : State) : State :=
  match tblGet? s.hbmBuckets k with
  | some b => { s with hbmBuckets := tblSet k (takeTokens cost b) s.hbmBuckets }
  | none => s

def chargeFlash (k cost : Nat) (s : State) : State :=
  match tblGet? s.flBuckets k with
  | some b => { s with flBuckets := tblSet k (takeTokens cost b) s.flBuckets }
  | none => s

/-- Whole sectors of a frame are moved for a partition's tier action: 64 tokens each, spread evenly over the die's stacks
(R192, R198). -/
def chargeFrame (die p sectors : Nat) (s : State) : State :=
  (List.range 4).foldl (fun s k => chargeHbm ((4 * die + k) * 16 + p) (16 * sectors) s) s

end Sys2Proof.Machine
end

