-- ==== Sys2Proof/Machine/Recall.lean ====
section
/-! DEFINITION. What moves a line's data to memory: pending direct writes, dirty hart copies, and both for a whole extent
(R247, R255, R259, R267). -/

namespace Sys2Proof.Machine

/-- Accepted direct writes of one home reach memory, those that `p` selects, oldest first. -/
def drainHome (u : Nat) (p : DWrite → Bool) (s : State) : State :=
  let h := homeOf s u
  let out := h.dbuf.filter p
  out.foldl (fun s w => poke w.addr w.data s) (setHome u { h with dbuf := h.dbuf.filter (fun w => !p w) } s)

/-- A release write reaches its home and is recorded (R255): the last 256, to distinct lines. -/
def recordRelease (l : Nat) (sc : Scope) (origin : Requester) (direct : Bool) (s : State) : State :=
  let u := homeNum s (l * 64)
  let h := homeOf s u
  setHome u { h with rels := ({ line := l, scope := sc, origin := origin, direct := direct } :: h.rels.filter (fun r => decide (r.line ≠ l))).take 256 } s

/-- A plain write performed at the home: the line's value is no longer the recorded release's. -/
def forgetRelease (l : Nat) (s : State) : State :=
  let u := homeNum s (l * 64)
  let h := homeOf s u
  if h.rels.any (fun r => decide (r.line = l)) then setHome u { h with rels := h.rels.filter (fun r => decide (r.line ≠ l)) } s else s

/-- A cache that was granted a line holds it for 40 ns before the home forwards what conflicts (R265). -/
def waitHold (l : Nat) (s : State) : State := if (lineOf s l).copies.isEmpty then s else advance (lineOf s l).hold s

/-- A dirty line is written back to its home: over a direct write accepted meanwhile, the granule ends holding either
(R259: a free value chooses). A release it holds is recorded, and a plain write ends the record of an earlier one (R255). The copies
stay, clean and shared (R267). -/
def writeBackLine (l : Nat) (s : State) : State :=
  let x := lineOf s l
  match x.dirty, x.owner with
  | true, some o =>
    let data := tblGet [] x.copies o
    let s1 := setLine l { x with dirty := false, owner := none, tag := none, clash := false } s
    let keepHart := if x.clash then ((draw s1).1).toNat % 2 == 1 else true
    let s2 := if x.clash then (draw s1).2 else s1
    let s3 := if keepHart then
        let u := homeNum s2 (l * 64)
        poke (l * 64) data (setHome u { homeOf s2 u with dbuf := (homeOf s2 u).dbuf.filter (fun w => decide (w.addr / 64 ≠ l)) } s2)
      else s2
    match x.tag with
    | some (sc, h) => if keepHart then recordRelease l sc (.hart h) false s3 else s3
    | none => if keepHart then forgetRelease l s3 else s3
  | _, _ => s

/-- The home recalls a dirty line from its owner, after the owner's hold (R265). -/
def recallLine (l : Nat) (s : State) : State := if (lineOf s l).dirty then writeBackLine l (waitHold l s) else s

/-- Dirty hart copies of an extent's lines are recalled as clean shared copies (R267). -/
def recallExtent (x : Nat) (s : State) : State :=
  ((s.dir.filter (fun e => decide (e.1 / 32768 = x) && e.2.dirty)).map (·.1)).foldl (fun s l => recallLine l s) s

/-- Accepted direct writes to an extent reach memory. -/
def drainExtent (x : Nat) (s : State) : State :=
  ((s.homes.filter (fun h => h.2.dbuf.any (fun w => decide (w.addr / extSize = x)))).map (·.1)).foldl
    (fun s u => drainHome u (fun w => decide (w.addr / extSize = x)) s) s

/-- Read-ahead copies of an extent's lines go with the move to another home. -/
def dropAheadExtent (x : Nat) (s : State) : State :=
  { s with homes := s.homes.map (fun h => (h.1, { h.2 with readAhead := h.2.readAhead.filter (fun e => decide (e.1 / 32768 ≠ x)) })) }

/-- Before a pass: accepted direct writes and dirty hart copies of the extent reach memory (R267). -/
def settleExtent (x : Nat) (s : State) : State := recallExtent x (drainExtent x s)

/-- A discard abandons what harts and direct buffers hold of the extent with its HBM contents (Table 08-4; log 28). -/
def forgetExtent (x : Nat) (s : State) : State :=
  let lost := fun (e : Nat × Line) => if e.1 / 32768 = x then (e.1, { waiting := e.2.waiting, snooped := e.2.snooped }) else e
  dropAheadExtent x { s with
    dir := (s.dir.map lost).filter (fun e => decide (e.1 / 32768 ≠ x) || !e.2.waiting.isEmpty)
    homes := s.homes.map (fun h => (h.1, { h.2 with dbuf := h.2.dbuf.filter (fun w => decide (w.addr / extSize ≠ x)) }))
    harts := s.harts.map (fun h => match h.2.resv with
      | some l => if l / 32768 = x then (h.1, { h.2 with resv := none }) else h
      | none => h) }

/-! ### Answers to other packages -/

/-- A request that a response answers: reads and acked writes. -/
def wantsReply (op : Nat) : Bool := op == 0 || op == 1 || op == 4 || op == 5

/-- The answer to a request (R334, R336). -/
def sendReply (m : RemoteMsg) (op : Nat) (data : List Byte) (s : State) : State :=
  send (.remote { dst := m.src, src := m.dst, op := op, tag := m.tag, pseq := 0, addr := m.addr, mask := 0, data := padTo 64 0 data }) s

end Sys2Proof.Machine
end

