-- ==== Sys2Proof/Machine/Tier.lean ====
section
/-! DEFINITION. The tier manager: the extent state machine, pins and frames, the shared pool
(R229 to R243). -/

namespace Sys2Proof.Machine

/-- A stack whose spare blocks fell below 16 GiB cannot program (R228). -/
def stackReadOnly (s : State) (x : Nat) : Bool := (stackOf s (flashStack x)).readOnly

/-- Whether every sector is clean, so that a switch needs no program (R230). -/
def extClean (e : Ext) : Bool := e.retained && e.dirty == 0

/-- A demotion, write-back or eviction starts its first pass (R230, R267): every dirty sector is to be copied. -/
def startPasses (x : Nat) (why : DemoteWhy) (r : Option TierReq) (s : State) : State :=
  let s1 := settleExtent x s
  let e := extOf s1 x
  setExt x { e with st := .demoting, why := why, passes := 0, doing := r, dirty := 0,
                    copying := if e.retained then e.dirty else BitVec.allOnes 512 } s1

/-- An abandoned copy leaves the dirty map as it was, with what was written since (R229, R241). -/
def abandoned (e : Ext) : Ext := { e with st := .hbm, dirty := e.dirty ||| e.copying, copying := 0, passes := 0, doing := none }

/-- An extent the pool may evict from a die (R228, R239). -/
def evictable (s : State) (die x : Nat) : Bool :=
  let e := extOf s x
  e.st == .hbm && e.die == die && e.pin.isNone && (extClean e || !stackReadOnly s x)

/-- The first extent from `x` on, below `top`, that no entry of the table has changed and that may be evicted. -/
def firstUntouched (s : State) (die top : Nat) : Nat → Nat → Option Nat
  | 0, _ => none
  | f + 1, x =>
    if top ≤ x then none
    else if (tblGet? s.exts x).isNone && evictable s die x then some x
    else firstUntouched s die top f (x + 1)

/-- The pool extent of a die with the lowest stamp, ties to the lowest number (R239). -/
def poolVictim (s : State) (die : Nat) : Option Nat :=
  let listed := (s.exts.filter (fun e => evictable s die e.1)).map (fun e => (e.2.stamp, e.1))
  let first := match firstUntouched s die (97280 * (die + 1)) (4 * (s.exts.length + 1)) (97280 * die) with
    | some x => [(0, x)]
    | none => []
  (listed ++ first).foldl
    (fun b c => match b with
      | none => some c
      | some v => if c.1 < v.1 || (c.1 == v.1 && c.2 < v.2) then some c else b) none |>.map (·.2)

/-- Takes a free pool frame of a die. -/
def takePoolFrame (die : Nat) (s : State) : Option (Nat × State) :=
  match s.freeFrames.getD die [] with
  | [] => none
  | f :: t => some (f, { s with freeFrames := setAt s.freeFrames die t })

/-- A frame returns to the shared pool. -/
def freePoolFrame (die f : Nat) (s : State) : State :=
  { s with freeFrames := setAt s.freeFrames die (setIns f (s.freeFrames.getD die [])) }

/-- Takes a free held frame of a partition (R237). -/
def takeHeldFrame (p die : Nat) (s : State) : Option (Nat × State) :=
  let q := partOf s p
  match q.held.getD die [] with
  | [] => none
  | f :: t => some (f, setPart p { q with held := setAt q.held die t } s)

/-- A frame becomes a free held frame of a partition again (R237); a partition that is gone returns it to the pool. -/
def giveHeldFrame (p die f : Nat) (s : State) : State :=
  if partExists s p then
    let q := partOf s p
    setPart p { q with held := setAt q.held die (setIns f (q.held.getD die [])) } s
  else freePoolFrame die f s

/-- The frame of an extent that leaves HBM is freed: to its partition where it was pinned, else to the pool. -/
def releaseFrame (e : Ext) (s : State) : State :=
  match e.pin with
  | some p => giveHeldFrame p e.die e.frame s
  | none => freePoolFrame e.die e.frame s

/-- The extent becomes FLASH: its contents are those of its flash space (R229, R242). -/
def toFlash (x : Nat) (s : State) : State :=
  let e := extOf s x
  let s := { s with lineErr := s.lineErr.filter (fun l => decide (l.1 / 32768 ≠ x)) }
  setExt x { e with st := .flash, die := 0, frame := 0, dirty := 0, copying := 0, retained := false, pin := none, passes := 0,
                    stamp := 0 } (releaseFrame e s)

/-- Each programmed sector goes to a fresh page, never to the page that it left (R223). -/
def freshPages (x : Nat) (ks : BitVec 512) (s : State) : State :=
  let f := flashStack x
  let t := stackOf s f
  setStack f { t with gen := (List.range 512).foldl (fun g k =>
    if ks.getLsbD k then tblSet (x * 512 + k) (tblGet 0 t.gen (x * 512 + k) + 1) g else g) t.gen } s

/-- The switch of a demotion or write-back commits the present contents to flash space, poison with them (R196, R216, R228). -/
def commitFlash (x : Nat) (s : State) : State :=
  let s := freshPages x (extOf s x).copying (carryErrors x s)
  { s with flash := memCopyRange (x * extSize) extSize s.mem s.flash,
           flashPoison := (s.poison.filter (fun l => decide (l / 32768 = x))).foldl (fun p l => setIns l p)
             (s.flashPoison.filter (fun l => decide (l / 32768 ≠ x))) }

/-- Starts the eviction of a pool extent (R239). -/
def evict (x : Nat) (s : State) : State := startPasses x .evict none s

/-- Pins an HBM-resident extent in place on its die: its frame becomes held and one free held frame passes to the
pool (R237). None where the partition has no free held frame there. -/
def pinInPlace (p x : Nat) (s : State) : Option State :=
  let e := extOf s x
  if e.pin.isSome then some (setExt x { e with stamp := now s / 1000 } s)
  else match takeHeldFrame p e.die s with
    | some (f, s1) => some (setExt x { e with pin := some p, stamp := now s / 1000 } (freePoolFrame e.die f s1))
    | none => none

/-- The partition of a promotion by a Slate action (R198, R219). -/
def promotePart (r : TierReq) : Option Nat :=
  match r.kind with
  | .promote _ _ p => some p
  | _ => none

/-- A resident extent is copied frame to frame to another die (Table 08-4): one step (log 22), each sector a read and a write that
are charged to the action's partition (R198). -/
def moveFrame (r : TierReq) (die f : Nat) (pin : Option Nat) (s : State) : State :=
  let s1 := carryErrors r.ext s
  let e := extOf s1 r.ext
  let s2 := match promotePart r with
    | some p => chargeFrame die p 512 (chargeFrame e.die p 512 s1)
    | none => s1
  setExt r.ext { e with die := die, frame := f, pin := pin, stamp := now s / 1000 } (releaseFrame e s2)

/-- A promotion obtains its frame and starts: a held frame for a pin, else a pool frame (R237, R239). -/
def obtainFrame (r : TierReq) (die : Nat) (pin : Option Nat) (s : State) : Option State :=
  let got := match pin with
    | some p => takeHeldFrame p die s
    | none => takePoolFrame die s
  match got with
  | none => none
  | some (f, s1) =>
    let e := extOf s1 r.ext
    if e.st == .hbm then some (moveFrame r die f pin s1)
    else some (setExt r.ext { e with st := .promoting, die := die, frame := f, pin := pin, doing := some r } s1)

/-- Evictions in progress on a die. -/
def evicting (s : State) (die : Nat) : Nat := (s.exts.filter (fun v => v.2.st == .demoting && v.2.why == .evict && v.2.die == die)).length

/-- The die, the pin and whether a request is a promotion. -/
def promoteOf (k : TierKind) : Option (Nat × Option Nat) :=
  match k with
  | .promote d pin p => some (d, if pin then some p else none)
  | .demandPromote d => some (d, none)
  | _ => none

/-- The partition whose held frame a promotion takes: the one it pins for, or the one an extent that is already resident is pinned to
(log 54); none where it needs a pool frame. -/
def pinWanted (s : State) (r : TierReq) (pin : Option Nat) : Option Nat :=
  match pin with
  | some p => some p
  | none => if (extOf s r.ext).st == .hbm then (extOf s r.ext).pin else none

/-- Promotions that wait for a pool frame of a die. -/
def poolWaits (s : State) (die : Nat) : Nat :=
  (s.tierWait.filter (fun r => match promoteOf r.kind with
    | some (d, pin) => d == die && (pinWanted s r pin).isNone
    | none => false)).length

/-- A promotion that found no frame waits; one that needs a pool frame makes the pool evict for it (R234, R239). -/
def waitFrame (r : TierReq) (die : Nat) (pin : Option Nat) (s : State) : State :=
  let s := { s with tierWait := s.tierWait ++ [r] }
  if pin.isSome || poolWaits s die ≤ evicting s die then s
  else match poolVictim s die with
    | some v => evict v s
    | none => s

/-- A promotion takes its frame, or waits for it. -/
def takeOrWait (r : TierReq) (die : Nat) (pin : Option Nat) (s : State) : State := (obtainFrame r die pin s).getD (waitFrame r die pin s)

/-- A promotion of an extent that is resident: kept in place, its stamp refreshed, or moved to another die (Table 08-4, R237, R238).
One with pin = 0 leaves an extent pinned as it is (log 54). -/
def promoteResident (r : TierReq) (die : Nat) (pin : Option Nat) (s : State) : State :=
  let e := extOf s r.ext
  match r.kind with
  | .demandPromote _ => s
  | _ =>
    if e.die = die then
      match pin with
      | some p => (pinInPlace p r.ext s).getD (waitFrame r die pin s)
      | none => setExt r.ext { e with stamp := now s / 1000 } s
    else takeOrWait r die (pinWanted s r pin) s

/-- HBM contents are abandoned: the extent reads its retained copy, or zero (Table 08-4). -/
def discardExt (x : Nat) (s : State) : State :=
  let s1 := forgetExtent x s
  let kept := (extOf s1 x).retained
  let s2 := if kept then s1 else
    { s1 with flash := memClear (x * extSize) extSize s1.flash, flashPoison := s1.flashPoison.filter (fun l => decide (l / 32768 ≠ x)) }
  toFlash x { s2 with mem := memCopyRange (x * extSize) extSize (if kept then s2.flash else []) s2.mem,
                      poison := (s2.flashPoison.filter (fun l => decide (l / 32768 = x))).foldl (fun p l => setIns l p)
                        (s2.poison.filter (fun l => decide (l / 32768 ≠ x))) }

/-- Starts a tier request, or lets it wait for the transition in progress, or for a promotion of the extent that waits for its frame
(R229 to R231, R241). -/
def tierStart (r : TierReq) (s : State) : State :=
  let e := extOf s r.ext
  let later := setExt r.ext { e with queue := e.queue ++ [r] } s
  if s.tierWait.any (fun w => w.ext == r.ext) then later
  else match promoteOf r.kind with
  | some (die, pin) =>
    match e.st with
    | .hbm => promoteResident r die pin s
    | .flash => takeOrWait r die pin s
    | .promoting => later
    | .demoting =>
      if e.why == .evict then
        -- The eviction is abandoned; the extent stays in HBM, its dirty map as it is (R241).
        promoteResident r die pin (setExt r.ext { abandoned e with stamp := now s / 1000 } s)
      else later
  | none =>
    match e.st with
    | .promoting => later
    | .demoting =>
      if e.why == .evict && r.kind == .demote then
        setExt r.ext { e with why := .demote, doing := some r } s
      else later
    | .flash => s
    | .hbm =>
      match r.kind with
      | .demote => startPasses r.ext .demote (some r) s
      | .writeBack => startPasses r.ext .writeBack (some r) s
      | .discard => discardExt r.ext s
      | _ => s

/-- Requests that waited on an extent start again in arrival order (R231). -/
def tierDrain (x : Nat) (s : State) : State :=
  let q := (extOf s x).queue
  q.foldl (fun s r => tierStart r s) (setExt x { extOf s x with queue := [] } s)

/-- A promotion that waited for a frame is evaluated again (R239, R241); once it waits no more, what waited behind it goes on (R231). -/
def retryFrame (s : State) (r : TierReq) : State :=
  match promoteOf r.kind with
  | some (die, pin) =>
    let s1 := if (extOf s r.ext).st == .flash then takeOrWait r die pin s else tierStart r s
    if (extOf s1 r.ext).st == .hbm && !s1.tierWait.any (fun w => w.ext == r.ext) then tierDrain r.ext s1 else s1
  | none => s

/-- Promotions that wait for a frame are evaluated again in their order of arrival. -/
def tierRetry (s : State) : State := s.tierWait.foldl retryFrame { s with tierWait := [] }

/-- The last sector of a promotion reached its frame: the extent switches to HBM, clean, with a retained copy
(R216, R229). -/
def promoteSwitch (x : Nat) (s : State) : State :=
  let e := extOf s x
  setExt x { e with st := .hbm, dirty := 0, retained := true, stamp := now s / 1000, doing := none, passes := 0 } s

/-- The switch of a demotion, eviction or write-back (R229, R230). -/
def demoteSwitch (x : Nat) (s : State) : State :=
  let e := extOf s x
  let s := commitFlash x s
  if e.why == .writeBack then
    setExt x { e with st := .hbm, dirty := 0, copying := 0, retained := true, doing := none, passes := 0 } s
  else toFlash x (setExt x { e with doing := none } s)

/-- Whether a write to an extent must be held: it is not in HBM (R221), or its third pass runs (R230). -/
def writeHeld (s : State) (x : Nat) : Bool :=
  let e := extOf s x
  match e.st with
  | .hbm => false
  | .demoting => decide (2 ≤ e.passes)
  | _ => true

/-- Whether a write of a range must be held, and at which extent. -/
def heldExt (s : State) (a n : Nat) : Option Nat := (extsOf a n).find? (writeHeld s)

/-- A write is held at the home of an extent; a flash-resident one starts a demand promotion to CD(x mod 4) (R221). -/
def holdWrite (x : Nat) (w : WaitReq) (s : State) : State :=
  let e := extOf s x
  let s := setExt x { e with held := e.held ++ [w] } s
  if e.st == .flash && !(s.tierWait.any (fun r => r.ext == x)) then
    tierStart { ext := x, kind := .demandPromote (x % 4) } s
  else s

/-- Whether a tier request of an action is still unfinished (R234). -/
def tierOwned (s : State) (st en : Nat) : Bool :=
  let own := fun (r : TierReq) => r.owner == some (st, en)
  s.tierWait.any own || s.exts.any (fun e => e.2.queue.any own || (match e.2.doing with | some r => own r | none => false))

/-- A transition ends as Table 08-3 gives for a reset; `again` waits for the extent. -/
def endTransition (again : List TierReq) (x : Nat) (s : State) : State :=
  let e := extOf s x
  match e.st with
  | .promoting => setExt x { e with st := .flash, die := 0, frame := 0, pin := none, doing := none, queue := again } (releaseFrame e s)
  | .demoting => setExt x { abandoned e with queue := again } s
  | .flash => s
  | .hbm => s

/-- A partition reset ends the transitions of the partition's extents (Table 08-3: any reset), and the requests of its actions; the
others start again. -/
def tierPartReset (p : Nat) (s : State) : State :=
  let theirs := fun (r : TierReq) => match r.owner with | some (st, _) => !(streamPart s st == some p) | none => true
  let s1 : State := { s with tierWait := s.tierWait.filter theirs,
                             exts := s.exts.map (fun (e : Nat × Ext) => (e.1, { e.2 with queue := e.2.queue.filter theirs })) }
  let xs := (s1.exts.filter (fun e => (e.2.st == .promoting || e.2.st == .demoting) && extPart s e.1 == some p)).map (·.1)
  let s2 := xs.foldl (fun s x =>
    let s := endTransition (extOf s x).queue x s
    tierDrain x (if !(extOf s x).held.isEmpty && (extOf s x).st == .flash then tierStart { ext := x, kind := .demandPromote (x % 4) } s else s)) s1
  tierRetry s2

/-- What a reset that leaves HBM powered does to the tiers (R229, R243): transitions end, and pins, held frames
and age stamps go. -/
def extAfterReset (e : Ext) : Ext :=
  let st := match e.st with | .promoting => ExtState.flash | .demoting => .hbm | t => t
  let e := if e.st == .demoting then abandoned e else e
  { e with st := st, pin := none, stamp := 0, passes := 0, doing := none, queue := [], held := [],
           die := if st == .flash then 0 else e.die, frame := if st == .flash then 0 else e.frame }

def tierReset (s : State) : State :=
  let promo := s.exts.filter (fun e => e.2.st == .promoting)
  let frames := (List.range 4).map (fun d =>
    let a := (promo.filter (fun e => e.2.die == d)).map (·.2.frame)
    let b := s.parts.flatMap (fun p => p.2.held.getD d [])
    (a ++ b).foldl (fun l f => setIns f l) (s.freeFrames.getD d []))
  { s with exts := s.exts.map (fun e => (e.1, extAfterReset e.2)), freeFrames := frames, tierWait := [] }

/-- The tiers at power-on after HBM lost its supply (R217). -/
def tierPowerOn (s : State) : State :=
  { s with exts := [], freeFrames := [[], [], [], []], tierWait := [],
           mem := memPart (389120 * extSize) (umrEnd - 389120 * extSize) s.flash,
           lineErr := [], poison := s.flashPoison.filter (fun l => decide (389120 * 32768 ≤ l)),
           flash := memPart (389120 * extSize) (umrEnd - 389120 * extSize) s.flash,
           flashPoison := s.flashPoison.filter (fun l => decide (389120 * 32768 ≤ l)) }

end Sys2Proof.Machine
end

