-- ==== Sys2Proof/Machine/Media.lean ====
section
/-! DEFINITION. Flash as a medium: where a sector stands, array reads and their counts, relocation (R223 to R228). -/

namespace Sys2Proof.Machine

/-! ### Flash (R223 to R228) -/

/-- The erase block, of its stack, in which a sector stands now. -/
def sectorBlock (s : State) (x k : Nat) : Nat :=
  let b := Config.blockOf x k (tblGet 0 (stackOf s (flashStack x)).gen (x * 512 + k)) % 131072
  tblGet b (stackOf s (flashStack x)).moved b

/-- An array read of a sector is counted in its erase block (R224, R227): at 2^24 the block is queued for relocation,
at 2^25 it has reached the hard limit. -/
def arrayRead (x k : Nat) (s : State) : State :=
  let f := flashStack x
  let st := stackOf s f
  let b := sectorBlock s x k
  let n := tblGet 0 st.reads b + 1
  let st1 := { st with reads := tblSet b n st.reads, queued := if n = 2 ^ 24 then st.queued ++ [b] else st.queued }
  let s1 := setStack f st1 s
  if n = 2 ^ 25 then bump 0x0222 f 1 s1 else s1

/-- A sector-path read of a sector, extent × 512 + sector: those made at one instant share one array read (R218; log 60). -/
def sectorArray (k : Nat) (s : State) : State :=
  let seen := if s.sectors.1 = now s then s.sectors.2 else []
  if setHas seen k then s else arrayRead (k / 512) (k % 512) { s with sectors := (now s, setIns k seen) }

/-- A sector that fails decoding is poisoned, line by line, and counted once (R228). -/
def poisonSector (x k : Nat) (s : State) : State :=
  let ls := (List.range 64).map (· + (x * 512 + k) * 64)
  let s1 := if ls.all (fun l => setHas s.flashPoison l) then s else bump 0x0223 (flashStack x) 1 s
  { s1 with poison := ls.foldl (fun p l => setIns l p) s1.poison, flashPoison := ls.foldl (fun p l => setIns l p) s1.flashPoison }

/-- The line path reads its sector from the array when the extent is flash-resident (Table 08-2, R242). -/
def lineFetch (l : Nat) (s : State) : State :=
  if inHbm s (l / 32768) then meetError l (touchExt (l / 32768) s) else arrayRead (l / 32768) ((l / 64) % 512) s

/-! ### Fresh blocks and relocation (R223 to R226, R228) -/

/-- A block that a stack may take as fresh: none that is retired, that a relocation fills, that took another block's sectors, or that
has been read since its erase. -/
def blockFree (t : Stack) (b n : Nat) : Bool :=
  !(decide (n = b) || setHas t.bad n || t.reloc.any (fun e => e.2 == n) || t.moved.any (fun e => e.2 == n) || (tblGet? t.reads n).isSome)

/-- The first free block from `n` on; `f` bounds the search. -/
def freeFrom (t : Stack) (b : Nat) : Nat → Nat → Nat
  | 0, n => n % 131072
  | f + 1, n => if blockFree t b (n % 131072) then n % 131072 else freeFrom t b f (n + 1)

/-- A fresh block for the sectors of block `b`; which, is the Tender's (R223; a free value, log 8). -/
def freshBlock (t : Stack) (b v : Nat) : Nat :=
  freeFrom t b (t.bad.length + t.reloc.length + t.moved.length + t.reads.length + 1) v

/-- The translation of a stack after block `b`'s sectors moved to block `n`. -/
def moveBlock (b n : Nat) (m : Tbl Nat) : Tbl Nat :=
  let m1 := m.map (fun e => if e.2 = b then (e.1, n) else e)
  if (tblGet? m1 b).isSome then m1 else tblSet b n m1

/-- The translation switches, the old block is erased and its count resets (R224, R225). No contents change. -/
def switchBlock (f b n : Nat) (s : State) : State :=
  let t := stackOf s f
  setStack f { t with
      reloc := tblDel b t.reloc, queued := t.queued.filter (fun x => decide (x ≠ b)), reads := tblDel b t.reads
      erases := tblSet b (tblGet 0 t.erases b + 1) t.erases, moved := moveBlock b n t.moved } s

/-- Relocations in progress of a stack are each finished or abandoned; a free value chooses (R243, R458). -/
def settleRelocations (f : Nat) (s : State) : State :=
  (stackOf s f).reloc.foldl (fun s e =>
    let (v, s1) := draw s
    if v.toNat % 2 = 1 then switchBlock f e.1 e.2 s1
    else setStack f { stackOf s1 f with reloc := tblDel e.1 (stackOf s1 f).reloc } s1) s

end Sys2Proof.Machine
end

