-- ==== Sys2Proof/Machine/Mbox.lean ====
section
/-! DEFINITION. The mailbox: submission of a request, the checks every command shares, and the reply
(R375 to R384, R393, R394). -/

namespace Sys2Proof.Machine

/-- What a command answers. -/
structure Reply where
  status : Nat
  flags : Nat := 0
  detail : Nat := 0
  clamps : Nat := 0
  payload : List Word := []
  /-- The reply is written later: the channel stays busy (R388). -/
  later : Bool := false
  /-- The command reset the channel itself: last_seq and the generation stay zero (R400). -/
  fresh : Bool := false
  deriving DecidableEq, Repr

/-- No single field failed (R380). -/
def noField : Nat := 0xFFFFFFFF

def ok (payload : List Word := []) : Reply := { status := stDone, payload := payload }
def rejected (st : Nat) (detail : Nat := noField) : Reply := { status := st, detail := detail }

/-- A rejection check: whether it failed, its status, and the byte offset of the field it concerns (R380). -/
abbrev Check := Bool × Nat × Nat

/-- The rejection that R8 chooses: the lowest-valued status, and the first field that failed it. -/
def pick (cs : List Check) : Option (Nat × Nat) :=
  match lowest (cs.map (fun c => (c.1, c.2.1))) with
  | none => none
  | some st => (cs.find? (fun c => c.1 && c.2.1 == st)).map (fun c => (st, c.2.2))

/-- Runs a command unless a check fails (R8). -/
def checked (cs : List Check) (run : State → Reply × State) (s : State) : Reply × State :=
  match pick cs with
  | some (st, d) => (rejected st d, s)
  | none => run s

/-- A command of the catalogue (Table 14-4). -/
structure CmdInfo where
  ch0 : Bool
  gen : Nat
  /-- Payload bytes; none for a length the command itself gives. -/
  bytes : Option Nat
  /-- Accepted in the safe state (R393). -/
  safe : Bool

def cmdInfo (code : Nat) : Option CmdInfo :=
  if code = 0x0001 then some ⟨false, 1, some 8, true⟩
  else if code = 0x0010 then some ⟨true, 1, some 160, false⟩
  else if code = 0x0011 then some ⟨true, 1, some 8, false⟩
  else if code = 0x0020 then some ⟨false, 1, some 24, false⟩
  else if code = 0x0021 then some ⟨false, 1, some 24, false⟩
  else if code = 0x0022 then some ⟨false, 1, some 16, false⟩
  else if code = 0x0030 then some ⟨false, 2, some 24, false⟩
  else if code = 0x0040 then some ⟨false, 1, some 8, false⟩
  else if code = 0x0050 then some ⟨false, 1, some 8, true⟩
  else if code = 0x0051 then some ⟨false, 3, some 0, true⟩
  else if code = 0x0060 then some ⟨false, 2, some 24, true⟩
  else if code = 0x0070 then some ⟨true, 1, some 8, false⟩
  else if code = 0x0080 then some ⟨true, 1, some 8, false⟩
  else if code = 0x0081 then some ⟨true, 1, some 8, true⟩
  else if code = 0x0090 then some ⟨false, 1, some 8, true⟩
  else if code = 0x00A0 then some ⟨true, 2, none, true⟩
  else none

/-- Reserved fields of a command's payload (Table 14-5, Table 15-4, R5): word, high bit, low bit; `lc` is the life-cycle state. -/
def reservedFields (lc code : Nat) (w : List Word) : List (Nat × Nat × Nat) :=
  let w0 := (wd w 0).toNat
  if code = 0x0001 then [(0, 47, 0)]
  else if code = 0x0010 then [(0, 38, 0), (1, 14, 0), (2, 38, 0), (3, 3, 0), (5, 58, 0), (6, 19, 0), (8, 63, 0), (9, 63, 0),
    (10, 63, 0), (11, 63, 0), (12, 12, 0), (13, 46, 0), (15, 19, 0), (16, 19, 0), (17, 19, 0), (18, 19, 0), (19, 63, 0)]
  else if code = 0x0011 then [(0, 59, 0)]
  else if code = 0x0020 then [(0, 59, 0), (1, 63, 56), (2, 63, 40)]
  else if code = 0x0021 then [(0, 39, 0)] ++ (if bit w0 40 then [] else [(0, 44, 41)])
  else if code = 0x0022 then [(0, 59, 0)]
  else if code = 0x0030 then [(0, 48, 0), (1, 63, 43), (2, 63, 40)] ++
    (if bit w0 55 then [(0, 54, 49), (1, 42, 0), (2, 39, 0)] else [])
  else if code = 0x0040 then [(0, 48, 0)]
  else if code = 0x0050 then [(0, 35, 0)]
  else if code = 0x0060 then [(0, 57, 0), (2, 63, 32)] ++ (if fld w0 59 58 = 2 then [] else [(2, 31, 0)])
  else if code = 0x0070 then [(0, 63, 56)]
  else if code = 0x0080 then [(0, 51, 0)]
  else if code = 0x0081 then [(0, 63, 0)]
  else if code = 0x0090 then [(0, 58, 0)]
  else if code = 0x00A0 then
    -- A transition that needs no authorisation carries none (R403).
    (if fld w0 63 56 = 1 then (0, 51, 0) :: (if fld w0 55 52 = 5 || (lc = 2 && fld w0 55 52 = 3) then (List.range 25).map (fun i => (i + 1, 63, 0)) else [])
     else if fld w0 63 56 = 2 then [(0, 47, 0), (1, 63, 56), (2, 63, 32), (3, 63, 0)]
     else [(0, 47, 0)])
  else []

/-- The length that LIFECYCLE_ADVANCE's op requires; none for an unknown op (R403). -/
def lifecycleBytes (w : List Word) : Option Nat :=
  match wf (wd w 0) 63 56 with
  | 1 => some 208
  | 2 => some 32
  | 3 => some 8
  | _ => none

/-- The byte offset of the first reserved field that is not zero (R5, R380). -/
def reservedAt (lc code : Nat) (w : List Word) : Option Nat :=
  ((reservedFields lc code w).find? (fun f => decide (wf (wd w f.1) f.2.1 f.2.2 ≠ 0))).map (fun f => 8 * f.1 + f.2.2 / 8)

/-- A write that R377 ignores is counted, in the register and in item 0x0262. -/
def discardWrite (ch : Nat) (s : State) : State :=
  let c := chanOf s ch
  bump 0x0262 ch 1 (setChan ch { c with discards := satAdd max32 c.discards 1 } s)

/-- The interrupt that follows a reply (R377). -/
def replyIrq (ch : Nat) (s : State) : State :=
  let c := chanOf s ch
  if c.irqEn then pend c.irqHart c.irqFile (16 + ch) s else s

/-- The words of a reply (Table 14-3). -/
def replyWords (gen cmd seq : Nat) (r : Reply) : List Word :=
  [word (gen * 2 ^ 56 + cmd * 2 ^ 32 + seq * 2 ^ 16 + 8 * r.payload.length),
   word (r.detail * 2 ^ 32 + r.clamps * 2 ^ 16 + (r.status * 256 + r.flags))] ++ r.payload

/-- A whole reply is written, then reply_valid is set and busy cleared, and the interrupt follows (R377). -/
def putReply (ch : Nat) (ws : List Word) (s : State) : State :=
  let c := chanOf s ch
  replyIrq ch (setChan ch { c with reply := memWrite c.reply 0 (bytesOf ws), replyValid := true, busy := false, turn := none } s)

/-- The partition that holds a channel (R376). -/
def chanPart (s : State) (ch : Nat) : Option Nat :=
  if ch = 0 then none else (s.parts.find? (fun e => e.2.chan == ch)).map (·.1)

/-- The package is in the safe state (R446), or its bring-up is not complete (R444). -/
def inSafe (s : State) : Bool := s.bu.state ≠ 1

/-- A Caboose serves the channels (R375). -/
def served (s : State) : Bool := s.active.isSome

/-- A command's meaning: channel, sequence, payload words. -/
abbrev Cmd := Nat → Nat → List Word → State → Reply × State

/-- Whether a command's word 0 names a partition in bits [63:60] that a partition channel must match (R384). -/
def namesPart (code : Nat) : Bool :=
  [0x0011, 0x0020, 0x0021, 0x0022, 0x0030, 0x0040, 0x0050, 0x0060, 0x0090].elem code

/-- ROM-only service (R415): channel 0, and four commands. -/
def romServes (ch code : Nat) (w : List Word) : Bool :=
  ch == 0 && (code == 1 || code == 0x90 || (code == 0x50 && wf (wd w 0) 59 52 == 4) ||
    (code == 0xA0 && (wf (wd w 0) 63 56 == 2 || (wf (wd w 0) 63 56 == 1 && wf (wd w 0) 55 52 == 5))))

/-- Whether the channel may carry the command at all (R376, R384, R393, R415): otherwise it completes REJECTED_STATE. -/
def admitted (s : State) (ch code : Nat) (w : List Word) : Bool :=
  match cmdInfo code with
  | none => false
  | some i =>
    (ch == 0 || ((chanPart s ch).isSome && !i.ch0 &&
      (!namesPart code || chanPart s ch == some (wf (wd w 0) 63 60)))) &&
    (!inSafe s || i.safe) && (s.bu.state ≠ 3 || romServes ch code w)

/-- The field that keeps a command from its channel: the partition field of one that names another partition than the channel's. -/
def admitField (s : State) (ch code : Nat) (w : List Word) : Nat :=
  if ch ≠ 0 && (chanPart s ch).isSome && (cmdInfo code).any (fun i => !i.ch0) && namesPart code &&
    chanPart s ch ≠ some (wf (wd w 0) 63 60) then 7 else noField

/-- The request in the request area: header and payload words (R378). -/
def request (s : State) (ch : Nat) : Nat × List Word :=
  let c := chanOf s ch
  (memLe c.req 0 8, wordsOf (memRead c.req 8 2040))

/-- Whether a request is structurally malformed, and at which field (R380). -/
def malformed (lc gen hdr : Nat) (w : List Word) : Option Nat :=
  let code := fld hdr 47 32
  let len := fld hdr 15 0
  match cmdInfo code with
  | none => some noField
  | some i =>
    let badLen := match i.bytes with
      | some n => decide (len ≠ n)
      | none => lifecycleBytes w ≠ some len
    if fld hdr 55 48 ≠ 0 || badLen || (if code = 1 then fld hdr 63 56 = 0 || 3 < fld hdr 63 56
        else gen ≠ 0 && (fld hdr 63 56 ≠ gen || gen < i.gen)) then some noField
    else reservedAt lc code w

/-- VERSION_HELLO's negotiated generation (R381). -/
def negotiated (w : Word) : Option Nat :=
  let g := min (wf w 63 56) 3
  if max (wf w 55 48) 1 ≤ g then some g else none

/-- What the channel or the state stands against completes REJECTED_STATE, unless a check of the command itself fails with a
lower status (R8). -/
def turnedAway (own : Reply) (d : Nat) : Reply :=
  if stFormat ≤ own.status && own.status < stState then own else rejected stState d

/-- What executing a request gives: a rejection that every command shares, or the command's own answer. -/
def answer (f : Nat → Cmd) (ch hdr : Nat) (w : List Word) (s : State) : Reply × State :=
  let code := fld hdr 47 32
  let w := w.take (fld hdr 15 0 / 8)
  match malformed s.lc.state (chanOf s ch).gen hdr w with
  | some d => (rejected stFormat d, s)
  | none =>
    let own := f code ch (fld hdr 31 16) w s
    if code ≠ 1 && (chanOf s ch).gen = 0 then (turnedAway own.1 noField, s)
    else if code ≠ 1 && !admitted s ch code w then (turnedAway own.1 (admitField s ch code w), s)
    else own

/-- The reply to a request is stored and written, and last_seq and last_status are set (R379); a reply that comes later leaves the
channel busy (R388). -/
def conclude (ch hdr : Nat) (r : Reply) (s : State) : State :=
  let c := chanOf s ch
  let seq := fld hdr 31 16
  if r.later then setChan ch { c with busy := true, lastSeq := seq } s
  else
    let ws := replyWords c.gen (fld hdr 47 32) seq r
    putReply ch ws (setChan ch (if r.fresh then c else { c with lastSeq := seq, lastStatus := r.status * 256 + r.flags, stored := ws }) s)

/-- The request is executed. -/
def execute (f : Nat → Cmd) (ch hdr : Nat) (w : List Word) (s : State) : State :=
  conclude ch hdr (answer f ch hdr w s).1 (answer f ch hdr w s).2

/-- A deferred reply is written (R388). -/
def finishDeferred (ch cmd seq : Nat) (r : Reply) (s : State) : State :=
  let c := chanOf s ch
  if c.busy then
    let ws := replyWords c.gen cmd seq r
    putReply ch ws (setChan ch { c with lastSeq := seq, lastStatus := r.status * 256 + r.flags, stored := ws } s)
  else s

/-! ### The order of commands (R382) -/

/-- Commands that wait for an earlier one on the same partition: those that make, use or end what it holds (log 70). -/
def orderedCode (code : Nat) : Bool := [0x0010, 0x0011, 0x0020, 0x0021, 0x0022, 0x0030].elem code

/-- The partition in whose order a command stands. -/
def namedPart (code : Nat) (w : List Word) : Option Nat := if orderedCode code then some (wf (wd w 0) 63 60) else none

/-- The partition in whose order the request of a channel stands. -/
def chanNames (c : Chan) : Option Nat := namedPart (fld (memLe c.req 0 8) 47 32) [word (memLe c.req 8 8)]

/-- A request that is executed already comes before every one that waits. -/
def comesFirst (a b : Option Nat) : Bool :=
  match a, b with
  | none, _ => true
  | some _, none => true
  | some x, some y => decide (x < y)

/-- An earlier command that names the partition is in progress on another channel (R382). -/
def behindOther (s : State) (ch code : Nat) (w : List Word) : Bool :=
  match namedPart code w with
  | none => false
  | some p => s.chans.any (fun e => e.1 ≠ ch && e.2.busy && chanNames e.2 == some p && comesFirst e.2.turn (chanOf s ch).turn)

/-- The request stands against nothing and waits for an earlier one. -/
def mustWaitTurn (s : State) (ch hdr : Nat) (w : List Word) : Bool :=
  let w := w.take (fld hdr 15 0 / 8)
  (malformed s.lc.state (chanOf s ch).gen hdr w).isNone && decide ((chanOf s ch).gen ≠ 0) && admitted s ch (fld hdr 47 32) w &&
    behindOther s ch (fld hdr 47 32) w

/-- The place behind every request that waits. -/
def nextTurn (s : State) : Nat := s.chans.foldl (fun n e => max n ((e.2.turn.getD 0) + 1)) 0

/-- The first request that waited and has nothing left to wait for. -/
def nextServed (s : State) : Option Nat :=
  let ready := s.chans.filter (fun e => e.2.turn.isSome && !behindOther s e.1 (fld (memLe e.2.req 0 8) 47 32) (request s e.1).2)
  (ready.foldl (fun (b : Option (Nat × Nat)) e =>
    match b with
    | some x => if e.2.turn.getD 0 < x.2 then some (e.1, e.2.turn.getD 0) else b
    | none => some (e.1, e.2.turn.getD 0)) none).map (·.1)

/-- Requests that waited are executed in their order, as far as nothing holds them back any more (R382). -/
def serveWaiting (f : Nat → Cmd) : Nat → State → State
  | 0, s => s
  | n + 1, s =>
    match nextServed s with
    | none => s
    | some ch =>
      let (hdr, w) := request s ch
      serveWaiting f n (execute f ch hdr w (setChan ch { chanOf s ch with busy := false, turn := none } s))

/-- go = 1 is written (R377 to R379, R382). -/
def goWith (f : Nat → Cmd) (ch : Nat) (s : State) : State :=
  let c := chanOf s ch
  if c.busy || !served s then discardWrite ch s
  else
    let (hdr, w) := request s ch
    let seq := fld hdr 31 16
    if fld hdr 47 32 = 1 || seq = (c.lastSeq + 1) % 65536 then
      if mustWaitTurn s ch hdr w then setChan ch { c with busy := true, turn := some (nextTurn s) } s else execute f ch hdr w s
    else if seq = c.lastSeq then
      if c.stored.isEmpty then putReply ch (replyWords c.gen (fld hdr 47 32) seq (rejected stState)) s
      else putReply ch c.stored s
    else putReply ch (replyWords c.gen (fld hdr 47 32) seq (rejected stFormat)) s

/-- The request message stands in the request area (R378). -/
def putRequest (ch : Nat) (hdr : Word) (pl : List Word) (s : State) : State :=
  let c := chanOf s ch
  if c.busy then s else setChan ch { c with req := memWrite c.req 0 (bytesOf (hdr :: pl)) } s

/-- A write to CBX_URGENT (R394). -/
def urgentWith (f : Nat → Cmd) (ch ucmd : Nat) (uarg : Nat) (s : State) : State :=
  let c := chanOf s ch
  if !(ucmd == 0x40 || ucmd == 0x81 || ucmd == 0x90) || c.ubusy || !served s then discardWrite ch s
  else
    let w := [word (uarg * 65536)]
    let (r, s1) := match reservedAt s.lc.state ucmd w with
      | some d => (rejected stFormat d, s)
      | none =>
        let own := f ucmd ch 0 w s
        if admitted s ch ucmd w then own else (turnedAway own.1 noField, s)
    let c1 := chanOf s1 ch
    replyIrq ch (setChan ch { c1 with ucmd := ucmd, ustatus := r.status * 256 + r.flags } s1)

/-- A row of the mailbox: the message stands in the request area and go is written, or the urgent register is. A message
whose header carries another command is another row. -/
def submit (f : Nat → Cmd) (code ch : Nat) (sub : Submission) (s : State) : State :=
  match sub with
  | .go hdr pl => if wf hdr 47 32 = code then goWith f ch (putRequest ch hdr pl s) else s
  | .urgent u => urgentWith f ch code u.toNat s

end Sys2Proof.Machine
end

