-- ==== Sys2Proof/Machine/Sha.lean ====
section
/-! DEFINITION. SHA-384 (FIPS 180-4), which R154, R360, R404, R416 and R420 name, and the seal tree of R416. -/

namespace Sys2Proof.Machine

/-- The 80 round constants of FIPS 180-4 for the 64-bit word functions. -/
def shaK : List (BitVec 64) :=
  [0x428a2f98d728ae22#64, 0x7137449123ef65cd#64, 0xb5c0fbcfec4d3b2f#64, 0xe9b5dba58189dbbc#64,
   0x3956c25bf348b538#64, 0x59f111f1b605d019#64, 0x923f82a4af194f9b#64, 0xab1c5ed5da6d8118#64,
   0xd807aa98a3030242#64, 0x12835b0145706fbe#64, 0x243185be4ee4b28c#64, 0x550c7dc3d5ffb4e2#64,
   0x72be5d74f27b896f#64, 0x80deb1fe3b1696b1#64, 0x9bdc06a725c71235#64, 0xc19bf174cf692694#64,
   0xe49b69c19ef14ad2#64, 0xefbe4786384f25e3#64, 0x0fc19dc68b8cd5b5#64, 0x240ca1cc77ac9c65#64,
   0x2de92c6f592b0275#64, 0x4a7484aa6ea6e483#64, 0x5cb0a9dcbd41fbd4#64, 0x76f988da831153b5#64,
   0x983e5152ee66dfab#64, 0xa831c66d2db43210#64, 0xb00327c898fb213f#64, 0xbf597fc7beef0ee4#64,
   0xc6e00bf33da88fc2#64, 0xd5a79147930aa725#64, 0x06ca6351e003826f#64, 0x142929670a0e6e70#64,
   0x27b70a8546d22ffc#64, 0x2e1b21385c26c926#64, 0x4d2c6dfc5ac42aed#64, 0x53380d139d95b3df#64,
   0x650a73548baf63de#64, 0x766a0abb3c77b2a8#64, 0x81c2c92e47edaee6#64, 0x92722c851482353b#64] ++
  [0xa2bfe8a14cf10364#64, 0xa81a664bbc423001#64, 0xc24b8b70d0f89791#64, 0xc76c51a30654be30#64,
   0xd192e819d6ef5218#64, 0xd69906245565a910#64, 0xf40e35855771202a#64, 0x106aa07032bbd1b8#64,
   0x19a4c116b8d2d0c8#64, 0x1e376c085141ab53#64, 0x2748774cdf8eeb99#64, 0x34b0bcb5e19b48a8#64,
   0x391c0cb3c5c95a63#64, 0x4ed8aa4ae3418acb#64, 0x5b9cca4f7763e373#64, 0x682e6ff3d6b2b8a3#64,
   0x748f82ee5defb2fc#64, 0x78a5636f43172f60#64, 0x84c87814a1f0ab72#64, 0x8cc702081a6439ec#64,
   0x90befffa23631e28#64, 0xa4506cebde82bde9#64, 0xbef9a3f7b2c67915#64, 0xc67178f2e372532b#64,
   0xca273eceea26619c#64, 0xd186b8c721c0c207#64, 0xeada7dd6cde0eb1e#64, 0xf57d4f7fee6ed178#64,
   0x06f067aa72176fba#64, 0x0a637dc5a2c898a6#64, 0x113f9804bef90dae#64, 0x1b710b35131c471b#64,
   0x28db77f523047d84#64, 0x32caab7b40c72493#64, 0x3c9ebe0a15c9bebc#64, 0x431d67c49c100d4c#64,
   0x4cc5d4becb3e42b6#64, 0x597f299cfc657e2a#64, 0x5fcb6fab3ad6faec#64, 0x6c44198c4a475817#64]

/-- The initial hash value of SHA-384. -/
def shaInit : List (BitVec 64) :=
  [0xcbbb9d5dc1059ed8#64, 0x629a292a367cd507#64, 0x9159015a3070dd17#64, 0x152fecd8f70e5939#64,
   0x67332667ffc00b31#64, 0x8eb44a8768581511#64, 0xdb0c2e0d64f98fa7#64, 0x47b5481dbefa4fa4#64]

def rotr64 (x : BitVec 64) (k : Nat) : BitVec 64 := (x >>> k) ||| (x <<< (64 - k))

def shaS0 (x : BitVec 64) : BitVec 64 := rotr64 x 28 ^^^ rotr64 x 34 ^^^ rotr64 x 39
def shaS1 (x : BitVec 64) : BitVec 64 := rotr64 x 14 ^^^ rotr64 x 18 ^^^ rotr64 x 41
def shaG0 (x : BitVec 64) : BitVec 64 := rotr64 x 1 ^^^ rotr64 x 8 ^^^ (x >>> 7)
def shaG1 (x : BitVec 64) : BitVec 64 := rotr64 x 19 ^^^ rotr64 x 61 ^^^ (x >>> 6)

/-- The message schedule, newest word first: `n` further words from the last sixteen. -/
def shaSched : Nat → List (BitVec 64) → List (BitVec 64)
  | 0, w => w
  | n + 1, w =>
    shaSched n ((shaG1 (w.getD 1 0) + w.getD 6 0 + shaG0 (w.getD 14 0) + w.getD 15 0) :: w)

/-- One round on the eight working words. -/
def shaRound (h : List (BitVec 64)) (kw : BitVec 64) : List (BitVec 64) :=
  match h with
  | [a, b, c, d, e, f, g, hh] =>
    let t1 := hh + shaS1 e + ((e &&& f) ^^^ (~~~e &&& g)) + kw
    let t2 := shaS0 a + ((a &&& b) ^^^ (a &&& c) ^^^ (b &&& c))
    [t1 + t2, a, b, c, d + t1, e, f, g]
  | _ => h

/-- One block of sixteen words. -/
def shaBlock (h : List (BitVec 64)) (blk : List (BitVec 64)) : List (BitVec 64) :=
  let w := (shaSched 64 blk.reverse).reverse
  let r := (List.zipWith (· + ·) shaK w).foldl shaRound h
  List.zipWith (· + ·) h r

/-- The padded message of FIPS 180-4: 0x80, zeros, the bit length in 16 bytes. -/
def shaPad (m : List Byte) : List Byte :=
  m ++ [0x80#8] ++ List.replicate ((128 - (m.length + 17) % 128) % 128) 0#8 ++ beBytes 16 (8 * m.length)

/-- SHA-384 of a byte string: 48 bytes. -/
def sha384 (m : List Byte) : List Byte :=
  let p := shaPad m
  let blocks := chunks 128 (p.length / 128) p
  let h := blocks.foldl (fun h b => shaBlock h ((chunks 8 16 b).map (fun x => BitVec.ofNat 64 (beNat x)))) shaInit
  (h.take 6).flatMap (fun x => beBytes 8 x.toNat)

/-- One level of the tree reduction of R416: pairs hashed with 0x01, an unpaired node moved up unchanged. -/
def treeLevel : List (List Byte) → List (List Byte)
  | a :: b :: t => sha384 (1#8 :: (a ++ b)) :: treeLevel t
  | [a] => [a]
  | [] => []

/-- The tree reduction of R416, at most `fuel` levels. -/
def treeReduce : Nat → List (List Byte) → List Byte
  | 0, l => l.headD []
  | f + 1, l => match l with
    | [] => []
    | [a] => a
    | l => treeReduce f (treeLevel l)

/-- The leaves of R416: 1 MiB pieces, each hashed with 0x00 and its number. -/
def sealLeaves : Nat → List (List Byte) → List (List Byte)
  | _, [] => []
  | i, p :: t => sha384 (0#8 :: (leBytes 8 i ++ p)) :: sealLeaves (i + 1) t

/-- `seal_root` of R416. -/
def sealRoot (s : List Byte) : List Byte :=
  let leaves := sealLeaves 0 (chunks 0x100000 (s.length / 0x100000 + 1) s)
  sha384 (2#8 :: (leBytes 8 s.length ++ treeReduce 64 leaves))

/-- The batch root of R420: the tree reduction over the leaves SHA-384(0x00 ∥ receipt). -/
def batchRoot (leaves : List (List Byte)) : List Byte := treeReduce 64 leaves

/-- The inclusion path of R420: siblings from the leaves upwards; an unpaired node contributes nothing. -/
def treePath : Nat → Nat → List (List Byte) → List (List Byte)
  | 0, _, _ => []
  | f + 1, i, l =>
    if l.length ≤ 1 then []
    else
      let sib := if i % 2 = 1 then [l.getD (i - 1) []] else if i + 1 < l.length then [l.getD (i + 1) []] else []
      sib ++ treePath f (i / 2) (treeLevel l)

end Sys2Proof.Machine
end

