-- ==== Sys2Proof/Machine/Sched.lean ====
section
/-! DEFINITION. The timetable's shared operations: planned times, launch and completion, epochs and
commit, notices, the end of a job, receipts and completion records
(R159 to R187, R353, R354, R366, R372, R418 to R421). -/

namespace Sys2Proof.Machine

/-! ### Planned times (R164, R184) -/

/-- Whether epoch `e` of the job or slot runs in degraded mode (R182). -/
def degradedAt (j : Job) (e : Nat) : Bool :=
  match j.degFrom with
  | some d => decide (d ≤ j.epochBase + e)
  | none => false

def epochLen (i : Image) (j : Job) (e : Nat) : Nat :=
  match i.epochs[e]? with
  | some r => 4 * (if degradedAt j e then r.lenDeg else r.lenNom)
  | none => 0

/-- Start of epoch `e` within the job or slot (R164). -/
def epochStart (i : Image) (j : Job) : Nat → Nat
  | 0 => 0
  | e + 1 => epochStart i j e + epochLen i j e

/-- Opening of slot k (R184). -/
def slotOpening (i : Image) (t0 offset k : Nat) : Nat := t0 + offset + 4 * (k * i.slotNum / (4 * i.slotDen))

/-- The instant from which the job's or slot's epochs are counted. -/
def jobBase (i : Image) (j : Job) (offset : Nat) : Nat :=
  if j.service then slotOpening i j.t0 offset j.slot else j.t0 + offset

/-- Planned start of an epoch. -/
def plannedStart (i : Image) (j : Job) (offset e : Nat) : Nat := jobBase i j offset + epochStart i j e

/-- Planned time P of an entry (R164). -/
def plannedTime (i : Image) (j : Job) (offset : Nat) (x : Entry) : Nat :=
  plannedStart i j offset x.epoch + 4 * (if degradedAt j x.epoch then x.launchDeg else x.launchNom)

/-- Slack S of an entry, ns (R176). -/
def slackOf (i : Image) (j : Job) (x : Entry) : Nat :=
  match (i.epochs[x.epoch]?).bind (fun r => r.segs[x.segment]?) with
  | some g => 4 * (if degradedAt j x.epoch then g.slackDeg else g.slackNom)
  | none => 0

/-- Budget of an entry, ns. -/
def budgetOf (j : Job) (x : Entry) : Nat := 4 * (if degradedAt j x.epoch then x.budgetDeg else x.budgetNom)

/-- Entries of stream `st` in epoch `e`. -/
def epochEntries (i : Image) (st e : Nat) : List Entry := (tblGet [] i.streams st).filter (fun x => x.epoch == e)

/-- The streams an image uses. -/
def usedStreams (i : Image) : List Nat := (i.streams.filter (fun e => !e.2.isEmpty)).map (·.1)

/-- The image and open job of a stream's partition. -/
def streamJob (s : State) (st : Nat) : Option (Nat × Image × Job) :=
  let p := (seqOf s st).part
  match (partOf s p).image, (partOf s p).job with
  | some i, some j => if (seqOf s st).st == .idle then none else some (p, i, j)
  | _, _ => none

/-- The next entry a sequencer launches. -/
def nextEntry (s : State) (st : Nat) : Option (Nat × Image × Job × Entry) :=
  match streamJob s st with
  | some (p, i, j) =>
    match (epochEntries i st (seqOf s st).epoch)[(seqOf s st).entry]? with
    | some x => some (p, i, j, x)
    | none => none
  | none => none

/-- The entries of a stream that have not launched: epoch and index, with the entry. -/
def unlaunched (i : Image) (q : Seq) (st : Nat) : List ((Nat × Nat) × Entry) :=
  (List.range (i.nEpochs - q.epoch)).flatMap (fun d =>
    ((epochEntries i st (q.epoch + d)).zipIdx.filter (fun e => decide (d ≠ 0 ∨ q.entry ≤ e.2))).map
      (fun e => ((q.epoch + d, e.2), e.1)))

/-- The key under which an entry's consecutive holds are counted (R181). -/
def entryKey (st : Nat) (e : Nat × Nat) : Nat := (e.1 * 2 ^ 32 + e.2) * 1024 + st

/-- Action type of an entry (R158). -/
def actionType (x : Entry) : Nat := wf (wd x.desc 0) 5 0

/-- Gate (g, c) is met as seen by stream `st` (R159, Table 06-8). -/
def gateMet (s : State) (st : Nat) (g : Nat × Nat) : Bool :=
  decide (g.2 ≤ tblGet 0 (seqOf s g.1).vis (visClass g.1 st))

/-- A stream's tile is neither unbacked nor retired: a retired tile launches nothing (R92, R452). -/
def unitWorks (s : State) (st : Nat) : Bool :=
  if st < 544 then (match physOf s st with | some t => !retired s t | none => false) else true

/-- Whether the next entry of a stream may launch as an action of type `ty`: its epoch has begun (R172), its
sequencer runs, and its gates are met (R165). Its P is reached by the passing of time. -/
def launchable (s : State) (st ty : Nat) : Option (Nat × Image × Job × Entry) :=
  match nextEntry s st with
  | some (p, i, j, x) =>
    if actionType x == ty && j.running && x.epoch == j.epoch && j.restartAt.isNone && !j.localDone
        && ((seqOf s st).st == .wait || (seqOf s st).st == .late) && x.gates.all (gateMet s st) && unitWorks s st
    then some (p, i, j, x) else none
  | none => none

/-- The next entry launches: time reaches P if it has not, and the sequencer moves on (R165, R169, R181). -/
def launch (st : Nat) (waits : Nat) (s : State) : State :=
  match nextEntry s st with
  | some (p, i, j, x) =>
    let s := advance (plannedTime i j (partOf s p).offset x) s
    let q := seqOf s st
    let last := (epochEntries i st q.epoch).length ≤ q.entry + 1
    let next := (tblGet [] i.streams st).find? (fun y => decide (q.epoch < y.epoch))
    let q' := { q with
      inflight := q.inflight ++ [{ idx := q.entry, at_ := now s, waits := waits }]
      entry := if last && next.isSome then 0 else q.entry + 1
      epoch := if last then (match next with | some y => y.epoch | none => q.epoch) else q.epoch
      st := if last then .epoch else .wait
      reported := q.reported.filter (fun e => decide (e ≠ (q.epoch, q.entry))) }
    modJob p (fun j => { j with consec := tblDel (entryKey st (q.epoch, q.entry)) j.consec }) (setSeq st q' s)
  | none => s

/-- The watermark of a stream: how many first entries have all completed (R159). -/
def watermark (done : NatSet) : Nat := ((List.range (done.length + 1)).find? (fun i => !setHas done i)).getD 0

/-- An entry completes (R166). -/
def complete (st idx : Nat) (s : State) : State :=
  let q := seqOf s st
  setSeq st { q with inflight := q.inflight.filter (fun f => decide (f.idx ≠ idx)), done := setIns idx q.done } s

/-- What requests made until now by a partition still wait for: its buckets with a debt, and the total that must be paid. -/
def tokenNeeds (s : State) (p : Nat) : List (Nat × Nat) :=
  let due := fun (base : Nat) (t : Tbl Bucket) => (t.filter (fun e => e.1 % 16 == p && decide (0 < e.2.owed))).map (fun e => (base + e.1, e.2.asked))
  due 0 s.hbmBuckets ++ due (2 ^ 20) s.flBuckets

/-- Whether requests have been admitted: every bucket has paid what they asked for (R198, R219). -/
def tokensPaid (s : State) (ns : List (Nat × Nat)) : Bool :=
  ns.all (fun e => match (if e.1 < 2 ^ 20 then tblGet? s.hbmBuckets e.1 else tblGet? s.flBuckets (e.1 - 2 ^ 20)) with
    | some b => decide (e.2 + b.owed ≤ b.asked)
    | none => true)

/-- A write of the tile's update port has not been performed (R221, R230, R264). -/
def portHeld (s : State) (t : Nat) : Bool := writesWait s (.updatePort t)

/-- An action in progress waits for the tokens of the requests it has made. -/
def noteNeeds (p st idx : Nat) (s : State) : State :=
  let q := seqOf s st
  let ns := tokenNeeds s p
  if ns.isEmpty then s else setSeq st { q with inflight := q.inflight.map (fun f => if f.idx = idx then { f with needs := ns } else f) } s

/-- Whether an entry is in progress. -/
def inProgress (s : State) (st idx : Nat) : Bool := (seqOf s st).inflight.any (fun f => f.idx == idx)

/-- The watermark becomes visible at a latency class (Table 06-8). -/
def makeVisible (st cls : Nat) (s : State) : State :=
  let q := seqOf s st
  setSeq st { q with vis := tblSet cls (watermark q.done) q.vis } s

/-! ### The route table and the Quartz (R150) -/

/-- This package is its own source of time: it has no route table, or the route table names it as the time root (R150). -/
def ownTime (s : State) : Bool := match s.route with | some r => r.timeRoot == r.self | none => true

/-- A new route table, or none: its upstream port takes over, and a package in CONSIST that has none runs in LOCAL (log 58). -/
def rerouteTime (s : State) : State :=
  let q := s.quartz
  if ownTime s && q.state == .consist then { s with quartz := { q with timingPort := none, state := .localRef, consistSince := none } }
  else { s with quartz := { q with timingPort := none } }

/-! ### Notices (R178, R332) -/

/-- Ports of the route table. -/
def usedPorts (s : State) : List Nat :=
  match s.route with
  | some r => (r.ports.filter (fun e => e.2.used && !(portOf s e.1).lost)).map (·.1)
  | none => []

def selfNo (s : State) : Nat := match s.route with | some r => r.self | none => 0

/-- A notice is sent on every used port but one. -/
def flood (n : Notice) (skip : Option Nat) (s : State) : State :=
  ((usedPorts s).filter (fun p => some p ≠ skip)).foldl (fun s p => send (.notice p n) s) s

/-- The member of the open job `p` issues a notice: it takes the next serial, holds the notice itself and floods it
where the consist has more members. -/
def issue (p kind cause epoch instant n : Nat) (s : State) : State :=
  match jobOf s p with
  | some j =>
    let nt : Notice := { kind, origin := selfNo s, cause, serial := j.serial, epoch, job := j.id, instant, n }
    let s := setJob p { j with serial := (j.serial + 1) % 2 ^ 32, notices := j.notices ++ [{ n := nt }],
                               seen := j.seen ++ [(nt.origin, nt.serial)] } s
    if 1 < j.members then flood nt none s else s
  | none => s

/-- The instant of a notice detected now (R174, R177, R181). -/
def noticeInstant (i : Image) (s : State) : Nat := roundUp (now s + 4 * i.holdLead) 4

/-- A hold or replay notice whose instant lies ahead (R179). -/
def pendingHold (s : State) (j : Job) : Bool :=
  j.notices.any (fun h => !h.applied && (h.n.kind == 0 || h.n.kind == 1) && decide (now s < h.n.instant))

/-- The abort notice of the member (R175, R181, R456, Table 07-3): cause 3 for a retirement, 4 otherwise. -/
def issueAbort (p cause : Nat) (s : State) : State :=
  match (partOf s p).image, jobOf s p with
  | some i, some j => issue p 2 cause (j.epochBase + j.epoch) (noticeInstant i s) 0 s
  | _, _ => s

/-- The least slack of an epoch, ns (R174). -/
def minSlack (i : Image) (j : Job) (e : Nat) : Nat :=
  match i.epochs[e]? with
  | some r => (r.segs.map (fun g => 4 * (if degradedAt j e then g.slackDeg else g.slackNom))).foldl min (2 ^ 64)
  | none => 0

/-- The hold quanta of a replay (R174). -/
def replayQuanta (i : Image) (j : Job) (offset tr : Nat) : Nat :=
  let d : Int := (tr + 4 * i.recovery : Nat) - (plannedStart i j offset j.epoch : Nat)
  if d ≤ (minSlack i j j.epoch : Nat) then 0 else ceilDiv d.toNat (4 * i.holdQuantum)

/-- The replay notice of the member (R174). -/
def issueReplay (p : Nat) (s : State) : State :=
  match (partOf s p).image, jobOf s p with
  | some i, some j =>
    let tr := noticeInstant i s
    issue p 1 3 (j.epochBase + j.epoch) tr (replayQuanta i j (partOf s p).offset tr) s
  | _, _ => s

/-! ### Receipts (R418 to R421) -/

/-- The flag byte of a job (Table 00-7). -/
def jobFlags (j : Job) : Nat :=
  32 * b2n j.replayed + 16 * b2n j.degraded + 8 * b2n j.late + 4 * b2n j.inexact + b2n j.trunc

/-- The status byte of causes that arose before the completion (R9). -/
def causeStatus (cs : List Nat) : Nat :=
  if cs.elem stReset then stReset else if cs.elem stPower then stPower else if cs.elem stRetire then stRetire else stDone

/-- The digest of marked actions: the digest itself, or SHA-384 over several in order of stream, epoch and entry (R360). -/
def keyLe (a b : Nat × Nat × Nat) : Bool :=
  if a.1 = b.1 then (if a.2.1 = b.2.1 then decide (a.2.2 ≤ b.2.2) else decide (a.2.1 < b.2.1)) else decide (a.1 < b.1)

def insertDigest (d : (Nat × Nat × Nat) × List Byte) : List ((Nat × Nat × Nat) × List Byte) → List ((Nat × Nat × Nat) × List Byte)
  | [] => [d]
  | h :: t => if keyLe d.1 h.1 then d :: h :: t else h :: insertDigest d t

def markedDigest (ds : List ((Nat × Nat × Nat) × List Byte)) : List Byte :=
  match ds.foldl (fun l d => insertDigest d l) [] with
  | [] => List.replicate 48 0
  | [d] => d.2
  | l => sha384 (l.flatMap (·.2))

/-- The receipt of a job (Table 15-8). -/
def receiptBytes (s : State) (p : Nat) (q : Part) (j : Job) (status tEnd : Nat) : List Byte :=
  let sealed := match j.sealSlot with
    | some k => match tblGet? q.seals k with | some x => x.root | none => List.replicate 48 0
    | none => List.replicate 48 0
  let complete := status / 256 == stDone
  leBytes 1 1 ++ leBytes 1 p ++ leBytes 2 (selfNo s) ++ leBytes 2 status ++ leBytes 2 1500 ++
  leBytes 8 s.lc.deviceId ++ leBytes 8 j.id ++ leBytes 8 s.rcpt.next ++ leBytes 8 (if j.service then j.openedAt else j.t0) ++ leBytes 8 tEnd ++
  leBytes 4 (min max32 j.holds) ++ leBytes 2 (min 0xFFFF j.retires) ++ leBytes 2 (min 0xFFFF j.replays) ++
  leBytes 2 (j.firstRetired.getD 0xFFFF) ++ leBytes 1 (match j.sealSlot with | some k => 128 + k | none => 0) ++
  leBytes 1 0 ++ leBytes 4 (if j.service then j.slot else 0) ++ padTo 48 0 sealed ++
  padTo 48 0 (match q.image with | some i => i.digest | none => []) ++
  padTo 48 0 (markedDigest j.digIn) ++
  padTo 48 0 (if complete then markedDigest j.digOut else List.replicate 48 0)

/-- Changes every batch. -/
def modBatches (f : Batch → Batch) (s : State) : State :=
  { s with rcpt := { s.rcpt with batches := s.rcpt.batches.map f } }

/-- The open batch closes (R419). -/
def closeBatch (s : State) : State :=
  modBatches (fun b => if b.closedAt.isNone then { b with closedAt := some (now s) } else b) s

/-- Signing of every closed batch without a record stops (R419). -/
def stopSigning (s : State) : State :=
  modBatches (fun b => if b.closedAt.isSome && b.record.isEmpty then { b with stopped := true } else b) s

/-- A receipt is appended to the log, in the open batch or a new one (R418, R419, R421). -/
def appendReceipt (bs : List Byte) (s : State) : State :=
  let r := s.rcpt
  let open_ := r.batches.find? (fun b => b.closedAt.isNone)
  let more := r.batches.map (fun (b : Batch) => if b.closedAt.isNone then { b with count := b.count + 1 } else b)
  let kept := r.batches.filter (fun (b : Batch) => decide (r.nextBatch < b.num + 131072))
  let fresh : Batch := { num := r.nextBatch, first := r.next, count := 1, openedAt := now s }
  let r1 := match open_ with
    | some _ => { r with batches := more }
    | none => { r with nextBatch := r.nextBatch + 1, batches := kept ++ [fresh] }
  let s1 := { s with rcpt := { r1 with log := tblSet r.next bs (if 6291456 ≤ r.next then tblDel (r.next - 6291456) r1.log else r1.log), next := r.next + 1 } }
  if s1.rcpt.batches.any (fun b => b.closedAt.isNone && decide (32768 ≤ b.count)) then closeBatch s1 else s1

/-- Whether the next receipt would overwrite one whose batch is unsigned (R421). -/
def receiptBlocked (s : State) : Bool :=
  decide (s.lc.state ≠ 1) && decide (6291456 ≤ s.rcpt.next) &&
  s.rcpt.batches.any (fun b => b.record.isEmpty && decide (b.first ≤ s.rcpt.next - 6291456) &&
    decide (s.rcpt.next - 6291456 < b.first + b.count))

/-! ### Completion records (R353, R387) -/

/-- A completion record waits on its queue. A job record of a disabled queue is discarded and counted (R387). -/
def pushRec (q : Nat) (r : Rec) (s : State) : State :=
  let x := queueOf s q
  if r.kind == 2 && !(x.enable || x.disabling) then bump 0x0264 q 1 s
  else setQueue q { x with recs := x.recs ++ [r] } s

/-- DBL_PARKED reads state, so parking is the state alone (R352, R482). -/
def parkQueue (x : QCtx) : QCtx :=
  { x with state := if x.state == .running then .parked else x.state, reading := false, repoll := none, repollNo := 0 }

/-- The record of an accepted descriptor that ends without running. -/
def descRec (d : List Word) (status : Nat) : Rec :=
  { kind := 0, seq := wf (wd d 0) 63 48, tag := wf (wd d 7) 15 0, status := status * 256, irq := bit (wd d 0).toNat 46 }

/-- The record of a bound request's job, or of a one-shot job (Table 13-3). -/
def jobRec (j : Job) (status : Nat) (idx : Nat) : Rec :=
  match j.bound with
  | some b => { kind := 2, seq := wf (wd b.desc 0) 63 48, tag := wf (wd b.desc 7) 15 0, status, job := j.id,
                irq := bit (wd b.desc 0).toNat 46, logIdx := some idx }
  | none => { kind := 2, seq := 0, tag := 0, status, job := j.id, irq := j.irq, logIdx := some idx }

/-! ### Epoch flags (R56, R58, R87) -/

/-- Physical tiles of a partition. -/
def partTiles (s : State) (p : Nat) : List Nat :=
  let t := (partOf s p).tiles
  (List.range t.2).filterMap (fun i => physOf s (t.1 + i))

/-- The epoch flags of a tile are cleared. -/
def clearTileFlags (t : Tile) : Tile := { t with ovf := false, clamp := false, ovfN := 0, clampN := 0 }

def gatherTile (s : State) (j : Job) (t : Nat) : Job :=
  let x := tileOf s t
  { j with inexact := j.inexact || x.ovf || x.clamp, ovfN := satAdd max32 j.ovfN x.ovfN, clampN := satAdd max32 j.clampN x.clampN }

/-- Only tiles that have been used are listed. -/
def usedTiles (s : State) (p : Nat) : List Nat := (partTiles s p).filter (fun t => (tblGet? s.tiles t).isSome)

/-- An epoch's flags, counts and digests are committed (R58, R171). -/
def commitFlags (p : Nat) (s : State) : State :=
  match jobOf s p with
  | some j =>
    let ts := usedTiles s p
    let j1 := ts.foldl (gatherTile s) j
    let j2 := { j1 with inexact := j1.inexact || j.epOvf || j.epClamp || decide (0 < j.epOvfN) || decide (0 < j.epClampN)
                        trunc := j1.trunc || j.epTrunc
                        ovfN := satAdd max32 j1.ovfN j.epOvfN, clampN := satAdd max32 j1.clampN j.epClampN
                        digIn := j.digIn ++ j.epDigIn, digOut := j.digOut ++ j.epDigOut
                        epTrunc := false, epOvf := false, epClamp := false, epOvfN := 0, epClampN := 0, epDigIn := [], epDigOut := [] }
    setJob p j2 (ts.foldl (fun s t => setTile t (clearTileFlags (tileOf s t)) s) s)
  | none => s

/-- What an abandoned epoch raised is dropped (R58). -/
def dropFlags (p : Nat) (s : State) : State :=
  let s1 := (usedTiles s p).foldl (fun s t => setTile t (clearTileFlags (tileOf s t)) s) s
  modJob p (fun j => { j with epTrunc := false, epOvf := false, epClamp := false, epOvfN := 0, epClampN := 0, epDigIn := [], epDigOut := [] }) s1

/-! ### Stopping actions and ending jobs -/

/-- 64 accumulators of free values from a counter (R88). -/
def freeAcc (c : Nat) : Tbl (BitVec 128) :=
  (List.range 64).map (fun i => (i, Config.free64 (c + 2 * i) ++ Config.free64 (c + 2 * i + 1)))

/-- The cubes that the cube operations in progress of a stream name. -/
def stoppedCubes (s : State) (i : Image) (j : Job) (st : Nat) : List Nat :=
  ((seqOf s st).inflight.flatMap (fun f => match (epochEntries i st j.epoch)[f.idx]? with
    | some x => if actionType x = 0x21 then bitsOf 16 (wf (wd x.desc 0) 63 48) else []
    | none => [])).dedup

/-- The accumulators and the panel of a cube of a stopped operation are left unspecified: free values (R88). -/
def havocCube (t : Nat) (s : State) (k : Nat) : State :=
  let panel := memWrite [] 0 (bytesOf ((List.range 1024).map (fun i => Config.free64 (s.freeCtr + 128 + i))))
  { setCube t k { cubeOf s t k with acc := freeAcc s.freeCtr, panel := panel } s with freeCtr := s.freeCtr + 1152 }

/-- The tile's action of a stream that is in progress stops: cubes as R88 leaves them, no update goes on (R120). What it has
written to memory by then stays (log 53). -/
def stopTile (p st t : Nat) (s : State) : State :=
  let s1 := match (partOf s p).image, jobOf s p with
    | some i, some j => (stoppedCubes s i j st).foldl (havocCube t) s
    | _, _ => s
  if (tileOf s1 t).upd.isSome then setTile t { tileOf s1 t with upd := none } s1 else s1

/-- Sequencers of a partition's image. -/
def partSeqs (s : State) (p : Nat) : List Nat :=
  (s.seqs.filter (fun e => e.2.part == p && e.2.st ≠ .idle)).map (·.1)

/-- Actions in progress of a partition stop (R88, R120). Their outputs in memory, which R9 leaves unspecified, stay as they
stand then (log 53). -/
def stopActions (p : Nat) (s : State) : State :=
  (partSeqs s p).foldl
    (fun s st =>
      let s := if st < 544 then (match physOf s st with | some t => stopTile p st t s | none => s) else s
      let s := setSeq st { seqOf s st with inflight := [], done := [], vis := [], reported := [] } s
      if 584 ≤ st then { s with colls := tblDel (st - 584) s.colls } else s) s

/-- The sequencers of a partition enter a state. -/
def setSeqs (p : Nat) (f : Seq → Seq) (s : State) : State :=
  (partSeqs s p).foldl (fun s st => setSeq st (f (seqOf s st)) s) s

/-- Requests accepted and not bound complete with a status when a session ends (R366), or a reset (R372). -/
def flushAccepted (q status : Nat) (s : State) : State :=
  let x := queueOf s q
  let rs := x.accepted.map (fun d => descRec d.1 status)
  setQueue q { x with accepted := [], recs := x.recs ++ rs } s

/-- The job of `p` completes with its status: receipt, then its record unless none is written (R371, R372, R418). -/
def finishJob (p status : Nat) (record : Bool) (s : State) : State :=
  match jobOf s p with
  | some j =>
    let q := partOf s p
    let full := status * 256 + jobFlags j
    let idx := s.rcpt.next
    let rq := match j.bound with | some b => b.queue | none => j.recQueue
    let s1 := appendReceipt (receiptBytes s p q j full (now s)) s
    if record && (!j.service || j.bound.isSome) then pushRec rq (jobRec j full idx) s1 else s1
  | none => s

/-- The free spares of a die, lowest first (R90, R91). -/
def freeSpares (s : State) (die : Nat) : List Nat :=
  s.spares.filter (fun p => p / 144 == die && !retired s p && (logicalOf s p).isNone)

/-- Tile memory of a physical tile is zeroed (R136). -/
def zeroTile (t : Nat) (s : State) : State :=
  { s with tileMem := memClear (t * 0x200000) 0x200000 s.tileMem, tileErr := s.tileErr.filter (fun e => decide (e.1 / 0x20000 ≠ t)) }

/-- Free spares of a die that no move waiting for an epoch boundary is due to take (log 51). -/
def openSpares (s : State) (die : Nat) : List Nat :=
  let due := s.parts.flatMap (fun e => match e.2.job with | some j => j.remap.filterMap (·.2) | none => [])
  (freeSpares s die).filter (fun t => !due.elem t)

/-- A logical tile moves to a spare, zeroed, or is left unbacked (R91, R92, R136). -/
def moveTile (l : Nat) (to_ : Option Nat) (s : State) : State :=
  match to_ with
  | some sp => { zeroTile sp s with map := tblSet l (some sp) s.map }
  | none => { s with map := tblSet l none s.map }

/-- A logical tile whose physical tile is retired moves at once to the lowest free spare of its die (R91). -/
def remapTile (l : Nat) (s : State) : State := moveTile l (openSpares s (l / 136)).head? s

/-- A move that waited takes effect: to the spare it was due, or where that has been retired meanwhile to the lowest that is
free (log 51). -/
def moveDue (m : Nat × Option Nat) (s : State) : State :=
  match m.2 with
  | some sp => if retired s sp then remapTile m.1 s else moveTile m.1 (some sp) s
  | none => moveTile m.1 none s

/-- The job or session of `p` is over. A JOB_CLOSE that waited for it is answered with `st` (R383, R388). -/
def closeJob (p st : Nat) (s : State) : State :=
  let j := jobOf s p
  let s0 := setPart p { partOf s p with lastJob := j, job := none } s
  -- The moves that waited for an epoch boundary take effect (R91).
  let s1 := ((j.map (fun j => j.remap)).getD []).foldl (fun s m => moveDue m s) s0
  let s2 := setSeqs p (fun q => { q with st := .installed, epoch := 0, entry := 0, inflight := [], done := [], vis := [], reported := [] }) s1
  match j.bind (fun j => j.closing) with
  | some (ch, seq) => finishDeferred ch 0x0022 seq { status := st } s2
  | none => s2

/-- The service queue of an open session (R185). -/
def sessionQueue (s : State) (p : Nat) : Option Nat :=
  match (partOf s p).image, jobOf s p with
  | some i, some j => if j.service then some i.svcQueue else none
  | _, _ => none

/-- A request bound to a slot that will not open completes with those that are not bound (R366; log 19). -/
def flushSession (p q status : Nat) (s : State) : State :=
  let s1 := match (jobOf s p).bind (fun j => j.nextBound) with
    | some b => pushRec q (descRec b.desc status) s
    | none => s
  flushAccepted q status s1

/-- The open job of `p`, if it has begun or is bound, ends aborted with a status (R9); the session ends with it (R186). -/
def abortJob (p status : Nat) (record : Bool) (s : State) : State :=
  match jobOf s p with
  | some j =>
    let st := causeStatus (status :: j.causes)
    let s1 := stopActions p (dropFlags p s)
    let s2 := if !j.service || j.bound.isSome then finishJob p st record s1 else s1
    let s3 := match sessionQueue s2 p with
      | some q => if record then flushSession p q (if status == stReset then stReset else stState) s2 else s2
      | none => s2
    closeJob p (if status == stRetire then stDone else status) s3
  | none => s

/-- A record that has not been performed counts a later abort cause, and so does the receipt of a job record (R9): reset
before power-down before retirement. -/
def abortRec (status : Nat) (r : Rec) : Rec :=
  let b := r.status / 256
  if (b == stDone || b == stRetire || b == stPower) && (b == stDone || status == stReset || (status == stPower && b == stRetire))
  then { r with status := status * 256 + r.status % 256 } else r

def patchReceipts (rs : List Rec) (s : State) : State :=
  rs.foldl (fun s r => match r.logIdx with
    | some i => match tblGet? s.rcpt.log i with
      | some bs => { s with rcpt := { s.rcpt with log := tblSet i (bs.take 4 ++ leBytes 2 r.status ++ bs.drop 6) s.rcpt.log } }
      | none => s
    | none => s) s

/-- Queues of a partition that have been used. -/
def partQueues (s : State) (p : Nat) : List Nat :=
  (s.queues.filter (fun e => queuePart s e.1 == some p)).map (·.1)

/-- The records that an abort leaves on a queue: those not yet performed count its cause, and a command in progress that has none
yet, since it waits for lines of another package, receives one (R9, R372). -/
def abortedRecs (status : Nat) (x : QCtx) : List Rec :=
  match x.recs, x.cur with
  | [], some w => [descRec w status]
  | rs, _ => rs.map (abortRec status)

/-- The queue work of a partition reset (R372): ABORTED_RESET records for the command in progress and for what was
accepted; then the queue, if it is enabled, is parked. -/
def resetQueue (q : Nat) (s : State) : State :=
  let x := queueOf s q
  if x.enable || x.disabling then
    let recs := abortedRecs stReset x
    let acc := x.accepted.map (fun d => descRec d.1 stReset)
    let y := { x with cur := none, accepted := [], recs := recs ++ acc }
    patchReceipts recs (setQueue q (if x.enable then parkQueue y else y) { s with drayWait := s.drayWait.filter (fun e => decide (e.2.queue ≠ q)) })
  else s

/-! ### Commit (R171, R172, R186) -/

/-- Whether every entry of the job's epoch has completed in every stream of the image. -/
def epochFinished (s : State) (i : Image) (j : Job) : Bool :=
  (usedStreams i).all (fun st => (seqOf s st).inflight.isEmpty &&
    (seqOf s st).done.length == (epochEntries i st j.epoch).length)

/-- DEGRADED is set by every epoch that runs in degraded mode (R182). -/
def noteDegraded (p : Nat) (s : State) : State :=
  modJob p (fun j => if degradedAt j j.epoch then { j with degraded := true } else j) s

/-- What a reset does to a tile: memories zero, no bank owner, cubes and vector engine cleared
(R71, R73, R88, R126, R136, Table 04-1). -/
def resetTile (t : Nat) (s : State) : State :=
  let x := tileOf s t
  let idle := x.tests.map (fun e => (e.1, { e.2 with startAt := none, save := [] }))
  let y := { x with owner := [], vec := {}, upd := none, ovf := false, clamp := false, ovfN := 0, clampN := 0, tests := idle }
  zeroTile t { s with tiles := tblSet t y s.tiles, cubes := s.cubes.filter (fun e => decide (e.1 / 16 ≠ t)) }

/-- The commands in progress that name a partition end when a reset reaches it, those that have not begun among them (R383). -/
def endCommands (p : Nat) (s : State) : State :=
  let q := partOf s p
  let s1 := match q.creating with
    | some (ch, seq, n) => finishDeferred ch 0x0010 seq { status := stReset, flags := if n = 0 then 0 else 2, clamps := n } s
    | none => s
  let s2 := match q.dissolving with
    | some (ch, seq) => finishDeferred ch 0x0011 seq { status := stReset } s1
    | none => s1
  let s3 := (s2.chans.filter (fun e => e.2.turn.isSome && chanNames e.2 == some p)).foldl (fun s e =>
    finishDeferred e.1 (fld (memLe e.2.req 0 8) 47 32) (fld (memLe e.2.req 0 8) 31 16) { status := stReset } s) s2
  if partExists s p then setPart p { partOf s3 p with creating := none, dissolving := none } s3 else s3

/-- A partition reset (R181, R187, R372, R383, R390), which leaves its tiles as any reset does (R126, R136). -/
def partReset (p : Nat) (s : State) : State :=
  let s1 := tierPartReset p (abortJob p stReset true (endCommands p s))
  let s2 := (partQueues s1 p).foldl (fun s q => resetQueue q s) s1
  (partTiles s2 p).foldl (fun s t => if (tblGet? s.tiles t).isSome || !s.tileMem.isEmpty then resetTile t s else s) s2

/-- The moves that wait for an epoch boundary take effect (R91). -/
def remapPending (p : Nat) (s : State) : State :=
  match jobOf s p with
  | some j =>
    let s1 := modJob p (fun j => { j with remap := [] }) (j.remap.foldl (fun s m => moveDue m s) s)
    if j.remap.any (fun m => m.2.isSome && (physOf s1 m.1).isNone) then issueAbort p 3 s1 else s1
  | none => s

/-- A slot's job or the one-shot job is over after its last epoch: the sequencers are DONE, of a session until the slot ends
(R169, R186). -/
def jobDone (p : Nat) (s : State) : State :=
  match jobOf s p with
  | some j =>
    let s1 := finishJob p (causeStatus j.causes) true s
    if j.service then
      let s2 := setPart p { partOf s1 p with lastJob := some j } s1
      setSeqs p (fun q => { q with st := .done, epoch := 0, entry := 0, inflight := [], done := [], vis := [], reported := [] })
        (setJob p { j with running := false, bound := none, slot := j.slot + 1, epoch := 0, localDone := false,
                           epochBase := match (partOf s1 p).image with | some i => (j.slot + 1) * i.nEpochs | none => 0 } s2)
    else closeJob p stDone s1
  | none => s

/-- An epoch commits on this member (R58, R171, R172). -/
def commitEpoch (p : Nat) (s : State) : State :=
  match (partOf s p).image, jobOf s p with
  | some i, some j =>
    let s1 := remapPending p (commitFlags p s)
    let e := j.epoch + 1
    let s2 := modJob p (fun j => { j with epoch := e, localDone := false, upds := [], attempt := 0 }) s1
    if i.nEpochs ≤ e then jobDone p s2
    else
      noteDegraded p (setSeqs p (fun q => { q with
          inflight := [], done := [], vis := [], reported := []
          st := if q.epoch == e then .wait else .epoch })
        s2)
  | _, _ => s

/-- A replay notice for the job's epoch, or the abort of a retirement, has been sent or received and not applied: the epoch is
abandoned from the detection on (R174, R175). -/
def abandonsEpoch (j : Job) (h : HeldNotice) : Bool :=
  !h.applied && (h.n.kind == 1 || (h.n.kind == 2 && h.n.cause == 3)) && h.n.epoch == j.epochBase + j.epoch

/-- The epoch commits once commit notices of every member are held, or at once on a consist of one (R171). -/
def tryCommit (p : Nat) (s : State) : State :=
  match jobOf s p with
  | some j =>
    let key := (j.epochBase + j.epoch) * 1024
    if j.localDone && !j.notices.any (abandonsEpoch j) && (j.members ≤ 1 || (List.range j.members).all (fun m => setHas j.commits (key + m))) then commitEpoch p s else s
  | none => s

/-- A slot ends at the next opening: a session that is to close ends then (R388), else its sequencers are ARMED (R169). -/
def endSlot (p : Nat) (s : State) : State :=
  if (jobOf s p).any (fun j => j.closing.isSome) then
    closeJob p stDone (match sessionQueue s p with | some q => flushSession p q stState s | none => s)
  else setSeqs p (fun q => if q.st == .done then { q with st := .armed } else q) s

/-- A slot is in progress: its job runs, or has ended before the slot (R169, R388). -/
def inSlot (s : State) (p : Nat) (j : Job) : Bool := j.running || (partSeqs s p).any (fun st => (seqOf s st).st == .done)

/-- The job begins: T0 is reached, or a bound slot opens (R169), which is the epoch boundary for a move that waits (R91). -/
def beginJob (p t : Nat) (s : State) : State :=
  match (partOf s p).image with
  | some i =>
    let s := remapPending p s
    let s1 := modJob p (fun j => { j with running := true, openedAt := t, epoch := 0, localDone := false, upds := [], attempt := 0 }) s
    noteDegraded p (setSeqs p (fun q => { q with
      epoch := 0, entry := 0, inflight := [], done := [], vis := [], reported := [], st := .wait })
      s1) |> fun s => (usedStreams i).foldl (fun s st =>
        if (epochEntries i st 0).isEmpty then
          let e := match (tblGet [] i.streams st).head? with | some y => y.epoch | none => 0
          setSeq st { seqOf s st with epoch := e, st := .epoch } s
        else s) s
      |> fun s => if (usedStreams i).any (fun st => decide (st < 544) && (physOf s st).isNone) then issueAbort p 3 s else s
  | none => s

/-! ### Retirement (R91, R92, R174, R175, R452) -/

/-- A physical tile is retired for a cause of Table 17-5. -/
def retireTile (t cause : Nat) (s : State) : State :=
  if retired s t then s
  else
    let l := logicalOf s t
    let s1 := raiseEvent evRetire t cause (recordEntry { kind := 0, a := t, b := cause } s)
    let s2 := s1
    match l with
    | none => s2
    | some l =>
      let spare := (openSpares s2 (l / 136)).head?
      match tilePart s2 l with
      | some p =>
        match jobOf s2 p with
        | some j =>
          let s3 := setJob p { j with
            remap := tblSet l spare j.remap
            retires := if j.running then j.retires + 1 else j.retires
            firstRetired := if j.running then some (j.firstRetired.getD t) else j.firstRetired } s2
          -- From the instant of detection the tile launches nothing; its action stops (R452).
          let s4 := setSeq l { seqOf s3 l with inflight := [] } (stopTile p l t s3)
          if !j.running then s4 else if spare.isSome then issueReplay p s4 else issueAbort p 3 s4
        | none => remapTile l s2
      | none => remapTile l s2

end Sys2Proof.Machine
end

