-- ==== Sys2Proof/Machine/Coherence.lean ====
section
/-! DEFINITION. The coherent and the direct path, release and acquire, sync units, direct buffers
(R245 to R274). -/

namespace Sys2Proof.Machine

/-! ### The direct buffer (R247, R254) -/

/-- Bytes of one direct write laid over a line. -/
def overlayWrite (l : Nat) (line : List Byte) (w : DWrite) : List Byte :=
  line.mapIdx (fun i b => if decide (w.addr ≤ l * 64 + i) && decide (l * 64 + i < w.addr + w.data.length)
    then w.data.getD (l * 64 + i - w.addr) b else b)

/-- A line as a read finds it at its home: memory under the direct writes that are pending there (R247). -/
def homeLine (s : State) (l : Nat) : List Byte :=
  ((homeOf s (homeNum s (l * 64))).dbuf.filter (fun w => decide (w.addr / 64 = l))).foldl (overlayWrite l) (peek s (l * 64) 64)

/-- Pending direct writes of a line reach memory before another write of the line is performed there. -/
def drainLine (l : Nat) (s : State) : State :=
  let u := homeNum s (l * 64)
  if (homeOf s u).dbuf.any (fun w => decide (w.addr / 64 = l)) then drainHome u (fun w => decide (w.addr / 64 = l)) s else s

/-- Every home discards its read-ahead lines and writes its accepted direct writes to memory (R254). -/
def drainAll (s : State) : State :=
  (s.homes.map (·.1)).foldl (fun s u =>
    let s := drainHome u (fun _ => true) s
    setHome u { homeOf s u with readAhead := [] } s) s

/-- The read-ahead copy of a line is discarded. -/
def dropAhead (l : Nat) (s : State) : State :=
  let u := homeNum s (l * 64)
  let h := homeOf s u
  if (tblGet? h.readAhead l).isSome then setHome u { h with readAhead := tblDel l h.readAhead } s else s

/-! ### Sync units (R250, R255) -/

def scopeCode : Scope → Nat
  | .tile => 0
  | .package => 1
  | .consist => 2

def narrower (a b : Scope) : Scope := if scopeCode a ≤ scopeCode b then a else b

/-- A party of this package on the coherent path (R248). -/
def localParty (r : Requester) (direct : Bool) : Bool :=
  !direct && (match r with
    | .remote _ => false
    | .hart _ => true
    | .dray _ => true
    | .updatePort _ => true
    | .queueEngine _ => true
    | .collective _ => true
    | .caboose _ => true
    | .pcie _ _ => true)

/-- Whether a scope contains both parties (Table 09-2). -/
def containsBoth (sc : Scope) (x : Requester) (xd : Bool) (y : Requester) (yd : Bool) : Bool :=
  match sc with
  | .consist => true
  | .package => localParty x xd && localParty y yd
  | .tile => x == y && !xd && !yd

/-- An acquire read that returns a recorded release whose narrower scope does not contain both parties is counted;
the event is raised unless the count was already non-zero (R255, R484). -/
def checkAcquire (l : Nat) (sc : Scope) (r : Requester) (direct : Bool) (s : State) : State :=
  let u := homeNum s (l * 64)
  let h := homeOf s u
  match h.rels.find? (fun x => decide (x.line = l)) with
  | none => s
  | some x =>
    if containsBoth (narrower x.scope sc) x.origin x.direct r direct then s
    else
      let s1 := setHome u { h with mismatch := satAdd max32 h.mismatch 1, lastRel := scopeCode x.scope, lastAcq := scopeCode sc, lastLine := l } s
      if h.mismatch = 0 then raiseEvent evScopeMismatch u (causeOf evScopeMismatch 0) s1 else s1

/-! ### Lines in hart caches (R246, R252, R259, R262, R265) -/

/-- Reservations of harts other than `keep` on a line are lost. -/
def loseReservations (l : Nat) (keep : Option Nat) (s : State) : State :=
  if s.harts.any (fun e => e.2.resv == some l && some e.1 ≠ keep) then
    { s with harts := s.harts.map (fun e => if e.2.resv == some l && some e.1 ≠ keep then (e.1, { e.2 with resv := none }) else e) }
  else s

/-- Every cached copy of a line is invalidated after its hold, a dirty one written back first (R265). -/
def invalidateLine (l : Nat) (s : State) : State :=
  if (tblGet? s.dir l).isSome then
    let s1 := writeBackLine l (waitHold l s)
    let x := lineOf s1 l
    loseReservations l none (if x.waiting.isEmpty then { s1 with dir := tblDel l s1.dir }
      else setLine l { x with copies := [], owner := none, overflow := false, stale := [] } s1)
  else s

/-! ### The directory's entries (R262, R263, R268) -/

/-- A line of a partition in broadcast ring mode, for which its home keeps no entry (R268). -/
def ringLine (s : State) (l : Nat) : Bool := s.parts.any (fun e => e.2.ring && e.2.ranges.any (fun r => inRange r (l / 32768)))

/-- The lines of which a home keeps an entry. -/
def dirLines (s : State) (u : Nat) : List Nat :=
  (s.dir.filter (fun e => !e.2.copies.isEmpty && homeNum s (e.1 * 64) == u && !ringLine s e.1)).map (·.1)

/-- The entries of an HBM home slice, and of a Tender. -/
def dirEntries (u : Nat) : Nat := if u < 16 then 393216 else 65536

/-- Before a home allocates an entry in a full set, a victim's copies are invalidated, a dirty one written back first (R263). Which
set is full before all entries are used, and the victim, are open (log 61). -/
def makeRoom (l : Nat) (s : State) : State :=
  if ringLine s l || !(lineOf s l).copies.isEmpty then s
  else
    let u := homeNum s (l * 64)
    let ls := (dirLines s u).filter (fun k => decide (k ≠ l))
    if ls.isEmpty || (decide (ls.length < dirEntries u) && !Config.dirFull u ls l) then s
    else let (v, s1) := draw s; invalidateLine (ls.getD (v.toNat % ls.length) 0) s1

/-- The L3 of a hart's processor die among the caches. -/
def l3Of (h : Nat) : Nat := 96 + h / 48

/-- What a hart's miss finds nearer than the home: the copy of its die's L3. -/
def nearCopy (x : Line) (h : Nat) : Option (List Byte) := tblGet? x.copies (l3Of h)

/-- The line is granted to a hart's cache for reading (R246, R262, R265). -/
def grantRead (h l : Nat) (s : State) : State :=
  let x := lineOf s l
  if (tblGet? x.copies h).isSome then s
  else
    let s1 := recallLine l (makeRoom l s)
    let near := nearCopy (lineOf s1 l) h
    let s2 := if near.isSome then s1 else lineFetch l s1
    let x1 := lineOf s2 l
    setLine l { x1 with copies := tblSet h (near.getD (homeLine s2 l)) x1.copies, owner := none, hold := now s2 + 40,
                        overflow := x1.overflow || decide (4 ≤ x1.copies.length),
                        stale := if near.isSome && setHas x1.stale (l3Of h) then setIns h x1.stale else x1.stale } s2

/-- The line is granted to a hart's cache for writing: every other copy is invalidated, and the sector becomes dirty
(R246, R267). -/
def grantWrite (h l : Nat) (s : State) : State :=
  let x := lineOf s l
  if x.owner == some h then s
  else
    let s0 := makeRoom l s
    let s1 := if x.copies.any (fun e => decide (e.1 ≠ h)) then waitHold l s0 else s0
    let s2 := writeBackLine l s1
    let x1 := lineOf s2 l
    let own := (tblGet? x1.copies h).orElse (fun _ => nearCopy x1 h)
    let s3 := if own.isSome then s2 else lineFetch l s2
    let old := own.isSome && setHas x1.stale (if (tblGet? x1.copies h).isSome then h else l3Of h)
    clearPoison (l * 64) 64 (markDirty (l * 64) 64 (loseReservations l (some h)
      (setLine l { x1 with copies := [(h, own.getD (homeLine s3 l))], owner := some h, overflow := false, hold := now s3 + 40, tag := none,
                           stale := if old then [h] else [] } s3)))

/-- Bytes of a line replaced. -/
def patch (line : List Byte) (off : Nat) (d : List Byte) : List Byte := line.take off ++ d ++ line.drop (off + d.length)

/-- The part of a byte string, at address `a`, that falls in line `l`: its offset in the line and its bytes. -/
def linePart (a : Nat) (d : List Byte) (l : Nat) : Nat × List Byte :=
  let lo := max a (l * 64)
  let hi := min (a + d.length) (l * 64 + 64)
  (lo - l * 64, (d.drop (lo - a)).take (hi - lo))

/-- A hart writes bytes of a line in its cache; a release of tile or package scope leaves its tag with the line (R252, R255). -/
def writeOwned (h l off : Nat) (d : List Byte) (rel : Option Scope) (s : State) : State :=
  let s1 := grantWrite h l s
  let x := lineOf s1 l
  setLine l { x with copies := [(h, patch (tblGet [] x.copies h) off d)], dirty := true, tag := rel.map (fun sc => (sc, h)) } s1

/-- A write by a requester that does not cache, or a consist-scope release: it merges with a dirty owner's data and
invalidates every cached copy. A hart's release of consist scope alone discards the read-ahead copy (R246, R247, R252). -/
def homeWrite (r : Requester) (l off : Nat) (d : List Byte) (rel : Option Scope) (s : State) : State :=
  let s1 := drainLine l (invalidateLine l s)
  let s2 := poke (l * 64 + off) d s1
  match rel with
  | some sc => recordRelease l sc r false (if sc == .consist && (match r with | .hart _ => true | _ => false) then dropAhead l s2 else s2)
  | none => forgetRelease l s2

/-- A coherent-path write of bytes of one line as its home performs it (R221, R246, R252). A write to an extent that is not in HBM
is held. -/
def performWriteLine (r : Requester) (a : Nat) (d : List Byte) (rel : Option Scope) (l : Nat) (s : State) : State :=
  let (off, part) := linePart a d l
  if writeHeld s (l / 32768) then holdWrite (l / 32768) (.write r (l * 64 + off) part rel) s
  else match r with
    | .hart h => if rel == some .consist then homeWrite r l off part rel s else writeOwned h l off part rel s
    | _ => homeWrite r l off part rel s

/-- Requesters that read flash by the sector path: one array read for each sector (Table 08-2). -/
def sectorPath (r : Requester) : Bool :=
  match r with
  | .dray _ => true
  | .updatePort _ => true
  | _ => false

/-- The sector-path reads of a byte range (R218, R224): requests for one sector at one instant share its array read (log 60). -/
def fetchSectors (a n : Nat) (s : State) : State :=
  if n = 0 then s
  else ((List.range ((a + n - 1) / 4096 + 1 - a / 4096)).map (· + a / 4096)).foldl
    (fun s k => if inHbm s (k / 512) then s else sectorArray k s) s

/-- A line is read by the path of its requester. -/
def fetchFor (r : Requester) (l : Nat) (s : State) : State :=
  if sectorPath r then meetError l (touchExt (l / 32768) s) else lineFetch l s

/-- A coherent-path read of one line as its home performs it: the value, and the state after it (R246, R255). What a hart's own cache
serves is no recorded release where it is older or newer than what the home holds. -/
def performReadLine (r : Requester) (acq : Option Scope) (l : Nat) (s : State) : List Byte × State :=
  match r with
  | .hart h =>
    let x := lineOf s l
    let own := (tblGet? x.copies h).isSome && (setHas x.stale h || (x.dirty && x.owner == some h))
    let s1 := grantRead h l s
    let v := tblGet [] (lineOf s1 l).copies h
    (v, match acq with | some sc => if own then s1 else checkAcquire l sc r false s1 | none => s1)
  | _ =>
    let s2 := fetchFor r l (recallLine l s)
    let s3 := if linePoisoned s2 l then countPoison l s2 else s2
    (homeLine s3 l, match acq with | some sc => checkAcquire l sc r false s3 | none => s3)

/-- Reads of the lines of a byte range, one after the other. -/
def readLines (one : Nat → State → List Byte × State) (a n : Nat) (s : State) : List Byte × State :=
  let (bs, s1) := (linesOf a n).foldl (fun (acc : List Byte × State) l =>
    let (v, s1) := one l acc.2
    (acc.1 ++ v, s1)) ([], s)
  ((bs.drop (a % 64)).take n, s1)

/-- Data return to a requester: a poisoned line is a hart's load fault, and a PCIe requester gets its completion (Table 07-3). -/
def returnData (r : Requester) (a : Nat) (v : List Byte) (p : Bool) (s : State) : State :=
  let s1 := { s with ret := some { req := r, addr := a, data := v, poison := p } }
  match r with
  | .hart h => if p then raiseTrap h .loadFault a s1 else s1
  | .pcie sub rid => send (.pcieDone sub rid true p v) s1
  | .dray _ => s1
  | .updatePort _ => s1
  | .queueEngine _ => s1
  | .collective _ => s1
  | .caboose _ => s1
  | .remote _ => s1

/-- A poisoned line of a range that the hart does not hold in its cache. -/
def hartPoison (s : State) (h a n : Nat) : Option Nat :=
  (linesOf a n).find? (fun l => linePoisoned s l && (tblGet? (lineOf s l).copies h).isNone)

/-- A coherent read is served by `one` line by line: its data return, and a poisoned line enters no cache (R196, R246, R250). -/
def serveWith (one : Requester → Option Scope → Nat → State → List Byte × State) (r : Requester) (a n : Nat) (acq : Option Scope) (s : State) : State :=
  match r with
  | .hart h =>
    (match hartPoison s h a n with
     | some l => returnData r a (peek s a n) true (countPoison l s)
     | none => let (v, s1) := readLines (one r acq) a n s; returnData r a v false s1)
  | _ =>
    let p := rangePoisoned s a n
    let (v, s1) := readLines (one r acq) a n (if sectorPath r then fetchSectors a n s else s)
    returnData r a v p s1

/-! ### The order of requests for a line (R264, R265) -/

/-- A hart's access that its own cache serves: a read of a line that it holds, a write of one that it owns. -/
def cacheHit (x : Line) (r : Requester) (write : Bool) : Bool :=
  match r with
  | .hart h => if write then x.owner == some h else (tblGet? x.copies h).isSome
  | _ => false

/-- What a requester's own cache serves does not reach the home, unless it is a consist-scope release (`atHome`, R252) or a write of
its own waits there (R256). -/
def servedNear (x : Line) (r : Requester) (write atHome : Bool) : Bool := cacheHit x r write && !atHome && !x.waiting.any (isWriteOf r)

/-- A read that reaches a Tender which restarts is held (R458). -/
def tenderHolds (s : State) (x : Nat) : Bool := !inHbm s x && (tblGet {} s.tenders (x % 2)).restarting

def holdRead (x : Nat) (w : WaitReq) (s : State) : State := setExt x { extOf s x with held := (extOf s x).held ++ [w] } s

/-- A write of a requester, on one path, that is held at an extent and meets a range (R256). -/
def ownHeldAt (s : State) (r : Requester) (direct : Bool) (a n x : Nat) : Bool := (extOf s x).held.any (writeMeets r direct a n)

/-- The extent at which a read of a range waits: behind the requester's own held write (R256), or for a Tender's restart
(R458). -/
def readWaits (s : State) (r : Requester) (direct : Bool) (a n : Nat) : Option Nat :=
  (extsOf a n).find? (fun x => ownHeldAt s r direct a n x || tenderHolds s x)

/-- A request that waited at a line is performed; a read may still be held at its extent. -/
def performWaiting (s : State) (w : WaitReq) : State :=
  match w with
  | .read r a n acq =>
    (match readWaits s r false a n with
     | some x => holdRead x w s
     | none => serveWith performReadLine r a n acq s)
  | .write r a d rel => (linesOf a d.length).foldl (fun s l => performWriteLine r a d rel l s) s
  | _ => s

/-- The requests that wait for a line are performed in their order of arrival, after the hold. -/
def settleLine (l : Nat) (s : State) : State :=
  let x := lineOf s l
  if x.waiting.isEmpty then s
  else x.waiting.foldl performWaiting (setLine l { lineOf s l with waiting := [], snooped := false } (waitHold l s))

/-- A request reaches the home of a line behind those that came before it (R264). -/
def arrive (r : Requester) (write atHome : Bool) (l : Nat) (s : State) : State :=
  if servedNear (lineOf s l) r write atHome then s else settleLine l s

/-- A coherent-path write of bytes in the line's order (R264). -/
def cohWriteLine (r : Requester) (a : Nat) (d : List Byte) (rel : Option Scope) (l : Nat) (s : State) : State :=
  performWriteLine r a d rel l (arrive r true (rel == some .consist) l s)

def cohWrite (r : Requester) (a : Nat) (d : List Byte) (rel : Option Scope) (s : State) : State :=
  (linesOf a d.length).foldl (fun s l => cohWriteLine r a d rel l s) s

/-- A coherent-path read of one line in the line's order (R264). -/
def cohReadLine (r : Requester) (acq : Option Scope) (l : Nat) (s : State) : List Byte × State :=
  performReadLine r acq l (arrive r false false l s)

/-- A coherent-path read of bytes. -/
def cohRead (r : Requester) (a n : Nat) (acq : Option Scope) (s : State) : List Byte × State :=
  readLines (cohReadLine r acq) a n (if sectorPath r then fetchSectors a n s else s)

/-- What a coherent read of the Caboose returns (Table 09-1). -/
def cohPeek (s : State) (a n : Nat) : List Byte := (cohRead (.caboose 0) a n none s).1

/-! ### The direct path (R247, R252 to R254, R259) -/

/-- A direct write is accepted by its home's buffer; where the buffer is full its oldest write reaches memory first. -/
def acceptDirect (r : Requester) (l off : Nat) (d : List Byte) (rel : Option Scope) (s : State) : State :=
  let u := homeNum s (l * 64)
  let s0 := dropAhead l s
  let h := homeOf s0 u
  let s1 := match h.dbuf with
    | w :: rest => if 64 ≤ h.dbuf.length then poke w.addr w.data (setHome u { h with dbuf := rest } s0) else s0
    | [] => s0
  let h1 := homeOf s1 u
  let s2 := setHome u { h1 with dbuf := h1.dbuf ++ [{ addr := l * 64 + off, data := d, at_ := now s1 }] } s1
  let x := lineOf s2 l
  let s3 := if x.copies.isEmpty then s2
    else setLine l { x with clash := x.clash || x.dirty, stale := x.copies.map (·.1) } s2
  match rel with
  | some sc => recordRelease l sc r true s3
  | none => forgetRelease l s3

def directWriteLine (r : Requester) (a : Nat) (d : List Byte) (rel : Option Scope) (l : Nat) (s : State) : State :=
  let (off, part) := linePart a d l
  if writeHeld s (l / 32768) then holdWrite (l / 32768) (.directWrite r (l * 64 + off) part rel) s
  else acceptDirect r l off part rel s

/-- A direct-path write of bytes; `a` is the UMR address. -/
def dirWrite (r : Requester) (a : Nat) (d : List Byte) (rel : Option Scope) (s : State) : State :=
  (linesOf a d.length).foldl (fun s l => directWriteLine r a d rel l s) s

/-- Runs of enabled bytes of a line: offset and bytes. -/
def maskRuns (mask : Nat) (data : List Byte) : List (Nat × List Byte) :=
  (List.range 64).foldl (fun rs i =>
    if bit mask i then
      match rs.getLast? with
      | some (o, b) => if o + b.length = i then rs.dropLast ++ [(o, b ++ [data.getD i 0])] else rs ++ [(i, [data.getD i 0])]
      | none => [(i, [data.getD i 0])]
    else rs) []

/-- A write of another package is performed on the direct path and answered if it asks for it; one to an extent that is not in
HBM is held (R221, R334, R335). -/
def remotePerformWrite (m : RemoteMsg) (s : State) : State :=
  if writeHeld s (m.addr / extSize) then holdWrite (m.addr / extSize) (.remoteWrite m) s
  else
    let rel := if m.op = 3 || m.op = 5 then some Scope.consist else none
    let s1 := (maskRuns m.mask.toNat m.data).foldl (fun s r => directWriteLine (.remote m.src) (m.addr + r.1) r.2 rel (m.addr / 64) s) s
    if wantsReply m.op then sendReply m 9 [] s1 else s1

/-- The last direct line of a requester at a home. -/
def lastDirectOf (h : Home) (r : Requester) : Option Nat := (h.lastDirect.find? (fun e => e.1 == r)).map (·.2)

/-- Read-ahead for a sequential direct stream: whether the next line is fetched is open, a free value (log 23). -/
def readAhead (r : Requester) (l : Nat) (s : State) : State :=
  let u := homeNum s (l * 64)
  let h := homeOf s u
  let s1 := setHome u { h with lastDirect := (r, l) :: (h.lastDirect.filter (fun e => !(e.1 == r))) } s
  if lastDirectOf h r == some (l - 1) && decide (0 < l) then
    let s2 := (draw s1).2
    if ((draw s1).1).toNat % 2 == 1 then
      let n := l + 1
      let un := homeNum s2 (n * 64)
      let hn := homeOf s2 un
      setHome un { hn with readAhead := (tblSet n (homeLine s2 n) hn.readAhead).take 128 } s2
    else s2
  else s1

/-- The drain of an acquire read on the direct path (R253, R254), before anything of the read is served. -/
def drainFor (acq : Option Scope) (s : State) : State :=
  match acq with
  | some _ => drainAll s
  | none => s

/-- A direct read of one line: pending direct write, else a read-ahead copy, else memory; an acquire drains first
(R247, R253, R254). -/
def dirReadLine (r : Requester) (acq : Option Scope) (l : Nat) (s : State) : List Byte × State :=
  let s0 := drainFor acq s
  let u := homeNum s0 (l * 64)
  let h := homeOf s0 u
  let v := if h.dbuf.any (fun w => decide (w.addr / 64 = l)) then homeLine s0 l
    else (tblGet? h.readAhead l).getD (peek s0 (l * 64) 64)
  let s1 := lineFetch l s0
  let s2 := readAhead r l (if linePoisoned s1 l then countPoison l s1 else s1)
  (v, match acq with | some sc => checkAcquire l sc r true s2 | none => s2)

/-- A direct-path read of bytes; `a` is the UMR address. -/
def dirRead (r : Requester) (a n : Nat) (acq : Option Scope) (s : State) : List Byte × State :=
  readLines (dirReadLine r acq) a n s

/-- Copies of the lines of a byte range are recalled and dropped (R268). -/
def dropRange (a n : Nat) (s : State) : State :=
  ((s.dir.filter (fun e => overlap (e.1 * 64) 64 a n)).map (·.1)).foldl (fun s l => invalidateLine l s) s

/-- What a package reset does to caches and homes (R274): accepted direct writes reach memory; the rest is lost. -/
def coherenceReset (s : State) : State :=
  let s1 := drainAll s
  { s1 with dir := [], homes := [] }

/-! ### Commands -/

/-- A request waits behind those that wait already and behind a copy of another cache that is still held under R265. -/
def mustWait (s : State) (l : Nat) (r : Requester) (write atHome : Bool) : Bool :=
  let x := lineOf s l
  !servedNear x r write atHome && (!x.waiting.isEmpty ||
    (decide (now s < x.hold) && (if write then x.copies.any (fun e => !(r == .hart e.1)) else x.dirty)))

/-- A coherent read is served: its data return (R246, R250). -/
def serveRead (r : Requester) (a n : Nat) (acq : Option Scope) (s : State) : State := serveWith cohReadLine r a n acq s

/-- The scope of a direct acquire read. -/
def consistIf (acq : Bool) : Option Scope := if acq then some .consist else none

/-- A direct read is served, an acquire after its drain (R254); `u` is the UMR address. -/
def serveDirect (r : Requester) (u n : Nat) (acq : Bool) (s : State) : State :=
  let s0 := drainFor (consistIf acq) s
  let p := rangePoisoned s0 u n
  let (v, s1) := dirRead r u n (consistIf acq) s0
  returnData r (directBase + u) v p s1

/-- A read of another package on the direct path, its acquire after the drain; none where a line is poisoned (R196, R254, R334). -/
def remoteData (src a : Nat) (acq : Bool) (s : State) : Option (List Byte) × State :=
  let s0 := drainFor (consistIf acq) s
  if rangePoisoned s0 a 64 then (none, countPoison (a / 64) s0)
  else let (v, s1) := dirRead (.remote src) a 64 (consistIf acq) s0; (some v, s1)

/-! ### Accesses of harts (R196, R275, R278, R285) -/

/-- The value that a load of `n` bytes writes to its register. -/
def loadValue (bs : List Byte) (n : Nat) (signed : Bool) : Word :=
  if signed then word (toCode 64 (sext (8 * n) (leNat bs))) else word (leNat bs)

/-- A hart reads bytes of the UMR by one of its two paths; none where a line is poisoned. -/
def hartRead (h a n : Nat) (direct : Bool) (acq : Option Scope) (s : State) : Option (List Byte) × State :=
  if direct then
    let s0 := drainFor acq s
    let p := (linesOf a n).any (linePoisoned s0)
    let (v, s1) := dirRead (.hart h) a n acq s0
    (if p then none else some v, s1)
  else
    match hartPoison s h a n with
    | some l => (none, countPoison l s)
    | none => let (v, s1) := cohRead (.hart h) a n acq s; (some v, s1)

/-- What an atomic operation of `n` bytes leaves in memory (R275). -/
def amoResult (op : AmoOp) (n old src cmp : Nat) : Nat :=
  let m := 2 ^ (8 * n)
  let lt := fun (a b : Nat) => decide (sext (8 * n) a < sext (8 * n) b)
  match op with
  | .swap => src % m
  | .add => (old + src) % m
  | .xor => (old ^^^ src) % m
  | .and => (old &&& src) % m
  | .or => (old ||| src) % m
  | .min => if lt src old then src % m else old
  | .max => if lt old src then src % m else old
  | .minu => if src % m < old then src % m else old
  | .maxu => if old < src % m then src % m else old
  | .cas => if old = cmp % m then src % m else old

/-- The loaded value is written: one register, or the pair of a 16-byte compare-and-swap, of which x0 is all zero. -/
def wrLoaded (h rd n : Nat) (bs : List Byte) (s : State) : State :=
  if n = 16 then (if rd = 0 then s else wrX h (rd + 1) (loadValue (bs.drop 8) 8 false) (wrX h rd (loadValue (bs.take 8) 8 false) s))
  else wrX h rd (loadValue bs n true) s

def relOf (rl : Bool) : Option Scope := if rl then some .package else none

/-- An access of a hart is performed at the UMR address `a`. -/
def performHart (h a : Nat) (direct : Bool) (op : HartOp) (s : State) : State :=
  match op with
  | .load rd n sg acq =>
    match hartRead h a n direct acq s with
    | (some v, s1) => wrX h rd (loadValue v n sg) s1
    | (none, s1) => raiseTrap h .loadFault (if direct then directBase + a else a) s1
  | .lr rd n aq =>
    match hartRead h a n false (relOf aq) s with
    | (some v, s1) => wrX h rd (loadValue v n true) (modHart h (fun x => { x with resv := some (a / 64) }) s1)
    | (none, s1) => raiseTrap h .loadFault a s1
  | .amo op rd src cmp n aq rl =>
    if writeHeld s (a / extSize) then holdWrite (a / extSize) (.hartOp h a false (.amo op rd src cmp n aq rl)) s
    else
      match hartRead h a n false (relOf aq) s with
      | (some v, s1) =>
        let old := leNat v
        let s2 := if op == .cas && old ≠ cmp % 2 ^ (8 * n) then s1
          else writeOwned h (a / 64) (a % 64) (leBytes n (amoResult op n old src cmp)) (relOf rl) s1
        wrLoaded h rd n v s2
      | (none, s1) => raiseTrap h .storeFault a s1
  | .sc rd v n aq rl =>
    if (hartOf s h).resv ≠ some (a / 64) then wrX h rd 1 (modHart h (fun x => { x with resv := none }) s)
    else if writeHeld s (a / extSize) then holdWrite (a / extSize) (.hartOp h a false (.sc rd v n aq rl)) s
    else wrX h rd 0 (modHart h (fun x => { x with resv := none }) (writeOwned h (a / 64) (a % 64) (leBytes n v) (relOf rl) s))

/-- An access of a hart to the UMR: at once, or held. -/
def hartAccess (h a : Nat) (direct : Bool) (op : HartOp) (s : State) : State :=
  let n := match op with
    | .load _ n _ _ => n
    | .lr _ n _ => n
    | .amo _ _ _ _ n _ _ => n
    | .sc _ _ n _ _ => n
  let write := match op with
    | .load _ _ _ _ => false
    | .lr _ _ _ => false
    | .amo _ _ _ _ _ _ _ => true
    | .sc _ _ _ _ _ => true
  match readWaits s (.hart h) direct a n with
  | some x => holdRead x (.hartOp h a direct op) s
  | none => performHart h a direct op (if direct then s else (linesOf a n).foldl (fun s l => arrive (.hart h) write false l s) s)

/-- A read is served, or held. -/
def readOrHold (r : Requester) (direct : Bool) (a n : Nat) (acq : Option Scope) (s : State) : State :=
  match readWaits s r direct a n with
  | some x => holdRead x (if direct then .directRead r a n acq.isSome else .read r a n acq) s
  | none => if direct then serveDirect r a n acq.isSome s else serveRead r a n acq s

/-! ### Releases that wait (R251, Table 09-4) -/

/-- Earlier loads of a hart have not returned. -/
def loadsBehind (s : State) (h : Nat) : Bool :=
  !(hartOf s h).pcieLoads.isEmpty || !(hartOf s h).splits.isEmpty ||
  s.remote.out.any (fun o => o.req == .hart h) || anyWait s (isReadOf (.hart h))

/-- Earlier range flushes of a hart are not complete (consist scope). -/
def flushBehind (s : State) (h : Nat) : Bool := (rfOf s (h / 48)).queue.any (fun q => q.hart == h)

/-- A hart's release of a scope cannot be performed yet. -/
def releaseWaits (s : State) (h : Nat) (sc : Scope) : Bool :=
  match sc with
  | .tile => false
  | .package => writesWait s (.hart h) || loadsBehind s h
  | .consist => writesWait s (.hart h) || loadsBehind s h || flushBehind s h

/-- A release of any requester cannot be performed yet. -/
def relMustWait (s : State) (r : Requester) (sc : Scope) : Bool :=
  match r with
  | .hart h => releaseWaits s h sc
  | _ => writesWait s r

/-- A request stays at its requester: a release whose waits have not ended, or an access to a line of such a release (R251, R256). -/
def reqBlocked (s : State) (w : WaitReq) : Bool :=
  match w with
  | .write r a d rel => s.reqWait.any (writeMeets r false a d.length) || rel.any (relMustWait s r)
  | .read r a n _ => s.reqWait.any (writeMeets r false a n)
  | _ => false

/-- A request is made, or waits at its requester. -/
def orWait (w : WaitReq) (run : State → State) (s : State) : State :=
  if reqBlocked s w then { s with reqWait := s.reqWait ++ [w] } else run s

/-- A request that was held is performed (R221, R230, R458). -/
def performHeld (s : State) (w : WaitReq) : State :=
  match w with
  | .write r a d rel => cohWrite r a d rel s
  | .directWrite r a d rel => dirWrite r a d rel s
  | .read r a n acq => readOrHold r false a n acq s
  | .directRead r a n acq => readOrHold r true a n (consistIf acq) s
  | .remoteWrite m => remotePerformWrite m s
  | .hartOp h a direct op => hartAccess h a direct op s

/-- Requests that waited at their requester are made, those whose waits have ended (R251). -/
def retryReq (s : State) : State :=
  if s.reqWait.isEmpty then s
  else s.reqWait.foldl (fun s w => orWait w (fun s => performHeld s w) s) { s with reqWait := [] }

/-- Writes held at an extent are performed after its switch; after a demotion they start a demand promotion (R230). -/
def releaseHeld (x : Nat) (s : State) : State :=
  let ws := (extOf s x).held
  retryReq (ws.foldl performHeld (setExt x { extOf s x with held := [] } s))

/-- An access to an unbacked or reserved address, by its requester (Table 01-5). -/
def refuseAccess (r : Requester) (write : Bool) (a : Nat) (s : State) : State :=
  match r with
  | .hart h => raiseTrap h (if write then .storeFault else .loadFault) a s
  | .pcie sub rid => raiseEvent evRegionFault sub (causeOf evRegionFault 2) (if write then s else send (.pcieDone sub rid false false []) s)
  | .remote _ => raiseEvent evRegionFault 0 (causeOf evRegionFault 3) s
  | .dray d => raiseEvent evRegionFault d (causeOf evRegionFault 4) s
  | .updatePort _ => s
  | .queueEngine _ => s
  | .collective _ => s
  | .caboose _ => s

/-- The unit that an event about a requester names (log 14): its number. -/
def unitOf : Requester → Nat
  | .hart h => h
  | .pcie sub _ => sub
  | .dray d => d
  | .queueEngine q => q
  | .updatePort t => t
  | .collective e => e
  | .remote _ => 0
  | .caboose _ => 0

/-- A write refused by write protection (R154): a hart takes the store access fault. -/
def refuseProtected (r : Requester) (a : Nat) (s : State) : State :=
  let s1 := raiseEvent evRegionFault (unitOf r) (causeOf evRegionFault 1) s
  match r with
  | .hart h => raiseTrap h .storeFault a s1
  | _ => s1

/-- A request that conflicts with a held copy waits, in arrival order (R264, R265). -/
def queueOrServe (l : Nat) (r : Requester) (write atHome : Bool) (w : WaitReq) (s : State) : State :=
  if mustWait s l r write atHome then setLine l { lineOf s l with waiting := (lineOf s l).waiting ++ [w] } s else performHeld s w

/-- COHERENT_READ; an access outside the backed UMR follows R22. -/
def coherentReadEffect (r : Requester) (a n : Nat) (acq : Option Scope) (s : State) : State :=
  if a + n ≤ umrEnd then
    orWait (.read r a n acq) (fun s =>
      match readWaits s r false a n with
      | some x => holdRead x (.read r a n acq) s
      | none => queueOrServe (a / 64) r false false (.read r a n acq) s) s
  else refuseAccess r false a s

/-- A write-protected extent refuses the write (R154). -/
def coherentWriteEffect (r : Requester) (a : Nat) (d : List Byte) (rel : Option Scope) (s : State) : State :=
  if a + d.length ≤ umrEnd then
    if protectedExt s (a / extSize) then refuseProtected r a s
    else orWait (.write r a d rel) (queueOrServe (a / 64) r true (rel == some .consist) (.write r a d rel)) s
  else refuseAccess r true a s

/-- DIRECT_READ (R247, R253, R254): the address is in the direct aperture. -/
def directReadEffect (r : Requester) (a n : Nat) (acq : Bool) (s : State) : State :=
  match classify a with
  | .direct u =>
    match readWaits s r true u n with
    | some x => holdRead x (.directRead r u n acq) s
    | none => serveDirect r u n acq s
  | _ => refuseAccess r false a s

/-- DIRECT_WRITE (R19, R247). -/
def directWriteEffect (r : Requester) (a : Nat) (d : List Byte) (s : State) : State :=
  match classify a with
  | .direct u =>
    if protectedExt s (u / extSize) then refuseProtected r a s else dirWrite r u d none s
  | _ => refuseAccess r true a s

/-- DIRECT_WRITE_DRAIN: the oldest accepted direct write of a home reaches memory (R247). -/
def directWriteDrainEffect (u : Nat) (s : State) : State :=
  let h := homeOf s u
  match h.dbuf with
  | w :: rest => poke w.addr w.data (setHome u { h with dbuf := rest } s)
  | [] => s

/-- An L2 that evicts a line may leave it in the L3 of its die: which, is a free value (R245, R262; log 62). -/
def intoL3 (c : Nat) (old x : Line) (s : State) : Line × State :=
  if c < 96 && (nearCopy x c).isNone then
    let (v, s1) := draw s
    if v.toNat % 2 = 1 then
      ({ x with copies := tblSet (l3Of c) (tblGet [] old.copies c) x.copies, stale := if setHas old.stale c then setIns (l3Of c) x.stale else x.stale }, s1)
    else (x, s1)
  else (x, s)

/-- LINE_WRITEBACK: a cache evicts a line; dirty data are written back (R255, R259). -/
def lineWritebackEffect (c l : Nat) (s : State) : State :=
  let x := lineOf s l
  if (tblGet? x.copies c).isSome then
    let s1 := if x.owner == some c then writeBackLine l s else s
    let x1 := lineOf s1 l
    let x2 := { x1 with copies := tblDel c x1.copies, owner := if x1.owner == some c then none else x1.owner, stale := setDel c x1.stale }
    let (x3, s1) := intoL3 c x1 x2 s1
    let s2 := if x3.copies.isEmpty && x3.waiting.isEmpty then { s1 with dir := tblDel l s1.dir }
      else setLine l { x3 with overflow := x3.overflow && !x3.copies.isEmpty } s1
    if c < 96 && (hartOf s2 c).resv == some l then modHart c (fun h => { h with resv := none }) s2 else s2
  else s

/-- GRANT_HOLD_EXPIRY: 40 ns after the grant the home forwards the oldest waiting request's snoop (R265). -/
def grantHoldExpiryEffect (l : Nat) (s : State) : State :=
  if (tblGet? s.dir l).isSome then
    let s1 := advance (lineOf s l).hold s
    if (lineOf s1 l).waiting.isEmpty then s1 else setLine l { lineOf s1 l with snooped := true } s1
  else s

/-- SNOOP_ANSWER: the cache answers, and the oldest waiting request is performed; the next one's snoop follows at once unless the line
was granted anew (R255, R264, R265). -/
def snoopAnswerEffect (l : Nat) (s : State) : State :=
  let x := lineOf s l
  match x.snooped, x.waiting with
  | true, w :: rest =>
    let s1 := performWaiting (setLine l { x with waiting := rest, snooped := false } s) w
    let y := lineOf s1 l
    retryReq (if decide (y.hold ≤ now s1) && !y.waiting.isEmpty then setLine l { y with snooped := true } s1 else s1)
  | _, _ => s

/-! ### Meanings -/

def execCoherentRead (req : Requester) (addr len : Nat) (acq : Option Scope) (s : State) : Host.Outcome State Fault Refusal := 
  onWf (.coherentRead req addr len acq) (coherentReadEffect req addr len acq s)
def execCoherentWrite (req : Requester) (addr : Nat) (data : List Byte) (rel : Option Scope) (s : State) : Host.Outcome State Fault Refusal := 
  onWf (.coherentWrite req addr data rel) (coherentWriteEffect req addr data rel s)
def execDirectRead (req : Requester) (addr len : Nat) (acq : Bool) (s : State) : Host.Outcome State Fault Refusal := 
  onWf (.directRead req addr len acq) (directReadEffect req addr len acq s)
def execDirectWrite (req : Requester) (addr : Nat) (data : List Byte) (s : State) : Host.Outcome State Fault Refusal := 
  onWf (.directWrite req addr data) (directWriteEffect req addr data s)
def execDirectWriteDrain (home : Nat) (s : State) : Host.Outcome State Fault Refusal := 
  onWf (.directWriteDrain home) (directWriteDrainEffect home s)
def execLineWriteback (cache line : Nat) (s : State) : Host.Outcome State Fault Refusal := 
  onWf (.lineWriteback cache line) (lineWritebackEffect cache line s)
def execGrantHoldExpiry (line : Nat) (s : State) : Host.Outcome State Fault Refusal := 
  onWf (.grantHoldExpiry line) (grantHoldExpiryEffect line s)
def execSnoopAnswer (line : Nat) (s : State) : Host.Outcome State Fault Refusal := 
  onWf (.snoopAnswer line) (snoopAnswerEffect line s)

end Sys2Proof.Machine
end

