-- ==== Sys2Proof/Machine/Queues.lean ====
section
/-! DEFINITION. Queue contexts, doorbells, descriptor reads, completion records and region entries
(R346 to R355, R369, R370). -/

namespace Sys2Proof.Machine

/-! ### Register halves (R475) -/

/-- The register value that a write makes of the old one. -/
def mergeAcc (acc : Acc) (old v : Nat) : Nat :=
  match acc with
  | .full => v
  | .lo => old / 2 ^ 32 * 2 ^ 32 + v % 2 ^ 32
  | .hi => v % 2 ^ 32 * 2 ^ 32 + old % 2 ^ 32

/-- What a read of the register returns to a hart: all 64 bits, or one half, sign-extended as a 4-byte load is. -/
def readAcc (acc : Acc) (v : Nat) : Word :=
  match acc with
  | .full => word v
  | .lo => BitVec.ofInt 64 (sext 32 (v % 2 ^ 32))
  | .hi => BitVec.ofInt 64 (sext 32 (v / 2 ^ 32))

/-- The access covers bit `b`. -/
def covers (acc : Acc) (b : Nat) : Bool :=
  match acc with
  | .full => true
  | .lo => decide (b < 32)
  | .hi => decide (32 ≤ b)

/-! ### Records (R353, R354) -/

/-- The hub die whose engine serves a queue (R346). -/
def queueHub (q : Nat) : Nat := if q < 8192 then 0 else 1

/-- The bytes of a completion record (Table 13-3). -/
def recBytes (r : Rec) (phase : Bool) (t : Nat) : List Byte :=
  bytesOf [word (r.seq * 2 ^ 48 + b2n phase * 2 ^ 47 + r.kind * 2 ^ 44 + r.tag * 2 ^ 16 + r.status),
           word r.count, word t, word r.job]

/-- Writes of the queue's command that are still held at an extent, or not acknowledged by another package
(R221, R269, R335). -/
def commandHeld (s : State) (x : QCtx) : Bool :=
  x.cur.isSome && (s.remote.out.any (fun o => o.req == .dray x.dray) || writesWait s (.dray x.dray))

/-- A queue that was disabled reads disabled once its last record has been performed (R347). -/
def settleDisabled (q : Nat) (s : State) : State :=
  let x := queueOf s q
  let bound := s.parts.any (fun e => match e.2.job with
    | some j => (match j.bound with | some b => b.queue == q | none => false) || (match j.nextBound with | some b => b.queue == q | none => false)
    | none => false)
  if x.disabling && x.recs.isEmpty && x.cur.isNone && !bound then setQueue q { x with disabling := false, state := .disabled } s else s

/-- An opcode the queue does not accept (R350). -/
def badOpcode (x : QCtx) (d : List Word) : Bool :=
  let op := wf (wd d 0) 5 0
  if x.qtype = 1 then op ≠ 0x02 else !(decide (0x30 ≤ op) && decide (op ≤ 0x35))

/-- A command with a bad opcode completes REJECTED_FORMAT in its turn (R350, R355). -/
def rejectOpcodes (q : Nat) (s : State) : State :=
  let x := queueOf s q
  match x.accepted with
  | (d, _) :: rest =>
    if x.qtype = 0 && x.recs.isEmpty && x.cur.isNone && badOpcode x d then
      setQueue q { x with accepted := rest, recs := [descRec d stFormat] } s
    else s
  | [] => s

/-- The oldest record is performed: written as a consist-scope release, then its interrupt (R353, R269). A full ring
makes it wait, counted once (R354); a ring in an extent that is not in HBM is promoted first (R221). -/
def performRec (q : Nat) (s : State) : State :=
  let x := queueOf s q
  match x.recs with
  | [] => s
  | r :: rest =>
    if (x.cqTail + 1) % 2 ^ x.cqLog = x.cqHead then
      if r.counted then s else bump 0x0263 q 1 (setQueue q { x with recs := { r with counted := true } :: rest } s)
    else if commandHeld s x || !tokensPaid s r.needs then s
    else
      let a := x.cqBase + 32 * x.cqTail
      if writeHeld s (a / extSize) then
        let e := extOf s (a / extSize)
        if e.st == .flash && !(s.tierWait.any (fun r => r.ext == a / extSize)) then
          tierStart { ext := a / extSize, kind := .demandPromote (a / extSize % 4) } s
        else s
      else
        let s1 := cohWrite (.queueEngine (queueHub q)) a (recBytes r x.cqPhase (now s)) (some .consist) s
        let t := (x.cqTail + 1) % 2 ^ x.cqLog
        let s2 := setQueue q { x with recs := rest, cur := none, cqTail := t, cqPhase := if t = 0 then !x.cqPhase else x.cqPhase } s1
        let s3 := if x.irqEn && (r.irq || r.kind == 1) then pend x.irqHart x.irqFile x.irqId s2 else s2
        rejectOpcodes q (settleDisabled q s3)

/-! ### Doorbells (R28, R347 to R349) -/

/-- A discarded doorbell write is counted package-wide and for its queue (R482, Table 14-7). -/
def discardDoorbell (q : Nat) (s : State) : State :=
  bump 0x0260 q 1 { s with dbl := { s.dbl with discards := satAdd max32 s.dbl.discards 1 } }

/-- The engine reads the descriptor at head where none is being read (R349, R351). -/
def startRead (x : QCtx) : QCtx :=
  if x.state == .running && x.enable && !x.reading && x.repoll.isNone && x.head ≠ x.dbTail
  then { x with reading := true, repollNo := 0 } else x

/-- A doorbell value that is not discarded (R349): the descriptors it adds, then cq_upd, then resume, then the read. -/
def acceptDoorbell (x : QCtx) (v tail seq : Nat) : QCtx :=
  let x1 := { x with dbTail := tail, dbSeq := seq }
  let x2 := if bit v 63 then { x1 with cqHead := fld v 47 32 } else x1
  let x3 := if bit v 62 && x2.state == .parked then { x2 with state := .running } else x2
  startRead x3

/-- A doorbell value reaches the queue engine (R28, R347 to R349). -/
def ringDoorbell (q : Nat) (w : Word) (s : State) : State :=
  let v := w.toNat
  let x := queueOf s q
  let tail := fld v 15 0
  let seq := fld v 31 16
  match queuePart s q with
  | none => raiseEvent evRegionFault q (causeOf evRegionFault 5) (discardDoorbell q s)
  | some _ =>
    if !x.enable then discardDoorbell q s
    else if fld v 61 48 ≠ 0 || 2 ^ x.sqLog ≤ tail || 2 ^ x.cqLog ≤ fld v 47 32 then discardDoorbell q s
    else
      let n := (tail + 2 ^ x.sqLog - x.dbTail) % 2 ^ x.sqLog
      if (n = 0 && seq = x.dbSeq) || seq = (x.dbSeq + n) % 65536 then setQueue q (acceptDoorbell x v tail seq) s
      else bump 0x0261 q 1 s

def execDoorbell (q : Nat) (v : Word) (s : State) : Host.Outcome State Fault Refusal := onWf (.doorbell q v) (ringDoorbell q v s)

/-! ### Descriptor reads (R350 to R352) -/

/-- The descriptor at head as the queue engine reads it; a poisoned line gives free words (log 21). -/
def readDescriptor (q : Nat) (s : State) : List Word × State :=
  let x := queueOf s q
  let a := x.sqBase + 64 * x.head
  let p := linePoisoned s (a / 64)
  let (bs, s1) := cohRead (.queueEngine (queueHub q)) a 64 none s
  if p then ((List.range 8).map (fun i => Config.free64 (s1.freeCtr + i)), { s1 with freeCtr := s1.freeCtr + 8 })
  else (wordsOf bs, s1)

/-- A current descriptor is accepted (R351); the engine goes on to the next one. -/
def advanceHead (x : QCtx) : QCtx :=
  let h := (x.head + 1) % 2 ^ x.sqLog
  startRead { x with head := h, sqPhase := if h = 0 then !x.sqPhase else x.sqPhase, expSeq := (x.expSeq + 1) % 65536,
                     reading := false, repollNo := 0 }

/-- Reserved bits of a request descriptor (Table 13-9). -/
def badRequest (d : List Word) : Bool :=
  decide (wf (wd d 0) 45 6 ≠ 0) || decide ((wd d 5).toNat ≠ 0) || decide ((wd d 6).toNat ≠ 0) || decide (wf (wd d 7) 63 16 ≠ 0)

def acceptDescriptor (q : Nat) (d : List Word) (s : State) : State :=
  let x := advanceHead (queueOf s q)
  if x.qtype = 1 && (badOpcode x d || badRequest d) then pushRec q (descRec d stFormat) (setQueue q x s)
  else rejectOpcodes q (setQueue q { x with accepted := x.accepted ++ [(d, now s)] } s)

/-- The queue parks, the DOORBELL_AHEAD record is written and the event raised (R352, R482). -/
def parkAhead (q : Nat) (s : State) : State :=
  let x := queueOf s q
  let s1 := pushRec q { kind := 1, seq := x.expSeq, tag := 0, status := stAhead * 256, irq := false } (setQueue q (parkQueue x) s)
  let s2 := { s1 with dbl := { s1.dbl with aheadLast := q, aheadCount := satAdd max32 s1.dbl.aheadCount 1 } }
  raiseEvent evDoorbellAhead q (causeOf evDoorbellAhead 0) (if (queueOf s2 q).recs.length = 1 then performRec q s2 else s2)

/-- A descriptor read returns (R351, R352). -/
def descriptorReturnEffect (q : Nat) (s : State) : State :=
  let x := queueOf s q
  if x.reading && x.state == .running then
    let (d, s1) := readDescriptor q s
    let x1 := queueOf s1 q
    if bit (wd d 0).toNat 47 = x1.sqPhase && wf (wd d 0) 63 48 = x1.expSeq then acceptDescriptor q d s1
    else if 16 ≤ x1.repollNo then parkAhead q s1
    else setQueue q { x1 with reading := false, repoll := some (x1.repollNo + 1, now s1 + 64 * 2 ^ min x1.repollNo 6) } s1
  else s

def execDescriptorReadReturn (q : Nat) (s : State) : Host.Outcome State Fault Refusal :=
  onWf (.descriptorReadReturn q) (descriptorReturnEffect q s)

/-- The wait of a re-poll ends and the stale descriptor is read again (R352). -/
def repollEffect (q : Nat) (s : State) : State :=
  let x := queueOf s q
  match x.repoll with
  | some (i, t) => if x.state == .running then advance t (setQueue q { x with reading := true, repoll := none, repollNo := i } s) else s
  | none => s

def execDescriptorRepoll (q : Nat) (s : State) : Host.Outcome State Fault Refusal := onWf (.descriptorRepoll q) (repollEffect q s)

/-! ### Contexts (Table 13-1, R346, R347) -/

def qrunCode : QRun → Nat
  | .disabled => 0
  | .running => 1
  | .parked => 2

/-- QUE_CTX_CTRL as it reads. -/
def ctrlWord (s : State) (q : Nat) : Nat :=
  let x := queueOf s q
  b2n x.enable * 2 ^ 63 + x.qtype * 2 ^ 61 + qrunCode x.state * 2 ^ 59 + b2n x.cfgErr * 2 ^ 58 + x.dray * 2 ^ 52 +
  ((queuePart s q).getD 0) * 2 ^ 48 + b2n x.irqEn * 2 ^ 23 + x.irqHart * 2 ^ 16 + x.irqFile * 2 ^ 12 + x.irqId

/-- A context register as it reads: the context of a queue that no partition holds reads zero (R346). -/
def ctxRead (s : State) (q off : Nat) : Nat :=
  let x := queueOf s q
  if (queuePart s q).isNone then 0
  else if off = 0x00 then x.sqBase + x.sqLog * 2 ^ 8
  else if off = 0x08 then x.cqBase + x.cqLog * 2 ^ 8
  else if off = 0x10 then ctrlWord s q
  else if off = 0x18 then x.head * 2 ^ 48 + x.expSeq * 2 ^ 32 + b2n x.sqPhase * 2 ^ 31 + b2n x.cqPhase * 2 ^ 30 + x.cqTail
  else if off = 0x20 then x.dbTail * 2 ^ 48 + x.dbSeq * 2 ^ 32 + x.cqHead * 2 ^ 16
  else 0

/-- Legal interrupt fields: hart 0 to 95, file 0 to 8, identity 64 to 2047 (Table 13-1). -/
def irqLegal (hart file id : Nat) : Bool := decide (hart < 96) && decide (file < 9) && decide (64 ≤ id) && decide (id < 2048)

/-- The conditions of R347 on a write of enable = 1. -/
def enableOk (s : State) (p : Nat) (x : QCtx) : Bool :=
  let pt := partOf s p
  decide (4 ≤ x.sqLog) && decide (x.sqLog ≤ 15) && decide (4 ≤ x.cqLog) && decide (x.cqLog ≤ 15) && decide (x.qtype < 2) &&
  inPart pt x.sqBase (64 * 2 ^ x.sqLog) && inPart pt x.cqBase (32 * 2 ^ x.cqLog) &&
  decide (x.sqBase + 64 * 2 ^ x.sqLog ≤ umrEnd) && decide (x.cqBase + 32 * 2 ^ x.cqLog ≤ umrEnd) &&
  !protectedRange s x.sqBase (64 * 2 ^ x.sqLog) && !protectedRange s x.cqBase (32 * 2 ^ x.cqLog) &&
  (decide (x.qtype = 1) || (decide (x.dray < 40) && bit pt.drayMask x.dray)) &&
  (!x.irqEn || irqLegal x.irqHart x.irqFile x.irqId)

/-- The context as enable takes effect (R347). -/
def enabled (x : QCtx) : QCtx :=
  { x with enable := true, cfgErr := false, state := .running, head := 0, expSeq := 0, cqTail := 0, dbTail := 0, cqHead := 0,
           sqPhase := true, cqPhase := true, dbSeq := 0xFFFF, reading := false, repoll := none, repollNo := 0,
           accepted := [], cur := none, recs := [], disabling := false }

/-- enable = 0 (R347): no descriptor is read any more; what was accepted and not started, or not bound, completes
REJECTED_STATE; the queue reads running until the last record is performed. -/
def disableQueue (q : Nat) (s : State) : State :=
  let x := queueOf s q
  let rs := x.accepted.map (fun d => descRec d.1 stState)
  settleDisabled q (setQueue q { x with enable := false, disabling := true, reading := false, repoll := none, repollNo := 0,
                                        accepted := [], recs := x.recs ++ rs,
                                        state := if x.state == .parked then .running else x.state } s)

/-- The RW fields of QUE_CTX_CTRL other than enable. -/
def setCtrl (m : Nat) (x : QCtx) : QCtx :=
  { x with qtype := fld m 62 61, dray := fld m 57 52, irqEn := bit m 23, irqHart := fld m 22 16, irqFile := fld m 15 12, irqId := fld m 10 0 }

/-- A write to a context register (R346, R347, R475). -/
def ctxWrite (q off : Nat) (acc : Acc) (v : Nat) (s : State) : State :=
  let x := queueOf s q
  match queuePart s q with
  | none => s
  | some p =>
    if off = 0x00 then
      let m := mergeAcc acc (x.sqBase + x.sqLog * 2 ^ 8) v
      if x.enable || x.disabling then s else setQueue q { x with sqBase := fld m 55 12 * 4096, sqLog := fld m 11 8 } s
    else if off = 0x08 then
      let m := mergeAcc acc (x.cqBase + x.cqLog * 2 ^ 8) v
      if x.enable || x.disabling then s else setQueue q { x with cqBase := fld m 55 12 * 4096, cqLog := fld m 11 8 } s
    else if off = 0x10 then
      let m := mergeAcc acc (ctrlWord s q) v
      if x.enable then (if covers acc 63 && !bit m 63 then disableQueue q s else s)
      else if x.disabling then s
      else
        let x1 := setCtrl m x
        if covers acc 63 && bit m 63 then
          (if enableOk s p x1 then setQueue q (enabled x1) s else setQueue q { x1 with cfgErr := true } s)
        else setQueue q x1 s
    else s

/-- QUEUE_ENABLE: a write of enable = 1 to QUE_CTX_CTRL; another value is another row. -/
def queueEnableEffect (q : Nat) (acc : Acc) (v : Nat) (s : State) : State :=
  if covers acc 63 && bit (mergeAcc acc 0 v) 63 then ctxWrite q 0x10 acc v s else s

def queueDisableEffect (q : Nat) (acc : Acc) (v : Nat) (s : State) : State :=
  if covers acc 63 && !bit (mergeAcc acc 0 v) 63 then ctxWrite q 0x10 acc v s else s

def execQueueEnable (q : Nat) (acc : Acc) (v : Word) (s : State) : Host.Outcome State Fault Refusal :=
  onWf (.queueEnable q acc v) (queueEnableEffect q acc v.toNat s)
def execQueueDisable (q : Nat) (acc : Acc) (v : Word) (s : State) : Host.Outcome State Fault Refusal :=
  onWf (.queueDisable q acc v) (queueDisableEffect q acc v.toNat s)

/-! ### Region entries (Table 13-11, R369, R370) -/

def rgnCtrlWord (s : State) (r : Nat) : Nat :=
  let x := regionOf s r
  b2n x.valid * 2 ^ 63 + ((regionPart s r).getD 0) * 2 ^ 59 + b2n x.inRd * 2 ^ 58 + b2n x.inWr * 2 ^ 57 + b2n x.drayRd * 2 ^ 56 +
  b2n x.drayWr * 2 ^ 55 + b2n x.msi * 2 ^ 54 + x.port * 2 ^ 48 + x.rid * 2 ^ 32 + x.ridMask * 2 ^ 16 + b2n x.err

def rgnRead (s : State) (r off : Nat) : Nat :=
  let x := regionOf s r
  if (regionPart s r).isNone then 0
  else if off = 0x00 then rgnCtrlWord s r
  else if off = 0x08 then x.pcieBase
  else if off = 0x10 then x.target
  else if off = 0x18 then x.lenPages
  else 0

/-- Sub-ports that exist under the bifurcation of their root port (R368). -/
def subExists (s : State) (i : Nat) : Bool :=
  let b := s.pcie.bifs.getD (i / 4) 0
  if b = 0 then i % 4 = 0 else if b = 1 then i % 2 = 0 else if b = 2 then i % 4 ≠ 1 else true

def msiBase : Nat := 0xFA000000

/-- The PCIe range lies inside the MSI window. -/
def inMsi (a n : Nat) : Bool := inside a n msiBase 0x800000

/-- The conditions of R370 on a write of valid = 1. -/
def validateOk (s : State) (p : Nat) (x : Region) : Bool :=
  let n := x.lenPages * 4096
  decide (1 ≤ x.lenPages) &&
  (if x.msi then decide (x.target = 0)
   else match umrOf x.target with
     | some u => decide (u + n ≤ umrEnd) && inPart (partOf s p) u n
     | none => false) &&
  (!(x.inRd || x.inWr) || (subExists s x.port && decide (x.pcieBase + n ≤ 2 ^ 64) &&
    !overlap x.pcieBase n pcieBase 0x400000000000)) &&
  (inMsi x.pcieBase n == x.msi)

def setRgnCtrl (m : Nat) (x : Region) : Region :=
  { x with inRd := bit m 58, inWr := bit m 57, drayRd := bit m 56, drayWr := bit m 55, msi := bit m 54, port := fld m 51 48,
           rid := fld m 47 32, ridMask := fld m 31 16 }

/-- A write to a region register: while valid is 1, only one that clears valid takes effect (R369, R370). -/
def rgnWrite (r off : Nat) (acc : Acc) (v : Nat) (s : State) : State :=
  let x := regionOf s r
  match regionPart s r with
  | none => s
  | some p =>
    if off = 0x00 then
      let m := mergeAcc acc (rgnCtrlWord s r) v
      if x.valid then
        (if covers acc 63 && !bit m 63 then setRegion r { setRgnCtrl m x with valid := false } s else s)
      else
        let x1 := setRgnCtrl m x
        if covers acc 63 && bit m 63 then
          (if validateOk s p x1 then setRegion r { x1 with valid := true, err := false } s else setRegion r { x1 with err := true } s)
        else setRegion r x1 s
    else if x.valid then s
    else if off = 0x08 then setRegion r { x with pcieBase := mergeAcc acc x.pcieBase v / 4096 * 4096 } s
    else if off = 0x10 then setRegion r { x with target := fld (mergeAcc acc x.target v) 55 12 * 4096 } s
    else if off = 0x18 then setRegion r { x with lenPages := fld (mergeAcc acc x.lenPages v) 30 0 } s
    else s

def regionValidateEffect (r : Nat) (acc : Acc) (v : Nat) (s : State) : State :=
  if covers acc 63 && bit (mergeAcc acc 0 v) 63 then rgnWrite r 0x00 acc v s else s

def regionInvalidateEffect (r : Nat) (acc : Acc) (v : Nat) (s : State) : State :=
  if covers acc 63 && !bit (mergeAcc acc 0 v) 63 then rgnWrite r 0x00 acc v s else s

def execRegionValidate (r : Nat) (acc : Acc) (v : Word) (s : State) : Host.Outcome State Fault Refusal :=
  onWf (.regionValidate r acc v) (regionValidateEffect r acc v.toNat s)
def execRegionInvalidate (r : Nat) (acc : Acc) (v : Word) (s : State) : Host.Outcome State Fault Refusal :=
  onWf (.regionInvalidate r acc v) (regionInvalidateEffect r acc v.toNat s)

end Sys2Proof.Machine
end

