-- ==== Sys2Proof/Machine/RemoteOp.lean ====
section
/-! DEFINITION. What leaves this package as a remote request or response, and the token buckets of the controllers and
flash stacks (R26, R198, R219, R334, R335). -/

namespace Sys2Proof.Machine

/-! ### Remote requests (Table 12-9) -/

/-- A port that the route table uses and that is not lost. -/
def workingPort (s : State) (r : Route) (p : Nat) : Bool :=
  (match tblGet? r.ports p with | some e => e.used | none => false) && !(portOf s p).lost

/-- Entry d's port, its alternate where the port is lost, or none (R328). -/
def destPort (s : State) (r : Route) (d : Nat) (alt : Bool) : Option Nat :=
  match tblGet? r.dests d with
  | some e =>
    if e.valid && !(portOf s e.port).lost then some e.port
    else if alt && e.valid && e.altValid && !(portOf s e.altPort).lost then some e.altPort
    else none
  | none => none

/-- The ports of a torus direction (Table 12-7). -/
def torusPorts (dim : Nat) (plus : Bool) : List Nat :=
  match dim, plus with
  | 0, true => [0, 5, 10]
  | 0, false => [1, 6, 15]
  | 1, true => [2, 11, 16]
  | 1, false => [7, 12, 17]
  | _, true => [3, 8, 13]
  | _, false => [4, 9, 18]

/-- The direction of the shorter ring distance, + on a tie; none where the coordinates agree. -/
def torusDir (n a b : Nat) : Option Bool := if a = b then none else some (decide (2 * ((b + n - a) % n) ≤ n))

/-- The port by which requests to destination `d` leave (R328). -/
def routePort (s : State) (r : Route) (d : Nat) : Option Nat :=
  let (x, y, z) := r.dims
  if r.torus && decide (d < x * y * z) then
    let at_ := fun (k : Nat) => (k % x, k / x % y, k / (x * y))
    let (ax, ay, az) := at_ r.self
    let (bx, b_y, bz) := at_ d
    let dir := match torusDir x ax bx with
      | some p => some (0, p)
      | none => match torusDir y ay b_y with
        | some p => some (1, p)
        | none => (torusDir z az bz).map (fun p => (2, p))
    match dir with
    | some (k, p) =>
      let ports := (torusPorts k p).filter (workingPort s r)
      if ports.isEmpty then none else ports[d % ports.length]?
    | none => none
  else destPort s r d (!r.torus)

/-- Whether the route table reaches a package: itself, or one with a route (R26, R328). -/
def hasRoute (s : State) (dst : Nat) : Bool :=
  match s.route with
  | some r => dst == r.self || (routePort s r dst).isSome
  | none => false

/-- Sends a remote request: it takes the next pseq of its pair and, where it is answered, a tag (R335). -/
def sendReq (dst op addr : Nat) (mask : BitVec 64) (data : List Byte) (req : Requester) (load : Option (Nat × Nat × Nat × Bool))
    (s : State) : State :=
  let r := s.remote
  let ps := tblGet 0 r.pseqOut dst
  let m : RemoteMsg := { dst, src := selfNo s, op, tag := r.nextTag, pseq := ps, addr, mask, data := padTo 64 0 data }
  let o := if wantsReply op then r.out ++ [{ dst, tag := r.nextTag, op, addr, req, load, at_ := now s }] else r.out
  send (.remote m) { s with remote := { r with out := o, nextTag := (r.nextTag + 1) % 4096, pseqOut := tblSet dst ((ps + 1) % 65536) r.pseqOut } }

/-- A line and byte enables for bytes at an address within it. -/
def lineMask (off n : Nat) : BitVec 64 := BitVec.ofNat 64 ((2 ^ n - 1) * 2 ^ off)

/-- Remote writes of a byte range, line by line. -/
def remoteWrite (pkg op a : Nat) (bs : List Byte) (req : Requester) (s : State) : State :=
  (linesOf a bs.length).foldl (fun s l =>
    let (off, d) := linePart a bs l
    sendReq pkg op (l * 64) (lineMask off d.length) (List.replicate off 0 ++ d) req none s) s

/-! ### Charges (R198, R219) -/

/-- The cost of a partition's access of a byte range: one token for each 64 bytes at the line's stack, or for a sector-path read of a
flash-resident extent one for each sector; the line path belongs to no partition (R198, R219). -/
def charge (p a n : Nat) (sector : Bool) (s : State) : State :=
  if s.hbmBuckets.isEmpty && s.flBuckets.isEmpty then s
  else
    let s1 := (linesOf a n).foldl (fun s l => if inHbm s (l / 32768) then chargeHbm (lineStack s l * 16 + p) 1 s else s) s
    if !sector || n = 0 then s1
    else ((List.range ((a + n - 1) / 4096 + 1 - a / 4096)).map (· + a / 4096)).foldl
      (fun s k => if inHbm s (k / 512) then s else chargeFlash (flashStack (k / 512) * 16 + p) 1 s) s1

/-- The partition that a Dray's or update port's request is charged to (R198). -/
def requesterPart (s : State) (r : Requester) : Option Nat :=
  match r with
  | .dray d => drayPart s d
  | .updatePort t => (logicalOf s t).bind (tilePart s)
  | _ => none

/-- A request of a Dray or an update port is charged to the partition that holds it (R198). -/
def chargeFor (r : Requester) (a n : Nat) (write : Bool) (s : State) : State :=
  match requesterPart s r with
  | some p => charge p a n (!write) s
  | none => s

end Sys2Proof.Machine
end

