-- ==== Sys2Proof/Machine/HbmFlash.lean ====
section
/-! DEFINITION. HBM and flash events: bucket refills, scrub, channel faults, sector reads, switches and passes, relocation,
block failures, Tender restarts (R194 to R199, R215 to R231, R244, R458, R459). -/

namespace Sys2Proof.Machine

/-! ### Repairs (R140) -/

/-- A soft repair as an entry of the persistent record, and back (R140). -/
def repairEntry (r : Repair) : RecEntry := { kind := recSoftRepair, a := r.mem, b := (2 * r.sub + b2n r.row) * 2 ^ 16 + r.no }
def entryRepair (e : RecEntry) : Repair := { mem := e.a, sub := e.b / 2 ^ 17, row := bit e.b 16, no := e.b % 2 ^ 16 }

/-- At a power-on the fuse repairs are applied, then every soft repair of the persistent record (R140). -/
def applyRepairs (s : State) : State :=
  { s with repairs := s.fuses ++ ((s.record.committed ++ s.record.buffered).filter (fun e => e.kind == recSoftRepair)).map entryRepair }

/-! ### Buckets (R198, R219) -/

/-- The next multiple of `m` after now. -/
def nextMultiple (s : State) (m : Nat) : Nat := (now s / m + 1) * m

/-- At a multiple of 32 ns every HBM bucket gains its rate. -/
def hbmRefillEffect (s : State) : State :=
  let s1 := advance (nextMultiple s 32) s
  { s1 with hbmBuckets := s1.hbmBuckets.map (fun e => (e.1, refillBucket e.2)) }

/-- At a multiple of 4,096 ns every flash read bucket gains its rate. -/
def flashRefillEffect (s : State) : State :=
  let s1 := advance (nextMultiple s 4096) s
  { s1 with flBuckets := s1.flBuckets.map (fun e => (e.1, refillBucket e.2)) }

def execHbmBucketRefill (s : State) : Host.Outcome State Fault Refusal := onWf .hbmBucketRefill (hbmRefillEffect s)
def execFlashBucketRefill (s : State) : Host.Outcome State Fault Refusal := onWf .flashBucketRefill (flashRefillEffect s)

/-! ### HBM errors (R194 to R197) -/

/-- A patrol scrub reads a line of HBM, one of a reserved frame too, and treats what it finds under R195 or R196 (R197). -/
def scrubEffect (l : Nat) (o : EccOutcome) (s : State) : State :=
  if inHbm s (l / 32768) then
    match o with
    | .clean => meetError l s
    | .corrected => actOnError l .corrected s
    | .uncorrectable => actOnError l .uncorrectable s
  else s

def execPatrolScrub (l : Nat) (o : EccOutcome) (s : State) : Host.Outcome State Fault Refusal := onWf (.patrolScrub l o) (scrubEffect l o s)

/-- A channel stops responding: every read of it completes poisoned (R197). -/
def execChannelFault (st c : Nat) (s : State) : Host.Outcome State Fault Refusal :=
  onWf (.channelFault st c) { s with deadCh := setIns (st * 64 + c) s.deadCh }

/-! ### Flash reads (R218, R224, R228) -/

/-- The Tender of an extent serves it now. -/
def tenderServes (s : State) (x : Nat) : Bool :=
  let t := tblGet {} s.tenders (x % 2)
  !t.restarting && !t.dead

/-- A sector-path read: one array read, one token, and the sector's bytes; a sector that fails every re-read is poisoned. -/
def sectorReadEffect (r : Requester) (x k : Nat) (o : EccOutcome) (s : State) : State :=
  if inHbm s x || tenderHolds s x then s
  else
    let s1 := sectorArray (x * 512 + k) s
    let s2 := match requesterPart s r with
      | some p => chargeFlash (flashStack x * 16 + p) 1 s1
      | none => s1
    let s3 := if o = .uncorrectable then poisonSector x k s2 else s2
    let a := x * extSize + k * 4096
    { s3 with ret := some { req := r, addr := a, data := peek s3 a 4096, poison := rangePoisoned s3 a 4096 } }

def execSectorRead (r : Requester) (x k : Nat) (o : EccOutcome) (s : State) : Host.Outcome State Fault Refusal :=
  onWf (.sectorRead r x k o) (sectorReadEffect r x k o s)

/-! ### Switches and passes (R216, R220, R229, R230, R267) -/

/-- After a switch: held requests are performed at the new home, and what waited for the transition goes on
(R220, R221, R230, R231, R239). -/
def afterSwitch (x : Nat) (s : State) : State := tierRetry (tierDrain x (releaseHeld x (dropAheadExtent x s)))

/-- The transition's action waits for the tokens that its sectors cost (R198, R219). -/
def noteTransition (r : Option TierReq) (p : Nat) (s : State) : State :=
  match r.bind (fun r => r.owner) with
  | some (st, en) => noteNeeds p st en s
  | none => s

/-- The last sector of a promotion has reached its frame. Every sector was read from the array (R224); a Slate action's are charged to
its partition at both ends (R198, R219). -/
def promotionSwitchEffect (x : Nat) (s : State) : State :=
  let e := extOf s x
  if e.st == .promoting && tenderServes s x then
    let s1 := (List.range 512).foldl (fun s k => arrayRead x k s) s
    let s2 := match e.doing.bind promotePart with
      | some p => noteTransition e.doing p (chargeFlash (flashStack x * 16 + p) 512 (chargeFrame e.die p 512 s1))
      | none => s1
    afterSwitch x (promoteSwitch x s2)
  else s

/-- The partition of a demotion or write-back by a Slate action. -/
def passPart (s : State) (e : Ext) : Option Nat := (e.doing.bind (fun r => r.owner)).bind (fun o => streamPart s o.1)

/-- The reads of a pass are charged to the action's partition (R198). -/
def chargePass (x sectors : Nat) (s : State) : State :=
  let e := extOf s x
  match passPart s e with
  | some p => noteTransition e.doing p (chargeFrame e.die p sectors s)
  | none => s

/-- A pass ends: the switch, if nothing was dirtied during it, else the next pass, the third with writes held (R230).
What must program waits while the stack is read-only (R228). -/
def demotionPassEffect (x : Nat) (s : State) : State :=
  let e := extOf s x
  if e.st == .demoting && tenderServes s x && (e.copying == 0 || !stackReadOnly s x) then
    let s1 := drainExtent x s
    if (extOf s1 x).dirty == 0 then afterSwitch x (demoteSwitch x (if e.passes = 0 then chargePass x (popcount 512 e.copying.toNat) s1 else s1))
    else
      let s2 := settleExtent x s1
      let e2 := extOf s2 x
      setExt x { e2 with copying := e2.copying ||| e2.dirty, dirty := 0, passes := e2.passes + 1 }
        (chargePass x (popcount 512 e2.dirty.toNat + if e.passes = 0 then popcount 512 e.copying.toNat else 0) s2)
  else s

/-! ### Relocation and worn blocks (R224 to R228) -/

/-- A window covers the stack now (R226). -/
def windowOpen (s : State) (f : Nat) : Bool :=
  s.windows.any (fun w => w.stack == f && decide (w.from_ ≤ now s) && decide (now s < w.until_) && decide (0 < w.share))

/-- Whether the Tender may program to relocate a block: no timetable runs, a window covers the stack, or the block has reached
the hard limit (R226, R227). -/
def mayRelocate (s : State) (f b : Nat) : Bool := !anyJob s || windowOpen s f || decide (2 ^ 25 ≤ tblGet 0 (stackOf s f).reads b)

/-- Relocation of a queued or hard-limit block starts: a fresh block takes its valid sectors, each read once. Which block, and
how many sectors are valid, is the Tender's (R223; free values, log 8). -/
def relocationStartEffect (f b : Nat) (s : State) : State :=
  let t := stackOf s f
  let hd := tblGet {} s.tenders (f / 2)
  if (t.queued.elem b || decide (2 ^ 25 ≤ tblGet 0 t.reads b)) && (tblGet? t.reloc b).isNone && mayRelocate s f b && !hd.restarting && !hd.dead then
    let (v, s1) := draw s
    let (k, s2) := draw s1
    let n := tblGet 0 t.reads b
    let m := n + k.toNat % 4097
    let s3 := if n < 2 ^ 25 && 2 ^ 25 ≤ m then bump 0x0222 f 1 s2 else s2
    setStack f { t with reloc := tblSet b (freshBlock t b v.toNat) t.reloc, reads := tblSet b m t.reads } s3
  else s

/-- The relocation of a block ends, where it may still program (R224 to R226). -/
def relocationSwitchEffect (f b : Nat) (s : State) : State :=
  match tblGet? (stackOf s f).reloc b with
  | some n => if mayRelocate s f b && !(tblGet {} s.tenders (f / 2)).restarting then switchBlock f b n s else s
  | none => s

/-- A block fails a program or an erase: it is retired and its data move to a spare block; below 16 GiB of spares the stack
becomes read-only (R228). -/
def blockFailureEffect (f b : Nat) (s : State) : State :=
  let t := stackOf s f
  if setHas t.bad b then s
  else
    let (v, s1) := draw s
    let sp := t.spareBlocks - 1
    setStack f { t with
      bad := setIns b t.bad, spareBlocks := sp, readOnly := t.readOnly || decide (sp < 1024), reloc := tblDel b t.reloc
      queued := t.queued.filter (fun x => decide (x ≠ b)), moved := moveBlock b (freshBlock t b v.toNat) t.moved } s1

def execRelocationStart (f b : Nat) (s : State) : Host.Outcome State Fault Refusal := onWf (.relocationStart f b) (relocationStartEffect f b s)
def execRelocationSwitch (f b : Nat) (s : State) : Host.Outcome State Fault Refusal := onWf (.relocationSwitch f b) (relocationSwitchEffect f b s)
def execBlockFailure (f b : Nat) (s : State) : Host.Outcome State Fault Refusal := onWf (.blockFailure f b) (blockFailureEffect f b s)

/-! ### Tender restart (R458, R459) -/

/-- A transition of the restarting Tender's extent ends as Table 08-3 gives for a reset; its request starts again afterwards. -/
def restartExt (s : State) (x : Nat) : State :=
  let e := extOf s x
  endTransition (match e.doing with | some r => r :: e.queue | none => e.queue) x s

/-- TENDER_RESTART. A Tender still restarting has failed its restart; two failures within 60 s end its service. -/
def tenderRestartEffect (hd : Nat) (s : State) : State :=
  let t := tblGet {} s.tenders hd
  if t.dead then s
  else
    let fails := if t.restarting then (t.fails ++ [now s]) else t.fails
    let dead := t.restarting && decide (2 ≤ (fails.filter (fun f => decide (now s ≤ f + 60000000000))).length)
    let s1 := { s with tenders := tblSet hd { restarting := !dead, fails := fails, dead := dead } s.tenders }
    ((s1.exts.filter (fun e => e.1 % 2 == hd)).map (·.1)).foldl restartExt (settleRelocations (2 * hd + 1) (settleRelocations (2 * hd) s1))

/-- TENDER_RESTART_DONE: held requests proceed. -/
def tenderRestartDoneEffect (hd : Nat) (s : State) : State :=
  let t := tblGet {} s.tenders hd
  if t.restarting then
    let s1 := { s with tenders := tblSet hd { t with restarting := false } s.tenders }
    tierRetry (((s1.exts.filter (fun e => e.1 % 2 == hd && !(inHbm s1 e.1 && e.2.queue.isEmpty))).map (·.1)).foldl
      (fun s x => tierDrain x (releaseHeld x s)) s1)
  else s

def execTenderRestart (hd : Nat) (s : State) : Host.Outcome State Fault Refusal := onWf (.tenderRestart hd) (tenderRestartEffect hd s)
def execTenderRestartDone (hd : Nat) (s : State) : Host.Outcome State Fault Refusal := onWf (.tenderRestartDone hd) (tenderRestartDoneEffect hd s)

end Sys2Proof.Machine
end

