-- ==== Sys2Proof/Machine/Float.lean ====
section
/-! DEFINITION. Number formats (Table 02-1), rounding (R43, R60 to R63), IEEE 754-2019 operations of the
vector engine (R102) and its table functions. Values are exact: sign, integer significand, exponent. -/

namespace Sys2Proof.Machine

/-- An exact value: (-1)^neg × m × 2^e, an infinity, or NaN. The sign of a zero is kept. -/
inductive FVal where
  | fin (neg : Bool) (m : Nat) (e : Int)
  | inf (neg : Bool)
  | nan
  deriving DecidableEq, Repr

/-- The element formats of Table 02-1 in the order of their fmt codes (Table 03-4), and the Dray's UINT8 (R361). -/
inductive Fmt where
  | fp4 | int4 | e4m3 | e5m2 | e3m2 | e2m3 | mxint8 | int8 | bf16 | fp16 | fp32 | int16 | uint8
  deriving DecidableEq, Repr

/-- The fmt code of Table 03-4; 0xC only where R361 admits UINT8; none for a reserved code. -/
def Fmt.ofCode (c : Nat) : Option Fmt :=
  [Fmt.fp4, .int4, .e4m3, .e5m2, .e3m2, .e2m3, .mxint8, .int8, .bf16, .fp16, .fp32, .int16, .uint8][c]?

/-- Bits of one element. -/
def Fmt.bits : Fmt → Nat
  | .fp4 | .int4 => 4
  | .e3m2 | .e2m3 => 6
  | .e4m3 | .e5m2 | .mxint8 | .int8 | .uint8 => 8
  | .bf16 | .fp16 | .int16 => 16
  | .fp32 => 32

/-- Whether the format carries E8M0 block scales over 32 elements (R37). -/
def Fmt.isMx : Fmt → Bool
  | .e4m3 | .e5m2 | .e3m2 | .e2m3 | .fp4 | .mxint8 => true
  | _ => false

/-- Whether the format has a single per-tensor scale (R37). -/
def Fmt.isPerTensor : Fmt → Bool
  | .int8 | .int4 | .int16 => true
  | _ => false

/-- A binary floating-point layout: exponent bits, mantissa bits, bias, and whether the top exponent holds
infinity and NaN (`ieee`) or only all-ones is NaN (`onlyNan`). -/
structure FpSpec where
  eb : Nat
  mb : Nat
  bias : Nat
  ieee : Bool
  onlyNan : Bool
  deriving DecidableEq, Repr

def spFp32 : FpSpec := ⟨8, 23, 127, true, false⟩
def spBf16 : FpSpec := ⟨8, 7, 127, true, false⟩
def spFp16 : FpSpec := ⟨5, 10, 15, true, false⟩
def spE4m3 : FpSpec := ⟨4, 3, 7, false, true⟩
def spE5m2 : FpSpec := ⟨5, 2, 15, true, false⟩
def spE3m2 : FpSpec := ⟨3, 2, 3, false, false⟩
def spE2m3 : FpSpec := ⟨2, 3, 1, false, false⟩
def spFp4 : FpSpec := ⟨2, 1, 1, false, false⟩

/-- The exponent of a layout's smallest non-zero magnitude. -/
def FpSpec.lsb (s : FpSpec) : Int := 1 - (s.bias : Int) - s.mb

/-- The code of a layout's largest finite magnitude. -/
def FpSpec.maxCode (s : FpSpec) : Nat :=
  if s.ieee then (2 ^ s.eb - 1) * 2 ^ s.mb - 1
  else if s.onlyNan then 2 ^ (s.eb + s.mb) - 2
  else 2 ^ (s.eb + s.mb) - 1

/-- The value of a code of a floating-point layout; subnormals at their exact value (R33). -/
def FpSpec.decode (s : FpSpec) (c : Nat) : FVal :=
  let neg := bit c (s.eb + s.mb)
  let ex := fld c (s.eb + s.mb - 1) s.mb
  let man := c % 2 ^ s.mb
  if s.ieee && ex == 2 ^ s.eb - 1 then (if man = 0 then .inf neg else .nan)
  else if s.onlyNan && c % 2 ^ (s.eb + s.mb) == 2 ^ (s.eb + s.mb) - 1 then .nan
  else if ex = 0 then .fin neg man s.lsb
  else .fin neg (man + 2 ^ s.mb) (s.lsb + ((ex - 1 : Nat) : Int))

/-- An integer as an exact value with the exponent of its unit. -/
def intVal (i : Int) (e : Int) : FVal := .fin (decide (i < 0)) i.natAbs e

/-- The layout of a floating-point element format. -/
def Fmt.spec? : Fmt → Option FpSpec
  | .fp4 => some spFp4
  | .e4m3 => some spE4m3
  | .e5m2 => some spE5m2
  | .e3m2 => some spE3m2
  | .e2m3 => some spE2m3
  | .bf16 => some spBf16
  | .fp16 => some spFp16
  | .fp32 => some spFp32
  | _ => none

/-- The value of an element code before any block scale (Table 02-1). -/
def Fmt.decode (f : Fmt) (c : Nat) : FVal :=
  match f with
  | .fp4 => spFp4.decode c
  | .e4m3 => spE4m3.decode c
  | .e5m2 => spE5m2.decode c
  | .e3m2 => spE3m2.decode c
  | .e2m3 => spE2m3.decode c
  | .bf16 => spBf16.decode c
  | .fp16 => spFp16.decode c
  | .fp32 => spFp32.decode c
  | .int4 => intVal (sext 4 c) 0
  | .mxint8 => intVal (sext 8 c) (-6)
  | .int8 => intVal (sext 8 c) 0
  | .int16 => intVal (sext 16 c) 0
  | .uint8 => .fin false (c % 256) 0

/-- A value times 2^k. -/
def FVal.scale (v : FVal) (k : Int) : FVal :=
  match v with
  | .fin n m e => .fin n m (e + k)
  | v => v

/-- A value under an E8M0 block scale: code 0xFF is NaN (R37). -/
def FVal.scaled (v : FVal) (c : Nat) : FVal := if c = 255 then .nan else v.scale ((c : Int) - 127)

/-- The value negated. -/
def FVal.negate : FVal → FVal
  | .fin n m e => .fin (!n) m e
  | .inf n => .inf (!n)
  | .nan => .nan

/-- The signed integer of a finite value on the grid of exponent `g ≤ e`. -/
def onGrid (n : Bool) (m : Nat) (e g : Int) : Int :=
  let q : Int := (m <<< (e - g).toNat : Nat)
  if n then -q else q

/-- The exact sum, with the IEEE zero sign under RNE: +0 unless both are negative zeros. -/
def FVal.add (a b : FVal) : FVal :=
  match a, b with
  | .nan, _ => .nan
  | _, .nan => .nan
  | .inf x, .inf y => if x = y then .inf x else .nan
  | .inf x, .fin _ _ _ => .inf x
  | .fin _ _ _, .inf y => .inf y
  | .fin n m e, .fin n' m' e' =>
    let g := min e e'
    let t := onGrid n m e g + onGrid n' m' e' g
    if t = 0 then .fin (n && n') 0 g else .fin (decide (t < 0)) t.natAbs g

/-- The exact product (R44 for special values; the same rule is IEEE's). -/
def FVal.mul (a b : FVal) : FVal :=
  match a, b with
  | .nan, _ => .nan
  | _, .nan => .nan
  | .inf x, .inf y => .inf (x != y)
  | .inf x, .fin n m _ => if m = 0 then .nan else .inf (x != n)
  | .fin n m _, .inf y => if m = 0 then .nan else .inf (n != y)
  | .fin n m e, .fin n' m' e' => .fin (n != n') (m * m') (e + e')

/-- Whether a < b among non-NaN values, −0 below +0 (`VMAX`, `VMIN` of R102). -/
def FVal.lt (a b : FVal) : Bool :=
  match a, b with
  | .nan, _ => false
  | _, .nan => false
  | .inf x, .inf y => x && !y
  | .inf x, .fin _ _ _ => x
  | .fin _ _ _, .inf y => !y
  | .fin n m e, .fin n' m' e' =>
    let g := min e e'
    let x := onGrid n m e g
    let y := onGrid n' m' e' g
    if x = 0 && y = 0 then n && !n' else decide (x < y)

/-- Whether a = b as numbers (−0 equals +0). -/
def FVal.eqv (a b : FVal) : Bool :=
  match a, b with
  | .inf x, .inf y => x == y
  | .fin n m e, .fin n' m' e' =>
    let g := min e e'
    onGrid n m e g == onGrid n' m' e' g
  | _, _ => false

def FVal.isNan : FVal → Bool
  | .nan => true
  | _ => false

/-- maximumNumber of IEEE 754-2019 (R102). -/
def FVal.maxNum (a b : FVal) : FVal :=
  if a.isNan then b else if b.isNan then a else if a.lt b then b else a

/-- minimumNumber of IEEE 754-2019 (R102). -/
def FVal.minNum (a b : FVal) : FVal :=
  if a.isNan then b else if b.isNan then a else if b.lt a then b else a

/-- How a result is rounded: nearest even, or by DSR with the 32-bit draw (R63). -/
inductive Rnd where
  | rne
  | dsr (draw : Nat)
  deriving DecidableEq, Repr

/-- m / 2^k rounded (R43's rne_shift, and R63). -/
def roundShift (m k : Nat) (r : Rnd) : Nat :=
  let q := m >>> k
  let rem := m - q <<< k
  match r with
  | .rne =>
    if k = 0 then m
    else if rem > 2 ^ (k - 1) || (rem == 2 ^ (k - 1) && q % 2 == 1) then q + 1 else q
  | .dsr draw =>
    if rem = 0 then q
    else if 2 ^ 32 ≤ (rem <<< 32) >>> k + draw then q + 1 else q

/-- The magnitude m × 2^e in units of 2^p, rounded. -/
def roundAt (m : Nat) (e p : Int) (r : Rnd) : Nat :=
  if p ≤ e then m <<< (e - p).toNat else roundShift m (p - e).toNat r

/-- floor(log2 (m × 2^e)) of a non-zero magnitude. -/
def floorLog2 (m : Nat) (e : Int) : Int := (Nat.log2 m : Int) + e

/-- What a code overflows to (Table 02-8). -/
inductive Overflow where
  | infinity | saturate
  deriving DecidableEq, Repr

/-- The code of a magnitude in a layout: rounded once at its position; subnormals at their exact rounded value. -/
def FpSpec.magCode (s : FpSpec) (m : Nat) (e : Int) (r : Rnd) : Nat :=
  if m = 0 then 0
  else
    let p := max s.lsb (floorLog2 m e - s.mb)
    (p - s.lsb).toNat * 2 ^ s.mb + roundAt m e p r

/-- The sign bit of a layout in place. -/
def FpSpec.signed (s : FpSpec) (n : Bool) (c : Nat) : Nat := if n then c + 2 ^ (s.eb + s.mb) else c

/-- The canonical NaN of a layout (Table 02-8); a layout without NaN gives 0. -/
def FpSpec.nanCode (s : FpSpec) : Nat :=
  if s.ieee then (2 ^ s.eb - 1) * 2 ^ s.mb + 2 ^ (s.mb - 1)
  else if s.onlyNan then 2 ^ (s.eb + s.mb) - 1 else 0

/-- The code of infinity, for a layout that has one; otherwise of the largest finite magnitude (Table 02-8). -/
def FpSpec.infCode (s : FpSpec) : Nat := if s.ieee then (2 ^ s.eb - 1) * 2 ^ s.mb else s.maxCode

/-- The code of a value: one rounding, then Table 02-8. -/
def FpSpec.encode (s : FpSpec) (r : Rnd) (v : FVal) : Nat :=
  match v with
  | .nan => s.nanCode
  | .inf n => s.signed n s.infCode
  | .fin n m e =>
    let c := s.magCode m e r
    s.signed n (if s.maxCode < c then s.infCode else c)

/-- The code of a drained value: as `encode`, and a zero result is +0 (R60). -/
def FpSpec.drain (s : FpSpec) (r : Rnd) (v : FVal) : Nat :=
  match v with
  | .fin n m e =>
    let c := s.magCode m e r
    if c = 0 then 0 else s.signed n (if s.maxCode < c then s.infCode else c)
  | v => s.encode r v

/-- An MXINT8 element of a value already divided by its block scale (R61). -/
def mxint8Code (r : Rnd) (v : FVal) : Nat :=
  match v with
  | .nan => 0
  | .inf n => if n then 0x80 else 0x7F
  | .fin n m e =>
    let q := roundAt m e (-6) r
    if n then toCode 8 (-((min q 128 : Nat) : Int)) else min q 127

/-! ### The floating-point types of the vector engine -/

/-- The vector engine's floating-point types (Table 04-3). -/
inductive FpType where
  | fp32 | bf16 | fp16
  deriving DecidableEq, Repr

def FpType.spec : FpType → FpSpec
  | .fp32 => spFp32
  | .bf16 => spBf16
  | .fp16 => spFp16

/-- Bytes of an element. -/
def FpType.size : FpType → Nat
  | .fp32 => 4
  | _ => 2

/-- One IEEE operation: the exact result rounded once with RNE (R102). -/
def fpRound (t : FpType) (v : FVal) : Nat := t.spec.encode .rne v

/-! ### Table functions, correctly rounded (R102, Table 04-6) -/

/-- Bits of the fixed-point working precision of the table functions. -/
def tfPrec : Nat := 320

/-- ln 2 in units of 2^-tfPrec, by the series of 1 / (k 2^k) (truncated from below). -/
def ln2Fix : Nat := (List.range (tfPrec + 8)).foldl (fun s k => s + 2 ^ tfPrec / ((k + 1) * 2 ^ (k + 1))) 0

/-- The terms r^k / k! of e^r in units of 2^-tfPrec, summed. -/
def expSeries : Nat → (r k term sum : Nat) → Nat
  | 0, _, _, _, sum => sum
  | f + 1, r, k, term, sum =>
    let t := term * r / 2 ^ tfPrec / k
    expSeries f r (k + 1) t (sum + t)

/-- e^x for a finite non-zero x of magnitude below 1024, as (significand with a sticky last bit, exponent). -/
def expFix (n : Bool) (m : Nat) (e : Int) : Nat × Int :=
  let a : Nat := if 0 ≤ e + tfPrec then m <<< (e + tfPrec).toNat else m >>> (-(e + tfPrec)).toNat
  let x : Int := if n then -(a : Int) else a
  let k : Int := x / (ln2Fix : Int)
  let r : Nat := (x - k * ln2Fix).toNat
  let y := expSeries 80 r 1 (2 ^ tfPrec) (2 ^ tfPrec)
  (2 * y + 1, k - tfPrec - 1)

/-- VEXP (Table 04-6). An argument of magnitude 2^10 or more overflows or vanishes in every type; one below
2^-200 rounds as 1 plus or minus a sticky amount. -/
def vexpVal (v : FVal) : FVal :=
  match v with
  | .nan => .nan
  | .inf n => if n then .fin false 0 0 else .inf false
  | .fin n m e =>
    if m = 0 then .fin false 1 0
    else if 10 ≤ floorLog2 m e then (if n then .fin false 1 (-4096) else .inf false)
    else if floorLog2 m e < -200 then (if n then .fin false (2 ^ 300 - 1) (-300) else .fin false (2 ^ 300 + 1) (-300))
    else
      let (y, k) := expFix n m e
      .fin false y k

/-- The terms z^(2k+1) / (2k+1) of atanh z in units of 2^-tfPrec, summed. -/
def atanhSeries : Nat → (z2 k term sum : Nat) → Nat
  | 0, _, _, _, sum => sum
  | f + 1, z2, k, term, sum =>
    atanhSeries f z2 (k + 2) (term * z2 / 2 ^ tfPrec) (sum + term / k)

/-- ln of a positive finite value in units of 2^-tfPrec. -/
def lnFix (m : Nat) (e : Int) : Int :=
  let l := Nat.log2 m
  let one := 2 ^ l
  let z := (m - one) * 2 ^ tfPrec / (m + one)
  let s := atanhSeries 110 (z * z / 2 ^ tfPrec) 1 z 0
  ((l : Int) + e) * (ln2Fix : Int) + 2 * (s : Int)

/-- VLOG (Table 04-6). ln 1 is +0. -/
def vlogVal (v : FVal) : FVal :=
  match v with
  | .nan => .nan
  | .inf n => if n then .nan else .inf false
  | .fin n m e =>
    if m = 0 then .inf true
    else if n then .nan
    else if m = 2 ^ Nat.log2 m && (Nat.log2 m : Int) + e == 0 then .fin false 0 0
    else
      let y := lnFix m e
      .fin (decide (y < 0)) (2 * y.natAbs + 1) (-(tfPrec : Int) - 1)

/-- floor of the square root, from bit `n` − 1 down. -/
def isqrt (x : Nat) : Nat → Nat → Nat
  | 0, r => r
  | n + 1, r =>
    let r' := r + 2 ^ n
    if r' * r' ≤ x then isqrt x n r' else isqrt x n r

/-- VRSQRT (Table 04-6): the integer square root with a sticky last bit decides every rounding. -/
def vrsqrtVal (v : FVal) : FVal :=
  match v with
  | .nan => .nan
  | .inf n => if n then .nan else .fin false 0 0
  | .fin n m e =>
    if m = 0 then .inf n
    else if n then .nan
    else
      let m' := if e % 2 = 0 then m else 2 * m
      let e' := if e % 2 = 0 then e else e - 1
      let q := isqrt (2 ^ 256 / m') 129 0
      .fin false (if q * q * m' = 2 ^ 256 then 2 * q else 2 * q + 1) (-(e' / 2) - 129)

/-- +1, −1, the zero of the operand's sign, or NaN (VSIGN, Table 04-4). -/
def vsignVal (v : FVal) : FVal :=
  match v with
  | .nan => .nan
  | .inf n => .fin n 1 0
  | .fin n m e => if m = 0 then .fin n 0 e else .fin n 1 0

/-! ### DSR draws (R63) -/

/-- The four rounds of dsr_draw. -/
def dsrRounds : Nat → BitVec 64 → BitVec 64 → BitVec 64
  | 0, x, _ => x
  | n + 1, x, y =>
    let x1 := (x ^^^ (x >>> 31)) * 0xA3C59AC2D1F70E6B#64
    let x2 := x1 + y
    let x3 := rotl64 x2 23 ^^^ y
    dsrRounds n x3 (y * 0x9B1F5E37C2A14D8F#64)

/-- `dsr_draw` of R63. -/
def dsrDraw (seed tensorId index : Nat) : Nat :=
  let x := BitVec.ofNat 64 seed ^^^ BitVec.ofNat 64 index
  let y := BitVec.ofNat 64 (2 * tensorId + 1)
  let z := dsrRounds 4 x y
  ((z ^^^ (z >>> 29)) >>> 32).toNat

/-- The rounding an output uses at one element: RNE, or DSR with the draw of its index (R64). -/
def rndFor (dsr : Bool) (seed tensorId index : Nat) : Rnd :=
  if dsr then .dsr (dsrDraw seed tensorId index) else .rne

end Sys2Proof.Machine
end

