-- ==== Sys2Proof/Machine/A128.lean ====
section
/-! DEFINITION. The A128 accumulator (R40 to R46), block scales (R37 to R39) and drains (R60 to R63). -/

namespace Sys2Proof.Machine

/-- An A128 code (Table 02-3). -/
abbrev A128 := BitVec 128

def a128Nan : Int := -(2 ^ 127)
def a128NegInf : Int := -(2 ^ 127) + 1
def a128PosInf : Int := 2 ^ 127 - 1
/-- FIN_MAX of R40. -/
def finMax : Int := 2 ^ 127 - 2

/-- Whether an A128 integer is a special code. -/
def a128Special (n : Int) : Bool := n == a128Nan || n == a128NegInf || n == a128PosInf

/-- `grid_round` of R43 with its overflow. -/
def gridRound (neg : Bool) (m : Nat) (e anchor : Int) : Int × Bool :=
  let q := roundAt m e (anchor - 96) .rne
  let ovf := decide (2 ^ 93 ≤ q)
  let q' := if ovf then 2 ^ 93 - 1 else q
  (if neg then -(q' : Int) else q', ovf)

/-- The term of an exact value at an anchor: special values by Table 02-4, finite ones by `gridRound`. -/
def termOf (v : FVal) (anchor : Int) : Int × Bool :=
  match v with
  | .nan => (a128Nan, false)
  | .inf n => (if n then a128NegInf else a128PosInf, false)
  | .fin n m e => gridRound n m e anchor

/-- A term negated: NaN unchanged, infinities exchanged (R53). -/
def termNeg (t : Int) : Int :=
  if t = a128Nan then a128Nan
  else if t = a128NegInf then a128PosInf
  else if t = a128PosInf then a128NegInf
  else -t

/-- `special_sum` of Table 02-5. -/
def specialSum (x y : Int) : Int :=
  if x = a128Nan || y = a128Nan then a128Nan
  else if x = a128PosInf then (if y = a128NegInf then a128Nan else a128PosInf)
  else if x = a128NegInf then (if y = a128PosInf then a128Nan else a128NegInf)
  else y

/-- `acc_add` of R45 with its overflow. -/
def accAdd (x y : Int) : Int × Bool :=
  if a128Special x || a128Special y then (specialSum x y, false)
  else
    let t := x + y
    if finMax < t then (finMax, true)
    else if t < -finMax then (-finMax, true)
    else (t, false)

/-- The A128 integer as the exact value it means at an anchor (Table 02-3). -/
def a128Val (n anchor : Int) : FVal :=
  if n = a128Nan then .nan
  else if n = a128PosInf then .inf false
  else if n = a128NegInf then .inf true
  else .fin (decide (n < 0)) n.natAbs (anchor - 96)

/-- The explicit re-anchor of R42 with its overflow: left shift saturating, right shift with RNE. -/
def reanchor (n src dst : Int) : Int × Bool :=
  if a128Special n then (n, false)
  else
    let q := roundAt n.natAbs (src - 96) (dst - 96) .rne
    let ovf := decide (finMax < (q : Int))
    let q' : Int := if ovf then finMax else q
    (if n < 0 then -q' else q', ovf)

/-- The A128 code of an integer. -/
def a128Of (n : Int) : A128 := BitVec.ofInt 128 n

/-- The drain formats in the order of their codes (Table 03-4). -/
inductive OutFmt where
  | a128 | fp32 | bf16 | fp16 | ptE4m3 | ptE5m2 | mxE4m3 | mxE5m2 | mxE3m2 | mxE2m3 | mxE2m1 | mxInt8
  deriving DecidableEq, Repr

def OutFmt.ofCode (c : Nat) : Option OutFmt :=
  [OutFmt.a128, .fp32, .bf16, .fp16, .ptE4m3, .ptE5m2, .mxE4m3, .mxE5m2, .mxE3m2, .mxE2m3, .mxE2m1, .mxInt8][c]?

/-- Bits of one drained element. -/
def OutFmt.bits : OutFmt → Nat
  | .a128 => 128
  | .fp32 => 32
  | .bf16 | .fp16 => 16
  | .ptE4m3 | .ptE5m2 | .mxE4m3 | .mxE5m2 | .mxInt8 => 8
  | .mxE3m2 | .mxE2m3 => 6
  | .mxE2m1 => 4

def OutFmt.isMx : OutFmt → Bool
  | .mxE4m3 | .mxE5m2 | .mxE3m2 | .mxE2m3 | .mxE2m1 | .mxInt8 => true
  | _ => false

def OutFmt.isPerTensorFp8 : OutFmt → Bool
  | .ptE4m3 | .ptE5m2 => true
  | _ => false

/-- The element layout of a drain format that has one. -/
def OutFmt.spec? : OutFmt → Option FpSpec
  | .fp32 => some spFp32
  | .bf16 => some spBf16
  | .fp16 => some spFp16
  | .ptE4m3 | .mxE4m3 => some spE4m3
  | .ptE5m2 | .mxE5m2 => some spE5m2
  | .mxE3m2 => some spE3m2
  | .mxE2m3 => some spE2m3
  | .mxE2m1 => some spFp4
  | .a128 | .mxInt8 => none

/-- e_max of R62. -/
def OutFmt.eMax : OutFmt → Int
  | .mxE4m3 => 8
  | .mxE5m2 => 15
  | .mxE3m2 => 4
  | .mxE2m3 => 2
  | .mxE2m1 => 2
  | _ => 0

/-- The code of one element of a value already divided by its scale. -/
def OutFmt.elem (f : OutFmt) (r : Rnd) (v : FVal) : Nat :=
  match f.spec? with
  | some s => s.drain r v
  | none => mxint8Code r v

/-- The code of one element rounded from a value that is not an A128 sum: BF16 and FP16 keep the sign of a zero result, since R60's
+0 is a drain's (R106, R111). -/
def OutFmt.cast (f : OutFmt) (r : Rnd) (v : FVal) : Nat :=
  match f with
  | .bf16 => spBf16.encode r v
  | .fp16 => spFp16.encode r v
  | f => f.elem r v

/-- The value of an element code of a drain format before any scale. -/
def OutFmt.decode (f : OutFmt) (c : Nat) : FVal :=
  match f.spec? with
  | some s => s.decode c
  | none => intVal (sext 8 c) (-6)

/-- A scale code checked against the window [w, w + 31] (R39); tells whether it was replaced. -/
def clampScale (w : Nat) (c : Nat) : Nat × Bool :=
  if c = 255 then (255, false)
  else if c < w then (w, true)
  else if w + 31 < c then (w + 31, true)
  else (c, false)

/-- The output scale of an MX block from its written values (R62): code and whether the window replaced it. -/
def blockScale (f : OutFmt) (w : Nat) (vs : List FVal) : Nat × Bool :=
  if vs.any FVal.isNan then (255, false)
  else
    let logs := vs.filterMap (fun v => match v with
      | .fin _ m e => if m = 0 then none else some (floorLog2 m e)
      | _ => none)
    match logs with
    | [] => (w, false)
    | l :: ls =>
      let c := ls.foldl max l - f.eMax + 127
      if c < w then (w, true) else if (w : Int) + 31 < c then (w + 31, true) else (c.toNat, false)

/-- The codes of an MX block under its scale: zero in a NaN block (R61), else each element rounded once. -/
def blockElems (f : OutFmt) (scale : Nat) (vs : List (FVal × Rnd)) : List Nat :=
  vs.map (fun p => if scale = 255 then 0 else f.elem p.2 (p.1.scale (127 - (scale : Int))))

/-- One element drained to a format without block scales: A128 unchanged, FP types, per-tensor FP8 divided by
its scale (R60). -/
def drainPlain (f : OutFmt) (outScale : Nat) (n anchor : Int) (r : Rnd) : Nat :=
  match f with
  | .a128 => toCode 128 n
  | .ptE4m3 | .ptE5m2 => f.elem r ((a128Val n anchor).scale (127 - (outScale : Int)))
  | f => f.elem r (a128Val n anchor)

end Sys2Proof.Machine
end

