-- ==== Sys2Proof/Machine/TileMem.lean ====
section
/-! DEFINITION. Tile SRAM and exchange SRAM: who may reach a bank, reads and writes of tile bytes, bank grants
(R121 to R136). -/

namespace Sys2Proof.Machine

/-- Bank 0 to 3 of a tile byte address, 4 for the exchange SRAM (Table 05-1). -/
def bankOf (a : Nat) : Option Nat :=
  if a < 0x180000 then some (a / 0x60000) else if a < 0x190000 then some 4 else none

/-- The codes of a bank's owner in `Tile.owner`. -/
def ownFeeder := 1
def ownVector := 2
def ownExchange := 4
def ownDray (d : Nat) : Nat := 8 + d

/-- The present owner of a bank; after a reset it has none (R126). -/
def bankOwner (s : State) (t b : Nat) : Nat := tblGet 0 (tileOf s t).owner b

/-- Whether a requester may reach a bank: its owner, or for the exchange SRAM any but the feeder (R122, R129). -/
def mayReach (s : State) (t who b : Nat) : Bool := if b = 4 then who ≠ ownFeeder else bankOwner s t b == who

/-- First byte and length of each memory of a tile. -/
def bankSpan (b : Nat) : Nat × Nat := if b = 4 then (0x180000, 0x10000) else (b * 0x60000, 0x60000)

/-- The memories that a byte range touches. -/
def banksOf (a n : Nat) : List Nat := (List.range 5).filter (fun b => overlap a n (bankSpan b).1 (bankSpan b).2)

/-- An access by one that does not own a bank: the tile is treated as failed and retired (R127, Table 17-5). -/
def mismatch (s : State) (t who a n : Nat) : Bool := (banksOf a n).any (fun b => !mayReach s t who b)

/-- A byte of a tile as a requester reads it: zero where it may not reach the bank (R127). -/
def tileByte (s : State) (t who a : Nat) : Byte :=
  match bankOf a with
  | some b => if mayReach s t who b then memGet s.tileMem (t * 0x200000 + a) else 0
  | none => 0

/-- Bytes of a tile as a requester reads them. -/
def tileRead (s : State) (t who a n : Nat) : List Byte :=
  if mismatch s t who a n then (List.range n).map (fun i => tileByte s t who (a + i)) else memRead s.tileMem (t * 0x200000 + a) n

def tileLe (s : State) (t who a n : Nat) : Nat := leNat (tileRead s t who a n)

/-! ### Test steps and check bits (R134, R138) -/

def testOf (s : State) (t m : Nat) : TestSt := tblGet {} (tileOf s t).tests m
def setTest (t m : Nat) (x : TestSt) (s : State) : State := setTile t { tileOf s t with tests := tblSet m x (tileOf s t).tests } s

/-- A test step ends abandoned: it is repeated at a later window (R138, R141). -/
def abandonStep (t m : Nat) (s : State) : State :=
  bump 0x0202 (8 * t + m) 1 (setTest t m { testOf s t m with save := [], startAt := none } s)

/-- An access ends the test steps of the memories it meets (R138). -/
def endSteps (t a n : Nat) (s : State) : State :=
  (banksOf a n).foldl (fun s m => if (testOf s t m).startAt.isSome then abandonStep t m s else s) s

/-- Words of a byte range that hold erroneous bits: their number, and how many bits. -/
def errWords (s : State) (t a n : Nat) : List (Nat × Nat) := s.tileErr.filter (fun e => overlap (e.1 * 16) 16 (t * 0x200000 + a) n)

/-- The memory of a word of `tileMem`. -/
def wordMem (w : Nat) : Nat := (bankOf (w * 16 % 0x200000)).getD 4

/-- Corrected errors count, up to the counter's end (R134). -/
def countCorrected (t m n : Nat) (s : State) : State := bump 0x0200 (8 * t + m) (min n (max32 - ctrGet s 0x0200 (8 * t + m))) s

/-- A read meets the errors of its words: a single one is corrected and counted, and stays in memory; a double one retires the
tile, and the reading action with its epoch is abandoned (R134). -/
def eccRead (t a n : Nat) (s : State) : State :=
  let es := errWords s t a n
  let s1 := (es.filter (fun e => e.2 == 1)).foldl (fun s e => countCorrected t (wordMem e.1) 1 s) s
  if es.any (fun e => decide (1 < e.2)) then retireTile t 1 s1 else s1

/-- A write stores valid check bits: words written whole are free of errors, and the merge of a part corrects a single one. -/
def eccWrite (t a n : Nat) (s : State) : State :=
  { s with tileErr := s.tileErr.filter (fun e => !overlap (e.1 * 16) 16 (t * 0x200000 + a) n || (decide (1 < e.2) && !inside (e.1 * 16) 16 (t * 0x200000 + a) n)) }

/-- What an access does beside its data: it ends test steps, and one that meets a bank its requester does not own retires the
tile (R127, R138). -/
def checkReach (t who a n : Nat) (s : State) : State :=
  let s1 := endSteps t a n s
  if mismatch s1 t who a n then retireTile t 2 s1 else s1

/-- What a read does beside its data. -/
def readReach (t who a n : Nat) (s : State) : State := eccRead t a n (checkReach t who a n s)

/-- One byte written by a requester, discarded where it may not reach the bank or no memory lies there. -/
def tilePut (t who : Nat) (a : Nat) (v : Byte) (s : State) : State :=
  match bankOf a with
  | some b => if mayReach s t who b then { s with tileMem := memSet (t * 0x200000 + a) v s.tileMem } else s
  | none => s

/-- Bytes written by a requester from an address up. -/
def tilePuts (t who : Nat) : Nat → List Byte → State → State
  | _, [], s => s
  | a, b :: bs, s => tilePuts t who (a + 1) bs (tilePut t who a b s)

def tileWrite (t who a : Nat) (bs : List Byte) (s : State) : State :=
  tilePuts t who a bs (if mismatch s t who a bs.length then s else eccWrite t a bs.length s)

/-- A field of `w` bits at bit `o` of the bytes from `a` (R35): the bytes it lies in are merged (R132). -/
def tileBits (t who a o w v : Nat) (s : State) : State :=
  let b := a + o / 8
  let n := (o % 8 + w + 7) / 8
  let old := tileLe s t who b n
  tileWrite t who b (leBytes n (setFld old (o % 8 + w - 1) (o % 8) v)) s

/-! ### Bank grants (R123 to R126) -/

/-- The owner code and Dray number for a bank in a grant (Table 05-2). -/
def grantCode (d : List Word) (b : Nat) : Nat := wf (wd d 0) (36 + 9 * b) (34 + 9 * b)
def grantDray (d : List Word) (b : Nat) : Nat := wf (wd d 0) (33 + 9 * b) (28 + 9 * b)

/-- The owner that a grant names for a bank; none where it leaves the bank unchanged (Table 05-3). -/
def grantOwner (d : List Word) (b : Nat) : Option Nat :=
  match grantCode d b with
  | 1 => some 0
  | 2 => some ownFeeder
  | 3 => some ownVector
  | 4 => some (ownDray (grantDray d b))
  | 5 => some ownExchange
  | _ => none

/-- A grant takes effect (R123, R125). -/
def applyGrant (t : Nat) (d : List Word) (s : State) : State :=
  let x := tileOf s t
  let step := fun (o : Tbl Nat) (b : Nat) => match grantOwner d b with
    | some w => tblSet b w o
    | none => o
  setTile t { x with owner := (List.range 4).foldl step x.owner } s

end Sys2Proof.Machine
end

