-- ==== Sys2Proof/Machine/Collective.lean ====
section
/-! DEFINITION. Collective actions and their packets: rings, rounds, barriers and the fixed-tree fallback
(R59, R65 to R67, R337 to R344). -/

namespace Sys2Proof.Machine

/-! ### The descriptor (Table 12-11) -/

def collRing (d : List Word) : Nat := wf (wd d 0) 63 60
def collOut (d : List Word) : Nat := wf (wd d 0) 59 58
def collAnchor (d : List Word) : Int := sext 10 (wf (wd d 0) 57 48)
def collN (d : List Word) : Nat := wf (wd d 0) 47 16 + 1
def collType (d : List Word) : Nat := wf (wd d 0) 5 0
/-- An operand word: UMR or not, logical tile, address. -/
def collUmr (w : Word) : Bool := bit w.toNat 63
def collTile (w : Word) : Nat := wf w 62 53
def collAddr (w : Word) : Nat := if collUmr w then wf w 42 0 else wf w 20 0
def collFlagEn (d : List Word) : Bool := bit (wd d 3).toNat 63
def collFlagAddr (d : List Word) : Nat := wf (wd d 3) 42 0
def collAnchorAddr (d : List Word) : Nat := wf (wd d 5) 42 0

/-- A ring of the route table. -/
def ringOf (s : State) (k : Nat) : RtRing := match s.route with | some r => tblGet {} r.rings k | none => {}

/-- Bytes of an element of the source. -/
def collEsize (ty : Nat) : Nat := if ty = 0x13 then 4 else 16

/-! ### Reads and writes of an engine (R338) -/

def collRead (e : Nat) (w : Word) (n : Nat) (s : State) : List Byte × State :=
  if collUmr w then cohRead (.collective e) (collAddr w) n none s
  else match physOf s (collTile w) with
    | some t => (tileRead s t ownExchange (collAddr w) n, readReach t ownExchange (collAddr w) n s)
    | none => (List.replicate n 0, s)

def collWrite (e : Nat) (w : Word) (off : Nat) (bs : List Byte) (s : State) : State :=
  if bs.isEmpty then s
  else if collUmr w then cohWrite (.collective e) (collAddr w + off) bs none s
  else match physOf s (collTile w) with
    | some t => checkReach t ownExchange (collAddr w + off) bs.length (tileWrite t ownExchange (collAddr w + off) bs s)
    | none => s

/-! ### Blocks and packets (R340) -/

/-- Block `b` of `n` elements over `k` positions: first element and count (log 27). -/
def blockOf (n k b : Nat) : Nat × Nat :=
  let z := ceilDiv n (max k 1)
  (min n (b * z), min z (n - min n (b * z)))

/-- Sends elements from `off` in packets of up to 30 slots. -/
def emit (e : Nat) (c : Coll) (step : Nat) (exps : Bool) (off : Nat) (xs : List (BitVec 128)) (s : State) : State :=
  ((chunks 30 (xs.length / 30 + 1) xs).zip (List.range (xs.length / 30 + 1))).foldl (fun s p =>
    send (.collective { engine := e, ring := c.ring, entry := c.entry, origin := (ringOf s c.ring).pos, step := step, ovf := c.ovf,
                        clamp := c.clamp, exponents := exps, attempt := c.attempt, epoch := c.epoch, offset := off + 30 * p.2,
                        elems := p.1 }) s) s

def setColl (e : Nat) (c : Coll) (s : State) : State := { s with colls := tblSet e c s.colls }

def a128Codes (xs : List Int) : List (BitVec 128) := xs.map a128Of

/-- The member's contribution of block (pos − 1) starts the ring, so that block i ends at position i (R337; log 27). -/
def startSums (e : Nat) (c : Coll) (s : State) : State :=
  let g := ringOf s c.ring
  let (o, n) := blockOf c.own.length g.size ((g.pos + g.size - 1) % max g.size 1)
  emit e c 0 false o (a128Codes ((c.own.drop o).take n)) s

/-- Eight int16 exponents of a slot (R341). -/
def packExps (xs : List Int) : BitVec 128 := BitVec.ofNat 128 ((padTo 8 (-149) xs).foldr (fun x n => n * 65536 + toCode 16 x) 0)
def unpackExps (v : BitVec 128) : List Int := (List.range 8).map (fun i => sext 16 (fld v.toNat (16 * i + 15) (16 * i)))

def expSlots (c : Coll) (f : Nat → Int) : List (BitVec 128) :=
  (List.range (ceilDiv c.exps.length 8)).map (fun k => packExps ((List.range (min 8 (c.exps.length - 8 * k))).map (fun i => f (8 * k + i))))

def startExps (e : Nat) (c : Coll) (s : State) : State :=
  let g := ringOf s c.ring
  let slots := expSlots c (fun i => c.exps.getD i (-149))
  let (o, n) := blockOf slots.length g.size ((g.pos + g.size - 1) % max g.size 1)
  emit e c 0 true o ((slots.drop o).take n) s

/-! ### Completion -/

/-- E_max of a block of FP32 codes (R67). -/
def blockMax (xs : List Int) : Int :=
  xs.foldl (fun m x => match spFp32.decode x.toNat with
    | .fin _ k e => if k = 0 then m else max m (floorLog2 k e)
    | _ => m) (-149)

/-- A gradient result in A128 with each block's anchor; after a fallback the anchor comes from the reduced block (log 27). -/
def gradientA128 (c : Coll) (n : Nat) : List Byte × List Byte :=
  let r := fun i => tblGet 0 c.result i
  let em := fun b => if c.fallback then blockMax ((List.range 32).map (fun i => r (32 * b + i))) else tblGet (-149) c.emax b
  let v := fun i => if c.fallback then (termOf (spFp32.decode (r i).toNat) (em (i / 32) + 4)).1 else r i
  ((List.range n).flatMap (fun i => leBytes 16 (toCode 128 (v i))), (List.range (n / 32)).flatMap (fun b => leBytes 2 (toCode 16 (em b + 4))))

/-- The result a member writes: its bytes at the destination, and the anchors of a gradient A128 result. -/
def resultBytes (c : Coll) (d : List Word) (pos size : Nat) : List Byte × List Byte :=
  let n := collN d
  let r := fun i => tblGet 0 c.result i
  let a128 := fun (xs : List Nat) => xs.flatMap (fun i => leBytes 16 (toCode 128 (r i)))
  let em := fun i => tblGet (-149) c.emax (i / 32)
  if c.code = 0x11 then
    let (o, k) := blockOf n size pos
    (a128 ((List.range k).map (· + o)), [])
  else if c.code = 0x12 then (a128 (List.range (n * size)), [])
  else if c.code = 0x13 then
    if collOut d = 1 then
      ((List.range n).flatMap (fun i => leBytes 4 (if c.fallback then (r i).toNat else spFp32.drain .rne (a128Val (r i) (em i + 4)))), [])
    else gradientA128 c n
  else (a128 (List.range n), [])

/-- The action has its whole result: destination, anchors, then the completion flag as a consist-scope release; its flags
reach the job's epoch (R340). -/
def finishColl (e : Nat) (d : List Word) (c : Coll) (s : State) : State :=
  let p := (seqOf s c.stream).part
  let g := ringOf s c.ring
  let (bs, an) := if c.code = 0x14 then ([], []) else resultBytes c d g.pos g.size
  let s1 := collWrite e (wd d 2) 0 bs { s with colls := tblDel e s.colls }
  let s2 := if an.isEmpty then s1 else cohWrite (.collective e) (collAnchorAddr d) an none s1
  let flag := leBytes 8 (wd d 4).toNat
  let s3 := if collFlagEn d then orWait (.write (.collective e) (collFlagAddr d) flag (some .consist))
    (cohWrite (.collective e) (collFlagAddr d) flag (some .consist)) s2 else s2
  modJob p (fun j => { j with epOvf := j.epOvf || c.ovf, epClamp := j.epClamp || c.clamp, epOvfN := satAdd max32 j.epOvfN c.ovfN,
                              degraded := j.degraded || c.fallback, fallbacks := if c.fallback then j.fallbacks + 1 else j.fallbacks }) s3

/-- Elements a member's result must hold. -/
def wanted (c : Coll) (d : List Word) (pos size : Nat) : List Nat :=
  let n := collN d
  if c.code = 0x11 then let (o, k) := blockOf n size pos; (List.range k).map (· + o)
  else if c.code = 0x12 then List.range (n * size) else List.range n

def complete? (c : Coll) (d : List Word) (pos size : Nat) : Bool :=
  if c.code = 0x14 then decide (2 ≤ c.passes) else (wanted c d pos size).all (fun i => (tblGet? c.result i).isSome)

/-- Round 2 of a gradient all-reduce: every element at its block's anchor (R66, R67). -/
def toRound2 (c : Coll) : Coll :=
  let rs := (c.own.zip (List.range c.own.length)).map (fun p =>
    termOf (spFp32.decode p.1.toNat) (tblGet (-149) c.emax (p.2 / 32) + 4))
  { c with own := rs.map (·.1), round2 := true, ovf := c.ovf || rs.any (·.2), ovfN := c.ovfN + (rs.filter (·.2)).length }

/-- The descriptor of an action in progress. -/
def collDesc (s : State) (c : Coll) : List Word :=
  match (partOf s (seqOf s c.stream).part).image, jobOf s (seqOf s c.stream).part with
  | some i, some j => match (epochEntries i c.stream j.epoch)[c.entry]? with
    | some x => x.desc
    | none => []
  | _, _ => []

/-- After a change: a finished exponent round starts the second, and a whole result completes the action. -/
def settle (e : Nat) (c : Coll) (s : State) : State :=
  let d := collDesc s c
  let g := ringOf s c.ring
  let ready := c.code == 0x13 && !c.round2 && !c.fallback && (List.range c.exps.length).all (fun b => (tblGet? c.emax b).isSome)
  let c1 := if ready then toRound2 c else c
  let c2 := if ready && g.size ≤ 1 then { c1 with result := (List.range c1.own.length).zip c1.own } else c1
  let s1 := if ready && 1 < g.size then startSums e c2 (setColl e c2 s) else setColl e c2 s
  if (c.code ≠ 0x13 || c2.round2 || c2.fallback) && complete? c2 d g.pos g.size then finishColl e d c2 s1 else s1

/-! ### Packets of the ring algorithm -/

/-- An action takes the flags of a packet, which carry every contributor's (R59, R340). -/
def Coll.takeFlags (c : Coll) (k : CollPacket) : Coll := { c with ovf := c.ovf || k.ovf, clamp := c.clamp || k.clamp }


def setRange (off : Nat) (xs : List Int) (t : Tbl Int) : Tbl Int :=
  (xs.zip (List.range xs.length)).foldl (fun t p => tblSet (off + p.2) p.1 t) t

/-- A sum packet: add and pass on, keep a finished block, or pass a finished block on (R65, R337). -/
def sumPacket (e : Nat) (c : Coll) (k : CollPacket) (s : State) : State :=
  let z := (ringOf s c.ring).size
  let xs := k.elems.map (fun v => v.toInt)
  if k.step + 1 < z then
    let rs := (xs.zip (List.range xs.length)).map (fun p => accAdd p.1 (c.own.getD (k.offset + p.2) 0))
    let ys := rs.map (·.1)
    let c1 := { c with ovf := c.ovf || rs.any (·.2) }
    if k.step + 2 < z then settle e c1 (emit e c1 (k.step + 1) false k.offset (a128Codes ys) s)
    else
      let c2 := { c1 with result := setRange k.offset ys c1.result }
      settle e c2 (if c.code = 0x11 then s else emit e c2 (k.step + 1) false k.offset (a128Codes ys) s)
  else
    let c1 := { c with result := setRange k.offset xs c.result }
    settle e c1 (if k.step + 1 < 2 * (z - 1) then emit e c1 (k.step + 1) false k.offset k.elems s else s)

/-- An exponent packet (R341): the maximum in place of the sum. -/
def expPacket (e : Nat) (c : Coll) (k : CollPacket) (s : State) : State :=
  let z := (ringOf s c.ring).size
  let vals := k.elems.flatMap unpackExps
  let keep := fun (xs : List Int) (t : Tbl Int) => ((xs.zip (List.range xs.length)).filter (fun p => decide (8 * k.offset + p.2 < c.exps.length))).foldl
    (fun t p => tblSet (8 * k.offset + p.2) p.1 t) t
  if k.step + 1 < z then
    let ys := (vals.zip (List.range vals.length)).map (fun p => max p.1 (c.exps.getD (8 * k.offset + p.2) (-149)))
    let slots := (chunks 8 (ys.length / 8 + 1) ys).map packExps
    if k.step + 2 < z then settle e c (emit e c (k.step + 1) true k.offset slots s)
    else
      let c1 := { c with emax := keep ys c.emax }
      settle e c1 (emit e c1 (k.step + 1) true k.offset slots s)
  else
    let c1 := { c with emax := keep vals c.emax }
    settle e c1 (if k.step + 1 < 2 * (z - 1) then emit e c1 (k.step + 1) true k.offset k.elems s else s)

/-- An all-gather packet: kept and passed on around the ring. -/
def gatherPacket (e : Nat) (c : Coll) (k : CollPacket) (s : State) : State :=
  let z := (ringOf s c.ring).size
  let c1 := { c with result := setRange k.offset (k.elems.map (fun v => v.toInt)) c.result }
  settle e c1 (if k.step + 2 < z then emit e c1 (k.step + 1) false k.offset k.elems s else s)

/-- The barrier's token (R341): position 0 starts it, and it passes twice around the ring. -/
def tokenPacket (e : Nat) (c : Coll) (k : CollPacket) (s : State) : State :=
  let g := ringOf s c.ring
  let c1 := { c with passes := c.passes + 1 }
  let again := if g.pos = 0 then decide (c1.passes < 2) else true
  settle e c1 (if again then emit e c1 (k.step + 1) false 0 [0] s else s)

/-! ### The fixed-tree fallback (R344) -/

/-- A ring falls back where one of its ports lacks a128_coll or exp_round. -/
def fallsBack (s : State) (ring : Nat) : Bool :=
  (bitsOf 20 ((ringOf s ring).mask)).any (fun p => (portOf s p).up && !(bit (portOf s p).features 3 && bit (portOf s p).features 4))

def fp32Add (a b : Int) : Int := (fpRound .fp32 ((spFp32.decode a.toNat).add (spFp32.decode b.toNat)) : Nat)

/-- v_i of element `k`, once the children that exist have sent theirs. -/
def treeSum (c : Coll) (pos size k : Nat) : Option Int :=
  let x := c.own.getD k 0
  let l := if 2 * pos + 1 < size then (tblGet? c.left k).map some else some none
  let r := if 2 * pos + 2 < size then (tblGet? c.right k).map some else some none
  match l, r with
  | some l, some r =>
    let y := match l with | some v => fp32Add x v | none => x
    some (match r with | some v => fp32Add y v | none => y)
  | _, _ => none

/-- FP32 results from element `off` as the action's destination holds them; a conversion that saturates raises the flag and
counts (R66). -/
def treeOut (c : Coll) (d : List Word) (off : Nat) (vs : List Int) : Coll :=
  if c.code = 0x13 then { c with result := setRange off vs c.result }
  else
    let rs := vs.map (fun v => termOf (spFp32.decode v.toNat) (collAnchor d))
    { c with result := setRange off (rs.map (·.1)) c.result, ovf := c.ovf || rs.any (·.2), ovfN := c.ovfN + (rs.filter (·.2)).length }

/-- Once every element has its sum, it goes up (step 0), or at the root comes down (step 1). -/
def treeStep (e : Nat) (c : Coll) (s : State) : State :=
  let d := collDesc s c
  let g := ringOf s c.ring
  let sums := (List.range c.own.length).map (treeSum c g.pos g.size)
  if c.sentUp || !sums.all Option.isSome then setColl e c s
  else
    let vs := sums.map (fun v => v.getD 0)
    let c1 := { c with sentUp := true }
    if g.pos = 0 then
      let c2 := treeOut c1 d 0 vs
      settle e c2 (if 1 < g.size then emit e c2 1 false 0 (vs.map (BitVec.ofInt 128)) s else s)
    else emit e c1 0 false 0 (vs.map (BitVec.ofInt 128)) (setColl e c1 s)

def treePacket (e : Nat) (c : Coll) (k : CollPacket) (s : State) : State :=
  let d := collDesc s c
  let g := ringOf s c.ring
  let xs := k.elems.map (fun v => v.toInt)
  if k.step = 0 then
    if k.origin = 2 * g.pos + 1 then treeStep e { c with left := setRange k.offset xs c.left } s
    else if k.origin = 2 * g.pos + 2 then treeStep e { c with right := setRange k.offset xs c.right } s
    else s
  else
    let c1 := treeOut c d k.offset xs
    settle e c1 (if 2 * g.pos + 1 < g.size then emit e c1 1 false k.offset k.elems s else s)

/-! ### Launch and arrival -/

/-- A packet reaches its action. -/
def takePacket (e : Nat) (c0 : Coll) (k : CollPacket) (s : State) : State :=
  let c := c0.takeFlags k
  if c.fallback then treePacket e c k s
  else if c.code = 0x14 then tokenPacket e c k s
  else if c.code = 0x12 then gatherPacket e c k s
  else if k.exponents then expPacket e c k s
  else sumPacket e c k s

/-- Whether a packet is for the action in progress and its present round. -/
def packetFits (c : Coll) (k : CollPacket) : Bool :=
  c.entry == k.entry && c.epoch == k.epoch && c.attempt == k.attempt && (c.code ≠ 0x13 || c.fallback || k.exponents || c.round2)

/-- Packets that came early are taken in their order of arrival; those that do not fit yet are kept. -/
def drainEarly (e : Nat) : Nat → State → State
  | 0, s => s
  | f + 1, s =>
    match tblGet? s.colls e with
    | none => s
    | some c =>
      let q := tblGet [] s.collEarly e
      match q.find? (packetFits c) with
      | some k => drainEarly e f (takePacket e c k { s with collEarly := tblSet e (q.erase k) s.collEarly })
      | none => s

/-- The flags that accompany the member's contribution: its epoch's so far (R59). -/
def partFlags (s : State) (p : Nat) : Bool × Bool :=
  let ts := (usedTiles s p).map (tileOf s)
  let j := jobOf s p
  (ts.any (fun t => t.ovf) || (match j with | some j => decide (0 < j.epOvfN) || j.epOvf | none => false),
   ts.any (fun t => t.clamp) || (match j with | some j => decide (0 < j.epClampN) || j.epClamp | none => false))

/-- A collective action of stream 584 + e starts (its entry has launched). A poisoned source ends the job as R181 does. -/
def startColl (e p st idx : Nat) (d : List Word) (s : State) : State :=
  match jobOf s p with
  | none => s
  | some j =>
    let ty := collType d
    let n := collN d
    let g := ringOf s (collRing d)
    let len := n * collEsize ty
    if ty ≠ 0x14 && collUmr (wd d 1) && rangePoisoned s (collAddr (wd d 1)) len then issueAbort p 4 (countPoison (collAddr (wd d 1) / 64) s)
    else
      let (bs, s1) := if ty = 0x14 then ([], s) else collRead e (wd d 1) len s
      let raw := (chunks (collEsize ty) (n + 1) bs).map leNat
      let fb := fallsBack s (collRing d) && (ty == 0x10 || ty == 0x11 || ty == 0x13)
      let own : List Int := raw.map (fun (v : Nat) =>
        if ty = 0x13 then (v : Int) else if fb then ((spFp32.drain .rne (a128Val (sext 128 v) (collAnchor d)) : Nat) : Int) else sext 128 v)
      let (o, c) := partFlags s1 p
      let exps := if ty = 0x13 then (chunks 32 (n / 32 + 1) own).map blockMax else []
      let base : Coll := { stream := st, entry := idx, code := ty, ring := collRing d, attempt := j.attempt % 256,
                           epoch := (j.epochBase + j.epoch) % 2 ^ 32, own := own, exps := exps, ovf := o, clamp := c, fallback := fb }
      let alone := decide (g.size ≤ 1)
      let all := (List.range own.length).zip own
      let s2 :=
        if fb then treeStep e base s1
        else if ty = 0x14 then
          settle e (if alone then { base with passes := 2 } else base) (if g.pos = 0 && !alone then emit e base 0 false 0 [0] s1 else s1)
        else if ty = 0x12 then
          let c1 := { base with result := setRange (g.pos * n) own [] }
          settle e c1 (if alone then s1 else emit e c1 0 false (g.pos * n) (a128Codes own) s1)
        else if ty = 0x13 then
          settle e (if alone then { base with emax := (List.range exps.length).zip exps } else base)
            (if alone then s1 else startExps e base (setColl e base s1))
        else settle e (if alone then { base with result := all } else base) (if alone then s1 else startSums e base s1)
      drainEarly e ((tblGet [] s2.collEarly e).length + 1) s2

/-- A packet arrives at its engine (R340): one of another attempt is discarded, one that is early waits. -/
def packetEffect (k : CollPacket) (s : State) : State :=
  match redPart s k.engine with
  | none => s
  | some p =>
    match jobOf s p with
    | none => s
    | some j =>
      let cur := (j.epochBase + j.epoch) % 2 ^ 32
      if k.epoch = cur && k.attempt ≠ j.attempt % 256 then s
      else match tblGet? s.colls k.engine with
        | some c =>
          if packetFits c k then drainEarly k.engine ((tblGet [] s.collEarly k.engine).length + 1) (takePacket k.engine c k s)
          else if cur < k.epoch || (k.epoch = cur && c.entry ≤ k.entry) then
            { s with collEarly := tblSet k.engine (tblGet [] s.collEarly k.engine ++ [k]) s.collEarly }
          else s
        | none =>
          if cur < k.epoch || (k.epoch = cur && (seqOf s (584 + k.engine)).entry ≤ k.entry && !setHas (seqOf s (584 + k.engine)).done k.entry) then
            { s with collEarly := tblSet k.engine (tblGet [] s.collEarly k.engine ++ [k]) s.collEarly }
          else s

def execCollectivePacket (p : CollPacket) (s : State) : Host.Outcome State Fault Refusal := onWf (.collectivePacket p) (packetEffect p s)

end Sys2Proof.Machine
end

