-- ==== Sys2Proof/Machine/Cube.lean ====
section
/-! DEFINITION. The cube operation (R68 to R88): panels, steps, masks, passes, accumulators and drains. -/

namespace Sys2Proof.Machine

/-! ### The descriptor (Table 03-3) -/

structure CubeDesc where
  cubeMask : Nat
  rowMask : Nat
  colMask : Nat
  runs : Nat
  steps : Nat
  kLast : Nat
  feedMode : Nat
  passMode : Nat
  accInit : Bool
  panelLoad : Bool
  statA : Bool
  drain : Bool
  anchor : Int
  fmtA : Nat
  fmtB : Nat
  winA : Nat
  winB : Nat
  outFmt : Nat
  dsr : Bool
  outWin : Nat
  outScale : Nat
  streamAddr : Nat
  streamStride : Nat
  runStride : Nat
  panelAddr : Nat
  destAddr : Nat
  destPitch : Nat
  destRun : Nat
  streamScale : Nat
  panelScale : Nat
  destScale : Nat
  tensorId : Nat
  outLd : Nat
  outBase : Nat
  deriving DecidableEq, Repr

def cubeDesc (d : List Word) : CubeDesc :=
  let w0 := wd d 0
  let w1 := wd d 1
  let w2 := wd d 2
  let w3 := wd d 3
  let w4 := wd d 4
  { cubeMask := wf w0 63 48, rowMask := wf w0 47 40, colMask := wf w0 39 32, runs := wf w0 31 24 + 1, steps := wf w0 23 18 + 1,
    kLast := wf w0 17 14 + 1, feedMode := wf w0 13 12, passMode := wf w0 11 10, accInit := bit w0.toNat 9, panelLoad := bit w0.toNat 8,
    statA := bit w0.toNat 7, drain := bit w0.toNat 6, anchor := sext 10 (wf w1 63 54), fmtA := wf w1 53 50, fmtB := wf w1 49 46,
    winA := wf w1 45 38, winB := wf w1 37 30, outFmt := wf w1 29 26, dsr := bit w1.toNat 25, outWin := wf w1 24 17,
    outScale := wf w1 16 9, streamAddr := wf w2 63 49, streamStride := wf w2 48 34, runStride := wf w2 33 19, panelAddr := wf w2 18 4,
    destAddr := wf w3 63 43, destPitch := wf w3 42 22, destRun := wf w3 21 1, streamScale := wf w4 63 43, panelScale := wf w4 42 22,
    destScale := wf w4 21 1, tensorId := wf (wd d 5) 63 32, outLd := wf (wd d 5) 31 8, outBase := wf (wd d 6) 63 24 }

def CubeDesc.quad (c : CubeDesc) : Bool := c.feedMode == 1

/-- Formats of the streaming and of the stationary operand. -/
def CubeDesc.streamFmt (c : CubeDesc) : Fmt := (Fmt.ofCode (if c.statA then c.fmtB else c.fmtA)).getD .fp4
def CubeDesc.panelFmt (c : CubeDesc) : Fmt := (Fmt.ofCode (if c.statA then c.fmtA else c.fmtB)).getD .fp4
def CubeDesc.streamWin (c : CubeDesc) : Nat := if c.statA then c.winB else c.winA
def CubeDesc.panelWin (c : CubeDesc) : Nat := if c.statA then c.winA else c.winB

/-- K_step of Table 03-2. -/
def CubeDesc.kStep (c : CubeDesc) : Nat :=
  if c.passMode = 1 || c.passMode = 2 then 4
  else if c.passMode = 3 then 8
  else match c.streamFmt.bits with
    | 4 => 16
    | 16 => 4
    | _ => 8

/-- Streaming and stationary granules per slice, and passes (Table 03-2). -/
def CubeDesc.streamGran (c : CubeDesc) : Nat := if c.passMode = 0 then 1 else 2
def CubeDesc.panelGran (c : CubeDesc) : Nat := if c.passMode = 1 || c.passMode = 3 then 2 else 1
def CubeDesc.passes (c : CubeDesc) : Nat := if c.passMode = 0 then 1 else if c.passMode = 3 then 4 else 3

/-- Named cubes, ascending. -/
def CubeDesc.cubes (c : CubeDesc) : List Nat := bitsOf 16 c.cubeMask

/-- The number of named cubes below one (R71). -/
def CubeDesc.rank (c : CubeDesc) (k : Nat) : Nat := popcount k c.cubeMask

/-- Group of a cube in quad mode, and the rows of an output block. -/
def CubeDesc.group (c : CubeDesc) (k : Nat) : Nat := if c.quad then k / 4 else 0
def CubeDesc.height (c : CubeDesc) : Nat := if c.quad then 32 else 8

/-- Scale blocks of a run (R74). -/
def CubeDesc.blocks (c : CubeDesc) : Nat := ceilDiv (c.steps * c.kStep) 32

/-- K elements formed in a run (R46, R79). -/
def CubeDesc.kRun (c : CubeDesc) : Nat := (c.steps - 1) * c.kStep + c.kLast

/-! ### Elements (R35, R70) -/

/-- The codes of line `l` of a slice of lines of `n` elements. -/
def lineCodes (bytes : List Byte) (w n l : Nat) : List Nat := (List.range n).map (fun k => codeAt bytes ((l * n + k) * w) w)

/-- A scale code of an operand after the window check (R37, R39); formats without a scale read code 127. -/
def scaleFor (f : Fmt) (win code : Nat) : Nat × Bool :=
  if f.isMx || f.isPerTensor then clampScale win code else (127, false)

/-! ### Terms (R43 to R46, R51 to R54) -/

/-- A pass product: a term, and whether its grid rounding saturated. -/
def product (a b : FVal) (anchor : Int) : Int × Bool := termOf (a.mul b) anchor

def isFin : FVal → Bool
  | .fin _ _ _ => true
  | _ => false

/-- The BF16 rounding of a value, as a value. -/
def toBf16 (v : FVal) : FVal := spBf16.decode (spBf16.encode .rne v)

/-- hi and lo of an FP32 operand (R51, R52): the lo of a special value is null. -/
def splitFp32 (v : FVal) : FVal × Option FVal :=
  match v with
  | .fin n m e =>
    let h := match toBf16 (.fin n m e) with
      | .inf n => spBf16.decode (if n then 0xFF7F else 0x7F7F)
      | h => h
    (h, some (toBf16 ((FVal.fin n m e).add h.negate)))
  | v => (v, none)

/-- Terms of one FP32 product: the passes 2 and 3 of special values add nothing (R52; log 24). -/
def fp32Terms (a b : FVal) (anchor : Int) : List (Int × Bool) :=
  let (ha, la) := splitFp32 a
  let (hb, lb) := splitFp32 b
  product ha hb anchor ::
    ((match lb with
      | some l => if isFin ha then [product ha l anchor] else []
      | none => []) ++
     (match la with
      | some l => if isFin hb then [product l hb anchor] else []
      | none => []))

/-- Terms of one INT16 product: four passes with their weights (R54); `e` is the exponent of both scales together. -/
def int16Terms (x y : Nat) (e : Option Int) (anchor : Int) : List (Int × Bool) :=
  match e with
  | none => List.replicate 4 (a128Nan, false)
  | some e =>
    let hx := sext 8 (fld x 15 8)
    let hy := sext 8 (fld y 15 8)
    let lx : Int := (fld x 7 0 : Nat)
    let ly : Int := (fld y 7 0 : Nat)
    [termOf (intVal (hx * hy) (e + 16)) anchor, termOf (intVal (hx * ly) (e + 8)) anchor,
     termOf (intVal (lx * hy) (e + 8)) anchor, termOf (intVal (lx * ly) e) anchor]

/-- The exponent of two E8M0 codes together; none where one is NaN. -/
def scaleExp (a b : Nat) : Option Int := if a = 255 || b = 255 then none else some ((a : Int) - 127 + ((b : Int) - 127))

/-- What a cube gathers in a run: an accumulator, the overflow flag, and the count of products that saturated. -/
structure Gather where
  acc : Int
  ovf : Bool := false
  n : Nat := 0
  deriving DecidableEq, Repr

/-- A term enters an accumulator (R45); a saturated product counts (R43), a saturated sum does not. -/
def Gather.add (g : Gather) (t : Int × Bool) : Gather :=
  let (a, o) := accAdd g.acc t.1
  { acc := a, ovf := g.ovf || t.2 || o, n := if t.2 then g.n + 1 else g.n }

/-- One operand line over a run: element codes of every slice in K order, complex parts, and its scale code by block. -/
structure OpLine where
  codes : List Nat
  imag : List Nat := []
  scales : List Nat
  deriving DecidableEq, Repr

/-- The scale code that applies at K index `k`: by blocks of 32, or the tensor's. -/
def OpLine.scaleAt (l : OpLine) (k : Nat) : Nat := if l.scales.length ≤ 1 then l.scales.getD 0 127 else l.scales.getD (k / 32) 127

/-- The terms of one real product by pass mode. -/
def realTerms (c : CubeDesc) (a b : OpLine) (k : Nat) : List (Int × Bool) :=
  let x := a.codes.getD k 0
  let y := b.codes.getD k 0
  if c.passMode = 1 then fp32Terms (spFp32.decode x) (spFp32.decode y) c.anchor
  else if c.passMode = 3 then int16Terms x y (scaleExp (a.scaleAt k) (b.scaleAt k)) c.anchor
  else [product ((c.streamFmt.decode x).scaled (a.scaleAt k)) ((c.panelFmt.decode y).scaled (b.scaleAt k)) c.anchor]

/-- The real accumulator of a pair of lines over a run. -/
def gatherReal (c : CubeDesc) (a b : OpLine) (start : Int) : Gather :=
  (List.range c.kRun).foldl (fun g k => (realTerms c a b k).foldl Gather.add g) { acc := start }

/-- Real and imaginary accumulators of a complex pair (R53, R73): each product is rounded and counted once, and only where
it feeds an enabled accumulator. -/
structure Pair where
  re : Int
  im : Int
  ovf : Bool := false
  n : Nat := 0
  deriving DecidableEq, Repr

def Pair.add (p : Pair) (t : Int × Bool) (re im : Option Bool) : Pair :=
  let val := fun (s : Bool) => if s then termNeg t.1 else t.1
  let (r, o1) := match re with | some s => accAdd p.re (val s) | none => (p.re, false)
  let (i, o2) := match im with | some s => accAdd p.im (val s) | none => (p.im, false)
  if re.isNone && im.isNone then p
  else { re := r, im := i, ovf := p.ovf || t.2 || o1 || o2, n := if t.2 then p.n + 1 else p.n }

def gatherComplex (c : CubeDesc) (a b : OpLine) (reOn imOn : Bool) (re im : Int) : Pair :=
  let on := fun (e s : Bool) => if e then some s else none
  (List.range c.kRun).foldl (fun p k =>
    let x := spBf16.decode (a.codes.getD k 0)
    let xi := spBf16.decode (a.imag.getD k 0)
    let y := spBf16.decode (b.codes.getD k 0)
    let yi := spBf16.decode (b.imag.getD k 0)
    let p1 := p.add (product x y c.anchor) (on reOn false) (on imOn true)
    let p2 := p1.add (product xi yi c.anchor) (on reOn true) (on imOn true)
    p2.add (product (toBf16 (x.add xi)) (toBf16 (y.add yi)) c.anchor) none (on imOn false)) { re := re, im := im }

/-! ### Operands (R70 to R74) -/

/-- The codes of a line over the slices of a run, given each slice's bytes. -/
def runCodes (slices : List (List Byte)) (w n l : Nat) : List Nat := slices.flatMap (fun b => lineCodes b w n l)

/-- Scale codes of a line: one per block of an MX operand, one for a per-tensor operand, none otherwise; with the
number of codes that the window replaced. -/
def lineScales (f : Fmt) (win blocks : Nat) (rd : Nat → Nat) (mx : Nat → Nat) (base : Nat) : List Nat × Nat :=
  if f.isMx then
    let cs := (List.range blocks).map (fun b => scaleFor f win (rd (mx b)))
    (cs.map (·.1), (cs.filter (·.2)).length)
  else if f.isPerTensor then
    let c := scaleFor f win (rd base)
    ([c.1], 0)
  else ([], 0)

/-- Streaming lines of group `g` in run `q`: line `i` of 8. -/
def streamLine (s : State) (t : Nat) (c : CubeDesc) (q g i : Nat) : OpLine × Nat :=
  let sg := c.streamGran
  let slices := (List.range c.steps).map (fun k =>
    tileRead s t ownFeeder ((c.streamAddr + q * c.runStride + k * c.streamStride + g * sg) * 64) (64 * sg))
  let l := if c.quad then 32 else 8
  let rd := fun a => tileLe s t ownFeeder a 1
  let (sc, n) := lineScales c.streamFmt c.streamWin c.blocks rd
    (fun b => c.streamScale + q * l * c.blocks + b * l + (8 * g + i)) c.streamScale
  if c.passMode = 2 then
    ({ codes := runCodes (slices.map (·.take 64)) 16 4 i, imag := runCodes (slices.map (·.drop 64)) 16 4 i, scales := sc }, n)
  else ({ codes := runCodes slices c.streamFmt.bits c.kStep i, scales := sc }, n)

/-- Stationary line `j` of a cube: the panel it holds, with the scales in tile SRAM. -/
def panelLine (s : State) (t : Nat) (c : CubeDesc) (k j : Nat) : OpLine × Nat :=
  let sz := 64 * c.panelGran
  let slices := (List.range c.steps).map (fun x => memRead (cubeOf s t k).panel (x * sz) sz)
  let rd := fun a => tileLe s t ownFeeder a 1
  let (sc, n) := lineScales c.panelFmt c.panelWin c.blocks rd
    (fun b => c.panelScale + c.rank k * 8 * c.blocks + b * 8 + j) c.panelScale
  if c.passMode = 2 then
    ({ codes := runCodes (slices.map (·.take 32)) 16 4 j, imag := runCodes (slices.map (·.drop 32)) 16 4 j, scales := sc }, n)
  else ({ codes := runCodes slices c.panelFmt.bits c.kStep j, scales := sc }, n)

/-- A named cube loads its panel (R71). -/
def loadPanel (t : Nat) (c : CubeDesc) (k : Nat) (s : State) : State :=
  let n := c.steps * c.panelGran * 64
  let bs := tileRead s t ownFeeder ((c.panelAddr + c.rank k * c.steps * c.panelGran) * 64) n
  let x := cubeOf s t k
  setCube t k { x with panel := memWrite x.panel 0 bs, slices := c.steps } s

/-- The columns of accumulators by stationary line: the line itself, or a pair for complex. -/
def CubeDesc.rows (c : CubeDesc) : List Nat := bitsOf 8 c.rowMask
def CubeDesc.cols (c : CubeDesc) : List Nat := bitsOf 8 c.colMask

/-- The stationary lines that feed an enabled column. -/
def CubeDesc.lines (c : CubeDesc) : List Nat :=
  if c.passMode = 2 then (List.range 4).filter (fun j => bit c.colMask (2 * j) || bit c.colMask (2 * j + 1)) else c.cols

/-- The tile's flags and counts take what an operation raised (R56, R57). -/
def tileFlags (t : Nat) (ovf clamp : Bool) (n m : Nat) (s : State) : State :=
  let x := tileOf s t
  setTile t { x with ovf := x.ovf || ovf, clamp := x.clamp || clamp,
                     ovfN := satAdd max32 x.ovfN n, clampN := satAdd max32 x.clampN m } s

/-- The accumulators of a cube after one run, from what they hold. -/
def runCube (c : CubeDesc) (x : Cube) (sl pl : Nat → OpLine) : Cube × Nat :=
  let at_ := fun (m : Tbl (BitVec 128)) (i j : Nat) => (tblGet 0 m (8 * i + j)).toInt
  c.rows.foldl (fun acc i =>
    c.lines.foldl (fun (acc : Cube × Nat) j =>
      let y := acc.1
      if c.passMode = 2 then
        let r := gatherComplex c (sl i) (pl j) (bit c.colMask (2 * j)) (bit c.colMask (2 * j + 1)) (at_ y.acc i (2 * j)) (at_ y.acc i (2 * j + 1))
        ({ y with acc := tblSet (8 * i + 2 * j + 1) (a128Of r.im) (tblSet (8 * i + 2 * j) (a128Of r.re) y.acc), ovf := y.ovf || r.ovf }, acc.2 + r.n)
      else
        let r := gatherReal c (sl i) (pl j) (at_ y.acc i j)
        ({ y with acc := tblSet (8 * i + j) (a128Of r.acc) y.acc, ovf := y.ovf || r.ovf }, acc.2 + r.n)) acc) (x, 0)

/-- Clamped blocks of the operands of a cube in a run: streaming blocks by line, and the panel's in run 0 only. A streaming
block is charged to the first named cube of its group, so that it is counted once (R39). -/
def clampsOf (s : State) (t : Nat) (c : CubeDesc) (q k : Nat) : Nat × Nat :=
  let g := c.group k
  let first := !(c.cubes.any (fun k' => decide (k' < k) && c.group k' == g))
  let a := if first then (c.rows.map (fun i => (streamLine s t c q g i).2)).sum else 0
  let b := if q = 0 then (c.lines.map (fun j => (panelLine s t c k j).2)).sum else 0
  (a, b)

/-- Whether a per-tensor scale byte of an operand was replaced: one block, counted once for the descriptor. -/
def tensorClamp (s : State) (t : Nat) (f : Fmt) (win a : Nat) : Bool := f.isPerTensor && (scaleFor f win (tileLe s t ownFeeder a 1)).2

/-- An operand of the cube had a scale replaced (R39): whatever run or cube it was counted in. -/
def anyClamp (s : State) (t : Nat) (c : CubeDesc) (q k : Nat) : Bool :=
  c.rows.any (fun i => decide (0 < (streamLine s t c q (c.group k) i).2)) ||
  c.lines.any (fun j => decide (0 < (panelLine s t c k j).2)) ||
  tensorClamp s t c.streamFmt c.streamWin c.streamScale || tensorClamp s t c.panelFmt c.panelWin c.panelScale

/-- One run of one cube (R73, R87). -/
def stepCube (t : Nat) (c : CubeDesc) (q k : Nat) (s : State) : State :=
  let x := cubeOf s t k
  let x0 := if c.accInit then { x with acc := [], ovf := false, clamp := false } else x
  let (y, n) := runCube c x0 (fun i => (streamLine s t c q (c.group k) i).1) (fun j => (panelLine s t c k j).1)
  let (a, b) := clampsOf s t c q k
  tileFlags t false false n (a + b) (setCube t k { y with clamp := y.clamp || anyClamp s t c q k } s)

/-! ### Drain (R60 to R64, R80, R83) -/

/-- Output row and column of accumulator (i, j) of a cube (R72). -/
def CubeDesc.outRow (c : CubeDesc) (k i : Nat) : Nat := if c.quad then 8 * (k / 4) + i else i
def CubeDesc.outCol (c : CubeDesc) (k j : Nat) : Nat := if c.quad then 8 * (k % 4) + j else 8 * k + j

/-- The rounding of an output element (R64, R77). -/
def CubeDesc.rnd (c : CubeDesc) (seed q row col : Nat) : Rnd :=
  rndFor c.dsr seed c.tensorId (c.outBase + (q * c.height + row) * c.outLd + col)

/-- The A128 integer of an accumulator. -/
def accInt (s : State) (t k i j : Nat) : Int := (tblGet 0 (cubeOf s t k).acc (8 * i + j)).toInt

/-- Writes one element of an output row (R35, R83). -/
def putElem (t : Nat) (c : CubeDesc) (f : OutFmt) (q row col code : Nat) (s : State) : State :=
  tileBits t ownFeeder (c.destAddr + q * c.destRun + row * c.destPitch) (col * f.bits) f.bits code s

/-- Drains a cube to a format without block scales. -/
def drainCube (t : Nat) (c : CubeDesc) (f : OutFmt) (seed q k : Nat) (s : State) : State :=
  c.rows.foldl (fun s i => c.cols.foldl (fun s j =>
    let row := c.outRow k i
    let col := c.outCol k j
    putElem t c f q row col (drainPlain f c.outScale (accInt s t k i j) c.anchor (c.rnd seed q row col)) s) s) s

/-- The scale of an MX block, row `i` of the four cubes of group `g`, from its written elements, and whether the output window
replaced it (R62, R80). -/
def mxScale (s : State) (t : Nat) (c : CubeDesc) (f : OutFmt) (g i : Nat) : Nat × Bool :=
  blockScale f c.outWin ((List.range 4).flatMap (fun d => c.cols.map (fun j => a128Val (accInt s t (4 * g + d) i j) c.anchor)))

/-- Drains a cube to an MX format: its elements under the scales of its blocks (R61, R62). -/
def drainMxCube (t : Nat) (c : CubeDesc) (f : OutFmt) (seed q k : Nat) (s : State) : State :=
  c.rows.foldl (fun s i =>
    let row := c.outRow k i
    let sc := (mxScale s t c f (k / 4) i).1
    let codes := blockElems f sc (c.cols.map (fun j => (a128Val (accInt s t k i j) c.anchor, c.rnd seed q row (c.outCol k j))))
    (c.cols.zip codes).foldl (fun s e => putElem t c f q row (c.outCol k e.1) e.2 s) s) s

/-- The scale of one MX block takes the side path (R83); a replaced scale counts (R62). -/
def drainScale (t : Nat) (c : CubeDesc) (f : OutFmt) (q g i : Nat) (s : State) : State :=
  let row := c.outRow (4 * g) i
  let (sc, cl) := mxScale s t c f g i
  let s1 := tileWrite t ownFeeder (c.destScale + q * 32 + (if c.quad then row else row * 4 + g)) [BitVec.ofNat 8 sc] s
  if cl then tileFlags t false true 0 1 s1 else s1

/-- Groups of four with a named cube. -/
def CubeDesc.groups (c : CubeDesc) : List Nat := (List.range 4).filter (fun g => c.cubes.any (fun k => k / 4 == g))

/-- Drains the named cubes after a run, in ascending order (R83). -/
def drainRun (t : Nat) (c : CubeDesc) (seed q : Nat) (s : State) : State :=
  match OutFmt.ofCode c.outFmt with
  | none => s
  | some f =>
    if f.isMx then
      let s1 := c.cubes.foldl (fun s k => drainMxCube t c f seed q k s) s
      if c.cols.isEmpty then s1 else c.groups.foldl (fun s g => c.rows.foldl (fun s i => drainScale t c f q g i s) s) s1
    else c.cubes.foldl (fun s k => drainCube t c f seed q k s) s

/-- A cube's flags pass to the tile's epoch flags (R87). -/
def passFlags (t k : Nat) (s : State) : State := tileFlags t (cubeOf s t k).ovf (cubeOf s t k).clamp 0 0 s

/-- A run of the operation: every named cube, then the drain. -/
def cubeRun (t : Nat) (c : CubeDesc) (seed : Nat) (s : State) (q : Nat) : State :=
  let s1 := c.cubes.foldl (fun s k => stepCube t c q k s) s
  if c.drain then drainRun t c seed q (c.cubes.foldl (fun s k => passFlags t k s) s1) else s1

/-- The bytes that a cube operation reads and writes in its tile (R70 to R75, R83): address, length, whether written; the
streaming operand, the stationary one, and the drain. -/
def streamSpans (c : CubeDesc) : List (Nat × Nat × Bool) :=
  let groups := if c.quad then c.groups else [0]
  let sg := c.streamGran
  let l := if c.quad then 32 else 8
  (List.range c.runs).flatMap (fun q => (List.range c.steps).flatMap (fun k => groups.map (fun g =>
    ((c.streamAddr + q * c.runStride + k * c.streamStride + g * sg) * 64, 64 * sg, false)))) ++
  (if c.streamFmt.isMx then [(c.streamScale, c.runs * l * c.blocks, false)]
    else if c.streamFmt.isPerTensor then [(c.streamScale, 1, false)] else [])

def panelSpans (c : CubeDesc) : List (Nat × Nat × Bool) :=
  let kn := c.cubes.length
  (if c.panelLoad then [(c.panelAddr * 64, kn * c.steps * c.panelGran * 64, false)] else []) ++
  (if c.panelFmt.isMx then [(c.panelScale, kn * 8 * c.blocks, false)]
    else if c.panelFmt.isPerTensor then [(c.panelScale, 1, false)] else [])

def destSpans (c : CubeDesc) : List (Nat × Nat × Bool) :=
  match c.drain, OutFmt.ofCode c.outFmt with
  | true, some f =>
    (List.range c.runs).flatMap (fun q => c.cubes.flatMap (fun k => c.rows.flatMap (fun i => c.cols.map (fun j =>
      let o := c.outCol k j * f.bits
      (c.destAddr + q * c.destRun + c.outRow k i * c.destPitch + o / 8, (o % 8 + f.bits + 7) / 8, true))))) ++
    (if f.isMx then [(c.destScale, c.runs * 32, true)] else [])
  | _, _ => []

def cubeSpans (c : CubeDesc) : List (Nat × Nat × Bool) := streamSpans c ++ panelSpans c ++ destSpans c

/-! ### Timing (R75, R82, Tables 03-5 and 03-6) -/

/-- The one bank that holds every span; none where there is no such bank (R75). -/
def oneBank (l : List (Nat × Nat × Bool)) : Option Nat :=
  match l with
  | [] => none
  | v :: _ => match bankOf v.1 with
    | some b => if decide (b < 4) && l.all (fun x => bankOf x.1 == some b && bankOf (x.1 + x.2.1 - 1) == some b) then some b else none
    | none => none

/-- Drain write cycles W (Table 03-6). -/
def drainCycles (c : CubeDesc) : Nat := ceilDiv (8 * ((OutFmt.ofCode c.outFmt).map OutFmt.bits).getD 128 * c.cubes.length) 256

/-- I(q, s, p) of R82. -/
def issueAt (c : CubeDesc) (q s p : Nat) : Nat :=
  (if c.panelLoad then ceilDiv (c.cubes.length * c.steps * c.panelGran * 64) 256 else 0) + 4 + c.passes * (q * c.steps + s) + p

/-- U_q, the last issue, and the completion of Table 03-5. -/
def updateAt (c : CubeDesc) (q : Nat) : Nat := issueAt c q (c.steps - 1) (c.passes - 1) + 22
def lastIssue (c : CubeDesc) : Nat := issueAt c (c.runs - 1) (c.steps - 1) (c.passes - 1)
def cubeEnd (c : CubeDesc) : Nat := updateAt c (c.runs - 1) + (if c.drain then 13 + drainCycles c else 0)

/-- The cube operation on physical tile `t` (R70 to R87). An access to a bank that the feeder does not own retires the tile
(R127). -/
def runCubeOp (t : Nat) (d : List Word) (seed : Nat) (s : State) : State :=
  let c := cubeDesc d
  let s1 := if c.panelLoad then c.cubes.foldl (fun s k => loadPanel t c k s) s else s
  let pt := b2n (tensorClamp s t c.streamFmt c.streamWin c.streamScale) + b2n (tensorClamp s t c.panelFmt c.panelWin c.panelScale)
  let s2 := (List.range c.runs).foldl (cubeRun t c seed) (tileFlags t false false 0 pt s1)
  let s3 := if c.drain then s2 else c.cubes.foldl (fun s k => passFlags t k s) s2
  (cubeSpans c).foldl (fun s a => if a.2.2 then checkReach t ownFeeder a.1 a.2.1 s else readReach t ownFeeder a.1 a.2.1 s) s3

end Sys2Proof.Machine
end

