-- ==== Sys2Proof/Machine/Timetable.lean ====
section
/-! DEFINITION. The timetable's commands: launch, completion, epochs, slots, notices and their instants,
watchdogs (06, 13, 17). -/

namespace Sys2Proof.Machine

/-! ### Launch and completion -/

/-- The null action launches and completes in one cycle (R160, R166). -/
def nullEffect (st : Nat) (s : State) : State :=
  match launchable s st 0x01 with
  | some _ => complete st (seqOf s st).entry (launch st 0 s)
  | none => s

def execNullAction (st : Nat) (s : State) : Host.Outcome State Fault Refusal := onWf (.nullAction st) (nullEffect st s)

/-- Whether the last effect of an action in progress has taken place (R166, R234): no update pair, collective, tier
transition or held write of it is outstanding. -/
def effectsDone (s : State) (st idx : Nat) : Bool :=
  if st < 544 then
    match physOf s st with
    | some t => match (tileOf s t).upd with
      | some u => !(u.stream == st && u.entry == idx)
      | none => !portHeld s t
    | none => false
  else if st < 584 then
    !tierOwned s st idx &&
    !(writesWait s (.dray (st - 544)) || s.remote.out.any (fun o => o.req == .dray (st - 544)))
  else (match tblGet? s.colls (st - 584) with
    | some c => !(c.stream == st && c.entry == idx)
    | none => !writesWait s (.collective (st - 584)))

/-- An action completes: its watermark rises (R159, R166). `waits` is the instant before which it cannot complete. -/
def actionCompleteEffect (st idx : Nat) (s : State) : State :=
  match (seqOf s st).inflight.find? (fun f => f.idx == idx) with
  | some f => if effectsDone s st idx && tokensPaid s f.needs then complete st idx (advance f.waits s) else s
  | none => s

def execActionComplete (st e : Nat) (s : State) : Host.Outcome State Fault Refusal :=
  onWf (.actionComplete st e) (actionCompleteEffect st e s)

/-- A completion becomes visible to the streams of a latency class (R159, Table 06-8). -/
def execGateVisible (st c : Nat) (s : State) : Host.Outcome State Fault Refusal :=
  onWf (.gateVisible st c) (makeVisible st c s)

/-! ### The start of a job, and slots (R169, R184 to R186) -/

/-- The Quartz reaches T0: the armed sequencers begin (R169). -/
def t0Effect (p : Nat) (s : State) : State :=
  match jobOf s p with
  | some j => if j.service || j.running then s else beginJob p j.t0 (advance j.t0 s)
  | none => s

def execT0Reached (p : Nat) (s : State) : Host.Outcome State Fault Refusal := onWf (.t0Reached p) (t0Effect p s)

/-- The next slot to open. -/
def nextSlot (j : Job) : Nat := if j.running then j.slot + 1 else j.slot

/-- Buffer k of a request (Table 13-9): region, page, length. -/
def bufOf (d : List Word) (k : Nat) : Nat × Nat × Nat := (wf (wd d (1 + k)) 63 52, wf (wd d (1 + k)) 51 32, wf (wd d (1 + k)) 31 0)

/-- The check of R365 on one buffer. -/
def bufOk (s : State) (p : Nat) (use : Bool × Bool) (b : Nat × Nat × Nat) : Bool :=
  if (use.1 || use.2) && b.2.2 ≠ 0 then
    let r := regionOf s b.1
    r.valid && regionPart s b.1 == some p && (!use.1 || r.drayRd) && (!use.2 || r.drayWr) && decide (b.2.1 < r.lenPages)
  else true

/-- The fixed extent of a buffer: base address and bytes (R365). -/
def bufExtent (s : State) (b : Nat × Nat × Nat) : Nat × Nat :=
  if b.2.2 = 0 then (0, 0)
  else
    let r := regionOf s b.1
    (r.target + b.2.1 * 4096, min b.2.2 (r.lenPages * 4096 - b.2.1 * 4096))

/-- Considers the accepted requests, oldest first: one that fails a check completes REJECTED_REGION and the next is
considered; the first that passes is bound (R185, R365). -/
def bindScan (p q deadline : Nat) (use : List (Bool × Bool)) : List (List Word × Nat) → List (List Word × Nat) → State → State
  | kept, [], s => setQueue q { queueOf s q with accepted := kept } s
  | kept, (d, t) :: rest, s =>
    if deadline < t then setQueue q { queueOf s q with accepted := kept ++ (d, t) :: rest } s
    else
      let bs := (List.range 4).map (bufOf d)
      if (List.range 4).all (fun k => bufOk s p (use.getD k (false, false)) (bs.getD k (0, 0, 0))) then
        modJob p (fun j => { j with nextBound := some { queue := q, desc := d, bufs := bs.map (bufExtent s) } })
          (setQueue q { queueOf s q with accepted := kept ++ rest } s)
      else bindScan p q deadline use kept rest (raiseEvent evRegionFault q (causeOf evRegionFault 0) (pushRec q (descRec d stRegion) s))

/-- At an opening less bind_lead the oldest eligible request is bound (R185), or none where its receipt would
overwrite an unsigned one (R421). -/
def slotBindEffect (p : Nat) (s : State) : State :=
  match (partOf s p).image, jobOf s p with
  | some i, some j =>
    if j.service && j.nextBound.isNone && j.closing.isNone then
      let dl := slotOpening i j.t0 (partOf s p).offset (nextSlot j) - 4 * i.bindLead
      let s := advance dl s
      if receiptBlocked s then modJob p (fun j => { j with skipped := j.skipped + 1 }) s
      else bindScan p i.svcQueue dl i.bufUse [] (queueOf s i.svcQueue).accepted s
    else s
  | _, _ => s

def execSlotBind (p : Nat) (s : State) : Host.Outcome State Fault Refusal := onWf (.slotBind p) (slotBindEffect p s)

/-- The job of a slot starts with its own counts and flags (R186). -/
def freshSlot (j : Job) : Job :=
  { j with holds := 0, replays := 0, lateNotices := 0, fallbacks := 0, late := false, replayed := false, degraded := false,
           inexact := false, trunc := false, ovfN := 0, clampN := 0, epTrunc := false, epOvf := false, epClamp := false, epOvfN := 0, epClampN := 0,
           retires := 0, firstRetired := none, digIn := [], digOut := [], epDigIn := [], epDigOut := [], causes := [],
           consec := [], bound := j.nextBound, nextBound := none }

/-- A slot opens, and the one before it ends: its epochs run for the bound request, or are skipped (R169, R184, R185). -/
def slotOpenEffect (p : Nat) (s : State) : State :=
  match (partOf s p).image, jobOf s p with
  | some i, some j =>
    if j.service && !j.running then
      let t := slotOpening i j.t0 (partOf s p).offset j.slot
      let s := endSlot p (advance t s)
      match (jobOf s p).bind (fun j => j.nextBound) with
      | none => modJob p (fun j => { j with slot := j.slot + 1, epochBase := (j.slot + 1) * i.nEpochs }) s
      | some _ =>
        let lvl := decide (s.level < 0x1F)
        beginJob p t (setJob p { freshSlot j with epochBase := j.slot * i.nEpochs, degraded := lvl } s)
    else s
  | _, _ => s

def execSlotOpen (p : Nat) (s : State) : Host.Outcome State Fault Refusal := onWf (.slotOpen p) (slotOpenEffect p s)

/-! ### Epochs (R171, R172) -/

/-- The member completes the epoch locally and sends its commit notice (R171). -/
def epochLocalCompleteEffect (p : Nat) (s : State) : State :=
  match (partOf s p).image, jobOf s p with
  | some i, some j =>
    if j.running && !j.localDone && j.restartAt.isNone && !j.notices.any (abandonsEpoch j) && epochFinished s i j then
      let s1 := advance (plannedStart i j (partOf s p).offset j.epoch) s
      let e := j.epochBase + j.epoch
      let s2 := if 1 < j.members then issue p 4 2 e 0 0 s1 else s1
      tryCommit p (modJob p (fun j => { j with localDone := true, commits := setIns (e * 1024 + selfNo s) j.commits }) s2)
    else s
  | _, _ => s

def execEpochLocalComplete (p : Nat) (s : State) : Host.Outcome State Fault Refusal :=
  onWf (.epochLocalComplete p) (epochLocalCompleteEffect p s)

/-! ### Lateness (R177, R179, R181) -/

/-- The unlaunched entry of a stream that reaches P + S first, among those with no report. -/
def nextReport (s : State) (p : Nat) (i : Image) (j : Job) (st : Nat) : Option (Nat × (Nat × Nat) × Entry) :=
  ((unlaunched i (seqOf s st) st).filter (fun e => !(seqOf s st).reported.elem e.1)).foldl
    (fun b e =>
      let t := plannedTime i j (partOf s p).offset e.2 + slackOf i j e.2
      match b with
      | none => some (t, e)
      | some v => if t < v.1 then some (t, e) else b) none

/-! ### Instants (R174, R175, R180, R181) -/

/-- The earliest notice of a kind that has not been applied. -/
def dueNotice (j : Job) (kind : Nat) : Option HeldNotice :=
  (j.notices.filter (fun h => !h.applied && h.n.kind == kind)).foldl
    (fun b h => match b with
      | none => some h
      | some v => if h.n.instant < v.n.instant then some h else b) none

def markApplied (h : HeldNotice) (j : Job) : Job :=
  { j with notices := j.notices.map (fun x => if x == h then { x with applied := true } else x) }

/-- The entries of a stream that are overdue, or were reported, and have not launched are held back (R181). -/
def heldBack (s : State) (p : Nat) (i : Image) (j : Job) (st : Nat) : List Nat :=
  ((unlaunched i (seqOf s st) st).filter (fun e =>
    (seqOf s st).reported.elem e.1 || decide (plannedTime i j (partOf s p).offset e.2 ≤ now s))).map (fun e => entryKey st e.1)

/-- A hold is applied: the offset grows by n hold quanta; EV_HOLD, the hold count and LATE where the notice's epoch
belongs to the slot in progress (R180, R186). -/
def applyHold (p : Nat) (h : HeldNotice) (s : State) : State :=
  match (partOf s p).image, jobOf s p with
  | some i, some j =>
    let mine := !j.service || h.n.epoch / max 1 i.nEpochs == j.slot
    let back := (partSeqs s p).flatMap (heldBack s p i j)
    let j1 := markApplied h j
    let j2 := if mine then { j1 with holds := satAdd max32 j1.holds 1, late := true } else j1
    let j3 := back.foldl (fun j e => { j with consec := tblMod 0 e (· + 1) j.consec }) j2
    let s1 := setPart p { partOf s p with offset := (partOf s p).offset + h.n.n * (4 * i.holdQuantum), job := some j3 } s
    let s2 := (partSeqs s p).foldl (fun s st => let q := seqOf s st
      setSeq st { q with reported := [], st := if q.st == .late then .wait else q.st } s) s1
    raiseEvent evHold p h.n.cause s2
  | _, _ => s

def holdInstantEffect (p : Nat) (s : State) : State :=
  match (jobOf s p).bind (fun j => dueNotice j 0) with
  | some h => applyHold p h (advance h.n.instant s)
  | none => s

def execHoldInstant (p : Nat) (s : State) : Host.Outcome State Fault Refusal := onWf (.holdInstant p) (holdInstantEffect p s)

/-- A replay is applied: launches stop, actions in progress stop, the offset grows, recovery begins (R174). -/
def applyReplay (p : Nat) (h : HeldNotice) (s : State) : State :=
  match (partOf s p).image, jobOf s p with
  | some i, some j =>
    let mine := h.n.epoch == j.epochBase + j.epoch
    let s1 := setJob p (markApplied h j) s
    if mine && j.running then
      let s2 := if h.n.n = 0 then s1 else applyHold p h s1
      let s3 := stopActions p (dropFlags p s2)
      setSeqs p (fun q => { q with st := .replay, epoch := j.epoch, entry := 0, inflight := [], done := [], vis := [], reported := [] })
        (modJob p (fun j => { j with replayed := true, replays := satAdd 0xFFFF j.replays 1, attempt := j.attempt + 1, localDone := false,
                                     restartAt := some (h.n.instant + 4 * i.recovery) }) s3)
    else s1
  | _, _ => s

/-- At one instant, holds apply before a replay (R179). -/
def replayInstantEffect (p : Nat) (s : State) : State :=
  match jobOf s p with
  | some j =>
    match dueNotice j 1 with
    | some h =>
      match dueNotice j 0 with
      | some g => if g.n.instant ≤ h.n.instant then applyHold p g (advance g.n.instant s) else applyReplay p h (advance h.n.instant s)
      | none => applyReplay p h (advance h.n.instant s)
    | none => s
  | none => s

def execReplayInstant (p : Nat) (s : State) : Host.Outcome State Fault Refusal := onWf (.replayInstant p) (replayInstantEffect p s)

/-- The abort instant: the job stops ABORTED_RETIRE for a retirement (R175), else its partition is reset (R181). -/
def applyAbort (p : Nat) (h : HeldNotice) (s : State) : State :=
  if h.n.cause = 3 then abortJob p stRetire true s else partReset p s

def abortInstantEffect (p : Nat) (s : State) : State :=
  match (jobOf s p).bind (fun j => dueNotice j 2) with
  | some h => applyAbort p h (advance h.n.instant s)
  | none => s

def execAbortInstant (p : Nat) (s : State) : Host.Outcome State Fault Refusal := onWf (.abortInstant p) (abortInstantEffect p s)

/-! ### Notices that arrive (R171, R178, R180, R182, R332) -/

/-- The partition whose open job a notice names. -/
def noticePart (s : State) (n : Notice) : Option Nat :=
  (s.parts.find? (fun e => match e.2.job with | some j => j.id == n.job && decide (1 < j.members) | none => false)).map (·.1)

/-- A notice arrives: a copy already held is discarded; another is kept and flooded onward (R178, R332). -/
def receive (port : Nat) (n : Notice) (keep : Nat → State → State) (s : State) : State :=
  match noticePart s n with
  | some p =>
    match jobOf s p with
    | some j =>
      if j.seen.elem (n.origin, n.serial) then s
      else keep p (flood n (some port) (setJob p { j with seen := j.seen ++ [(n.origin, n.serial)] } s))
    | none => s
  | none => s

/-- A notice with an instant is held until it, or applied on receipt and counted where it has passed (R180). -/
def keepUntil (n : Notice) (apply : Nat → HeldNotice → State → State) (p : Nat) (s : State) : State :=
  let h : HeldNotice := { n := n }
  let s1 := modJob p (fun j => { j with notices := j.notices ++ [h] }) s
  if n.instant < now s then apply p h (modJob p (fun j => { j with lateNotices := satAdd max32 j.lateNotices 1 }) s1) else s1

def holdNoticeEffect (port : Nat) (n : Notice) (s : State) : State :=
  if n.kind = 0 then receive port n (keepUntil n applyHold) s else s

def execHoldNotice (port : Nat) (n : Notice) (s : State) : Host.Outcome State Fault Refusal :=
  onWf (.holdNotice port n) (holdNoticeEffect port n s)

def replayNoticeEffect (port : Nat) (n : Notice) (s : State) : State :=
  if n.kind = 1 then receive port n (keepUntil n applyReplay) s else s

def execReplayNotice (port : Nat) (n : Notice) (s : State) : Host.Outcome State Fault Refusal :=
  onWf (.replayNotice port n) (replayNoticeEffect port n s)

def abortNoticeEffect (port : Nat) (n : Notice) (s : State) : State :=
  if n.kind = 2 then receive port n (keepUntil n applyAbort) s else s

def execAbortNotice (port : Nat) (n : Notice) (s : State) : Host.Outcome State Fault Refusal :=
  onWf (.abortNotice port n) (abortNoticeEffect port n s)

/-- Degraded mode begins at the first epoch named (R182); it is never left. -/
def degradeFrom (e p : Nat) (s : State) : State :=
  noteDegraded p (modJob p (fun j => { j with degFrom := some (match j.degFrom with | some d => min d e | none => e) }) s)

def degradeNoticeEffect (port : Nat) (n : Notice) (s : State) : State :=
  if n.kind = 3 then receive port n (degradeFrom n.instant) s else s

def execDegradeNotice (port : Nat) (n : Notice) (s : State) : Host.Outcome State Fault Refusal :=
  onWf (.degradeNotice port n) (degradeNoticeEffect port n s)

/-- A commit notice is kept; the epoch commits once those of every member are held (R171). -/
def commitNoticeEffect (port : Nat) (n : Notice) (s : State) : State :=
  if n.kind = 4 then
    receive port n (fun p s => tryCommit p (modJob p (fun j => { j with commits := setIns (n.epoch * 1024 + n.origin) j.commits }) s)) s
  else s

def execCommitNotice (port : Nat) (n : Notice) (s : State) : Host.Outcome State Fault Refusal :=
  onWf (.commitNotice port n) (commitNoticeEffect port n s)

/-- The notice delivery bound: the largest arrival less instant over every other member; none while unbounded (R333). -/
def deliveryBound (s : State) : Option Nat :=
  match s.route with
  | none => none
  | some r =>
    let others := (List.range r.members).filter (fun m => decide (m ≠ r.self))
    if others.all (fun m => (tblGet? s.quartz.probes m).isSome) then
      some ((others.map (fun m => tblGet 0 s.quartz.probes m)).foldl max 0)
    else none

/-- A probe arrives: it updates the bound and is flooded onward once (R332, R333). -/
def probeNoticeEffect (port : Nat) (n : Notice) (s : State) : State :=
  if n.kind = 5 then
    match tblGet? s.quartz.probeSeen n.origin with
    | some k => if n.serial ≤ k then s else
      flood n (some port) { s with quartz := { s.quartz with probes := tblSet n.origin (now s - n.instant) s.quartz.probes,
                                                             probeSeen := tblSet n.origin n.serial s.quartz.probeSeen } }
    | none =>
      flood n (some port) { s with quartz := { s.quartz with probes := tblSet n.origin (now s - n.instant) s.quartz.probes,
                                                             probeSeen := tblSet n.origin n.serial s.quartz.probeSeen } }
  else s

def execProbeNotice (port : Nat) (n : Notice) (s : State) : Host.Outcome State Fault Refusal :=
  onWf (.probeNotice port n) (probeNoticeEffect port n s)

/-- A member in CONSIST, or the time root in LOCAL, sends its probe on every used port (R333). -/
def probeSendEffect (s : State) : State :=
  let root := match s.route with | some r => r.timeRoot == r.self | none => false
  if s.quartz.state == .consist || (root && s.quartz.state == .localRef) then
    let s1 := match s.quartz.lastProbe with | some t => advance (t + 10000000000) s | none => s
    let n : Notice := { kind := 5, origin := selfNo s, cause := 0, serial := s.quartz.probeSerial, epoch := 0, job := 0,
                        instant := now s1, n := 0 }
    flood n none { s1 with quartz := { s1.quartz with lastProbe := some (now s1), probeSerial := (s.quartz.probeSerial + 1) % 2 ^ 32 } }
  else s

def execProbeSend (s : State) : Host.Outcome State Fault Refusal := onWf .probeSend (probeSendEffect s)

/-- The slots that can hold the first epoch planned at or after `t`: the present one, and those about `t`. -/
def slotsAbout (i : Image) (j : Job) (offset t : Nat) : List Nat :=
  let k := (t - (j.t0 + offset)) * i.slotDen / max 1 i.slotNum
  j.slot :: ((List.range 4).map (fun n => max (j.slot + 1) (k + n - 1)))

/-- The first epoch of the job or session, counted across slots, whose planned start is at or after `t` (R182). -/
def firstDegraded (i : Image) (j : Job) (offset t : Nat) : Nat :=
  let ks := if j.service then slotsAbout i j offset t else [0]
  let es := ks.flatMap (fun k => (List.range i.nEpochs).map (fun e => (k, e)))
  let start := fun (k : Nat) => if j.service then slotOpening i j.t0 offset k else j.t0 + offset
  match es.find? (fun x => (decide (j.slot < x.1) || decide (j.epoch ≤ x.2)) && decide (t ≤ start x.1 + epochStart i j x.2)) with
  | some x => x.1 * i.nEpochs + x.2
  | none => j.epochBase + i.nEpochs

/-- A member that becomes degraded tells the consist that epoch. -/
def degradeJob (p : Nat) (s : State) : State :=
  match (partOf s p).image, jobOf s p with
  | some i, some j =>
    if j.degFrom.isSome then s
    else
      let e := firstDegraded i j (partOf s p).offset (now s + 4 * i.holdLead)
      degradeFrom e p (issue p 3 5 e e 0 s)
  | _, _ => s

/-- The package enters the degraded condition (R182, R310, R325). -/
def enterDegraded (s : State) : State :=
  s.parts.foldl (fun s e => degradeJob e.1 s) { s with degraded := true }

/-! ### Watchdogs (R453, R456) -/

/-- A tile action that has not completed 100 ms after its launch plus its budget marks its tile failed (R453). -/
def tileWatchdogEffect (st : Nat) (s : State) : State :=
  match (seqOf s st).inflight.head?, streamJob s st, physOf s st with
  | some f, some (_, i, j), some t =>
    match (epochEntries i st j.epoch)[f.idx]? with
    | some x => retireTile t 4 (advance (f.at_ + budgetOf j x + 100000000) s)
    | none => s
  | _, _, _ => s

def execTileWatchdog (st : Nat) (s : State) : Host.Outcome State Fault Refusal := onWf (.tileWatchdog st) (tileWatchdogEffect st s)

/-- A unit marked failed in the record: Dray d as d, reduction engine e as 64 + e (R456). -/
def unitFailed (s : State) (u : Nat) : Bool := (s.record.committed ++ s.record.buffered).any (fun e => e.kind == 1 && e.a == u)

/-- A Dray or reduction engine that does not answer 100 ms beyond launch plus budget is marked failed; the member sends
an abort notice (R456). -/
def unitWatchdogEffect (st : Nat) (s : State) : State :=
  match (seqOf s st).inflight.head?, streamJob s st with
  | some f, some (p, i, j) =>
    match (epochEntries i st j.epoch)[f.idx]? with
    | some x =>
      let u := if st < 584 then st - 544 else 64 + (st - 584)
      issueAbort p 4 (recordEntry { kind := 1, a := u } (advance (f.at_ + budgetOf j x + 100000000) s))
    | none => s
  | _, _ => s

def execUnitWatchdog (st : Nat) (s : State) : Host.Outcome State Fault Refusal := onWf (.unitWatchdog st) (unitWatchdogEffect st s)

end Sys2Proof.Machine
end

