-- ==== Sys2Proof/Machine/Wrc.lean ====
section
/-! DEFINITION. The weight read cache: lookup, victim choice, fills, stride detectors, invalidation (R204 to R212). -/

namespace Sys2Proof.Machine

/-- Set and tag of a 128-byte line (R204): `l` is PA / 128. -/
def wrcSet (l : Nat) : Nat := (l % 32768) ^^^ (l / 32768 % 32768)
def wrcTag (l : Nat) : Nat := l / 32768

def setOf (s : State) (die l : Nat) : WrcSet := tblGet {} s.wrc.sets (die * 32768 + wrcSet l)
def putSet (die l : Nat) (x : WrcSet) (s : State) : State := { s with wrc := { s.wrc with sets := tblSet (die * 32768 + wrcSet l) x s.wrc.sets } }

/-- The way that holds a line. -/
def wayOf (x : WrcSet) (l : Nat) : Option Nat := (x.ways.find? (fun e => e.2.tag == wrcTag l)).map (·.1)

/-- SECDED over 128 bits finds a word of the line that it cannot correct (R204). -/
def wayLost (y : WrcWay) : Bool := (List.range 8).any (fun k => decide (2 ≤ popcount 128 (y.bad / 2 ^ (128 * k) % 2 ^ 128)))

/-- A way is read: an error is corrected, or the line is invalidated and the lookup misses; both are counted (R212). -/
def meetWay (die l : Nat) (s : State) : State :=
  let x := setOf s die l
  match (wayOf x l).bind (fun w => (tblGet? x.ways w).map (fun y => (w, y))) with
  | some (w, y) =>
    if y.bad = 0 then s
    else if wayLost y then
      let s1 := putSet die l { x with ways := tblDel w x.ways } s
      { s1 with wrc := { s1.wrc with lost := s1.wrc.lost + 1 } }
    else
      let s1 := putSet die l { x with ways := tblSet w { y with bad := 0 } x.ways } s
      { s1 with wrc := { s1.wrc with corrected := s1.wrc.corrected + 1 } }
  | none => s

/-- Whether a lookup of the line hits. -/
def wrcHits (s : State) (die l : Nat) : Bool :=
  let x := setOf s die l
  match (wayOf x l).bind (tblGet? x.ways) with
  | some y => !wayLost y
  | none => false

/-- One step of the victim search (R206): the node, the lowest way and the width of the subtree. -/
def victimWalk (plru mask : Nat) : Nat → (node lo width : Nat) → Nat
  | 0, _, lo, _ => lo
  | f + 1, node, lo, width =>
    let half := width / 2
    let left := decide (fld mask (lo + half - 1) lo ≠ 0)
    let right := decide (fld mask (lo + width - 1) (lo + half) ≠ 0)
    let want := bit plru node
    let go := if want then right else !left
    victimWalk plru mask f (2 * node + b2n go) (if go then lo + half else lo) half

/-- The victim of a fill within a way mask (R206). -/
def victim (x : WrcSet) (mask : Nat) : Nat :=
  match (bitsOf 16 mask).find? (fun w => (tblGet? x.ways w).isNone) with
  | some w => w
  | none => victimWalk x.plru mask 4 1 0 16

/-- The tree bits after a way is touched (R206). -/
def touchWalk (way : Nat) : Nat → (plru node lo width : Nat) → Nat
  | 0, plru, _, _, _ => plru
  | f + 1, plru, node, lo, width =>
    let half := width / 2
    let right := decide (lo + half ≤ way)
    touchWalk way f (setFld plru node node (b2n (!right))) (2 * node + b2n right) (if right then lo + half else lo) half

def touchWay (x : WrcSet) (way : Nat) : WrcSet := { x with plru := touchWalk way 4 x.plru 1 0 16 }

/-- A line is filled into the ways of a mask (R205). -/
def allocate (die l mask : Nat) (data : List Byte) (s : State) : State :=
  let x := setOf s die l
  let w := victim x mask
  putSet die l (touchWay { x with ways := tblSet w { tag := wrcTag l, data := data } x.ways } w) s

/-- The way mask of a partition on a die. -/
def wayMask (s : State) (p die : Nat) : Nat := (partOf s p).wayMask.getD die 0

/-- A fill that is outstanding for a line on a die. -/
def fillOf (s : State) (die l : Nat) : Option WrcFill := s.wrc.fills.find? (fun f => f.die == die && f.line == l)

def dropFill (die l : Nat) (s : State) : State :=
  { s with wrc := { s.wrc with fills := s.wrc.fills.filter (fun f => !(f.die == die && f.line == l)) } }

/-- A fill's line arrives: it is allocated unless it is poisoned or an invalidation covered it (R196, R208, R210). -/
def finishFill (f : WrcFill) (s : State) : State :=
  let s1 := dropFill f.die f.line s
  if rangePoisoned s1 (f.line * 128) 128 then countPoison (f.line * 2) s1
  else
    let (bs, s2) := cohRead (.dray (8 * f.die)) (f.line * 128) 128 none s1
    if f.keep then
      let data := f.writes.foldl (fun d w => let (o, p) := linePart w.1 w.2 (f.line * 2); let (o', p') := linePart w.1 w.2 (f.line * 2 + 1)
        patch (patch d o p) (64 + o') p') bs
      allocate f.die f.line f.mask data s2
    else s2

/-- Whether the cache or an outstanding fill has the line. -/
def presentOrFlying (s : State) (die l : Nat) : Bool := (wayOf (setOf s die l) l).isSome || (fillOf s die l).isSome

/-- A cacheable read of a stream passes its detector (R211): prefetches for the next lines along a trained stride. -/
def detect (d rs p l : Nat) (s : State) : State :=
  let die := d / 8
  let k := die * 64 + 8 * (d % 8) + rs
  let x := tblGet {} s.wrc.det k
  let delta : Option Int := x.last.map (fun m => (l : Int) - m)
  let same := match delta with | some v => x.delta == some v && decide (v ≠ 0) && decide (v.natAbs ≤ 64) | none => false
  let s1 := { s with wrc := { s.wrc with det := tblSet k { last := some l, delta := delta, trained := same } s.wrc.det } }
  match same, delta with
  | true, some v =>
    (List.range (partOf s p).pfDepth).foldl (fun s i =>
      let t := (l : Int) + v * ((i : Int) + 1)
      let n := t.toNat
      if 0 ≤ t && n * 128 / extSize == l * 128 / extSize && inHbm s (n * 128 / extSize) && !presentOrFlying s die n then
        { s with wrc := { s.wrc with fills := s.wrc.fills ++ [{ die := die, line := n, part := p, mask := wayMask s p die, prefetch := true }] } }
      else s) s1
  | _, _ => s1

/-- A stream's detector is cleared when it starts a new action (R211). -/
def clearDetector (d rs : Nat) (s : State) : State :=
  if d < 32 then { s with wrc := { s.wrc with det := tblDel (d / 8 * 64 + 8 * (d % 8) + rs) s.wrc.det } } else s

/-- A cacheable read of one 128-byte line by Dray `d` of a compute die (R205, R207): hit, or the whole line is filled. -/
def wrcRead (d rs p l : Nat) (s : State) : List Byte × State :=
  let die := d / 8
  let s := meetWay die l s
  let x := setOf s die l
  let r : List Byte × State := match wayOf x l with
    | some w => (match tblGet? x.ways w with | some y => y.data | none => [], putSet die l (touchWay x w) s)
    | none =>
      match fillOf s die l with
      | some f =>
        let s1 := finishFill { f with keep := f.keep } s
        (peek s1 (l * 128) 128, s1)
      | none =>
        let s1 := charge p (l * 128) 128 true s
        let (bs, s2) := cohRead (.dray d) (l * 128) 128 none s1
        (bs, allocate die l (wayMask s p die) bs s2)
  (r.1, detect d rs p l r.2)

/-- Cacheable reads of a byte range. -/
def wrcReadRange (d rs p a n : Nat) (s : State) : List Byte × State :=
  let first := a / 128
  let (bs, s1) := ((List.range (ceilDiv (a % 128 + n) 128)).map (· + first)).foldl (fun (acc : List Byte × State) l =>
    let (v, s1) := wrcRead d rs p l acc.2
    (acc.1 ++ v, s1)) ([], s)
  ((bs.drop (a % 128)).take n, s1)

/-- Whether a cacheable read of a range would meet poison: only lines that the cache does not hold reach memory. -/
def wrcPoisoned (s : State) (d a n : Nat) : Bool :=
  ((List.range (ceilDiv (a % 128 + n) 128)).map (· + a / 128)).any (fun l =>
    !wrcHits s (d / 8) l && rangePoisoned s (l * 128) 128)

/-- A UMR write by a Dray of a die is looked up in its cache (R208). -/
def wrcWrite (d a : Nat) (bs : List Byte) (s : State) : State :=
  let die := d / 8
  if 32 ≤ d || (s.wrc.sets.isEmpty && s.wrc.fills.isEmpty) then s
  else
    let s1 := ((List.range (ceilDiv (a % 128 + bs.length) 128)).map (· + a / 128)).foldl (fun s l =>
      let s := meetWay die l s
      let x := setOf s die l
      match wayOf x l with
      | some w =>
        let lo := max a (l * 128)
        let part := (bs.drop (lo - a)).take (min (a + bs.length) (l * 128 + 128) - lo)
        (match tblGet? x.ways w with
         | some y => putSet die l (touchWay { x with ways := tblSet w { y with data := patch y.data (lo - l * 128) part } x.ways } w) s
         | none => s)
      | none => s) s
    { s1 with wrc := { s1.wrc with fills := s1.wrc.fills.map (fun f =>
      if f.die == die && overlap (f.line * 128) 128 a bs.length then { f with writes := f.writes ++ [(a, bs)] } else f) } }

/-- A range invalidation completes on a die (R210): no line of the range is valid; outstanding fills are not retained. -/
def wrcInvalidate (die a n : Nat) (s : State) : State :=
  if n = 0 then s
  else
    let hit := fun (k : Nat) (e : Nat × WrcWay) =>
      let low := (k % 32768) ^^^ (e.2.tag % 32768)
      overlap ((e.2.tag * 32768 + low) * 128) 128 a n
    { s with wrc := { s.wrc with
      sets := s.wrc.sets.map (fun e => if e.1 / 32768 = die then (e.1, { e.2 with ways := e.2.ways.filter (fun w => !hit e.1 w) }) else e)
      fills := s.wrc.fills.map (fun f => if f.die == die && overlap (f.line * 128) 128 a n then { f with keep := false } else f) } }

/-- CACHE_FILL: the line of an outstanding fill arrives (R205, R206, R212). -/
def cacheFillEffect (die l : Nat) (s : State) : State :=
  match fillOf s die l with
  | some f => finishFill f s
  | none => s

def execCacheFill (die l : Nat) (s : State) : Host.Outcome State Fault Refusal := onWf (.cacheFill die l) (cacheFillEffect die l s)

end Sys2Proof.Machine
end

