-- ==== Sys2Proof/Machine/Dray.lean ====
section
/-! DEFINITION. Dray operations: operands, checks, movement, digests, conversion, and the ends of commands and actions
(R29, R355 to R362, R489). -/

namespace Sys2Proof.Machine

/-! ### The descriptor (Tables 13-6 and 13-7) -/

structure DrayDesc where
  acquire : Bool
  cacheable : Bool
  dmode : Nat
  dside : Bool
  len : Nat
  op : Nat
  src : Nat
  dst : Nat
  params : Word
  digestDst : Nat
  auxA : Nat
  auxB : Nat
  indexBase : Nat
  receipt : Nat
  rstream : Nat
  deriving DecidableEq, Repr

def drayDesc (d : List Word) : DrayDesc :=
  let w0 := wd d 0
  let w7 := wd d 7
  { acquire := bit w0.toNat 45, cacheable := bit w0.toNat 44, dmode := wf w0 43 42, dside := bit w0.toNat 41, len := wf w0 37 6,
    op := wf w0 5 0, src := (wd d 1).toNat, dst := (wd d 2).toNat, params := wd d 3, digestDst := (wd d 4).toNat,
    auxA := (wd d 5).toNat, auxB := (wd d 6).toNat, indexBase := wf w7 63 24, receipt := wf w7 23 22, rstream := wf w7 21 19 }

def DrayDesc.indexed (d : DrayDesc) : Bool := d.op == 0x31 || d.op == 0x32
def DrayDesc.convert (d : DrayDesc) : Bool := d.op == 0x33
def DrayDesc.hasDst (d : DrayDesc) : Bool := d.op ≠ 0x34 && d.op ≠ 0x35
def DrayDesc.esize (d : DrayDesc) : Nat := 4 * 2 ^ wf d.params 63 61
def DrayDesc.srcFmt (d : DrayDesc) : Option Fmt := Fmt.ofCode (wf d.params 63 60)
def DrayDesc.dstFmt (d : DrayDesc) : Option OutFmt := OutFmt.ofCode (wf d.params 59 56)
def DrayDesc.dsr (d : DrayDesc) : Bool := bit d.params.toNat 55
def DrayDesc.win (d : DrayDesc) : Nat := wf d.params 54 47
def DrayDesc.tensor (d : DrayDesc) : Nat := wf d.params 46 15
def DrayDesc.srcBits (d : DrayDesc) : Nat := (d.srcFmt.map Fmt.bits).getD 8
def DrayDesc.dstBits (d : DrayDesc) : Nat := (d.dstFmt.map OutFmt.bits).getD 8
def DrayDesc.srcMx (d : DrayDesc) : Bool := (d.srcFmt.map Fmt.isMx).getD false
def DrayDesc.srcTensor (d : DrayDesc) : Bool := (d.srcFmt.map Fmt.isPerTensor).getD false
def DrayDesc.dstMx (d : DrayDesc) : Bool := (d.dstFmt.map OutFmt.isMx).getD false
def DrayDesc.anyMx (d : DrayDesc) : Bool := d.srcMx || d.dstMx

/-! ### Operands (Tables 13-4 and 13-5) -/

/-- Where an operand's bytes stand: `tile` gives a physical tile and a tile byte address. -/
inductive Loc where
  | umr (a : Nat)
  | direct (a : Nat)
  | tile (t a : Nat)
  | remote (pkg off : Nat)
  | nowhere
  deriving DecidableEq, Repr

/-- An operand: the rejection it earns, its place, and the bytes from there to its end, where a region or buffer ends it. -/
structure Operand where
  st : Option Nat := none
  loc : Loc := .nowhere
  cut : Option Nat := none
  deriving DecidableEq, Repr

/-- A rejected operand; the place it names still counts for the overlap check (R8, R358). -/
def badOperand (st : Nat) (l : Loc := .nowhere) (cut : Option Nat := none) : Operand := { st := some st, loc := l, cut := cut }

/-- The place of a physical address; this package's own remote window is the direct aperture (R26). -/
def locOf (s : State) (a : Nat) : Loc :=
  match classify a with
  | .umr x => .umr x
  | .direct x => .direct x
  | .remote pkg off => if s.route.isSome && pkg == selfNo s then .direct off else .remote pkg off
  | _ => .nowhere

/-- Whether [a, a + n) of the UMR lies in the partition's extent ranges. -/
def ownRange (s : State) (p a n : Nat) : Bool := decide (a + n ≤ umrEnd) && inPart (partOf s p) a (max n 1)

/-- An absolute operand of a queue command (Table 13-5). An offset in another package's unbacked range is its target's to answer
(R26). -/
def absOperand (s : State) (p : Nat) (write : Bool) (a n : Nat) : Operand :=
  match locOf s a with
  | .umr x => if ownRange s p x n && !(write && protectedRange s x n) then { loc := .umr x } else badOperand stRegion (.umr x)
  | .direct x => if ownRange s p x n && !(write && protectedRange s x n) then { loc := .direct x } else badOperand stRegion (.direct x)
  | .remote pkg off => if hasRoute s pkg && decide (off + n ≤ 2 ^ 43) then { loc := .remote pkg off } else badOperand stRegion (.remote pkg off)
  | .tile _ _ => badOperand stRegion
  | .nowhere => badOperand stRegion

/-- A region operand of a queue command (R357, R370). -/
def regionOperand (s : State) (p : Nat) (write : Bool) (r off n : Nat) : Operand :=
  let x := regionOf s r
  let len := x.lenPages * 4096
  let loc := if x.valid && !x.msi then locOf s (x.target + off) else .nowhere
  if regionPart s r == some p && x.valid && !x.msi && (if write then x.drayWr else x.drayRd) && decide (off < len) then
    let m := min n (len - off)
    let prot := match loc with
      | .umr a => protectedRange s a m
      | .direct a => protectedRange s a m
      | _ => false
    if write && prot then badOperand stRegion loc (some (len - off)) else { loc := loc, cut := some (len - off) }
  else badOperand stRegion loc (some (len - off))

/-- A tile operand of a queue command: exchange SRAM of the partition's tiles, while no job is open (Table 13-5). -/
def tileOperand (s : State) (p l a n : Nat) : Operand :=
  let loc := (physOf s l).elim Loc.nowhere (fun t => .tile t a)
  if tilePart s l ≠ some p || !inside a n 0x180000 0x10000 then badOperand stRegion loc
  else if (physOf s l).isNone || (jobOf s p).isSome then badOperand stState loc
  else { loc := loc }

/-- A buffer of the bound request (R365). -/
def requestOperand (s : State) (p k off : Nat) : Operand :=
  match (jobOf s p).bind (fun j => j.bound) with
  | some b =>
    let (base, len) := b.bufs.getD k (0, 0)
    { loc := locOf s (base + off), cut := some (len - off) }
  | none => { cut := some 0 }

/-- The reserved bits of a specifier (Table 13-4). -/
def specReserved (v : Nat) : Bool :=
  match fld v 63 62 with
  | 0 => fld v 49 43 ≠ 0
  | 1 => fld v 61 56 ≠ 0
  | 2 => fld v 51 21 ≠ 0
  | _ => fld v 59 43 ≠ 0

/-- An operand of `n` bytes named by a specifier. -/
def operand (s : State) (p : Nat) (slate write : Bool) (v n : Nat) : Operand :=
  match fld v 63 62 with
  | 0 => if slate then badOperand stFormat else regionOperand s p write (fld v 61 50) (fld v 42 0) n
  | 1 => if slate then { loc := locOf s (fld v 55 0) } else absOperand s p write (fld v 55 0) n
  | 2 =>
    if slate then (match physOf s (fld v 61 52) with
      | some t => { loc := .tile t (fld v 20 0) }
      | none => {})
    else tileOperand s p (fld v 61 52) (fld v 20 0) n
  | _ => if slate then requestOperand s p (fld v 61 60) (fld v 42 0) else badOperand stFormat

/-- An operand moved on by an offset. -/
def Loc.plus (l : Loc) (o : Nat) : Loc :=
  match l with
  | .umr a => .umr (a + o)
  | .direct a => .direct (a + o)
  | .tile t a => .tile t (a + o)
  | .remote p a => .remote p (a + o)
  | .nowhere => .nowhere

/-- One number line for all places, to compare ranges. -/
def Loc.key (l : Loc) : Option Nat :=
  match l with
  | .umr a => some a
  | .direct a => some a
  | .tile t a => some (2 ^ 60 + t * 0x200000 + a)
  | .remote p a => some (2 ^ 61 + p * 2 ^ 43 + a)
  | .nowhere => none

def locOverlap (a b : Loc × Nat) : Bool :=
  match a.1.key, b.1.key with
  | some x, some y => overlap x a.2 y b.2
  | _, _ => false

/-! ### Who moves -/

/-- The Dray at work: its partition, whether for a Slate action, the seed, and remote bytes that have arrived. -/
structure Mover where
  dray : Nat
  part : Nat
  slate : Bool
  seed : Nat
  got : Mem := []
  deriving DecidableEq, Repr

/-- Where remote bytes are keyed in `DrayWait.got`. -/
def remoteKey (pkg off : Nat) : Nat := pkg * 2 ^ 43 + off

/-- Reads `n` bytes; a cacheable read of the UMR by a compute-die Dray goes through the weight read cache (R204). -/
def moverRead (m : Mover) (cache : Bool) (rs : Nat) (acq : Option Scope) (l : Loc) (n : Nat) (s : State) : List Byte × State :=
  match l with
  | .umr a =>
    if n = 0 then ([], s)
    else if cache && decide (m.dray < 32) then wrcReadRange m.dray rs m.part a n s
    else cohRead (.dray m.dray) a n acq (charge m.part a n true s)
  | .direct a => if n = 0 then ([], s) else dirRead (.dray m.dray) a n acq (charge m.part a n false s)
  | .tile t a => (tileRead s t (ownDray m.dray) a n, readReach t (ownDray m.dray) a n s)
  | .remote p a => (memRead m.got (remoteKey p a) n, s)
  | .nowhere => (List.replicate n 0, s)

/-- A write into a write-protected extent, which a request buffer may name, is refused and raises EV_REGION_FAULT (R154). -/
def refused (s : State) (l : Loc) (n : Nat) : Bool :=
  match l with
  | .umr a => protectedRange s a n
  | .direct a => protectedRange s a n
  | _ => false

/-- Writes bytes. -/
def moverWrite (m : Mover) (l : Loc) (bs : List Byte) (s : State) : State :=
  if bs.isEmpty then s
  else if refused s l bs.length then raiseEvent evRegionFault m.dray (causeOf evRegionFault 1) s
  else match l with
    | .umr a => cohWrite (.dray m.dray) a bs none (wrcWrite m.dray a bs (charge m.part a bs.length false s))
    | .direct a => dirWrite (.dray m.dray) a bs none (wrcWrite m.dray a bs (charge m.part a bs.length false s))
    | .tile t a => checkReach t (ownDray m.dray) a bs.length (tileWrite t (ownDray m.dray) a bs s)
    | .remote p a => remoteWrite p 4 a bs (.dray m.dray) s
    | .nowhere => s

/-- Whether a read meets poison (R196, Table 07-3). -/
def moverPoison (s : State) (m : Mover) (cache : Bool) (r : Loc × Nat) : Bool :=
  match r.1 with
  | .umr a => if cache && decide (m.dray < 32) then wrcPoisoned s m.dray a r.2 else rangePoisoned s a r.2
  | .direct a => rangePoisoned s a r.2
  | _ => false

/-! ### Lengths (R359) -/

/-- Bytes that an operand's cut leaves of `n`. -/
def Operand.left (o : Operand) (n : Nat) : Nat := match o.cut with | some c => min c n | none => n

/-- Elements of a conversion of `n` source bytes, and the destination bytes of `k` elements. -/
def cvtElems (d : DrayDesc) (n : Nat) : Nat := n * 8 / d.srcBits
def cvtBytes (d : DrayDesc) (k : Nat) : Nat := k * d.dstBits / 8

/-- The source bytes, the destination bytes and the scale bytes that a descriptor names in full. -/
def srcSpan (d : DrayDesc) : Nat := d.len
def dstSpan (d : DrayDesc) : Nat := if d.convert then cvtBytes d (cvtElems d d.len) else d.len
def auxASpan (d : DrayDesc) : Nat :=
  if d.indexed then 4 * (d.len / d.esize)
  else if d.convert then (if d.srcMx then cvtElems d d.len / 32 else if d.srcTensor then 1 else 0) else 0
def auxBSpan (d : DrayDesc) : Nat := if d.convert && d.dstMx then cvtElems d d.len / 32 else 0

/-- The operands of a descriptor, as far as its operation uses them. -/
structure Operands where
  src : Operand
  dst : Operand
  auxA : Operand
  auxB : Operand
  dig : Operand
  deriving DecidableEq, Repr

/-- An indexed operand's base is one element long until its indices are read. -/
def operandsOf (s : State) (p : Nat) (slate : Bool) (d : DrayDesc) : Operands :=
  let one := d.esize
  { src := operand s p slate false d.src (if d.op = 0x31 then one else srcSpan d)
    dst := if d.hasDst then operand s p slate true d.dst (if d.op = 0x32 then one else dstSpan d) else {}
    auxA := if auxASpan d = 0 then {} else operand s p slate false d.auxA (auxASpan d)
    auxB := if auxBSpan d = 0 then {} else operand s p slate true d.auxB (auxBSpan d)
    dig := if d.dmode = 0 then {} else operand s p slate true d.digestDst 48 }

/-! ### Format checks (R358, R361) -/

/-- The ranges of one command whose overlap is malformed: src, dst, index list and scales, the indexed one apart. -/
def namedRanges (d : DrayDesc) (o : Operands) : List (Loc × Nat) :=
  (if d.op = 0x31 then [] else [(o.src.loc, o.src.left (srcSpan d))]) ++
  (if d.op = 0x32 || !d.hasDst then [] else [(o.dst.loc, o.dst.left (dstSpan d))]) ++
  [(o.auxA.loc, o.auxA.left (auxASpan d)), (o.auxB.loc, o.auxB.left (auxBSpan d))]

def anyPair {α : Type} (f : α → α → Bool) : List α → Bool
  | [] => false
  | a :: t => t.any (f a) || anyPair f t

/-- The checks of a descriptor's own fields for its Dray, in the order of the fields (R357, R358, R361, Tables 13-6 and 13-7):
whether the field fails, its word and its lowest bit. -/
def drayFields (slate : Bool) (dray : Nat) (w : List Word) : List (Bool × Nat × Nat) :=
  let d := drayDesc w
  let inv := decide (d.op = 0x35)
  let fp8 := (d.dstFmt.map OutFmt.isPerTensorFp8).getD false
  [(decide (d.op = 0x35 ∧ 32 ≤ dray), 0, 0),
   ((d.indexed && decide (d.len % d.esize ≠ 0)) || (d.convert && (decide (d.len * 8 % d.srcBits ≠ 0) ||
     (d.srcBits = 6 && decide (d.len % 3 ≠ 0)) || (d.anyMx && decide (cvtElems d d.len % 32 ≠ 0)))), 0, 6),
   (decide (wf (wd w 0) 40 38 ≠ 0), 0, 38), (d.dside && (decide (d.dmode = 0) || d.op = 0x34), 0, 41),
   (decide (d.dmode = 3) || (inv && decide (d.dmode ≠ 0)) || (d.op = 0x34 && decide (d.dmode = 0)), 0, 42),
   (d.cacheable && (inv || decide (32 ≤ dray)), 0, 44), (inv && d.acquire, 0, 45),
   (slate && decide (wf (wd w 0) 46 46 ≠ 0), 0, 46), (slate && decide (wf (wd w 0) 47 47 ≠ 0), 0, 47),
   (slate && decide (wf (wd w 0) 63 48 ≠ 0), 0, 48),
   (specReserved d.src, 1, 0), (specReserved d.dst || (!d.hasDst && decide (d.dst ≠ 0)), 2, 0),
   (if d.convert then decide (wf d.params 14 0 ≠ 0) else if d.indexed then decide (wf d.params 60 0 ≠ 0) else decide (d.params.toNat ≠ 0), 3, 0),
   (d.convert && ((!d.dstMx && !fp8 && decide (d.win ≠ 0)) || (d.dstMx && decide (223 < d.win)) || (fp8 && decide (d.win = 255))), 3, 47),
   (d.convert && (d.dstFmt.isNone || decide (wf d.params 59 56 = 0)), 3, 56), (d.convert && d.srcFmt.isNone, 3, 60),
   (specReserved d.digestDst || (d.dmode = 0 && decide (d.digestDst ≠ 0)), 4, 0),
   (specReserved d.auxA || (!d.indexed && !(d.convert && (d.srcMx || d.srcTensor)) && decide (d.auxA ≠ 0)), 5, 0),
   (specReserved d.auxB || (!(d.convert && d.dstMx) && decide (d.auxB ≠ 0)), 6, 0),
   (slate && decide (wf (wd w 7) 15 0 ≠ 0), 7, 0), (decide (wf (wd w 7) 18 16 ≠ 0), 7, 16), (inv && decide (d.rstream ≠ 0), 7, 19),
   (decide (d.receipt = 3) || (!slate && decide (d.receipt ≠ 0)) || (d.dmode = 0 && decide (d.receipt ≠ 0)), 7, 22),
   (if d.convert then d.dsr && decide (2 ^ 40 < d.indexBase + cvtElems d d.len) else decide (d.indexBase ≠ 0), 7, 24)]

/-- Whether a descriptor is malformed for its Dray (R358, R361). -/
def drayMalformed (slate : Bool) (dray : Nat) (w : List Word) : Bool := (drayFields slate dray w).any (·.1)

/-- The overlap check of R358; a COPY onto itself is excepted. -/
def drayOverlaps (d : DrayDesc) (o : Operands) : Bool :=
  if d.op = 0x30 && o.src.loc == o.dst.loc then false else anyPair locOverlap (namedRanges d o)

/-! ### Indexed elements (R357, R359, R489) -/

/-- The 32-bit indices of a GATHER or SCATTER. -/
def indices (bs : List Byte) : List Nat := (chunks 4 (bs.length / 4 + 1) bs).map leNat

/-- Extents that an installed image keeps pinned: those pinned to its partition now (R222, R489). -/
def pinnedRange (s : State) (p a n : Nat) : Bool := (extsOf a n).all (fun x => (extOf s x).pin == some p)

/-- What becomes of an element at an offset of the indexed operand: moved, skipped past a cut, or outside what is permitted. -/
inductive ElemFate where
  | moved | cut | outside
  deriving DecidableEq, Repr

def elemFate (s : State) (m : Mover) (write : Bool) (o : Operand) (off n : Nat) : ElemFate :=
  match o.cut with
  | some c => if off + n ≤ c then .moved else .cut
  | none =>
    let okUmr := fun a =>
      ownRange s m.part (a + off) n &&
      !(write && protectedRange s (a + off) n) && (!m.slate || !write || pinnedRange s m.part (a + off) n)
    match o.loc with
    | .umr a => if okUmr a then .moved else .outside
    | .direct a => if okUmr a then .moved else .outside
    | .tile _ a => if bankOf a == bankOf (a + off + n - 1) then .moved else .outside
    | .remote _ a => if a + off + n ≤ 2 ^ 43 then .moved else .outside
    | .nowhere => .outside

/-! ### Movement -/

/-- What a command or action has done: bytes consumed, flags, clamps, the digested stream, elements skipped outside. -/
structure Moved where
  count : Nat := 0
  trunc : Bool := false
  clamps : Nat := 0
  stream : List Byte := []
  skipped : Bool := false
  deriving DecidableEq, Repr

/-- COPY and DIGEST: contiguous bytes. -/
def moveCopy (m : Mover) (d : DrayDesc) (o : Operands) (s : State) : Moved × State :=
  let n := if d.hasDst then min (o.src.left d.len) (o.dst.left d.len) else o.src.left d.len
  let (bs, s1) := moverRead m d.cacheable d.rstream (if d.acquire then some .consist else none) o.src.loc n s
  let s2 := if d.hasDst then moverWrite m o.dst.loc bs s1 else s1
  ({ count := n, trunc := decide (n < d.len), stream := bs }, s2)

/-- The list of indices as far as the index list reaches. -/
def readIndices (m : Mover) (d : DrayDesc) (o : Operands) (s : State) : List Nat × State :=
  let (bs, s1) := moverRead m false d.rstream none o.auxA.loc (o.auxA.left (auxASpan d) / 4 * 4) s
  (indices bs, s1)

/-- One element of a GATHER or SCATTER: element `i`, index `x`. -/
def moveElem (m : Mover) (d : DrayDesc) (o : Operands) (acc : Moved × State) (e : Nat × Nat) : Moved × State :=
  let r := acc.1
  let s := acc.2
  let n := d.esize
  let gather := d.op == 0x31
  let flat := if gather then o.dst else o.src
  let idx := if gather then o.src else o.dst
  let inFlat := match flat.cut with | some c => decide (e.1 * n + n ≤ c) | none => true
  match inFlat, elemFate s m (!gather) idx (e.2 * n) n with
  | true, .moved =>
    let from_ := if gather then idx.loc.plus (e.2 * n) else flat.loc.plus (e.1 * n)
    let to_ := if gather then flat.loc.plus (e.1 * n) else idx.loc.plus (e.2 * n)
    let acq := if d.acquire && r.count == 0 then some Scope.consist else none
    let (bs, s1) := moverRead m d.cacheable d.rstream acq from_ n s
    ({ r with count := r.count + n, stream := r.stream ++ bs }, moverWrite m to_ bs s1)
  | true, .outside => ({ r with trunc := true, skipped := true }, s)
  | _, _ => ({ r with trunc := true }, s)

def moveIndexed (m : Mover) (d : DrayDesc) (o : Operands) (s : State) : Moved × State :=
  let (xs, s1) := readIndices m d o s
  let n := d.len / d.esize
  let r := ((List.range n).zip xs).foldl (moveElem m d o) ({ trunc := decide (xs.length < n) }, s1)
  r

/-- Elements of a conversion after every cut (R359). -/
def cvtCount (d : DrayDesc) (o : Operands) : Nat :=
  let k := min (cvtElems d (o.src.left d.len)) (match o.dst.cut with | some c => min (cvtElems d d.len) (c * 8 / d.dstBits) | none => cvtElems d d.len)
  let k1 := if d.srcMx then min k (32 * o.auxA.left (auxASpan d)) else k
  let k2 := if d.dstMx then min k1 (32 * o.auxB.left (auxBSpan d)) else k1
  if d.anyMx then k2 / 32 * 32 else k2

/-- The values of the source elements (R361). -/
def cvtValues (d : DrayDesc) (f : Fmt) (bytes scales : List Byte) (k : Nat) : List FVal :=
  (List.range k).map (fun i =>
    let v := f.decode (codeAt bytes (i * f.bits) f.bits)
    if d.srcMx then v.scaled (scales.getD (i / 32) 0).toNat
    else if d.srcTensor then v.scaled (scales.getD 0 0).toNat else v)

/-- Codes and block scales of the destination, and clamps (R60 to R62, R361). -/
def cvtEncode (d : DrayDesc) (seed : Nat) (f : OutFmt) (vs : List FVal) : List Nat × List Nat × Nat :=
  let ps := (vs.zip (List.range vs.length)).map (fun p => (p.1, rndFor d.dsr seed d.tensor (d.indexBase + p.2)))
  if f.isMx then
    (chunks 32 (ps.length / 32 + 1) ps).foldl (fun acc b =>
      let (sc, cl) := blockScale f d.win (b.map (·.1))
      (acc.1 ++ blockElems f sc b, acc.2.1 ++ [sc], acc.2.2 + b2n cl)) ([], [], 0)
  else (ps.map (fun p => f.elem p.2 (if f.isPerTensorFp8 then p.1.scale (127 - (d.win : Int)) else p.1)), [], 0)

def packCodes (w : Nat) (cs : List Nat) : List Byte := leBytes (cs.length * w / 8) (cs.foldr (fun c n => n * 2 ^ w + c % 2 ^ w) 0)

def moveConvert (m : Mover) (d : DrayDesc) (o : Operands) (s : State) : Moved × State :=
  match d.srcFmt, d.dstFmt with
  | some f, some g =>
    let k := cvtCount d o
    let n := k * f.bits / 8
    let (bs, s1) := moverRead m d.cacheable d.rstream (if d.acquire then some .consist else none) o.src.loc n s
    let (sc, s2) := moverRead m false d.rstream none o.auxA.loc (if d.srcMx then k / 32 else if d.srcTensor then o.auxA.left 1 else 0) s1
    let (cs, scs, cl) := cvtEncode d m.seed g (cvtValues d f bs sc k)
    let outb := packCodes g.bits cs
    let s3 := moverWrite m o.dst.loc outb s2
    let s4 := moverWrite m o.auxB.loc (scs.map (BitVec.ofNat 8)) s3
    ({ count := n, trunc := decide (n < d.len), clamps := cl, stream := if d.dside then outb else bs }, s4)
  | _, _ => ({}, s)

/-- INVALIDATE: the range of src in the cache of the Dray's die (R210). -/
def moveInvalidate (m : Mover) (d : DrayDesc) (o : Operands) (s : State) : Moved × State :=
  let n := o.src.left d.len
  let a := match o.src.loc with | .umr a => some a | .direct a => some a | _ => none
  ({ count := n, trunc := decide (n < d.len) }, match a with | some a => wrcInvalidate (m.dray / 8) a n s | none => s)

/-- The digest of a stream: SHA-384, or the seal-tree root (R360). -/
def streamDigest (mode : Nat) (bs : List Byte) : List Byte := if mode = 1 then sha384 bs else sealRoot bs

/-- Runs the operation and writes its digest. -/
def moveAll (m : Mover) (d : DrayDesc) (o : Operands) (s : State) : Moved × Option (List Byte) × State :=
  let s0 := clearDetector m.dray d.rstream s
  let (r, s1) := if d.len = 0 then ({}, s0)
    else if d.indexed then moveIndexed m d o s0
    else if d.convert then moveConvert m d o s0
    else if d.op = 0x35 then moveInvalidate m d o s0
    else moveCopy m d o s0
  if d.dmode ≠ 0 && !r.stream.isEmpty then
    let g := streamDigest d.dmode r.stream
    (r, some g, moverWrite m o.dig.loc g s1)
  else (r, none, s1)

/-- The contiguous source ranges whose poison ends the command; indexed elements are added once their indices are known. -/
def readRanges (s : State) (m : Mover) (d : DrayDesc) (o : Operands) : List (Loc × Nat) :=
  let aux := [(o.auxA.loc, o.auxA.left (auxASpan d))]
  if d.op = 0x35 || d.len = 0 then []
  else if d.op = 0x31 then
    let xs := (readIndices m d o s).1
    aux ++ (xs.filter (fun x => elemFate s m false o.src (x * d.esize) d.esize == .moved)).map (fun x => (o.src.loc.plus (x * d.esize), d.esize))
  else aux ++ [(o.src.loc, o.src.left d.len)]

def meetsPoison (s : State) (m : Mover) (d : DrayDesc) (o : Operands) : Bool :=
  (readRanges s m d o).any (moverPoison s m d.cacheable)

/-! ### Queue commands (R29, R355 to R359, R490) -/

/-- The Dray has entries in the installed image of the partition while a job is open there (R355). -/
def drayScheduled (s : State) (p d : Nat) : Bool :=
  (jobOf s p).isSome && (match (partOf s p).image with | some i => !(tblGet [] i.streams (544 + d)).isEmpty | none => false)

/-- The operand whose elements the indices choose. -/
def indexedOperand (d : DrayDesc) (o : Operands) : Operand := if d.op = 0x31 then o.src else o.dst

/-- Whether an index of a queue command leaves what Table 13-5 permits: checked before any data moves (R489). -/
def indexOutside (s : State) (m : Mover) (d : DrayDesc) (o : Operands) : Bool :=
  d.indexed && decide (d.len ≠ 0) && ((readIndices m d o s).1).any (fun x =>
    elemFate s m (d.op == 0x32) (indexedOperand d o) (x * d.esize) d.esize == .outside)

/-- The checks of a queue command, all made before any data moves (R8, R29, R357). -/
def drayChecks (s : State) (m : Mover) (w : List Word) : Option Nat :=
  let d := drayDesc w
  let o := operandsOf s m.part false d
  let sts := [o.src.st, o.dst.st, o.auxA.st, o.auxB.st, o.dig.st].filterMap id
  let run := decide (d.len ≠ 0)
  lowest ([(drayMalformed false m.dray w || (run && drayOverlaps d o), stFormat),
           (drayScheduled s m.part m.dray, stState),
           (run && (match o.dig.cut with | some c => decide (c < 48) | none => false), stRegion)] ++
          sts.map (fun st => (run || st == stFormat, st)) ++
          [(run && o.auxA.st.isNone && (indexedOperand d o).loc != .nowhere && indexOutside s m d o, stRegion)])

/-- The completion record of a queue command that ran. -/
def drayRec (w : List Word) (r : Moved) : Rec :=
  { descRec w stDone with status := stDone * 256 + 4 * b2n (decide (0 < r.clamps)) + b2n r.trunc, count := r.count }

/-- Lines of other packages that the command still needs: its index list or scales first, then its source. -/
def remoteLines (r : Loc × Nat) : List (Nat × Nat) :=
  match r.1 with
  | .remote p a => (linesOf a r.2).map (fun l => (p, l))
  | _ => []

def missingLines (s : State) (m : Mover) (have_ : NatSet) (d : DrayDesc) (o : Operands) : List (Nat × Nat) :=
  let miss := fun (ls : List (Nat × Nat)) => ls.filter (fun e => !setHas have_ (e.1 * 2 ^ 37 + e.2))
  let first := miss (remoteLines (o.auxA.loc, o.auxA.left (auxASpan d)))
  if d.len = 0 then [] else if !first.isEmpty then first else miss ((readRanges s m d o).flatMap remoteLines)

/-- The command's data moves and its record waits; a poisoned read resets the partition (Table 07-3). -/
def finishCommand (m : Mover) (q : Nat) (w : List Word) (s : State) : State :=
  let d := drayDesc w
  let o := operandsOf s m.part false d
  if meetsPoison s m d o then
    let l := (readRanges s m d o).find? (moverPoison s m d.cacheable)
    let line := match l with | some (.umr a, _) => a / 64 | some (.direct a, _) => a / 64 | _ => 0
    partReset m.part (pushRec q (descRec w stReset) (countPoison line s))
  else
    let (r, _, s1) := moveAll m d o s
    pushRec q { drayRec w r with needs := tokenNeeds s1 m.part } s1

/-- Remote reads for lines of other packages. -/
def requestLines (d : Nat) (acq : Bool) (ls : List (Nat × Nat)) (s : State) : State :=
  (ls.foldl (fun (a : Bool × State) e => (false, sendReq e.1 (if a.1 then 1 else 0) (e.2 * 64) 0 [] (.dray d) none a.2)) (acq, s)).2

/-- Goes on with a command: it waits for remote lines, or its data moves. -/
def runCommandOn (m : Mover) (q : Nat) (w : List Word) (x : DrayWait) (s : State) : State :=
  let d := drayDesc w
  let m1 := { m with got := x.got }
  let o := operandsOf s m.part false d
  let ls := (missingLines s m1 x.lines d o).dedup
  if ls.isEmpty then
    let s1 := { s with drayWait := tblDel m.dray s.drayWait }
    if indexOutside s1 m1 d o then raiseEvent evRegionFault m.dray (causeOf evRegionFault 4) (pushRec q (descRec w stRegion) s1)
    else finishCommand m1 q w s1
  else requestLines m.dray (d.acquire && x.lines.isEmpty) ls { s with drayWait := tblSet m.dray x s.drayWait }

/-- Queues of a Dray whose next command could start, ascending (R355). -/
def readyQueues (s : State) (d : Nat) : List Nat :=
  (s.queues.filter (fun e => decide (e.2.qtype = 0) && e.2.dray == d && e.2.enable && !e.2.accepted.isEmpty && e.2.recs.isEmpty && e.2.cur.isNone)).map (·.1)

def drayBusy (s : State) (d : Nat) : Bool := s.queues.any (fun e => decide (e.2.qtype = 0) && e.2.dray == d && e.2.cur.isSome && e.2.recs.isEmpty)

/-- The queue served next: round-robin by queue number after the one served last. -/
def nextQueue (s : State) (d : Nat) : Option Nat :=
  let qs := readyQueues s d
  match tblGet? s.drayLast d with
  | some l => match qs.find? (fun q => decide (l < q)) with
    | some q => some q
    | none => qs.head?
  | none => qs.head?

/-- The next accepted command of queue `q` starts on its Dray, if it is the operation `op` and its turn (R355). -/
def drayCommand (op q : Nat) (s : State) : State :=
  let x := queueOf s q
  match x.accepted with
  | (w, _) :: rest =>
    if wf (wd w 0) 5 0 = op && nextQueue s x.dray == some q && !drayBusy s x.dray then
      match queuePart s q with
      | none => s
      | some p =>
        let s1 := setQueue q { x with accepted := rest, cur := some w } { s with drayLast := tblSet x.dray q s.drayLast }
        let m : Mover := { dray := x.dray, part := p, slate := false, seed := 0 }
        match drayChecks s1 m w with
        | some st =>
          let s2 := pushRec q (descRec w st) s1
          if st = stRegion then raiseEvent evRegionFault x.dray (causeOf evRegionFault 4) s2 else s2
        | none => runCommandOn m q w { queue := q } s1
    else s
  | [] => s

/-- A response for a line that a Dray's command asked for (R335): data, or an error, which rejects the command as R22 gives. -/
def drayArrive (d pkg l : Nat) (data : Option (List Byte)) (s : State) : State :=
  match tblGet? s.drayWait d with
  | none => s
  | some x =>
    match (queueOf s x.queue).cur, data with
    | some w, some bs =>
      let y := { x with got := memWrite x.got (remoteKey pkg (l * 64)) bs, lines := setIns (pkg * 2 ^ 37 + l) x.lines }
      let s1 := { s with drayWait := tblSet d y s.drayWait }
      if s1.remote.out.any (fun o => o.req == .dray d && (o.op == 0 || o.op == 1)) then s1
      else
        match queuePart s1 x.queue with
        | some p => runCommandOn { dray := d, part := p, slate := false, seed := 0 } x.queue w y s1
        | none => s1
    | some w, none =>
      raiseEvent evRegionFault d (causeOf evRegionFault 4)
        (pushRec x.queue (descRec w stRegion) { s with drayWait := tblDel d s.drayWait,
                                                       remote := { s.remote with out := s.remote.out.filter (fun o => !(o.req == .dray d)) } })
    | none, _ => { s with drayWait := tblDel d s.drayWait }

/-! ### Slate actions (R362, R489) -/

/-- The digest of an action reaches the job's receipt when its epoch commits (R58, R360). -/
def noteDigest (p st idx receipt : Nat) (g : Option (List Byte)) (s : State) : State :=
  match g with
  | none => s
  | some g => modJob p (fun j =>
    let k := (st, j.epochBase + j.epoch, idx)
    if receipt = 1 then { j with epDigIn := j.epDigIn ++ [(k, g)] }
    else if receipt = 2 then { j with epDigOut := j.epDigOut ++ [(k, g)] } else j) s

/-- What an action's movement leaves on the job: TRUNC, scale clamps, and one EV_REGION_FAULT for skipped elements. -/
def noteMoved (p d : Nat) (r : Moved) (s : State) : State :=
  let s1 := modJob p (fun j => { j with epTrunc := j.epTrunc || r.trunc, epClampN := satAdd max32 j.epClampN r.clamps }) s
  if r.skipped then raiseEvent evRegionFault d (causeOf evRegionFault 4) s1 else s1

/-- The data movement of a Slate Dray action of stream `st` (its entry has launched). -/
def drayAction (p st idx seed : Nat) (w : List Word) (s : State) : State :=
  let d := drayDesc w
  let m : Mover := { dray := st - 544, part := p, slate := true, seed := seed }
  let o := operandsOf s p true d
  if meetsPoison s m d o then
    let l := (readRanges s m d o).find? (moverPoison s m d.cacheable)
    let line := match l with | some (.umr a, _) => a / 64 | some (.direct a, _) => a / 64 | _ => 0
    issueAbort p 4 (countPoison line s)
  else
    let (r, g, s1) := moveAll m d o s
    noteMoved p m.dray r (noteDigest p st idx d.receipt g s1)

end Sys2Proof.Machine
end

