-- ==== Sys2Proof/Machine/Vector.lean ====
section
/-! DEFINITION. The vector engine: registers, instructions and programs (R94 to R107). -/

namespace Sys2Proof.Machine

/-! ### Instruction fields (Tables 04-3 and 04-5) -/

def vOp (w : Word) : Nat := wf w 63 56
def vType (w : Word) : Nat := wf w 55 52
def vVd (w : Word) : Nat := wf w 51 47
def vVa (w : Word) : Nat := wf w 46 42
def vVb (w : Word) : Nat := wf w 41 37
def vVc (w : Word) : Nat := wf w 36 32
def vKm (w : Word) : Nat := wf w 31 29
def vNegB (w : Word) : Bool := bit w.toNat 28
/-- The anchor fields: [27:18], and the target of VREANCHOR in [17:8]. -/
def vAnchor (w : Word) : Int := sext 10 (wf w 27 18)
def vAnchor2 (w : Word) : Int := sext 10 (wf w 17 8)
def vQ (w : Word) : Nat := wf w 17 15
def vImm (w : Word) : Int := sext 28 (wf w 27 0)

/-- The floating-point type of a type code. -/
def vFp (w : Word) : Option FpType := [FpType.fp32, .bf16, .fp16][vType w]?

/-- Bytes of an element of a type code (R95); codes above 3 are reserved. -/
def vSize (w : Word) : Nat := match vType w with | 0 => 4 | 1 => 2 | 2 => 2 | _ => 16

def vCount (w : Word) : Nat := 256 / vSize w

/-! ### Registers (Table 04-1, R95, R96) -/

/-- Element `i` of register `r` in a view of `sz`-byte elements. -/
def vGet (v : Vec) (r sz i : Nat) : Nat := memLe v.v (256 * r + sz * i) sz

/-- A128 element as an integer. -/
def vGetA (v : Vec) (r i : Nat) : Int := sext 128 (vGet v r 16 i)

/-- A mask register: k0 is all ones. -/
def vMask (v : Vec) (k : Nat) : Nat := if k = 0 then 2 ^ 128 - 1 else (tblGet 0 v.k k).toNat

/-- Writes elements (number, code) of register `r`. -/
def vPut (r sz : Nat) (xs : List (Nat × Nat)) (v : Vec) : Vec :=
  { v with v := xs.foldl (fun m e => memWrite m (256 * r + sz * e.1) (leBytes sz e.2)) v.v }

/-- The unmasked elements below `n` (R96). -/
def vLanes (v : Vec) (w : Word) (n : Nat) : List Nat := bitsOf n (vMask v (vKm w))

/-- An element-wise instruction: vd's unmasked elements take `f i`. -/
def vMap (v : Vec) (w : Word) (sz n : Nat) (f : Nat → Nat) : Vec := vPut (vVd w) sz ((vLanes v w n).map (fun i => (i, f i))) v

/-- A source element of an FP instruction. -/
def vSrc (v : Vec) (t : FpType) (r i : Nat) : FVal := t.spec.decode (vGet v r t.size i)

/-- The second source, negated where neg_b is 1. -/
def vSrcB (v : Vec) (w : Word) (t : FpType) (i : Nat) : FVal :=
  let x := vSrc v t (vVb w) i
  if vNegB w then x.negate else x

/-- An FP instruction of one, two or three sources. -/
def vFpMap (v : Vec) (w : Word) (f : FpType → Nat → FVal) : Vec :=
  match vFp w with
  | some t => vMap v w t.size (256 / t.size) (fun i => fpRound t (f t i))
  | none => v

/-! ### The operations (Table 04-4) -/

def opVadd (w : Word) (v : Vec) : Vec := vFpMap v w (fun t i => (vSrc v t (vVa w) i).add (vSrcB v w t i))
def opVmul (w : Word) (v : Vec) : Vec := vFpMap v w (fun t i => (vSrc v t (vVa w) i).mul (vSrcB v w t i))
def opVfma (w : Word) (v : Vec) : Vec :=
  vFpMap v w (fun t i => ((vSrc v t (vVa w) i).mul (vSrcB v w t i)).add (vSrc v t (vVc w) i))
def opVmax (w : Word) (v : Vec) : Vec := vFpMap v w (fun t i => (vSrc v t (vVa w) i).maxNum (vSrcB v w t i))
def opVmin (w : Word) (v : Vec) : Vec := vFpMap v w (fun t i => (vSrc v t (vVa w) i).minNum (vSrcB v w t i))
def opVsign (w : Word) (v : Vec) : Vec := vFpMap v w (fun t i => vsignVal (vSrc v t (vVa w) i))
def opVexp (w : Word) (v : Vec) : Vec := vFpMap v w (fun t i => vexpVal (vSrc v t (vVa w) i))
def opVlog (w : Word) (v : Vec) : Vec := vFpMap v w (fun t i => vlogVal (vSrc v t (vVa w) i))
def opVrsqrt (w : Word) (v : Vec) : Vec := vFpMap v w (fun t i => vrsqrtVal (vSrc v t (vVa w) i))

/-- VSEL: bit i of k[vc] chooses va or vb. An FP result that is NaN is canonical (R102; log 25). -/
def opVsel (w : Word) (v : Vec) : Vec :=
  let m := vMask v (vVc w)
  match vFp w with
  | some t => vFpMap v w (fun _ i => if bit m i then vSrc v t (vVa w) i else vSrcB v w t i)
  | none => vMap v w 16 16 (fun i => if bit m i then vGet v (vVa w) 16 i else vGet v (vVb w) 16 i)

/-- A VCMP condition of two values: −0 equals +0 (R102). -/
def vCond (c : Nat) (a b : FVal) : Bool :=
  if c = 0 then a.eqv b
  else if c = 1 then a.lt b && !a.eqv b
  else if c = 2 then a.lt b || a.eqv b
  else a.isNan || b.isNan

/-- VCMP: bits of k[vd] for the unmasked elements; the other bits keep their values (R96). -/
def opVcmp (w : Word) (v : Vec) : Vec :=
  match vFp w with
  | some t =>
    let old := vMask v (vVd w)
    let new := (vLanes v w (256 / t.size)).foldl (fun m i =>
      setFld m i i (b2n (vCond (wf w 2 0) (vSrc v t (vVa w) i) (vSrcB v w t i)))) old
    { v with k := tblSet (vVd w) (BitVec.ofNat 128 new) v.k }
  | none => v

/-- VCVTA (R66, R104): elements 16q to 16q + 15 of va become A128; each saturation counts. -/
def opVcvta (w : Word) (v : Vec) : Vec × Nat :=
  match vFp w with
  | some t =>
    let rs := (vLanes v w 16).map (fun i => (i, termOf (vSrc v t (vVa w) (16 * vQ w + i)) (vAnchor w)))
    let n := (rs.filter (fun r => r.2.2)).length
    ({ vPut (vVd w) 16 (rs.map (fun r => (r.1, toCode 128 r.2.1))) v with ovf := v.ovf || decide (0 < n) }, n)
  | none => (v, 0)

/-- VA128ADD (R45, R104). -/
def opVa128add (w : Word) (v : Vec) : Vec :=
  let rs := (vLanes v w 16).map (fun i => (i, accAdd (vGetA v (vVa w) i) (vGetA v (vVb w) i)))
  { vPut (vVd w) 16 (rs.map (fun r => (r.1, toCode 128 r.2.1))) v with ovf := v.ovf || rs.any (fun r => r.2.2) }

/-- The sum of a multiset of A128 values, whatever its order (R45, R104): special codes combine by Table 02-5, finite ones
as one exact sum that saturates. -/
def a128Sum (xs : List Int) : Int × Bool :=
  let sp := xs.filter a128Special
  if sp.isEmpty then accAdd (xs.foldl (· + ·) 0) 0 |> fun r =>
    let t := xs.foldl (· + ·) 0
    if finMax < t then (finMax, true) else if t < -finMax then (-finMax, true) else r
  else (sp.foldl specialSum 0, false)

/-- VA128RSUM: element 0 of vd takes the sum, the other elements zero; the mask chooses the terms alone (R96, Table 04-4;
log 25). -/
def opVa128rsum (w : Word) (v : Vec) : Vec :=
  let (t, o) := a128Sum ((vLanes v w 16).map (vGetA v (vVa w)))
  let v1 := vPut (vVd w) 16 ((List.range 16).map (fun i => (i, if i = 0 then toCode 128 t else 0))) v
  { v1 with ovf := v.ovf || o }

/-- VREANCHOR (R42, R104). -/
def opVreanchor (w : Word) (v : Vec) : Vec :=
  let rs := (vLanes v w 16).map (fun i => (i, reanchor (vGetA v (vVa w) i) (vAnchor w) (vAnchor2 w)))
  { vPut (vVd w) 16 (rs.map (fun r => (r.1, toCode 128 r.2.1))) v with ovf := v.ovf || rs.any (fun r => r.2.2) }

/-- The rounding of output element `l` (R104, R106). -/
def vRnd (v : Vec) (dsr : Bool) (l : Nat) : Rnd := rndFor dsr v.seed v.tensor (v.indexBase + tblGet 0 v.a 7 + l)

/-- VA128DRAIN (R60, R61, R104): destination elements 16q to 16q + 15. -/
def opVa128drain (w : Word) (v : Vec) : Vec :=
  match vFp w with
  | some t =>
    let ls := (vLanes v w (256 / t.size)).filter (fun l => l / 16 == vQ w)
    vPut (vVd w) t.size (ls.map (fun l =>
      (l, t.spec.drain (vRnd v (bit w.toNat 14) l) (a128Val (vGetA v (vVa w) (l % 16)) (vAnchor w))))) v
  | none => v

/-! ### VCVT (R105 to R107) -/

def cvRound (w : Word) : Bool := bit w.toNat 27
def cvWin (w : Word) : Nat := wf w 26 19
def cvDst (w : Word) : Nat := wf w 18 15
def cvSrc (w : Word) : Nat := wf w 14 11

/-- Code of element `l` among packed elements of `b` bits in register `r`. -/
def vPacked (v : Vec) (r b l : Nat) : Nat := codeAt (memRead v.v (256 * r) 256) (l * b) b

/-- Writes packed elements and, for MX, the two scale bytes; the other bytes are zero (R105). An element that the mask
leaves out keeps its bits (R96). -/
def vPack (r b : Nat) (codes : List (Nat × Nat)) (scales : List Nat) (v : Vec) : Vec :=
  let keep := (List.range 64).map (fun l => match codes.find? (fun e => e.1 == l) with
    | some e => e.2
    | none => vPacked v r b l)
  let num := keep.foldr (fun c n => n * 2 ^ b + c % 2 ^ b) 0
  let bytes := leBytes 248 num ++ (if scales.isEmpty then List.replicate 8 0 else scales.map (BitVec.ofNat 8) ++ List.replicate 6 0)
  { v with v := memWrite v.v (256 * r) bytes }

/-- FP32 to another format (R106), with the number of blocks clamped. -/
def cvtFrom (w : Word) (f : OutFmt) (v : Vec) : Vec × Nat :=
  let src := fun l => spFp32.decode (vGet v (vVa w) 4 l)
  let rnd := vRnd v (cvRound w)
  if f.isMx then
    let blk := fun b => (List.range 32).map (fun i => (src (32 * b + i), rnd (32 * b + i)))
    let sc := (List.range 2).map (fun b => blockScale f (cvWin w) ((blk b).map (·.1)))
    let codes := (List.range 2).flatMap (fun b => blockElems f ((sc.getD b (0, false)).1) (blk b))
    (vPack (vVd w) f.bits ((List.range 64).zip codes) (sc.map (·.1)) v, (sc.filter (·.2)).length)
  else
    let ls := vLanes v w 64
    let val := fun l => if f.isPerTensorFp8 then (src l).scale (127 - (cvWin w : Int)) else src l
    (vPack (vVd w) f.bits (ls.map (fun l => (l, f.cast (rnd l) (val l)))) [] v, 0)

/-- Another format to FP32 (R106). -/
def cvtTo (w : Word) (f : OutFmt) (v : Vec) : Vec :=
  let scale := fun l => memLe v.v (256 * vVa w + 248 + l / 32) 1
  vMap v w 4 64 (fun l =>
    let x := f.decode (vPacked v (vVa w) f.bits l)
    spFp32.encode .rne (if f.isMx then x.scaled (scale l) else x))

/-- VCVT; the per-tensor FP8 source has no scale field of its own, since w_or_scale is reserved for an FP32 destination
(R107; log 25). -/
def opVcvt (w : Word) (v : Vec) : Vec × Nat :=
  match OutFmt.ofCode (cvSrc w), OutFmt.ofCode (cvDst w) with
  | some .fp32, some f => cvtFrom w f v
  | some f, some .fp32 => (cvtTo w f v, 0)
  | _, _ => (v, 0)

/-! ### Address registers, loads and stores (R98, R100) -/

/-- The address of a VLD or VST (Table 04-5). -/
def vAddr (w : Word) (v : Vec) : Nat := (tblGet 0 v.a (vVa w) + 64 * wf w 14 0) % 2 ^ 40

/-- a[va] after the access. -/
def vPost (w : Word) (v : Vec) : Vec :=
  if bit w.toNat 17 then { v with a := tblSet (vVa w) ((tblGet 0 v.a (vVa w) + 256) % 2 ^ 40) v.a } else v

def opAset (w : Word) (v : Vec) : Vec := { v with a := tblSet (vVd w) (toCode 40 (vImm w)) v.a }
def opAadd (w : Word) (v : Vec) : Vec := { v with a := tblSet (vVd w) (toCode 40 (((tblGet 0 v.a (vVd w) : Nat) : Int) + vImm w)) v.a }

/-! ### What an instruction may be (R99) -/

/-- Opcodes of Table 04-4. -/
def vKnown (op : Nat) : Bool :=
  decide (op ≤ 0x08) || [0x10, 0x11, 0x12, 0x18, 0x19, 0x1A, 0x1B, 0x1C, 0x1D, 0x20, 0x21, 0x28, 0x29, 0x30, 0x3F].elem op

/-- Bits of the word that an instruction does not use, as (high, low) (Tables 04-3 to 04-5). -/
def vReserved (w : Word) : List (Nat × Nat) :=
  let op := vOp w
  let a128 := vType w == 3
  if op = 0x00 || op = 0x3F then [(55, 0)]
  else if op = 0x01 || op = 0x02 || op = 0x04 || op = 0x05 then [(36, 32), (27, 0)]
  else if op = 0x03 then [(27, 0)]
  else if op = 0x06 then if a128 then [(28, 28), (17, 0)] else [(27, 0)]
  else if op = 0x07 then [(36, 32), (27, 3)]
  else if op = 0x08 || op = 0x10 || op = 0x11 || op = 0x12 then [(41, 32), (28, 0)]
  else if op = 0x18 then [(55, 52), (41, 32), (28, 28), (10, 0)] ++ (if cvDst w = 1 then [(27, 19)] else if cvDst w = 2 || cvDst w = 3 then [(26, 19)] else [])
  else if op = 0x19 then [(41, 32), (28, 28), (14, 0)]
  else if op = 0x1A then [(36, 32), (28, 28), (17, 0)]
  else if op = 0x1B then [(41, 32), (28, 28), (17, 0)]
  else if op = 0x1C then [(41, 32), (28, 28), (7, 0)]
  else if op = 0x1D then [(41, 32), (28, 28), (13, 0)]
  else if op = 0x20 || op = 0x21 then [(41, 32), (28, 28), (16, 15)] ++ (if a128 then [] else [(27, 18)])
  else if op = 0x28 || op = 0x29 then [(55, 52), (46, 28)]
  else [(55, 28), (11, 8)]

/-- Whether the type code is one that Table 04-4 allows. -/
def vTypeOk (w : Word) : Bool :=
  let op := vOp w
  let t := vType w
  if op = 0x06 || op = 0x20 || op = 0x21 then decide (t ≤ 3)
  else if op = 0x1A || op = 0x1B || op = 0x1C then t = 3
  else if decide (1 ≤ op) && decide (op ≤ 0x12) || op = 0x19 || op = 0x1D then decide (t ≤ 2)
  else true

/-- Register numbers and codes that are legal: no write names k0; address and mask registers are 0 to 7 (R99). -/
def vCodesOk (w : Word) : Bool :=
  let op := vOp w
  if op = 0x07 then decide (1 ≤ vVd w) && decide (vVd w ≤ 7) && decide (wf w 2 0 ≤ 3)
  else if op = 0x06 then decide (vVc w ≤ 7)
  else if op = 0x20 || op = 0x21 then decide (vVa w ≤ 7)
  else if op = 0x28 || op = 0x29 then decide (vVd w ≤ 7)
  else if op = 0x19 || op = 0x1D then decide (vQ w < (if vType w = 0 then 4 else 8))
  else if op = 0x18 then
    let s := cvSrc w
    let d := cvDst w
    let other := fun c => decide (2 ≤ c) && decide (c ≤ 11)
    (s = 1 && other d && (d < 6 || (decide (cvWin w ≤ 223) && vKm w = 0)) && (!(d = 4 || d = 5) || cvWin w ≠ 255)) || (d = 1 && other s)
  else if op = 0x30 then decide (1 ≤ wf w 7 0)
  else true

/-- The word is an instruction that installation accepts (R99). -/
def vInsnOk (w : Word) : Bool :=
  vKnown (vOp w) && (vReserved w).all (fun f => wf w f.1 f.2 = 0) && vTypeOk w && vCodesOk w

/-! ### Issue -/

/-- The engine of a physical tile changes. -/
def modVec (t : Nat) (f : Vec → Vec) (s : State) : State :=
  let x := tileOf s t
  setTile t { x with vec := f x.vec } s

/-- VLD: 256 B into vd, by unmasked elements. -/
def effVld (t : Nat) (w : Word) (s : State) : State :=
  let v := (tileOf s t).vec
  let a := vAddr w v
  let bs := tileRead s t ownVector a 256
  let sz := vSize w
  let v1 := vPut (vVd w) sz ((vLanes v w (vCount w)).map (fun i => (i, leNat ((bs.drop (sz * i)).take sz)))) v
  readReach t ownVector a 256 (modVec t (fun _ => vPost w v1) s)

/-- VST: vd as 256 B, by unmasked elements. -/
def effVst (t : Nat) (w : Word) (s : State) : State :=
  let v := (tileOf s t).vec
  let a := vAddr w v
  let sz := vSize w
  let s1 := (vLanes v w (vCount w)).foldl (fun s i => tileWrite t ownVector (a + sz * i) (leBytes sz (vGet v (vVd w) sz i)) s) s
  checkReach t ownVector a 256 (modVec t (vPost w) s1)

/-- An engine operation with a count for the anchor-overflow or the scale-clamp counter (R104, R106). -/
def effCount (t : Nat) (r : Vec × Nat) (clamp : Bool) (s : State) : State :=
  let s1 := modVec t (fun _ => { r.1 with clamp := r.1.clamp || (clamp && decide (0 < r.2)) }) s
  if clamp then tileFlags t false false 0 r.2 s1 else tileFlags t false false r.2 0 s1

/-- LOOP starts its body (R101). -/
def opLoop (w : Word) (v : Vec) : Vec :=
  { v with loops := { start := v.pc + 1, len := wf w 7 0, left := wf w 27 12 } :: v.loops }

/-- What an instruction does apart from the program counter (Table 04-4). -/
def vecEffect (t : Nat) (w : Word) (s : State) : State :=
  let v := (tileOf s t).vec
  let op := vOp w
  if op = 0x01 then modVec t (opVadd w) s
  else if op = 0x02 then modVec t (opVmul w) s
  else if op = 0x03 then modVec t (opVfma w) s
  else if op = 0x04 then modVec t (opVmax w) s
  else if op = 0x05 then modVec t (opVmin w) s
  else if op = 0x06 then modVec t (opVsel w) s
  else if op = 0x07 then modVec t (opVcmp w) s
  else if op = 0x08 then modVec t (opVsign w) s
  else if op = 0x10 then modVec t (opVexp w) s
  else if op = 0x11 then modVec t (opVlog w) s
  else if op = 0x12 then modVec t (opVrsqrt w) s
  else if op = 0x18 then effCount t (opVcvt w v) true s
  else if op = 0x19 then effCount t (opVcvta w v) false s
  else if op = 0x1A then modVec t (opVa128add w) s
  else if op = 0x1B then modVec t (opVa128rsum w) s
  else if op = 0x1C then modVec t (opVreanchor w) s
  else if op = 0x1D then modVec t (opVa128drain w) s
  else if op = 0x20 then effVld t w s
  else if op = 0x21 then effVst t w s
  else if op = 0x28 then modVec t (opAset w) s
  else if op = 0x29 then modVec t (opAadd w) s
  else if op = 0x30 then modVec t (opLoop w) s
  else if op = 0x3F then modVec t (fun v => { v with running := false }) s
  else s

/-- The program counter moves on; at the end of a loop body it returns while passes are left (R101). -/
def vecNext (v : Vec) : Vec :=
  let n := v.pc + 1
  match v.loops with
  | l :: rest =>
    if n = l.start + l.len then
      (if l.left = 0 then { v with pc := n, loops := rest } else { v with pc := l.start, loops := { l with left := l.left - 1 } :: rest })
    else { v with pc := n }
  | [] => { v with pc := n }

/-- An instruction issues on the engine of a physical tile. -/
def vecIssue (t : Nat) (w : Word) (s : State) : State := modVec t vecNext (vecEffect t w s)

/-- A row of Table 04-4: the engine issues the instruction; a word that is none of the row's, or that R99 keeps from every
program, is another row or none. -/
def vecRow (op t : Nat) (w : Word) (s : State) : State := if vOp w = op && vInsnOk w then vecIssue t w s else s

/-! ### Programs (R97 to R101) -/

/-- The program breaks no check of R99 that its words alone decide: legal instructions, one END at the end, and LOOP bodies
without LOOP or END inside the program. -/
def programOk (p : List Word) : Bool :=
  p.all vInsnOk && (match p.getLast? with | some w => vOp w == 0x3F | none => false) &&
  (p.dropLast.all (fun w => vOp w ≠ 0x3F)) &&
  (List.range p.length).all (fun i =>
    let w := wd p i
    if vOp w = 0x30 then
      decide (i + wf w 7 0 < p.length - 1) && ((p.drop (i + 1)).take (wf w 7 0)).all (fun x => vOp x ≠ 0x30 && vOp x ≠ 0x3F)
    else true)

/-- Runs the loaded program to its END; `fuel` bounds the instructions issued. -/
def vecRun (t : Nat) : Nat → State → State
  | 0, s => s
  | n + 1, s =>
    let v := (tileOf s t).vec
    if v.running then vecRun t n (vecIssue t (tblGet 0 v.prog v.pc) s) else s

/-- More than any program issues: 1,024 instructions and their loops (R99, Table 04-5). -/
def vecFuel : Nat := 2 ^ 35

/-- The engine as a vector action starts it (Table 04-1). -/
def vecStart (d : List Word) (prog : List Word) (seed : Nat) : Vec :=
  let w1 := wd d 1
  let w2 := wd d 2
  { a := [(0, wf w1 63 43), (1, wf w1 42 22), (2, wf w1 21 1), (3, wf w2 63 43), (4, wf w2 42 22), (5, wf w2 21 1)],
    prog := (List.range prog.length).zip prog, running := true,
    tensor := wf (wd d 3) 63 32, indexBase := wf (wd d 4) 63 24, seed := seed }

/-- The vector program on physical tile `t` (R95, R97 to R101): load, run, and pass the flags to the epoch. A program that
R99 rejects performs nothing: its words stand in tile SRAM, so that they are known only now (log 26). -/
def runVectorProgram (t : Nat) (d : List Word) (seed : Nat) (s : State) : State :=
  let w0 := wd d 0
  let a := wf w0 63 43
  let n := wf w0 42 33 + 1
  let prog := wordsOf (tileRead s t ownVector a (8 * n))
  let s0 := readReach t ownVector a (8 * n) s
  if programOk prog then
    let s1 := vecRun t vecFuel (modVec t (fun _ => vecStart d prog seed) s0)
    let v := (tileOf s1 t).vec
    tileFlags t v.ovf v.clamp 0 0 s1
  else s0

/-! ### Meanings -/

def execNop (t : Nat) (w : Word) (s : State) : Host.Outcome State Fault Refusal := onWf (.nop t w) (vecRow 0x00 t w s)
def execVadd (t : Nat) (w : Word) (s : State) : Host.Outcome State Fault Refusal := onWf (.vadd t w) (vecRow 0x01 t w s)
def execVmul (t : Nat) (w : Word) (s : State) : Host.Outcome State Fault Refusal := onWf (.vmul t w) (vecRow 0x02 t w s)
def execVfma (t : Nat) (w : Word) (s : State) : Host.Outcome State Fault Refusal := onWf (.vfma t w) (vecRow 0x03 t w s)
def execVmax (t : Nat) (w : Word) (s : State) : Host.Outcome State Fault Refusal := onWf (.vmax t w) (vecRow 0x04 t w s)
def execVmin (t : Nat) (w : Word) (s : State) : Host.Outcome State Fault Refusal := onWf (.vmin t w) (vecRow 0x05 t w s)
def execVsel (t : Nat) (w : Word) (s : State) : Host.Outcome State Fault Refusal := onWf (.vsel t w) (vecRow 0x06 t w s)
def execVcmp (t : Nat) (w : Word) (s : State) : Host.Outcome State Fault Refusal := onWf (.vcmp t w) (vecRow 0x07 t w s)
def execVsign (t : Nat) (w : Word) (s : State) : Host.Outcome State Fault Refusal := onWf (.vsign t w) (vecRow 0x08 t w s)
def execVexp (t : Nat) (w : Word) (s : State) : Host.Outcome State Fault Refusal := onWf (.vexp t w) (vecRow 0x10 t w s)
def execVlog (t : Nat) (w : Word) (s : State) : Host.Outcome State Fault Refusal := onWf (.vlog t w) (vecRow 0x11 t w s)
def execVrsqrt (t : Nat) (w : Word) (s : State) : Host.Outcome State Fault Refusal := onWf (.vrsqrt t w) (vecRow 0x12 t w s)
def execVcvt (t : Nat) (w : Word) (s : State) : Host.Outcome State Fault Refusal := onWf (.vcvt t w) (vecRow 0x18 t w s)
def execVcvta (t : Nat) (w : Word) (s : State) : Host.Outcome State Fault Refusal := onWf (.vcvta t w) (vecRow 0x19 t w s)
def execVa128add (t : Nat) (w : Word) (s : State) : Host.Outcome State Fault Refusal := onWf (.va128add t w) (vecRow 0x1A t w s)
def execVa128rsum (t : Nat) (w : Word) (s : State) : Host.Outcome State Fault Refusal := onWf (.va128rsum t w) (vecRow 0x1B t w s)
def execVreanchor (t : Nat) (w : Word) (s : State) : Host.Outcome State Fault Refusal := onWf (.vreanchor t w) (vecRow 0x1C t w s)
def execVa128drain (t : Nat) (w : Word) (s : State) : Host.Outcome State Fault Refusal := onWf (.va128drain t w) (vecRow 0x1D t w s)
def execVld (t : Nat) (w : Word) (s : State) : Host.Outcome State Fault Refusal := onWf (.vld t w) (vecRow 0x20 t w s)
def execVst (t : Nat) (w : Word) (s : State) : Host.Outcome State Fault Refusal := onWf (.vst t w) (vecRow 0x21 t w s)
def execAset (t : Nat) (w : Word) (s : State) : Host.Outcome State Fault Refusal := onWf (.aset t w) (vecRow 0x28 t w s)
def execAadd (t : Nat) (w : Word) (s : State) : Host.Outcome State Fault Refusal := onWf (.aadd t w) (vecRow 0x29 t w s)
def execLoop (t : Nat) (w : Word) (s : State) : Host.Outcome State Fault Refusal := onWf (.loop t w) (vecRow 0x30 t w s)
def execEndProg (t : Nat) (w : Word) (s : State) : Host.Outcome State Fault Refusal := onWf (.endProg t w) (vecRow 0x3F t w s)

end Sys2Proof.Machine
end

