-- ==== Sys2Proof/Machine/Update.lean ====
section
/-! DEFINITION. Update programs: streams, blocks, the retain areas and the marker, and the restore before a replay
(R108 to R120). -/

namespace Sys2Proof.Machine

/-! ### The descriptor and the stream table (Tables 04-7 and 04-8) -/

def updCount (d : List Word) : Nat := wf (wd d 0) 63 32 + 1
def updInstrs (d : List Word) : Nat := wf (wd d 0) 31 27 + 1
def updDense (d : List Word) : Bool := bit (wd d 0).toNat 26
def updProg (d : List Word) : Nat := wf (wd d 1) 63 43
def updBitmap (d : List Word) : Nat := wf (wd d 1) 42 0
def updFirst (d : List Word) : Nat := wf (wd d 2) 63 32
def updTable (d : List Word) : Nat := wf (wd d 2) 31 20
def updMarker (d : List Word) : Nat := wf (wd d 3) 42 0
/-- c0 to c7. -/
def updConst (d : List Word) (k : Nat) : Nat := if k % 2 = 0 then wf (wd d (4 + k / 2)) 31 0 else wf (wd d (4 + k / 2)) 63 32

structure UStream where
  fmt : Nat
  dir : Nat
  anchor : Int
  base : Nat
  win : Nat
  dsr : Bool
  scaleBase : Nat
  retain : Nat
  retainScale : Nat
  tensor : Nat
  deriving DecidableEq, Repr

def uStream (tab : List Word) (k : Nat) : UStream :=
  let w := fun i => wd tab (6 * k + i)
  { fmt := wf (w 0) 63 60, dir := wf (w 0) 59 58, anchor := sext 10 (wf (w 0) 57 48), base := wf (w 0) 42 0,
    win := wf (w 1) 63 56, dsr := bit (w 1).toNat 55, scaleBase := wf (w 1) 42 0, retain := wf (w 2) 42 0,
    retainScale := wf (w 3) 42 0, tensor := wf (w 4) 63 32 }

def uStreams (tab : List Word) : List UStream := (List.range 8).map (uStream tab)

def UStream.isIn (u : UStream) : Bool := bit u.dir 0
def UStream.isOut (u : UStream) : Bool := bit u.dir 1
def UStream.inOut (u : UStream) : Bool := u.dir == 3
def UStream.out (u : UStream) : OutFmt := (OutFmt.ofCode u.fmt).getD .a128

/-- Bytes Z of a block of 32 elements (R109). -/
def UStream.size (u : UStream) : Nat := 4 * u.out.bits

/-! ### One block (R110, R111, R113) -/

/-- The slots and temporaries of one element: an A128 slot is its integer, any other an FP32 code. -/
structure UElem where
  x : List Int
  t : List Nat := List.replicate 16 0
  deriving DecidableEq, Repr

/-- An operand as a value: an A128 slot reads drained to FP32 with RNE. -/
def uOperand (us : List UStream) (d : List Word) (e : UElem) (o : Nat) : FVal :=
  if o < 8 then
    match us[o]? with
    | some u =>
      if u.out == .a128 then spFp32.decode (spFp32.drain .rne (a128Val (e.x.getD o 0) u.anchor))
      else spFp32.decode (e.x.getD o 0).toNat
    | none => .fin false 0 0
  else if o < 24 then spFp32.decode (e.t.getD (o - 8) 0)
  else spFp32.decode (updConst d (o - 24))

/-- A result written to a slot or a temporary. -/
def uSet (e : UElem) (o : Nat) (v : Int) : UElem :=
  if o < 8 then { e with x := setAt e.x o v } else { e with t := setAt e.t (o - 8) v.toNat }

/-- What a block's program has raised: sums saturated, terms that counted, and streams whose block scale was clamped. -/
structure URaise where
  ovf : Bool := false
  n : Nat := 0
  clamps : NatSet := []
  deriving DecidableEq, Repr

/-- Codes of 32 values in a stream's format, with its scale (R62, R111); `b` is the block index. -/
def uEncode (seed b : Nat) (u : UStream) (vs : List FVal) : List Nat × Nat × Bool :=
  let ps := (List.range 32).map (fun e => (vs.getD e .nan, rndFor u.dsr seed u.tensor (32 * b + e)))
  if u.out.isMx then
    let (sc, cl) := blockScale u.out u.win vs
    (blockElems u.out sc ps, sc, cl)
  else (ps.map (fun p => if u.out == .fp32 then spFp32.encode .rne p.1 else u.out.cast p.2 p.1), 0, false)

/-- Convert-with-scale: through the format of a stream and back (Table 04-9). -/
def uThrough (seed b : Nat) (u : UStream) (vs : List FVal) : List Nat × Bool :=
  let (cs, sc, cl) := uEncode seed b u vs
  (cs.map (fun c => spFp32.encode .rne (if u.out.isMx then (u.out.decode c).scaled sc else u.out.decode c)), cl)

/-- The result of an element-wise operation (Table 04-9). -/
def uOp (op : Nat) (neg : Bool) (a b c : FVal) : FVal :=
  let b' := if neg then b.negate else b
  if op = 0 then a.mul b'
  else if op = 1 then a.add b'
  else if op = 2 then (a.mul b').add c
  else if op = 3 then a.maxNum b'
  else if op = 4 then (if (FVal.fin false 0 0).lt c && !(FVal.fin false 0 0).eqv c then a else b')
  else if op = 5 then vsignVal a
  else vrsqrtVal a

/-- One instruction over the 32 elements of a block. -/
def uInsn (us : List UStream) (d : List Word) (seed b : Nat) (acc : List UElem × URaise) (i : Nat) : List UElem × URaise :=
  let es := acc.1
  let r := acc.2
  let op := fld i 31 28
  let dst := fld i 27 23
  let rd := fun (e : UElem) (o : Nat) => uOperand us d e o
  let a := fun e => rd e (fld i 22 18)
  if op < 7 then
    (es.map (fun e => uSet e dst (fpRound .fp32 (uOp op (bit i 7) (a e) (rd e (fld i 17 13)) (rd e (fld i 12 8))) : Nat)), r)
  else if op = 7 then
    match us[fld i 12 8]? with
    | some u =>
      let (cs, cl) := uThrough seed b u (es.map a)
      ((es.zip cs).map (fun p => uSet p.1 dst (p.2 : Nat)), if cl then { r with clamps := setIns (fld i 12 8) r.clamps } else r)
    | none => (es, r)
  else if op = 8 then
    match us[dst]? with
    | some u =>
      let ts := es.map (fun e => termOf (a e) u.anchor)
      let sums := (es.zip ts).map (fun p => accAdd (p.1.x.getD dst 0) p.2.1)
      ((es.zip sums).map (fun p => uSet p.1 dst p.2.1),
       { r with ovf := r.ovf || ts.any (·.2) || sums.any (·.2), n := r.n + (ts.filter (·.2)).length })
    | none => (es, r)
  else (es, r)

/-- The element of a stream's block, as a slot holds it. -/
def uElemIn (u : UStream) (bytes : List Byte) (scale e : Nat) : Int :=
  let c := codeAt bytes (e * u.out.bits) u.out.bits
  if u.out == .a128 then sext 128 (leNat ((bytes.drop (16 * e)).take 16))
  else if u.out == .fp32 then ((leNat ((bytes.drop (4 * e)).take 4) : Nat) : Int)
  else ((spFp32.encode .rne (if u.out.isMx then (u.out.decode c).scaled scale else u.out.decode c) : Nat) : Int)

/-- Packed bytes of 32 codes of `w` bits. -/
def uPack (w : Nat) (cs : List Nat) : List Byte := leBytes (4 * w) (cs.foldr (fun c n => n * 2 ^ w + c % 2 ^ w) 0)

/-- A block's final slot as bytes and scale (R111). -/
def uElemsOut (seed b : Nat) (u : UStream) (vs : List Int) : List Byte × Nat × Bool :=
  if u.out == .a128 then (vs.flatMap (fun v => leBytes 16 (toCode 128 v)), 0, false)
  else if u.out == .fp32 then (vs.flatMap (fun v => leBytes 4 v.toNat), 0, false)
  else
    let (cs, sc, cl) := uEncode seed b u (vs.map (fun v => spFp32.decode v.toNat))
    (uPack u.out.bits cs, sc, cl)

/-! ### The update port -/

/-- The UMR ranges of a block that the port reads: in and in-out streams with their scales. -/
def uReads (us : List UStream) (b : Nat) : List (Nat × Nat) :=
  us.flatMap (fun u => if u.isIn then (u.base + b * u.size, u.size) :: (if u.out.isMx then [(u.scaleBase + b, 1)] else []) else [])

/-- A read of the port that meets poison ends the job as R181 does (Table 07-3). -/
def uPoison (p : Nat) (rs : List (Nat × Nat)) (s : State) : Option State :=
  match rs.find? (fun r => rangePoisoned s r.1 r.2) with
  | some r => some (issueAbort p 4 (countPoison (r.1 / 64) s))
  | none => none

/-- Reads by the update port of a tile, one after the other. -/
def portRead (t a n : Nat) (s : State) : List Byte × State := cohRead (.updatePort t) a n none (chargeFor (.updatePort t) a n false s)
def portWrite (t a : Nat) (bs : List Byte) (s : State) : State :=
  cohWrite (.updatePort t) a bs none (chargeFor (.updatePort t) a bs.length true s)

/-- Bytes of the bitmap. -/
def mapBytes (d : List Word) : Nat := if updDense d then 0 else ceilDiv (updCount d) 8

/-- The touched blocks of an action, by their place in it, as the port reads the bitmap (R109). -/
def readMap (t : Nat) (d : List Word) (s : State) : List Nat × State :=
  if updDense d then (List.range (updCount d), s)
  else
    let (bs, s1) := portRead t (updBitmap d) (mapBytes d) s
    ((List.range (updCount d)).filter (fun i => bit (bs.getD (i / 8) 0).toNat (i % 8)), s1)

/-- Copies `n` bytes through the port. -/
def portCopy (t src dst n : Nat) (s : State) : State :=
  let (bs, s1) := portRead t src n s
  portWrite t dst bs s1

/-- Phase 1 of block b: every in-out stream's block and scale to its retain area (R115). -/
def retainBlock (t : Nat) (us : List UStream) (s : State) (b : Nat) : State :=
  us.foldl (fun s u => if u.inOut then
    let s1 := portCopy t (u.base + b * u.size) (u.retain + b * u.size) u.size s
    if u.out.isMx then portCopy t (u.scaleBase + b) (u.retainScale + b) 1 s1 else s1 else s) s

/-- The restore of block b from the retain areas (R119). -/
def restoreBlock (t : Nat) (us : List UStream) (s : State) (b : Nat) : State :=
  us.foldl (fun s u => if u.inOut then
    let s1 := portCopy t (u.retain + b * u.size) (u.base + b * u.size) u.size s
    if u.out.isMx then portCopy t (u.retainScale + b) (u.scaleBase + b) 1 s1 else s1 else s) s

/-- Phase 2 of one block (R111): read, run, write back. -/
def updateBlock (t p : Nat) (u : UpdAct) (seed b : Nat) (s : State) : State :=
  let us := uStreams u.tab
  match uPoison p (uReads us b) s with
  | some s1 => s1
  | none =>
    let ins := us.map (fun x => if x.isIn then
      let bs := (portRead t (x.base + b * x.size) x.size s).1
      let sc := if x.out.isMx then leNat (portRead t (x.scaleBase + b) 1 s).1 else 0
      (List.range 32).map (uElemIn x bs sc)
      else List.replicate 32 0)
    let s1 := (uReads us b).foldl (fun s r => (portRead t r.1 r.2 s).2) s
    let es := (List.range 32).map (fun e => ({ x := ins.map (fun l => l.getD e 0) } : UElem))
    let (fs, r) := u.prog.foldl (uInsn us u.desc seed b) (es, {})
    let outs := (List.range 8).filterMap (fun k => match us[k]? with
      | some x => if x.isOut then some (k, x, uElemsOut seed b x (fs.map (fun e => e.x.getD k 0))) else none
      | none => none)
    let s2 := outs.foldl (fun s o =>
      let x := o.2.1
      let s1 := portWrite t (x.base + b * x.size) o.2.2.1 s
      if x.out.isMx then portWrite t (x.scaleBase + b) [BitVec.ofNat 8 o.2.2.2.1] s1 else s1) s1
    let cl := outs.foldl (fun c o => if o.2.2.2.2 then setIns o.1 c else c) r.clamps
    tileFlags t r.ovf (!cl.isEmpty) r.n cl.length s2

/-! ### Instructions that installation admits (R112) -/

/-- An update instruction with legal fields and operands. -/
def uInsnOk (us : List UStream) (i : Nat) : Bool :=
  let op := fld i 31 28
  let dst := fld i 27 23
  let stream := fun k => us[k]?
  let used := fun o => if o < 8 then (match stream o with | some u => u.dir ≠ 0 | none => false) else true
  let isA := fun o => if o < 8 then (match stream o with | some u => u.out == .a128 | none => false) else false
  let dOk := decide (dst < 24) && (if dst < 8 then (match stream dst with | some u => u.isOut | none => false) else true) && (isA dst == (op == 8))
  let c := fld i 12 8
  decide (fld i 6 0 = 0) && decide (op ≤ 8) && dOk && used (fld i 22 18) &&
  (if op = 0 || op = 1 || op = 3 then used (fld i 17 13) && c = 0
   else if op = 2 || op = 4 then used (fld i 17 13) && used c
   else if op = 7 then decide (fld i 17 13 = 0) && !bit i 7 && decide (c < 8) && used c && !isA c &&
     (match stream c with | some u => u.out ≠ .fp32 | none => false)
   else fld i 17 13 = 0 && c = 0 && !bit i 7)

/-! ### The action -/

/-- Pairs of blocks (R114). -/
def updPairs (d : List Word) : Nat := (updCount d + 1) / 2

def modUpd (t : Nat) (f : UpdAct → Option UpdAct) (s : State) : State :=
  let x := tileOf s t
  match x.upd with
  | some u => setTile t { x with upd := f u } s
  | none => s

/-- The ranges of block `first + i` that phase 1 keeps. -/
def retained (us : List UStream) (first i : Nat) : List (Nat × Nat) :=
  (us.filter UStream.inOut).flatMap (fun x => (x.base + (first + i) * x.size, x.size) :: (if x.out.isMx then [(x.scaleBase + (first + i), 1)] else []))

/-- The update action starts on physical tile `t` (R115): program and table fetched; with an in-out stream, phase 1
writes the touched blocks to the retain areas. A program that R112 rejects performs nothing (log 26). -/
def startUpdate (t p st idx at_ : Nat) (d tab : List Word) (s : State) : State :=
  let n := updInstrs d
  let prog := (List.range n).map (fun j => tileLe s t ownVector (updProg d + 4 * j) 4)
  let us := uStreams tab
  let s0 := readReach t ownVector (updProg d) (4 * n) s
  if prog.all (uInsnOk us) then
    let u : UpdAct := { stream := st, entry := idx, launched := at_, desc := d, tab := tab, prog := prog, phase2 := !us.any UStream.inOut }
    match uPoison p [(updBitmap d, mapBytes d)] s0 with
    | some s1 => s1
    | none =>
      let (bs, sm) := readMap t d s0
      let s1 := setTile t { tileOf sm t with upd := some { u with map := bs } } sm
      let s2 := modJob p (fun j => { j with upds := j.upds ++ [(st, idx, at_)] }) s1
      if u.phase2 then s2
      else match uPoison p (bs.flatMap (retained us (updFirst d))) s2 with
        | some s3 => s3
        | none => modUpd t (fun u => some { u with kept := true }) (bs.foldl (fun s i => retainBlock t us s (updFirst d + i)) s2)
  else s0

/-- The marker is written with the action's launch time once every retain write has been acknowledged (R115). -/
def markerEffect (t : Nat) (s : State) : State :=
  match (tileOf s t).upd with
  | some u => if u.kept && !u.markerWritten && !portHeld s t then
      modUpd t (fun u => some { u with markerWritten := true }) (portWrite t (updMarker u.desc) (leBytes 8 u.launched) s)
    else s
  | none => s

/-- The marker write is acknowledged and phase 2 begins (R115). -/
def phase2Effect (t : Nat) (s : State) : State :=
  if portHeld s t then s else modUpd t (fun u => some (if u.markerWritten then { u with phase2 := true } else u)) s

/-- The write-back of the next pair issues; after the last pair the action is done (R114 to R116). -/
def writebackEffect (t : Nat) (s : State) : State :=
  match (tileOf s t).upd with
  | some u =>
    if u.phase2 then
      let p := (seqOf s u.stream).part
      let seed := match (partOf s p).image with | some i => i.seed | none => 0
      let bs := ([2 * u.next, 2 * u.next + 1].filter (fun i => u.map.elem i)).map (· + updFirst u.desc)
      let s1 := bs.foldl (fun s b => updateBlock t p u seed b s) s
      noteNeeds p u.stream u.entry (modUpd t (fun u => if updPairs u.desc ≤ u.next + 1 then none else some { u with next := u.next + 1 }) s1)
    else s
  | none => s

def execUpdateMarkerWrite (t : Nat) (s : State) : Host.Outcome State Fault Refusal := onWf (.updateMarkerWrite t) (markerEffect t s)
def execUpdatePhase2 (t : Nat) (s : State) : Host.Outcome State Fault Refusal := onWf (.updatePhase2 t) (phase2Effect t s)
def execUpdateWriteback (t : Nat) (s : State) : Host.Outcome State Fault Refusal := onWf (.updateWriteback t) (writebackEffect t s)

/-! ### Restart after a replay (R91, R119, R174) -/

/-- The restore of one update action of the abandoned epoch: only where its marker holds the abandoned launch time. -/
def restoreAction (p : Nat) (s : State) (e : Nat × Nat × Nat) : State :=
  match (partOf s p).image, jobOf s p with
  | some i, some j =>
    match (epochEntries i e.1 j.epoch)[e.2.1]? with
    | some x =>
      let d := x.desc
      let us := uStreams (i.utabs.getD (updTable d) [])
      let t := (physOf s e.1).getD 0
      if us.any UStream.inOut then
        let (m, s1) := portRead t (updMarker d) 8 s
        if leNat m = e.2.2 % 2 ^ 64 then
          let (bs, s2) := readMap t d s1
          bs.foldl (fun s i => restoreBlock t us s (updFirst d + i)) s2
        else s1
      else s
    | none => s
  | _, _ => s

/-- The sequencers of a partition stand at the first entries of the job's epoch. -/
def rewind (p : Nat) (s : State) : State :=
  match (partOf s p).image, jobOf s p with
  | some i, some j =>
    (usedStreams i).foldl (fun s st =>
      let first := ((tblGet [] i.streams st).find? (fun y => decide (j.epoch ≤ y.epoch))).map (·.epoch)
      let q := seqOf s st
      setSeq st { q with epoch := first.getD j.epoch, entry := 0, inflight := [], done := [], vis := [], reported := [],
                         st := if first == some j.epoch then .wait else .epoch } s) s
  | _, _ => s

/-- The restart instant: restores, zeroing and the remap are done, and the epoch's entries launch again (R174). -/
def restartEffect (p : Nat) (s : State) : State :=
  match jobOf s p with
  | some j =>
    match j.restartAt with
    | some r =>
      let s1 := j.upds.foldl (restoreAction p) (advance r s)
      let s2 := modJob p (fun j => { j with upds := [], restartAt := none }) (remapPending p s1)
      noteDegraded p (rewind p s2)
    | none => s
  | none => s

def execRestartInstant (p : Nat) (s : State) : Host.Outcome State Fault Refusal := onWf (.restartInstant p) (restartEffect p s)

end Sys2Proof.Machine
end

