-- ==== Sys2Proof/Machine/Slate.lean ====
section
/-! DEFINITION. Slate actions: bank intervals and implicit gates, and one meaning for each action type
(R84, R122 to R126, R158 to R166, R226, R229 to R242, R337, R362). -/

namespace Sys2Proof.Machine

/-! ### Ownership intervals (R124) -/

/-- The planned launch time of an entry in the mode in force, in quanta from its epoch's start. -/
def plannedAt (j : Job) (x : Entry) : Nat := if degradedAt j x.epoch then x.launchDeg else x.launchNom

/-- The entries of a stream in the job's epoch, with their indices. -/
def numbered (i : Image) (j : Job) (st : Nat) : List (Nat × Entry) :=
  let xs := epochEntries i st j.epoch
  (List.range xs.length).zip xs

/-- The bank grants of a tile's stream in the job's epoch: index, planned launch, descriptor. -/
def epochGrants (i : Image) (j : Job) (l : Nat) : List (Nat × Nat × List Word) :=
  ((numbered i j l).filter (fun e => actionType e.2 == 0x24)).map (fun e => (e.1, plannedAt j e.2, e.2.desc))

/-- The grants that open an interval of bank `b`, in order: index, planned launch and owner. -/
def openers (i : Image) (j : Job) (l b : Nat) : List (Nat × Nat × Nat) :=
  (epochGrants i j l).foldl (fun os g =>
    match grantOwner g.2.2 b with
    | none => os
    | some w => match os.getLast? with
      | some o => if o.2.2 = w then os else os ++ [(g.1, g.2.1, w)]
      | none => [(g.1, g.2.1, w)]) []

/-- The grant whose interval of a bank a planned time falls in. -/
def intervalAt (os : List (Nat × Nat × Nat)) (p : Nat) : Option (Nat × Nat × Nat) :=
  (os.filter (fun o => decide (o.2.1 ≤ p))).getLast?

/-! ### What an action accesses -/

/-- The memories of logical tile `l` in a byte range of it: banks 0 to 3, and 4 for the exchange SRAM, which no grant names. -/
def tileBanks (l a n : Nat) : List (Nat × Nat) := (banksOf a n).map (fun b => (l, b))

/-- The tile operands of a Dray descriptor: logical tile, address, bytes. The reach of an indexed operand in a tile is the
bank of its base (R489). -/
def drayTileSpans (w : List Word) : List (Nat × Nat × Nat) :=
  let d := drayDesc w
  let spec := fun (v n : Nat) => if fld v 63 62 = 2 && decide (0 < n) then [(fld v 61 52, fld v 20 0, n)] else []
  spec d.src (if d.op = 0x31 then d.esize else srcSpan d) ++
  (if d.hasDst then spec d.dst (if d.op = 0x32 then d.esize else dstSpan d) else []) ++
  spec d.auxA (auxASpan d) ++ spec d.auxB (auxBSpan d) ++ (if d.dmode = 0 then [] else spec d.digestDst 48)

/-- Bytes of a collective action's source and result on a ring of `size` (Table 12-10). -/
def collSpans (w : List Word) (size : Nat) : List (Nat × Nat × Nat) :=
  let n := collN w
  let ty := collType w
  let spec := fun (x : Word) (m : Nat) => if collUmr x then [] else [(collTile x, collAddr x, m)]
  if ty = 0x14 then []
  else spec (wd w 1) (n * collEsize ty) ++
    spec (wd w 2) (if ty = 0x11 then n * 16 / max size 1 else if ty = 0x12 then n * 16 * size else n * collEsize ty)

/-- The memories that an entry of stream `st` accesses: logical tile and memory (R122, R129); of a vector program as installation
has worked them out. -/
def entryBanks (s : State) (st : Nat) (x : Entry) : List (Nat × Nat) :=
  let ty := actionType x
  if ty = 0x21 then (cubeSpans (cubeDesc x.desc)).flatMap (fun a => tileBanks st a.1 a.2.1) |>.dedup
  else if ty = 0x22 then
    (tileBanks st (wf (wd x.desc 0) 63 43) (8 * (wf (wd x.desc 0) 42 33 + 1)) ++ x.banks.map (fun b => (st, b))).dedup
  else if ty = 0x23 then tileBanks st (updProg x.desc) (4 * updInstrs x.desc)
  else if 0x30 ≤ ty && ty ≤ 0x35 then ((drayTileSpans x.desc).flatMap (fun a => tileBanks a.1 a.2.1 a.2.2)).dedup
  else if 0x10 ≤ ty && ty ≤ 0x14 then
    ((collSpans x.desc (ringOf s (collRing x.desc)).size).flatMap (fun a => tileBanks a.1 a.2.1 a.2.2)).dedup
  else []

/-- Whether entry `n` of stream `st` has completed in the job's epoch. -/
def entryDone (s : State) (st n : Nat) : Bool := setHas (seqOf s st).done n

/-- Every action assigned to an interval of bank (l, b) has completed. -/
def intervalDone (s : State) (i : Image) (j : Job) (l b k : Nat) : Bool :=
  let os := openers i j l b
  (usedStreams i).all (fun st => (numbered i j st).all (fun e =>
    !((entryBanks s st e.2).elem (l, b)) || (match intervalAt os (plannedAt j e.2) with | some o => o.1 ≠ k | none => true) || entryDone s st e.1))

/-- The interlocks of a tile's cube operations at a time `t` (R84): every earlier operation has issued its last step, its drain into
a bank that this one reads has completed, and any other drain completes by this one's U_0 + 13. The events of Table 03-5 are
taken at 1.50 GHz from each launch. -/
def cubeGates (s : State) (i : Image) (j : Job) (st t : Nat) (x : Entry) : Bool :=
  let ce := cubeDesc x.desc
  let reads := [oneBank (streamSpans ce), oneBank (panelSpans ce)]
  (seqOf s st).inflight.all (fun f => match (epochEntries i st j.epoch)[f.idx]? with
    | none => true
    | some y =>
      let cy := cubeDesc y.desc
      let at_ := fun (c : Nat) => 3 * f.at_ + 2 * c
      actionType y ≠ 0x21 ||
      (decide (at_ (lastIssue cy + 1) ≤ 3 * t) &&
        (!cy.drain || (((oneBank (destSpans cy)).isNone || !reads.elem (oneBank (destSpans cy)) || decide (at_ (cubeEnd cy) ≤ 3 * t)) &&
          decide (at_ (cubeEnd cy) ≤ 3 * t + 2 * (updateAt ce 0 + 13))))))

/-- The instant at which an entry that may launch launches: its P, or now. -/
def launchAt (s : State) (p : Nat) (i : Image) (j : Job) (x : Entry) : Nat := max (now s) (plannedTime i j (partOf s p).offset x)

/-- The unit of an action is free: a tile's update port, or a reduction engine (R115, R337). -/
def unitFree (s : State) (st ty : Nat) : Bool :=
  if ty = 0x23 then (physOf s st).all (fun t => (tileOf s t).upd.isNone)
  else if 584 ≤ st then (tblGet? s.colls (st - 584)).isNone
  else true

/-- The implicit gates of R125: a grant waits for every action of the intervals that it ends; an action waits for the grant
that opens its interval. -/
def implicitOk (s : State) (i : Image) (j : Job) (st idx : Nat) (x : Entry) : Bool :=
  if actionType x = 0x24 then
    (List.range 4).all (fun b =>
      let os := openers i j st b
      if os.any (fun o => o.1 == idx) then
        match (os.filter (fun o => decide (o.1 < idx))).getLast? with
        | some o => intervalDone s i j st b o.1
        | none => true
      else true)
  else (entryBanks s st x).all (fun a => match intervalAt (openers i j a.1 a.2) (plannedAt j x) with
    | some o => entryDone s a.1 o.1
    | none => true)

/-- What is known of an action that launches now. -/
structure Going where
  part : Nat
  img : Image
  job : Job
  idx : Nat
  desc : List Word

/-- The next entry of a stream launches as an action of type `ty`, if every gate is met (R84, R125, R165) and its unit is free. -/
def going (s : State) (st ty : Nat) : Option Going :=
  match launchable s st ty with
  | some (p, i, j, x) =>
    let idx := (seqOf s st).entry
    if implicitOk s i j st idx x && unitFree s st ty && (ty ≠ 0x21 || cubeGates s i j st (launchAt s p i j x) x) then some { part := p, img := i, job := j, idx := idx, desc := x.desc } else none
  | none => none

/-- Launches the next entry of a stream and performs its action. -/
def slateRow (st ty : Nat) (run : Going → State → State) (s : State) : State :=
  match going s st ty with
  | some g => noteNeeds g.part st g.idx (run g (launch st 0 s))
  | none => s

/-- A tile action runs on the physical tile that carries the stream's logical tile. -/
def tileRow (st ty : Nat) (run : Nat → Going → State → State) (s : State) : State :=
  slateRow st ty (fun g s => match physOf s st with | some t => run t g s | none => s) s

/-! ### Lateness (R177, R179, R181) -/

/-- The next entry of a stream can launch. -/
def mayLaunch (s : State) (st : Nat) : Bool :=
  match nextEntry s st with
  | some y => (going s st (actionType y.2.2.2)).isSome
  | none => false

/-- Every gate of an entry is met, explicit and implicit. -/
def mayGate (s : State) (st : Nat) (i : Image) (j : Job) (idx : Nat) (x : Entry) : Bool := x.gates.all (gateMet s st) && implicitOk s i j st idx x

/-- An entry still unlaunched at P + S is reported; the coordinator answers with a hold or abort notice, or none while
a notice stands pending. The next entry of the stream cannot launch: else it launches first. -/
def latenessEffect (st : Nat) (s : State) : State :=
  match streamJob s st with
  | some (p, i, j) =>
    match nextReport s p i j st with
    | some (t, e, x) =>
      if j.running && j.restartAt.isNone && !mayLaunch s st then
        let s1 := advance t s
        let q := seqOf s1 st
        let s2 := setSeq st { q with reported := q.reported ++ [e], st := if q.st == .wait && e == (q.epoch, q.entry) then .late else q.st } s1
        let cause := if x.epoch ≠ j.epoch then 2 else if actionType x = 0x01 || (e == (q.epoch, q.entry) && mayGate s st i j e.2 x) then 1 else 0
        if pendingHold s2 j then s2
        else if i.holdLimit ≤ tblGet 0 j.consec (entryKey st e) then issueAbort p 4 s2
        else issue p 0 cause (j.epochBase + x.epoch) (noticeInstant i s2) 1 s2
      else s
    | none => s
  | none => s

def execLatenessReport (st : Nat) (s : State) : Host.Outcome State Fault Refusal :=
  onWf (.latenessReport st) (latenessEffect st s)

/-! ### Tile actions -/

def cubeEffect (st : Nat) (s : State) : State := tileRow st 0x21 (fun t g s => runCubeOp t g.desc g.img.seed s) s
def vectorEffect (st : Nat) (s : State) : State := tileRow st 0x22 (fun t g s => runVectorProgram t g.desc g.img.seed s) s

/-- A bank grant takes effect and completes in the cycle in which it launches (R125, R166). -/
def grantEffect (st : Nat) (s : State) : State := tileRow st 0x24 (fun t g s => complete st g.idx (applyGrant t g.desc s)) s

/-- An update program starts once the tile's update port is free (R115). -/
def updateEffect (st : Nat) (s : State) : State :=
  tileRow st 0x23 (fun t g s => startUpdate t g.part st g.idx (now s) g.desc (g.img.utabs.getD (updTable g.desc) []) s) s

/-! ### Collective actions (R337) -/

/-- A collective action starts once its engine is free. -/
def collEffect (st ty : Nat) (s : State) : State :=
  slateRow st ty (fun g s => startColl (st - 584) g.part st g.idx g.desc s) s

/-! ### Dray actions -/

/-- Whether a read of the descriptor waits: for a Tender that restarts (R458), or for a write of the same Dray that has not been
performed (R256). -/
def readsHeld (s : State) (m : Mover) (w : List Word) : Bool :=
  let d := drayDesc w
  let held := fun (r : Loc × Nat) => match r.1 with
    | .umr a => (extsOf a r.2).any (tenderHolds s) || anyWait s (writeMeets (.dray m.dray) false a r.2)
    | .direct a => (extsOf a r.2).any (tenderHolds s) || anyWait s (writeMeets (.dray m.dray) true a r.2)
    | _ => false
  (s.tenders.any (fun e => e.2.restarting) || writesWait s (.dray m.dray)) && (readRanges s m d (operandsOf s m.part m.slate d)).any held

/-- A data-movement row: the next command of a queue starts on its Dray, or the next entry of a Dray's stream launches. -/
def drayEffect (op : Nat) (w : DrayWork) (s : State) : State :=
  match w with
  | .queue q =>
    let m : Mover := { dray := (queueOf s q).dray, part := (queuePart s q).getD 0, slate := false, seed := 0 }
    if readsHeld s m (match (queueOf s q).accepted with | e :: _ => e.1 | [] => []) then s else drayCommand op q s
  | .stream st =>
    match nextEntry s st with
    | some (p, _, _, x) =>
      if readsHeld s { dray := st - 544, part := p, slate := true, seed := 0 } x.desc then s
      else slateRow st op (fun g s => drayAction g.part st g.idx g.img.seed g.desc s) s
    | none => s

/-! ### Tier actions (R229 to R241, Table 08-4) -/

/-- The extents of a tier descriptor (Table 08-5). -/
def tierExts (d : List Word) : List Nat := (List.range (wf (wd d 0) 41 28 + 1)).map (· + wf (wd d 0) 63 42)

/-- Every named extent gets the request; a demote or discard of Table 08-4 lets what is held go on where it ends at once. -/
def tierRow (st ty : Nat) (kind : Going → TierKind) (s : State) : State :=
  slateRow st ty (fun g s => tierRetry ((tierExts g.desc).foldl (fun s x =>
    releaseHeld x (tierStart { ext := x, kind := kind g, owner := some (st, g.idx) } s)) s)) s

/-- Expire: the age stamp of each named extent that is in HBM and not pinned becomes zero (R238). -/
def expireExt (s : State) (x : Nat) : State :=
  let e := extOf s x
  if (e.st == .hbm || e.st == .demoting) && e.pin.isNone then setExt x { e with stamp := 0 } s else s

/-- The stacks and share of a relocation window (Table 08-6). -/
def windowsOf (d : List Word) (t : Nat) : List Window :=
  (bitsOf 4 (wf (wd d 0) 35 32)).map (fun f => { stack := f, share := wf (wd d 0) 31 28, from_ := t, until_ := t + 4 * wf (wd d 0) 63 36 })

/-- A relocation window opens at its launch and completes once its length has elapsed (R226, R234). -/
def windowEffect (st : Nat) (s : State) : State :=
  match going s st 0x3C with
  | some g =>
    match nextEntry s st with
    | some (p, i, j, x) =>
      let t := max (now s) (plannedTime i j (partOf s p).offset x)
      let s1 := launch st (t + 4 * wf (wd g.desc 0) 63 36) s
      { s1 with windows := s1.windows.filter (fun w => decide (t < w.until_)) ++ windowsOf g.desc t }
    | none => s
  | none => s

/-! ### Meanings -/

def execCubeOperation (st : Nat) (s : State) : Host.Outcome State Fault Refusal := onWf (.cubeOperation st) (cubeEffect st s)
def execVectorProgram (st : Nat) (s : State) : Host.Outcome State Fault Refusal := onWf (.vectorProgram st) (vectorEffect st s)
def execUpdateProgram (st : Nat) (s : State) : Host.Outcome State Fault Refusal := onWf (.updateProgram st) (updateEffect st s)
def execBankGrant (st : Nat) (s : State) : Host.Outcome State Fault Refusal := onWf (.bankGrant st) (grantEffect st s)
def execAllReduce (st : Nat) (s : State) : Host.Outcome State Fault Refusal := onWf (.allReduce st) (collEffect st 0x10 s)
def execReduceScatter (st : Nat) (s : State) : Host.Outcome State Fault Refusal := onWf (.reduceScatter st) (collEffect st 0x11 s)
def execAllGather (st : Nat) (s : State) : Host.Outcome State Fault Refusal := onWf (.allGather st) (collEffect st 0x12 s)
def execGradientAllReduce (st : Nat) (s : State) : Host.Outcome State Fault Refusal := onWf (.gradientAllReduce st) (collEffect st 0x13 s)
def execBarrier (st : Nat) (s : State) : Host.Outcome State Fault Refusal := onWf (.barrier st) (collEffect st 0x14 s)
def execCopy (w : DrayWork) (s : State) : Host.Outcome State Fault Refusal := onWf (.copy w) (drayEffect 0x30 w s)
def execGather (w : DrayWork) (s : State) : Host.Outcome State Fault Refusal := onWf (.gather w) (drayEffect 0x31 w s)
def execScatter (w : DrayWork) (s : State) : Host.Outcome State Fault Refusal := onWf (.scatter w) (drayEffect 0x32 w s)
def execConvert (w : DrayWork) (s : State) : Host.Outcome State Fault Refusal := onWf (.convert w) (drayEffect 0x33 w s)
def execDigest (w : DrayWork) (s : State) : Host.Outcome State Fault Refusal := onWf (.digest w) (drayEffect 0x34 w s)
def execInvalidate (w : DrayWork) (s : State) : Host.Outcome State Fault Refusal := onWf (.invalidate w) (drayEffect 0x35 w s)
def execPromote (st : Nat) (s : State) : Host.Outcome State Fault Refusal :=
  onWf (.promote st) (tierRow st 0x38 (fun g => .promote (wf (wd g.desc 0) 27 26) (bit (wd g.desc 0).toNat 25) g.part) s)
def execDemote (st : Nat) (s : State) : Host.Outcome State Fault Refusal := onWf (.demote st) (tierRow st 0x39 (fun _ => .demote) s)
def execWriteBack (st : Nat) (s : State) : Host.Outcome State Fault Refusal := onWf (.writeBack st) (tierRow st 0x3A (fun _ => .writeBack) s)
def execDiscard (st : Nat) (s : State) : Host.Outcome State Fault Refusal := onWf (.discard st) (tierRow st 0x3B (fun _ => .discard) s)
def execRelocationWindow (st : Nat) (s : State) : Host.Outcome State Fault Refusal := onWf (.relocationWindow st) (windowEffect st s)
def execExpire (st : Nat) (s : State) : Host.Outcome State Fault Refusal :=
  onWf (.expire st) (slateRow st 0x3D (fun g s => (tierExts g.desc).foldl expireExt s) s)

end Sys2Proof.Machine
end

