-- ==== Sys2Proof/Machine/SramTest.lean ====
section
/-! DEFINITION. The background test of tile and exchange SRAM (R134, R137 to R141). -/

namespace Sys2Proof.Machine

/-- The memory and the first tile byte address of a region of the walk: 96 regions in each bank, then 16 of exchange. -/
def regionMem (r : Nat) : Nat := min (r / 96) 4
def regionAddr (r : Nat) : Nat := if r < 384 then r * 4096 else 0x180000 + (r - 384) * 4096

/-- The last region of a memory. -/
def regionLast (r : Nat) : Bool := if r < 384 then r % 96 == 95 else r == 399

/-- An entry of the job that has launched and not completed, or that is due within 1,800 ns. -/
def entryNear (s : State) (p : Nat) (i : Image) (j : Job) (st idx : Nat) (x : Entry) : Bool :=
  let q := seqOf s st
  let launched := decide (x.epoch < q.epoch) || (x.epoch == q.epoch && decide (idx < q.entry))
  if launched then x.epoch == j.epoch && inProgress s st idx
  else decide (j.epoch ≤ x.epoch) && decide (plannedTime i j (partOf s p).offset x ≤ now s + 1800)

/-- Whether a job leaves memory `m` of a logical tile in use, or is due to use it (R137). -/
def jobNear (s : State) (p l m : Nat) : Bool :=
  match (partOf s p).image, jobOf s p with
  | some i, some j =>
    (usedStreams i).any (fun st => (List.range i.nEpochs).any (fun e =>
      let je := { j with epoch := e }
      (numbered i je st).any (fun x => entryNear s p i j st x.1 x.2 && (entryBanks s st x.2).elem (l, m)))) ||
    (j.service && decide (slotOpening i j.t0 (partOf s p).offset (nextSlot j) ≤ now s + 1800))
  | _, _ => false

/-- The memory is quiescent and no launch that may access it is due. -/
def quiescent (s : State) (t m : Nat) : Bool :=
  match logicalOf s t with
  | none => true
  | some l => match tilePart s l with
    | some p => !jobNear s p l m
    | none => true

/-- TEST_STEP_START: the region is saved (R137, Table 05-5). -/
def testStartEffect (t m : Nat) (s : State) : State :=
  let r := (tileOf s t).walk
  if regionMem r = m && (testOf s t m).startAt.isNone && !retired s t && quiescent s t m then
    setTest t m { testOf s t m with save := memRead s.tileMem (t * 0x200000 + regionAddr r) 4096, startAt := some (now s) } s
  else s

/-- The walk moves to the next region, and a memory's last region completes its walk (R137, R141). -/
def walkOn (t m : Nat) (s : State) : State :=
  let x := tileOf s t
  let y := tblGet {} x.tests m
  setTile t { x with walk := (x.walk + 1) % 400
                     tests := tblSet m { y with save := [], startAt := none, lastWalk := if regionLast x.walk then now s else y.lastWalk } x.tests } s

/-- One failing row or column is replaced where a spare of its sub-array is left: the repair is in force and goes into the
persistent record (R139, R140). The flag falls where none is left. -/
def softRepair (t m : Nat) (acc : Bool × State) (f : Nat × Bool × Nat) : Bool × State :=
  let r : Repair := { mem := 8 * t + m, sub := f.1, row := f.2.1, no := f.2.2 }
  if 2 ≤ (acc.2.repairs.filter (fun x => x.mem == r.mem && x.sub == r.sub && x.row == r.row)).length then (false, acc.2)
  else (acc.1, recordEntry (repairEntry r) { acc.2 with repairs := acc.2.repairs ++ [r] })

/-- The data of the region are lost: the tile is retired for a double-bit error (R134, R139). -/
def loseRegion (t m : Nat) (s : State) : State := retireTile t 1 (setTest t m { testOf s t m with save := [], startAt := none } s)

/-- The march is done, with `n` corrected words in the save: soft repairs, then the restore, which rewrites what was corrected; a
sub-array without a spare retires the tile after it (R139). -/
def restoreStep (t m n : Nat) (fails : List (Nat × Bool × Nat)) (s : State) : State :=
  let a := regionAddr (tileOf s t).walk
  let es := errWords s t a 4096
  if es.any (fun e => decide (1 < e.2)) then loseRegion t m s
  else
    let (whole, s1) := fails.foldl (softRepair t m) (true, countCorrected t m (n + es.length) s)
    let s2 := walkOn t m (eccWrite t a 4096 s1)
    if whole then s2 else retireTile t 3 s2

/-- TEST_STEP_COMPLETE (R138, R139). The restore writes what was saved; a region that changed meanwhile was accessed, so the
step had been abandoned. -/
def testDoneEffect (t m : Nat) (o : TestOutcome) (s : State) : State :=
  let r := (tileOf s t).walk
  if regionMem r ≠ m || (testOf s t m).startAt.isNone then s
  else if (testOf s t m).save ≠ memRead s.tileMem (t * 0x200000 + regionAddr r) 4096 then abandonStep t m s
  else match o with
    | .abandoned => abandonStep t m s
    | .pass => restoreStep t m 0 [] s
    | .singleBit _ => restoreStep t m 1 [] s
    | .march c fails => restoreStep t m (b2n c) fails s
    | .doubleBit => loseRegion t m s

def execTestStepStart (t m : Nat) (s : State) : Host.Outcome State Fault Refusal := onWf (.testStepStart t m) (testStartEffect t m s)
def execTestStepComplete (t m : Nat) (o : TestOutcome) (s : State) : Host.Outcome State Fault Refusal :=
  onWf (.testStepComplete t m o) (testDoneEffect t m o s)

end Sys2Proof.Machine
end

