-- ==== Sys2Proof/Machine/SafeState.lean ====
section
/-! DEFINITION. What resets and power losses do to each subsystem, and the safe state
(R28, R126, R136, R187, R200, R212, R243, R274, R297, R345, R372, R400, R426, R446). -/

namespace Sys2Proof.Machine

/-- Every open job of the package ends with a status, with or without completion records (R187, R372). -/
def haltJobs (status : Nat) (record : Bool) (s : State) : State :=
  (s.parts.map (·.1)).foldl (fun s p => abortJob p status record s) s

/-- The clamps that the request in progress on a channel has made: those of a POWER_SET that waits for its boundary (R392, R430). -/
def waitingClamps (s : State) (ch : Nat) : Nat :=
  let creating := (s.parts.filterMap (fun e => e.2.creating)).find? (fun c => c.1 == ch)
  match s.power.capReply, creating with
  | some (c, _, n), _ => if c = ch then n else 0
  | none, some (_, _, n) => n
  | none, none => 0

/-- Each mailbox request in progress completes with a status, with the flags that it has raised (R9, R383, R400). -/
def finishChans (status : Nat) (s : State) : State :=
  let busy := (s.chans.filter (fun e => e.2.busy)).map (·.1)
  let s1 := busy.foldl (fun s ch =>
    let n := waitingClamps s ch
    finishDeferred ch (fld (memLe (chanOf s ch).req 0 8) 47 32) (fld (memLe (chanOf s ch).req 0 8) 31 16)
      { status := status, flags := if n = 0 then 0 else 2, clamps := n } s) s
  { s1 with power := { s1.power with newCap := none, capReply := none } }

/-- The last job of each partition, which TELEMETRY_READ goes on reporting (R187). -/
def keepLast (s : State) : Tbl Job :=
  s.parts.foldl (fun t e => match e.2.lastJob with | some j => tblSet e.1 j t | none => t) s.lastJobs

/-- Partitions, images, sequencers, queue contexts, regions, peer masks, buckets, engines at work, transactions in flight and the
route table end (R28, R187, R200, R345, R372). -/
def clearParts (s : State) : State :=
  rerouteTime { s with
           lastJobs := keepLast s, parts := [], seqs := [], queues := [], regions := [], dbl := {}, drayLast := []
           pcie := { bifs := s.pcie.bifs, downs := s.pcie.downs, unresolved := s.pcie.unresolved }
           drayWait := [], colls := [], collEarly := [], hbmBuckets := [], flBuckets := [], windows := [],
           wrc := { corrected := s.wrc.corrected, lost := s.wrc.lost }, route := none,
           remote := { discarded := s.remote.discarded, gapSkips := s.remote.gapSkips } }

/-- Every tile as a reset leaves it (R126, R136); the place and the time of its test walk stay (log 59). -/
def resetTiles (s : State) : State :=
  let idle := fun (x : Tile) => { tests := x.tests.map (fun e => (e.1, { e.2 with startAt := none, save := [] })), walk := x.walk : Tile }
  { s with tileMem := [], cubes := [], tiles := s.tiles.map (fun e => (e.1, idle e.2)) }

/-- The harts are held in reset: every Garoux CSR at its reset value, nothing pending (R297). -/
def resetHarts (s : State) : State := { s with harts := [], rfs := [] }

/-- A batch that has no record never gets one (R419). -/
def abandonBatches (s : State) : State :=
  modBatches (fun b => if b.record.isEmpty then { b with closedAt := some (b.closedAt.getD (now s)), stopped := true } else b) s

/-- HBM loses power: its contents, and the receipt log with them, are lost (R217, R421). -/
def hbmLost (s : State) : State :=
  let s1 := (List.range 4).foldl (fun s f => settleRelocations f s) (tierPowerOn s)
  { s1 with rcpt := { log := [], next := s1.rcpt.next, batches := [], nextBatch := s1.rcpt.nextBatch }, hbmRows := [] }

/-- Every rail except those of the islands is off (R426, R437, R446, R451). -/
def islandsOnly (s : State) : State :=
  let s1 := resetHarts (resetTiles (clearParts (hbmLost s)))
  let close := fun (m : Mgmt) => { m with spdm := 0, session := 0, transcript := [] }
  { s1 with dir := [], homes := [], ports := [], colls := [], tenders := [], degraded := false
            lasers := s1.lasers.map (fun e => (e.1, { e.2 with enabled := false }))
            mgmt := s1.mgmt.map (fun e => (e.1, close e.2))
            power := { s1.power with rails := false, doms := s1.power.doms.map (fun e => (e.1, { e.2 with point := 0, target := none })) }
            pins := { s1.pins with safeOut := true, peRst := false } }

/-- The package's dies other than the islands lose power: open jobs end ABORTED_POWER without completion records, mailbox
requests in progress end likewise, and unsigned batches stay so (R187, R372, R383, R419, R426). -/
def losePower (s : State) : State := islandsOnly (abandonBatches (finishChans stPower (haltJobs stPower false s)))

/-- The package enters the safe state for a cause of Table 17-2 (R446, R448); without a valid Caboose image the ROM alone serves
(R415). -/
def enterSafe (cause unit : Nat) (s : State) : State :=
  let s1 := losePower s
  { s1 with bu := { s1.bu with state := if cause = 3 then 3 else 2, cause := cause, unit := unit, at_ := now s } }

/-- Dies as item 0x0232 numbers them. -/
def dieCD (n : Nat) : Nat := n
def diePD (h : Nat) : Nat := 4 + h
def dieHD (h : Nat) : Nat := 6 + h
def dieLD (n : Nat) : Nat := 8 + n

/-! ### The vault (R142 to R146) -/

/-- A wipe starts, or goes on until 2 µs from now (R144). -/
def wipeVault (hd : Nat) (s : State) : State :=
  setVault hd { vaultOf s hd with wiping := some (now s + 2000), keys := false, data := [], bad := false, save := [] } s

def wipeVaults (s : State) : State := wipeVault 1 (wipeVault 0 s)

/-- VAULT_TEST_STEP: one 4 KiB region, while no command uses the vault (R137, R146). -/
def vaultTestEffect (hd : Nat) (o : EccOutcome) (s : State) : State :=
  let v := vaultOf s hd
  if v.wiping.isSome then s
  else match (if v.bad then .uncorrectable else o) with
    | .uncorrectable => enterSafe 0x06 (dieHD hd) (wipeVault hd s)
    | .clean => setVault hd { v with region := (v.region + 1) % 2048 } s
    | .corrected => setVault hd { v with region := (v.region + 1) % 2048 } s

/-- VAULT_WIPE_COMPLETE (R144, R145). -/
def vaultWipeEffect (hd : Nat) (s : State) : State :=
  match (vaultOf s hd).wiping with
  | some t => let s1 := advance t s; setVault hd { vaultOf s1 hd with wiping := none } s1
  | none => s

/-- The Caboose reads its vault: during a wipe only once that is complete, when no key is left (R145); a word that cannot be corrected
wipes the vault and moves the device to the safe state (R146). -/
def readVault (hd : Nat) (s : State) : State :=
  let s1 := vaultWipeEffect hd s
  if (vaultOf s1 hd).bad then enterSafe 0x06 (dieHD hd) (wipeVault hd s1) else s1

def execVaultTestStep (hd : Nat) (o : EccOutcome) (s : State) : Host.Outcome State Fault Refusal := onWf (.vaultTestStep hd o) (vaultTestEffect hd o s)
def execVaultWipeComplete (hd : Nat) (s : State) : Host.Outcome State Fault Refusal := onWf (.vaultWipeComplete hd) (vaultWipeEffect hd s)

end Sys2Proof.Machine
end

