-- ==== Sys2Proof/Machine/Coupling.lean ====
section
/-! DEFINITION. The coupling links: flits, retry, lanes, halving, loss and detours (R298 to R315). -/

namespace Sys2Proof.Machine

/-! ### The links (Tables 11-1 and 11-5) -/

/-- The two dies of a link, numbered as item 0x0232 numbers them. -/
def linkDies (l : Nat) : Nat × Nat :=
  if l < 4 then (0, 1) else if l < 8 then (2, 3) else if l < 12 then (0, 2) else if l < 16 then (1, 3)
  else if l < 18 then (0, 4) else if l < 20 then (1, 4) else if l < 22 then (2, 5) else if l < 24 then (3, 5)
  else if l = 24 then (0, 6) else if l = 25 then (1, 6) else if l = 26 then (2, 7) else if l = 27 then (3, 7)
  else if l < 36 then ((l - 28) / 2, 8 + (l - 28) / 2) else if l < 38 then (4, 5) else if l = 38 then (6, 7)
  else if l = 39 then (4, 6) else (5, 7)

/-- A link is lost when one of its directions is (R307). -/
def linkLost (s : State) (l : Nat) : Bool := (linkOf s l 0).width == 0 || (linkOf s l 1).width == 0

/-- The links of a die pair. -/
def pairLinks (a b : Nat) : List Nat := (List.range 41).filter (fun l => linkDies l == (min a b, max a b))

/-- The pair has a working link. -/
def pairUp (s : State) (a b : Nat) : Bool := (pairLinks a b).any (fun l => !linkLost s l)

/-- Halves and partners of compute dies: the sibling shares the half, the mirror has the same place in the other half. -/
def sibling (c : Nat) : Nat := if c % 2 = 0 then c + 1 else c - 1
def mirror (c : Nat) : Nat := (c + 2) % 4

/-- The detour of a pair, as the dies it passes from end to end; none where Table 11-5 gives none. -/
def detour (a b : Nat) : Option (List Nat) :=
  let x := min a b
  let y := max a b
  if y < 4 then
    if x / 2 = y / 2 then some [x, 4 + x / 2, y]
    else some [x, sibling x, mirror (sibling x), y]
  else if x < 4 && (y = 4 || y = 5) then some [x, sibling x, y]
  else if x < 4 && (y = 6 || y = 7) then some [x, 4 + x / 2, y]
  else if (x = 4 && y = 6) || (x = 5 && y = 7) then some [x, 2 * (x - 4), y]
  else if (x = 4 && y = 5) || (x = 6 && y = 7) then some [x, 0, 2, y]
  else none

/-- Every hop of a path has a working link. -/
def pathUp (s : State) : List Nat → Bool
  | a :: b :: t => pairUp s a b && pathUp s (b :: t)
  | _ => true

/-- The pairs that Table 11-1 joins. -/
def diePairs : List (Nat × Nat) := ((List.range 41).map linkDies).dedup

/-- A pair without a working link and without a whole detour: the package cannot run (R309). -/
def cutPair (s : State) : Option (Nat × Nat) :=
  diePairs.find? (fun p => !pairUp s p.1 p.2 && (match detour p.1 p.2 with
    | some path => !pathUp s path
    | none => false))

/-- Link dies whose compute die reaches them no more: their five Nguix ports are lost (R309). -/
def cutLinkDies (s : State) : List Nat := (List.range 4).filter (fun n => !pairUp s n (8 + n))

/-! ### Widths (R306, R307) -/

def groupFails (f : NatSet) (g : Nat) : Nat := (f.filter (fun l => l / 34 == g)).length

/-- The width and group of a direction after its failures; `cur` is its present group if it already runs at half width. -/
def dirWidth (f : NatSet) (cur : Option Nat) : Nat × Nat :=
  if f.length ≤ 4 then (64, 0)
  else match cur with
    | none => let g := if groupFails f 1 < groupFails f 0 then 1 else 0
              if groupFails f g ≤ 2 then (32, g) else (0, g)
    | some g => if groupFails f g ≤ 2 then (32, g) else if groupFails f (1 - g) ≤ 2 then (32, 1 - g) else (0, g)

/-- Logical lane `i`'s physical lane in a direction. -/
def laneMap (d : LinkDir) (i : Nat) : Option Nat :=
  if d.width = 64 then ((List.range 68).filter (fun l => !setHas d.failed l))[i]?
  else if d.width = 32 then (((List.range 34).map (· + 34 * d.group)).filter (fun l => !setHas d.failed l))[i]?
  else none

/-- Unwanted widths put the package into the degraded condition (R310, R312). -/
def linksDegraded (s : State) : Bool := s.links.any (fun e => decide (e.2.width < 64))

/-! ### Flits that are sent (R300 to R304) -/

/-- CRC-32C, polynomial 0x1EDC6F41, most significant bit first, initial value and final XOR as the iSCSI CRC that the name
means: reflected, all ones (PRESUMED, log 30). -/
def crc32cBit (c : BitVec 32) : Nat → BitVec 32
  | 0 => c
  | n + 1 => crc32cBit (if c.getLsbD 0 then (c >>> 1) ^^^ 0x82F63B78#32 else c >>> 1) n

def crc32c (bs : List Byte) : BitVec 32 :=
  (bs.foldl (fun (c : BitVec 32) b => crc32cBit (c ^^^ b.setWidth 32) 8) 0xFFFFFFFF#32) ^^^ 0xFFFFFFFF#32

/-- Bit `b` of a flit. -/
def flitBit (bs : List Byte) (b : Nat) : Bool := bit (bs.getD (b / 8) 0).toNat (b % 8)

/-- Logical lanes whose parity is odd (R302): 32 bits a lane at full width; at half width the first 32 with parity bit i, which
falls among the last, and the last 32 (log 31). -/
def parityErrors (bs : List Byte) (width : Nat) : List Nat :=
  let odd := fun (lane lo : Nat) => ((List.range 32).filter (fun u => flitBit bs (width * (lo + u) + lane))).length % 2 == 1
  if width = 64 then (List.range 64).filter (fun i => odd i 0)
  else if width = 32 then
    (List.range 32).filter (fun i => if flitBit bs (1984 + i) then !odd i 0 else odd i 0) ++ (List.range 32).filter (fun i => odd i 32)
  else []

/-- The other direction of the same link. -/
def back (d : Nat) : Nat := 1 - d

/-- The lane parity of bytes 0 to 247 of a flit (R302): at half width the first 32 bits of a lane, then its last 32 with the bit of the
first among them. -/
def flitParity (bs : List Byte) (width : Nat) : List Byte :=
  let odd := fun (lane lo n : Nat) => ((List.range n).filter (fun u => flitBit bs (width * (lo + u) + lane))).length % 2 == 1
  let bits := if width = 64 then (List.range 64).map (fun i => odd i 0 31)
    else (List.range 32).map (fun i => odd i 0 32) ++ (List.range 32).map (fun i => odd i 32 30 != odd i 0 32)
  leBytes 8 ((bits.mapIdx (fun i b => b2n b * 2 ^ i)).sum)

/-- The header of Table 11-4. -/
def flitHeader (ftype seq ack nak cvc cred : Nat) : Nat := ftype * 2 ^ 30 + seq * 2 ^ 18 + ack * 2 ^ 6 + nak * 2 ^ 5 + cvc * 2 ^ 3 + cred

/-- The 256 bytes of a flit (Table 11-3). -/
def flitBytes (width header : Nat) (slots : List Byte) : List Byte :=
  let body := leBytes 4 header ++ padTo 240 0 slots
  let checked := body ++ leBytes 4 (crc32c body).toNat
  checked ++ flitParity checked width

/-- A virtual channel of which 32 slots or more are free again, and how many units of 32 a flit returns (R301). -/
def returnable (x : LinkDir) : Option (Nat × Nat) :=
  ((List.range 4).find? (fun v => decide (32 ≤ tblGet 0 x.freed v))).map (fun v => (v, min 7 (tblGet 0 x.freed v / 32)))

/-- A direction carries flits: it is not lost and not stopped (R308). -/
def carries (x : LinkDir) : Bool := x.width ≠ 0 && x.stopUntil.isNone

/-- A flit leaves on direction `d`; its header returns what the receiver of the other direction has to say. -/
def sendFlit (l d ftype seq : Nat) (slots : List Byte) (s : State) : State :=
  let x := linkOf s l d
  let r := linkOf s l (back d)
  if carries x then
    let (v, c) := (returnable r).getD (0, 0)
    let r1 := { r with nakDue := false, freed := if c = 0 then r.freed else tblSet v (tblGet 0 r.freed v - 32 * c) r.freed }
    send (.flit l d (flitBytes x.width (flitHeader ftype seq ((r.rxNext + 4095) % 4096) (b2n r.nakDue) v c) slots)) (setLink l (back d) r1 s)
  else s

/-- Every data flit that is not acknowledged is sent again, in order (R303). -/
def replayFlits (l d : Nat) (s : State) : State := (linkOf s l d).replay.foldl (fun s f => sendFlit l d 1 f.1 f.2 s) s

def pktVc (b : List Byte) : Nat := (b.headD 0).toNat / 64
def pktSlots (b : List Byte) : Nat := (b.headD 0).toNat % 64 + 1

/-- Credits of a virtual channel: at first 256 slots at FL-B and 128 at FL-A; none before they are initialised (R312, R314). -/
def creditsOf (s : State) (x : LinkDir) (v : Nat) : Nat := (tblGet? x.credits v).getD (if x.step < 6 then 0 else if bit s.level 4 then 256 else 128)

/-- The packets that may leave, in their order: each channel's while it has credits and the buffer has room (`room` slots); no channel
blocks another (R301). Answers what leaves, what stays, and the credits left. -/
def pickPackets : List (Nat × List Byte) → (room : Nat) → (shut : NatSet) → (cr : Nat → Nat) → List (Nat × List Byte) × List (Nat × List Byte) × (Nat → Nat)
  | [], _, _, cr => ([], [], cr)
  | p :: t, room, shut, cr =>
    let v := pktVc p.2
    let n := pktSlots p.2
    if setHas shut v || cr v < n || room < n then
      let (a, b, c) := pickPackets t room (setIns v shut) cr
      (a, p :: b, c)
    else
      let (a, b, c) := pickPackets t (room - n) shut (fun k => if k = v then cr k - n else cr k)
      (p :: a, b, c)

/-- The links of a pair. -/
def twins (l : Nat) : List Nat := pairLinks (linkDies l).1 (linkDies l).2

/-- The hold of a pair ends when every flit on its links has been acknowledged (R304). -/
def unhold (l d : Nat) (s : State) : State :=
  if (linkOf s l d).hold && (twins l).all (fun k => (linkOf s k d).replay.isEmpty) then
    (twins l).foldl (fun s k => if (linkOf s k d).hold then setLink k d { linkOf s k d with hold := false } s else s) s
  else s

/-- The next data flits leave: the slots of the packets that may go, fifteen to a flit, kept for replay; at most 512 are
unacknowledged (R300, R301, R303). -/
def pump (l d : Nat) (s : State) : State :=
  let s := unhold l d s
  let x := linkOf s l d
  if x.queue.isEmpty || x.hold || !carries x then s
  else
    let (go, stay, cr) := pickPackets x.queue (15 * (512 - x.replay.length)) [] (creditsOf s x)
    let bytes := (go.map (fun p => padTo (16 * pktSlots p.2) 0 p.2)).flatten
    let flits := (chunks 240 (bytes.length / 240 + 1) bytes).mapIdx (fun i b => ((x.txNext + i) % 4096, padTo 240 0 b))
    let ends := go.foldl (fun (acc : Nat × List (Nat × Nat × List Byte)) p =>
      let e := acc.1 + pktSlots p.2
      (e, acc.2 ++ [((x.txNext + (e - 1) / 15) % 4096, p.1, p.2)])) (0, [])
    flits.foldl (fun s f => sendFlit l d 1 f.1 f.2 s)
      (setLink l d { x with queue := stay, replay := x.replay ++ flits, sent := x.sent ++ ends.2, txNext := (x.txNext + flits.length) % 4096
                            credits := (List.range 4).foldl (fun t v => tblSet v (cr v) t) x.credits } s)

/-- The link for a packet among the working links of a pair: virtual channel 3 the lowest, the others by the line address (R304). -/
def linkFor (s : State) (a b pa vc : Nat) : Option Nat :=
  let ls := (pairLinks a b).filter (fun l => !linkLost s l)
  if vc = 3 then ls.head? else ls[((pa / 64 % 256) ^^^ (pa / 16384 % 256)) % ls.length]?

/-- The direction of a pair's links from one die to the other (R298). -/
def dirFrom (a b : Nat) : Nat := if a < b then 0 else 1

/-- The first hop from one die to another: itself where the pair has a working link, else along its detour (R309). -/
def nextDie (s : State) (a b : Nat) : Nat :=
  if pairUp s a b then b
  else match detour a b with
    | some p => if a < b then p.getD 1 b else p.reverse.getD 1 b
    | none => b

/-- Packets join the queue of the link that they map to, `front` before those that wait there. -/
def givePackets (a b : Nat) (front : Bool) (ps : List (Nat × List Byte)) (s : State) : State :=
  let n := nextDie s a b
  let d := dirFrom a n
  (pairLinks a n).foldl (fun s l =>
    let mine := ps.filter (fun p => linkFor s a n p.1 (pktVc p.2) == some l)
    if mine.isEmpty then s
    else let x := linkOf s l d; setLink l d { x with queue := if front then mine ++ x.queue else x.queue ++ mine } s) s

/-- The packets of a lost link move: what was not acknowledged first, then what waited; the pair's other links send again only when
every flit on them has been acknowledged (R304, R309). -/
def moveLink (l : Nat) (s : State) : State :=
  let (a, b) := linkDies l
  (List.range 2).foldl (fun s d =>
    let x := linkOf s l d
    let s1 := (twins l).foldl (fun s k => if k = l || linkLost s k then s else setLink k d { linkOf s k d with hold := true } s)
      (setLink l d { x with queue := [], replay := [], sent := [], hold := false } s)
    let ps := x.sent.map (fun p => p.2) ++ x.queue
    (twins l).foldl (fun s k => pump k d s) (if d = 0 then givePackets a b true ps s1 else givePackets b a true ps s1)) s

/-! ### Lane failure (R305 to R309) -/

/-- The consequences of a change of width: event, degraded condition, and the loss of a pair. -/
def afterWidth (l d : Nat) (s : State) : State :=
  let s1 := enterDegraded (raiseEvent evLaneDegrade l (causeOf evLaneDegrade (if (linkOf s l d).width = 0 then 1 else 0)) s)
  match cutPair s1 with
  | some _ => enterSafe 0x0D l s1
  | none => s1

/-- A port in the route table goes down for good (R325; its own chapter gives the rest). -/
def dropPort (p : Nat) (s : State) : State :=
  let x := portOf s p
  setPort p { x with up := false, lanes := 0, lost := x.up || x.lost, queue := [], replay := [], txNext := 0, rxNext := 0, replays := 0, nakDue := false, nakked := false, credits := [] } s

/-- Whether the route table uses a port. -/
def routeUses (s : State) (p : Nat) : Bool :=
  match s.route with
  | some r => (tblGet {} r.ports p).used
  | none => false

/-- A Nguix port is lost (R325): EV_LANE_DEGRADE, and the degraded condition where the route table uses it (R182). -/
def losePort (p : Nat) (s : State) : State :=
  if (portOf s p).up then
    let s1 := raiseEvent evLaneDegrade (41 + p) (causeOf evLaneDegrade 3) (dropPort p s)
    if routeUses s p then enterDegraded s1 else s1
  else s

/-- A lane that carries a logical lane of its direction. -/
def laneUsed (x : LinkDir) (n : Nat) : Bool := (List.range 64).any (fun i => laneMap x i == some n)

/-- A physical lane of a direction fails: spare, halving, change of group or loss; the direction stops for 4 µs (R305 to R308). A lane
that carries nothing changes nothing but the count. -/
def failLane (l d n : Nat) (s : State) : State :=
  let x := linkOf s l d
  if setHas x.failed n || x.width = 0 then s
  else
    let f := setIns n x.failed
    let (w, g) := dirWidth f (if x.width = 32 then some x.group else none)
    let stop := if laneUsed x n then some (now s + 4000) else x.stopUntil
    let s1 := setLink l d { x with failed := f, width := w, group := g, stopUntil := stop, laneCheck := false } s
    let s2 := recordEntry { kind := recLane, a := 2 * l + d, b := n } s1
    if w = x.width && (w = 64 || g = x.group) then s2
    else
      let s3 := if w < x.width then afterWidth l d s2 else enterDegraded s2
      if s3.bu.state = 1 then
        (cutLinkDies s3).foldl (fun s k => (List.range 5).foldl (fun s i => losePort (5 * k + i) s) s) (if w = 0 then moveLink l s3 else s3)
      else s3

def execLaneFailure (l d n : Nat) (s : State) : Host.Outcome State Fault Refusal := onWf (.laneFailure l d n) (failLane l d n s)

/-- DIRECTION_RESUME: the direction resumes by replay, then sends what waits (R303, R308). -/
def resumeEffect (l d : Nat) (s : State) : State :=
  let x := linkOf s l d
  match x.stopUntil with
  | some t =>
    let s1 := setLink l d { x with stopUntil := none } (advance t s)
    pump l d (replayFlits l d s1)
  | none => s

def execDirectionResume (l d : Nat) (s : State) : Host.Outcome State Fault Refusal := onWf (.directionResume l d) (resumeEffect l d s)

/-! ### Flits that arrive (R300 to R305) -/

/-- A parity error of a physical lane: 16 within any 1 ms fail it (R305). -/
def countParity (l d : Nat) (s : State) (lane : Nat) : State :=
  let x := linkOf s l d
  let q := (tblGet [] x.parity lane).filter (fun t => decide (now s ≤ t + 1000000)) ++ [now s]
  let s1 := setLink l d { x with parity := tblSet lane q x.parity } s
  if 16 ≤ q.length then failLane l d lane s1 else s1

/-- Whole packets among slots that have arrived: the slots of each packet, and what remains of one that continues. A first byte
gives slots_m1 in [5:0]; a zero slot that starts no packet is unused (R301). -/
def takePackets : Nat → List (List Byte) → List (List Byte) × List (List Byte)
  | 0, sl => ([], sl)
  | f + 1, sl =>
    match sl with
    | [] => ([], [])
    | a :: t =>
      if a.all (fun b => b == 0) then takePackets f t
      else
        let n := (a.headD 0).toNat % 64 + 1
        if sl.length < n then ([], sl)
        else
          let (ps, r) := takePackets f (sl.drop n)
          ((sl.take n).flatten :: ps, r)

/-- What the header returns to the transmitter of the other direction: acknowledged flits, credits, a replay (R301, R303). -/
def takeHeader (l d h : Nat) (s : State) : State :=
  let t := linkOf s l (back d)
  let ack := fld h 17 6
  let inOrder := t.replay.any (fun f => f.1 == ack)
  let left := if inOrder then ((t.replay.dropWhile (fun f => decide (f.1 ≠ ack))).drop 1) else t.replay
  let vc := fld h 4 3
  let cr := if fld h 2 0 = 0 then t.credits else tblSet vc (creditsOf s t vc + 32 * fld h 2 0) t.credits
  let s1 := setLink l (back d) { t with replay := left, sent := t.sent.filter (fun p => left.any (fun f => f.1 == p.1)), credits := cr } s
  pump l (back d) (if bit h 5 then replayFlits l (back d) s1 else s1)

/-- The packets that a flit completes, in order, and what stays of one that continues (R301). -/
def packetsOf (x : LinkDir) (bs : List Byte) : List (List Byte) × List Byte :=
  let (ps, rest) := takePackets 80 (chunks 16 (x.partialPkt.length / 16 + 1) x.partialPkt ++ chunks 16 16 ((bs.drop 4).take 240))
  (ps, rest.flatten)

/-- The next data flit in order is delivered, its slots are free again, and it is acknowledged. -/
def deliverFlit (l d : Nat) (bs : List Byte) (s : State) : State :=
  let x := linkOf s l d
  let (ps, rest) := packetsOf x bs
  let freed := ps.foldl (fun t p => tblSet (pktVc p) (tblGet 0 t (pktVc p) + pktSlots p) t) x.freed
  sendFlit l (back d) 0 0 [] (setLink l d { x with
    rxNext := (x.rxNext + 1) % 4096, replays := 0, nakked := false, partialPkt := rest, delivered := x.delivered ++ ps, freed := freed } s)

/-- A data flit that fails: nak with the last good sequence; eight replays of one sequence start the lane check (R303). -/
def nakFlit (l d : Nat) (s : State) : State :=
  let x := linkOf s l d
  let n := x.replays + 1
  sendFlit l (back d) 0 0 [] (setLink l d { x with replays := n, nakDue := true, nakked := true, laneCheck := x.laneCheck || decide (8 ≤ n) } s)

/-- A sequence ahead of the one that is expected next. -/
def seqAhead (x : LinkDir) (n : Nat) : Bool := decide ((n + 4096 - x.rxNext) % 4096 < 2048)

/-- FLIT: a receiver takes a 256-byte flit on direction `d` of link `l` (R300 to R305). Flits behind one that failed are discarded until its
replay; a replayed flit that was already delivered is not delivered again (R303). -/
def flitEffect (l d : Nat) (bs : List Byte) (s : State) : State :=
  let x := linkOf s l d
  if bs.length ≠ 256 || !carries x then s
  else
    let s1 := ((parityErrors bs x.width).filterMap (laneMap x)).foldl (countParity l d) s
    let h := leNat (bs.take 4)
    if (crc32c (bs.take 244)).toNat ≠ leNat ((bs.drop 244).take 4) then nakFlit l d s1
    else
      let s2 := takeHeader l d h s1
      let y := linkOf s2 l d
      if fld h 31 30 = 1 then
        if fld h 29 18 = y.rxNext then deliverFlit l d bs s2
        else if seqAhead y (fld h 29 18) && !y.nakked then nakFlit l d s2 else s2
      else s2

def execFlit (l d : Nat) (bs : List Byte) (s : State) : Host.Outcome State Fault Refusal := onWf (.flit l d bs) (flitEffect l d bs s)

end Sys2Proof.Machine
end

