-- ==== Sys2Proof/Machine/MbxJob.lean ====
section
/-! DEFINITION. Mailbox commands on channels, jobs, seals and single tiles: VERSION_HELLO, JOB_OPEN,
JOB_CLOSE, SEAL_MODEL, TILE_RETIRE, POWER_SET, CLAMP_REPORT_READ (14, 15). -/

namespace Sys2Proof.Machine

/-- VERSION_HELLO (R381). -/
def cmdVersionHello : Cmd := fun ch _ w s =>
  let c := chanOf s ch
  match negotiated (wd w 0) with
  | none => (rejected stState, setChan ch { c with gen := 0 } s)
  | some g =>
    let p := chanPart s ch
    (ok [word (g * 2 ^ 56 + 3 * 2 ^ 48 + 2 ^ 40 + ch * 2 ^ 36 + (p.getD 0) * 2 ^ 32 + (if p.isSome then 2 ^ 31 else 0)),
         word s.lc.deviceId],
     setChan ch { c with gen := g } s)

/-! ### Power domains (R427 to R429, R442) -/

/-- A domain after a reset: point 9 for a compute die, 7 for a cluster (R429). -/
def domReset (a : Nat) : Dom := { point := if a < 4 then 9 else 7 }
def domOf (s : State) (a : Nat) : Dom := (tblGet? s.power.doms a).getD (domReset a)
def setDom (a : Nat) (d : Dom) (s : State) : State := { s with power := { s.power with doms := tblSet a d s.power.doms } }

/-- JOB_OPEN raises every compute die to at least point 9, and no step down below it stays due (R167, R433). -/
def raiseFloor (s : State) : State :=
  (List.range 4).foldl (fun s a =>
    let d := domOf s a
    if d.point < 9 then setDom a { d with point := 9, target := none } s
    else if d.target.any (fun t => decide (t < 9)) then setDom a { d with target := none } s
    else s) s

/-- A timetable runs on the package (R167). -/
def timetableRuns (s : State) : Bool := anyJob s

/-! ### Jobs (R387, R388) -/

/-- The Quartz condition of R153. -/
def quartzReady (s : State) (members : Nat) : Bool :=
  match s.quartz.state with
  | .free => false
  | .holdover => false
  | .consist => true
  | .localRef => decide (members ≤ 1) || (match s.route with | some r => r.timeRoot == r.self | none => false)

/-- hold_lead against the delivery bound (R178). -/
def holdLeadOk (s : State) (i : Image) : Bool :=
  match deliveryBound s with
  | some b => decide (b + 1000 ≤ 4 * i.holdLead)
  | none => false

/-- A logical tile that the image names is unbacked (R92, R454). -/
def namesUnbacked (s : State) (i : Image) : Bool :=
  (usedStreams i).any (fun st => decide (st < 544) && (physOf s st).isNone)

/-- The conditions of R387 that complete JOB_OPEN REJECTED_STATE (with R153, R178, R421, R454), each with the payload field
that fails it, if it is one field. -/
def jobOpenState (s : State) (p rq : Nat) (sealed : Bool) (slot t0 : Nat) : List (Bool × Nat) :=
  let q := partOf s p
  let svc := q.image.any (fun i => i.service)
  [(sealed && (tblGet? q.seals slot).isNone, 5), (!svc && !(queueOf s rq).enable, 5),
   (decide (t0 < now s + 1000000) || decide (now s + 3600000000000 < t0), 16),
   ((match q.image with
    | none => true
    | some i => q.job.isSome ||
      (decide (1 < i.members) && (match s.route with
        | none => true
        | some r => !holdLeadOk s i || decide (r.members ≠ i.members))) ||
      !quartzReady s i.members || receiptBlocked s || namesUnbacked s i ||
      (i.service && !((queueOf s i.svcQueue).enable && (queueOf s i.svcQueue).qtype == 1))), noField)]

def serviceImage (s : State) (p : Nat) : Bool := match (partOf s p).image with | some i => i.service | none => false

/-- JOB_OPEN; on a degraded package the other members are told that epoch 0 already runs degraded (log 57) (R153, R164, R182, R315, R387, R433). -/
def cmdJobOpen : Cmd := fun _ _ w s =>
  let w0 := wd w 0
  let p := wf w0 63 60
  let rq := wf w0 58 45
  let sealed := bit w0.toNat 40
  let slot := wf w0 44 41
  let svc := serviceImage s p
  checked
    ([(svc && (bit w0.toNat 59), stFormat, 7), (svc && decide (rq ≠ 0), stFormat, 5),
     (decide ((wd w 1).toNat = 0), stFormat, 8), (decide ((wd w 2).toNat % 4 ≠ 0), stFormat, 16),
     (!svc && decide (queuePart s rq ≠ some p), stQuota, 5)] ++
      (jobOpenState s p rq sealed slot (wd w 2).toNat).map (fun c => (c.1, stState, c.2)))
    (fun s =>
      match (partOf s p).image with
      | none => (rejected stState, s)
      | some i =>
        let j : Job := { id := (wd w 1).toNat, t0 := (wd w 2).toNat, recQueue := rq, irq := bit w0.toNat 59,
                         sealSlot := if sealed then some slot else none, service := i.service, members := i.members,
                         degFrom := if s.degraded then some 0 else none, degraded := decide (s.level < 0x1F) }
        let s1 := setPart p { partOf s p with job := some j, offset := 0 } s
        let s2 := if s.degraded && decide (1 < i.members) then issue p 3 5 0 0 0 s1 else s1
        (ok, raiseFloor (setSeqs p (fun q => { q with st := .armed, epoch := 0, entry := 0 }) s2)))
    s

/-- JOB_CLOSE (R388, R366). -/
def cmdJobClose : Cmd := fun ch seq w s =>
  let p := wf (wd w 0) 63 60
  match jobOf s p with
  | none => (rejected stState 8, s)
  | some j =>
    if j.id ≠ (wd w 1).toNat then (rejected stState 8, s)
    else if j.service then
      if inSlot s p j then ({ status := stDone, later := true }, setJob p { j with closing := some (ch, seq) } s)
      else
        let s1 := match sessionQueue s p with | some q => flushSession p q stState s | none => s
        (ok, closeJob p stDone s1)
    else if j.running || decide (j.t0 ≤ now s) then (rejected stState, s)
    else (ok, closeJob p stDone s)

/-! ### Seals (R389, R416, R417) -/

/-- A ring of an enabled queue lies in an extent that a range touches (R347). -/
def ringInRange (s : State) (a n : Nat) : Bool :=
  s.queues.any (fun e => e.2.enable && (extsOf a n).any (fun x =>
    overlap e.2.sqBase (64 * 2 ^ e.2.sqLog) (x * extSize) extSize || overlap e.2.cqBase (32 * 2 ^ e.2.cqLog) (x * extSize) extSize))

/-- SEAL_MODEL (R389). A poisoned line in the range ends the command as a queue command's Dray would (log 20). -/
def cmdSealModel : Cmd := fun _ _ w s =>
  let w0 := wd w 0
  let p := wf w0 63 60
  let slot := wf w0 59 56
  let rel := bit w0.toNat 55
  let d := wf w0 54 49
  let base := wf (wd w 1) 42 0
  let len := wf (wd w 2) 39 0
  let q := partOf s p
  if rel then
    checked [((match q.job with | some j => j.sealSlot == some slot | none => false), stState, noField)]
      (fun s => (ok, if partExists s p then setPart p { partOf s p with seals := tblDel slot (partOf s p).seals } s else s)) s
  else
    checked
      [(decide (base % extSize ≠ 0), stFormat, 8), (decide (len = 0), stFormat, 16),
       (!inPart q base len || decide (umrEnd < base + len), stRegion, 8),
       (!bit q.drayMask d, stQuota, 6),
       (q.job.isSome || (tblGet? q.seals slot).isSome || ringInRange s base len, stState, noField)]
      (fun s =>
        if rangePoisoned s base len then (rejected stReset, partReset p s)
        else
          let (bs, s1) := cohRead (.dray d) base len none s
          let root := sealRoot bs
          (ok (wordsOf root), setPart p { partOf s1 p with seals := tblSet slot { root := root, base := base, len := len } (partOf s1 p).seals } s1))
      s

/-! ### Clamps (R392, R430) -/

/-- A clamp report entry (Table 14-6). -/
def clampEntry (block wrd lsb width seq given used : Nat) : Word × Word :=
  (word (block * 2 ^ 56 + wrd * 2 ^ 48 + lsb * 2 ^ 40 + width * 2 ^ 32 + seq * 2 ^ 16), word (given * 2 ^ 32 + used))

/-- A command that clamps leaves its report on the channel; one that does not leaves the previous report. -/
def setClamps (ch seq : Nat) (cs : List (Word × Word)) (s : State) : State :=
  if cs.isEmpty then s else setChan ch { chanOf s ch with clampSeq := seq, clamps := cs.take 29 } s

/-- CLAMP_REPORT_READ (R392). -/
def cmdClampReportRead : Cmd := fun ch _ _ s =>
  let c := chanOf s ch
  (ok (word (c.clampSeq * 2 ^ 48 + c.clamps.length * 2 ^ 40) :: c.clamps.flatMap (fun e => [e.1, e.2])), s)

/-- POWER_SET: the clamped cap takes effect, and the reply follows, at the next control interval boundary (R430). -/
def cmdPowerSet : Cmd := fun ch seq w s =>
  let cap := wf (wd w 0) 63 52
  let used := max 1600 (min 3600 cap)
  let s1 := if used ≠ cap then setClamps ch seq [clampEntry 0x03 0 52 12 seq cap used] s else s
  ({ status := stDone, later := true },
   { s1 with power := { s1.power with newCap := some used, capReply := some (ch, seq, if used ≠ cap then 1 else 0) } })

end Sys2Proof.Machine
end

