-- ==== Sys2Proof/Machine/Nguix.lean ====
section
/-! DEFINITION. Nguix ports: training, frames and retry, lanes, lasers, announcements; remote requests and responses
(R316 to R336). -/

namespace Sys2Proof.Machine

/-! ### Lanes and lasers (R318, R324, R325) -/

/-- Lanes in use after failures: all eight, the group of four without a failure, or none. -/
def portLanes (f : NatSet) : Nat :=
  if f.isEmpty then 8 else if f.any (fun l => decide (l < 4)) && f.any (fun l => decide (4 ≤ l)) then 0 else 4

/-- A lane fails: the first halves the port, one in each group loses it (R325). -/
def nguixLaneEffect (p n : Nat) (s : State) : State :=
  let x := portOf s p
  if !x.up || setHas x.failed n then s
  else
    let f := setIns n x.failed
    let w := portLanes f
    if w = 0 then setPort p { portOf (losePort p s) p with failed := f } (losePort p s)
    else if w = x.lanes then setPort p { x with failed := f } s
    else
      let s1 := setPort p { x with failed := f, lanes := w, stopUntil := some (now s + 20000), laneCheck := false } s
      let s2 := raiseEvent evLaneDegrade (41 + p) (causeOf evLaneDegrade 2) s1
      if routeUses s p then enterDegraded s2 else s2

def execNguixLaneFailure (p n : Nat) (s : State) : Host.Outcome State Fault Refusal := onWf (.nguixLaneFailure p n) (nguixLaneEffect p n s)

def laserOf (s : State) (k : Nat) : Laser := tblGet {} s.lasers k

/-- A module reports itself ready: its outputs are enabled (R318). -/
def execLaserModuleReady (k : Nat) (s : State) : Host.Outcome State Fault Refusal :=
  onWf (.laserModuleReady k) { s with lasers := tblSet k { ready := true, enabled := true, faulted := false } s.lasers }

/-- A module reports a fault, drops an output or stops answering: the five ports of its link die are lost (R318, R325). -/
def laserFaultEffect (k : Nat) (s : State) : State :=
  (List.range 5).foldl (fun s i => losePort (5 * k + i) s)
    { s with lasers := tblSet k { ready := false, enabled := false, faulted := true } s.lasers }

def execLaserModuleFault (k : Nat) (s : State) : Host.Outcome State Fault Refusal := onWf (.laserModuleFault k) (laserFaultEffect k s)

/-! ### Training and announcements (R322, R323, R327) -/

/-- The peer's feature word lets the port come up (R323). -/
def featureOk (w : Word) : Bool := bit w.toNat 0 && bit w.toNat 1 && (wf w 63 56 == 1 || wf w 63 56 == 2)

/-- A measured delay above max_hop_ns excludes a port that the route table uses (R327). -/
def delayTooLong (s : State) (p d : Nat) : Bool :=
  match s.route with
  | some r => routeUses s p && decide (r.maxHop < d)
  | none => false

/-- A port is excluded and counts as lost (R327). -/
def excludePort (p : Nat) (s : State) : State :=
  let x := portOf s p
  if x.lost then s
  else enterDegraded (raiseEvent evLaneDegrade (41 + p) (causeOf evLaneDegrade 4) (setPort p { x with lost := true } s))

/-- PORT_TRAINING of a port that is not up (Table 12-4). -/
def trainEffect (p : Nat) (r : PortTrain) (s : State) : State :=
  let x := portOf s p
  if x.up then s
  else
    let f := r.failed.foldl (fun l n => setIns n l) []
    let w := portLanes f
    if !r.ok || w = 0 || !featureOk r.feature || !(laserOf s (p / 5)).enabled then setPort p { x with failed := f, lanes := 0 } s
    else
      let y : Port := { up := true, failed := f, lanes := w, generation := min 2 (wf r.feature 63 56), features := wf r.feature 4 0,
                        peerDevice := r.peerDevice.toNat, peerPort := r.peerPort, delay := r.delay }
      let s1 := setPort p y s
      let s2 := if routeUses s p then send (.announce p p (selfNo s)) s1 else s1
      if delayTooLong s2 p r.delay then excludePort p s2 else s2

def execPortTraining (p : Nat) (r : PortTrain) (s : State) : Host.Outcome State Fault Refusal := onWf (.portTraining p r) (trainEffect p r s)

/-- ROUTE_ANNOUNCE: the neighbour's number and port are held against the port entry (R327). -/
def announceEffect (p nbr nbrPort : Nat) (s : State) : State :=
  match s.route with
  | some r =>
    let e := tblGet {} r.ports p
    if e.used && (e.nbr ≠ nbr || e.nbrPort ≠ nbrPort) then excludePort p s else s
  | none => s

def execRouteAnnounce (p nbr nbrPort : Nat) (s : State) : Host.Outcome State Fault Refusal :=
  onWf (.routeAnnounce p nbr nbrPort) (announceEffect p nbr nbrPort s)

/-! ### Frames (R319 to R321) -/

/-- CRC-64 by the polynomial of Table 12-3, most significant bit first, initial value zero (PRESUMED, log 30). -/
def crc64Bit (c : BitVec 64) : Nat → BitVec 64
  | 0 => c
  | n + 1 => crc64Bit (if c.getLsbD 63 then (c <<< 1) ^^^ 0x42F0E1EBA9EA3693#64 else c <<< 1) n

def crc64 (bs : List Byte) : BitVec 64 := bs.foldl (fun (c : BitVec 64) b => crc64Bit (c ^^^ ((b.setWidth 64 : BitVec 64) <<< (56 : Nat))) 8) 0

/-- The header of Table 12-3. -/
def frameHeader (ftype seq ack nak ccl cred : Nat) : Nat :=
  ftype * 2 ^ 62 + seq * 2 ^ 48 + ack * 2 ^ 34 + nak * 2 ^ 33 + ccl * 2 ^ 31 + cred * 2 ^ 23

/-- The 512 bytes of a frame (Table 12-3). -/
def frameBytes (header : Nat) (slots : List Byte) : List Byte :=
  let body := leBytes 8 header ++ padTo 496 0 slots
  body ++ leBytes 8 (crc64 body).toNat

/-- A frame leaves a port with its acknowledgement. A frame does not tell the class of its packets, so the credits that it returns are
free (log 65). -/
def sendFrame (p ftype seq : Nat) (slots : List Byte) (s : State) : State :=
  let x := portOf s p
  if x.up && x.stopUntil.isNone then
    let (v, s1) := draw s
    send (.frame p (frameBytes (frameHeader ftype seq ((x.rxNext + 16383) % 16384) (b2n x.nakDue) (v.toNat % 4) (v.toNat / 4 % 256)) slots))
      (setPort p { x with nakDue := false } s1)
  else s

/-- Every data frame that is not acknowledged is sent again, in order (R321). -/
def replayFrames (p : Nat) (s : State) : State := (portOf s p).replay.foldl (fun s f => sendFrame p 1 f.1 f.2 s) s

/-- The data frames of a packet leave, where its class has credits and the buffer of 8,192 frames has room (R320, R321). -/
def sendPacket (p : Nat) (s : State) (k : Nat × List Byte) : State :=
  let x := portOf s p
  let fs := (chunks 496 (k.2.length / 496 + 1) k.2).mapIdx (fun i b => ((x.txNext + i) % 16384, padTo 496 0 b))
  let cr := (tblGet? x.credits k.1).getD (Config.portCredits k.1)
  if cr < fs.length || 8192 < x.replay.length + fs.length || !x.up || x.stopUntil.isSome then setPort p { x with queue := x.queue ++ [k] } s
  else fs.foldl (fun s f => sendFrame p 1 f.1 f.2 s)
    (setPort p { x with replay := x.replay ++ fs, txNext := (x.txNext + fs.length) % 16384, credits := tblSet k.1 (cr - fs.length) x.credits } s)

/-- The packets that wait are sent in their order, as far as they may be. -/
def pumpFrames (p : Nat) (s : State) : State :=
  let x := portOf s p
  if x.queue.isEmpty then s else x.queue.foldl (sendPacket p) (setPort p { x with queue := [] } s)

/-- PORT_RESUME: the port goes on by replay after a halving (R321, R325). -/
def portResumeEffect (p : Nat) (s : State) : State :=
  let x := portOf s p
  match x.stopUntil with
  | some t => pumpFrames p (replayFrames p (setPort p { x with stopUntil := none } (advance t s)))
  | none => s

def execPortResume (p : Nat) (s : State) : Host.Outcome State Fault Refusal := onWf (.portResume p) (portResumeEffect p s)

/-- Acknowledged frames leave the replay buffer, credits return, and a nak starts the replay (R320, R321). -/
def takeFrameHeader (p h : Nat) (s : State) : State :=
  let x := portOf s p
  let ack := fld h 47 34
  let left := if x.replay.any (fun f => f.1 == ack) then ((x.replay.dropWhile (fun f => decide (f.1 ≠ ack))).drop 1) else x.replay
  let c := fld h 32 31
  let cr := if fld h 30 23 = 0 then x.credits else tblSet c ((tblGet? x.credits c).getD (Config.portCredits c) + fld h 30 23) x.credits
  let s1 := setPort p { x with replay := left, credits := cr } s
  pumpFrames p (if bit h 33 then replayFrames p s1 else s1)

/-- A data frame that fails: nak; eight replays of one sequence start the lane check (R321). -/
def nakFrame (p : Nat) (s : State) : State :=
  let x := portOf s p
  sendFrame p 0 0 [] (setPort p { x with replays := x.replays + 1, nakDue := true, nakked := true,
                                         laneCheck := x.laneCheck || decide (8 ≤ x.replays + 1) } s)

/-- A frame that fails its CRC touched at most two codewords (R319); how many of them had not been counted yet the frame does
not tell, so the count of item 0x0251 rises by a free number of at most two (log 41). -/
def badCodewords (p : Nat) (s : State) : State :=
  let (v, s1) := draw s
  bump 0x0251 p (v.toNat % 3) s1

/-- FRAME: a port receives a 512-byte frame; frames behind one that failed are discarded until its replay (R321). -/
def frameEffect (p : Nat) (bs : List Byte) (s : State) : State :=
  let x := portOf s p
  if bs.length ≠ 512 || !x.up || x.stopUntil.isSome then s
  else if (crc64 (bs.take 504)).toNat ≠ leNat (bs.drop 504) then nakFrame p (badCodewords p s)
  else
    let h := leNat (bs.take 8)
    let s1 := takeFrameHeader p h s
    let y := portOf s1 p
    if fld h 63 62 = 1 then
      if fld h 61 48 = y.rxNext then
        sendFrame p 0 0 [] (setPort p { y with
          rxNext := (y.rxNext + 1) % 16384, replays := 0, nakked := false, delivered := y.delivered ++ [(bs.drop 8).take 496] } s1)
      else if (fld h 61 48 + 16384 - y.rxNext) % 16384 < 8192 && !y.nakked then nakFrame p s1 else s1
    else s1

def execFrame (p : Nat) (bs : List Byte) (s : State) : Host.Outcome State Fault Refusal := onWf (.frame p bs) (frameEffect p bs s)

/-! ### Requests at their destination (R334 to R336) -/

/-- A request that is refused: op 0xA where it is answered, and EV_REGION_FAULT here (R336). -/
def remoteRefuse (m : RemoteMsg) (s : State) : State :=
  let s1 := raiseEvent evRegionFault m.src (causeOf evRegionFault 3) s
  if wantsReply m.op then sendReply m 0xA [] s1 else s1

/-- A request that names no operation, a misaligned address or a reserved bit is discarded and counted (R336). -/
def remoteBad (m : RemoteMsg) : Bool := decide (5 < m.op) || decide (m.addr % 64 ≠ 0) || m.reserved

/-- A read on the direct path; a read-acquire drains first (R254, R334). -/
def remotePerformRead (m : RemoteMsg) (s : State) : State :=
  match remoteData m.src m.addr (m.op = 1) s with
  | (some v, s1) => sendReply m 8 v s1
  | (none, s1) => remoteRefuse m s1

/-- A request is performed in its turn. -/
def remotePerform (m : RemoteMsg) (s : State) : State :=
  if remoteBad m then { s with remote := { s.remote with discarded := s.remote.discarded + 1 } }
  else if umrEnd < m.addr + 64 then remoteRefuse m s
  else if m.op ≤ 1 then remotePerformRead m s
  else if protectedRange s m.addr 64 then remoteRefuse m s
  else remotePerformWrite m s

def srcOf (s : State) (src : Nat) : Source := tblGet {} s.remote.src src
def setSrc (src : Nat) (x : Source) (s : State) : State := { s with remote := { s.remote with src := tblSet src x s.remote.src } }

/-- Requests that came early follow once the one before them has been performed (R335), writes that are held among them
(R271, R272). -/
def drainSource (src : Nat) : Nat → State → State
  | 0, s => s
  | n + 1, s =>
    let x := srcOf s src
    if writesWait s (.remote src) then s
    else match x.early.find? (fun m => m.pseq == x.next) with
    | some m => drainSource src n (remotePerform m (setSrc src { x with next := (x.next + 1) % 65536, early := x.early.filter (fun e => !(e.pseq == m.pseq)) } s))
    | none => setSrc src { x with gapSince := if x.early.isEmpty then none else some (x.gapSince.getD (now s)) } s

/-- The next request of a source has come, and waits for an earlier write of it that is held. -/
def nextHere (x : Source) : Bool := x.early.any (fun m => m.pseq == x.next)

/-- The request is taken in the order of its source's pseq; one already performed is not performed again. It waits while an earlier
write of its source is held (R271, R272). -/
def takeRequest (m : RemoteMsg) (s : State) : State :=
  let x := srcOf s m.src
  if m.pseq = x.next && writesWait s (.remote m.src) then
    setSrc m.src { x with early := x.early.filter (fun e => !(e.pseq == m.pseq)) ++ [m], gapSince := none } s
  else if m.pseq = x.next then
    let s1 := remotePerform m (setSrc m.src { x with next := (x.next + 1) % 65536, gapSince := none } s)
    drainSource m.src (x.early.length + 1) s1
  else if (m.pseq + 65536 - x.next) % 65536 < 32768 && decide (x.early.length < 4096) then
    setSrc m.src { x with early := x.early.filter (fun e => !(e.pseq == m.pseq)) ++ [m],
                          gapSince := if nextHere x then none else some (x.gapSince.getD (now s)) } s
  else s

/-- A request of row `op` arrives: without a route table it is answered by an error; one for another member is forwarded (R326,
R328). -/
def requestRow (op : Nat) (m : RemoteMsg) (s : State) : State :=
  if m.op ≠ op then s
  else match s.route with
    | none => if wantsReply op then sendReply m 0xA [] s else s
    | some r =>
      if m.dst = r.self then takeRequest m s
      else if (routePort s r m.dst).isSome then send (.remote m) s else if wantsReply op then sendReply m 0xA [] s else s

def execRemoteRead (m : RemoteMsg) (s : State) : Host.Outcome State Fault Refusal := onWf (.remoteRead m) (requestRow 0 m s)
def execRemoteReadAcquire (m : RemoteMsg) (s : State) : Host.Outcome State Fault Refusal := onWf (.remoteReadAcquire m) (requestRow 1 m s)
def execRemoteWrite (m : RemoteMsg) (s : State) : Host.Outcome State Fault Refusal := onWf (.remoteWrite m) (requestRow 2 m s)
def execRemoteWriteRelease (m : RemoteMsg) (s : State) : Host.Outcome State Fault Refusal := onWf (.remoteWriteRelease m) (requestRow 3 m s)
def execRemoteWriteAcked (m : RemoteMsg) (s : State) : Host.Outcome State Fault Refusal := onWf (.remoteWriteAcked m) (requestRow 4 m s)
def execRemoteWriteReleaseAcked (m : RemoteMsg) (s : State) : Host.Outcome State Fault Refusal := onWf (.remoteWriteReleaseAcked m) (requestRow 5 m s)

/-- PSEQ_GAP_SKIP: a gap of 100 µs is skipped and counted (R335). -/
def gapEffect (src : Nat) (s : State) : State :=
  let x := srcOf s src
  match x.gapSince, x.early with
  | some t, e :: rest =>
    if nextHere x then s else
    let dist := fun (m : RemoteMsg) => (m.pseq + 65536 - x.next) % 65536
    let first := rest.foldl (fun b m => if dist m < dist b then m else b) e
    let s1 := advance (t + 100000) s
    let s2 := setSrc src { x with next := first.pseq, gapSince := none } { s1 with remote := { s1.remote with gapSkips := s1.remote.gapSkips + 1 } }
    drainSource src (x.early.length + 1) s2
  | _, _ => s

def execPseqGapSkip (src : Nat) (s : State) : Host.Outcome State Fault Refusal := onWf (.pseqGapSkip src) (gapEffect src s)

/-! ### Responses at their requester (R22, R335) -/

/-- The request that a response answers. -/
def outstanding (s : State) (dst tag : Nat) : Option Outstanding := s.remote.out.find? (fun o => o.dst == dst && o.tag == tag)

/-- A request completes: it leaves the list of those outstanding. -/
def settleRemote (o : Outstanding) (err : Bool) (data : List Byte) (s : State) : State :=
  { s with remote := { s.remote with out := s.remote.out.filter (fun x => !(x.dst == o.dst && x.tag == o.tag)),
                                     done := s.remote.done ++ [(o.req, o.tag, err, data)] } }

/-- A line of another package arrives for a hart's load: the register is written, or the part of a load of two lines is kept
until the other has come (R276). -/
def hartArrive (h src tag rd off n : Nat) (signed : Bool) (data : List Byte) (s : State) : State :=
  let bs := (data.drop off).take n
  let mine := fun (x : SplitLoad) => x.dst == src && (tblGet? x.parts tag).isSome
  match (hartOf s h).splits.find? mine with
  | none => wrX h rd (loadValue bs n signed) s
  | some x =>
    let got := memWrite x.got (tblGet 0 x.parts tag) bs
    let x1 := { x with parts := tblDel tag x.parts, got := got }
    let rest := (hartOf s h).splits.filter (fun y => !mine y)
    if x1.parts.isEmpty then wrX h rd (loadValue (memRead got 0 x.size) x.size x.signed) (modHart h (fun y => { y with splits := rest }) s)
    else modHart h (fun y => { y with splits := rest ++ [x1] }) s

/-- A load of two lines fails with its first error: what still arrives for it is dropped. -/
def hartSplitFails (h src tag : Nat) (s : State) : State :=
  let mine := fun (x : SplitLoad) => x.dst == src && (tblGet? x.parts tag).isSome
  match (hartOf s h).splits.find? mine with
  | none => s
  | some x =>
    let s1 := modHart h (fun y => { y with splits := y.splits.filter (fun y => !mine y) }) s
    { s1 with remote := { s1.remote with out := s1.remote.out.map (fun o =>
        if o.dst == src && (tblGet? x.parts o.tag).isSome then { o with load := none } else o) } }

/-- A failed write of a queue command rejects it as R22 gives; its record has not been performed yet, and says so with no
flags (R8, R269). -/
def rejectWrite (d : Nat) (s : State) : State :=
  let hit := (s.queues.filter (fun e => decide (e.2.qtype = 0) && e.2.dray == d && e.2.cur.isSome)).map (·.1)
  let s1 := hit.foldl (fun s q =>
    let x := queueOf s q
    setQueue q { x with recs := x.recs.map (fun r => if r.kind = 0 && r.status / 256 = stDone then { r with status := stRegion * 256, count := 0 } else r) } s) s
  raiseEvent evRegionFault d (causeOf evRegionFault 4) s1

/-- Read data reach their requester. -/
def readDataEffect (m : RemoteMsg) (s : State) : State :=
  match outstanding s m.src m.tag with
    | some o =>
      if o.op ≤ 1 then
        let s1 := settleRemote o false m.data s
        match o.req, o.load with
        | .hart h, some (rd, off, n, sg) => hartArrive h m.src m.tag rd off n sg m.data s1
        | .dray d, _ => drayArrive d m.src (o.addr / 64) (some m.data) s1
        | _, _ => s1
      else s
    | none => s

/-- A write's acknowledgement. -/
def writeAckEffect (m : RemoteMsg) (s : State) : State :=
  match outstanding s m.src m.tag with
    | some o => if 4 ≤ o.op then settleRemote o false [] s else s
    | none => s

/-- The error response of R22 to a request. -/
def failRemote (o : Outstanding) (s : State) : State :=
  let s1 := settleRemote o true [] s
  match o.req with
  | .hart h =>
    if o.op ≤ 1 && o.load.isNone then s1
    else raiseTrap h (if o.op ≤ 1 then .loadFault else .storeFault) (2 ^ 55 + o.dst * 2 ^ 43 + o.addr) (hartSplitFails h o.dst o.tag s1)
  | .dray d => if o.op ≤ 1 then drayArrive d o.dst (o.addr / 64) none s1 else rejectWrite d s1
  | _ => s1

def remoteErrorEffect (m : RemoteMsg) (s : State) : State :=
  match outstanding s m.src m.tag with
    | some o => failRemote o s
    | none => s

/-- A response to another member is forwarded as a request is (R328). -/
def responseRow (op : Nat) (m : RemoteMsg) (run : RemoteMsg → State → State) (s : State) : State :=
  if m.op ≠ op then s
  else match s.route with
    | some r => if m.dst = r.self then run m s else if (routePort s r m.dst).isSome then send (.remote m) s else s
    | none => s

def execRemoteReadData (m : RemoteMsg) (s : State) : Host.Outcome State Fault Refusal := onWf (.remoteReadData m) (responseRow 8 m readDataEffect s)
def execRemoteWriteAck (m : RemoteMsg) (s : State) : Host.Outcome State Fault Refusal := onWf (.remoteWriteAck m) (responseRow 9 m writeAckEffect s)
def execRemoteError (m : RemoteMsg) (s : State) : Host.Outcome State Fault Refusal := onWf (.remoteError m) (responseRow 0xA m remoteErrorEffect s)

/-- REMOTE_TIMEOUT: 200 µs without a response complete the request with the error response (R335). -/
def timeoutEffect (dst tag : Nat) (s : State) : State :=
  match outstanding s dst tag with
  | some o => failRemote o (advance (o.at_ + 200000) s)
  | none => s

def execRemoteTimeout (dst tag : Nat) (s : State) : Host.Outcome State Fault Refusal := onWf (.remoteTimeout dst tag) (timeoutEffect dst tag s)

end Sys2Proof.Machine
end

