-- ==== Sys2Proof/Machine/Receipts.lean ====
section
/-! DEFINITION. Receipt batches: closing, signing, and RECEIPT_FETCH (R396, R419 to R421). -/

namespace Sys2Proof.Machine

/-- The life-cycle code that the key derivation uses: PROVISIONED and DEPLOYED share 3 (R410). -/
def keyCode (state : Nat) : Nat := if state = 2 then 3 else state

/-- Receipts of a batch, in order. -/
def batchReceipts (s : State) (b : Batch) : List (List Byte) :=
  (List.range b.count).map (fun k => tblGet [] s.rcpt.log (b.first + k))

/-- The leaf of a receipt (R420). -/
def receiptLeaf (r : List Byte) : List Byte := sha384 (0#8 :: r)

/-- The batch header (Table 15-9). -/
def batchHeader (s : State) (b : Batch) : List Byte :=
  leBytes 1 1 ++ leBytes 1 s.lc.state ++ leBytes 2 0 ++ leBytes 4 b.count ++ leBytes 8 s.lc.deviceId ++ leBytes 8 b.num ++
  leBytes 8 b.first ++ leBytes 8 (b.closedAt.getD 0) ++ leBytes 8 0 ++
  padTo 48 0 (batchRoot ((batchReceipts s b).map receiptLeaf)) ++ List.replicate 32 0

/-- The batch record: header and both signatures, which are zero in BLANK (R411, R419). -/
def batchRecordBytes (s : State) (b : Batch) : List Byte :=
  let h := batchHeader s b
  let k := keyCode s.lc.state
  if s.lc.state = 1 then h ++ List.replicate 3405 0
  else h ++ padTo 96 0 (Config.ecdsaSign k s.lc.deviceId h) ++ padTo 3309 0 (Config.mldsaSign k s.lc.deviceId h)

/-- The active Caboose can sign: its vault holds the keys of the state, or in BLANK none are needed (R419). -/
def canSign (s : State) : Bool :=
  match s.active with
  | some hd => s.lc.state == 1 || (vaultOf s hd).keys
  | none => false

/-- A closed batch that waits for its record. -/
def unsigned (b : Batch) : Bool := b.closedAt.isSome && b.record.isEmpty && !b.stopped

/-- The records of every closed batch are written. -/
def signBatches (s : State) : State :=
  if canSign s then modBatches (fun b => if unsigned b then { b with record := batchRecordBytes s b } else b) s else s

/-- The open batch closes and is signed (R405, R419, R451). -/
def closeAndSign (s : State) : State := signBatches (closeBatch s)

/-- BATCH_TIMEOUT: 1 s after its first receipt an open batch closes. -/
def batchTimeoutEffect (s : State) : State :=
  match s.rcpt.batches.find? (fun b => b.closedAt.isNone) with
  | some b => closeBatch (advance (b.openedAt + 1000000000) s)
  | none => s

/-- BATCH_RECORD: the record of the oldest closed batch is written. -/
def batchRecordEffect (s : State) : State :=
  match s.rcpt.batches.find? unsigned with
  | some b =>
    let s := match s.active with | some hd => if s.lc.state = 1 then s else readVault hd s | none => s
    if canSign s then modBatches (fun x => if x.num = b.num then { x with record := batchRecordBytes s x } else x) s else s
  | none => s

def execBatchTimeout (s : State) : Host.Outcome State Fault Refusal := onWf .batchTimeout (batchTimeoutEffect s)
def execBatchRecord (s : State) : Host.Outcome State Fault Refusal := onWf .batchRecord (batchRecordEffect s)

/-! ### RECEIPT_FETCH (R396) -/

def receiptPart (r : List Byte) : Nat := (r.getD 1 0).toNat
def receiptJob (r : List Byte) : Nat := leNat ((r.drop 16).take 8)

/-- The receipt's own answer: its index, batch and path length, itself, and its path. -/
def receiptReply (s : State) (i : Nat) (r : List Byte) : List Word :=
  let b := s.rcpt.batches.find? (fun b => decide (b.first ≤ i) && decide (i < b.first + b.count))
  let path := match b with
    | some b => if b.record.isEmpty then [] else treePath 32 (i - b.first) ((batchReceipts s b).map receiptLeaf)
    | none => []
  let num := match b with | some b => b.num | none => 0
  [word i, word (num * 256 + path.length)] ++ wordsOf r ++ path.flatMap wordsOf

/-- The highest log index of a partition's receipts of a job identity. -/
def findReceipt (s : State) (p job : Nat) : Option (Nat × List Byte) :=
  (s.rcpt.log.filter (fun e => receiptPart e.2 == p && receiptJob e.2 == job)).getLast?

def cmdReceiptFetch : Cmd := fun ch _ w s =>
  let w0 := wd w 0
  let p := wf w0 63 60
  let kind := wf w0 59 58
  let key := (wd w 1).toNat
  if inSafe s then (rejected stState, s)
  else match kind with
  | 0 => match findReceipt s p key with
    | some (i, r) => (ok (receiptReply s i r), s)
    | none => (rejected stState, s)
  | 1 => match tblGet? s.rcpt.log key with
    | some r => if ch = 0 || receiptPart r == p then (ok (receiptReply s key r), s) else (rejected stState, s)
    | none => (rejected stState, s)
  | 2 => match s.rcpt.batches.find? (fun b => b.num == key && !b.record.isEmpty) with
    | some b =>
      let part := (b.record.drop (wf (wd w 2) 31 0)).take 2024
      (ok (word (b.record.length * 2 ^ 32 + part.length) :: wordsOf (padTo (roundUp part.length 8) 0 part)), s)
    | none => (rejected stState, s)
  | _ => (rejected stFormat 7, s)

end Sys2Proof.Machine
end

