-- ==== Sys2Proof/Machine/BringUp.lean ====
section
/-! DEFINITION. Tamper events, the steps of Table 17-1, the kinds of reset of Table 17-3, and the supply and pin events that
start them (R401, R407, R408, R425, R426, R437, R443 to R451, R468, R469). -/

namespace Sys2Proof.Machine

/-! ### Tamper (R407, R408) -/

/-- Whether a life-cycle state arms a source of Table 15-5: 1 mesh, 2 voltage, 3 clock, 4 temperature, 5 lid (Table 15-1). -/
def armed (state source : Nat) : Bool :=
  if state = 5 then false
  else if state = 2 || state = 3 then decide (1 ≤ source) && decide (source ≤ 5)
  else source == 2 || source == 3 || source == 4

/-- What an armed tamper event does (R408). -/
def tamper (hd source : Nat) (s : State) : State :=
  let s1 := raiseEvent evTamper hd source (wipeVaults s)
  let lc := if s.lc.tamper then s1.lc else { s1.lc with tamper := true, tamperCause := source }
  let s2 := enterSafe 0x01 lc.tamperCause { s1 with lc := lc }
  { s2 with pins := { s2.pins with tamperOutN := false } }

/-- TAMPER_EVENT: with the islands unpowered no detector runs (R407). -/
def tamperEffect (hd source : Nat) (s : State) : State :=
  if s.power.islands && armed s.lc.state source then
    let s1 := if source = 5 then { s with pins := { s.pins with lidB := false } } else s
    tamper hd source s1
  else s

def execTamperEvent (hd source : Nat) (s : State) : Host.Outcome State Fault Refusal := onWf (.tamperEvent hd source) (tamperEffect hd source s)

/-- A tamper or thermal-trip latch is held (R408, R437), or the state is SCRAP (R406): the package does not leave the safe
state. -/
def latched (s : State) : Bool := s.lc.tamper || s.power.trip.isSome || s.lc.state == 5

/-! ### The logical tile map (R90) -/

/-- The logical tile whose default position is a non-spare physical tile. -/
def defaultLogical (s : State) (t : Nat) : Nat :=
  136 * (t / 144) + ((List.range (t % 144)).filter (fun i => !setHas s.spares (144 * (t / 144) + i))).length

/-- Retired tiles of the record, ascending. -/
def retiredTiles (s : State) : NatSet :=
  ((s.record.committed ++ s.record.buffered).filter (fun e => e.kind == recTile)).foldl (fun l e => setIns e.a l) []

/-- The map that R90 builds: each retired non-spare position gives way to the lowest free spare of its die. -/
def rebuildMap (s : State) : State :=
  ((retiredTiles s).filter (fun t => !setHas s.spares t)).foldl (fun s t => remapTile (defaultLogical s t) s) { s with map := [] }

/-! ### Steps of Table 17-1 -/

/-- The limit of a step, µs. -/
def stepLimit (k : Nat) : Nat :=
  [0, 200, 1000, 6000, 6200, 200000, 2000000, 5000000, 12000000, 12010000, 22000000, 38000000, 38200000, 40000000, 45000000].getD k 0

/-- A step has completed. Its time is open; after a wake it lies between the step before and its limit (log 34). -/
def markStep (k : Nat) (wake : Bool) (s : State) : State :=
  let (v, s1) := draw s
  let prev := tblGet 0 s.bu.done (k - 1)
  let t := if wake then prev + v.toNat % (stepLimit k + 1 - prev) else v.toNat
  { s1 with bu := { s1.bu with step := k, done := tblSet k t s1.bu.done } }

/-- The fused minimum svn of an image type: 0 Caboose, 1 processor (R413). -/
def minSvn (lc : LifeCycle) (ty : Nat) : Nat := if ty = 0 then lc.svnCab else lc.svnProc

/-- The image of a slot verifies (R413). -/
def verifies (lc : LifeCycle) (ty : Nat) (x : BootSlot) : Bool := x.valid && decide (minSvn lc ty ≤ x.svn)

/-- The slot of an image type that boots: of the slots whose image verifies, the one with the higher serial (R414). -/
def bootSlot (s : State) (ty : Nat) : Option Nat :=
  let a := tblGet {} s.lc.slots (2 * ty)
  let b := tblGet {} s.lc.slots (2 * ty + 1)
  if verifies s.lc ty b && (!verifies s.lc ty a || decide (a.serial < b.serial)) then some 1
  else if verifies s.lc ty a then some 0 else none

/-- Step 5: the Caboose image is chosen, and each island derives the keys of its state (R409, R410, R414). -/
def stepRoot (s : State) : State :=
  if s.lc.state = 5 then enterSafe 0x0F 0 s
  else match bootSlot s 0 with
    | none => enterSafe 0x03 (dieHD (s.active.getD 0)) s
    | some k =>
      let keys := decide (2 ≤ s.lc.state)
      let s1 := { s with lc := { s.lc with runCab := k } }
      setVault 1 { vaultOf s1 1 with keys := keys } (setVault 0 { vaultOf s1 0 with keys := keys } s1)

/-- A tile that fails at step 7 or 8 is recorded as retired (Table 17-5); step 13 reports it. -/
def failTile (cause : Nat) (s : State) (t : Nat) : State :=
  if retired s t then s
  else
    let s1 := recordEntry { kind := recTile, a := t, b := cause } s
    { s1 with bu := { s1.bu with retires := s1.bu.retires ++ [(t, cause)] } }

/-- EV_RETIRE of each tile that steps 7 and 8 retired (Table 17-1, R295). -/
def reportTiles (s : State) : State :=
  s.bu.retires.foldl (fun s e => raiseEvent evRetire e.1 e.2 s) { s with bu := { s.bu with retires := [] } }

/-- Lanes that training excludes: those of the record (R311) and those that fail now. -/
def trainLanes (lanes : List (Nat × Nat)) (s : State) : Tbl LinkDir :=
  let old := ((s.record.committed ++ s.record.buffered).filter (fun e => e.kind == recLane)).map (fun e => (e.a, e.b))
  (old ++ lanes).foldl (fun t e =>
    let f := setIns e.2 (tblGet {} t e.1).failed
    let (w, g) := dirWidth f none
    tblSet e.1 { failed := f, width := w, group := g } t) []

/-- A direction that exceeds a limit ends training at that step with the lanes it has; its credits are not initialised (R312; log 66). -/
def endTraining (t : SelfTest) (m : Tbl LinkDir) : Tbl LinkDir :=
  t.overruns.foldl (fun m e => let x := tblGet {} m e.1; tblSet e.1 { x with step := min x.step e.2 } m) m

/-- Step 9: every link trains; the package level is the AND over the twelve dies (R312 to R314). -/
def stepLinks (t : SelfTest) (s : State) : State :=
  let s1 := { s with links := endTraining t (trainLanes t.lanes s), revs := t.revisions, level := if t.revisions.all (· == 16) then 0x1F else 0x07 }
  let s2 := { s1 with degraded := linksDegraded s1 }
  let s3 := (s2.links.filter (fun e => decide (e.2.width < 64))).foldl
    (fun s e => raiseEvent evLaneDegrade (e.1 / 2) (causeOf evLaneDegrade (if e.2.width = 0 then 1 else 0)) s) s2
  match diePairs.find? (fun p => !pairUp s3 p.1 p.2) with
  | some p => enterSafe 0x08 ((pairLinks p.1 p.2).headD 0) s3
  | none => s3

/-- Step 10: a channel that stopped fails training (R197). -/
def stepHbm (s : State) : State :=
  match s.deadCh with
  | c :: _ => enterSafe 0x09 (c / 64) s
  | [] => { s with hbmRows := [] }

/-- Step 12: the Quartz runs on QREF where it is valid, the modules that are ready light up, and the root ports are released. -/
def stepClocks (t : SelfTest) (s : State) : State :=
  let q := s.quartz
  let st := if t.qref then QState.localRef else if q.state == .free then .free else .holdover
  let since := if st == .holdover then some (q.holdoverSince.getD q.now) else none
  let total := if st == .localRef then q.holdoverTotal + (match q.holdoverSince with | some h => q.now - h | none => 0) else q.holdoverTotal
  { s with quartz := { q with qref := t.qref, state := st, holdoverSince := since, holdoverTotal := total, timingPort := none, consistSince := none }
           lasers := s.lasers.map (fun e => (e.1, { e.2 with enabled := e.2.ready }))
           pins := { s.pins with peRst := true } }

/-- A compute die that the record marks failed (R439). -/
def failedDie (s : State) : Option Nat :=
  ((s.record.committed ++ s.record.buffered).find? (fun e => e.kind == recDie)).map (·.a)

/-- Step 13: a compute die marked failed is critical (R439); else the map is built and the tiles retired so far are reported. -/
def stepMap (s : State) : State :=
  match failedDie s with
  | some d => enterSafe 0x0C d s
  | none => reportTiles (rebuildMap s)

/-- Step 14: the processor image is chosen (R414) and the harts start in reset state (R297); SAFE_OUT falls. -/
def stepRelease (s : State) : State :=
  match bootSlot s 1 with
  | none => enterSafe 0x0B (diePD 0) s
  | some k => { s with lc := { s.lc with runProc := k }, harts := [], pins := { s.pins with safeOut := false } }

/-- Domains after a reset that leaves their die powered or starts it (R429). -/
def resetDoms (s : State) : State :=
  let fix := fun (a : Nat) (d : Dom) => { d with point := min (domReset a).point d.highest, target := none }
  { s with power := { s.power with doms := s.power.doms.map (fun e => (e.1, fix e.1 e.2)) } }

def stepAction (k : Nat) (t : SelfTest) (full : Bool) (s : State) : State :=
  match k with
  | 2 =>
    let s1 := { s with pcie := { s.pcie with bifs := t.bifPins } }
    if !s1.pins.lidB && armed s1.lc.state 5 then tamper 0 5 s1 else s1
  | 3 => resetDoms { s with power := { s.power with rails := true } }
  | 5 => stepRoot s
  | 7 => t.bist.foldl (failTile 5) s
  | 8 => t.march.foldl (failTile 6) (if full then applyRepairs s else s)
  | 9 => stepLinks t s
  | 10 => stepHbm s
  | 11 => t.readOnly.foldl (fun s f => setStack f { stackOf s f with readOnly := true } s) s
  | 12 => stepClocks t s
  | 13 => stepMap s
  | 14 => stepRelease (if full then s else { s with pins := { s.pins with peRst := true } })
  | _ => s

/-- The step waits for PWR_GOOD_IN (step 3) or for RESET_IN_N (step 4) to be high (R443, R451, R468). -/
def stepWaits (k : Nat) (s : State) : Bool := (k == 3 && !s.pins.pwrGood) || (k == 4 && !s.pins.resetN)

/-- A test that fails: step, cause of Table 17-2 and unit. Cause 1 at step 2 is the tamper event of R408. -/
def failStep (c u : Nat) (s : State) : State :=
  if c = 1 then (if armed s.lc.state u then tamper 0 u s else s) else enterSafe c u s

/-- The steps run in order until one stops the sequence, one waits, or all have completed (R443 to R445). -/
def runSteps (t : SelfTest) (full wake : Bool) : List Nat → State → State
  | [], s => { s with bu := { s.bu with state := 1, todo := [] } }
  | k :: rest, s =>
    if stepWaits k s then { s with bu := { s.bu with todo := k :: rest } }
    else
      let s0 := match t.critical with
        | some (n, c, u) => if n = k then failStep c u s else s
        | none => s
      if s0.bu.state ≠ 0 then { s0 with bu := { s0.bu with todo := [] } }
      else
        let s1 := stepAction k t full s0
        if s1.bu.state ≠ 0 then { s1 with bu := { s1.bu with todo := [] } }
        else runSteps t full wake rest (markStep k wake s1)

/-- Time passes while the steps run: how much is open, within the limit (log 34). -/
def passBringUp (us : Nat) (s : State) : State :=
  let (v, s1) := draw s
  advance (now s1 + v.toNat % (us * 1000 + 1)) s1

/-! ### Power-on and power restart (Table 17-3) -/

/-- A power-on from a step on: every rail was off before it. A package whose latch is held, or in SCRAP, stays as it is. -/
def powerOn (t : SelfTest) (from_ : Nat) (wake : Bool) (s : State) : State :=
  let steps := (List.range 15).filter (fun k => decide (from_ ≤ k))
  let kept := if wake then ([] : Tbl Nat) else s.bu.done.filter (fun e => decide (e.1 < from_))
  let count := if wake then 1 else s.bu.count + 1
  let s1 := { s with bu := { s.bu with state := 0, step := from_ - 1, done := kept, count := count, todo := [], down := false } }
  passBringUp 45000000 (runSteps t true wake steps s1)

/-- What only a power restart or a wake clears (R488). -/
def clearFlags (s : State) : State :=
  { s with power := { s.power with maxInput := false, capFloor := false, supplyWarn := false }
           thermal := { s.thermal with flag := false }
           quartz := { s.quartz with loadRefused := false } }

def powerRestart (t : SelfTest) (s : State) : State := powerOn t 2 false (clearFlags s)

/-- The persistent record as step 5 reads it: guardbands and highest points (R438, R439, R449). -/
def readRecord (s : State) : State :=
  s.record.committed.foldl (fun s e =>
    if e.kind = recGuardband then { s with power := { s.power with guard := tblSet e.a (max e.b (tblGet 15 s.power.guard e.a)) s.power.guard } }
    else if e.kind = recPoint then let d := domOf s e.a; setDom e.a { d with highest := min e.b d.highest } s
    else s) s

/-- The islands as they wake: their SRAM, their registers and the Quartz start afresh (R135, R187, R375, R400, R408, R437). -/
def wakeIslands (s : State) : State :=
  let lc := { s.lc with tamper := false, tamperCause := 0 }
  wipeVaults (readRecord { s with
    quartz := {}, lastJobs := [], events := [], ctr := [], chans := [], rcpt := {}, mgmt := [], lasers := [], tap := 1, active := some 0
    standby := false, lc := lc, thermal := {}, power := { vin := s.power.vin }
    record := { s.record with buffered := [] }
    pcie := { bifs := s.pcie.bifs }
    pins := { s.pins with tamperOutN := true, thermTripN := true, safeOut := true, peRst := false }
    bu := { state := 0, step := 0, done := [], count := 0 } })

/-- A wake from off: the input has risen after the islands lost their supply (R425). -/
def wakeEffect (t : SelfTest) (s : State) : State :=
  if s.power.islands then s
  else
    let (v, s1) := draw s
    let s2 := wakeIslands { s1 with power := { s1.power with vin := 44001 + v.toNat % 16000 } }
    powerOn t 1 true s2

def execWakeFromOff (t : SelfTest) (s : State) : Host.Outcome State Fault Refusal := onWf (.wakeFromOff t) (wakeEffect t s)

/-! ### Package reset (R28, R136, R187, R243, R274, R297, R345, R372, R400, R419, R429, R459) -/

/-- Channels after a package reset (R400). -/
def resetChans (s : State) : State :=
  let s1 := finishChans stReset s
  let clear := fun (c : Chan) =>
    { req := c.req, reply := c.reply, lastStatus := c.lastStatus, ucmd := c.ucmd, ustatus := c.ustatus, discards := c.discards : Chan }
  { s1 with chans := s1.chans.map (fun e => (e.1, clear e.2)) }

/-- Coupling links keep their widths; packets in flight are discarded (R311, R372). -/
def resetLinks (s : State) : State :=
  let idle := fun (x : LinkDir) => { failed := x.failed, width := x.width, group := x.group, step := x.step, parity := x.parity : LinkDir }
  let calm := fun (p : Port) => { p with delivered := [], queue := [], replay := [] }
  { s with links := s.links.map (fun e => (e.1, idle e.2)), ports := s.ports.map (fun e => (e.1, calm e.2)) }

/-- SPDM connections end with the Caboose that held them. -/
def closeSessions (s : State) : State :=
  { s with mgmt := s.mgmt.map (fun e => (e.1, { e.2 with spdm := 0, session := 0, transcript := [] })) }

def packageSteps : List Nat := [4, 5, 6, 7, 8, 13, 14]

/-- What a package reset does before its steps run. -/
def packageDown (s : State) : State :=
  let s1 := resetChans (closeAndSign (haltJobs stReset false s))
  let s2 := resetDoms (resetHarts (resetTiles (clearParts (tierReset ((List.range 4).foldl (fun s f => settleRelocations f s) (coherenceReset s1))))))
  let s3 := closeSessions (resetLinks s2)
  { s3 with degraded := linksDegraded s3
            bu := { s3.bu with state := 0, step := 3, todo := [], done := s3.bu.done.filter (fun e => !packageSteps.elem e.1) }
            pins := { s3.pins with safeOut := true, peRst := false } }

/-- The package reset of Table 17-3; a Tender that failed its restarts ends it in the safe state (R459). -/
def packageReset (t : SelfTest) (s : State) : State :=
  let s1 := packageDown s
  match s.tenders.find? (fun e => e.2.dead) with
  | some e => enterSafe 0x0E (dieHD e.1) s1
  | none => passBringUp 15000000 (runSteps t false false packageSteps s1)

/-- RESET of the package as its present condition has it: rejected while a latch is held, in SCRAP or while the supply is not
good; power-on from step 3 in the safe state; a power restart after POWER_DOWN; otherwise the package reset (R447, Table 17-3). -/
def resetPackage (t : SelfTest) (s : State) : Option State :=
  if latched s || s.power.fault || !s.power.islands then none
  else if s.bu.state = 1 then some (packageReset t s)
  else if s.bu.down then some (powerRestart t s)
  else if s.bu.state = 0 then none
  else some (powerOn t 3 false s)

/-! ### POWER_DOWN (R372, R451) -/

/-- ABORTED_POWER records for the queue commands in progress (R372). -/
def powerRecords (s : State) : State :=
  (s.queues.filter (fun e => e.2.cur.isSome && e.2.qtype == 0)).foldl (fun s e =>
    let x := queueOf s e.1
    let rs := abortedRecs stPower x
    let s1 := setQueue e.1 { x with recs := rs, cur := none } s
    rs.foldl (fun s _ => performRec e.1 s) s1) s

/-- POWER_DOWN: records, the batch, every rail but the islands' off; the package stays off until a power restart. -/
def powerDown (s : State) : State :=
  let s1 := powerRecords (haltJobs stPower false s)
  let s2 := islandsOnly (finishChans stPower (closeAndSign s1))
  { s2 with bu := { s2.bu with state := if s.bu.state = 1 then 0 else s.bu.state, todo := [], down := true } }

/-! ### Supply and pins (R425, R426, R437, R450, R468) -/

/-- A supply fault (R426). -/
def supplyDown (s : State) : State :=
  let s1 := losePower s
  { s1 with bu := { s1.bu with state := if s.bu.state = 1 then 0 else s.bu.state, todo := [], down := false } }

def supplyFaultEffect (mv : Nat) (s : State) : State :=
  if (decide (mv < 38000) || decide (62000 < mv)) && s.power.islands then
    let s1 := supplyDown s
    { s1 with power := { s1.power with fault := true, vin := mv } }
  else s

/-- The input has stayed above 44 V for 10 ms after a supply fault: power-on from the release of the islands, unless a latch is
held. -/
def supplyRecoveryEffect (t : SelfTest) (s : State) : State :=
  if s.power.fault && s.power.islands then
    let (v, s1) := draw s
    let s2 := { s1 with power := { s1.power with fault := false, vin := 44001 + v.toNat % 16000 } }
    if latched s2 then s2 else powerRestart t s2
  else s

/-- The islands lose their supply below 34 V: everything but fuses, flash and the committed record is lost (R425). -/
def islandLossEffect (mv : Nat) (s : State) : State :=
  if decide (mv < 34000) && s.power.islands then
    let s1 := losePower s
    let v := fun (d : Nat) (s : State) => setVault d {} s
    let s2 := v 1 (v 0 s1)
    { s2 with power := { s2.power with islands := false, fault := false, vin := mv }
              active := none, chans := [], mgmt := [], events := [], ctr := [], rcpt := {}
              record := { s2.record with buffered := [] }
              bu := { s2.bu with state := 0, step := 0, todo := [], done := [], down := false }
              pins := { s2.pins with safeOut := false, tamperOutN := true, thermTripN := true } }
  else s

def execSupplyFault (mv : Nat) (s : State) : Host.Outcome State Fault Refusal := onWf (.supplyFault mv) (supplyFaultEffect mv s)
def execSupplyRecovery (t : SelfTest) (s : State) : Host.Outcome State Fault Refusal := onWf (.supplyRecovery t) (supplyRecoveryEffect t s)
def execIslandSupplyLoss (mv : Nat) (s : State) : Host.Outcome State Fault Refusal := onWf (.islandSupplyLoss mv) (islandLossEffect mv s)

/-- SUPPLY_WARN: the input has fallen below 42 V (R425). -/
def supplyWarnEffect (mv : Nat) (s : State) : State :=
  if decide (mv < 42000) && s.power.islands then
    let s1 := { s with power := { s.power with vin := mv } }
    if s.power.armed then
      raiseEvent evSupplyWarn 0 (causeOf evSupplyWarn 0) { s1 with power := { s1.power with armed := false, supplyWarn := true } }
    else s1
  else s

/-- SUPPLY_WARN_REARM: the input has risen above 43 V. -/
def supplyRearmEffect (mv : Nat) (s : State) : State :=
  if decide (43000 < mv) && s.power.islands then { s with power := { s.power with armed := true, vin := mv } } else s

def execSupplyWarn (mv : Nat) (s : State) : Host.Outcome State Fault Refusal := onWf (.supplyWarn mv) (supplyWarnEffect mv s)
def execSupplyWarnRearm (mv : Nat) (s : State) : Host.Outcome State Fault Refusal := onWf (.supplyWarnRearm mv) (supplyRearmEffect mv s)

/-- PWR_GOOD_IN falls: as a supply fault (R451, R468). -/
def pwrFallEffect (s : State) : State :=
  if s.pins.pwrGood then
    let s1 := if s.power.islands then supplyDown s else s
    { s1 with pins := { s1.pins with pwrGood := false } }
  else s

/-- PWR_GOOD_IN rises: a power restart, or a bring-up that waits at step 3 goes on. -/
def pwrRiseEffect (t : SelfTest) (s : State) : State :=
  if s.pins.pwrGood then s
  else
    let s1 := { s with pins := { s.pins with pwrGood := true } }
    if !s.power.islands || s.power.fault || latched s then s1
    else match s.bu.todo with
      | k :: rest => passBringUp 45000000 (runSteps t true false (k :: rest) s1)
      | [] => if s.bu.state = 1 then s1 else powerRestart t s1

def execPwrGoodInFall (s : State) : Host.Outcome State Fault Refusal := onWf .pwrGoodInFall (pwrFallEffect s)
def execPwrGoodInRise (t : SelfTest) (s : State) : Host.Outcome State Fault Refusal := onWf (.pwrGoodInRise t) (pwrRiseEffect t s)

/-- RESET_IN_N falls for longer than its filter: a package reset starts, and its steps wait for the rise; while a latch is held
it is ignored (R451, R468). -/
def resetAssertEffect (s : State) : State :=
  if !s.pins.resetN then s
  else
    let s1 := { s with pins := { s.pins with resetN := false } }
    if latched s || !s.power.islands then s1
    else if s.bu.state = 1 then
      let s2 := packageDown s1
      match s.tenders.find? (fun e => e.2.dead) with
      | some e => enterSafe 0x0E (dieHD e.1) s2
      | none => { s2 with bu := { s2.bu with todo := packageSteps } }
    else s1

/-- RESET_IN_N rises: the steps that waited run; in the safe state it acts as a RESET made there (R447, R468). -/
def resetReleaseEffect (t : SelfTest) (s : State) : State :=
  if s.pins.resetN then s
  else
    let s1 := { s with pins := { s.pins with resetN := true } }
    match s.bu.todo with
    | k :: rest => passBringUp 15000000 (runSteps t ((k :: rest).elem 9) false (k :: rest) s1)
    | [] => if s.bu.state = 2 || s.bu.state = 3 then (resetPackage t s1).getD s1 else s1

def execResetInNAssert (s : State) : Host.Outcome State Fault Refusal := onWf .resetInNAssert (resetAssertEffect s)
def execResetInNRelease (t : SelfTest) (s : State) : Host.Outcome State Fault Refusal := onWf (.resetInNRelease t) (resetReleaseEffect t s)

/-! ### Takeover, timeouts, the record (R375, R445, R449) -/

/-- The standby serves with the registers of its own island: of HD0's channels only the answers to requests in progress appear
there (log 35). -/
def takeChans (before : Tbl Chan) (s : State) : State :=
  let busy := fun (ch : Nat) => (tblGet {} before ch).busy
  { s with chans := (s.chans.filter (fun e => busy e.1)).map (fun e => (e.1, { reply := e.2.reply, lastStatus := e.2.lastStatus })) }

/-- STANDBY_TAKEOVER: HD1's Caboose becomes active and performs a package reset (R375). -/
def takeoverEffect (t : SelfTest) (s : State) : State :=
  if s.active ≠ some 0 then s
  else
    let s1 := { s with active := some 1, standby := true }
    takeChans s.chans (if s.bu.state = 1 then packageReset t s1 else (resetPackage t s1).getD s1)

def execStandbyTakeover (t : SelfTest) (s : State) : Host.Outcome State Fault Refusal := onWf (.standbyTakeover t) (takeoverEffect t s)

/-- The cause of Table 17-2 that stands for a step's overrun (log 36). -/
def overrunCause (k : Nat) : Nat := [0, 0, 0, 0x05, 0x07, 0x04, 0, 0x05, 0x07, 0x08, 0x09, 0x0A, 0, 0x0C, 0x0B].getD k 0x05

/-- BRINGUP_STEP_TIMEOUT: a step in progress overruns its limit (R445, R451). Step 3 waits for PWR_GOOD_IN without limit, step 6
brings the standby in, and a port that is down at step 12 is no failure. -/
def overrunEffect (k : Nat) (s : State) : State :=
  if s.bu.state ≠ 0 || s.bu.todo.head? ≠ some k || k = 3 || k = 12 then s
  else if k = 6 then { s with active := some 1, standby := true }
  else enterSafe (overrunCause k) 0 { s with bu := { s.bu with todo := [] } }

def execBringupStepTimeout (k : Nat) (s : State) : Host.Outcome State Fault Refusal := onWf (.bringupStepTimeout k) (overrunEffect k s)

/-- RECORD_COMMIT: the buffered entries are written to both copies (R449). -/
def recordCommitEffect (s : State) : State :=
  if s.power.islands then { s with record := { committed := s.record.committed ++ s.record.buffered, buffered := [] } } else s

def execRecordCommit (s : State) : Host.Outcome State Fault Refusal := onWf .recordCommit (recordCommitEffect s)

/-! ### Thermal trip (R437) -/

/-- THERMAL_TRIP: every rail but the islands' off, the pin low, the trip latched. -/
def tripEffect (die : Nat) (s : State) : State :=
  if !s.power.islands || s.power.trip.isSome then s
  else
    let s1 := bump 0x030D 0 1 (enterSafe 0x02 die s)
    { s1 with power := { s1.power with trip := some (die, now s) }
              pins := { s1.pins with thermTripN := false } }

def execThermalTrip (die : Nat) (s : State) : Host.Outcome State Fault Refusal := onWf (.thermalTrip die) (tripEffect die s)

end Sys2Proof.Machine
end

