-- ==== Sys2Proof/Machine/LifeCycle.lean ====
section
/-! DEFINITION. LIFECYCLE_ADVANCE: transitions, and the staging and commit of firmware (R402 to R406, R412 to R415). -/

namespace Sys2Proof.Machine

/-! ### Transitions (Table 15-2) -/

/-- A transition of Table 15-2. -/
def transition (a b : Nat) : Bool :=
  (a == 1 && b == 2) || (a == 2 && b == 3) || (a == 3 && b == 4) || (a == 4 && b == 3) ||
  (decide (1 ≤ a) && decide (a < 5) && b == 5)

/-- The transition needs an authorisation of Garoux. -/
def needsAuth (a b : Nat) : Bool := (a == 1 && b == 2) || (a == 3 && b == 4) || (a == 4 && b == 3)

/-- The message that an authorisation signs (R404). -/
def authMessage (lc : LifeCycle) (target : Nat) : List Byte :=
  leBytes 8 lc.deviceId ++ leBytes 4 lc.transCount ++ leBytes 1 lc.state ++ leBytes 1 target ++ leBytes 2 0

/-- The authorisation of the payload holds (R404). -/
def authorised (lc : LifeCycle) (target : Nat) (w : List Word) : Bool :=
  let sig := bytesOf ((w.drop 2).take 12)
  let key := bytesOf ((w.drop 14).take 12)
  (wd w 1).toNat == lc.deviceId && sha384 key == Config.fusedHash 0 && Config.ecdsaVerify key sig (authMessage lc target)

/-- The conditions under which a transition completes REJECTED_STATE (R402, R404, R405, R406, R408). -/
def transitionRefused (s : State) (target : Nat) (w : List Word) : Bool :=
  let lc := s.lc
  !transition lc.state target || (lc.tamper && target != 5) || (target != 5 && !s.parts.isEmpty) ||
  (needsAuth lc.state target && !authorised lc target w) || (lc.state == 3 && target == 4 && decide (8 ≤ lc.rmaEntries))

/-- The wipe of a transition runs to its end (R145). -/
def wipeThrough (s : State) : State :=
  let s1 := advance (now s + 2000) (wipeVaults s)
  setVault 1 { vaultOf s1 1 with wiping := none } (setVault 0 { vaultOf s1 0 with wiping := none } s1)

/-- The fuses of both hub dies take the new state (R404, R405). -/
def fuseState (target : Nat) (s : State) : State :=
  let lc := s.lc
  { s with lc := { lc with state := target, transCount := lc.transCount + 1,
                           rmaEntries := if target = 4 then lc.rmaEntries + 1 else lc.rmaEntries,
                           enrolled := lc.enrolled || lc.state == 1 && target == 2 } }

/-- A transition that is accepted (R405, R406). In the safe state its reset is a RESET made there (R447). -/
def advanceLife (t : SelfTest) (target : Nat) (s : State) : State :=
  let s1 := fuseState target (wipeThrough (closeAndSign s))
  if s.bu.state = 1 then packageReset t s1
  else if target = 5 then enterSafe 0x0F 0 s1
  else (resetPackage t s1).getD s1

/-- op 0x01. The enrolment of R410 is tried where BLANK is left for PROVISIONED. -/
def cmdAdvance (t : SelfTest) (w : List Word) (s : State) : Reply × State :=
  let target := wf (wd w 0) 55 52
  if transitionRefused s target w then (rejected stState, s)
  else if s.lc.state = 1 && target = 2 && !Config.pufEnrols s.lc.tries then
    (rejected stState, { s with lc := { s.lc with tries := s.lc.tries + 1 } })
  else ({ status := stDone, fresh := true }, advanceLife t target s)

/-! ### Firmware images (Table 15-7, R412 to R415) -/

def zeros (bs : List Byte) : Bool := bs.all (· == 0#8)
def cut (bs : List Byte) (o n : Nat) : List Byte := (bs.drop o).take n

/-- An image is valid for its type (R412, R413, R5): `img` is all of it. -/
def imageValid (lc : LifeCycle) (ty : Nat) (img : List Byte) : Bool :=
  let n := leNat (cut img 8 8)
  let ec := cut img 160 96
  let ml := cut img 256 1952
  let msg := img.take 2208
  img.getD 0 0 == 1#8 && (img.getD 1 0).toNat == ty && zeros (cut img 2 2) && zeros (cut img 24 40) && zeros (cut img 112 48) &&
  zeros (cut img 5613 2579) && decide (8192 + n ≤ img.length) && decide (n ≤ if ty = 1 then 0x70000 else 0x10000000) &&
  sha384 ec == Config.fusedHash (2 * ty - 1) && sha384 ml == Config.fusedHash (2 * ty) &&
  Config.ecdsaVerify ec (cut img 2208 96) msg && Config.mldsaVerify ml (cut img 2304 3309) msg &&
  sha384 (cut img 8192 n) == cut img 64 48 &&
  decide ((if ty = 1 then lc.svnCab else lc.svnProc) ≤ leNat (cut img 4 4))

/-- The slot of a type that runs. -/
def runningSlot (lc : LifeCycle) (ty : Nat) : Nat := if ty = 1 then lc.runCab else lc.runProc

/-- op 0x02: the image goes to the slot that is not running, with the next serial (R415). -/
def cmdStage (w : List Word) (s : State) : Reply × State :=
  let ty := wf (wd w 0) 55 48
  let addr := wf (wd w 1) 55 0
  let len := wf (wd w 2) 31 0
  let (img, s1) := cohRead (.caboose (s.active.getD 0)) addr len none s
  let good := fun (_ : Unit) => !rangePoisoned s addr len && imageValid s.lc ty img
  if ty ≠ 1 && ty ≠ 2 then (rejected stFormat 6, s)
  else if len < 8192 then (rejected stFormat, s)
  else if umrEnd < addr + len then (rejected stRegion 8, s)
  else if !good () then (rejected stFormat, s)
  else
    let run := runningSlot s1.lc ty
    let key := 2 * (ty - 1) + (1 - run)
    let x : BootSlot := { serial := (tblGet {} s1.lc.slots (2 * (ty - 1) + run)).serial + 1, svn := leNat (cut img 4 4), valid := true, digest := cut img 64 48 }
    (ok, { s1 with lc := { s1.lc with slots := tblSet key x s1.lc.slots } })

/-- op 0x03: the fused minimum svn rises to that of the running image, at most eight times (R415). -/
def cmdCommit (w : List Word) (s : State) : Reply × State :=
  let ty := wf (wd w 0) 55 48
  let svn := (tblGet {} s.lc.slots (2 * (ty - 1) + runningSlot s.lc ty)).svn
  if ty = 1 then
    if s.lc.svnCab = svn || 8 ≤ s.lc.commitsCab then (rejected stState, s)
    else (ok, { s with lc := { s.lc with svnCab := svn, commitsCab := s.lc.commitsCab + 1 } })
  else if ty = 2 then
    if s.lc.svnProc = svn || 8 ≤ s.lc.commitsProc then (rejected stState, s)
    else (ok, { s with lc := { s.lc with svnProc := svn, commitsProc := s.lc.commitsProc + 1 } })
  else (rejected stFormat 6, s)

/-- LIFECYCLE_ADVANCE (R402 to R406, R408, R415). In SCRAP, and but for a transition while tampering is latched, it completes
REJECTED_STATE, unless the op's own checks fail with a lower status (R8). -/
def cmdLifecycle (t : SelfTest) : Cmd := fun _ _ w s =>
  let op := wf (wd w 0) 63 56
  let own := if op = 1 then cmdAdvance t w s else if op = 2 then cmdStage w s else if op = 3 then cmdCommit w s else (rejected stFormat, s)
  if s.lc.state = 5 || (op ≠ 1 && s.lc.tamper) then (turnedAway own.1 noField, s) else own

/-! ### RESET and POWER_DOWN (R390, R447, R451) -/

/-- RESET of a partition (R390) or of the package, whose reply is written once it has completed (R400). -/
def cmdReset (t : SelfTest) : Cmd := fun ch _ w s =>
  let p := wf (wd w 0) 63 60
  if bit (wd w 0).toNat 59 then
    if ch ≠ 0 then (rejected stState, s)
    else match resetPackage t s with
    | some s1 => ({ status := stDone, fresh := true }, s1)
    | none => (rejected stState, s)
  else if !partExists s p then (rejected stState 7, s)
  else (ok, partReset p s)

def cmdPowerDown : Cmd := fun _ _ _ s => (ok, powerDown s)

end Sys2Proof.Machine
end

