-- ==== Sys2Proof/Machine/Partition.lean ====
section
/-! DEFINITION. PART_CREATE and PART_DISSOLVE: checks, clamps and effects (R27, R136, R200, R202, R203, R235 to R237, R268,
R385, R392, R456). -/

namespace Sys2Proof.Machine

/-- The unit number under which the record marks a Dray or a reduction engine failed (R449, R456). -/
def drayUnit (d : Nat) : Nat := d
def redUnit (e : Nat) : Nat := 64 + e

def recordFailed (s : State) (u : Nat) : Bool :=
  (s.record.committed ++ s.record.buffered).any (fun e => e.kind == recUnit && e.a == u)

/-- Two index ranges, by first and count, meet. -/
def meets (a b : Nat × Nat) : Bool := overlap a.1 a.2 b.1 b.2

/-! ### Clamps (Tables 07-6, 08-9) -/

/-- A field of a configuration block after its check: the value applied, whether nothing was left to grant, and its place. -/
structure Clamped where
  used : Nat
  none_ : Bool := false
  entry : List (Word × Word) := []
  off : Nat := 0

/-- A field [lsb + w − 1 : lsb] of word `i` (of block `blk`, at payload word `base + i`) that becomes `used`. -/
def clampField (blk base i lsb w seq given used : Nat) (left : Bool) : Clamped :=
  { used := used, none_ := !left, off := 8 * (base + i) + lsb / 8,
    entry := if left && used ≠ given then [clampEntry blk i lsb w seq given used] else [] }

/-- The lowest-numbered clear bits are set until two are set. -/
def twoWays (m : Nat) : Nat :=
  if 2 ≤ popcount 16 m then m
  else
    let clear := (List.range 16).filter (fun b => !bit m b)
    (clear.take (2 - popcount 16 m)).foldl (fun m b => m + 2 ^ b) m

def wayMasks (seq : Nat) (w : List Word) : List Clamped :=
  (List.range 4).map (fun d =>
    let lsb := 48 - 16 * d
    let v := wf (wd w 4) (lsb + 15) lsb
    clampField 1 4 0 lsb 16 seq v (twoWays v) true)

def pfDepth (seq : Nat) (w : List Word) : Clamped :=
  let v := wf (wd w 5) 63 59
  clampField 1 4 1 59 5 seq v (min v 16) true

/-- A rate: 0 becomes 1; above the top, or above what is left, the smaller of the two. -/
def clampRate (v top left : Nat) : Nat := if v = 0 then 1 else min v (min top left)

def parts (s : State) : List Part := s.parts.map (·.2)

/-- What the partitions that exist leave of a total. -/
def leftOf (s : State) (top : Nat) (f : Part → Nat) : Nat := top - ((parts s).map f).sum

def hbmRates (s : State) (seq : Nat) (w : List Word) : List Clamped :=
  (List.range 4).map (fun d =>
    let lsb := 53 - 11 * d
    let v := wf (wd w 6) (lsb + 10) lsb
    let left := leftOf s 768 (fun p => p.rates.getD d 0)
    clampField 1 4 2 lsb 11 seq v (clampRate v 768 left) (decide (0 < left)))

def hbmBursts (seq : Nat) (w : List Word) : List Clamped :=
  (List.range 4).map (fun d =>
    let lsb := 48 - 16 * d
    let v := wf (wd w 7) (lsb + 15) lsb
    clampField 1 4 3 lsb 16 seq v (max v 64) true)

/-- Quotas; a quota of zero asks for nothing. -/
def quotas (s : State) (seq : Nat) (w : List Word) : List Clamped :=
  [(0, 47), (0, 30), (0, 13), (1, 47)].mapIdx (fun d (e : Nat × Nat) =>
    let v := wf (wd w (12 + e.1)) (e.2 + 16) e.2
    let left := leftOf s 96256 (fun p => p.quotas.getD d 0)
    clampField 2 12 e.1 e.2 17 seq v (min v left) (decide (0 < left) || decide (v = 0)))

def flashRates (s : State) (seq : Nat) (w : List Word) (rd : Bool) : List Clamped :=
  (List.range 4).map (fun k =>
    let lsb := (if rd then 56 else 24) - 8 * k
    let top := if rd then 224 else 32
    let v := wf (wd w 14) (lsb + 7) lsb
    let left := leftOf s top (fun p => if rd then p.rdRates.getD k 0 else p.pgRates.getD k 0)
    clampField 2 12 2 lsb 8 seq v (clampRate v top left) (decide (0 < left)))

/-- Extent ranges: a range past the last extent ends there. -/
def rangeOf (seq : Nat) (w : List Word) (j : Nat) : Nat × Clamped :=
  let first := wf (wd w (15 + j)) 63 42
  let n := wf (wd w (15 + j)) 41 20
  (first, clampField 2 12 (3 + j) 20 22 seq n (min n (4059136 - first)) true)

/-! ### PART_CREATE -/

/-- The resources of word 0 to 3. -/
structure Wanted where
  part : Nat
  chan : Nat
  ring : Bool
  red : Nat
  tiles : Nat × Nat
  queues : Nat × Nat
  regions : Nat × Nat
  drays : Nat
  ports : Nat

def wantedOf (w : List Word) : Wanted :=
  { part := wf (wd w 0) 63 60, chan := wf (wd w 0) 59 56, ring := bit (wd w 0).toNat 55, red := wf (wd w 0) 54 39,
    tiles := (wf (wd w 1) 63 54, wf (wd w 1) 53 44), queues := (wf (wd w 1) 43 30, wf (wd w 1) 29 15),
    regions := (wf (wd w 2) 63 52, wf (wd w 2) 51 39), drays := wf (wd w 3) 63 24, ports := wf (wd w 3) 23 4 }

def createChecks (s : State) (x : Wanted) (ranges : List (Nat × Nat)) (cs : List Clamped) : List Check :=
  let others := s.parts.map (·.2)
  let tiles := (List.range x.tiles.2).map (· + x.tiles.1)
  [(decide (544 < x.tiles.1 + x.tiles.2), stFormat, 14), (decide (16384 < x.queues.1 + x.queues.2), stFormat, 11),
   (decide (4096 < x.regions.1 + x.regions.2), stFormat, 22),
   (partExists s x.part, stState, 7), (x.chan ≠ 0 && others.any (fun q => q.chan == x.chan), stState, 7),
   (others.any (fun q => q.redMask &&& x.red ≠ 0), stState, 4),
   (others.any (fun q => meets q.tiles x.tiles), stState, 14), (others.any (fun q => meets q.queues x.queues), stState, 11),
   (others.any (fun q => meets q.regions x.regions), stState, 22), (others.any (fun q => q.drayMask &&& x.drays ≠ 0), stState, 27),
   (others.any (fun q => q.portMask &&& x.ports ≠ 0), stState, 24),
   (tiles.any (fun l => decide (l < 544) && (physOf s l).isNone), stState, 14),
   ((bitsOf 40 x.drays).any (fun d => recordFailed s (drayUnit d)), stState, 27),
   ((bitsOf 16 x.red).any (fun e => recordFailed s (redUnit e)), stState, 4)] ++
  ranges.mapIdx (fun j r => (others.any (fun q => q.ranges.any (fun t => meets t r)), stState, 125 + 8 * j)) ++
  cs.map (fun c => (c.none_, stQuota, c.off))

/-- The tier manager takes quota frames from a die's pool, evicting the lowest-stamped pool extents as needed, as far as it can
(R237, R239). -/
def withdraw (p die : Nat) : Nat → State → State
  | 0, s => s
  | n + 1, s =>
    match takePoolFrame die s with
    | some (f, s1) => withdraw p die n (giveHeldFrame p die f s1)
    | none => match poolVictim s die with
      | some v =>
        match takePoolFrame die (demoteSwitch v (startPasses v .evict none s)) with
        | some (f, s1) => withdraw p die n (giveHeldFrame p die f s1)
        | none => s
      | none => s

/-- The frames that a partition's quota on a die still lacks: neither free held frames nor those of its pinned extents. -/
def owedFrames (s : State) (p die : Nat) : Nat :=
  let q := partOf s p
  q.quotas.getD die 0 - (q.held.getD die []).length - (s.exts.filter (fun e => e.2.pin == some p && e.2.die == die)).length

def withdrawAll (p : Nat) (s : State) : State := (List.range 4).foldl (fun s d => withdraw p d (owedFrames s p d) s) s

/-- Whether a partition holds all frames of its quotas. -/
def framesHeld (s : State) (p : Nat) : Bool := (List.range 4).all (fun d => owedFrames s p d == 0)

/-- The partition's buckets, full (R200, R219). -/
def makeBuckets (p : Nat) (rates bursts rd : List Nat) (s : State) : State :=
  let hb := (List.range 16).foldl (fun t m =>
    let r := rates.getD (m / 4) 0
    let b := bursts.getD (m / 4) 0
    tblSet (m * 16 + p) { rate := r, burst := b, tokens := b } t) s.hbmBuckets
  let fb := (List.range 4).foldl (fun t f => tblSet (f * 16 + p) { rate := rd.getD f 0, burst := 64, tokens := 64 } t) s.flBuckets
  { s with hbmBuckets := hb, flBuckets := fb }

/-- Tiles assigned to a partition are zeroed (R136). -/
def zeroTiles (ls : List Nat) (s : State) : State :=
  ls.foldl (fun s l => match physOf s l with | some t => zeroTile t s | none => s) s

/-- Every clamped field of the two configuration blocks, in field order (R392). -/
def createFields (s : State) (seq : Nat) (w : List Word) : List Clamped :=
  wayMasks seq w ++ [pfDepth seq w] ++ hbmRates s seq w ++ hbmBursts seq w ++ quotas s seq w ++ flashRates s seq w true ++
  flashRates s seq w false ++ (List.range 4).map (fun j => (rangeOf seq w j).2)

/-- The partition that PART_CREATE describes, each field as it is applied. -/
def newPart (s : State) (seq : Nat) (w : List Word) : Part :=
  let x := wantedOf w
  let u := fun (l : List Clamped) => l.map (·.used)
  { chan := x.chan, ring := x.ring, redMask := x.red, tiles := x.tiles, queues := x.queues, regions := x.regions, drayMask := x.drays,
    portMask := x.ports, wayMask := u (wayMasks seq w), pfDepth := (pfDepth seq w).used, rates := u (hbmRates s seq w),
    bursts := u (hbmBursts seq w), quotas := u (quotas s seq w), rdRates := u (flashRates s seq w true),
    pgRates := u (flashRates s seq w false),
    ranges := ((List.range 4).map (fun j => ((rangeOf seq w j).1, (rangeOf seq w j).2.used))).filter (fun r => decide (r.2 ≠ 0)) }

/-- The checks of PART_CREATE. -/
def createAll (s : State) (seq : Nat) (w : List Word) : List Check :=
  createChecks s (wantedOf w) ((List.range 4).map (fun j => ((rangeOf seq w j).1, (rangeOf seq w j).2.used))) (createFields s seq w)

/-- The effects of R136, R200 and R237 in this order, then that of ring mode (R268). -/
def assign (p : Nat) (q : Part) (s : State) : State :=
  let s1 := zeroTiles ((List.range q.tiles.2).map (· + q.tiles.1)) (setPart p q s)
  let s2 := withdrawAll p (makeBuckets p q.rates q.bursts q.rdRates s1)
  if q.ring then q.ranges.foldl (fun s r => dropRange (r.1 * extSize) (r.2 * extSize) s) s2 else s2

/-- The reply of a PART_CREATE that made `n` clamps. -/
def created (n : Nat) : Reply := { status := stDone, flags := if n = 0 then 0 else 2, clamps := n }

/-- PART_CREATE. It completes once every quota frame is held (R237; log 37). -/
def cmdPartCreate : Cmd := fun ch seq w s =>
  let entries := (createFields s seq w).flatMap (·.entry)
  checked (createAll s seq w) (fun s =>
    let p := (wantedOf w).part
    let s1 := setClamps ch seq entries (assign p (newPart s seq w) s)
    if framesHeld s1 p then (created entries.length, s1)
    else ({ created entries.length with later := true }, setPart p { partOf s1 p with creating := some (ch, seq, entries.length) } s1)) s

/-- Partitions whose creation waits for frames take what has become free; a creation that holds all it needs is answered. -/
def settleCreate (s : State) : State :=
  (s.parts.filter (fun e => e.2.creating.isSome)).foldl (fun s e =>
    let s1 := withdrawAll e.1 s
    match e.2.creating, framesHeld s1 e.1 with
    | some (ch, seq, n), true => finishDeferred ch 0x0010 seq (created n) (setPart e.1 { partOf s1 e.1 with creating := none } s1)
    | _, _ => s1) s

/-- PROMOTION_SWITCH and DEMOTION_PASS (R229, R230); frames that come free may end a creation (R237). -/
def execPromotionSwitch (x : Nat) (s : State) : Host.Outcome State Fault Refusal := onWf (.promotionSwitch x) (settleCreate (promotionSwitchEffect x s))
def execDemotionPass (x : Nat) (s : State) : Host.Outcome State Fault Refusal := onWf (.demotionPass x) (settleCreate (demotionPassEffect x s))

/-! ### PART_DISSOLVE -/

/-- The partition's records have all been performed. -/
def queuesQuiet (s : State) (p : Nat) : Bool :=
  (partQueues s p).all (fun q => (queueOf s q).recs.isEmpty && (queueOf s q).cur.isNone && (queueOf s q).accepted.isEmpty)

/-- The rest of a dissolution: regions, image, seals, cache lines, pins, frames, buckets and the partition itself (R209, R237,
R385). -/
def dissolve (p : Nat) (s : State) : State :=
  let q := partOf s p
  let s1 := { s with queues := s.queues.filter (fun e => !inRange q.queues e.1), regions := s.regions.filter (fun e => !inRange q.regions e.1),
                     seqs := s.seqs.filter (fun e => !(streamPart s e.1 == some p)) }
  let s2 := q.ranges.foldl (fun s r => (List.range 4).foldl (fun s d => wrcInvalidate d (r.1 * extSize) (r.2 * extSize) s) s) s1
  let unpin := fun (e : Nat × Ext) => if e.2.pin == some p then (e.1, { e.2 with pin := none }) else e
  let frames := s2.freeFrames.mapIdx (fun d l => (q.held.getD d []).foldl (fun l f => setIns f l) l)
  { s2 with exts := s2.exts.map unpin, freeFrames := frames, parts := tblDel p s2.parts
            hbmBuckets := s2.hbmBuckets.filter (fun e => decide (e.1 % 16 ≠ p))
            flBuckets := s2.flBuckets.filter (fun e => decide (e.1 % 16 ≠ p)) }

/-- The records of a queue that can be performed are. -/
def performAll (q : Nat) (s : State) : State := ((queueOf s q).recs).foldl (fun s _ => performRec q s) s

/-- PART_DISSOLVE: it replies once the queues' records have been performed. -/
def cmdPartDissolve : Cmd := fun ch seq w s =>
  let p := wf (wd w 0) 63 60
  if !partExists s p then (rejected stState 7, s)
  else if (jobOf s p).isSome then (rejected stState, s)
  else
    let s1 := (partQueues s p).foldl (fun s q => performAll q (if (queueOf s q).enable then disableQueue q s else s)) s
    if queuesQuiet s1 p then (ok, tierRetry (dissolve p s1))
    else ({ status := stDone, later := true }, setPart p { partOf s1 p with dissolving := some (ch, seq) } s1)

/-- A dissolution whose last record has been performed ends, and its reply is written. -/
def settleDissolve (s : State) : State :=
  match s.parts.find? (fun e => e.2.dissolving.isSome && queuesQuiet s e.1) with
  | some (p, q) => match q.dissolving with
    | some (ch, seq) => finishDeferred ch 0x0011 seq { status := stDone } (tierRetry (dissolve p s))
    | none => s
  | none => s

/-- A creation in progress that a TILE_RETIRE leaves with an unbacked tile is rejected, and what it has assigned is undone (R383). -/
def undoCreates (s : State) : State :=
  (s.parts.filter (fun e => e.2.creating.isSome && (List.range e.2.tiles.2).any (fun i => (physOf s (e.2.tiles.1 + i)).isNone))).foldl
    (fun s e => match e.2.creating with
      | some (ch, seq, _) => finishDeferred ch 0x0010 seq (rejected stState) (tierRetry (dissolve e.1 s))
      | none => s) s

/-! ### TILE_RETIRE (R391) -/

/-- A retirement takes effect on arrival; one already retired changes nothing. -/
def retireNow (x : Nat) (s : State) : State := if retired s x then s else undoCreates (retireTile x 7 s)

def cmdTileRetire : Cmd := fun ch _ w s =>
  let w0 := wd w 0
  let p := wf w0 63 60
  let phys := bit w0.toNat 59
  let t := wf w0 58 49
  if phys then
    checked [(decide (575 < t), stFormat, 6), (decide (ch ≠ 0), stState, noField)] (fun s => (ok, retireNow t s)) s
  else
    checked [(decide (543 < t), stFormat, 6), (decide (tilePart s t ≠ some p), stQuota, 6)]
      (fun s => match physOf s t with
        | some x => (ok, retireNow x s)
        | none => (ok, s)) s

/-- COMPLETION_RECORD (R353, R354). -/
def execCompletionRecord (q : Nat) (s : State) : Host.Outcome State Fault Refusal :=
  onWf (.completionRecord q) (settleDissolve (performRec q s))

end Sys2Proof.Machine
end

