-- ==== Sys2Proof/Machine/RouteInstall.lean ====
section
/-! DEFINITION. ROUTE_INSTALL: the route table of Table 12-6, its checks, and the announcements that follow (R326, R327, R390). -/

namespace Sys2Proof.Machine

/-- Bytes of a route table (R390). -/
def routeLen : Nat := 4368

/-- A number of `n` bytes of the table. -/
def rtAt (bs : List Byte) (o n : Nat) : Nat := leNat ((bs.drop o).take n)

def rtWord0 (bs : List Byte) : Nat := rtAt bs 0 8
def rtPortAt (bs : List Byte) (p : Nat) : Nat := rtAt bs (64 + 4 * p) 4
def rtRingAt (bs : List Byte) (r : Nat) : Nat := rtAt bs (144 + 8 * r) 8
def rtDestAt (bs : List Byte) (d : Nat) : Nat := rtAt bs (272 + 4 * d) 4

/-- A port entry names a neighbour. -/
def rtUsed (bs : List Byte) (p : Nat) : Bool := decide (p < 20) && bit (rtPortAt bs p) 31

/-- A reserved field of the table is not zero (R5, Table 12-6). The timing ports are reserved at the time root, the extents in
arbitrary mode. -/
def rtReserved (bs : List Byte) : Bool :=
  let w := rtWord0 bs
  decide (fld w 5 0 ≠ 0) || (!bit w 33 && decide (fld w 32 23 ≠ 0)) ||
  (decide (fld w 63 54 = fld w 43 34) && decide (fld w 22 8 ≠ 0)) ||
  decide (fld (rtAt bs 8 8) 43 0 ≠ 0) || !((bs.drop 16).take 48).all (· == 0#8) ||
  (List.range 20).any (fun p => decide (fld (rtPortAt bs p) 15 0 ≠ 0)) ||
  (List.range 16).any (fun r => decide (fld (rtRingAt bs r) 3 1 ≠ 0)) ||
  (List.range 1024).any (fun d => decide (fld (rtDestAt bs d) 19 0 ≠ 0))

/-- An illegal field: a consist number that is no member's, a port number of no port, a position outside its ring (log 43). -/
def rtIllegal (bs : List Byte) : Bool :=
  let w := rtWord0 bs
  let m := fld w 53 44
  let root := decide (fld w 63 54 = fld w 43 34)
  decide (m < fld w 63 54) || decide (m < fld w 43 34) ||
  (!root && (decide (19 < fld w 22 18) || (bit w 7 && decide (19 < fld w 17 13)) || (bit w 6 && decide (19 < fld w 12 8)))) ||
  (bit w 33 && decide (m + 1 < (fld w 32 29 + 1) * (fld w 28 26 + 1) * (fld w 25 23 + 1))) ||
  (List.range 20).any (fun p => rtUsed bs p && (decide (m < fld (rtPortAt bs p) 30 21) || decide (19 < fld (rtPortAt bs p) 20 16))) ||
  (List.range 16).any (fun r =>
    let x := rtRingAt bs r
    bit x 0 && (decide (m < fld x 63 54) || decide (m < fld x 53 44) || decide (fld x 33 24 < fld x 43 34) || decide (m < fld x 33 24)))

/-- A ring's port_mask names an unused port, or one whose neighbour is not the ring's successor. -/
def rtRingPorts (bs : List Byte) : Bool :=
  (List.range 16).any (fun r =>
    let x := rtRingAt bs r
    bit x 0 && (bitsOf 20 (fld x 23 4)).any (fun p => !rtUsed bs p || decide (fld (rtPortAt bs p) 30 21 ≠ fld x 63 54)))

/-- A destination entry names an unused port, or beyond a torus a port that is no gateway (R326, R328). -/
def rtDestPorts (bs : List Byte) : Bool :=
  let w := rtWord0 bs
  let grid := (fld w 32 29 + 1) * (fld w 28 26 + 1) * (fld w 25 23 + 1)
  (List.range 1024).any (fun d =>
    let x := rtDestAt bs d
    bit x 31 && (!rtUsed bs (fld x 30 26) || (bit x 25 && !rtUsed bs (fld x 24 20)) ||
      (bit w 33 && decide (grid ≤ d) && fld x 30 26 ≠ 14 && fld x 30 26 ≠ 19)))

/-- The table's checks. -/
def rtBad (bs : List Byte) : Bool := rtReserved bs || rtIllegal bs || rtRingPorts bs || rtDestPorts bs

/-- The route table that the bytes lay out; entries that are not used or not valid are not kept. -/
def rtParse (bs : List Byte) : Route :=
  let w := rtWord0 bs
  let ports := ((List.range 20).filter (rtUsed bs)).map (fun p =>
    let x := rtPortAt bs p
    (p, ({ used := true, nbr := fld x 30 21, nbrPort := fld x 20 16 } : RtPort)))
  let rings := ((List.range 16).filter (fun r => bit (rtRingAt bs r) 0)).map (fun r =>
    let x := rtRingAt bs r
    (r, ({ used := true, succ := fld x 63 54, pred := fld x 53 44, pos := fld x 43 34, size := fld x 33 24 + 1, mask := fld x 23 4 } : RtRing)))
  let dests := ((List.range 1024).filter (fun d => bit (rtDestAt bs d) 31)).map (fun d =>
    let x := rtDestAt bs d
    (d, ({ valid := true, port := fld x 30 26, altValid := bit x 25, altPort := fld x 24 20 } : RtDest)))
  { self := fld w 63 54, members := fld w 53 44 + 1, timeRoot := fld w 43 34, torus := bit w 33,
    dims := (fld w 32 29 + 1, fld w 28 26 + 1, fld w 25 23 + 1), upstream := fld w 22 18,
    alt1 := if bit w 7 then some (fld w 17 13) else none, alt2 := if bit w 6 then some (fld w 12 8) else none,
    maxHop := fld (rtAt bs 8 8) 63 44, ports := ports, rings := rings, dests := dests }

/-- A used port that is up announces this package, and counts as lost if its delay exceeds max_hop_ns (R327). A port that an
earlier table had excluded is judged afresh (log 43). -/
def announcePort (p : Nat) (s : State) : State :=
  let x := portOf s p
  if x.up then
    let s1 := send (.announce p p (selfNo s)) (setPort p { x with lost := false } s)
    if delayTooLong s1 p x.delay then excludePort p s1 else s1
  else s

/-- The table is in force. -/
def installRoute (r : Route) (s : State) : State :=
  r.ports.foldl (fun s e => announcePort e.1 s) (rerouteTime { s with route := some r })

/-- ROUTE_INSTALL (R326, R327, R390). -/
def cmdRouteInstall : Cmd := fun _ _ w s =>
  let a := wf (wd w 0) 55 0
  if a % 8 ≠ 0 then (rejected stFormat 0, s)
  else if umrEnd < a + routeLen then (rejected stRegion 0, s)
  else
    let poison := rangePoisoned s a routeLen
    let (bs, s1) := cohRead (.caboose (s.active.getD 0)) a routeLen none s
    if poison || rtBad bs then (rejected stFormat, s1)
    else if s.parts.any (fun e => e.2.image.isSome) then (rejected stState, s1)
    else (ok, installRoute (rtParse bs) s1)

end Sys2Proof.Machine
end

