-- ==== Sys2Proof/Machine/SlateImage.lean ====
section
/-! DEFINITION. A Slate image in memory: its header, tables and entries, and the checks on their form (R154 to R161). -/

namespace Sys2Proof.Machine

/-! ### Reading the image -/

/-- Word `k` of the structure at byte offset `o` of the image at `a`. -/
def iw (s : State) (a o k : Nat) : Word := word (memLe s.mem (a + o + 8 * k) 8)
def iws (s : State) (a o n : Nat) : List Word := (List.range n).map (iw s a o)

/-- A failed check of form at a byte offset of the image. -/
def formIf (b : Bool) (off : Nat) : Check := (b, stFormat, off)

/-- Reserved fields of a structure at offset `o` (R5): word, high bit, low bit. -/
def zeroIn (o : Nat) (w : List Word) (fs : List (Nat × Nat × Nat)) : List Check :=
  fs.map (fun f => formIf (decide (wf (wd w f.1) f.2.1 f.2.2 ≠ 0)) (o + 8 * f.1 + f.2.2 / 8))

/-! ### The header (Table 06-2) -/

structure Header where
  part : Nat
  mode : Nat
  members : Nat
  len : Nat
  seed : Nat
  nEpochs : Nat
  quantum : Nat
  limit : Nat
  lead : Nat
  recovery : Nat
  slotNum : Nat
  slotDen : Nat
  svcQueue : Nat
  bindLead : Nat
  dirOff : Nat
  epochOff : Nat
  nUtab : Nat
  utabOff : Nat

def headerOf (h : List Word) : Header :=
  { part := wf (wd h 0) 55 52, mode := wf (wd h 0) 51 50, members := wf (wd h 0) 49 40 + 1, len := wf (wd h 0) 39 0,
    seed := (wd h 1).toNat, nEpochs := wf (wd h 2) 63 32, quantum := wf (wd h 2) 31 10, limit := wf (wd h 3) 63 48,
    lead := wf (wd h 3) 47 35, recovery := wf (wd h 3) 34 7, slotNum := wf (wd h 4) 63 16, slotDen := wf (wd h 4) 15 0,
    svcQueue := wf (wd h 5) 63 50, bindLead := wf (wd h 5) 49 28, dirOff := wf (wd h 6) 39 0, epochOff := wf (wd h 7) 39 0,
    nUtab := wf (wd h 8) 52 40, utabOff := wf (wd h 8) 39 0 }

/-- The checks of the header, for partition `p` and a command that names `len` bytes (R155, R157, R184, R386). -/
def headerChecks (p len : Nat) (w : List Word) : List Check :=
  let h := headerOf w
  zeroIn 0 w [(2, 9, 0), (3, 6, 0), (6, 63, 40), (7, 63, 40), (8, 63, 53), (9, 63, 0), (10, 63, 0), (11, 63, 0), (12, 63, 0),
    (13, 63, 0), (14, 63, 0), (15, 63, 0)] ++
  (if h.mode = 0 then zeroIn 0 w [(4, 63, 0), (5, 63, 0)] else if 1 < h.mode then [] else
    zeroIn 0 w [(5, 27, 0)] ++
    [formIf (decide (h.slotDen = 0)) 32, formIf (decide (h.slotNum < 64000 * h.slotDen)) 34,
     formIf (decide (h.bindLead < 500) || decide (250000 < h.bindLead)) 43]) ++
  [formIf (decide (wf (wd w 0) 63 56 ≠ 1)) 7, formIf (decide (h.part ≠ p)) 6, formIf (decide (1 < h.mode)) 6,
   formIf (decide (h.len % 128 ≠ 0) || decide (h.len < 128)) 0, formIf (decide (h.nEpochs = 0)) 20,
   formIf (decide (h.quantum < 250) || decide (1000000 < h.quantum)) 17, formIf (decide (h.limit = 0)) 30,
   formIf (decide (h.lead < 500) || decide (5000 < h.lead)) 28, formIf (decide (4096 < h.nUtab)) 69,
   formIf (decide (h.dirOff % 16 ≠ 0) || decide (len < h.dirOff + 9600)) 48,
   formIf (decide (h.epochOff % 16 ≠ 0) || decide (len < h.epochOff + 16 * h.nEpochs)) 56,
   formIf (decide (h.utabOff % 8 ≠ 0) || (decide (h.nUtab ≤ 4096) && decide (len < h.utabOff + 384 * h.nUtab))) 64]

/-! ### Epochs and segments (R157) -/

def segOf (w : List Word) : Seg :=
  { startNom := wf (wd w 0) 63 36, startDeg := wf (wd w 0) 35 8, slackNom := wf (wd w 1) 63 44, slackDeg := wf (wd w 1) 43 24 }

/-- The place and number of an epoch's segments. -/
def segOff (w : List Word) : Nat := wf (wd w 1) 39 0
def segCount (w : List Word) : Nat := wf (wd w 0) 7 0 + 1

def epochOf (s : State) (a o : Nat) : EpochRow :=
  let w := iws s a o 2
  { lenNom := wf (wd w 0) 63 36, lenDeg := wf (wd w 0) 35 8,
    segs := (List.range (segCount w)).map (fun k => segOf (iws s a (segOff w + 16 * k) 2)) }

def badLen (n : Nat) : Bool := decide (n < 16000) || decide (250000000 < n)

/-- The checks of the epoch entry at offset `o`. -/
def epochChecks (s : State) (a len o : Nat) : List Check :=
  let w := iws s a o 2
  let e := epochOf s a o
  let seg := fun (k : Nat) =>
    let b := segOff w + 16 * k
    let v := iws s a b 2
    let x := segOf v
    let before := if k = 0 then none else some (segOf (iws s a (b - 16) 2))
    zeroIn b v [(0, 7, 0), (1, 23, 0)] ++
    [formIf (match before with | none => decide (x.startNom ≠ 0) | some y => decide (x.startNom ≤ y.startNom)) (b + 4),
     formIf (match before with | none => decide (x.startDeg ≠ 0) | some y => decide (x.startDeg ≤ y.startDeg)) (b + 1),
     formIf (decide (e.lenNom ≤ x.startNom)) (b + 4), formIf (decide (e.lenDeg ≤ x.startDeg)) (b + 1)]
  zeroIn o w [(1, 63, 40)] ++ [formIf (badLen e.lenNom) (o + 4), formIf (badLen e.lenDeg) (o + 1),
    formIf (decide (segOff w % 16 ≠ 0) || decide (len < segOff w + 16 * segCount w)) (o + 8)] ++
  (if len < segOff w + 16 * segCount w then [] else (List.range (segCount w)).flatMap seg)

/-! ### The stream directory (R157) -/

/-- Place and number of entries of a stream. -/
def dirOf (s : State) (a dir st : Nat) : Nat × Nat :=
  let w := iws s a (dir + 16 * st) 2
  (wf (wd w 0) 39 0, wf (wd w 1) 31 0)

def dirChecks (s : State) (a len dir st : Nat) : List Check :=
  let o := dir + 16 * st
  let w := iws s a o 2
  let d := dirOf s a dir st
  zeroIn o w [(0, 63, 40), (1, 63, 32)] ++
  [formIf (decide (d.1 % 128 ≠ 0) || decide (len < d.1 + 128 * d.2)) o]

/-! ### Entries (Tables 06-4 and 06-5) -/

/-- An entry with its stream, its index within its epoch, and its offset in the image. -/
structure Ent where
  stream : Nat
  idx : Nat
  off : Nat
  x : Entry

def gateRaw (w : List Word) (g : Nat) : Nat := if g % 2 = 0 then wf (wd w (3 + g / 2)) 31 0 else wf (wd w (3 + g / 2)) 63 32
def gateValid (w : List Word) (g : Nat) : Bool := bit (wd w 2).toNat (48 + g)

def entryOf (w : List Word) : Entry :=
  { launchNom := wf (wd w 0) 63 36, budgetNom := wf (wd w 0) 35 8, segment := wf (wd w 0) 7 0, launchDeg := wf (wd w 1) 63 36,
    budgetDeg := wf (wd w 1) 35 8, epoch := wf (wd w 2) 31 0,
    gates := ((List.range 4).filter (gateValid w)).map (fun g => (fld (gateRaw w g) 29 20, fld (gateRaw w g) 19 0)),
    desc := w.drop 8 }

/-- The action types that a stream permits (Tables 06-3 and 06-6). -/
def permitted (st ty : Nat) : Bool :=
  ty == 0x01 || (if st < 544 then decide (0x21 ≤ ty) && decide (ty ≤ 0x24)
    else if st < 584 then (decide (0x30 ≤ ty) && decide (ty ≤ 0x35)) || (decide (0x38 ≤ ty) && decide (ty ≤ 0x3D))
    else decide (0x10 ≤ ty) && decide (ty ≤ 0x14))

/-- The checks of the entry at offset `o` of stream `st`, by its words alone (R5, R157 to R160). -/
def entryChecks (epochs : List EpochRow) (st o : Nat) (w : List Word) : List Check :=
  let x := entryOf w
  let gate := fun (g : Nat) =>
    let v := gateRaw w g
    let b := o + 24 + 4 * g
    if gateValid w g then [formIf (decide (fld v 19 0 = 0)) b, formIf (decide (599 < fld v 29 20)) (b + 2), formIf (decide (fld v 31 30 ≠ 0)) (b + 3)]
    else [formIf (decide (v ≠ 0)) b]
  zeroIn o w [(1, 7, 0), (2, 47, 32), (5, 63, 0), (6, 63, 0), (7, 63, 0)] ++
  [formIf (decide (wf (wd w 2) 63 52 ≠ st)) (o + 22),
   formIf (epochs[x.epoch]?).isNone (o + 16),
   formIf (match epochs[x.epoch]? with | none => false | some e => decide (e.segs.length ≤ x.segment)) o] ++
  (List.range 4).flatMap gate ++
  [formIf (!permitted st (actionType x)) (o + 64)] ++
  (if actionType x = 0x01 then zeroIn (o + 64) x.desc ((0, 63, 6) :: (List.range 7).map (fun k => (k + 1, 63, 0))) else [])

/-- The words of the entries of a stream, with their offsets. -/
def rawEntries (s : State) (a dir st : Nat) : List (Nat × List Word) :=
  let d := dirOf s a dir st
  (List.range d.2).map (fun k => (d.1 + 128 * k, iws s a (d.1 + 128 * k) 16))

/-- The entries of a stream, numbered within their epochs. -/
def entsOf (s : State) (a dir st : Nat) : List Ent :=
  (rawEntries s a dir st).foldl (fun l r =>
    let x := entryOf r.2
    l ++ [{ stream := st, idx := (l.filter (fun (y : Ent) => y.x.epoch == x.epoch)).length, off := r.1, x := x }]) []

/-- Launch and budget of an entry in a mode, in quanta. -/
def Ent.launch (e : Ent) (deg : Bool) : Nat := if deg then e.x.launchDeg else e.x.launchNom
def Ent.budget (e : Ent) (deg : Bool) : Nat := if deg then e.x.budgetDeg else e.x.budgetNom
def Ent.ty (e : Ent) : Nat := actionType e.x
/-- The key of an entry within its epoch. -/
def Ent.key (e : Ent) : Nat := e.stream * 2 ^ 20 + e.idx
def Ent.isCube (e : Ent) : Bool := e.ty == 0x21
def Ent.isDray (e : Ent) : Bool := decide (0x30 ≤ e.ty) && decide (e.ty ≤ 0x35)
def Ent.isColl (e : Ent) : Bool := decide (0x10 ≤ e.ty) && decide (e.ty ≤ 0x14)
def Ent.isTier (e : Ent) : Bool := decide (0x38 ≤ e.ty) && decide (e.ty ≤ 0x3D)
/-- The place of a descriptor field. -/
def Ent.at_ (e : Ent) (wrd lsb : Nat) : Nat := e.off + 64 + 8 * wrd + lsb / 8

def lenOf (e : EpochRow) (deg : Bool) : Nat := if deg then e.lenDeg else e.lenNom

/-- Start of an epoch in quanta from the job's or slot's start. -/
def startOf (epochs : List EpochRow) (deg : Bool) (e : Nat) : Nat := ((epochs.take e).map (lenOf · deg)).sum

/-- Planned launch in quanta from the job's or slot's start. -/
def Ent.plan (e : Ent) (epochs : List EpochRow) (deg : Bool) : Nat := startOf epochs deg e.x.epoch + e.launch deg

/-- Order and density of one stream's entries (R161). -/
def orderChecks (epochs : List EpochRow) (l : List Ent) : List Check :=
  let back := fun (i k : Nat) => if k ≤ i then l[i - k]? else none
  (List.range l.length).flatMap (fun i => match l[i]? with
    | none => []
    | some e =>
      let same := fun (k : Nat) => (back i k).filter (fun y => y.x.epoch == e.x.epoch)
      let modes := [false, true].map (fun m => formIf
        ((match same 1 with | some y => decide (e.launch m < y.launch m) | none => false) ||
         (match same 4 with | some y => decide (e.launch m = y.launch m) | none => false) ||
         (match back i 256 with | some y => decide (e.plan epochs m < y.plan epochs m + 500) | none => false)) (e.off + (if m then 12 else 4)))
      [formIf (match back i 1 with | some y => decide (e.x.epoch < y.x.epoch) | none => false) (e.off + 16),
       formIf (decide (1048575 ≤ e.idx)) (e.off + 16)] ++ modes)

end Sys2Proof.Machine
end

