-- ==== Sys2Proof/Machine/SlatePlan.lean ====
section
/-! DEFINITION. What installation works out of an image: planned times and residence of extents, the programs that the image
itself carries, and the bytes that each action reads and writes (R99, R101, R117, R222, R233, R489). -/

namespace Sys2Proof.Machine

/-- An image under installation on partition `p`. -/
structure Plan where
  s : State
  p : Nat
  img : Image
  ents : List Ent
  /-- The programs of vector and update actions, by epoch × 2^40 + key, as far as they are known (log 26). -/
  progs : Tbl (List Byte) := []

/-- A job of the image in one mode, in epoch `e`: what the interval rules of R124 are stated over. -/
def Plan.job (_ : Plan) (e : Nat) (deg : Bool) : Job := { id := 0, t0 := 0, epoch := e, degFrom := if deg then some 0 else none }

def Plan.inEpoch (p : Plan) (e : Nat) : List Ent := p.ents.filter (fun x => x.x.epoch == e)

/-- The epochs in which some stream has an entry. -/
def Plan.epochs (p : Plan) : List Nat := ((p.ents.map (fun x => x.x.epoch)).dedup)

def Plan.time (p : Plan) (deg : Bool) (e : Ent) : Nat := e.plan p.img.epochs deg

/-- Both modes. -/
def modes : List Bool := [false, true]

/-! ### Durations -/

/-- A duration in ns as a fraction. -/
abbrev Frac := Nat × Nat

def ns (n : Nat) : Frac := (n, 1)
/-- Compute cycles at 1.50 GHz. -/
def cycles (c : Nat) : Frac := (2 * c, 3)
def addF (a b : Frac) : Frac := (a.1 * b.2 + b.1 * a.2, a.2 * b.2)
def maxF (a b : Frac) : Frac := if b.1 * a.2 ≤ a.1 * b.2 then a else b
def sumF (l : List Frac) : Frac := l.foldl addF (ns 0)
/-- Rounded up to whole quanta of 4 ns (R168). -/
def quantaOf (f : Frac) : Nat := ceilDiv f.1 (4 * f.2)

/-! ### Extents over the plan (R30, R117, R222, R229, R233) -/

/-- A tier action: planned launch and end, code, first extent and count, home die and pin. -/
structure TierEv where
  t0 : Nat
  t1 : Nat
  code : Nat
  ext : Nat × Nat
  die : Nat
  pin : Bool

def tierEv (p : Plan) (deg : Bool) (e : Ent) : TierEv :=
  let w := wd e.x.desc 0
  { t0 := p.time deg e, t1 := p.time deg e + e.budget deg, code := e.ty, ext := (wf w 63 42, wf w 41 28 + 1), die := wf w 27 26, pin := bit w.toNat 25 }

/-- Puts an event in order of launch. -/
def insertEv (v : TierEv) : List TierEv → List TierEv
  | [] => [v]
  | h :: t => if v.t0 < h.t0 then v :: h :: t else h :: insertEv v t

/-- The tier actions that move extents, by planned launch. -/
def Plan.tier (p : Plan) (deg : Bool) : List TierEv :=
  ((p.ents.filter (fun e => decide (0x38 ≤ e.ty) && decide (e.ty ≤ 0x3B))).map (tierEv p deg)).foldl (fun l v => insertEv v l) []

def TierEv.names (v : TierEv) (x : Nat) : Bool := inRange v.ext x
def TierEv.pins (v : TierEv) : Bool := v.code == 0x38 && v.pin
def TierEv.frees (v : TierEv) : Bool := v.code == 0x39 || v.code == 0x3B

/-- The die on which installation leaves an extent of the image pinned (R154). -/
def imageDie (s : State) (x : Nat) : Nat :=
  match (extOf s x).st with
  | .hbm => (extOf s x).die
  | _ => x % 4

def Plan.ofImage (p : Plan) (x : Nat) : Bool := overlap p.img.addr p.img.len (x * extSize) extSize

/-- A range meets an extent of the image, which its installation write-protects (R154). -/
def Plan.meetsImage (p : Plan) (a n : Nat) : Bool := (extsOf a n).any p.ofImage

/-- The image that installation replaces holds an extent (R163). -/
def replaced (s : State) (p x : Nat) : Bool := match (partOf s p).image with | some i => overlap i.addr i.len (x * extSize) extSize | none => false

/-- The die on which an extent is pinned to the partition when the job starts. -/
def Plan.pinned0 (p : Plan) (x : Nat) : Option Nat :=
  if p.ofImage x then some (imageDie p.s x)
  else if replaced p.s p.p x then none
  else if (extOf p.s x).pin == some p.p then some (extOf p.s x).die else none

/-- The die on which an extent is pinned at a planned time; none where it is not. -/
def Plan.pinnedAt (p : Plan) (deg : Bool) (t x : Nat) : Option Nat :=
  (p.tier deg).foldl (fun r v =>
    if !v.names x then r
    else if v.code == 0x38 && decide (v.t1 ≤ t) then (if v.pin then some v.die else r.map (fun _ => v.die))
    else if v.frees && decide (v.t0 ≤ t) then none
    else r) (p.pinned0 x)

/-- The image keeps an extent pinned from an action's launch to its completion (R222). -/
def Plan.keeps (p : Plan) (deg : Bool) (e : Ent) (x : Nat) : Bool :=
  let t0 := p.time deg e
  let t1 := t0 + e.budget deg
  (p.pinnedAt deg t0 x).isSome && !(p.tier deg).any (fun v => v.frees && v.names x && decide (t0 ≤ v.t0) && decide (v.t0 ≤ t1))

def Plan.keepsRange (p : Plan) (e : Ent) (a n : Nat) : Bool := (extsOf a n).all (fun x => modes.all (fun m => p.keeps m e x))

/-- The die whose frame an extent takes of the partition's quota at a planned time: from a promotion's launch to the end of the
demotion that frees it (R237). -/
def Plan.holdsAt (p : Plan) (deg : Bool) (t x : Nat) : Option Nat :=
  (p.tier deg).foldl (fun r v =>
    if !v.names x then r
    else if v.code == 0x38 && decide (v.t0 ≤ t) then (if v.pin then some v.die else r.map (fun _ => v.die))
    else if v.frees && decide (v.t1 ≤ t) then none
    else r) (p.pinned0 x)

/-- The extents that may be pinned at some time. -/
def Plan.pinnable (p : Plan) : List Nat :=
  (extsOf p.img.addr p.img.len ++ (p.s.exts.filter (fun e => e.2.pin == some p.p)).map (·.1) ++
    ((p.tier false).filter TierEv.pins).flatMap (fun v => (List.range v.ext.2).map (· + v.ext.1))).dedup

/-- The partition's pinned count exceeds its quota of a die at the launch of some promotion, or from the start (R30, R233). A
promotion with pin = 0 of a pinned extent takes it, pinned, to its die (log 54). -/
def Plan.overQuota (p : Plan) : Bool :=
  let q := (partOf p.s p.p).quotas
  modes.any (fun m => (0 :: ((p.tier m).filter (fun v => v.code == 0x38)).map (·.t0)).any (fun t => (List.range 4).any (fun d =>
    decide (q.getD d 0 < (p.pinnable.filter (fun x => p.holdsAt m t x == some d)).length))))

/-- The die on which an extent is resident at a planned time; none where it is in flash. -/
def Plan.resident (p : Plan) (deg : Bool) (t x : Nat) : Option Nat :=
  let now_ := if p.ofImage x then some (imageDie p.s x) else if inHbm p.s x then some (extOf p.s x).die else none
  (p.tier deg).foldl (fun r v =>
    if v.names x && decide (v.t1 ≤ t) then (if v.code == 0x38 then some v.die else if v.frees then none else r) else r) now_

/-! ### Operands -/

/-- Bytes that an action touches: of a logical tile, or of the UMR. -/
structure Touch where
  write : Bool
  tile : Option Nat
  lo : Nat
  n : Nat

/-- What a range [lo, hi) leaves of ranges. -/
def cutRange (lo hi : Nat) (l : List (Nat × Nat)) : List (Nat × Nat) :=
  l.flatMap (fun r => [(r.1, min r.2 lo), (max r.1 hi, r.2)].filter (fun x => decide (x.1 < x.2)))

def Touch.meets (a b : Touch) : Bool := a.tile == b.tile && overlap a.lo a.n b.lo b.n

/-- The UMR address that an absolute specifier of a Slate action names (Table 13-5). -/
def specUmr (v : Nat) : Option Nat := umrOf (fld v 55 0)

def specSpace (v : Nat) : Nat := fld v 63 62

/-- An operand of `n` bytes of a Dray action; the reach of an indexed one in a tile is its whole memory (R489), and in the UMR
its addresses are not known. -/
def specTouch (v n : Nat) (write indexed : Bool) : List Touch :=
  if n = 0 then []
  else if specSpace v = 2 then
    let a := fld v 20 0
    match indexed, bankOf a with
    | true, some b => [{ write := write, tile := some (fld v 61 52), lo := (bankSpan b).1, n := (bankSpan b).2 }]
    | _, _ => [{ write := write, tile := some (fld v 61 52), lo := a, n := n }]
  else if specSpace v = 1 && !indexed then
    match specUmr v with
    | some a => [{ write := write, tile := none, lo := a, n := n }]
    | none => []
  else []

def drayTouches (w : List Word) : List Touch :=
  let d := drayDesc w
  if d.op = 0x35 || d.len = 0 then []
  else
    specTouch d.src (srcSpan d) false (d.op = 0x31) ++ specTouch d.auxA (auxASpan d) false false ++
    (if d.hasDst then specTouch d.dst (dstSpan d) true (d.op = 0x32) else []) ++ specTouch d.auxB (auxBSpan d) true false ++
    (if d.dmode = 0 then [] else specTouch d.digestDst 48 true false)

/-- Ring of a collective action. -/
def Plan.ring (p : Plan) (e : Ent) : RtRing := ringOf p.s (collRing e.x.desc)

/-- Bytes of a collective action's result (Table 12-10). -/
def collResult (d : List Word) (size : Nat) : Nat :=
  let n := collN d
  if collType d = 0x11 then n / max size 1 * 16
  else if collType d = 0x12 then n * 16 * size
  else if collType d = 0x13 && collOut d = 1 then n * 4
  else n * 16

def collTouches (d : List Word) (size : Nat) : List Touch :=
  let spec := fun (w : Word) (n : Nat) (write : Bool) =>
    ({ write := write, tile := if collUmr w then none else some (collTile w), lo := collAddr w, n := n } : Touch)
  (if collType d = 0x14 then [] else [spec (wd d 1) (collN d * collEsize (collType d)) false, spec (wd d 2) (collResult d size) true] ++
    (if collType d = 0x13 && collOut d = 0 then [{ write := true, tile := none, lo := collAnchorAddr d, n := collN d / 32 * 2 }] else [])) ++
  (if collFlagEn d then [{ write := true, tile := none, lo := collFlagAddr d, n := 8 }] else [])

/-! ### Update actions (R109, R115) -/

/-- A range of an update action's streams: the blocks of `z` bytes from `base`. -/
def updRange (d : List Word) (base z : Nat) : Nat × Nat := (base + updFirst d * z, updCount d * z)

/-- The ranges that one stream of an update action uses: first address, bytes, read, written, and whether the pin rule of R117
holds for it. -/
def streamRanges (d : List Word) (u : UStream) : List (Nat × Nat × Bool × Bool) :=
  if u.dir = 0 then []
  else
    let rng := fun (base z : Nat) (r w : Bool) => ((updRange d base z).1, (updRange d base z).2, r, w)
    [rng u.base u.size u.isIn u.isOut] ++ (if u.out.isMx then [rng u.scaleBase 1 u.isIn u.isOut] else []) ++
    (if u.inOut then [rng u.retain u.size false true] ++ (if u.out.isMx then [rng u.retainScale 1 false true] else []) else [])

def hasInOut (tab : List Word) : Bool := (uStreams tab).any UStream.inOut

/-- Every pinned range: streams, retain areas and, where it is written, the marker. -/
def updPinned (d tab : List Word) : List (Nat × Nat × Bool × Bool) :=
  (uStreams tab).flatMap (streamRanges d) ++ (if hasInOut tab then [(updMarker d, 8, false, true)] else [])

/-- The bitmap's bytes. -/
def updMap (d : List Word) : List (Nat × Nat × Bool × Bool) :=
  if updDense d then [] else [(updBitmap d, ceilDiv (updCount d) 8, true, false)]

def Plan.table (p : Plan) (e : Ent) : List Word := p.img.utabs.getD (updTable e.x.desc) []

def updTouches (d tab : List Word) : List Touch :=
  (updPinned d tab ++ updMap d).flatMap (fun r =>
    (if r.2.2.1 then [{ write := false, tile := none, lo := r.1, n := r.2.1 }] else []) ++
    (if r.2.2.2 then [{ write := true, tile := none, lo := r.1, n := r.2.1 }] else []))

/-! ### Following a vector program (R99, R101, R103) -/

/-- Where an entry's program is kept in `Plan.progs`. -/
def Ent.progKey (e : Ent) : Nat := e.x.epoch * 2 ^ 40 + e.key

/-- The words of a vector program, if known. -/
def Plan.vecProg (p : Plan) (e : Ent) : Option (List Word) := (tblGet? p.progs e.progKey).map wordsOf

/-- The words of an update program, if known. -/
def Plan.updWords (p : Plan) (e : Ent) : Option (List Nat) :=
  (tblGet? p.progs e.progKey).map (fun bs => (chunks 4 (bs.length / 4 + 1) bs).map leNat)

/-- Registers that an instruction reads and writes: v0 to v31 are 0 to 31, k0 to k7 32 to 39, a0 to a7 40 to 47. -/
def vRegs (w : Word) : List Nat × List Nat :=
  let op := vOp w
  let km := 32 + vKm w
  let post := if bit w.toNat 17 then [40 + vVa w] else []
  if op = 0x00 || op = 0x30 || op = 0x3F then ([], [])
  else if op = 0x01 || op = 0x02 || op = 0x04 || op = 0x05 || op = 0x1A then ([vVa w, vVb w, km], [vVd w])
  else if op = 0x03 then ([vVa w, vVb w, vVc w, km], [vVd w])
  else if op = 0x06 then ([vVa w, vVb w, 32 + vVc w, km], [vVd w])
  else if op = 0x07 then ([vVa w, vVb w, km], [32 + vVd w])
  else if op = 0x20 then ([40 + vVa w, km], vVd w :: post)
  else if op = 0x21 then ([vVd w, 40 + vVa w, km], post)
  else if op = 0x28 then ([], [40 + vVd w])
  else if op = 0x29 then ([40 + vVd w], [40 + vVd w])
  else if op = 0x18 then ([vVa w, km] ++ (if cvRound w then [47] else []), [vVd w])
  else if op = 0x1D then ([vVa w, km] ++ (if bit w.toNat 14 then [47] else []), [vVd w])
  else ([vVa w, km], [vVd w])

/-- Latency of an instruction (Table 04-4). -/
def vLatency (op : Nat) : Nat :=
  if op = 0x01 || op = 0x02 || op = 0x03 then 4
  else if op = 0x04 || op = 0x05 || op = 0x07 then 2
  else if op = 0x10 || op = 0x11 then 12
  else if op = 0x12 then 10
  else if op = 0x18 || op = 0x1B then 6
  else if op = 0x19 then 5
  else if op = 0x1A || op = 0x1C then 3
  else if op = 0x1D || op = 0x20 then 8
  else 1

/-- A walk through a vector program: the engine's counters and address registers, the anchor that each register carries, when
each register is ready, the last issue, the accesses, and whether no check has failed. -/
structure VWalk where
  v : Vec
  anchor : Tbl Int := []
  ready : Tbl Nat := []
  t : Nat
  /-- Whether it writes, its address, and the anchor of A128 data that it stores. -/
  touches : List (Bool × Nat × Option Int) := []
  ok : Bool := true

/-- The A128 sources of an instruction with the anchor it states, and the anchor that its result carries (R103). -/
def vAnchors (w : Word) : List Nat × Int × Option Int :=
  let op := vOp w
  let a := vAnchor w
  if op = 0x19 then ([], a, some a)
  else if op = 0x1A || (op = 0x06 && vType w == 3) then ([vVa w, vVb w], a, some a)
  else if op = 0x1B then ([vVa w], a, some a)
  else if op = 0x1C then ([vVa w], a, some (vAnchor2 w))
  else if op = 0x1D then ([vVa w], a, none)
  else if op = 0x20 && vType w == 3 then ([], a, some a)
  else if op = 0x21 && vType w == 3 then ([vVd w], a, none)
  else ([], a, none)

/-- A register that an instruction writes as vector data. -/
def vWritesV (w : Word) : Option Nat := (vRegs w).2.find? (fun r => decide (r < 32))

/-- The highest DSR index that an instruction draws (R64, R104, R106). -/
def vDsrTop (w : Word) (v : Vec) : Nat :=
  let b := v.indexBase + tblGet 0 v.a 7
  if vOp w = 0x18 && cvRound w && cvSrc w = 1 then b + 63
  else if vOp w = 0x1D && bit w.toNat 14 then b + 16 * vQ w + 15
  else 0

def vWalkStep (w : Word) (k : VWalk) : VWalk :=
  let op := vOp w
  let (rs, ws) := vRegs w
  let issue := (rs ++ ws).foldl (fun m r => max m (tblGet 0 k.ready r)) (k.t + 1)
  let mem_ := op = 0x20 || op = 0x21
  let a := vAddr w k.v
  let (src, an, res) := vAnchors w
  let good := (!mem_ || (decide (a % 64 = 0) && (bankOf a).isSome && bankOf a == bankOf (a + 255))) &&
    src.all (fun r => tblGet? k.anchor r == some an) && decide (vDsrTop w k.v < 2 ^ 40)
  let v1 := if op = 0x28 then opAset w k.v else if op = 0x29 then opAadd w k.v else if op = 0x30 then opLoop w k.v
    else if op = 0x3F then { k.v with running := false } else if mem_ then vPost w k.v else k.v
  { v := vecNext v1
    anchor := match vWritesV w, res with
      | some r, some x => tblSet r x k.anchor
      | some r, none => tblDel r k.anchor
      | none, _ => k.anchor
    ready := ws.foldl (fun t r => tblSet r (issue + vLatency op) t) k.ready
    t := issue
    touches := if mem_ then k.touches ++ [(op == 0x21, a, if op = 0x21 && vType w == 3 then some an else none)] else k.touches
    ok := k.ok && good }

def vWalk : Nat → VWalk → VWalk
  | 0, k => k
  | n + 1, k => if k.v.running then vWalk n (vWalkStep (tblGet 0 k.v.prog k.v.pc) k) else k

/-- The walk of a whole program (vector_end of R101). -/
def walkProgram (d : List Word) (prog : List Word) : VWalk :=
  vWalk vecFuel { v := vecStart d prog 0, t := ceilDiv (8 * prog.length) 256 - 1 }

/-- The cycle at which a vector action completes. -/
def VWalk.end_ (k : VWalk) : Nat := k.ready.foldl (fun m e => max m e.2) (k.t + 1)

/-- The accesses of a vector action's known program. -/
def Plan.vecAccesses (p : Plan) (e : Ent) : List (Touch × Option Int) :=
  match p.vecProg e with
  | some prog => if programOk prog then (walkProgram e.x.desc prog).touches.map (fun t =>
      ({ write := t.1, tile := some e.stream, lo := t.2.1, n := 256 }, t.2.2)) else []
  | none => []

/-- What a vector action touches: its program, and the accesses of a known one. -/
def Plan.vecTouches (p : Plan) (e : Ent) : List Touch :=
  { write := false, tile := some e.stream, lo := wf (wd e.x.desc 0) 63 43, n := 8 * (wf (wd e.x.desc 0) 42 33 + 1) } ::
  (p.vecAccesses e).map (·.1)

/-- The bytes that an action reads and writes at addresses known at installation. -/
def Plan.touches (p : Plan) (e : Ent) : List Touch :=
  if e.isCube then (cubeSpans (cubeDesc e.x.desc)).map (fun v => { write := v.2.2, tile := some e.stream, lo := v.1, n := v.2.1 })
  else if e.ty = 0x22 then p.vecTouches e
  else if e.ty = 0x23 then { write := false, tile := some e.stream, lo := updProg e.x.desc, n := 4 * updInstrs e.x.desc } :: updTouches e.x.desc (p.table e)
  else if e.isDray then drayTouches e.x.desc
  else if e.isColl then collTouches e.x.desc (p.ring e).size
  else []

/-! ### Programs (log 26)

Installation evaluates every address of a program (R99), so it works out the program's words: those that the COPY actions planned
before bring to it, from UMR bytes that no action of the image writes or from bytes of a tile that are known in the same way. -/

/-- Puts an entry in order of its planned launch. -/
def insertEnt (e : Ent) : List Ent → List Ent
  | [] => [e]
  | h :: t => if e.launch false < h.launch false then e :: h :: t else h :: insertEnt e t

/-- Some action of the image writes bytes of a range of the UMR, at addresses known at installation. -/
def Plan.writesUmr (p : Plan) (a n : Nat) : Bool :=
  p.ents.any (fun y => (p.touches y).any (fun t => t.write && t.tile.isNone && overlap t.lo t.n a n))

/-- The bytes at `a` of logical tile `l` before the planned launch `t`, where they are known: each as the last action planned
before it left it, followed through at most `f` moves. -/
def Plan.tileBytes (p : Plan) (epoch l a n t : Nat) : Nat → List (Option Byte)
  | 0 => List.replicate n none
  | f + 1 =>
    let ws := ((p.inEpoch epoch).filter (fun y => decide (y.launch false < t))).foldl (fun l y => insertEnt y l) []
    ws.foldl (fun bs y => (p.touches y).foldl (fun bs w =>
      if w.write && w.tile == some l && overlap w.lo w.n a n then
        let d := drayDesc y.x.desc
        let lo := max w.lo a
        let k := min (w.lo + w.n) (a + n) - lo
        let brought : List (Option Byte) :=
          if y.ty = 0x30 && decide (w.lo = fld d.dst 20 0) && decide (w.n = d.len) then
            if specSpace d.src = 2 then p.tileBytes epoch (fld d.src 61 52) (fld d.src 20 0 + (lo - w.lo)) k (y.launch false) f
            else match (if specSpace d.src = 1 then specUmr d.src else none) with
              | some u => if p.writesUmr (u + (lo - w.lo)) k then List.replicate k none else (cohPeek p.s (u + (lo - w.lo)) k).map some
              | none => List.replicate k none
          else List.replicate k none
        bs.take (lo - a) ++ brought ++ bs.drop (lo - a + k)
      else bs) bs) (List.replicate n none)

/-- Place and bytes of the program of a vector or update action. -/
def Ent.program (e : Ent) : Nat × Nat :=
  if e.ty = 0x22 then (wf (wd e.x.desc 0) 63 43, 8 * (wf (wd e.x.desc 0) 42 33 + 1)) else (updProg e.x.desc, 4 * updInstrs e.x.desc)

/-- The plan with the program of one more entry, if all its bytes are known. -/
def Plan.addProg (p : Plan) (e : Ent) : Plan :=
  let bs := p.tileBytes e.x.epoch e.stream e.program.1 e.program.2 (e.launch false) 8
  if bs.all Option.isSome then { p with progs := tblSet e.progKey (bs.filterMap id) p.progs } else p

/-- The plan of an image, with its programs worked out in the order of their planned launches. -/
def planOf (s : State) (part : Nat) (img : Image) (ents : List Ent) : Plan :=
  ((ents.filter (fun e => e.ty == 0x22 || e.ty == 0x23)).foldl (fun l e => insertEnt e l) []).foldl Plan.addProg
    { s := s, p := part, img := img, ents := ents }

end Sys2Proof.Machine
end

