-- ==== Sys2Proof/Machine/SlateForm.lean ====
section
/-! DEFINITION. Installation checks of each action's descriptor, and the minimum budgets
(R36 to R42, R77, R99, R112, R123, R168, R233, R234, R338, R339, R342, R358, R363). -/

namespace Sys2Proof.Machine

/-- A failed check of an entry's descriptor field. -/
def badField (e : Ent) (wrd lsb st : Nat) (b : Bool) : Check := (b, st, e.at_ wrd lsb)

def reservedIn (e : Ent) (fs : List (Nat × Nat × Nat)) : List Check := zeroIn (e.off + 64) e.x.desc fs

/-! ### Cube operations (R36, R38, R41, R64, R75, R77) -/

/-- 0 the 4-bit, 1 the 8-bit, 2 the 16-bit group, 3 the formats of passes (Table 02-2). -/
def fmtGroup (c : Nat) : Nat := if c ≤ 1 then 0 else if c ≤ 7 then 1 else if c ≤ 9 then 2 else 3

/-- The format that each pass mode takes, or a format of the 4-, 8- and 16-bit groups for a single pass (Table 03-4). -/
def passTakes (mode f : Nat) : Bool :=
  if mode = 0 then decide (fmtGroup f < 3) else if mode = 1 then f == 10 else if mode = 2 then f == 8 else f == 11

def scaledFmt (c : Nat) : Bool := match Fmt.ofCode c with | some f => f.isMx || f.isPerTensor | none => false

/-- The highest logical index that a DSR drain draws (R64, R77). -/
def cubeDsrTop (c : CubeDesc) : Nat :=
  let top := fun (l : List Nat) => l.foldl max 0
  let rows := c.cubes.flatMap (fun k => c.rows.map (c.outRow k))
  let cols := c.cubes.flatMap (fun k => c.cols.map (c.outCol k))
  c.outBase + ((c.runs - 1) * c.height + top rows) * c.outLd + top cols

def isMxOut (code : Nat) : Bool := decide (6 ≤ code) && decide (code ≤ 11)

def cubeForm (e : Ent) : List Check :=
  let c := cubeDesc e.x.desc
  let d := c.drain
  let bare := fun (f : Nat) => !scaledFmt f
  let win := fun (f w : Nat) => if scaledFmt f then decide (223 < w) else decide (w ≠ 0)
  let (fStream, fPanel) := if c.statA then (c.fmtB, c.fmtA) else (c.fmtA, c.fmtB)
  reservedIn e [(1, 8, 0), (2, 3, 0), (3, 0, 0), (4, 0, 0), (5, 7, 0), (6, 23, 0), (7, 63, 0)] ++
  [badField e 1 50 stFormat (decide (11 < c.fmtA)), badField e 1 46 stFormat (decide (11 < c.fmtB)),
   badField e 1 26 stFormat (d && decide (11 < c.outFmt)), badField e 0 12 stFormat (decide (1 < c.feedMode)),
   badField e 1 46 stFormat (decide (fmtGroup c.fmtA ≠ fmtGroup c.fmtB)), badField e 1 50 stFormat (!passTakes c.passMode c.fmtA),
   badField e 1 46 stFormat (!passTakes c.passMode c.fmtB), badField e 0 7 stFormat (c.passMode = 2 && c.statA),
   badField e 0 14 stFormat (decide (c.kStep < c.kLast)),
   badField e 1 38 stFormat (win c.fmtA c.winA), badField e 1 30 stFormat (win c.fmtB c.winB),
   badField e 4 43 stFormat (bare fStream && decide (c.streamScale ≠ 0)), badField e 4 22 stFormat (bare fPanel && decide (c.panelScale ≠ 0)),
   badField e 1 17 stFormat (d && isMxOut c.outFmt && decide (223 < c.outWin)), badField e 1 25 stFormat (d && c.dsr && c.outFmt == 0),
   badField e 0 48 stFormat (d && isMxOut c.outFmt && (List.range 4).any (fun g => let m := fld c.cubeMask (4 * g + 3) (4 * g); m ≠ 0 && m ≠ 15)),
   badField e 0 24 stFormat (d && decide (1 < c.runs) && decide (c.passes * c.steps < drainCycles c)),
   badField e 2 49 stFormat (!(streamSpans c).isEmpty && (oneBank (streamSpans c)).isNone),
   badField e 2 4 stFormat (!(panelSpans c).isEmpty && (oneBank (panelSpans c)).isNone),
   badField e 3 43 stFormat (!(destSpans c).isEmpty && ((oneBank (destSpans c)).isNone || oneBank (destSpans c) == oneBank (streamSpans c))),
   badField e 6 24 stFormat (d && c.dsr && decide (2 ^ 40 ≤ cubeDsrTop c + 1)),
   badField e 1 9 stFormat (d && (c.outFmt == 4 || c.outFmt == 5) && c.outScale == 255)]

/-! ### Vector programs (R97, R99, R103)

A program whose words installation cannot work out is rejected with those that fail a check: no address of it can be evaluated
(log 26). -/

def vecForm (p : Plan) (e : Ent) : List Check :=
  let w0 := wd e.x.desc 0
  let a := wf w0 63 43
  reservedIn e [(0, 32, 6), (1, 0, 0), (2, 0, 0), (3, 31, 0), (4, 23, 0), (5, 63, 0), (6, 63, 0), (7, 63, 0)] ++
  [badField e 0 43 stFormat (decide (a % 8 ≠ 0) || decide (0x180000 < a + 8 * (wf w0 42 33 + 1))),
   (match p.vecProg e with
    | some prog => !(programOk prog && (walkProgram e.x.desc prog).ok)
    | none => true, stFormat, noField)]

/-! ### Update programs (R108 to R112, R117) -/

/-- Reserved bits of a stream table entry by its format and direction (Table 04-8): word, high, low. -/
def uReserved (u : UStream) : List (Nat × Nat × Nat) :=
  if u.dir = 0 then [(0, 63, 60), (0, 57, 0), (1, 63, 0), (2, 63, 0), (3, 63, 0), (4, 63, 0), (5, 63, 0)]
  else
    let mx := u.out.isMx
    let a128 := u.out == .a128
    [(0, 47, 43), (1, 54, 43), (2, 63, 43), (3, 63, 43), (4, 31, 0), (5, 63, 0)] ++
    (if a128 then [] else [(0, 57, 48)]) ++ (if mx then [] else [(1, 63, 56), (1, 42, 0)]) ++
    (if a128 || !u.isOut then [(1, 55, 55), (4, 63, 32)] else []) ++
    (if u.inOut then [] else [(2, 42, 0)]) ++ (if u.inOut && mx then [] else [(3, 42, 0)])

/-- A stream table entry breaks R112. -/
def uStreamBad (tab : List Word) (k : Nat) : Bool :=
  let u := uStream tab k
  (uReserved u).any (fun f => decide (wf (wd tab (6 * k + f.1)) f.2.1 f.2.2 ≠ 0)) ||
  (u.dir ≠ 0 && (decide (11 < u.fmt) || u.fmt == 4 || u.fmt == 5 || (u.out.isMx && decide (223 < u.win))))

/-- An instruction of an update program breaks R112. -/
def uInsnBad (tab : List Word) (i : Nat) : Bool :=
  let op := fld i 31 28
  let d := fld i 27 23
  let c := fld i 12 8
  let st := fun (k : Nat) => uStream tab k
  let unused := fun (o : Nat) => decide (o < 8) && (st o).dir == 0
  let a128 := fun (o : Nat) => decide (o < 8) && (st o).out == .a128
  let two := op = 0 || op = 1 || op = 2 || op = 3 || op = 4
  let three := op = 2 || op = 4
  decide (8 < op) || fld i 6 0 ≠ 0 || (!two && (bit i 7 || fld i 17 13 ≠ 0)) || (!three && op ≠ 7 && c ≠ 0) ||
  decide (24 ≤ d) || (decide (d < 8) && ((st d).dir == 0 || (st d).dir == 1)) || (op ≠ 8 && a128 d) || (op = 8 && !a128 d) ||
  unused (fld i 22 18) || (two && unused (fld i 17 13)) || (three && unused c) ||
  (op = 7 && (decide (8 ≤ c) || unused c || a128 c || (st c).out == .fp32))

/-- Ranges of one action that must not overlap (R112). -/
def updRanges (d tab : List Word) : List (Nat × Nat) := (updPinned d tab ++ updMap d).map (fun r => (r.1, r.2.1))

def updForm (p : Plan) (e : Ent) : List Check :=
  let d := e.x.desc
  let tab := p.table e
  let own := fun (r : Nat × Nat × Bool × Bool) => decide (r.1 + r.2.1 ≤ umrEnd) && inPart (partOf p.s p.p) r.1 r.2.1
  reservedIn e [(0, 25, 6), (2, 19, 0), (3, 63, 43)] ++
  [badField e 1 43 stFormat (decide (updProg d % 4 ≠ 0) || decide (0x180000 < updProg d + 4 * updInstrs d)),
   badField e 2 20 stFormat (decide (p.img.utabs.length ≤ updTable d)), badField e 3 0 stFormat (decide (updMarker d % 8 ≠ 0)),
   badField e 2 32 stFormat (decide (0xFFFFFFFF < updFirst d + (updCount d - 1))),
   (!tab.isEmpty && (List.range 8).any (uStreamBad tab), stFormat, noField),
   (anyPair (fun a b => overlap a.1 a.2 b.1 b.2) (updRanges d tab), stFormat, noField),
   (match p.updWords e with | some prog => prog.any (uInsnBad tab) | none => true, stFormat, noField),
   (!(updPinned d tab).all (fun r => own r && p.keepsRange e r.1 r.2.1), stRegion, noField),
   ((updPinned d tab).any (fun r => r.2.2.2 && (protectedRange p.s r.1 r.2.1 || p.meetsImage r.1 r.2.1)), stRegion, noField),
   badField e 1 0 stRegion (!(updMap d).all own)]

/-! ### Bank grants (R123, R124) -/

def grantForm (p : Plan) (e : Ent) : List Check :=
  let d := e.x.desc
  reservedIn e ((0, 27, 6) :: (List.range 7).map (fun k => (k + 1, 63, 0))) ++
  (List.range 4).flatMap (fun b =>
    let c := grantCode d b
    let k := grantDray d b
    [badField e 0 (34 + 9 * b) stFormat (decide (5 < c)), badField e 0 (28 + 9 * b) stFormat (if c = 4 then decide (40 ≤ k) else k ≠ 0),
     badField e 0 (28 + 9 * b) stQuota (c = 4 && !bit (partOf p.s p.p).drayMask k)])

/-! ### Dray actions (R38, R357 to R361, R489) -/

/-- The specifiers that an operation uses: word, value, bytes, whether written, whether indexed. -/
def usedSpecs (w : List Word) : List (Nat × Nat × Nat × Bool × Bool) :=
  let d := drayDesc w
  [(1, d.src, if d.op = 0x31 then d.esize else srcSpan d, false, d.op == 0x31)] ++
  (if d.hasDst then [(2, d.dst, if d.op = 0x32 then d.esize else dstSpan d, true, d.op == 0x32)] else []) ++
  (if auxASpan d = 0 then [] else [(5, d.auxA, auxASpan d, false, false)]) ++
  (if auxBSpan d = 0 then [] else [(6, d.auxB, auxBSpan d, true, false)]) ++
  (if d.dmode = 0 then [] else [(4, d.digestDst, 48, true, false)])

/-- One specifier of a Slate action. -/
def specForm (p : Plan) (e : Ent) (v : Nat × Nat × Nat × Bool × Bool) : List Check :=
  let (wrd, x, n, write, ix) := v
  let sp := specSpace x
  let l := fld x 61 52
  let a := fld x 20 0
  let umrBad := match specUmr x with
    | none => true
    | some u =>
      let m := max n 1
      decide (umrEnd < u + m) || !inPart (partOf p.s p.p) u m ||
      (write && decide (0 < n) && !ix && (!p.keepsRange e u m || protectedRange p.s u m || p.meetsImage u m))
  [badField e wrd 0 stFormat (sp = 0), badField e wrd 0 stFormat (sp = 3 && !p.img.service),
   badField e wrd 0 stFormat (sp = 2 && decide (543 < l)), badField e wrd 0 stFormat (sp = 2 && decide (0x190000 < a + max n 1)),
   badField e wrd 0 stRegion (sp = 1 && umrBad), badField e wrd 0 stQuota (sp = 2 && decide (tilePart p.s l ≠ some p.p)),
   badField e wrd 0 stState (sp = 2 && decide (l < 544) && (physOf p.s l).isNone)]

def drayForm (p : Plan) (e : Ent) : List Check :=
  let w := e.x.desc
  let d := drayDesc w
  (drayFields true (e.stream - 544) w).map (fun f => badField e f.2.1 f.2.2 stFormat f.1) ++
  [(drayOverlaps d (operandsOf p.s p.p true d), stFormat, noField)] ++ (usedSpecs w).flatMap (specForm p e)

/-! ### Tier actions (R232, R233) -/

def tierForm (p : Plan) (e : Ent) : List Check :=
  let w := wd e.x.desc 0
  let rest := (List.range 7).map (fun k => (k + 1, 63, 0))
  if e.ty = 0x3C then
    let hub := (e.stream - 576) / 4
    reservedIn e ((0, 27, 6) :: rest) ++
    [(decide (e.stream < 576), stFormat, noField), badField e 0 36 stFormat (decide (wf w 63 36 < 250) || decide (250000000 < wf w 63 36)),
     badField e 0 32 stFormat ((bitsOf 4 (wf w 35 32)).any (fun k => decide (k / 2 ≠ hub))),
     badField e 0 28 stFormat (decide (wf w 31 28 = 0) || decide (6 < wf w 31 28))]
  else
    let x := wf w 63 42
    let n := wf w 41 28
    let out := decide (4059135 < x + n)
    reservedIn e ((0, 24, 6) :: rest) ++ (if e.ty = 0x38 then [] else reservedIn e [(0, 27, 25)]) ++
    [badField e 0 42 stFormat out,
     badField e 0 42 stRegion (!out && !(List.range (n + 1)).all (fun i => (partOf p.s p.p).ranges.any (fun r => inRange r (x + i))))]

/-! ### Collective actions (R337 to R339) -/

/-- The anchor with which an action leaves A128 data at some bytes, where installation knows it. -/
def anchorsLeft (p : Plan) (e : Ent) : List (Touch × Int) :=
  let tile := fun (v : Nat × Nat × Bool) => ({ write := true, tile := some e.stream, lo := v.1, n := v.2.1 } : Touch)
  if e.isCube then
    let c := cubeDesc e.x.desc
    if c.drain && c.outFmt == 0 then (destSpans c).map (fun v => (tile v, c.anchor)) else []
  else if e.ty = 0x22 then (p.vecAccesses e).filterMap (fun a => a.2.map (fun n => (a.1, n)))
  else if e.ty = 0x23 then
    (uStreams (p.table e)).flatMap (fun u => if u.isOut && u.out == .a128 then
      [({ write := true, tile := none, lo := (updRange e.x.desc u.base u.size).1, n := (updRange e.x.desc u.base u.size).2 }, u.anchor)] else [])
  else if e.ty = 0x10 || e.ty = 0x11 then
    ((collTouches e.x.desc (p.ring e).size).filter (fun t => t.write && t.n ≠ 8)).map (fun t => (t, collAnchor e.x.desc))
  else []

/-- Bytes of a read hold A128 data at another anchor than `an`: left by an action ordered before it, and not written again by one
ordered between them (R42, R339). `before` gives each such action with those ordered after it. -/
def staleAnchor (p : Plan) (before : List (Ent × List Ent)) (r : Touch) (an : Int) : Bool :=
  before.any (fun y => (anchorsLeft p y.1).any (fun a => a.1.meets r && decide (a.2 ≠ an) &&
    !((y.2.flatMap p.touches).foldl (fun l t => if t.write && t.tile == r.tile then cutRange t.lo (t.lo + t.n) l else l)
      [(max a.1.lo r.lo, min (a.1.lo + a.1.n) (r.lo + r.n))]).isEmpty))

def collForm (p : Plan) (e : Ent) (before : List (Ent × List Ent)) : List Check :=
  let d := e.x.desc
  let ty := e.ty
  let g := p.ring e
  let q := partOf p.s p.p
  let opWord := fun (k : Nat) =>
    let w := wd d k
    if collUmr w then reservedIn e [(k, 62, 43)]
    else reservedIn e [(k, 52, 21)] ++
      [badField e k 53 stFormat (decide (543 < collTile w)),
       badField e k 0 stFormat (decide (0x190000 < collAddr w + (if k = 1 then collN d * collEsize ty else collResult d g.size))),
       badField e k 53 stQuota (decide (tilePart p.s (collTile w) ≠ some p.p)),
       badField e k 53 stState (decide (collTile w < 544) && (physOf p.s (collTile w)).isNone)]
  let reads := (collTouches d g.size).filter (fun t => !t.write)
  let umr := (collTouches d g.size).filter (fun t => t.tile.isNone)
  let anchorsBad := (ty = 0x10 || ty = 0x11) &&
    reads.any (fun r => staleAnchor p before r (collAnchor d))
  let same := wd d 1 == wd d 2
  let hit := match reads, (collTouches d g.size).filter (fun t => t.write) with
    | r :: _, w :: _ => r.meets w
    | _, _ => false
  reservedIn e ([(0, 15, 6), (3, 62, 43), (5, 63, 43), (6, 63, 0), (7, 63, 0)] ++
    (if ty = 0x13 then [] else [(0, 59, 58)]) ++ (if ty = 0x10 || ty = 0x11 then [] else [(0, 57, 48)]) ++
    (if ty = 0x14 then [(0, 47, 16), (1, 63, 0), (2, 63, 0)] else []) ++ (if collFlagEn d then [(3, 2, 0)] else [(3, 42, 0), (4, 63, 0)]) ++
    (if ty = 0x13 && collOut d = 0 then [] else [(5, 42, 0)])) ++
  (if ty = 0x14 then [] else opWord 1 ++ opWord 2) ++
  [badField e 0 58 stFormat (ty = 0x13 && decide (1 < collOut d)), badField e 0 60 stFormat (!g.used || decide (popcount 20 g.mask < 2)),
   badField e 0 16 stFormat (ty = 0x11 && decide (collN d % max g.size 1 ≠ 0)), badField e 0 16 stFormat (ty = 0x13 && decide (collN d % 32 ≠ 0)),
   badField e 2 0 stFormat (ty ≠ 0x14 && hit && !(ty = 0x10 && same)), badField e 0 48 stFormat anchorsBad,
   badField e 0 60 stQuota ((bitsOf 20 g.mask).any (fun k => !bit q.portMask k)),
   (umr.any (fun t => decide (umrEnd < t.lo + t.n) || !inPart q t.lo t.n || !p.keepsRange e t.lo t.n), stRegion, noField),
   (umr.any (fun t => t.write && (protectedRange p.s t.lo t.n || p.meetsImage t.lo t.n)), stRegion, noField)]

/-! ### Minimum budgets (R168, Table 06-9) -/

/-- L_r and L_w of a requester's die and a home die (Table 07-4). -/
def latency (a b : Nat) : Nat × Nat := if a = b then (480, 400) else if dieHalf a = dieHalf b then (540, 460) else (580, 500)

/-- The worst of the extents that a range touches, at an action's planned launch. -/
def Plan.worst (p : Plan) (deg : Bool) (e : Ent) (a n : Nat) (read : Bool) : Nat :=
  (extsOf a n).foldl (fun m x => max m (match p.resident deg (p.time deg e) x with
    | some d => if read then (latency (streamDie e.stream) d).1 else (latency (streamDie e.stream) d).2
    | none => if read then 24000 else 500)) 0

/-- Latency of a Dray operand (R363). -/
def Plan.specLat (p : Plan) (deg : Bool) (e : Ent) (v n : Nat) (read : Bool) : Nat :=
  let pick := fun (l : Nat × Nat) => if read then l.1 else l.2
  if specSpace v = 2 then pick (latency (streamDie e.stream) (fld v 61 52 / 136))
  else if specSpace v = 1 then (match specUmr v with | some a => p.worst deg e a (max n 1) read | none => 580)
  else pick (580, 500)

def Plan.drayBudget (p : Plan) (deg : Bool) (e : Ent) : Frac :=
  let d := drayDesc e.x.desc
  if d.op = 0x35 then
    let a := (specUmr d.src).getD 0
    let lines := if d.len = 0 then 0 else (a + d.len - 1) / 128 + 1 - a / 128
    addF (ns 200) (cycles (16 + min lines 32768))
  else
    let b := if d.convert then max d.len (dstSpan d) else d.len
    let rate := if d.dmode = 1 then 12 else if d.dmode = 2 then min 192 (12 * max 1 (ceilDiv b 1048576)) else 192
    let t := if d.indexed then maxF (b, rate) (cycles (d.len / d.esize)) else (b, rate)
    let ls := p.specLat deg e d.src (srcSpan d) true + (if d.cacheable then 24 else 0)
    let dig := p.specLat deg e d.digestDst 48 false
    let ld := if !d.hasDst then dig else if d.dmode = 0 then p.specLat deg e d.dst (dstSpan d) false else max dig (p.specLat deg e d.dst (dstSpan d) false)
    addF (ns (200 + ls + ld + (if d.indexed then p.specLat deg e d.auxA (auxASpan d) true else 0))) t

/-- The slowest of the stacks that hold the largest number of an action's extents, k × 2,097,152 over the rate (Table 08-7). -/
def Plan.stackTime (p : Plan) (e : Ent) (read : Bool) : Frac :=
  let xs := tierExts e.x.desc
  let q := partOf p.s p.p
  let count := fun (f : Nat) => (xs.filter (fun x => flashStack x == f)).length
  let k := (List.range 4).foldl (fun m f => max m (count f)) 0
  ((List.range 4).filter (fun f => count f == k)).foldl (fun m f =>
    maxF m (if read then (k * 2097152, max 1 (q.rdRates.getD f 1)) else (4 * k * 2097152, max 1 (q.pgRates.getD f 1)))) (ns 0)

def Plan.tierBudget (p : Plan) (deg : Bool) (e : Ent) : Frac :=
  let w := wd e.x.desc 0
  let xs := tierExts e.x.desc
  if e.ty = 0x38 then
    let away := (xs.filter (fun x => match p.resident deg (p.time deg e) x with | some d => decide (d ≠ wf w 27 26) | none => false)).length
    addF (ns (26500 + 64000 * away + (if bit w.toNat 25 then 0 else 4600000 * xs.length))) (p.stackTime e true)
  else if e.ty = 0x39 || e.ty = 0x3A then addF (ns 2500580) (p.stackTime e false)
  else if e.ty = 0x3B then ns (4000 + 64 * xs.length)
  else if e.ty = 0x3C then ns (4 * wf w 63 36)
  else ns 1000

/-- The smallest k with n ≤ 2^k. -/
def clog2 (n : Nat) : Nat := if n ≤ 1 then 0 else Nat.log2 (n - 1) + 1

/-- R342, and R344 for a ring that falls back: D is at least one hop (log 39). -/
def Plan.collBudget (p : Plan) (deg : Bool) (e : Ent) : Frac :=
  let d := e.x.desc
  let g := p.ring e
  let n := collN d
  let s := max g.size 1
  let k := max 1 (popcount 20 g.mask - b2n deg)
  let fast := (bitsOf 20 g.mask).any (fun i => (portOf p.s i).up) && (bitsOf 20 g.mask).all (fun i => !(portOf p.s i).up || bit (portOf p.s i).features 2)
  let frame := if fast then 128 else 256
  let hop := match p.s.route with | some r => r.maxHop | none => 0
  let l := hop + 600
  let umr := e.ty ≠ 0x14 && (collUmr (wd d 1) || collUmr (wd d 2) || (e.ty = 0x13 && collOut d = 0))
  let m := 1000 + (if umr then 1080 else 0)
  let f := ceilDiv n (30 * s)
  let step := fun (c : Nat) => ((ceilDiv c k * frame + 100 * l, 100) : Frac)
  let times := fun (c : Nat) (x : Frac) => ((c * x.1, x.2) : Frac)
  if e.ty = 0x14 then ns (1000 + 2 * (s - 1) * l)
  else if e.ty ≠ 0x12 && fallsBack p.s (collRing d) then
    addF (ns m) (times (2 * clog2 (s + 1)) (ceilDiv n 30 * 256 + 100 * l, 100))
  else if e.ty = 0x11 || e.ty = 0x12 then addF (ns m) (times (s - 1) (step f))
  else if e.ty = 0x10 then addF (ns m) (times (2 * (s - 1)) (step f))
  else addF (addF (ns m) (times (2 * (s - 1)) (step f))) (times (2 * (s - 1)) (step (ceilDiv f 8)))

/-- Completion of an update action (Table 04-10). -/
def Plan.updBudget (p : Plan) (deg : Bool) (e : Ent) : Frac :=
  let d := e.x.desc
  let tab := p.table e
  let us := uStreams tab
  let z := fun (f : UStream → Bool) => ((us.filter f).map UStream.size).sum
  let io := z UStream.inOut
  let n := ceilDiv (updCount d) 2
  let s1 := ceilDiv (2 * io) 64
  let s2 := max (updInstrs d) (max (ceilDiv (2 * (z (fun u => u.dir == 1) + io)) 64) (ceilDiv (2 * (z (fun u => u.dir == 2) + io)) 64))
  let lat := (updPinned d tab).foldl (fun m r => max m (p.worst deg e r.1 r.2.1 true)) 480
  let lw := (updPinned d tab).foldl (fun m r => max m (p.worst deg e r.1 r.2.1 false)) 400
  let one := if hasInOut tab then addF (cycles (4 + n * s1)) (ns (lat + 2 * lw)) else cycles 4
  sumF [one, cycles ((n - 1) * s2 + 4 * updInstrs d + 6 + 20), ns (lat + lw)]

/-- The minimum budget of an entry (R168). -/
def Plan.minBudget (p : Plan) (deg : Bool) (e : Ent) : Frac :=
  if e.isCube then cycles (cubeEnd (cubeDesc e.x.desc) + 20)
  else if e.ty = 0x22 then
    match p.vecProg e with
    | some prog => if programOk prog then cycles ((walkProgram e.x.desc prog).end_ + 20) else ns 4
    | none => ns 4
  else if e.ty = 0x23 then p.updBudget deg e
  else if e.isDray then p.drayBudget deg e
  else if e.isTier then p.tierBudget deg e
  else if e.isColl then p.collBudget deg e
  else ns 4

/-- The time of R455 for one update action with an in-out stream. -/
def Plan.restoreTime (p : Plan) (e : Ent) : Frac :=
  let tab := p.table e
  if e.ty = 0x23 && hasInOut tab then
    let io := (((uStreams tab).filter UStream.inOut).map UStream.size).sum
    addF (ns 1000) (cycles (ceilDiv (updCount e.x.desc) 2 * ceilDiv (2 * io) 64))
  else ns 0

end Sys2Proof.Machine
end

