-- ==== Sys2Proof/Machine/SlateCheck.lean ====
section
/-! DEFINITION. Installation checks over several actions: gates and their order, timing, bank intervals, cube panels, granules,
epoch inputs and tier actions (R71, R78, R84, R118, R124, R125, R128, R131, R162, R173, R233; Table 06-7). -/

namespace Sys2Proof.Machine

/-- Latency V of Table 06-8 in quanta. -/
def vQuanta (a b : Nat) : Nat := visLatency (visClass a b) / 4

/-- Planned completion in quanta. -/
def Ent.ends (e : Ent) (deg : Bool) : Nat := e.launch deg + e.budget deg

/-- The entries of a stream in an entry's epoch. -/
def Plan.peers (p : Plan) (e : Ent) (st : Nat) : List Ent := (p.inEpoch e.x.epoch).filter (fun y => y.stream == st)

/-! ### Launch, budget and gates -/

def placeChecks (p : Plan) (e : Ent) : List Check :=
  match p.img.epochs[e.x.epoch]? with
  | none => []
  | some r => modes.flatMap (fun m =>
    let o := if m then 8 else 0
    let start := fun (g : Seg) => if m then g.startDeg else g.startNom
    let lo := (r.segs[e.x.segment]?).map start |>.getD 0
    let hi := (r.segs[e.x.segment + 1]?).map start |>.getD (lenOf r m)
    let lim := lenOf r m - (if 1 < p.img.members then p.img.holdLead else 0)
    [formIf (decide (e.launch m < lo) || decide (hi ≤ e.launch m)) (e.off + 4 + o),
     formIf (decide (e.budget m < quantaOf (p.minBudget m e))) (e.off + 1 + o),
     formIf (decide (lim < e.ends m)) (e.off + 1 + o)])

def gateChecks (p : Plan) (e : Ent) : List Check :=
  e.x.gates.flatMap (fun g =>
    let ys := p.peers e g.1
    [formIf (decide (ys.length < g.2)) (e.off + 24),
     formIf ((ys.take g.2).any (fun y => modes.any (fun m => decide (e.launch m < y.ends m + vQuanta g.1 e.stream)))) (e.off + 24)])

/-! ### Bank intervals (R124, R125) -/

/-- The owner code that an action needs of the banks it accesses. -/
def Ent.needs (e : Ent) : Nat :=
  if e.isCube then ownFeeder
  else if e.ty = 0x22 || e.ty = 0x23 then ownVector
  else if e.isDray then ownDray (e.stream - 544)
  else ownExchange

/-- The memories that an action accesses. -/
def Plan.banks (p : Plan) (e : Ent) : List (Nat × Nat) :=
  (entryBanks p.s e.stream e.x ++ (if e.ty = 0x22 then (p.vecTouches e).flatMap (fun t => tileBanks e.stream t.lo t.n) else [])).dedup

def Plan.openers (p : Plan) (deg : Bool) (epoch l b : Nat) : List (Nat × Nat × Nat) := Machine.openers p.img (p.job epoch deg) l b

def bankChecks (p : Plan) (e : Ent) : List Check :=
  if e.ty = 0x24 then
    modes.map (fun m => formIf ((p.peers e e.stream).any (fun y => y.ty == 0x24 && decide (y.idx < e.idx) && y.launch m == e.launch m)) (e.off + (if m then 12 else 4)))
  else modes.flatMap (fun m => ((p.banks e).filter (fun a => decide (a.2 < 4))).flatMap (fun a =>
    let os := p.openers m e.x.epoch a.1 a.2
    let next := (os.filter (fun o => decide (e.launch m < o.2.1))).head?
    [formIf (match intervalAt os (e.launch m) with | none => true | some o => o.2.2 ≠ e.needs) (e.off + 64),
     formIf (match next with | none => false | some o => decide (o.2.1 < e.ends m + vQuanta e.stream a.1)) (e.off + (if m then 9 else 1)),
     formIf (match (intervalAt os (e.launch m)).bind (fun o => (p.peers e a.1).find? (fun g => g.idx == o.1)) with
       | none => false
       | some g => decide (e.launch m < g.ends m + vQuanta a.1 e.stream)) (e.off + (if m then 12 else 4))]))

/-! ### Cube operations of one tile (R42, R71, R78, R84) -/

/-- What one cube holds in the epoch: slices of its panel, and the anchor of its sums. -/
structure Held where
  slices : Option Nat := none
  anchor : Int := 0
  deriving Inhabited

/-- The state of a cube before an operation of its stream. -/
def heldBefore (ops : List CubeDesc) (k : Nat) : Held :=
  ops.foldl (fun h c => if bit c.cubeMask k then { slices := if c.panelLoad then some c.steps else h.slices, anchor := c.anchor } else h) {}

/-- A time in thirds of a ns: a launch and compute cycles at 1.50 GHz. -/
def thirds (launch cyc : Nat) : Nat := 12 * launch + 2 * cyc

/-- An implicit gate of R84 on an earlier operation `y` of the tile is not met at the planned launch of `e`. -/
def cubeGateBad (deg : Bool) (y e : Ent) : Bool :=
  let cy := cubeDesc y.x.desc
  let ce := cubeDesc e.x.desc
  let t := thirds (e.launch deg) 0
  let fin := thirds (y.launch deg) (cubeEnd cy + 20)
  let reads := [oneBank (streamSpans ce), oneBank (panelSpans ce)]
  decide (t < thirds (y.launch deg) (lastIssue cy + 1 + 20)) ||
  (cy.drain && (((oneBank (destSpans cy)).isSome && reads.elem (oneBank (destSpans cy)) && decide (t < fin)) ||
    decide (thirds (e.launch deg) (updateAt ce 0 + 13) < fin)))

def cubeChecks (p : Plan) (e : Ent) : List Check :=
  if !e.isCube then []
  else
    let c := cubeDesc e.x.desc
    let earlier := (p.peers e e.stream).filter (fun y => y.isCube && decide (y.idx < e.idx))
    let ops := earlier.map (fun y => cubeDesc y.x.desc)
    let held := fun (k : Nat) => heldBefore ops k
    [badField e 0 8 stFormat (c.cubes.any (fun k => (held k).slices.isNone && !(c.panelLoad && c.accInit))),
     badField e 0 18 stFormat (!c.panelLoad && c.cubes.any (fun k => match (held k).slices with | some n => decide (n < c.steps) | none => false)),
     badField e 1 54 stFormat (!c.accInit && c.cubes.any (fun k => (held k).slices.isSome && decide ((held k).anchor ≠ c.anchor)))] ++
    modes.map (fun m => formIf (earlier.any (fun y => cubeGateBad m y e)) (e.off + (if m then 12 else 4)))

/-! ### The order of actions (R128) -/

/-- The entries that complete before an entry launches, by its gates: explicit (R159), of bank ownership (R125), and of earlier
drains that a cube operation reads (R84). -/
def Plan.waits (p : Plan) (e : Ent) : List Nat :=
  let ex := e.x.gates.flatMap (fun g => ((p.peers e g.1).take g.2).map Ent.key)
  let im :=
    if e.ty = 0x24 then
      (List.range 4).flatMap (fun b =>
        let os := p.openers false e.x.epoch e.stream b
        if os.any (fun o => o.1 == e.idx) then
          match (os.filter (fun o => decide (o.1 < e.idx))).getLast? with
          | some o => ((p.inEpoch e.x.epoch).filter (fun y => (p.banks y).elem (e.stream, b) &&
              (match intervalAt os (y.launch false) with | some i => i.1 == o.1 | none => false))).map Ent.key
          | none => []
        else [])
    else ((p.banks e).filter (fun a => decide (a.2 < 4))).filterMap (fun a =>
      (intervalAt (p.openers false e.x.epoch a.1 a.2) (e.launch false)).map (fun o => a.1 * 2 ^ 20 + o.1))
  let dr := if e.isCube then
      let c := cubeDesc e.x.desc
      let reads := [oneBank (streamSpans c), oneBank (panelSpans c)]
      ((p.peers e e.stream).filter (fun y => y.isCube && decide (y.idx < e.idx) && (cubeDesc y.x.desc).drain &&
        (oneBank (destSpans (cubeDesc y.x.desc))).isSome && reads.elem (oneBank (destSpans (cubeDesc y.x.desc))))).map Ent.key
    else []
  (ex ++ im ++ dr).dedup

/-- The entry before one in its stream, which launches before it. -/
def Ent.prev (e : Ent) : Option Nat := if e.idx = 0 then none else some (e.key - 1)

/-- Rounds of an order: what stands before each entry, and the entries that are left, which form a cycle if no round takes any.
`byStream` tells whether an entry counts as ordered after its stream's earlier ones (R128), or only after what gates make complete
before it launches. -/
def orderRounds (byStream : Bool) (ws : List (Nat × Option Nat × List Nat)) : Nat → Tbl NatSet → Tbl NatSet × List (Nat × Option Nat × List Nat)
  | 0, done => (done, ws.filter (fun w => (tblGet? done w.1).isNone))
  | n + 1, done =>
    let ready := ws.filter (fun w => (tblGet? done w.1).isNone && w.2.2.all (fun k => (tblGet? done k).isSome) &&
      (match w.2.1 with | some k => (tblGet? done k).isSome | none => true))
    if ready.isEmpty then (done, ws.filter (fun w => (tblGet? done w.1).isNone))
    else orderRounds byStream ws n (ready.foldl (fun t w =>
      let base := match w.2.1 with | some k => if byStream then setIns k (tblGet [] t k) else tblGet [] t k | none => []
      tblSet w.1 (w.2.2.foldl (fun s k => setIns k ((tblGet [] t k).foldl (fun s i => setIns i s) s)) base) t) done)

/-- The entries of one epoch with their predecessors: of the stream, and by gates. -/
def Plan.links (p : Plan) (epoch : Nat) : List (Nat × Option Nat × List Nat) := (p.inEpoch epoch).map (fun e => (e.key, e.prev, p.waits e))

/-- The order of one epoch's entries (R128): a chain of gates and stream order (log 55). -/
def Plan.order (p : Plan) (epoch : Nat) : Tbl NatSet × Bool :=
  let ws := p.links epoch
  let r := orderRounds true ws ws.length []
  (r.1, r.2.isEmpty)

/-- What gates make complete before each entry of an epoch launches. -/
def Plan.gated (p : Plan) (epoch : Nat) : Tbl NatSet :=
  let ws := p.links epoch
  (orderRounds false ws ws.length []).1

/-- `a` is ordered before `b` (R128). -/
def ordered (o : Tbl NatSet) (a b : Ent) : Bool :=
  (a.stream == b.stream && decide (a.idx < b.idx)) || setHas (tblGet [] o b.key) a.key

/-! ### Granules, exchange writes and inputs (R128, R131, R173) -/

/-- The touches of an entry with the entry. -/
def Plan.allTouches (p : Plan) (es : List Ent) : List (Ent × Touch) := es.flatMap (fun e => (p.touches e).map (fun t => (e, t)))

/-- A read of tile bytes of which some granule has not been written by an action ordered before it. -/
def granuleBad (o : Tbl NatSet) (all : List (Ent × Touch)) (r : Ent × Touch) : Bool :=
  let ws := all.filter (fun w => w.2.write && w.2.tile == r.2.tile && ordered o w.1 r.1)
  !(ws.foldl (fun l w => cutRange (w.2.lo / 64) ((w.2.lo + w.2.n - 1) / 64 + 1) l) [(r.2.lo / 64, (r.2.lo + r.2.n - 1) / 64 + 1)]).isEmpty

/-- What of a read of the UMR is an input of the epoch: bytes that no action ordered before the reader has written. -/
def inputsOf (o : Tbl NatSet) (all : List (Ent × Touch)) (r : Ent × Touch) : List (Nat × Nat) :=
  let ws := all.filter (fun w => w.2.write && w.2.tile.isNone && ordered o w.1 r.1)
  ws.foldl (fun l w => cutRange w.2.lo (w.2.lo + w.2.n) l) [(r.2.lo, r.2.lo + r.2.n)]

/-- Writes by the in-out streams of an update action, which R119 restores. -/
def Plan.restored (p : Plan) (w : Ent × Touch) : Bool :=
  w.1.ty == 0x23 && (uStreams (p.table w.1)).any (fun u => u.inOut &&
    (let a := updRange w.1.x.desc u.base u.size
     let b := updRange w.1.x.desc u.scaleBase 1
     (w.2.lo == a.1 && w.2.n == a.2) || (u.out.isMx && w.2.lo == b.1 && w.2.n == b.2)))

def dataChecks (p : Plan) (epoch : Nat) : List Check :=
  let es := p.inEpoch epoch
  let (o, acyclic) := p.order epoch
  let all := p.allTouches es
  let tileReads := all.filter (fun t => !t.2.write && t.2.tile.isSome)
  let exch := all.filter (fun t => t.2.write && t.2.tile.isSome && decide (0x180000 < t.2.lo + t.2.n))
  let umrReads := all.filter (fun t => !t.2.write && t.2.tile.isNone)
  let umrWrites := all.filter (fun t => t.2.write && t.2.tile.isNone && !p.restored t)
  let inputs := umrReads.flatMap (inputsOf o all)
  let g := p.gated epoch
  let loose := fun (a b : Ent) => a.key ≠ b.key && !setHas (tblGet [] g b.key) a.key && !setHas (tblGet [] g a.key) b.key
  let upd := es.filter (fun e => e.ty == 0x23)
  let tier := es.filter Ent.isTier
  [formIf (!acyclic) noField] ++
  tileReads.map (fun r => formIf (granuleBad o all r) (r.1.off + 64)) ++
  exch.map (fun a => formIf (exch.any (fun b => loose a.1 b.1 && a.2.tile == b.2.tile &&
    overlap (max a.2.lo 0x180000) (a.2.lo + a.2.n - max a.2.lo 0x180000) (max b.2.lo 0x180000) (b.2.lo + b.2.n - max b.2.lo 0x180000))) (a.1.off + 64)) ++
  umrWrites.map (fun w => formIf (inputs.any (fun i => overlap i.1 (i.2 - i.1) w.2.lo w.2.n)) (w.1.off + 64)) ++
  -- R118: ranges that update actions share need a gate between them, and no in-out stream there.
  upd.flatMap (fun a => upd.map (fun b => formIf (a.key ≠ b.key &&
    (updPinned a.x.desc (p.table a)).any (fun w => w.2.2.2 && (updPinned b.x.desc (p.table b) ++ updMap b.x.desc).any (fun r => overlap w.1 w.2.1 r.1 r.2.1 &&
      (loose a b || (w.2.2.1 && w.2.2.2) || (r.2.2.1 && r.2.2.2))))) (a.off + 64))) ++
  tier.flatMap (fun a => tier.map (fun b => formIf (a.ty ≠ 0x3C && b.ty ≠ 0x3C && loose a b &&
    meets (wf (wd a.x.desc 0) 63 42, wf (wd a.x.desc 0) 41 28 + 1) (wf (wd b.x.desc 0) 63 42, wf (wd b.x.desc 0) 41 28 + 1)) (a.off + 64)))

/-! ### The whole image (Table 06-7) -/

/-- Checks of one entry. -/
def formChecks (p : Plan) (e : Ent) : List Check :=
  if e.isCube then cubeForm e
  else if e.ty = 0x22 then vecForm p e
  else if e.ty = 0x23 then updForm p e
  else if e.ty = 0x24 then grantForm p e
  else if e.isDray then drayForm p e
  else if e.isTier then tierForm p e
  else if e.isColl then
    let o := (p.order e.x.epoch).1
    let before := (p.inEpoch e.x.epoch).filter (fun y => ordered o y e)
    collForm p e (before.map (fun y => (y, before.filter (fun z => ordered o y z))))
  else []

/-- The largest slack of the image in quanta. -/
def maxSlack (i : Image) : Nat := (i.epochs.flatMap (fun e => e.segs.flatMap (fun g => [g.slackNom, g.slackDeg]))).foldl max 0

/-- R_min (R455) in quanta. -/
def Plan.minRecovery (p : Plan) : Nat :=
  let sums := p.epochs.flatMap (fun e => ((p.inEpoch e).map Ent.stream).dedup.map (fun st => sumF (((p.inEpoch e).filter (fun y => y.stream == st)).map p.restoreTime)))
  quantaOf (addF (ns 40000) (sums.foldl maxF (ns 0)))

/-- Frames of a die that the replaced image gives up (R163). -/
def framesGiven (s : State) (p addr len die : Nat) : Nat :=
  match (partOf s p).image with
  | none => 0
  | some i => ((extsOf i.addr i.len).filter (fun x => (extOf s x).pin == some p && (extOf s x).die == die && !(extsOf addr len).elem x)).length

/-- Free held frames that pinning the image's extents takes, on a die (R154, R237). -/
def framesNeeded (s : State) (p addr len die : Nat) : Nat :=
  ((extsOf addr len).filter (fun x => (extOf s x).pin ≠ some p && imageDie s x == die)).length

/-- The streams of the image against the partition's resources (R28, R92). -/
def streamChecks (p : Plan) (st : Nat) : List Check :=
  let off := ((p.ents.find? (fun e => e.stream == st)).map Ent.off).getD 0
  [(decide (streamPart p.s st ≠ some p.p), stQuota, off + 22), (decide (st < 544) && (physOf p.s st).isNone, stState, off + 22)]

def imageChecks (p : Plan) : List Check :=
  let i := p.img
  let q := partOf p.s p.p
  let lens := modes.map (fun m => (i.epochs.map (lenOf · m)).sum)
  let extentsOk := decide (i.addr + i.len ≤ umrEnd) && inPart q i.addr i.len
  [formIf (decide (i.holdQuantum < i.holdLead + maxSlack i)) 17, formIf (decide (i.recovery < p.minRecovery)) 24,
   formIf (i.service && lens.any (fun l => decide (i.slotNum / (4 * i.slotDen) < l))) 34] ++
  p.ents.flatMap (formChecks p) ++ p.ents.flatMap (placeChecks p) ++ p.ents.flatMap (gateChecks p) ++ p.ents.flatMap (bankChecks p) ++
  p.ents.flatMap (cubeChecks p) ++ p.epochs.flatMap (dataChecks p) ++
  [(!extentsOk, stRegion, 8), (i.service && decide (queuePart p.s i.svcQueue ≠ some p.p), stQuota, 46)] ++
  (usedStreams i).flatMap (streamChecks p) ++
  [(p.overQuota || (List.range 4).any (fun d => decide ((q.held.getD d []).length + framesGiven p.s p.p i.addr i.len d < framesNeeded p.s p.p i.addr i.len d)), stQuota, noField),
   (q.job.isSome, stState, noField), (ringInRange p.s i.addr i.len, stState, noField)]

end Sys2Proof.Machine
end

