-- ==== Sys2Proof/Machine/SlateInstall.lean ====
section
/-! DEFINITION. SLATE_INSTALL: the checks in their stages, the pins and the installed image (R154, R162, R163, R365, R386). -/

namespace Sys2Proof.Machine

/-- The Caboose reads memory on the coherent path (Table 09-1): dirty lines and pending direct writes of the range reach
memory first. -/
def settleRange (a n : Nat) (s : State) : State :=
  let s1 := ((s.dir.filter (fun e => e.2.dirty && overlap (e.1 * 64) 64 a n)).map (·.1)).foldl (fun s l => writeBackLine l s) s
  ((s1.homes.filter (fun h => h.2.dbuf.any (fun w => overlap w.addr w.data.length a n))).map (·.1)).foldl
    (fun s u => drainHome u (fun w => overlap w.addr w.data.length a n) s) s1

/-- The epochs, streams and entries that the tables of an image hold. -/
def epochsOf (s : State) (a : Nat) (h : Header) : List EpochRow := (List.range h.nEpochs).map (fun e => epochOf s a (h.epochOff + 16 * e))
def usedDirs (s : State) (a : Nat) (h : Header) : List Nat := (List.range 600).filter (fun st => decide ((dirOf s a h.dirOff st).2 ≠ 0))
def allEnts (s : State) (a : Nat) (h : Header) : List Ent := (usedDirs s a h).flatMap (entsOf s a h.dirOff)

/-- The request buffers that a Slate action reads or writes (R365). -/
def bufUses (es : List Ent) : List (Bool × Bool) :=
  let specs := (es.filter Ent.isDray).flatMap (fun e => (usedSpecs e.x.desc).filter (fun v => specSpace v.2.1 = 3))
  (List.range 4).map (fun k => (specs.any (fun v => fld v.2.1 61 60 == k && !v.2.2.2.1), specs.any (fun v => fld v.2.1 61 60 == k && v.2.2.2.1)))

/-- The image at an address, as its tables give it. -/
def imageOf (s : State) (a : Nat) (h : Header) : Image :=
  let es := allEnts s a h
  { addr := a, len := h.len, service := h.mode == 1, members := h.members, seed := h.seed, nEpochs := h.nEpochs,
    holdQuantum := h.quantum, holdLimit := h.limit, holdLead := h.lead, recovery := h.recovery, slotNum := h.slotNum,
    slotDen := if h.mode = 1 then h.slotDen else 1, svcQueue := h.svcQueue, bindLead := h.bindLead, epochs := epochsOf s a h,
    streams := (usedDirs s a h).map (fun st => (st, (es.filter (fun e => e.stream == st)).map Ent.x)),
    utabs := (List.range h.nUtab).map (fun k => iws s a (h.utabOff + 384 * k) 48), digest := [], bufUse := bufUses es }

/-- The failed check of form at the lowest offset. -/
def pickLow (cs : List Check) : Option (Nat × Nat) :=
  match cs.filter (·.1) with
  | [] => none
  | c :: t => some (c.2.1, t.foldl (fun m x => min m x.2.2) c.2.2)

/-- The checks by stages: each later one reads what the earlier ones have found to be in its place. Every check of the first
four is of form, whose status is the lowest. -/
def installFails (s : State) (p a len : Nat) : Option (Nat × Nat) :=
  let h := headerOf (iws s a 0 16)
  if a % 128 ≠ 0 then some (stFormat, 8)
  else if h.len ≠ len then some (stFormat, 16)
  else match pickLow (headerChecks p len (iws s a 0 16)) with
  | some r => some r
  | none =>
    match pickLow ((List.range h.nEpochs).flatMap (fun e => epochChecks s a len (h.epochOff + 16 * e)) ++
        (List.range 600).flatMap (dirChecks s a len h.dirOff)) with
    | some r => some r
    | none =>
      match pickLow ((usedDirs s a h).flatMap (fun st => (rawEntries s a h.dirOff st).flatMap (fun r => entryChecks (epochsOf s a h) st r.1 r.2)) ++
          (usedDirs s a h).flatMap (fun st => orderChecks (epochsOf s a h) (entsOf s a h.dirOff st))) with
      | some r => some r
      | none =>
        if !partExists s p then some (stState, 7)
        else pick (imageChecks (planOf s p (imageOf s a h) (allEnts s a h)))

/-! ### Pins (R154, R163, R237)

A replaced image gives its pins up to the image that replaces it: the frames that its extents leave to the pool count as free
held frames of the partition (log 40). -/

/-- The extents of the replaced image that the new one does not keep become pool extents in place. -/
def unpinImage (p : Nat) (keep : List Nat) (s : State) : State × List Nat :=
  match (partOf s p).image with
  | none => (s, [0, 0, 0, 0])
  | some i => (extsOf i.addr i.len).foldl (fun r x =>
    let e := extOf r.1 x
    if keep.elem x || e.pin ≠ some p then r
    else (setExt x { e with pin := none } r.1, setAt r.2 e.die (r.2.getD e.die 0 + 1))) (s, [0, 0, 0, 0])

/-- An extent of the image that is in HBM is pinned in place: its frame stands for one that the pool owes, or it becomes held
and a free held frame passes to the pool. -/
def pinHere (p : Nat) (r : State × List Nat) (x : Nat) : State × List Nat :=
  let e := extOf r.1 x
  if e.st ≠ .hbm || e.pin.isSome then r
  else if 0 < r.2.getD e.die 0 then
    (setExt x { e with pin := some p, stamp := now r.1 / 1000 } r.1, setAt r.2 e.die (r.2.getD e.die 0 - 1))
  else ((pinInPlace p x r.1).getD r.1, r.2)

/-- An extent of the image that is not in HBM becomes resident and pinned on CD(x mod 4). -/
def pinFetched (p : Nat) (s : State) (x : Nat) : State :=
  let e := extOf s x
  if e.st == .hbm then s
  else
    let s1 := if e.st == .demoting then commitFlash x (settleExtent x s) else s
    let s2 := if e.st == .flash then s1 else releaseFrame e s1
    let s3 := if e.st == .demoting then s2 else (List.range 512).foldl (fun s k => arrayRead x k s) s2
    match takeHeldFrame p (x % 4) s3 with
    | some (f, s4) =>
      let y : Ext := { extOf s4 x with st := .hbm, die := x % 4, frame := f, pin := some p, dirty := 0, copying := 0, retained := true, passes := 0, doing := none, stamp := now s4 / 1000 }
      releaseHeld x (tierDrain x (setExt x y s4))
    | none => s3

/-- The pins move from the image that is replaced to the new one, and the quota's frames are made up. -/
def movePins (p : Nat) (xs : List Nat) (s : State) : State :=
  let (s1, owed) := xs.foldl (pinHere p) (unpinImage p xs s)
  xs.foldl (pinFetched p) ((List.range 4).foldl (fun s d => withdraw p d (owed.getD d 0) s) s1)

/-- The sequencers of the new image (R169): a unit whose stream the image does not use has no sequencer at work and stays IDLE
(log 56). -/
def installSeqs (p : Nat) (streams : List Nat) (s : State) : State :=
  let s1 := { s with seqs := s.seqs.filter (fun e => decide (e.2.part ≠ p)) }
  streams.foldl (fun s st => setSeq st { st := .installed, part := p } s) s1

/-- The image with the memories that each vector program accesses (R124). -/
def withBanks (p : Plan) : Image :=
  { p.img with streams := p.img.streams.map (fun r => (r.1, (p.ents.filter (fun e => e.stream == r.1)).map (fun e =>
      if e.ty = 0x22 then { e.x with banks := ((p.vecTouches e).flatMap (fun t => banksOf t.lo t.n)).dedup } else e.x))) }

/-- An image that passed every check is installed (R154, R163). -/
def installImage (p a len : Nat) (s : State) : State :=
  let h := headerOf (iws s a 0 16)
  let i := withBanks (planOf s p (imageOf s a h) (allEnts s a h))
  let img : Image := { i with digest := sha384 (peek s a len) }
  let s2 := movePins p (extsOf a len) s
  tierRetry (installSeqs p (usedStreams img) (setPart p { partOf s2 p with image := some img } s2))

/-- An image that does not lie in the backed UMR: what of its header lies there may still break a check of form (R8). -/
def outsideUmr (p a len : Nat) (s : State) : Reply :=
  let h := iws s a 0 16
  if umrEnd < a + 128 then rejected stRegion 8
  else if (headerOf h).len ≠ len then rejected stFormat 16
  else match pickLow (headerChecks p len h) with
    | some (st, d) => rejected st d
    | none => rejected stRegion 8

/-- SLATE_INSTALL. -/
def cmdSlateInstall : Cmd := fun _ _ w s =>
  let p := wf (wd w 0) 63 60
  let a := wf (wd w 1) 55 0
  let len := wf (wd w 2) 39 0
  if a % 128 ≠ 0 then (rejected stFormat 8, s)
  else if umrEnd < a + len then (outsideUmr p a len (settleRange a 128 s), s)
  else
    let s1 := settleRange a len s
    match installFails s1 p a len with
    | some (st, d) => (rejected st d, s1)
    | none => (ok (wordsOf (sha384 (peek s1 a len))), installImage p a len s1)

end Sys2Proof.Machine
end

