-- ==== Sys2Proof/Machine/Power.lean ====
section
/-! DEFINITION. The power controller: control intervals, points, the floor, throttling, guardbands
(R424, R427 to R439). -/

namespace Sys2Proof.Machine

/-! ### Allowances (Table 16-3, R431, R432) -/

/-- A share's fraction of the cap in thousandths: compute dies, processor dies, HBM, link dies, hub dies, reserve. -/
def shareFraction (k : Nat) : Nat := [145, 145, 145, 145, 50, 50, 140, 80, 50, 50].getD k 0

/-- A share's allowance in mW, with the excess in mW that R432 takes from the compute and processor dies. -/
def shareAllowance (cap excess k : Nat) : Nat :=
  let a := cap * shareFraction k
  if k < 6 then a - excess * shareFraction k / 680 else a

/-- A domain's allowance in mW: a processor die's is shared by its 12 clusters. -/
def domAllowance (cap excess a : Nat) : Nat :=
  if a < 4 then shareAllowance cap excess a else shareAllowance cap excess (4 + (a - 4) / 12) / 12

/-- The die of a domain. -/
def domDie (a : Nat) : Nat := if a < 4 then a else 4 + (a - 4) / 12

/-- target_point of R432 before the floor of R433 and the clamp: `mean` in W. -/
def freeTarget (d : Dom) (mean allowance : Nat) : Nat :=
  let t := if allowance < mean * 1000 then d.point - 1 else if mean * 100000 < 95 * allowance then d.point + 1 else d.point
  min (min t d.highest) d.limit

/-- The point that a domain targets. -/
def targetPoint (compute runs : Bool) (d : Dom) (mean allowance : Nat) : Nat :=
  let t := freeTarget d mean allowance
  min 15 (if compute && runs then max t 9 else t)

/-- One point towards the target. -/
def oneStep (p t : Nat) : Nat := if t < p then p - 1 else if p < t then p + 1 else p

/-! ### Thermal limits (R434, R436) -/

/-- A die's sensors have read below 102 °C, and its stacks below 92 °C, for the whole interval that ends at `b`. -/
def coolWhole (s : State) (die b : Nat) : Bool :=
  let since := fun (t : Tbl Nat) (k : Nat) => match tblGet? t k with
    | some x => decide (x + 250000 ≤ b)
    | none => false
  since s.thermal.coolSince die && (decide (4 ≤ die) || (List.range 4).all (fun i => since s.thermal.stackCool (4 * die + i)))

/-- The thermal limit at a boundary, and whether the floor holds it (R434). -/
def nextLimit (s : State) (a b : Nat) (runs : Bool) (d : Dom) : Dom × Bool :=
  if coolWhole s (domDie a) b then ({ d with throttled := false, limit := min 15 (d.limit + 1) }, false)
  else if d.throttled then
    if a < 4 && runs && d.point ≤ 9 then ({ d with limit := 9 }, true) else ({ d with limit := d.point - 1 }, false)
  else (d, false)

/-! ### CONTROL_INTERVAL -/

/-- A change of point completes (R429). -/
def settlePoint (d : Dom) : Dom := { d with point := d.target.getD d.point, target := none }

/-- The next boundary: a multiple of 250 µs after the last (R431). -/
def boundary (s : State) : Nat :=
  let b := roundUp (now s) 250000
  if b ≤ s.power.lastInterval then s.power.lastInterval + 250000 else b

/-- A new cap takes effect, and the POWER_SET that set it is answered (R430). -/
def applyCap (s : State) : State :=
  let p := s.power
  let s1 := { s with power := { p with cap := p.newCap.getD p.cap, newCap := none, capReply := none } }
  match p.capReply with
  | some (ch, seq, n) => finishDeferred ch 0x0080 seq { status := stDone, flags := if n = 0 then 0 else 2, clamps := n } s1
  | none => s1

/-- A domain at the boundary: its limit, its target and its step. The flags: held at the floor by the cap, by the thermal
limit. -/
def stepDom (s : State) (m : PowerSample) (b : Nat) (runs : Bool) (a : Nat) : Dom × Bool × Bool :=
  let (d, hot) := nextLimit s a b runs (settlePoint (domOf s a))
  let mean := m.domains.getD a 0
  let al := domAllowance s.power.cap s.power.excess a
  let t := targetPoint (decide (a < 4)) runs d mean al
  let d1 := { d with target := if oneStep d.point t = d.point then none else some (oneStep d.point t) }
  (d1, decide (a < 4) && runs && decide (al < mean * 1000) && decide (d.point ≤ 9), hot)

/-- EV_CAP_FLOOR: the floor is held (R433, R434), or a job ended at the maximum input (R435). -/
def capFloorEvent (unit which : Nat) (s : State) : State :=
  raiseEvent evCapFloor unit (causeOf evCapFloor which) { s with power := { s.power with capFloor := true } }

def throttleEvent (die : Nat) (s : State) : State :=
  raiseEvent evThermThrottle die (causeOf evThermThrottle 0) { s with thermal := { s.thermal with flag := true } }

/-- Every actuated domain at the boundary: steps, and what each held floor raises and counts. -/
def stepDoms (m : PowerSample) (b : Nat) (runs : Bool) (s : State) : State :=
  let rs := (List.range 28).map (fun a => (a, stepDom s m b runs a))
  let s1 := rs.foldl (fun s r => setDom r.1 r.2.1 s) s
  let s2 := rs.foldl (fun s r => if r.2.2.1 then capFloorEvent r.1 0 s else s) s1
  let s3 := rs.foldl (fun s r => if r.2.2.2 then capFloorEvent r.1 0 (throttleEvent r.1 s) else s) s2
  let s4 := if rs.any (fun r => r.2.2.1) then bump 0x030B 0 1 s3 else s3
  let s5 := if rs.any (fun r => r.2.2.2) then bump 0x030C 0 1 s4 else s4
  { s5 with power := { s5.power with floored := rs.any (fun r => r.2.2.1 || r.2.2.2) } }

/-- Holding the floor would exceed 3,600 W: every open job ends ABORTED_POWER with its record (R435). -/
def maxInputStop (m : PowerSample) (s : State) : State :=
  if s.power.floored && decide (3600 < m.inputMs) && anyJob s then
    let s1 := haltJobs stPower true s
    capFloorEvent 0 1 { s1 with power := { s1.power with maxInput := true } }
  else s

/-- Dies that have been cool for a whole interval are no longer hot. -/
def coolDown (b : Nat) (s : State) : State :=
  let th := s.thermal
  { s with thermal := { th with hot := th.hot.filter (fun d => match tblGet? th.coolSince d with | some t => decide (b < t + 250000) | none => true)
                                last := th.peak
                                peak := th.tj } }

/-- CONTROL_INTERVAL (R431 to R436): the interval that has ended is compared, the figures are taken, and the excess passes to the
next one. -/
def intervalEffect (m : PowerSample) (s : State) : State :=
  if s.bu.state ≠ 1 then s
  else
    let b := boundary s
    let s1 := applyCap (advance b s)
    let al := (List.range 10).map (shareAllowance s1.power.cap s1.power.excess)
    let drawn := m.shares.getD 6 0 + m.shares.getD 7 0 + m.shares.getD 8 0
    let room := al.getD 6 0 + al.getD 7 0 + al.getD 8 0 + al.getD 9 0
    let s2 := coolDown b (maxInputStop m (stepDoms m b (anyJob s1) s1))
    { s2 with power := { s2.power with allow := al.map (· / 1000), mean := m.shares, input := m.inputMean, vin := m.millivolts
                                       excess := drawn * 1000 - room, lastInterval := b } }

def execControlInterval (m : PowerSample) (s : State) : Host.Outcome State Fault Refusal := onWf (.controlInterval m) (intervalEffect m s)

/-- POINT_CHANGE_COMPLETE (R429). -/
def pointEffect (a : Nat) (s : State) : State := if (domOf s a).target.isSome then setDom a (settlePoint (domOf s a)) s else s

def execPointChangeComplete (a : Nat) (s : State) : Host.Outcome State Fault Refusal := onWf (.pointChangeComplete a) (pointEffect a s)

/-! ### THERMAL_SAMPLE (R189, R436) -/

/-- Since when a reading has stayed below its release level. -/
def trackCool (lim : Int) (t : Nat) (vs : List Int) (old : Tbl Nat) : Tbl Nat :=
  (List.range vs.length).foldl (fun o k =>
    if vs.getD k 0 < lim then (if (tblGet? o k).isSome then o else tblSet k t o) else tblDel k o) old

/-- Throttling starts on the domains of a die; the event is raised when it starts. -/
def throttleDie (s : State) (die : Nat) : State :=
  let doms := (List.range 28).filter (fun a => domDie a == die)
  if die < 6 then
    if doms.all (fun a => (domOf s a).throttled) then s
    else throttleEvent die (doms.foldl (fun s a => setDom a { domOf s a with throttled := true } s) s)
  else throttleEvent die s

def thermalEffect (tj temps : List Int) (s : State) : State :=
  if s.bu.state ≠ 1 then s
  else
    let s1 := advance (roundUp (now s + 1) 10000) s
    let t := now s1
    let th := s1.thermal
    let hot := (List.range 12).filter (fun d => decide (1050 ≤ tj.getD d 0))
    let o95 := (List.range 16).filter (fun m => decide (950 < temps.getD m 0))
    let fresh := hot.filter (fun d => !setHas th.hot d) ++ (o95.filter (fun m => !setHas th.over95 m)).map (· / 4)
    let peak := (List.range 12).map (fun d => max (tj.getD d 0) (th.peak.getD d (tj.getD d 0)))
    let s2 := { s1 with thermal := { th with
      tj := tj
      temps := temps
      peak := peak
      hot := hot.foldl (fun l d => setIns d l) th.hot
      over95 := o95
      over85 := (List.range 16).filter (fun m => decide (850 < temps.getD m 0))
      coolSince := trackCool 1020 t tj th.coolSince
      stackCool := trackCool 920 t temps th.stackCool } }
    fresh.dedup.foldl throttleDie s2

def execThermalSample (tj temps : List Int) (s : State) : Host.Outcome State Fault Refusal := onWf (.thermalSample tj temps) (thermalEffect tj temps s)

/-! ### Guardbands and clock stretch (R424, R438, R439) -/

def guardOf (s : State) (die : Nat) : Nat := tblGet 15 s.power.guard die

/-- A guardband rises in steps of 5 mV up to 45 mV, and is recorded. -/
def raiseGuard (die mv : Nat) (s : State) : State :=
  let g := min 45 (roundUp mv 5)
  if g ≤ guardOf s die then s
  else recordEntry { kind := recGuardband, a := die, b := g } { s with power := { s.power with guard := tblSet die g s.power.guard } }

/-- A point of a domain has no margin at 45 mV: it and those above it are lost; a compute die below point 9 is marked failed. -/
def losePoint (die a p : Nat) (s : State) : State :=
  let d := domOf s a
  if guardOf s die < 45 || domDie a ≠ die || d.highest < p then s
  else
    let s1 := recordEntry { kind := recPoint, a := a, b := p - 1 } (setDom a { d with highest := p - 1 } s)
    if a < 4 && p - 1 < 9 then recordEntry { kind := recDie, a := die } s1 else s1

def guardEffect (die : Nat) (m : Margin) (s : State) : State :=
  if s.bu.state ≠ 1 then s
  else match m with
  | .raise mv => raiseGuard die mv s
  | .lost a p => losePoint die a p s

def execGuardbandRaise (die : Nat) (m : Margin) (s : State) : Host.Outcome State Fault Refusal := onWf (.guardbandRaise die m) (guardEffect die m s)

/-- CLOCK_STRETCH: a droop stretches a cluster's clock by at most 8 %; 0 ends it. -/
def stretchEffect (c pc : Nat) (s : State) : State :=
  if s.bu.state ≠ 1 || 8 < pc then s
  else { s with power := { s.power with stretch := if pc = 0 then tblDel c s.power.stretch else tblSet c pc s.power.stretch } }

def execClockStretch (c pc : Nat) (s : State) : Host.Outcome State Fault Refusal := onWf (.clockStretch c pc) (stretchEffect c pc s)

end Sys2Proof.Machine
end

