-- ==== Sys2Proof/Machine/QuartzOps.lean ====
section
/-! DEFINITION. The Quartz: lock and loss of its references, timing symbols, 1PPS, and the QTZ_ registers that act
(R147 to R153, R330, R466, R467, R479, R480). -/

namespace Sys2Proof.Machine

def modQuartz (f : Quartz → Quartz) (s : State) : State := { s with quartz := f s.quartz }

/-- A holdover interval ends and is recorded (R152). -/
def endHoldover (s : State) : State :=
  match s.quartz.holdoverSince with
  | some t => modQuartz (fun q => { q with holdoverTotal := q.holdoverTotal + (now s - t), holdoverSince := none }) s
  | none => s

/-- The rate word is steered, within ±50 ppm of nominal; the manual gives no loop, so its value is free (R151; log 32). -/
def steer (s : State) : State :=
  let (v, s1) := draw s
  modQuartz (fun q => { q with rate := 0x400000000 - 858993 + v.toNat % 1717987 }) s1

/-- Holdover begins: the counter keeps its last rate word (R152). -/
def toHoldover (s : State) : State :=
  if s.quartz.state == .localRef || s.quartz.state == .consist then
    modQuartz (fun q => { q with state := .holdover, holdoverSince := some q.now, consistSince := none }) s
  else s

/-- QREF is valid: FREE becomes LOCAL, and so does a holdover whose reference QREF is (Table 06-1). -/
def qrefLockEffect (s : State) : State :=
  let s1 := modQuartz (fun q => { q with qref := true }) s
  if s.quartz.state == .free || (s.quartz.state == .holdover && ownTime s) then
    modQuartz (fun q => { q with state := .localRef }) (endHoldover s1)
  else s1

def execQrefLock (s : State) : Host.Outcome State Fault Refusal := onWf .qrefLock (qrefLockEffect s)

/-- QREF is missing (R152, R466). -/
def execQrefLoss (s : State) : Host.Outcome State Fault Refusal :=
  onWf .qrefLoss (toHoldover (modQuartz (fun q => { q with qref := false }) s))

/-- The upstream port has lost its timing symbols (R152). -/
def upstreamLossEffect (s : State) : State :=
  if s.quartz.state == .consist then toHoldover (modQuartz (fun q => { q with timingPort := none }) s) else s

def execUpstreamLoss (s : State) : Host.Outcome State Fault Refusal := onWf .upstreamLoss (upstreamLossEffect s)

/-- CONSIST is reached. -/
def toConsist (p : Nat) (s : State) : State :=
  let s1 := endHoldover s
  modQuartz (fun q => { q with state := .consist, timingPort := some p, consistSince := some (q.consistSince.getD q.now) }) s1

/-- The member relocks to an alternate port, by rate alone (R152). -/
def alternateLockEffect (p : Nat) (s : State) : State :=
  match s.route with
  | some r => if s.quartz.state == .holdover && !ownTime s && (r.alt1 == some p || r.alt2 == some p) && (portOf s p).up then steer (toConsist p s) else s
  | none => s

def execAlternateLock (p : Nat) (s : State) : Host.Outcome State Fault Refusal := onWf (.alternateLock p) (alternateLockEffect p s)

/-! ### Timing symbols (R330) -/

/-- The Quartz in 1/256 ns, as the stamps of timing symbols count it. -/
def stampNow (s : State) : Nat := s.quartz.now * 256 + s.quartz.frac / 2 ^ 24

/-- The port whose symbols discipline this member: the one it moved to, or its upstream port. -/
def disciplines (s : State) (p : Nat) : Bool :=
  !ownTime s && (match s.quartz.timingPort, s.route with
    | some t, _ => t == p
    | none, some r => r.upstream == p
    | none, none => false)

/-- A timing symbol arrives: the link delay, and on the disciplining port the lock, the one step, or the rate. -/
def timingSymbolEffect (p tTx tE1 tHold : Nat) (s : State) : State :=
  let x := portOf s p
  if x.up then
    let rx := stampNow s
    let d : Int := (((rx : Int) - tE1) - tHold) / 2
    let s1 := setPort p { x with tE1 := tTx, tE2 := rx, symDelay := d } s
    if disciplines s1 p then
      -- Upstream's time now is t_tx + d; the counter is stepped on the first lock alone, never while a job is open, and never
      -- back (R147, R151).
      let up : Int := (tTx : Int) + d
      if !s1.quartz.firstLocked && !anyJob s1 && decide ((rx : Int) ≤ up) then
        toConsist p (modQuartz (fun q => { q with firstLocked := true, now := (up / 256).toNat, frac := (up % 256).toNat * 2 ^ 24 }) s1)
      else steer (toConsist p (modQuartz (fun q => { q with firstLocked := true }) s1))
    else s1
  else s

def execTimingSymbol (port tTx tE1 tE2 tHold : Nat) (s : State) : Host.Outcome State Fault Refusal :=
  onWf (.timingSymbol port tTx tE1 tE2 tHold) (timingSymbolEffect port tTx tE1 tHold s)

/-- Every up port sends a timing symbol every 2,048 ns. -/
def symbolSendEffect (p : Nat) (s : State) : State :=
  let x := portOf s p
  if x.up then
    let s1 := match x.lastSent with | some t => advance (t + 2048) s | none => s
    send (.symbol p (stampNow s1) x.tE1 x.tE2 (stampNow s1 - x.tE2)) (setPort p { x with lastSent := some (now s1) } s1)
  else s

def execTimingSymbolSend (p : Nat) (s : State) : Host.Outcome State Fault Refusal := onWf (.timingSymbolSend p) (symbolSendEffect p s)

/-! ### 1PPS (R149, R467) -/

/-- Distance of an instant from the nearest whole second. -/
def secondError (t : Nat) : Nat := min (t % 1000000000) (1000000000 - t % 1000000000)

/-- The edge is ignored: too far from a whole second, or too long after the previous one while 1PPS is present (log 33). -/
def ppsBad (s : State) : Bool :=
  decide (1000000 < secondError (now s)) || (s.quartz.ppsPresent && decide (s.quartz.ppsStamp + 1100000000 < now s))

/-- An ignored edge is counted; after three in a row 1PPS counts as absent. -/
def ignoreEdge (s : State) : State :=
  let absent := decide (3 ≤ s.quartz.ppsIgnored + 1)
  modQuartz (fun q => { q with ppsIgnored := q.ppsIgnored + 1, ppsIgnoredTotal := q.ppsIgnoredTotal + 1,
                               ppsPresent := q.ppsPresent && !absent }) s

/-- A rising edge of PPS_IN, sensed on the package that the route table names as the time root. -/
def ppsEffect (width : Nat) (s : State) : State :=
  if width < 10 then s
  else match s.route with
    | some r =>
      if r.timeRoot ≠ r.self then s
      else if ppsBad s then ignoreEdge s
      else steer (modQuartz (fun q => { q with ppsPresent := true, ppsStamp := q.now, ppsIgnored := 0 }) s)
    | none => s

def execPpsEdge (width : Nat) (s : State) : Host.Outcome State Fault Refusal := onWf (.ppsEdge width) (ppsEffect width s)

/-! ### QTZ_LOAD and QTZ_STATE (R480) -/

/-- An 8-byte write to QTZ_LOAD takes effect at the next tick of the timing clock, unless a job is open or its value lies below
the count there. -/
def qtzLoadEffect (acc : Acc) (v : Nat) (s : State) : State :=
  match acc with
  | .full =>
    if anyJob s then modQuartz (fun q => { q with loadRefused := true }) s
    else
      let s1 := tick s
      if v < now s1 then modQuartz (fun q => { q with loadRefused := true }) s1
      else modQuartz (fun q => { q with now := v, frac := 0 }) s1
  | .lo => s
  | .hi => s

/-- A write of QTZ_STATE clears load_refused where bit 9 is 1; a 4-byte write of a register with a W1C field is ignored (R475). -/
def qtzStateEffect (acc : Acc) (v : Nat) (s : State) : State :=
  match acc with
  | .full => if bit v 9 then modQuartz (fun q => { q with loadRefused := false }) s else s
  | .lo => s
  | .hi => s

def execQtzLoad (acc : Acc) (v : Word) (s : State) : Host.Outcome State Fault Refusal := onWf (.qtzLoad acc v) (qtzLoadEffect acc v.toNat s)
def execQtzStateWrite (acc : Acc) (v : Word) (s : State) : Host.Outcome State Fault Refusal := onWf (.qtzStateWrite acc v) (qtzStateEffect acc v.toNat s)

end Sys2Proof.Machine
end

