-- ==== Sys2Proof/Machine/Telemetry.lean ====
section
/-! DEFINITION. TELEMETRY_READ: the items of every page (R395, R442, R448, Tables 14-7, 16-4, 17-4). -/

namespace Sys2Proof.Machine

/-- An entry of a page: item, index, cause, value. -/
abbrev TeleItem := Nat × Nat × Nat × Nat

/-- An item that one unit holds. -/
def one (item v : Nat) : TeleItem := (item, 0, 0, v)

/-- An item that each of `n` units holds. -/
def each (item n : Nat) (f : Nat → Nat) : List TeleItem := (List.range n).map (fun i => (item, i, 0, f i))

/-- The counters of an item of queues that are not zero (log 42). -/
def counted (s : State) (item : Nat) : List TeleItem :=
  (s.ctr.filter (fun e => e.1 / 65536 == item && decide (e.2 ≠ 0))).map (fun e => (item, e.1 % 65536, 0, e.2))

/-- Page 0x00: the open or last job of a partition; zeros before its first job (log 42). -/
def page0 (s : State) (p : Nat) : List TeleItem :=
  let q := partOf s p
  let last := if partExists s p then q.lastJob else tblGet? s.lastJobs p
  let j : Job := (q.job.orElse (fun _ => last)).getD { id := 0, t0 := 0 }
  [one 0x0100 j.ovfN, one 0x0101 j.clampN, one 0x0102 j.holds, one 0x0103 j.replays, one 0x0104 j.lateNotices,
   one 0x0105 j.fallbacks, one 0x0106 j.id, one 0x0107 j.skipped]

/-- Logical tiles that no physical tile carries (R92). -/
def unbackedCount (s : State) : Nat := ((List.range 544).filter (fun l => (physOf s l).isNone)).length

/-- Retired tiles of a compute die. -/
def retiredOn (s : State) (d : Nat) : Nat := ((List.range 144).filter (fun i => retired s (144 * d + i))).length

/-- Endurance used by a stack, in 0.01 % of 5,000 cycles of its 131,072 blocks (R244). -/
def endurance (x : Stack) : Nat := x.erases.foldl (fun n e => n + e.2) 0 * 10000 / (131072 * 5000)

/-- Holdover in all, with the interval that runs (R152). -/
def holdoverNs (s : State) : Nat :=
  s.quartz.holdoverTotal + (match s.quartz.holdoverSince with
    | some t => now s - t
    | none => 0)

/-- The counters of an item that each of `n` units holds. -/
def allCounts (s : State) (item n : Nat) : List TeleItem := each item n (ctrGet s item)

/-- An item of every memory of every tile: index 8 × tile + memory. -/
def tileItems (item : Nat) (f : Nat → Nat → Nat) : List TeleItem :=
  (List.range 576).flatMap (fun t => (List.range 5).map (fun m => (item, 8 * t + m, 0, f t m)))

/-- The Quartz of the last walk completion of a memory; 0 before the first (R141). -/
def lastWalkOf (s : State) (t m : Nat) : Nat := (tblGet {} (tileOf s t).tests m).lastWalk

/-- Page 0x01. `unbounded` is what item 0x0242 reads while the bound of R333 is unbounded: the manual states no code. -/
def page1 (unbounded : Nat) (s : State) : List TeleItem :=
  tileItems 0x0200 (fun t m => ctrGet s 0x0200 (8 * t + m)) ++ tileItems 0x0201 (lastWalkOf s) ++
  tileItems 0x0202 (fun t m => ctrGet s 0x0202 (8 * t + m)) ++ [one 0x0203 (unbackedCount s)] ++ each 0x0204 4 (retiredOn s) ++
  allCounts s 0x0210 16 ++ allCounts s 0x0211 16 ++
  each 0x0220 4 (fun f => b2n (stackOf s f).readOnly) ++ each 0x0221 4 (fun f => endurance (stackOf s f)) ++
  allCounts s 0x0222 4 ++ allCounts s 0x0223 4 ++
  each 0x0230 82 (fun k => min 4 (tblGet {} s.links k).failed.length) ++ each 0x0231 82 (fun k => (tblGet {} s.links k).width) ++
  [one 0x0232 s.level] ++ each 0x0233 12 (fun d => s.revs.getD d 0) ++
  [one 0x0240 (quartzCode s.quartz.state), one 0x0241 (holdoverNs s), one 0x0242 ((deliveryBound s).getD unbounded)] ++
  each 0x0250 20 (fun p => (portOf s p).lanes) ++ allCounts s 0x0251 20 ++
  counted s 0x0260 ++ counted s 0x0261 ++ allCounts s 0x0262 17 ++ counted s 0x0263 ++ counted s 0x0264

/-- Page 0x02: the event log. -/
def page2 (s : State) : List TeleItem := s.events.map (fun e => (e.code, e.unit, e.cause, e.at_))

/-- Page 0x03 (Table 16-4). -/
def page3 (s : State) : List TeleItem :=
  let p := s.power
  [one 0x0300 p.vin, one 0x0301 p.input, one 0x0302 p.cap] ++
  each 0x0303 10 (fun k => p.allow.getD k 0) ++ each 0x0304 10 (fun k => p.mean.getD k 0) ++
  each 0x0305 28 (fun a => (domOf s a).point) ++ each 0x0306 28 (fun a => (domOf s a).highest) ++
  each 0x0307 28 (fun a => (domOf s a).limit) ++
  each 0x0308 12 (fun d => toCode 64 (s.thermal.last.getD d 0)) ++ each 0x0309 16 (fun m => toCode 64 (s.thermal.temps.getD m 0)) ++
  each 0x030A 12 (guardOf s) ++ [one 0x030B (ctrGet s 0x030B 0), one 0x030C (ctrGet s 0x030C 0), one 0x030D (ctrGet s 0x030D 0)]

/-- Page 0x04: the failure record (Table 17-4). -/
def page4 (s : State) : List TeleItem :=
  let b := s.bu
  [one 0x0400 b.state, one 0x0401 b.step, one 0x0402 b.cause, one 0x0403 b.unit, one 0x0404 b.at_] ++
  (each 0x0405 15 (fun k => tblGet 0 b.done k)).drop 1 ++ [one 0x0406 b.count, one 0x0407 b.copies]

/-- The reply: word 0, and at most 126 entries from `first`. -/
def teleReply (first : Nat) (l : List TeleItem) : List Word :=
  let es := (l.drop first).take 126
  word (l.length % 65536 * 2 ^ 48 + first * 2 ^ 32 + es.length * 2 ^ 24) ::
    es.flatMap (fun e => [word (e.1 * 2 ^ 48 + e.2.1 % 65536 * 2 ^ 32 + e.2.2.1 % 256 * 2 ^ 24), word e.2.2.2])

/-- TELEMETRY_READ (R395). -/
def cmdTelemetryRead : Cmd := fun ch _ w s =>
  let w0 := wd w 0
  let p := wf w0 63 60
  let page := wf w0 59 52
  let first := wf w0 51 36
  checked [(decide (4 < page), stFormat, 6), (decide (page ≠ 0) && decide (ch ≠ 0), stState, noField),
           (decide (page = 0) && !partExists s p && (tblGet? s.lastJobs p).isNone, stState, 7)]
    (fun s =>
      match page with
      | 0 => (ok (teleReply first (page0 s p)), s)
      | 1 =>
        let (v, s1) := draw s
        (ok (teleReply first (page1 v.toNat s)), s1)
      | 2 => (ok (teleReply first (page2 s)), s)
      | 3 => (ok (teleReply first (page3 s)), s)
      | _ => (ok (teleReply first (page4 s)), s))
    s

end Sys2Proof.Machine
end

