-- ==== Sys2Proof/Machine/Mailbox.lean ====
section
/-! DEFINITION. The catalogue of mailbox commands, and the meaning of each mailbox row (Table 14-4). -/

namespace Sys2Proof.Machine

/-- The command of each code. `t` is what the self-tests of a reset find. -/
def runCommand (t : SelfTest) (code : Nat) : Cmd :=
  match code with
  | 0x0001 => cmdVersionHello
  | 0x0010 => cmdPartCreate
  | 0x0011 => cmdPartDissolve
  | 0x0020 => cmdSlateInstall
  | 0x0021 => cmdJobOpen
  | 0x0022 => cmdJobClose
  | 0x0030 => cmdSealModel
  | 0x0040 => cmdTileRetire
  | 0x0050 => cmdTelemetryRead
  | 0x0051 => cmdClampReportRead
  | 0x0060 => cmdReceiptFetch
  | 0x0070 => cmdRouteInstall
  | 0x0080 => cmdPowerSet
  | 0x0081 => cmdPowerDown
  | 0x0090 => cmdReset t
  | 0x00A0 => cmdLifecycle t
  | _ => fun _ _ _ s => (rejected stFormat, s)

/-- Payload bit 59 of a RESET: 1 resets the package. -/
def resetScope (sub : Submission) : Bool :=
  match sub with
  | .go _ pl => bit (wd pl 0).toNat 59
  | .urgent u => bit u.toNat 43

/-- A LIFECYCLE_ADVANCE row of one op (R403). -/
def lifecycleRow (t : SelfTest) (op ch : Nat) (hdr : Word) (pl : List Word) (s : State) : State :=
  if wf (wd pl 0) 63 56 = op then submit (runCommand t) 0x00A0 ch (.go hdr pl) s else s

/-- A RESET row of one scope (R390). -/
def resetRow (t : SelfTest) (package : Bool) (ch : Nat) (sub : Submission) (s : State) : State :=
  if resetScope sub == package then submit (runCommand t) 0x0090 ch sub s else s

def execVersionHello (ch : Nat) (hdr : Word) (pl : List Word) (s : State) : Host.Outcome State Fault Refusal :=
  onWf (.versionHello ch hdr pl) (submit (runCommand {}) 0x0001 ch (.go hdr pl) s)
def execPartCreate (ch : Nat) (hdr : Word) (pl : List Word) (s : State) : Host.Outcome State Fault Refusal :=
  onWf (.partCreate ch hdr pl) (submit (runCommand {}) 0x0010 ch (.go hdr pl) s)
def execPartDissolve (ch : Nat) (hdr : Word) (pl : List Word) (s : State) : Host.Outcome State Fault Refusal :=
  onWf (.partDissolve ch hdr pl) (submit (runCommand {}) 0x0011 ch (.go hdr pl) s)
def execSlateInstall (ch : Nat) (hdr : Word) (pl : List Word) (s : State) : Host.Outcome State Fault Refusal :=
  onWf (.slateInstall ch hdr pl) (submit (runCommand {}) 0x0020 ch (.go hdr pl) s)
def execJobOpen (ch : Nat) (hdr : Word) (pl : List Word) (s : State) : Host.Outcome State Fault Refusal :=
  onWf (.jobOpen ch hdr pl) (submit (runCommand {}) 0x0021 ch (.go hdr pl) s)
def execJobClose (ch : Nat) (hdr : Word) (pl : List Word) (s : State) : Host.Outcome State Fault Refusal :=
  onWf (.jobClose ch hdr pl) (submit (runCommand {}) 0x0022 ch (.go hdr pl) s)
def execSealModel (ch : Nat) (hdr : Word) (pl : List Word) (s : State) : Host.Outcome State Fault Refusal :=
  onWf (.sealModel ch hdr pl) (submit (runCommand {}) 0x0030 ch (.go hdr pl) s)
def execTileRetire (ch : Nat) (sub : Submission) (s : State) : Host.Outcome State Fault Refusal :=
  onWf (.tileRetire ch sub) (submit (runCommand {}) 0x0040 ch sub s)
def execTelemetryRead (ch : Nat) (hdr : Word) (pl : List Word) (s : State) : Host.Outcome State Fault Refusal :=
  onWf (.telemetryRead ch hdr pl) (submit (runCommand {}) 0x0050 ch (.go hdr pl) s)
def execClampReportRead (ch : Nat) (hdr : Word) (pl : List Word) (s : State) : Host.Outcome State Fault Refusal :=
  onWf (.clampReportRead ch hdr pl) (submit (runCommand {}) 0x0051 ch (.go hdr pl) s)
def execReceiptFetch (ch : Nat) (hdr : Word) (pl : List Word) (s : State) : Host.Outcome State Fault Refusal :=
  onWf (.receiptFetch ch hdr pl) (submit (runCommand {}) 0x0060 ch (.go hdr pl) s)
def execRouteInstall (ch : Nat) (hdr : Word) (pl : List Word) (s : State) : Host.Outcome State Fault Refusal :=
  onWf (.routeInstall ch hdr pl) (submit (runCommand {}) 0x0070 ch (.go hdr pl) s)
def execPowerSet (ch : Nat) (hdr : Word) (pl : List Word) (s : State) : Host.Outcome State Fault Refusal :=
  onWf (.powerSet ch hdr pl) (submit (runCommand {}) 0x0080 ch (.go hdr pl) s)
def execPowerDown (ch : Nat) (sub : Submission) (s : State) : Host.Outcome State Fault Refusal :=
  onWf (.powerDown ch sub) (submit (runCommand {}) 0x0081 ch sub s)
def execReset (ch : Nat) (sub : Submission) (s : State) : Host.Outcome State Fault Refusal :=
  onWf (.reset ch sub) (resetRow {} false ch sub s)
def execPackageReset (ch : Nat) (sub : Submission) (t : SelfTest) (s : State) : Host.Outcome State Fault Refusal :=
  onWf (.packageReset ch sub t) (resetRow t true ch sub s)
def execLifecycleAdvance (ch : Nat) (hdr : Word) (pl : List Word) (t : SelfTest) (s : State) : Host.Outcome State Fault Refusal :=
  onWf (.lifecycleAdvance ch hdr pl t) (lifecycleRow t 1 ch hdr pl s)
def execLifecycleStage (ch : Nat) (hdr : Word) (pl : List Word) (s : State) : Host.Outcome State Fault Refusal :=
  onWf (.lifecycleStage ch hdr pl) (lifecycleRow {} 2 ch hdr pl s)
def execLifecycleCommit (ch : Nat) (hdr : Word) (pl : List Word) (s : State) : Host.Outcome State Fault Refusal :=
  onWf (.lifecycleCommit ch hdr pl) (lifecycleRow {} 3 ch hdr pl s)

end Sys2Proof.Machine
end

