-- ==== Sys2Proof/Machine/Registers.lean ====
section
/-! DEFINITION. The device registers as harts read and write them: the ten blocks of R23 (19, Tables 13-1, 13-11, 13-12, 14-1, 15-3),
and the rows of the registers that act. -/

namespace Sys2Proof.Machine

/-! ### Reads: the 8-byte register at an offset of its block -/

/-- CBX_STATUS (Table 14-1). -/
def cbxStatus (s : State) (ch : Nat) : Nat :=
  let c := chanOf s ch
  b2n (served s) * 2 ^ 63 + b2n (decide (2 ≤ s.bu.state)) * 2 ^ 62 + b2n s.standby * 2 ^ 61 + b2n c.busy * 2 ^ 60 +
  b2n c.replyValid * 2 ^ 59 + b2n c.ubusy * 2 ^ 58 + c.gen * 2 ^ 48 + c.lastSeq * 2 ^ 32 + c.lastStatus * 2 ^ 16

/-- CBX_IRQ. -/
def cbxIrq (c : Chan) : Nat := b2n c.irqEn * 2 ^ 23 + c.irqHart * 2 ^ 16 + c.irqFile * 2 ^ 12

/-- A word of a channel's 8 KiB: the areas, then the registers; a WO register reads zero. -/
def cbxRead (s : State) (ch o : Nat) : Nat :=
  let c := chanOf s ch
  if o < 0x800 then memLe c.req o 8
  else if o < 0x1000 then memLe c.reply (o - 0x800) 8
  else if o = 0x1008 then cbxStatus s ch
  else if o = 0x1018 then cbxIrq c
  else if o = 0x1028 then b2n c.ubusy * 2 ^ 63 + c.ucmd * 2 ^ 32 + c.ustatus
  else if o = 0x1030 then c.discards
  else 0

/-- QTZ_ (Table 19-3). -/
def qtzRead (s : State) (o : Nat) : Nat :=
  let q := s.quartz
  if o = 0x00 then q.now
  else if o = 0x08 then b2n q.loadRefused * 2 ^ 9 + b2n q.ppsPresent * 2 ^ 8 + quartzCode q.state
  else if o = 0x10 then q.rate
  else if o = 0x20 then q.ppsStamp
  else 0

/-- The epoch of a job counted across slots: the lowest not yet committed. -/
def jobEpoch (j : Job) : Nat := j.epochBase + j.epoch

/-- Degraded mode is in force (R182). -/
def degradedNow (j : Job) : Bool :=
  match j.degFrom with
  | some e => decide (e ≤ jobEpoch j)
  | none => false

/-- SLT_PART_OFFSET, SLT_PART_EPOCH, SLT_PART_JOB of a partition with an installed image; zero otherwise (R481). -/
def sltPart (s : State) (p o : Nat) : Nat :=
  let q := partOf s p
  if q.image.isNone then 0
  else if o = 0x00 then q.offset
  else match q.job with
  | some j =>
    if o = 0x08 then jobEpoch j % 2 ^ 32 * 2 ^ 32 + (if j.service then j.slot % 2 ^ 30 * 4 else 0) + b2n (degradedNow j) * 2 + 1
    else if o = 0x10 then j.id
    else 0
  | none => 0

def seqCode : SeqState → Nat
  | .idle => 0
  | .installed => 1
  | .armed => 2
  | .wait => 3
  | .late => 4
  | .epoch => 5
  | .replay => 6
  | .done => 7

/-- A stream whose next entry's P is reached and which a gate of any kind or its unit holds back reads LATE (Table 06-10). -/
def overdue (s : State) (st : Nat) : Bool :=
  match nextEntry s st with
  | some (p, i, j, x) => j.running && decide (plannedTime i j (partOf s p).offset x ≤ now s) && !mayLaunch s st
  | none => false

/-- SLT_SEQ: zero for a stream whose unit no partition holds. -/
def sltSeq (s : State) (st : Nat) : Nat :=
  let q := seqOf s st
  if (streamPart s st).isNone then 0
  else seqCode (if q.st == .wait && overdue s st then .late else q.st) * 2 ^ 61 + q.part * 2 ^ 57 + q.entry * 2 ^ 32 + q.epoch

/-- SLT_MAP. -/
def sltMap (s : State) (l : Nat) : Nat :=
  match physOf s l with
  | some p => 2 ^ 63 + p
  | none => 0x3FF

/-- SLT_SPARE: bit i, the i-th spare position of the die is free. -/
def sltSpare (s : State) (d : Nat) : Nat :=
  let free := freeSpares s d
  (s.spares.filter (fun p => p / 144 == d)).foldr (fun p n => b2n (free.elem p) + 2 * n) 0

/-- SLT_ (Table 19-4). -/
def sltRead (s : State) (o : Nat) : Nat :=
  if o < 0x200 then sltPart s (o / 0x20) (o % 0x20)
  else if 0x10000 ≤ o && o < 0x10000 + 8 * 600 then sltSeq s ((o - 0x10000) / 8)
  else if 0x20000 ≤ o && o < 0x20000 + 8 * 544 then sltMap s ((o - 0x20000) / 8)
  else if 0x21100 ≤ o && o < 0x21120 then sltSpare s ((o - 0x21100) / 8)
  else 0

/-- DBL_PARKED: bit j is 1 while queue 64 i + j is parked. -/
def dblParked (s : State) (i : Nat) : Nat :=
  (List.range 64).foldr (fun j n => b2n ((queueOf s (64 * i + j)).state == .parked) + 2 * n) 0

/-- DBL_ (Table 19-5). -/
def dblRead (s : State) (o : Nat) : Nat :=
  if o < 0x800 then dblParked s (o / 8)
  else if o = 0x800 then s.dbl.aheadLast
  else if o = 0x808 then s.dbl.aheadCount
  else if o = 0x810 then s.dbl.discards
  else 0

/-- RGN_PORT: the bifurcation and the links of a root port (Table 13-12). -/
def rgnPort (s : State) (p : Nat) : Nat :=
  (List.range 4).foldr (fun k n => b2n (setHas s.pcie.link (4 * p + k)) + 2 * n) 0 * 16 + s.pcie.bifs.getD p 0

/-- RGN_ (Tables 13-11, 13-12). -/
def rgnBlockRead (s : State) (o : Nat) : Nat :=
  if o < 0x20000 then rgnRead s (o / 0x20) (o % 0x20)
  else if o < 0x20080 then tblGet 0 s.pcie.p2p ((o - 0x20000) / 8)
  else if 0x20100 ≤ o && o < 0x20120 then rgnPort s ((o - 0x20100) / 8)
  else 0

/-- FNC_ (Table 19-6). -/
def fncRead (s : State) (o : Nat) : Nat :=
  if o < 0x90 then (homeOf s (o / 8)).mismatch
  else if 0x100 ≤ o && o < 0x190 then
    let h := homeOf s ((o - 0x100) / 8)
    h.lastRel * 2 ^ 62 + h.lastAcq * 2 ^ 60 + h.lastLine * 64
  else 0

/-- PWR_ (Table 19-7). -/
def pwrRead (s : State) (o : Nat) : Nat :=
  let p := s.power
  if o = 0x00 then p.cap
  else if o = 0x08 then p.vin % 65536 * 2 ^ 32 + p.input % 65536
  else if o = 0x10 then b2n p.maxInput * 4 + b2n p.capFloor * 2 + b2n p.supplyWarn
  else if 0x100 ≤ o && o < 0x1E0 then
    let d := domOf s ((o - 0x100) / 8)
    d.limit * 2 ^ 16 + d.highest * 2 ^ 8 + d.point
  else if 0x200 ≤ o && o < 0x250 then p.allow.getD ((o - 0x200) / 8) 0 % 65536 * 2 ^ 32 + p.mean.getD ((o - 0x200) / 8) 0 % 65536
  else 0

/-- THM_ (Table 19-8). -/
def thmRead (s : State) (o : Nat) : Nat :=
  let t := s.thermal
  if o < 0x60 then b2n (setHas t.hot (o / 8)) * 2 ^ 16 + toCode 16 (t.tj.getD (o / 8) 0)
  else if 0x100 ≤ o && o < 0x180 then
    let m := (o - 0x100) / 8
    b2n (setHas t.over95 m) * 2 ^ 17 + b2n (setHas t.over85 m) * 2 ^ 16 + toCode 16 (t.temps.getD m 0)
  else if o = 0x200 then b2n t.flag
  else 0

/-- LCS_ (Tables 15-3, 19-9). -/
def lcsRead (s : State) (o : Nat) : Nat :=
  let c := s.lc
  if o = 0x00 then c.transCount * 2 ^ 32 + c.rmaEntries * 2 ^ 20 + b2n c.tamper * 2 ^ 19 + c.tamperCause * 2 ^ 16 + c.state
  else if o = 0x08 then c.deviceId
  else if o = 0x10 then c.svnProc * 2 ^ 32 + c.svnCab
  else 0

/-- The register at an 8-byte aligned offset of the device register space; outside every listed register zero (R23). -/
def regRead (s : State) (off : Nat) : Nat :=
  let o := off % 0x1000000
  match off / 0x1000000 with
  | 0 => if o < 0x20000 then cbxRead s (o / 0x2000) (o % 0x2000) else 0
  | 1 => qtzRead s o
  | 2 => sltRead s o
  | 3 => dblRead s o
  | 4 => if o < 0x100000 then ctxRead s (o / 0x40) (o % 0x40) else 0
  | 5 => rgnBlockRead s o
  | 6 => fncRead s o
  | 7 => pwrRead s o
  | 8 => thmRead s o
  | 9 => lcsRead s o
  | _ => 0

/-! ### RC registers: a read that returns the count clears it (Table 00-5, R475) -/

/-- Every RC field lies in bits [31:0]. -/
def rcClear (off : Nat) (acc : Acc) (s : State) : State :=
  let o := off % 0x1000000
  if !covers acc 0 then s
  else match off / 0x1000000 with
  | 0 => if o < 0x20000 && o % 0x2000 = 0x1030 then setChan (o / 0x2000) { chanOf s (o / 0x2000) with discards := 0 } s else s
  | 3 =>
    if o = 0x808 then { s with dbl := { s.dbl with aheadCount := 0 } }
    else if o = 0x810 then { s with dbl := { s.dbl with discards := 0 } }
    else s
  | 6 => if o < 0x90 then setHome (o / 8) { homeOf s (o / 8) with mismatch := 0 } s else s
  | _ => s

/-- A hart's read of a register: the value goes to its register, and an RC count is cleared. -/
def regLoad (h rd off : Nat) (acc : Acc) (s : State) : State := rcClear off acc (wrX h rd (readAcc acc (regRead s off)) s)

/-! ### Writes -/

/-- A store to the request area: ignored and counted while busy (R377). -/
def reqWrite (ch o n : Nat) (v : Nat) (s : State) : State :=
  let c := chanOf s ch
  if c.busy then discardWrite ch s else setChan ch { c with req := memWrite c.req o (leBytes n v) } s

/-- CBX_ACK: an 8-byte write of ack = 1 clears reply_valid (R377, R478). -/
def ackWrite (ch : Nat) (acc : Acc) (v : Nat) (s : State) : State :=
  match acc with
  | .full => if bit v 0 then setChan ch { chanOf s ch with replyValid := false } s else s
  | .lo => s
  | .hi => s

/-- CBX_IRQ: refused as a whole and counted where the hart or the file is illegal (R377). -/
def irqWrite (ch : Nat) (acc : Acc) (v : Nat) (s : State) : State :=
  let c := chanOf s ch
  let m := mergeAcc acc (cbxIrq c) v
  if 95 < fld m 22 16 || 8 < fld m 15 12 then discardWrite ch s
  else setChan ch { c with irqEn := bit m 23, irqHart := fld m 22 16, irqFile := fld m 15 12 } s

/-- A write at an offset of a channel. -/
def cbxWrite (ch o : Nat) (acc : Acc) (v : Nat) (s : State) : State :=
  if o < 0x800 then
    match acc with
    | .full => reqWrite ch o 8 v s
    | .lo => reqWrite ch o 4 v s
    | .hi => reqWrite ch (o + 4) 4 v s
  else if o = 0x1010 then ackWrite ch acc v s
  else if o = 0x1018 then irqWrite ch acc v s
  else match acc with
  | .full =>
    if o = 0x1000 then (if bit v 0 then goWith (runCommand {}) ch s else s)
    else if o = 0x1020 then urgentWith (runCommand {}) ch (fld v 63 48) (fld v 47 0) s
    else s
  | .lo => s
  | .hi => s

/-- PWR_FLAGS: 1 clears a flag; a 4-byte write is ignored (R475). -/
def pwrFlagsEffect (acc : Acc) (v : Nat) (s : State) : State :=
  match acc with
  | .full => { s with power := { s.power with maxInput := s.power.maxInput && !bit v 2, capFloor := s.power.capFloor && !bit v 1,
                                              supplyWarn := s.power.supplyWarn && !bit v 0 } }
  | .lo => s
  | .hi => s

/-- THM_FLAGS. -/
def thmFlagsEffect (acc : Acc) (v : Nat) (s : State) : State :=
  match acc with
  | .full => { s with thermal := { s.thermal with flag := s.thermal.flag && !bit v 0 } }
  | .lo => s
  | .hi => s

/-- RGN_P2P: the RW field is bits [15:0]. -/
def p2pWrite (i : Nat) (acc : Acc) (v : Nat) (s : State) : State :=
  { s with pcie := { s.pcie with p2p := tblSet i (mergeAcc acc (tblGet 0 s.pcie.p2p i) v % 65536) s.pcie.p2p } }

/-- A write of a register of the device space: it changes the RW fields that it covers, and a register that acts acts; any other
write is ignored (R4, R23, R475). -/
def regWrite (off : Nat) (acc : Acc) (v : Nat) (s : State) : State :=
  let o := off % 0x1000000
  match off / 0x1000000 with
  | 0 => if o < 0x20000 then cbxWrite (o / 0x2000) (o % 0x2000) acc v s else s
  | 1 => if o = 0x18 then qtzLoadEffect acc v s else if o = 0x08 then qtzStateEffect acc v s else s
  | 4 => if o < 0x100000 then ctxWrite (o / 0x40) (o % 0x40) acc v s else s
  | 5 =>
    if o < 0x20000 then rgnWrite (o / 0x20) (o % 0x20) acc v s
    else if o < 0x20080 then p2pWrite ((o - 0x20000) / 8) acc v s
    else s
  | 7 => if o = 0x10 then pwrFlagsEffect acc v s else s
  | 8 => if o = 0x200 then thmFlagsEffect acc v s else s
  | _ => s

/-- How an aligned access of 4 or 8 bytes covers its register. -/
def accOf (off n : Nat) : Acc := if n = 8 then .full else if off % 8 = 0 then .lo else .hi

/-- A hart's aligned store of 4 or 8 bytes to the register space. -/
def regStore (off n : Nat) (v : Word) (s : State) : State := regWrite (off / 8 * 8) (accOf off n) v.toNat s

/-! ### Rows -/

def execCbxAck (ch : Nat) (acc : Acc) (v : Word) (s : State) : Host.Outcome State Fault Refusal := onWf (.cbxAck ch acc v) (ackWrite ch acc v.toNat s)
def execCbxIrqWrite (ch : Nat) (acc : Acc) (v : Word) (s : State) : Host.Outcome State Fault Refusal :=
  onWf (.cbxIrqWrite ch acc v) (irqWrite ch acc v.toNat s)
def execPwrFlagsWrite (acc : Acc) (v : Word) (s : State) : Host.Outcome State Fault Refusal := onWf (.pwrFlagsWrite acc v) (pwrFlagsEffect acc v.toNat s)
def execThmFlagsWrite (acc : Acc) (v : Word) (s : State) : Host.Outcome State Fault Refusal := onWf (.thmFlagsWrite acc v) (thmFlagsEffect acc v.toNat s)

/-- A hart's read of an RC register; in reset no hart reads (R297). -/
def rcRead (h rd off : Nat) (acc : Acc) (s : State) : State := if s.bu.state = 1 then regLoad h rd off acc s else s

def execCbxDiscardsRead (hart rd ch : Nat) (acc : Acc) (s : State) : Host.Outcome State Fault Refusal :=
  onWf (.cbxDiscardsRead hart rd ch acc) (rcRead hart rd (0x2000 * ch + 0x1030) acc s)
def execDblAheadCountRead (hart rd : Nat) (acc : Acc) (s : State) : Host.Outcome State Fault Refusal :=
  onWf (.dblAheadCountRead hart rd acc) (rcRead hart rd 0x3000808 acc s)
def execDblDiscardsRead (hart rd : Nat) (acc : Acc) (s : State) : Host.Outcome State Fault Refusal :=
  onWf (.dblDiscardsRead hart rd acc) (rcRead hart rd 0x3000810 acc s)
def execFncMismatchRead (hart rd u : Nat) (acc : Acc) (s : State) : Host.Outcome State Fault Refusal :=
  onWf (.fncMismatchRead hart rd u acc) (rcRead hart rd (0x6000000 + 8 * u) acc s)

end Sys2Proof.Machine
end

