-- ==== Sys2Proof/Machine/Csr.lean ====
section
/-! DEFINITION. The Garoux CSRs and those of the timers and cache-block controls: privilege, reads, writes, the range-flush engine,
inter-hart interrupts (R279 to R283, R287 to R289, R296). -/

namespace Sys2Proof.Machine

/-! ### What a hart's instruction waits for -/

/-- The register that a held access of a hart will write. -/
def hartOpRd (op : HartOp) : Nat × Bool :=
  match op with
  | .load rd _ _ _ => (rd, false)
  | .amo _ rd _ _ n _ _ => (rd, n == 16)
  | .lr rd _ _ => (rd, false)
  | .sc rd _ _ _ _ => (rd, false)

/-- A waiting request is an access of hart `h` that will write register `r`. -/
def waitsFor (h r : Nat) (w : WaitReq) : Bool :=
  match w with
  | .hartOp k _ _ op => k == h && ((hartOpRd op).1 == r || ((hartOpRd op).2 && (hartOpRd op).1 + 1 == r))
  | .read _ _ _ _ => false
  | .write _ _ _ _ => false
  | .directWrite _ _ _ _ => false
  | .directRead _ _ _ _ => false
  | .remoteWrite _ => false

/-- A load that has not returned will write the register: what uses it waits (log 46). -/
def regBusy (s : State) (h r : Nat) : Bool :=
  decide (r ≠ 0) &&
  ((hartOf s h).pcieLoads.any (fun e => e.1 == r) || (hartOf s h).splits.any (fun e => e.rd == r) ||
   s.remote.out.any (fun o => o.req == .hart h && (match o.load with | some e => e.1 == r | none => false)) ||
   anyWait s (waitsFor h r))

/-! ### Privilege (R281, R282) -/

/-- The hart is in a virtual mode. -/
def virtual (md : Mode) : Bool :=
  match md with
  | .vs => true
  | .vu => true
  | .m => false
  | .hs => false
  | .s => false
  | .u => false

/-- The hart is in HS-mode or S-mode. -/
def supervisor (md : Mode) : Bool :=
  match md with
  | .hs => true
  | .s => true
  | .m => false
  | .vs => false
  | .u => false
  | .vu => false

/-- Table 10-4 by R282: whether a CSR may be accessed. -/
def csrOpen (x : Hart) (num : Nat) : Bool :=
  let qs := bit x.mgxcfg 0
  let qu := bit x.mgxcfg 1
  let rfe := bit x.mgxcfg 2
  if x.mode == .m then true
  else if num = 0xCC0 || num = 0xCC1 then (if x.mode == .u || x.mode == .vu then qs && qu else qs)
  else if num = 0x5C0 || num = 0x5C1 || num = 0x5C2 || num = 0xDC0 || num = 0xDC1 then supervisor x.mode && rfe
  else if num = 0x5C4 then supervisor x.mode
  else false

/-- A forbidden access: illegal instruction, from VS-mode or VU-mode virtual instruction (R281). -/
def csrRefuse (h num : Nat) (s : State) : State := raiseTrap h (if virtual (hartOf s h).mode then .virtualInstr else .illegal) num s

/-! ### The range-flush engine (R261, R287 to R289) -/

/-- Lines of a byte range, and those of them in the backed UMR (R261). -/
def rangeLines (base len : Nat) : Nat := if len = 0 then 0 else (base + len - 1) / 64 + 1 - base / 64
def backedLines (base len : Nat) : Nat := if len = 0 then 0 else min ((base + len - 1) / 64 + 1) (umrEnd / 64) - base / 64

/-- A line's copies are dropped without a write-back. -/
def dropLine (l : Nat) (s : State) : State :=
  if (tblGet? s.dir l).isSome then
    let x := lineOf s l
    loseReservations l none (if x.waiting.isEmpty then { s with dir := tblDel l s.dir }
      else setLine l { waiting := x.waiting, snooped := x.snooped } s)
  else s

/-- What the engine does to one line: 1 clean, 2 flush, 3 invalidate. -/
def rfLine (op l : Nat) (s : State) : State := if op = 1 then recallLine l s else if op = 2 then invalidateLine l s else dropLine l (waitHold l s)

/-- Every cached copy of the range is acted on. -/
def rfRange (op base len : Nat) (s : State) : State :=
  ((s.dir.filter (fun e => overlap (e.1 * 64) 64 base len && decide (e.1 < umrEnd / 64))).map (·.1)).foldl (fun s l => rfLine op l s) s

/-- A request completes: done, the hart's rfskip, and identity 32 if notified. -/
def rfFinish (pd : Nat) (q : RfReq) (s : State) : State :=
  let s1 := rfRange q.op q.base q.len s
  let s2 := setRf pd { rfOf s1 pd with done := q.ticket } s1
  let skip := min max32 (rangeLines q.base q.len - backedLines q.base q.len)
  let s3 := modHart q.hart (fun x => { x with rfskip := q.ticket * 2 ^ 32 + skip }) s2
  if q.notify then pend q.hart 1 32 s3 else s3

/-- RF_COMPLETE: the oldest request of a processor die completes. -/
def rfCompleteEffect (pd : Nat) (s : State) : State :=
  let x := rfOf s pd
  match x.queue with
  | q :: rest => rfFinish pd q (setRf pd { x with queue := rest } s)
  | [] => s

/-- The ticket after `t`: never zero (R288). -/
def nextTicket (t : Nat) : Nat := if (t + 1) % 2 ^ 32 = 0 then 1 else (t + 1) % 2 ^ 32

/-- A submission: refused while four are queued; a range of length zero completes at once where nothing is ahead of it. -/
def rfSubmit (h op : Nat) (notify : Bool) (s : State) : State :=
  let y := hartOf s h
  let pd := h / 48
  let x := rfOf s pd
  if 4 ≤ x.queue.length then setHart h { y with rfgo := 2 ^ 63 } s
  else
    let t := nextTicket x.ctr
    let q : RfReq := { hart := h, ticket := t, op := if op = 3 && !bit y.mgxcfg 3 then 2 else op, base := y.rfbase, len := y.rflen, notify := notify }
    let s1 := setHart h { y with rfgo := t } s
    if q.len = 0 && x.queue.isEmpty then rfFinish pd q (setRf pd { x with ctr := t } s1)
    else setRf pd { x with ctr := t, queue := x.queue ++ [q] } s1

/-- A write to rfgo (R288): op 0 makes it read zero. -/
def rfgoWrite (h v : Nat) (s : State) : State :=
  if fld v 1 0 = 0 then modHart h (fun x => { x with rfgo := 0 }) s else rfSubmit h (fld v 1 0) (bit v 2) s

/-- An rfgo row of one op. -/
def rfRow (h op : Nat) (v : Word) (s : State) : State :=
  if fld v.toNat 1 0 ≠ op then s
  else if csrOpen (hartOf s h) 0x5C2 then rfgoWrite h v.toNat s
  else csrRefuse h 0x5C2 s

/-! ### Inter-hart interrupts (R296) -/

def sipiWriteEffect (v : Nat) (s : State) : State := if fld v 6 0 ≤ 95 then pend (fld v 6 0) 1 33 s else s
def mipiWriteEffect (v : Nat) (s : State) : State := if fld v 6 0 ≤ 95 then pend (fld v 6 0) (if bit v 63 then 0 else 1) 33 s else s

def ipiRow (h num : Nat) (run : State → State) (s : State) : State :=
  if csrOpen (hartOf s h) num then run s
  else csrRefuse h num s

/-! ### Time (R147, R280, R283) -/

/-- What a hart of a die reads of the Quartz: within 1 ns of HD0's counter in LOCAL and CONSIST, and never less than the die's last
read; in FREE and HOLDOVER any value from that read to 1 ns above the counter (log 47). -/
def dieTime (die : Nat) (s : State) : Nat × State :=
  let (v, s1) := draw s
  let last := tblGet 0 s.quartz.dieRead die
  let t := match s.quartz.state with
    | .localRef => now s + v.toNat % 3 - 1
    | .consist => now s + v.toNat % 3 - 1
    | .free => last + v.toNat % (now s + 2 - last)
    | .holdover => last + v.toNat % (now s + 2 - last)
  let r := max last t
  (r, { s1 with quartz := { s1.quartz with dieRead := tblSet die r s1.quartz.dieRead } })

/-- The die of a hart, after the four compute dies. -/
def hartDie (h : Nat) : Nat := 4 + h / 48

/-- QTIME_READ. -/
def qtimeEffect (h rd : Nat) (s : State) : State :=
  if csrOpen (hartOf s h) 0xCC0 then let (t, s1) := dieTime (hartDie h) s; wrX h rd (word t) s1
  else csrRefuse h 0xCC0 s

/-- The time CSR of a hart: its die's Quartz in units of 4 ns (R280). -/
def timeCsr (h : Nat) (s : State) : Nat × State := let (t, s1) := dieTime (hartDie h) s; (t / 4, s1)

/-- MTIP, and the Sstc pendings where STCE enables them, at a value of time. -/
def mtipOf (t : Nat) (x : Hart) : Bool := decide (x.mqcmp ≤ t)
def stce (x : Hart) (virt : Bool) : Bool := bit x.menvcfg 63 && (!virt || bit x.henvcfg 63)
def stipOf (t : Nat) (x : Hart) : Bool := stce x false && decide (x.stimecmp ≤ t)
def vstipOf (t : Nat) (x : Hart) : Bool := stce x true && decide (x.vstimecmp ≤ t)

/-- A hart's timer interrupts follow its compare registers. -/
def settleTimers (h : Nat) (s : State) : State :=
  let (t, s1) := timeCsr h s
  modHart h (fun x => { x with mtip := mtipOf t x, stip := stipOf t x, vstip := vstipOf t x }) s1

/-- MACHINE_TIMER: the time CSR reaches mqcmp. A compare value that the counter cannot reach within its 64 bits is none. -/
def machineTimerEffect (h : Nat) (s : State) : State :=
  let t := 4 * (hartOf s h).mqcmp
  if s.bu.state = 1 && t < 2 ^ 64 then modHart h (fun x => { x with mtip := true }) (advance t s) else s

/-- STIMECMP: the time CSR reaches stimecmp or vstimecmp, where STCE enables it. -/
def stimecmpEffect (h : Nat) (virt : Bool) (s : State) : State :=
  let x := hartOf s h
  let t := 4 * (if virt then x.vstimecmp else x.stimecmp)
  if s.bu.state = 1 && t < 2 ^ 64 && stce x virt then
    modHart h (fun x => if virt then { x with vstip := true } else { x with stip := true }) (advance t s)
  else s

/-! ### REGISTER_WRITE of a CSR -/

/-- A Garoux CSR of Table 10-4. -/
def garouxCsr (num : Nat) : Bool :=
  [0xCC0, 0xCC1, 0x7C0, 0x7C1, 0x7C2, 0x7C3, 0x7C4, 0x5C0, 0x5C1, 0x5C2, 0x5C4, 0xDC0, 0xDC1].elem num

/-- A CSR number whose top bits make it read-only. -/
def csrReadOnly (num : Nat) : Bool := fld num 11 10 == 3

/-- A write of a Garoux CSR: the RW fields it has, and what it does (Table 10-4, R282, R288, R296). -/
def csrPut (h num v : Nat) (s : State) : State :=
  if num = 0x7C0 then modHart h (fun x => { x with mgxcfg := v % 16 }) s
  else if num = 0x7C1 then modHart h (fun x => { x with mgxevm := v &&& 0x7FE }) s
  else if num = 0x7C2 then modHart h (fun x => { x with mgxevs := v &&& 0x7FE }) s
  else if num = 0x7C3 then settleTimers h (modHart h (fun x => { x with mqcmp := v }) s)
  else if num = 0x7C4 then mipiWriteEffect v s
  else if num = 0x5C0 then modHart h (fun x => { x with rfbase := v % 2 ^ 56 }) s
  else if num = 0x5C1 then modHart h (fun x => { x with rflen := v % 2 ^ 40 }) s
  else if num = 0x5C2 then rfgoWrite h v s
  else if num = 0x5C4 then sipiWriteEffect v s
  else s

/-- A write of xenvcfg: FIOM, CBIE, CBCFE, CBZE, PBMTE and STCE where the register has them; the reserved CBIE code 2 leaves the
field (PRESUMED from the privileged architecture, log 48). -/
def envMerge (old v : Nat) (top : Bool) : Nat :=
  let cbie := if fld v 5 4 = 2 then fld old 5 4 else fld v 5 4
  v % 2 + cbie * 16 + fld v 7 6 * 64 + (if top then fld v 63 62 * 2 ^ 62 else 0)

/-- What a read of a Garoux CSR returns; a WO CSR reads zero (Table 10-4, R288). -/
def garouxOld (h num : Nat) (s : State) : Nat × State :=
  let x := hartOf s h
  let rf := rfOf s (h / 48)
  if num = 0xCC0 then dieTime (hartDie h) s
  else (if num = 0xCC1 then quartzCode s.quartz.state else if num = 0x7C0 then x.mgxcfg else if num = 0x7C1 then x.mgxevm
    else if num = 0x7C2 then x.mgxevs else if num = 0x7C3 then x.mqcmp else if num = 0x5C0 then x.rfbase else if num = 0x5C1 then x.rflen
    else if num = 0x5C2 then x.rfgo else if num = 0xDC0 then rf.done * 2 ^ 32 + rf.queue.length * 2 ^ 24
    else if num = 0xDC1 then x.rfskip else 0, s)

/-! ### The interrupt files (R293, R294; log 63) -/

/-- The file that a CSR of the files reaches: machine, supervisor, or the guest file that VGEIN names; none where VGEIN names no file. -/
def fileOf (x : Hart) (num : Nat) : Option Nat :=
  if num / 256 = 3 then some 0
  else if num / 256 = 1 && !virtual x.mode then some 1
  else let g := fld x.hstatus 17 12; if 1 ≤ g ∧ g ≤ 7 then some (g + 1) else none

/-- The lowest identity that is pending, enabled and below the threshold; 0 where there is none. -/
def topId (x : Hart) (f : Nat) : Nat :=
  let t := tblGet 0 x.eithreshold f
  ((tblGet [] x.files f).filter (fun i => setHas (tblGet [] x.eie f) i && (decide (t = 0) || decide (i < t)))).foldl
    (fun b i => if b = 0 ∨ i < b then i else b) 0

/-- The 64 identities that an eip or eie register of the file covers, and its bits. -/
def idBits (base : Nat) (l : NatSet) : Nat := (List.range 64).foldl (fun v i => if setHas l (base + i) then v + 2 ^ i else v) 0
def putBits (base v : Nat) (l : NatSet) : NatSet :=
  (List.range 64).foldl (fun l i => if bit v i && base + i ≠ 0 && decide (base + i < 2048) then setIns (base + i) l else setDel (base + i) l) l

/-- A register of a file by its select value: delivery, threshold, pending, enabled; the odd ones of the arrays do not exist. -/
def fileReg (x : Hart) (f sel : Nat) : Option Nat :=
  if sel = 0x70 then some (tblGet 0 x.eidelivery f)
  else if sel = 0x72 then some (tblGet 0 x.eithreshold f)
  else if 0x80 ≤ sel ∧ sel < 0xC0 ∧ sel % 2 = 0 then some (idBits ((sel - 0x80) * 32) (tblGet [] x.files f))
  else if 0xC0 ≤ sel ∧ sel < 0x100 ∧ sel % 2 = 0 then some (idBits ((sel - 0xC0) * 32) (tblGet [] x.eie f))
  else none

def putFileReg (f sel v : Nat) (x : Hart) : Hart :=
  if sel = 0x70 then { x with eidelivery := tblSet f (v % 2) x.eidelivery }
  else if sel = 0x72 then { x with eithreshold := tblSet f (v % 2048) x.eithreshold }
  else if sel < 0xC0 then { x with files := tblSet f (putBits ((sel - 0x80) * 32) v (tblGet [] x.files f)) x.files }
  else { x with eie := tblSet f (putBits ((sel - 0xC0) * 32) v (tblGet [] x.eie f)) x.eie }

/-- The select register of a CSR of the files: 0 machine, 1 supervisor, 2 virtual supervisor. -/
def selOf (x : Hart) (num : Nat) : Nat := if num / 256 = 3 then 0 else if num / 256 = 1 && !virtual x.mode then 1 else 2

/-! ### CSRs of the privileged architecture (R275, R277, R279, R280, R293; log 48) -/

/-- The CSRs of the model: the timer's and cache-block controls, time, mhartid, hstatus, and those of the interrupt files. -/
def stdCsr (num : Nat) : Bool :=
  [0x14D, 0x24D, 0x30A, 0x10A, 0x60A, 0xC01, 0xF14, 0x600, 0x350, 0x351, 0x35C, 0x150, 0x151, 0x15C, 0x250, 0x251, 0x25C].elem num

/-- A CSR that does not exist: of an absent extension of Table 10-1 (seed, ssp), or of a custom number that Table 10-4 does not list. -/
def absentCsr (num : Nat) : Bool :=
  num == 0x015 || num == 0x011 ||
  (!garouxCsr num && ([0x5, 0x6, 0x7, 0x9, 0xA, 0xB, 0xC, 0xD, 0xE, 0xF].any (fun k => num / 256 == k && decide (0xC0 ≤ num % 256)) || num / 256 == 8))

/-- Whether a hart may access such a CSR in its mode, or the exception it raises. -/
def stdCsrTrap (x : Hart) (num : Nat) : Option Trap :=
  if x.mode == .m || num = 0xC01 then none
  else if num = 0x14D then
    (if supervisor x.mode then (if stce x false then none else some .illegal)
     else if x.mode == .vs then (if !stce x false then some .illegal else if stce x true then none else some .virtualInstr)
     else if x.mode == .vu then some .virtualInstr else some .illegal)
  else if num = 0x24D then (if supervisor x.mode && stce x false then none else if virtual x.mode then some .virtualInstr else some .illegal)
  else if num / 256 = 1 then (if supervisor x.mode || x.mode == .vs then none else if x.mode == .vu then some .virtualInstr else some .illegal)
  else if num / 256 = 2 || num / 256 = 6 then (if supervisor x.mode then none else if virtual x.mode then some .virtualInstr else some .illegal)
  else some .illegal

/-- What a read returns: none where a file or a register of it does not exist. stimecmp accessed from VS-mode is vstimecmp. -/
def stdCsrOld (h num : Nat) (s : State) : Option Nat × State :=
  let x := hartOf s h
  if num = 0xC01 then let (t, s1) := timeCsr h s; (some t, s1)
  else (
    if num = 0x14D then some (if x.mode == .vs then x.vstimecmp else x.stimecmp)
    else if num = 0x24D then some x.vstimecmp
    else if num = 0x30A then some x.menvcfg
    else if num = 0x10A then some x.senvcfg
    else if num = 0x60A then some x.henvcfg
    else if num = 0xF14 then some h
    else if num = 0x600 then some x.hstatus
    else if num % 256 = 0x50 then some (tblGet 0 x.iselect (selOf x num))
    else if num % 256 = 0x51 then (fileOf x num).bind (fun f => fileReg x f (tblGet 0 x.iselect (selOf x num)))
    else (fileOf x num).map (fun f => let i := topId x f; i * 2 ^ 16 + i), s)

/-- A write. One of a top register claims the identity that it showed. -/
def stdCsrPut (h num v : Nat) (s : State) : State :=
  settleTimers h (modHart h (fun x =>
    if num = 0x14D then (if x.mode == .vs then { x with vstimecmp := v } else { x with stimecmp := v })
    else if num = 0x24D then { x with vstimecmp := v }
    else if num = 0x30A then { x with menvcfg := envMerge x.menvcfg v true }
    else if num = 0x10A then { x with senvcfg := envMerge x.senvcfg v false }
    else if num = 0x60A then { x with henvcfg := envMerge x.henvcfg v true }
    else if num = 0x600 then { x with hstatus := v }
    else if num % 256 = 0x50 then { x with iselect := tblSet (selOf x num) (v % 2 ^ 12) x.iselect }
    else match fileOf x num with
      | none => x
      | some f =>
        if num % 256 = 0x51 then putFileReg f (tblGet 0 x.iselect (selOf x num)) v x
        else { x with files := tblSet f (setDel (topId x f) (tblGet [] x.files f)) x.files }) s)

/-- The value that a CSR instruction writes, if it writes. -/
def csrNew (op : CsrOp) (old v : Nat) : Option Nat :=
  match op with
  | .write => some v
  | .set => some (old ||| v)
  | .clear => some (old &&& (2 ^ 64 - 1 - v % 2 ^ 64))
  | .read => none

/-- The effect of a CSR instruction once it is allowed: rd takes the old value, then the write follows. -/
def csrDo (h rd : Nat) (op : CsrOp) (v : Nat) (old : Nat × State) (put : Nat → State → State) : State :=
  let s1 := wrX h rd (word old.1) old.2
  match csrNew op old.1 v with
  | some w => put w s1
  | none => s1

/-- A CSR instruction of a hart: privilege and existence first; a write of a read-only CSR is illegal. Other numbers belong to the
standard, and the model holds no such register (log 48). -/
def csrAccess (h num rd : Nat) (op : CsrOp) (v : Nat) (s : State) : State :=
  let x := hartOf s h
  let w := op ≠ .read
  if garouxCsr num then
    if csrReadOnly num && w then raiseTrap h .illegal num s
    else if csrOpen x num then csrDo h rd op v (garouxOld h num s) (fun w s => csrPut h num w s)
    else csrRefuse h num s
  else if absentCsr num then raiseTrap h .illegal num s
  else if stdCsr num then
    match stdCsrTrap x num with
    | some t => raiseTrap h t num s
    | none =>
      if csrReadOnly num && w then raiseTrap h .illegal num s
      else match stdCsrOld h num s with
        | (some o, s1) => csrDo h rd op v (o, s1) (fun w s => stdCsrPut h num w s)
        | (none, _) => raiseTrap h (if virtual x.mode then .virtualInstr else .illegal) num s
  else s

/-! ### Meanings -/

def execMachineTimer (hart : Nat) (s : State) : Host.Outcome State Fault Refusal := onWf (.machineTimer hart) (machineTimerEffect hart s)
def execStimecmp (hart : Nat) (virt : Bool) (s : State) : Host.Outcome State Fault Refusal := onWf (.stimecmp hart virt) (stimecmpEffect hart virt s)
def execRfComplete (pd : Nat) (s : State) : Host.Outcome State Fault Refusal := onWf (.rfComplete pd) (rfCompleteEffect pd s)

end Sys2Proof.Machine
end

