-- ==== Sys2Proof/Machine/External.lean ====
section
/-! DEFINITION. External management: the I3C ports with MCTP, PLDM and SPDM, the debug UARTs and the TAP
(R397 to R399, R401, R411). -/

namespace Sys2Proof.Machine

/-- The islands are powered, and the port has its dynamic address: a message reaches it. -/
def portLives (s : State) (hd : Nat) : Bool := s.power.islands && (mgmtOf s hd).addr.isSome

/-- The port is that of the active Caboose, whose firmware answers PLDM and SPDM (R397, R415). -/
def portServes (s : State) (hd : Nat) : Bool := portLives s hd && s.active == some hd && s.bu.state ≠ 3

/-! ### I3C_DYNAMIC_ADDRESS, MCTP_CONTROL (R397) -/

/-- ENTDAA and SETDASA both give the port its dynamic address. -/
def i3cAddressEffect (hd a : Nat) (s : State) : State := if s.power.islands then setMgmt hd { mgmtOf s hd with addr := some a } s else s

/-- The endpoint ID that an MCTP control message sets: command 0x01 with operation set or force (PRESUMED from DSP0236, log 17). -/
def eidOf (msg : List Byte) : Option Nat :=
  let op := (msg.getD 2 0).toNat % 4
  let e := (msg.getD 3 0).toNat
  if msg.getD 1 0 == 1#8 && decide (4 ≤ msg.length) && decide (op < 2) && decide (8 ≤ e) && decide (e < 255) then some e else none

/-- A control message is answered on either port; the bus owner may set the endpoint ID. -/
def mctpEffect (hd : Nat) (msg : List Byte) (s : State) : State :=
  if portLives s hd then
    let s1 := match eidOf msg with
      | some e => setMgmt hd { mgmtOf s hd with eid := e } s
      | none => s
    send (.i3c hd (Config.answerBody 0 msg)) s1
  else s

/-! ### PLDM_SENSOR_READ (R398) -/

/-- The reading of a sensor, in the order of R398. -/
def sensorReading (s : State) (k : Nat) : Option Int :=
  if k = 0 then some s.power.vin
  else if k = 1 then some s.power.input
  else if k < 14 then some (s.thermal.tj.getD (k - 2) 0)
  else if k < 30 then some (s.thermal.temps.getD (k - 14) 0)
  else if k = 30 then some s.bu.state
  else if k = 31 then some s.lc.state
  else none

def pldmEffect (hd k : Nat) (s : State) : State :=
  if portServes s hd then send (.pldm hd k (sensorReading s (Config.sensorOf k))) s else s

/-! ### SPDM (R398, R411, Table 14-8) -/

/-- A request of the connection: it joins the transcript, and its answer is sent. `code` is the request code of DSP0274. -/
def spdmSend (hd code : Nat) (content : Option (List Byte)) (m : Mgmt) (s : State) : State := send (.spdm hd code content) (setMgmt hd m s)

/-- A request that is legal once the connection has reached a stage; before it, the answer is an error. -/
def spdmStage (hd code stage : Nat) (content : Option (List Byte)) (f : Mgmt → Mgmt) (s : State) : State :=
  if portServes s hd then
    let m := mgmtOf s hd
    if stage ≤ m.spdm then spdmSend hd code content (f m) s else send (.spdm hd code none) s
  else s

/-- The transcript with a request added. -/
def logMsg (msg : List Byte) (m : Mgmt) : Mgmt := { m with transcript := m.transcript ++ msg }

/-- GET_VERSION starts a connection afresh; the version is 1.3. -/
def getVersionEffect (hd : Nat) (msg : List Byte) (s : State) : State :=
  spdmStage hd 0x84 0 (some [0x13#8]) (fun m => { m with spdm := 1, session := 0, transcript := msg }) s

def getCapabilitiesEffect (hd : Nat) (msg : List Byte) (s : State) : State :=
  spdmStage hd 0xE1 1 (some (Config.answerBody 0xE1 msg)) (fun m => logMsg msg { m with spdm := max m.spdm 2 }) s

def negotiateEffect (hd : Nat) (msg : List Byte) (s : State) : State :=
  spdmStage hd 0xE3 2 (some (Config.answerBody 0xE3 msg)) (fun m => logMsg msg { m with spdm := 3 }) s

/-- Certificate slot 0: occupied from enrolment on, empty in RMA (R411). -/
def certOf (s : State) : Option (List Byte) :=
  if s.lc.state = 2 || s.lc.state = 3 then some (Config.certificate s.lc.deviceId) else none

/-- GET_DIGESTS: the digest of the occupied slot, or none. -/
def getDigestsEffect (hd : Nat) (msg : List Byte) (s : State) : State :=
  spdmStage hd 0x81 3 (some (match certOf s with
    | some c => sha384 c
    | none => [])) (logMsg msg) s

/-- GET_CERTIFICATE: a part of the certificate in slot 0; another slot or an empty one is an error. -/
def getCertificateEffect (hd slot off len : Nat) (s : State) : State :=
  spdmStage hd 0x82 3 (if slot = 0 then (certOf s).map (fun c => (c.drop off).take len) else none) id s

/-- The identity key signs a transcript, if the vault holds it and slot 0 its certificate. -/
def identitySign (s : State) (hd : Nat) (msg : List Byte) : Option (List Byte) :=
  if (vaultOf s hd).keys && (certOf s).isSome then some (padTo 96 0 (Config.ecdsaSign (keyCode s.lc.state) s.lc.deviceId msg)) else none

/-- A signature reads the vault (R145, R146). -/
def signing (hd : Nat) (s : State) : State := if portServes s hd then readVault hd s else s

/-- CHALLENGE: the identity key signs the transcript with the nonce. -/
def challengeEffect (hd slot : Nat) (nonce : List Byte) (s : State) : State :=
  let s := signing hd s
  spdmStage hd 0x83 3 (if slot = 0 then identitySign s hd ((mgmtOf s hd).transcript ++ nonce) else none) (logMsg nonce) s

/-- The measurements of Table 14-8. -/
def measurement (s : State) (i : Nat) : Option (List Byte) :=
  let lc := s.lc
  match i with
  | 1 => some (padTo 48 0 (tblGet {} lc.slots lc.runCab).digest)
  | 2 => some (padTo 48 0 (tblGet {} lc.slots (2 + lc.runProc)).digest)
  | 3 => some ((List.range 4).flatMap (fun k => Config.fusedHash (k + 1)))
  | 4 => some [BitVec.ofNat 8 lc.state, BitVec.ofNat 8 s.level]
  | 5 => some (s.parts.flatMap (fun e => match e.2.image with
      | some im => im.digest
      | none => []))
  | _ => none

/-- What a request for an index returns: 0 the number of measurements, 0xFF all of them. -/
def measurements (s : State) (i : Nat) : Option (List Byte) :=
  if i = 0 then some [5#8]
  else if i = 0xFF then some ((List.range 6).flatMap (fun k => (measurement s k).getD []))
  else measurement s i

/-- GET_MEASUREMENTS: a request with a nonce is signed. -/
def getMeasurementsEffect (hd i : Nat) (nonce : List Byte) (s : State) : State :=
  let s := if nonce.isEmpty then s else signing hd s
  let c := match measurements s i with
    | some ms => if nonce.isEmpty then some ms else (identitySign s hd ((mgmtOf s hd).transcript ++ nonce ++ ms)).map (ms ++ ·)
    | none => none
  spdmStage hd 0xE0 3 c (logMsg nonce) s

/-- KEY_EXCHANGE: a session is begun under the identity key. -/
def keyExchangeEffect (hd slot : Nat) (msg : List Byte) (s : State) : State :=
  let s := signing hd s
  match (if slot = 0 && (mgmtOf s hd).session = 0 then identitySign s hd ((mgmtOf s hd).transcript ++ msg) else none) with
  | some g => spdmStage hd 0xE4 3 (some (Config.answerBody 0xE4 msg ++ g)) (fun m => logMsg msg { m with session := 1 }) s
  | none => spdmStage hd 0xE4 3 none id s

/-- FINISH: the session is established if the requester's message verifies, which the key alone decides: a free value (log 45). -/
def finishEffect (hd : Nat) (msg : List Byte) (s : State) : State :=
  if portServes s hd then
    if (mgmtOf s hd).session = 1 then
      let (v, s1) := draw s
      if v.toNat % 2 = 1 then spdmSend hd 0xE5 (some (Config.answerBody 0xE5 msg)) (logMsg msg { mgmtOf s1 hd with session := 2 }) s1
      else spdmSend hd 0xE5 none { mgmtOf s1 hd with session := 0 } s1
    else send (.spdm hd 0xE5 none) s
  else s

/-- END_SESSION: an established session ends. -/
def endSessionEffect (hd : Nat) (s : State) : State :=
  if portServes s hd then
    if (mgmtOf s hd).session = 2 then spdmSend hd 0xEC (some []) { mgmtOf s hd with session := 0 } s
    else send (.spdm hd 0xEC none) s
  else s

/-! ### UART_RECEIVE (R399), TAP_INSTRUCTION (R401) -/

/-- Debug input is permitted in BLANK and RMA (Table 15-1). -/
def debugPermitted (s : State) : Bool := s.lc.state == 1 || s.lc.state == 4

def uartEffect (hd : Nat) (c : Byte) (s : State) : State :=
  if s.power.islands && debugPermitted s then setMgmt hd { mgmtOf s hd with uart := (mgmtOf s hd).uart ++ [c] } s else s

/-- The instruction BYPASS of IEEE 1149.1: all ones (PRESUMED, log 15). -/
def tapBypass : Nat := 0xFF

/-- The instruction is executed; a Garoux debug instruction acts as BYPASS where it is refused. The register that an instruction
selects captures a value the manual does not give; BYPASS captures 0. -/
def tapEffect (code : Nat) (s : State) : State :=
  let c := if Config.tapDebug code && !debugPermitted s then tapBypass else code
  if c = tapBypass then send (.tap c 0) { s with tap := c }
  else
    let (v, s1) := draw s
    send (.tap c v.toNat) { s1 with tap := c }

/-! ### Meanings -/

def execI3cDynamicAddress (hd addr : Nat) (setdasa : Bool) (s : State) : Host.Outcome State Fault Refusal :=
  onWf (.i3cDynamicAddress hd addr setdasa) (i3cAddressEffect hd addr s)
def execMctpControl (hd : Nat) (msg : List Byte) (s : State) : Host.Outcome State Fault Refusal := onWf (.mctpControl hd msg) (mctpEffect hd msg s)
def execPldmSensorRead (hd sensor : Nat) (s : State) : Host.Outcome State Fault Refusal := onWf (.pldmSensorRead hd sensor) (pldmEffect hd sensor s)
def execGetVersion (hd : Nat) (msg : List Byte) (s : State) : Host.Outcome State Fault Refusal := onWf (.getVersion hd msg) (getVersionEffect hd msg s)
def execGetCapabilities (hd : Nat) (msg : List Byte) (s : State) : Host.Outcome State Fault Refusal :=
  onWf (.getCapabilities hd msg) (getCapabilitiesEffect hd msg s)
def execNegotiateAlgorithms (hd : Nat) (msg : List Byte) (s : State) : Host.Outcome State Fault Refusal :=
  onWf (.negotiateAlgorithms hd msg) (negotiateEffect hd msg s)
def execGetDigests (hd : Nat) (msg : List Byte) (s : State) : Host.Outcome State Fault Refusal := onWf (.getDigests hd msg) (getDigestsEffect hd msg s)
def execGetCertificate (hd slot offset len : Nat) (s : State) : Host.Outcome State Fault Refusal :=
  onWf (.getCertificate hd slot offset len) (getCertificateEffect hd slot offset len s)
def execChallenge (hd slot : Nat) (nonce : List Byte) (s : State) : Host.Outcome State Fault Refusal :=
  onWf (.challenge hd slot nonce) (challengeEffect hd slot nonce s)
def execGetMeasurements (hd index : Nat) (nonce : List Byte) (s : State) : Host.Outcome State Fault Refusal :=
  onWf (.getMeasurements hd index nonce) (getMeasurementsEffect hd index nonce s)
def execKeyExchange (hd slot : Nat) (msg : List Byte) (s : State) : Host.Outcome State Fault Refusal :=
  onWf (.keyExchange hd slot msg) (keyExchangeEffect hd slot msg s)
def execFinish (hd : Nat) (msg : List Byte) (s : State) : Host.Outcome State Fault Refusal := onWf (.finish hd msg) (finishEffect hd msg s)
def execEndSession (hd : Nat) (s : State) : Host.Outcome State Fault Refusal := onWf (.endSession hd) (endSessionEffect hd s)
def execUartReceive (hd : Nat) (c : Byte) (s : State) : Host.Outcome State Fault Refusal := onWf (.uartReceive hd c) (uartEffect hd c s)
def execTapInstruction (code : Nat) (s : State) : Host.Outcome State Fault Refusal := onWf (.tapInstruction code) (tapEffect code s)

end Sys2Proof.Machine
end

