-- ==== Sys2Proof/Machine/Pcie.lean ====
section
/-! DEFINITION. Inbound PCIe requests and the links of the sub-ports (R25, R367 to R371). -/

namespace Sys2Proof.Machine

/-- The sub-port that owns an offset of a root port's window: the existing one with the highest lowest lane (R368). -/
def subOf (s : State) (port off : Nat) : Nat :=
  let k := off / 2 ^ 42
  if k = 3 && subExists s (4 * port + 3) then 4 * port + 3
  else if 2 ≤ k && subExists s (4 * port + 2) then 4 * port + 2
  else if k = 1 && subExists s (4 * port + 1) then 4 * port + 1
  else 4 * port

/-- The first offset of a sub-port's share; its first 256 MiB are configuration space (R368). -/
def inConfig (s : State) (port off : Nat) : Bool := decide (off - (subOf s port off % 4) * 2 ^ 42 < 2 ^ 28)

/-- The sub-port into whose memory space an address leads. -/
def memSpaceSub (s : State) (a : Nat) : Option Nat :=
  if a < 2 ^ 56 then
    match classify a with
    | .pcie p off => if inConfig s p off then none else some (subOf s p off)
    | _ => none
  else none

/-- A request of a sub-port resolves nowhere: Unsupported Request, counted, EV_REGION_FAULT (R371). -/
def unsupported (sub rid : Nat) (read : Bool) (s : State) : State :=
  let s1 := raiseEvent evRegionFault sub (causeOf evRegionFault 2) { s with pcie := { s.pcie with unresolved := satAdd max32 s.pcie.unresolved 1 } }
  if read then send (.pcieDone sub rid false false []) s1 else s1

/-- A write of a sub-port is still held, at an extent or at a line's home: what the sub-port sends later does not pass it
(R256, PCIe ordering; log 44). -/
def pcieBehind (s : State) (sub : Nat) : Bool :=
  anyWait s (fun w => match w with
    | .write (.pcie k _) _ _ _ => k == sub
    | .directWrite (.pcie k _) _ _ _ => k == sub
    | _ => false)

/-- A request of the sub-port can arrive now: its link is up. -/
def inboundNow (s : State) (sub : Nat) : Bool := setHas s.pcie.link sub && !pcieBehind s sub

/-- A region entry matches a request: sub-port, requester and range (R371). -/
def entryMatches (x : Region) (sub rid a n : Nat) : Bool :=
  x.valid && x.port == sub && ((rid ^^^ x.rid) &&& x.ridMask) == 0 && inside a n x.pcieBase (x.lenPages * 4096)

/-- The lowest-numbered entry to which a request resolves. -/
def resolveEntry (s : State) (sub rid a n : Nat) (write : Bool) : Option (Nat × Region) :=
  s.regions.find? (fun e => entryMatches e.2 sub rid a n && (if write then e.2.inWr else e.2.inRd))

/-- The address lies in the MSI window. -/
def msiAddr (a : Nat) : Bool := inMsi a 1

/-! ### PCIE_INBOUND_MSI -/

/-- The file, hart and identity that an MSI names (R371). -/
def msiOk (a : Nat) (d : List Byte) : Bool :=
  d.length == 4 && irqLegal (fld a 22 16) (fld a 15 12) (fld (leNat d) 10 0)

def msiEffect (sub rid a : Nat) (d : List Byte) (s : State) : State :=
  if !msiAddr a || !inboundNow s sub then s
  else match resolveEntry s sub rid a 4 true with
  | some (_, x) => if x.msi && msiOk a d then pend (fld a 22 16) (fld a 15 12) (fld (leNat d) 10 0) s else unsupported sub rid false s
  | none => unsupported sub rid false s

/-! ### PCIE_INBOUND_P2P -/

/-- A request to another sub-port's memory space is forwarded where p2p_mask permits; otherwise no entry can cover it
(R370, R371). A sub-port whose link is down forwards nothing (R25). -/
def p2pEffect (sub rid a : Nat) (write : Bool) (d : List Byte) (s : State) : State :=
  match memSpaceSub s a with
  | some j =>
    if j = sub || !inboundNow s sub then s
    else if bit (tblGet 0 s.pcie.p2p sub) j && setHas s.pcie.link j then send (.pcieForward j rid a write d) s
    else unsupported sub rid (!write) s
  | none => s

/-! ### PCIE_INBOUND_READ, PCIE_INBOUND_WRITE -/

/-- The request is the row's own: not one that another row takes. -/
def plainInbound (s : State) (sub a : Nat) : Bool := inboundNow s sub && (match memSpaceSub s a with | some j => j == sub | none => true)

/-- A read is served on the path that its translated address gives (Table 09-1). -/
def inboundReadAt (r : Requester) (t n : Nat) (s : State) : State :=
  match classify t with
  | .umr u =>
    (match readWaits s r false u n, (linesOf u n).find? (fun l => mustWait s l r false false) with
     | some x, _ => holdRead x (.read r u n none) s
     | none, some l => queueOrServe l r false false (.read r u n none) s
     | none, none => serveRead r u n none s)
  | .direct u => readOrHold r true u n none s
  | _ => s

def inboundReadEffect (sub rid a n : Nat) (s : State) : State :=
  if !plainInbound s sub a then s
  else if msiAddr a then unsupported sub rid true s
  else match resolveEntry s sub rid a n false with
  | some (k, x) =>
    let t := x.target + (a - x.pcieBase)
    inboundReadAt (.pcie sub rid) t n (charge ((regionPart s k).getD 0) ((umrOf t).getD 0) n false s)
  | none => unsupported sub rid true s

/-- A write is performed on the path of its translated address; each line waits for itself. -/
def inboundWriteAt (r : Requester) (t : Nat) (d : List Byte) (s : State) : State :=
  match classify t with
  | .umr u => (linesOf u d.length).foldl (fun s l =>
      let (off, part) := linePart u d l
      queueOrServe l r true false (.write r (l * 64 + off) part none) s) s
  | .direct u => dirWrite r u d none s
  | _ => s

def inboundWriteEffect (sub rid a : Nat) (d : List Byte) (s : State) : State :=
  if !plainInbound s sub a || msiAddr a then s
  else match resolveEntry s sub rid a d.length true with
  | some (k, x) =>
    let t := x.target + (a - x.pcieBase)
    let u := (umrOf t).getD 0
    if protectedRange s u d.length then refuseProtected (.pcie sub rid) u s
    else inboundWriteAt (.pcie sub rid) t d (charge ((regionPart s k).getD 0) u d.length false s)
  | none => unsupported sub rid false s

/-! ### Links -/

/-- A sub-port's link trains: not before the end of bring-up releases the ports, and only where the sub-port exists (R368). -/
def linkUpEffect (sub : Nat) (s : State) : State :=
  if subExists s sub && s.bu.state = 1 then { s with pcie := { s.pcie with link := setIns sub s.pcie.link } } else s

def linkDownEffect (sub : Nat) (s : State) : State := { s with pcie := { s.pcie with link := setDel sub s.pcie.link } }

/-! ### Meanings -/

def execPcieInboundMsi (sub rid addr : Nat) (data : List Byte) (s : State) : Host.Outcome State Fault Refusal :=
  onWf (.pcieInboundMsi sub rid addr data) (msiEffect sub rid addr data s)
def execPcieInboundP2p (sub rid addr : Nat) (write : Bool) (data : List Byte) (s : State) : Host.Outcome State Fault Refusal :=
  onWf (.pcieInboundP2p sub rid addr write data) (p2pEffect sub rid addr write data s)
def execPcieInboundRead (sub rid addr len : Nat) (s : State) : Host.Outcome State Fault Refusal :=
  onWf (.pcieInboundRead sub rid addr len) (inboundReadEffect sub rid addr len s)
def execPcieInboundWrite (sub rid addr : Nat) (data : List Byte) (s : State) : Host.Outcome State Fault Refusal :=
  onWf (.pcieInboundWrite sub rid addr data) (inboundWriteEffect sub rid addr data s)
def execPcieLinkUp (sub : Nat) (s : State) : Host.Outcome State Fault Refusal := onWf (.pcieLinkUp sub) (linkUpEffect sub s)
def execPcieLinkDown (sub : Nat) (s : State) : Host.Outcome State Fault Refusal := onWf (.pcieLinkDown sub) (linkDownEffect sub s)

end Sys2Proof.Machine
end

