-- ==== Sys2Proof/Machine/Hart.lean ====
section
/-! DEFINITION. The memory accesses of the harts: plain and scoped loads and stores, fences, qsubmit, cache-block operations, atomics,
and register writes (R19 to R26, R260, R271, R275 to R279, R284 to R286, R290, R291). Addresses are physical: translation and PMP
are the standard's (log 9). -/

namespace Sys2Proof.Machine

/-! ### Where an access leads (Table 10-3) -/

/-- The range that all bytes of an access lie in; an access that leaves its range reaches none (R22, R278). -/
def hartSpace (a n : Nat) : Space :=
  match classify a, classify (a + n - 1) with
  | .umr x, .umr _ => .umr x
  | .direct x, .direct _ => .direct x
  | .regs o, .regs _ => .regs o
  | .door q o, .door _ _ => .door q o
  | .pcie p o, .pcie p1 _ => if p = p1 then .pcie p o else .none
  | .remote k o, .remote k1 _ => if k = k1 then .remote k o else .none
  | _, _ => .none

/-- Where an access to the remote consist window goes (R26): inside the package, to another package, or nowhere. -/
inductive Reach where
  | own (u : Nat)
  | other (pkg off : Nat)
  | nowhere
  deriving DecidableEq, Repr

def remoteReach (s : State) (pkg off n : Nat) : Reach :=
  match s.route with
  | some r =>
    if pkg = r.self then (if off + n ≤ umrEnd then .own off else .nowhere)
    else if (routePort s r pkg).isSome then .other pkg off
    else .nowhere
  | none => .nowhere

/-! ### Loads -/

/-- A load of another package: one request for each line (R276, R335). -/
def remoteLoad (h rd pkg off n op : Nat) (signed : Bool) (s : State) : State :=
  let k := 64 - off % 64
  if n ≤ k then sendReq pkg op (off / 64 * 64) 0 [] (.hart h) (some (rd, off % 64, n, signed)) s
  else
    let t := s.remote.nextTag
    let x : SplitLoad := { rd := rd, size := n, signed := signed, dst := pkg, parts := tblSet ((t + 1) % 4096) k [(t, 0)] }
    let s1 := sendReq pkg op (off / 64 * 64) 0 [] (.hart h) (some (rd, off % 64, k, signed)) s
    let s2 := sendReq pkg op (off / 64 * 64 + 64) 0 [] (.hart h) (some (rd, 0, n - k, signed)) s1
    modHart h (fun y => { y with splits := y.splits ++ [x] }) s2

/-- A load of a PCIe window: it waits for its completion, or where the link is down all ones return and the access is counted
(R25). -/
def pcieLoad (h rd p off n : Nat) (signed : Bool) (s : State) : State :=
  let sub := subOf s p off
  let a := pcieBase + p * 2 ^ 44 + off
  if setHas s.pcie.link sub then
    send (.pcieRead sub a n) (modHart h (fun x => { x with pcieLoads := x.pcieLoads ++ [(rd, a, n, signed)] }) s)
  else wrX h rd (loadValue (List.replicate n 255#8) n signed) { s with pcie := { s.pcie with downs := satAdd max32 s.pcie.downs 1 } }

/-- A load of the register space: naturally aligned, of 4 or 8 bytes (R474). -/
def regsLoad (h rd off n : Nat) (signed : Bool) (s : State) : State :=
  let acc := accOf off n
  let v := regRead s (off / 8 * 8)
  let half := match acc with
    | .full => v
    | .lo => v % 2 ^ 32
    | .hi => v / 2 ^ 32
  rcClear (off / 8 * 8) acc (wrX h rd (loadValue (leBytes n half) n signed) s)

/-- A plain load (R278). -/
def loadEffect (h rd a n : Nat) (signed : Bool) (s : State) : State :=
  match hartSpace a n with
  | .umr u => hartAccess h u false (.load rd n signed none) s
  | .direct u => hartAccess h u true (.load rd n signed none) s
  | .regs o => if (n = 4 || n = 8) && o % n = 0 then regsLoad h rd o n signed s else raiseTrap h .loadFault a s
  | .door _ _ => wrX h rd 0 s
  | .pcie p o => pcieLoad h rd p o n signed s
  | .remote k o =>
    (match remoteReach s k o n with
     | .own u => hartAccess h u true (.load rd n signed none) s
     | .other pkg off => remoteLoad h rd pkg off n 0 signed s
     | .nowhere => raiseTrap h .loadFault a s)
  | .none => raiseTrap h .loadFault a s

/-! ### Stores -/

/-- A store to the UMR by one of its two paths; a write-protected extent refuses it (R154). -/
def umrStore (h a u : Nat) (direct : Bool) (d : List Byte) (rel : Option Scope) (s : State) : State :=
  if protectedRange s u d.length then raiseTrap h .storeFault a (raiseEvent evRegionFault h (causeOf evRegionFault 1) s)
  else if direct then dirWrite (.hart h) u d rel s
  else cohWrite (.hart h) u d rel s

/-- A posted store to a PCIe window; discarded and counted where the link is down (R25, R271). -/
def pcieStore (p off : Nat) (d : List Byte) (s : State) : State :=
  let sub := subOf s p off
  if setHas s.pcie.link sub then send (.pcieWrite sub (pcieBase + p * 2 ^ 44 + off) d) s
  else { s with pcie := { s.pcie with downs := satAdd max32 s.pcie.downs 1 } }

/-- A store to a doorbell page (R24): 8 bytes at offset 0 ring, elsewhere they are ignored and counted; another width faults. -/
def doorStore (h a q off n : Nat) (v : Word) (s : State) : State :=
  if n ≠ 8 then raiseTrap h .storeFault a s
  else if off = 0 then ringDoorbell q v s
  else discardDoorbell q s

/-- A store of `v` to the remote consist window, as a plain or a release write. -/
def remoteStore (h a k o : Nat) (d : List Byte) (rel : Option Scope) (s : State) : State :=
  match remoteReach s k o d.length with
  | .own u => umrStore h a u true d rel s
  | .other pkg off => remoteWrite pkg (if rel == some .consist then 3 else 2) off d (.hart h) s
  | .nowhere => raiseTrap h .storeFault a s

/-- A plain store (R278). -/
def storeEffect (h a n : Nat) (v : Word) (s : State) : State :=
  let d := leBytes n v.toNat
  match hartSpace a n with
  | .umr u => umrStore h a u false d none s
  | .direct u => umrStore h a u true d none s
  | .regs o => if (n = 4 || n = 8) && o % n = 0 then regStore o n v s else raiseTrap h .storeFault a s
  | .door q o => doorStore h a q o n v s
  | .pcie p o => pcieStore p o d s
  | .remote k o => remoteStore h a k o d none s
  | .none => raiseTrap h .storeFault a s

/-! ### Scoped accesses (Table 10-5, R284 to R286) -/

def scopeOf (c : Nat) : Option Scope :=
  match c with
  | 0 => some .tile
  | 1 => some .package
  | 2 => some .consist
  | _ => none

/-- A custom-0 instruction with the given bits [14:12]. -/
def isCustom (i f3 : Nat) : Bool := fld i 6 0 == 0x0B && fld i 14 12 == f3

/-- The ranges that permit scoped accesses: UMR, direct aperture, remote consist window. -/
def scopedSpace (a n : Nat) : Bool :=
  match hartSpace a n with
  | .umr _ => true
  | .direct _ => true
  | .remote _ _ => true
  | .regs _ => false
  | .door _ _ => false
  | .pcie _ _ => false
  | .none => false

/-- A scoped load: the access fault comes before the misaligned exception (log 49). Only consist scope reaches another package as an
acquire (Table 09-2). -/
def scopedLoad (h rd a n : Nat) (sc : Scope) (s : State) : State :=
  if !scopedSpace a n then raiseTrap h .loadFault a s
  else if a % n ≠ 0 then raiseTrap h .loadMisaligned a s
  else match hartSpace a n with
  | .umr u => hartAccess h u false (.load rd n true (some sc)) s
  | .direct u => hartAccess h u true (.load rd n true (some sc)) s
  | .remote k o =>
    (match remoteReach s k o n with
     | .own u => hartAccess h u true (.load rd n true (some sc)) s
     | .other pkg off => remoteLoad h rd pkg off n (if sc == .consist then 1 else 0) true s
     | .nowhere => raiseTrap h .loadFault a s)
  | _ => s

def scldEffect (h : Nat) (insn : BitVec 32) (s : State) : State :=
  let i := insn.toNat
  if !isCustom i 1 then s
  else match scopeOf (fld i 31 30) with
  | none => raiseTrap h .illegal i s
  | some sc =>
    if fld i 29 27 ≠ 0 || fld i 24 20 ≠ 0 then raiseTrap h .illegal i s
    else scopedLoad h (fld i 11 7) (rdX s h (fld i 19 15)).toNat (2 ^ fld i 26 25) sc s

/-- A scoped store, a release write: what it waits for has ended (`insWaits`). -/
def scopedStore (h a n : Nat) (v : Word) (sc : Scope) (s : State) : State :=
  let d := leBytes n v.toNat
  if !scopedSpace a n then raiseTrap h .storeFault a s
  else if a % n ≠ 0 then raiseTrap h .storeMisaligned a s
  else match hartSpace a n with
  | .umr u => umrStore h a u false d (some sc) s
  | .direct u => umrStore h a u true d (some sc) s
  | .remote k o => remoteStore h a k o d (some sc) s
  | _ => s

def scstEffect (h : Nat) (insn : BitVec 32) (s : State) : State :=
  let i := insn.toNat
  if !isCustom i 2 then s
  else match scopeOf (fld i 31 30) with
  | none => raiseTrap h .illegal i s
  | some sc =>
    if fld i 29 27 ≠ 0 || fld i 11 7 ≠ 0 then raiseTrap h .illegal i s
    else scopedStore h (rdX s h (fld i 19 15)).toNat (2 ^ fld i 26 25) (rdX s h (fld i 24 20)) sc s

/-- What a fence's release on the accesses that pred names (I, O, R, W from bit 3) waits for. -/
def fenceWaits (s : State) (h : Nat) (sc : Scope) (pred : Nat) : Bool :=
  match sc with
  | .tile => false
  | .package => ((bit pred 0 || bit pred 2) && writesWait s (.hart h)) || ((bit pred 1 || bit pred 3) && loadsBehind s h)
  | .consist => ((bit pred 0 || bit pred 2) && (writesWait s (.hart h) || flushBehind s h)) || ((bit pred 1 || bit pred 3) && loadsBehind s h)

/-- An scfence that is legal orders accesses and has no other effect: it has waited for what it orders (`insWaits`), and what follows
has waited for it. -/
def scfenceEffect (h : Nat) (insn : BitVec 32) (s : State) : State :=
  let i := insn.toNat
  if !isCustom i 0 then s
  else if (scopeOf (fld i 8 7)).isNone || fld i 31 28 ≠ 0 || fld i 19 15 ≠ 0 || fld i 11 9 ≠ 0 then raiseTrap h .illegal i s
  else s

/-! ### qsubmit (R290, R291) -/

def qsubmitEffect (h : Nat) (insn : BitVec 32) (s : State) : State :=
  let i := insn.toNat
  if !isCustom i 3 then s
  else if fld i 31 25 ≠ 0 || fld i 11 7 ≠ 0 then raiseTrap h .illegal i s
  else
    let a := (rdX s h (fld i 19 15)).toNat
    match classify a with
    | .door q 0 => ringDoorbell q (rdX s h (fld i 24 20)) s
    | _ => raiseTrap h .storeFault a s

/-! ### Cache-block operations (R260, R279) -/

/-- The exception of a cache-block operation that xenvcfg does not permit; `on` tells whether a register enables it. -/
def cboTrap (x : Hart) (on : Nat → Bool) : Option Trap :=
  match x.mode with
  | .m => none
  | .hs => if on x.menvcfg then none else some .illegal
  | .s => if on x.menvcfg then none else some .illegal
  | .u => if on x.menvcfg && on x.senvcfg then none else some .illegal
  | .vs => if !on x.menvcfg then some .illegal else if on x.henvcfg then none else some .virtualInstr
  | .vu => if !on x.menvcfg then some .illegal else if on x.henvcfg && on x.senvcfg then none else some .virtualInstr

/-- A cache-block operation on the block of an address: only the backed UMR permits it (Table 10-3). -/
def cboRow (h a : Nat) (on : Nat → Bool) (run : Nat → State → State) (s : State) : State :=
  match cboTrap (hartOf s h) on with
  | some t => raiseTrap h t a s
  | none =>
    match classify a with
    | .umr u => run (u / 64) (settleLine (u / 64) s)
    | _ => raiseTrap h .storeFault a s

/-- CBCFE permits clean and flush, CBIE inval, CBZE zero. -/
def cbcfe (v : Nat) : Bool := bit v 6
def cbie (v : Nat) : Bool := fld v 5 4 == 1 || fld v 5 4 == 3
def cbze (v : Nat) : Bool := bit v 7

/-- cbo.zero writes one granule of zeros (R132). -/
def zeroBlock (h a l : Nat) (s : State) : State := umrStore h a (l * 64) false (List.replicate 64 0) none s

/-! ### Atomics (R275, R276, R285) -/

/-- The number that a register holds, or for 16 bytes a pair of which x0 stands for zero. -/
def rdPair (s : State) (h r n : Nat) : Nat :=
  if n = 16 then (if r = 0 then 0 else (rdX s h r).toNat + (rdX s h (r + 1)).toNat * 2 ^ 64) else (rdX s h r).toNat

/-- An atomic access: the backed UMR alone permits it, then its alignment is checked. `store` tells the kind of exception. -/
def atomicRow (h a n : Nat) (store : Bool) (op : State → HartOp) (s : State) : State :=
  match hartSpace a n with
  | .umr u =>
    if a % n ≠ 0 then raiseTrap h (if store then .storeMisaligned else .loadMisaligned) a s
    else if store && protectedRange s u n then
      raiseTrap h .storeFault a (raiseEvent evRegionFault h (causeOf evRegionFault 1) s)
    else hartAccess h u false (op s) s
  | _ => raiseTrap h (if store then .storeFault else .loadFault) a s

def amoEffect (h : Nat) (o : AmoOp) (rd rs2 a n : Nat) (aq rl : Bool) (s : State) : State :=
  atomicRow h a n true (fun s => .amo o rd (rdPair s h rs2 n) (rdPair s h rd n) n aq rl) s

def lrEffect (h rd a n : Nat) (aq : Bool) (s : State) : State := atomicRow h a n false (fun _ => .lr rd n aq) s

def scEffect (h rd rs2 a n : Nat) (aq rl : Bool) (s : State) : State :=
  atomicRow h a n true (fun s => .sc rd (rdX s h rs2).toNat n aq rl) s

/-! ### PCIE_COMPLETION (R25, R271) -/

/-- The oldest load from a PCIe window ends: with its data, or with all ones where the read is unsupported. -/
def pcieCompletionEffect (h : Nat) (ok : Bool) (v : Word) (s : State) : State :=
  match (hartOf s h).pcieLoads with
  | (rd, _, n, sg) :: rest =>
    let bs := if ok then leBytes n v.toNat else List.replicate n 255#8
    wrX h rd (loadValue bs n sg) (modHart h (fun x => { x with pcieLoads := rest }) s)
  | [] => s

/-! ### REGISTER_WRITE (R474, R475) -/

/-- A register of the device space by its address and width, or a CSR. -/
def registerWriteEffect (h : Nat) (tgt : RegTarget) (v : Word) (s : State) : State :=
  match tgt with
  | .mmio a wide =>
    let n := if wide then 8 else 4
    (match hartSpace a n with
     | .regs o => if o % n = 0 then regStore o n v s else raiseTrap h .storeFault a s
     | _ => s)
  | .csr num rd op => csrAccess h num rd op v.toNat s

/-! ### Issue in program order (R249 to R253, R285; log 46) -/

/-- The registers that an instruction reads or writes. -/
def insRegs (i : Instr) : List Nat :=
  match i with
  | .registerWrite _ (.csr _ rd _) _ => [rd]
  | .hartLoad _ rd _ _ _ => [rd]
  | .hartStore _ rs2 _ _ => [rs2]
  | .scld _ w => if isCustom w.toNat 1 then [fld w.toNat 11 7, fld w.toNat 19 15] else []
  | .scst _ w => if isCustom w.toNat 2 then [fld w.toNat 24 20, fld w.toNat 19 15] else []
  | .qsubmit _ w => if isCustom w.toNat 3 then [fld w.toNat 24 20, fld w.toNat 19 15] else []
  | .amo _ _ rd rs2 _ n _ _ => if n = 16 then [rd, rd + 1, rs2, rs2 + 1] else [rd, rs2]
  | .lr _ rd _ _ _ _ => [rd]
  | .sc _ rd rs2 _ _ _ _ => [rd, rs2]
  | .qtimeRead _ rd => [rd]
  | _ => []

/-- What an instruction's ordering waits for: a release for Table 09-4, a fence for what its pred names, a cache-block operation for
the hart's own writes of the block, a read of qtime for every earlier instruction (R251, R256, R283). -/
def insWaits (s : State) (h : Nat) (i : Instr) : Bool :=
  let block := fun (a : Nat) => match classify a with
    | .umr u => anyWait s (writeMeets (.hart h) false (u / 64 * 64) 64)
    | _ => false
  match i with
  | .registerWrite _ (.csr num _ _) _ => num == 0xCC0 && loadsBehind s h
  | .scst _ w => isCustom w.toNat 2 && (scopeOf (fld w.toNat 31 30)).any (releaseWaits s h)
  | .scfence _ w => isCustom w.toNat 0 && (scopeOf (fld w.toNat 8 7)).any (fun sc => fenceWaits s h sc (fld w.toNat 27 24))
  | .fence _ _ pred _ => fenceWaits s h .package pred.toNat
  | .qsubmit _ w => isCustom w.toNat 3 && releaseWaits s h .package
  | .amo _ _ _ _ _ _ _ rl => rl && releaseWaits s h .package
  | .lr _ _ _ _ _ rl => rl && releaseWaits s h .package
  | .sc _ _ _ _ _ _ rl => rl && releaseWaits s h .package
  | .cboClean _ a => block a
  | .cboFlush _ a => block a
  | .cboInval _ a => block a
  | .cboZero _ a => block a
  | .qtimeRead _ _ => loadsBehind s h
  | _ => false

/-- An access of hart `h` that is an acquire. -/
def acquireOf (h : Nat) (w : WaitReq) : Bool :=
  match w with
  | .hartOp k _ _ (.load _ _ _ acq) => k == h && acq.isSome
  | .hartOp k _ _ (.amo _ _ _ _ _ aq _) => k == h && aq
  | .hartOp k _ _ (.lr _ _ aq) => k == h && aq
  | .hartOp k _ _ (.sc _ _ _ aq _) => k == h && aq
  | .read r _ _ acq => r == .hart h && acq.isSome
  | .directRead r _ _ acq => r == .hart h && acq
  | .write _ _ _ _ => false
  | .directWrite _ _ _ _ => false
  | .remoteWrite _ => false

/-- An acquire read of the hart has not returned: nothing ordered after it is performed (R253). -/
def acquireBehind (s : State) (h : Nat) : Bool :=
  s.remote.out.any (fun o => o.req == .hart h && o.op == 1) || anyWait s (acquireOf h)

/-- The instruction can issue. -/
def mayIssue (s : State) (h : Nat) (i : Instr) : Bool := (insRegs i).all (fun r => !regBusy s h r) && !acquireBehind s h && !s.reqWait.any (isWriteOf (.hart h)) && !insWaits s h i

/-- The effect of an instruction of a hart that issues. -/
def insRun (i : Instr) (s : State) : State :=
  match i with
  | .registerWrite h tgt v => registerWriteEffect h tgt v s
  | .hartLoad h rd a n sg => loadEffect h rd a n sg s
  | .hartStore h rs2 a n => storeEffect h a n (rdX s h rs2) s
  | .scld h w => scldEffect h w s
  | .scst h w => scstEffect h w s
  | .scfence h w => scfenceEffect h w s
  | .qsubmit h w => qsubmitEffect h w s
  | .cboClean h a => cboRow h a cbcfe (fun l s => recallLine l s) s
  | .cboFlush h a => cboRow h a cbcfe (fun l s => invalidateLine l s) s
  | .cboInval h a => cboRow h a cbie (fun l s => invalidateLine l s) s
  | .cboZero h a => cboRow h a cbze (zeroBlock h a) s
  | .amo h o rd rs2 a n aq rl => amoEffect h o rd rs2 a n aq rl s
  | .lr h rd a n aq _ => lrEffect h rd a n aq s
  | .sc h rd rs2 a n aq rl => scEffect h rd rs2 a n aq rl s
  | .qtimeRead h rd => qtimeEffect h rd s
  | .sipiWrite h v => ipiRow h 0x5C4 (sipiWriteEffect v.toNat) s
  | .mipiWrite h v => ipiRow h 0x7C4 (mipiWriteEffect v.toNat) s
  | .rfClean h v => rfRow h 1 v s
  | .rfFlush h v => rfRow h 2 v s
  | .rfInvalidate h v => rfRow h 3 v s
  | _ => s

/-- Instructions that waited issue in program order, as far as they can. -/
def issueWaiting (h : Nat) : Nat → State → State
  | 0, s => s
  | n + 1, s =>
    match (hartOf s h).waiting with
    | i :: rest => if mayIssue s h i then issueWaiting h n (insRun i (modHart h (fun x => { x with waiting := rest }) s)) else s
    | [] => s

/-- The next instruction of a hart issues, or waits behind what waits already; none runs while the harts are in reset (R297). -/
def issueIns (h : Nat) (i : Instr) (s : State) : State :=
  if s.bu.state ≠ 1 then s
  else
    let s1 := issueWaiting h (hartOf s h).waiting.length s
    if (hartOf s1 h).waiting.isEmpty && mayIssue s1 h i then insRun i s1
    else modHart h (fun x => { x with waiting := x.waiting ++ [i] }) s1

/-- The hart runs, nothing waits before the instruction, and it can issue. -/
def issues (s : State) (h : Nat) (i : Instr) : Bool := s.bu.state == 1 && (hartOf s h).waiting.isEmpty && mayIssue s h i

/-! ### Idling -/

/-- What the package does when no command waits: one tick of the timing clock passes, and what has waited for others goes on: requests
at their requesters, requests of other packages, the harts (log 2). -/
def idle (s : State) : State :=
  let s1 := retryReq (tick s)
  let s2 := ((s1.remote.src.filter (fun e => nextHere e.2)).map (·.1)).foldl (fun s p => drainSource p ((srcOf s p).early.length + 1) s) s1
  ((s2.harts.filter (fun e => !e.2.waiting.isEmpty)).map (·.1)).foldl (fun s h => issueWaiting h (hartOf s h).waiting.length s) s2

/-! ### Meanings -/

def execRegisterWrite (hart : Nat) (tgt : RegTarget) (v : Word) (s : State) : Host.Outcome State Fault Refusal :=
  onWf (.registerWrite hart tgt v) (issueIns hart (.registerWrite hart tgt v) s)
def execHartLoad (hart rd addr size : Nat) (signed : Bool) (s : State) : Host.Outcome State Fault Refusal :=
  onWf (.hartLoad hart rd addr size signed) (issueIns hart (.hartLoad hart rd addr size signed) s)
def execHartStore (hart rs2 addr size : Nat) (s : State) : Host.Outcome State Fault Refusal :=
  onWf (.hartStore hart rs2 addr size) (issueIns hart (.hartStore hart rs2 addr size) s)
def execScld (hart : Nat) (insn : BitVec 32) (s : State) : Host.Outcome State Fault Refusal :=
  onWf (.scld hart insn) (issueIns hart (.scld hart insn) s)
def execScst (hart : Nat) (insn : BitVec 32) (s : State) : Host.Outcome State Fault Refusal :=
  onWf (.scst hart insn) (issueIns hart (.scst hart insn) s)
def execScfence (hart : Nat) (insn : BitVec 32) (s : State) : Host.Outcome State Fault Refusal :=
  onWf (.scfence hart insn) (issueIns hart (.scfence hart insn) s)
def execFence (hart : Nat) (tso : Bool) (pred succ : BitVec 4) (s : State) : Host.Outcome State Fault Refusal :=
  onWf (.fence hart tso pred succ) (issueIns hart (.fence hart tso pred succ) s)
def execQsubmit (hart : Nat) (insn : BitVec 32) (s : State) : Host.Outcome State Fault Refusal :=
  onWf (.qsubmit hart insn) (issueIns hart (.qsubmit hart insn) s)
def execCboClean (hart addr : Nat) (s : State) : Host.Outcome State Fault Refusal :=
  onWf (.cboClean hart addr) (issueIns hart (.cboClean hart addr) s)
def execCboFlush (hart addr : Nat) (s : State) : Host.Outcome State Fault Refusal :=
  onWf (.cboFlush hart addr) (issueIns hart (.cboFlush hart addr) s)
def execCboInval (hart addr : Nat) (s : State) : Host.Outcome State Fault Refusal :=
  onWf (.cboInval hart addr) (issueIns hart (.cboInval hart addr) s)
def execCboZero (hart addr : Nat) (s : State) : Host.Outcome State Fault Refusal :=
  onWf (.cboZero hart addr) (issueIns hart (.cboZero hart addr) s)
def execAmo (hart : Nat) (op : AmoOp) (rd rs2 addr size : Nat) (aq rl : Bool) (s : State) : Host.Outcome State Fault Refusal :=
  onWf (.amo hart op rd rs2 addr size aq rl) (issueIns hart (.amo hart op rd rs2 addr size aq rl) s)
def execLr (hart rd addr size : Nat) (aq rl : Bool) (s : State) : Host.Outcome State Fault Refusal :=
  onWf (.lr hart rd addr size aq rl) (issueIns hart (.lr hart rd addr size aq rl) s)
def execSc (hart rd rs2 addr size : Nat) (aq rl : Bool) (s : State) : Host.Outcome State Fault Refusal :=
  onWf (.sc hart rd rs2 addr size aq rl) (issueIns hart (.sc hart rd rs2 addr size aq rl) s)
def execSipiWrite (hart : Nat) (v : Word) (s : State) : Host.Outcome State Fault Refusal :=
  onWf (.sipiWrite hart v) (issueIns hart (.sipiWrite hart v) s)
def execMipiWrite (hart : Nat) (v : Word) (s : State) : Host.Outcome State Fault Refusal :=
  onWf (.mipiWrite hart v) (issueIns hart (.mipiWrite hart v) s)
def execQtimeRead (hart rd : Nat) (s : State) : Host.Outcome State Fault Refusal :=
  onWf (.qtimeRead hart rd) (issueIns hart (.qtimeRead hart rd) s)
def execRfClean (hart : Nat) (v : Word) (s : State) : Host.Outcome State Fault Refusal :=
  onWf (.rfClean hart v) (issueIns hart (.rfClean hart v) s)
def execRfFlush (hart : Nat) (v : Word) (s : State) : Host.Outcome State Fault Refusal :=
  onWf (.rfFlush hart v) (issueIns hart (.rfFlush hart v) s)
def execRfInvalidate (hart : Nat) (v : Word) (s : State) : Host.Outcome State Fault Refusal :=
  onWf (.rfInvalidate hart v) (issueIns hart (.rfInvalidate hart v) s)
def execPcieCompletion (hart : Nat) (ok : Bool) (data : Word) (s : State) : Host.Outcome State Fault Refusal :=
  onWf (.pcieCompletion hart ok data) (pcieCompletionEffect hart ok data s)

end Sys2Proof.Machine
end

