-- ==== Sys2Proof/Machine/Dispatch.lean ====
section
/-! DEFINITION. What each command does: one direct call of its meaning for each constructor. -/

namespace Sys2Proof.Machine

def exec (i : Instr) (s : State) : Host.Outcome State Fault Refusal :=
  match i with
  | .versionHello ch hdr pl => Sys2Proof.Machine.execVersionHello ch hdr pl s
  | .partCreate ch hdr pl => Sys2Proof.Machine.execPartCreate ch hdr pl s
  | .partDissolve ch hdr pl => Sys2Proof.Machine.execPartDissolve ch hdr pl s
  | .slateInstall ch hdr pl => Sys2Proof.Machine.execSlateInstall ch hdr pl s
  | .jobOpen ch hdr pl => Sys2Proof.Machine.execJobOpen ch hdr pl s
  | .jobClose ch hdr pl => Sys2Proof.Machine.execJobClose ch hdr pl s
  | .sealModel ch hdr pl => Sys2Proof.Machine.execSealModel ch hdr pl s
  | .tileRetire ch sub => Sys2Proof.Machine.execTileRetire ch sub s
  | .telemetryRead ch hdr pl => Sys2Proof.Machine.execTelemetryRead ch hdr pl s
  | .clampReportRead ch hdr pl => Sys2Proof.Machine.execClampReportRead ch hdr pl s
  | .receiptFetch ch hdr pl => Sys2Proof.Machine.execReceiptFetch ch hdr pl s
  | .routeInstall ch hdr pl => Sys2Proof.Machine.execRouteInstall ch hdr pl s
  | .powerSet ch hdr pl => Sys2Proof.Machine.execPowerSet ch hdr pl s
  | .powerDown ch sub => Sys2Proof.Machine.execPowerDown ch sub s
  | .reset ch sub => Sys2Proof.Machine.execReset ch sub s
  | .packageReset ch sub t => Sys2Proof.Machine.execPackageReset ch sub t s
  | .lifecycleAdvance ch hdr pl t => Sys2Proof.Machine.execLifecycleAdvance ch hdr pl t s
  | .lifecycleStage ch hdr pl => Sys2Proof.Machine.execLifecycleStage ch hdr pl s
  | .lifecycleCommit ch hdr pl => Sys2Proof.Machine.execLifecycleCommit ch hdr pl s
  | .cbxAck ch acc v => Sys2Proof.Machine.execCbxAck ch acc v s
  | .cbxIrqWrite ch acc v => Sys2Proof.Machine.execCbxIrqWrite ch acc v s
  | .cbxDiscardsRead hart rd ch acc => Sys2Proof.Machine.execCbxDiscardsRead hart rd ch acc s
  | .standbyTakeover t => Sys2Proof.Machine.execStandbyTakeover t s
  | .registerWrite hart tgt v => Sys2Proof.Machine.execRegisterWrite hart tgt v s
  | .queueEnable q acc v => Sys2Proof.Machine.execQueueEnable q acc v s
  | .queueDisable q acc v => Sys2Proof.Machine.execQueueDisable q acc v s
  | .regionValidate r acc v => Sys2Proof.Machine.execRegionValidate r acc v s
  | .regionInvalidate r acc v => Sys2Proof.Machine.execRegionInvalidate r acc v s
  | .qtzLoad acc v => Sys2Proof.Machine.execQtzLoad acc v s
  | .qtzStateWrite acc v => Sys2Proof.Machine.execQtzStateWrite acc v s
  | .dblAheadCountRead hart rd acc => Sys2Proof.Machine.execDblAheadCountRead hart rd acc s
  | .dblDiscardsRead hart rd acc => Sys2Proof.Machine.execDblDiscardsRead hart rd acc s
  | .fncMismatchRead hart rd u acc => Sys2Proof.Machine.execFncMismatchRead hart rd u acc s
  | .pwrFlagsWrite acc v => Sys2Proof.Machine.execPwrFlagsWrite acc v s
  | .thmFlagsWrite acc v => Sys2Proof.Machine.execThmFlagsWrite acc v s
  | .hartLoad hart rd addr size signed => Sys2Proof.Machine.execHartLoad hart rd addr size signed s
  | .hartStore hart rs2 addr size => Sys2Proof.Machine.execHartStore hart rs2 addr size s
  | .scld hart insn => Sys2Proof.Machine.execScld hart insn s
  | .scst hart insn => Sys2Proof.Machine.execScst hart insn s
  | .scfence hart insn => Sys2Proof.Machine.execScfence hart insn s
  | .fence hart tso pred succ => Sys2Proof.Machine.execFence hart tso pred succ s
  | .qsubmit hart insn => Sys2Proof.Machine.execQsubmit hart insn s
  | .cboClean hart addr => Sys2Proof.Machine.execCboClean hart addr s
  | .cboFlush hart addr => Sys2Proof.Machine.execCboFlush hart addr s
  | .cboInval hart addr => Sys2Proof.Machine.execCboInval hart addr s
  | .cboZero hart addr => Sys2Proof.Machine.execCboZero hart addr s
  | .qtimeRead hart rd => Sys2Proof.Machine.execQtimeRead hart rd s
  | .sipiWrite hart v => Sys2Proof.Machine.execSipiWrite hart v s
  | .mipiWrite hart v => Sys2Proof.Machine.execMipiWrite hart v s
  | .machineTimer hart => Sys2Proof.Machine.execMachineTimer hart s
  | .rfClean hart v => Sys2Proof.Machine.execRfClean hart v s
  | .rfFlush hart v => Sys2Proof.Machine.execRfFlush hart v s
  | .rfInvalidate hart v => Sys2Proof.Machine.execRfInvalidate hart v s
  | .rfComplete pd => Sys2Proof.Machine.execRfComplete pd s
  | .coherentRead req addr len acq => Sys2Proof.Machine.execCoherentRead req addr len acq s
  | .coherentWrite req addr data rel => Sys2Proof.Machine.execCoherentWrite req addr data rel s
  | .directRead req addr len acq => Sys2Proof.Machine.execDirectRead req addr len acq s
  | .directWrite req addr data => Sys2Proof.Machine.execDirectWrite req addr data s
  | .directWriteDrain home => Sys2Proof.Machine.execDirectWriteDrain home s
  | .lineWriteback cache line => Sys2Proof.Machine.execLineWriteback cache line s
  | .grantHoldExpiry line => Sys2Proof.Machine.execGrantHoldExpiry line s
  | .snoopAnswer line => Sys2Proof.Machine.execSnoopAnswer line s
  | .doorbell q v => Sys2Proof.Machine.execDoorbell q v s
  | .descriptorReadReturn q => Sys2Proof.Machine.execDescriptorReadReturn q s
  | .descriptorRepoll q => Sys2Proof.Machine.execDescriptorRepoll q s
  | .completionRecord q => Sys2Proof.Machine.execCompletionRecord q s
  | .copy w => Sys2Proof.Machine.execCopy w s
  | .gather w => Sys2Proof.Machine.execGather w s
  | .scatter w => Sys2Proof.Machine.execScatter w s
  | .convert w => Sys2Proof.Machine.execConvert w s
  | .digest w => Sys2Proof.Machine.execDigest w s
  | .invalidate w => Sys2Proof.Machine.execInvalidate w s
  | .cubeOperation stream => Sys2Proof.Machine.execCubeOperation stream s
  | .vectorProgram stream => Sys2Proof.Machine.execVectorProgram stream s
  | .updateProgram stream => Sys2Proof.Machine.execUpdateProgram stream s
  | .bankGrant stream => Sys2Proof.Machine.execBankGrant stream s
  | .nullAction stream => Sys2Proof.Machine.execNullAction stream s
  | .allReduce stream => Sys2Proof.Machine.execAllReduce stream s
  | .reduceScatter stream => Sys2Proof.Machine.execReduceScatter stream s
  | .allGather stream => Sys2Proof.Machine.execAllGather stream s
  | .gradientAllReduce stream => Sys2Proof.Machine.execGradientAllReduce stream s
  | .barrier stream => Sys2Proof.Machine.execBarrier stream s
  | .promote stream => Sys2Proof.Machine.execPromote stream s
  | .demote stream => Sys2Proof.Machine.execDemote stream s
  | .writeBack stream => Sys2Proof.Machine.execWriteBack stream s
  | .discard stream => Sys2Proof.Machine.execDiscard stream s
  | .relocationWindow stream => Sys2Proof.Machine.execRelocationWindow stream s
  | .expire stream => Sys2Proof.Machine.execExpire stream s
  | .actionComplete stream entry => Sys2Proof.Machine.execActionComplete stream entry s
  | .gateVisible stream cls => Sys2Proof.Machine.execGateVisible stream cls s
  | .nop tile insn => Sys2Proof.Machine.execNop tile insn s
  | .vadd tile insn => Sys2Proof.Machine.execVadd tile insn s
  | .vmul tile insn => Sys2Proof.Machine.execVmul tile insn s
  | .vfma tile insn => Sys2Proof.Machine.execVfma tile insn s
  | .vmax tile insn => Sys2Proof.Machine.execVmax tile insn s
  | .vmin tile insn => Sys2Proof.Machine.execVmin tile insn s
  | .vsel tile insn => Sys2Proof.Machine.execVsel tile insn s
  | .vcmp tile insn => Sys2Proof.Machine.execVcmp tile insn s
  | .vsign tile insn => Sys2Proof.Machine.execVsign tile insn s
  | .vexp tile insn => Sys2Proof.Machine.execVexp tile insn s
  | .vlog tile insn => Sys2Proof.Machine.execVlog tile insn s
  | .vrsqrt tile insn => Sys2Proof.Machine.execVrsqrt tile insn s
  | .vcvt tile insn => Sys2Proof.Machine.execVcvt tile insn s
  | .vcvta tile insn => Sys2Proof.Machine.execVcvta tile insn s
  | .va128add tile insn => Sys2Proof.Machine.execVa128add tile insn s
  | .va128rsum tile insn => Sys2Proof.Machine.execVa128rsum tile insn s
  | .vreanchor tile insn => Sys2Proof.Machine.execVreanchor tile insn s
  | .va128drain tile insn => Sys2Proof.Machine.execVa128drain tile insn s
  | .vld tile insn => Sys2Proof.Machine.execVld tile insn s
  | .vst tile insn => Sys2Proof.Machine.execVst tile insn s
  | .aset tile insn => Sys2Proof.Machine.execAset tile insn s
  | .aadd tile insn => Sys2Proof.Machine.execAadd tile insn s
  | .loop tile insn => Sys2Proof.Machine.execLoop tile insn s
  | .endProg tile insn => Sys2Proof.Machine.execEndProg tile insn s
  | .updateMarkerWrite tile => Sys2Proof.Machine.execUpdateMarkerWrite tile s
  | .updatePhase2 tile => Sys2Proof.Machine.execUpdatePhase2 tile s
  | .updateWriteback tile => Sys2Proof.Machine.execUpdateWriteback tile s
  | .t0Reached part => Sys2Proof.Machine.execT0Reached part s
  | .slotBind part => Sys2Proof.Machine.execSlotBind part s
  | .slotOpen part => Sys2Proof.Machine.execSlotOpen part s
  | .epochLocalComplete part => Sys2Proof.Machine.execEpochLocalComplete part s
  | .latenessReport stream => Sys2Proof.Machine.execLatenessReport stream s
  | .holdNotice port n => Sys2Proof.Machine.execHoldNotice port n s
  | .replayNotice port n => Sys2Proof.Machine.execReplayNotice port n s
  | .abortNotice port n => Sys2Proof.Machine.execAbortNotice port n s
  | .degradeNotice port n => Sys2Proof.Machine.execDegradeNotice port n s
  | .commitNotice port n => Sys2Proof.Machine.execCommitNotice port n s
  | .probeNotice port n => Sys2Proof.Machine.execProbeNotice port n s
  | .probeSend => Sys2Proof.Machine.execProbeSend s
  | .holdInstant part => Sys2Proof.Machine.execHoldInstant part s
  | .replayInstant part => Sys2Proof.Machine.execReplayInstant part s
  | .restartInstant part => Sys2Proof.Machine.execRestartInstant part s
  | .abortInstant part => Sys2Proof.Machine.execAbortInstant part s
  | .tileWatchdog stream => Sys2Proof.Machine.execTileWatchdog stream s
  | .unitWatchdog stream => Sys2Proof.Machine.execUnitWatchdog stream s
  | .testStepStart tile mem => Sys2Proof.Machine.execTestStepStart tile mem s
  | .testStepComplete tile mem o => Sys2Proof.Machine.execTestStepComplete tile mem o s
  | .vaultTestStep hd o => Sys2Proof.Machine.execVaultTestStep hd o s
  | .vaultWipeComplete hd => Sys2Proof.Machine.execVaultWipeComplete hd s
  | .hbmBucketRefill => Sys2Proof.Machine.execHbmBucketRefill s
  | .flashBucketRefill => Sys2Proof.Machine.execFlashBucketRefill s
  | .patrolScrub line o => Sys2Proof.Machine.execPatrolScrub line o s
  | .channelFault stack channel => Sys2Proof.Machine.execChannelFault stack channel s
  | .cacheFill die line => Sys2Proof.Machine.execCacheFill die line s
  | .sectorRead req ext sector o => Sys2Proof.Machine.execSectorRead req ext sector o s
  | .promotionSwitch ext => Sys2Proof.Machine.execPromotionSwitch ext s
  | .demotionPass ext => Sys2Proof.Machine.execDemotionPass ext s
  | .relocationStart stack block => Sys2Proof.Machine.execRelocationStart stack block s
  | .relocationSwitch stack block => Sys2Proof.Machine.execRelocationSwitch stack block s
  | .blockFailure stack block => Sys2Proof.Machine.execBlockFailure stack block s
  | .tenderRestart hd => Sys2Proof.Machine.execTenderRestart hd s
  | .tenderRestartDone hd => Sys2Proof.Machine.execTenderRestartDone hd s
  | .flit link dir bytes => Sys2Proof.Machine.execFlit link dir bytes s
  | .laneFailure link dir lane => Sys2Proof.Machine.execLaneFailure link dir lane s
  | .directionResume link dir => Sys2Proof.Machine.execDirectionResume link dir s
  | .frame port bytes => Sys2Proof.Machine.execFrame port bytes s
  | .nguixLaneFailure port lane => Sys2Proof.Machine.execNguixLaneFailure port lane s
  | .portResume port => Sys2Proof.Machine.execPortResume port s
  | .portTraining port r => Sys2Proof.Machine.execPortTraining port r s
  | .routeAnnounce port nbr nbrPort => Sys2Proof.Machine.execRouteAnnounce port nbr nbrPort s
  | .laserModuleReady k => Sys2Proof.Machine.execLaserModuleReady k s
  | .laserModuleFault k => Sys2Proof.Machine.execLaserModuleFault k s
  | .timingSymbol port tTx tE1 tE2 tHold => Sys2Proof.Machine.execTimingSymbol port tTx tE1 tE2 tHold s
  | .timingSymbolSend port => Sys2Proof.Machine.execTimingSymbolSend port s
  | .remoteRead m => Sys2Proof.Machine.execRemoteRead m s
  | .remoteReadAcquire m => Sys2Proof.Machine.execRemoteReadAcquire m s
  | .remoteWrite m => Sys2Proof.Machine.execRemoteWrite m s
  | .remoteWriteRelease m => Sys2Proof.Machine.execRemoteWriteRelease m s
  | .remoteWriteAcked m => Sys2Proof.Machine.execRemoteWriteAcked m s
  | .remoteWriteReleaseAcked m => Sys2Proof.Machine.execRemoteWriteReleaseAcked m s
  | .remoteReadData m => Sys2Proof.Machine.execRemoteReadData m s
  | .remoteWriteAck m => Sys2Proof.Machine.execRemoteWriteAck m s
  | .remoteError m => Sys2Proof.Machine.execRemoteError m s
  | .pseqGapSkip src => Sys2Proof.Machine.execPseqGapSkip src s
  | .remoteTimeout dst tag => Sys2Proof.Machine.execRemoteTimeout dst tag s
  | .collectivePacket p => Sys2Proof.Machine.execCollectivePacket p s
  | .pcieInboundMsi sub rid addr data => Sys2Proof.Machine.execPcieInboundMsi sub rid addr data s
  | .pcieInboundP2p sub rid addr write data => Sys2Proof.Machine.execPcieInboundP2p sub rid addr write data s
  | .pcieInboundRead sub rid addr len => Sys2Proof.Machine.execPcieInboundRead sub rid addr len s
  | .pcieInboundWrite sub rid addr data => Sys2Proof.Machine.execPcieInboundWrite sub rid addr data s
  | .pcieLinkUp sub => Sys2Proof.Machine.execPcieLinkUp sub s
  | .pcieLinkDown sub => Sys2Proof.Machine.execPcieLinkDown sub s
  | .qrefLock => Sys2Proof.Machine.execQrefLock s
  | .qrefLoss => Sys2Proof.Machine.execQrefLoss s
  | .upstreamLoss => Sys2Proof.Machine.execUpstreamLoss s
  | .alternateLock port => Sys2Proof.Machine.execAlternateLock port s
  | .ppsEdge width => Sys2Proof.Machine.execPpsEdge width s
  | .controlInterval m => Sys2Proof.Machine.execControlInterval m s
  | .pointChangeComplete a => Sys2Proof.Machine.execPointChangeComplete a s
  | .thermalSample tj temps => Sys2Proof.Machine.execThermalSample tj temps s
  | .thermalTrip die => Sys2Proof.Machine.execThermalTrip die s
  | .guardbandRaise die m => Sys2Proof.Machine.execGuardbandRaise die m s
  | .clockStretch cluster percent => Sys2Proof.Machine.execClockStretch cluster percent s
  | .supplyWarn mv => Sys2Proof.Machine.execSupplyWarn mv s
  | .supplyFault mv => Sys2Proof.Machine.execSupplyFault mv s
  | .supplyRecovery t => Sys2Proof.Machine.execSupplyRecovery t s
  | .islandSupplyLoss mv => Sys2Proof.Machine.execIslandSupplyLoss mv s
  | .wakeFromOff t => Sys2Proof.Machine.execWakeFromOff t s
  | .tamperEvent hd source => Sys2Proof.Machine.execTamperEvent hd source s
  | .pwrGoodInRise t => Sys2Proof.Machine.execPwrGoodInRise t s
  | .pwrGoodInFall => Sys2Proof.Machine.execPwrGoodInFall s
  | .resetInNAssert => Sys2Proof.Machine.execResetInNAssert s
  | .resetInNRelease t => Sys2Proof.Machine.execResetInNRelease t s
  | .bringupStepTimeout step => Sys2Proof.Machine.execBringupStepTimeout step s
  | .recordCommit => Sys2Proof.Machine.execRecordCommit s
  | .batchTimeout => Sys2Proof.Machine.execBatchTimeout s
  | .batchRecord => Sys2Proof.Machine.execBatchRecord s
  | .i3cDynamicAddress hd addr setdasa => Sys2Proof.Machine.execI3cDynamicAddress hd addr setdasa s
  | .mctpControl hd msg => Sys2Proof.Machine.execMctpControl hd msg s
  | .pldmSensorRead hd sensor => Sys2Proof.Machine.execPldmSensorRead hd sensor s
  | .getVersion hd msg => Sys2Proof.Machine.execGetVersion hd msg s
  | .getCapabilities hd msg => Sys2Proof.Machine.execGetCapabilities hd msg s
  | .negotiateAlgorithms hd msg => Sys2Proof.Machine.execNegotiateAlgorithms hd msg s
  | .getDigests hd msg => Sys2Proof.Machine.execGetDigests hd msg s
  | .getCertificate hd slot offset len => Sys2Proof.Machine.execGetCertificate hd slot offset len s
  | .challenge hd slot nonce => Sys2Proof.Machine.execChallenge hd slot nonce s
  | .getMeasurements hd index nonce => Sys2Proof.Machine.execGetMeasurements hd index nonce s
  | .keyExchange hd slot msg => Sys2Proof.Machine.execKeyExchange hd slot msg s
  | .finish hd msg => Sys2Proof.Machine.execFinish hd msg s
  | .endSession hd => Sys2Proof.Machine.execEndSession hd s
  | .uartReceive hd c => Sys2Proof.Machine.execUartReceive hd c s
  | .amo hart op rd rs2 addr size aq rl => Sys2Proof.Machine.execAmo hart op rd rs2 addr size aq rl s
  | .lr hart rd addr size aq rl => Sys2Proof.Machine.execLr hart rd addr size aq rl s
  | .sc hart rd rs2 addr size aq rl => Sys2Proof.Machine.execSc hart rd rs2 addr size aq rl s
  | .pcieCompletion hart ok data => Sys2Proof.Machine.execPcieCompletion hart ok data s
  | .tapInstruction code => Sys2Proof.Machine.execTapInstruction code s
  | .stimecmp hart virt => Sys2Proof.Machine.execStimecmp hart virt s
  | .supplyWarnRearm mv => Sys2Proof.Machine.execSupplyWarnRearm mv s

end Sys2Proof.Machine
end

