-- ==== Sys2Proof/Machine/Step.lean ====
section
/-! DEFINITION. One step of the block: the command at the front of the queue, or a tick of the timing clock. -/

namespace Sys2Proof.Machine

/-- The state without its oldest command. -/
def State.popped (s : State) : State := { s with pending := s.pending.tail }

/-- One step: the oldest command that waits runs on the state with the queue's rest; with none waiting, one tick of
the 250 MHz timing clock passes, and what waits for others goes on (R148, R382; log 2). -/
def step (s : State) : Host.Outcome State Fault Refusal :=
  match s.pending with
  | [] => .next (serveWaiting (runCommand {}) 16 (idle s))
  | c :: _ => exec c s.popped

/-- The state with the command that a word spells put at the front of its queue. -/
def State.withFetchWord (s : State) (nbits w : Nat) : State :=
  match decodeTableWord nbits w with
  | some c => { s with pending := c :: s.pending }
  | none => s

end Sys2Proof.Machine
end

