-- ==== Sys2Proof/Safety.lean ====
section
/-! DEFINITION. What the claims call a safe run: what holds in every state, what no step undoes, and a step that answers a
next state. -/

namespace Sys2Proof.Machine

/-- The byte memories of a state are in canonical form. -/
def State.memOk (s : State) : Bool := memWf s.mem && memWf s.flash && memWf s.tileMem

/-- The code of an event of Table 00-8 (R12). -/
def legalCode (code : Nat) : Bool := decide (1 ≤ code) && decide (code ≤ 10)

/-- The event log holds its latest 1,024 records, each with a code of Table 00-8 (R12, R395). -/
def eventsOk (l : List EventRec) : Bool := decide (l.length ≤ 1024) && l.all (fun e => legalCode e.code)

/-- The svn of the image that runs, by type: 0 Caboose, 1 processor (R414). -/
def runningSvn (lc : LifeCycle) (ty : Nat) : Nat :=
  (tblGet {} lc.slots (2 * ty + (if ty = 0 then lc.runCab else lc.runProc))).svn

/-- The life-cycle fuses are as the manual allows: a state of Table 15-1, at most eight entries into RMA (R402) and eight
commits of a type of image, and images that run with an svn not below the fused minimum (R413, R415). -/
structure FusesOk (lc : LifeCycle) : Prop where
  state : 1 ≤ lc.state ∧ lc.state ≤ 5
  rma : lc.rmaEntries ≤ 8
  commits : lc.commitsCab ≤ 8 ∧ lc.commitsProc ≤ 8
  runs : lc.runCab ≤ 1 ∧ lc.runProc ≤ 1
  svnCab : lc.svnCab ≤ runningSvn lc 0
  svnProc : lc.svnProc ≤ runningSvn lc 1

/-- What holds in every state that the package reaches. -/
structure State.Inv (s : State) : Prop where
  mem : memWf s.mem = true
  flash : memWf s.flash = true
  tileMem : memWf s.tileMem = true
  events : eventsOk s.events = true
  fuses : FusesOk s.lc

/-- From `a` to `b` no fuse and no committed entry of the persistent record goes back: spares and device_id stay, counts and
minimum svns never fall, an enrolled package stays enrolled, SCRAP is never left and BLANK never entered (R89, R402, R405, R406,
R410, R415, R449). -/
structure FusesKept (a b : State) : Prop where
  spares : b.spares = a.spares
  deviceId : b.lc.deviceId = a.lc.deviceId
  record : a.record.committed <+: b.record.committed
  transCount : a.lc.transCount ≤ b.lc.transCount
  rmaEntries : a.lc.rmaEntries ≤ b.lc.rmaEntries
  svnCab : a.lc.svnCab ≤ b.lc.svnCab
  svnProc : a.lc.svnProc ≤ b.lc.svnProc
  commitsCab : a.lc.commitsCab ≤ b.lc.commitsCab
  commitsProc : a.lc.commitsProc ≤ b.lc.commitsProc
  enrolled : a.lc.enrolled = true → b.lc.enrolled = true
  scrap : a.lc.state = 5 → b.lc.state = 5
  blank : b.lc.state = 1 → a.lc.state = 1

/-- A request against which nothing stands that every command checks: its message fits, an active Caboose serves the idle
channel, the header carries the command, its length and the next sequence number, the form is right, and a generation is
negotiated under which the channel may carry the command; VERSION_HELLO needs neither the sequence number nor the generation.
No earlier command on the same partition is in progress (R376 to R382, R384, R393). -/
def ready (s : State) (code ch : Nat) (hdr : Word) (pl : List Word) : Bool :=
  decide (pl.length ≤ 255) && s.active.isSome && !(chanOf s ch).busy && wf hdr 47 32 == code && wf hdr 15 0 == 8 * pl.length &&
  (code == 1 || wf hdr 31 16 == ((chanOf s ch).lastSeq + 1) % 65536) &&
  (code == 1 || (decide ((chanOf s ch).gen ≠ 0) && admitted s ch code pl)) &&
  (malformed s.lc.state (chanOf s ch).gen hdr.toNat pl).isNone && !behindOther s ch code pl

/-- The row of the table that the message of a channel's request area is when go is written: that of the command in its header,
a RESET by its scope, a LIFECYCLE_ADVANCE by its op. `t` is what the self-tests of a reset find. -/
def goRow (t : SelfTest) (ch : Nat) (hdr : Word) (pl : List Word) : Option Instr :=
  match wf hdr 47 32 with
  | 0x0001 => some (.versionHello ch hdr pl)
  | 0x0010 => some (.partCreate ch hdr pl)
  | 0x0011 => some (.partDissolve ch hdr pl)
  | 0x0020 => some (.slateInstall ch hdr pl)
  | 0x0021 => some (.jobOpen ch hdr pl)
  | 0x0022 => some (.jobClose ch hdr pl)
  | 0x0030 => some (.sealModel ch hdr pl)
  | 0x0040 => some (.tileRetire ch (.go hdr pl))
  | 0x0050 => some (.telemetryRead ch hdr pl)
  | 0x0051 => some (.clampReportRead ch hdr pl)
  | 0x0060 => some (.receiptFetch ch hdr pl)
  | 0x0070 => some (.routeInstall ch hdr pl)
  | 0x0080 => some (.powerSet ch hdr pl)
  | 0x0081 => some (.powerDown ch (.go hdr pl))
  | 0x0090 => some (if bit (wd pl 0).toNat 59 then .packageReset ch (.go hdr pl) t else .reset ch (.go hdr pl))
  | 0x00A0 => match wf (wd pl 0) 63 56 with
    | 1 => some (.lifecycleAdvance ch hdr pl t)
    | 2 => some (.lifecycleStage ch hdr pl)
    | 3 => some (.lifecycleCommit ch hdr pl)
    | _ => none
  | _ => none

/-- The outcome is a next state. -/
def isNext (o : Host.Outcome State Fault Refusal) : Bool :=
  match o with
  | .next _ => true
  | .fault _ => false
  | .refused _ => false

end Sys2Proof.Machine
end

