-- ==== Sys2Proof/Certificates/Slice0/Obligations.lean ====
section
/-! DEFINITION. The statements about the model, each an `Obligations.<Name> : Prop`. -/

open Sys2Proof Sys2Proof.Machine

/-! ### The block -/

/-- A step with a command at the front of the queue is that command's effect on the state with the rest of the queue; with an
empty queue the block idles: one tick of the 250 MHz timing clock passes and adds the rate word to the Quartz, what waits for
others goes on, and the mailbox requests that waited for an earlier one are executed (R382, log 70); where nothing waits, nothing else
changes (the model's choice, log 2). -/
def Obligations.StepRunsTheFrontCommand : Prop :=
  (∀ c q (s : State), step { s with pending := c :: q } = exec c { s with pending := q }) ∧
  (∀ s : State, s.pending = [] → step s = .next (serveWaiting (runCommand {}) 16 (idle s))) ∧
  (∀ s : State, s.pending = [] → s.reqWait = [] → s.remote.src.any (fun e => nextHere e.2) = false →
    s.harts.all (fun e => e.2.waiting.isEmpty) = true → s.chans.all (fun e => e.2.turn.isNone) = true → ∃ t : State, step s = .next t ∧ t = { s with quartz := t.quartz } ∧
      t.quartz.now * 2 ^ 32 + t.quartz.frac = s.quartz.now * 2 ^ 32 + s.quartz.frac + s.quartz.rate ∧ t.quartz.frac < 2 ^ 32)

/-- Every term that is a command completes in a next state, whatever the state; every other term stops with noSuchUnit. -/
def Obligations.CommandsCompleteInEveryState : Prop :=
  ∀ c s, (c.wellFormed = true → ∃ t, exec c s = .next t) ∧ (c.wellFormed = false → exec c s = .fault .noSuchUnit)

/-- No command touches the queue of the commands that wait; a step takes its front and leaves the rest, and none appears. -/
def Obligations.NoCommandTouchesTheQueue : Prop :=
  (∀ c s t, exec c s = .next t → t.pending = s.pending) ∧ (∀ s t, step s = .next t → t.pending = s.pending.tail)

/-- Every step keeps the invariant: the byte memories in canonical form, an event log of at most 1,024 records with codes of
Table 00-8 alone, and life-cycle fuses as the manual allows them. -/
def Obligations.EveryStepKeepsTheInvariant : Prop :=
  ∀ s t, s.Inv → step s = .next t → t.Inv

/-- No step takes back a fuse or a committed entry of the persistent record: the spares and device_id stay, trans_count,
rma_entries, the minimum svns and the commit counts never fall, SCRAP is never left and BLANK never entered, and the committed
record only grows. -/
def Obligations.FusesAndRecordNeverGoBack : Prop :=
  ∀ s t, s.Inv → step s = .next t → FusesKept s t

/-- The state after reset meets the invariant. -/
def Obligations.ResetStateIsReachable : Prop :=
  State.reset.Inv ∧ State.reset.pending = []

/-- The state after reset: bring-up complete, HD0's Caboose active, the Quartz FREE at zero, no channel with a generation or a
reply, no partition, no route table, an empty event log, TAMPER_OUT_N high, the package cap at 3,200 W; BLANK and boot images of
serial 1 are the model's choice (log 1). -/
def Obligations.ResetStateAsTheManualGivesIt : Prop :=
  let s := State.reset
  s.bu.state = 1 ∧ s.active = some 0 ∧ s.standby = false ∧ s.quartz.state = .free ∧ s.quartz.now = 0 ∧
  (∀ ch, (chanOf s ch).gen = 0 ∧ (chanOf s ch).busy = false ∧ (chanOf s ch).replyValid = false ∧ (chanOf s ch).lastSeq = 0) ∧
  (∀ p, partExists s p = false) ∧ s.route = none ∧ s.events = [] ∧ s.pins.tamperOutN = true ∧ s.power.cap = 3200 ∧
  (∀ q, (queueOf s q).enable = false) ∧ (∀ r, (regionOf s r).valid = false) ∧ (∀ a, memGet s.mem a = 0)

/-! ### The mailbox -/

/-- The sequence number decides what go does (R379), on an idle channel of an active Caboose, for a message as long as its header says: a VERSION_HELLO is executed whatever
its seq and sets last_seq to it; another request with the next seq is executed, or waits busy behind an earlier command on the same
partition (which commands wait is log 70's reading of R382), with last_seq as it was; one with last_seq has the stored reply written
again and nothing executed; any other is answered REJECTED_FORMAT, with last_seq as it was. -/
def Obligations.SequenceNumberDecidesARequest : Prop :=
  ∀ (t : SelfTest) (ch : Nat) (hdr : Word) (pl : List Word) (i : Instr) (s : State),
    goRow t ch hdr pl = some i → i.wellFormed = true → s.active.isSome = true → (chanOf s ch).busy = false →
    wf hdr 15 0 = 8 * pl.length →
    let s1 := putRequest ch hdr pl s
    let code := wf hdr 47 32
    let seq := wf hdr 31 16
    let c := chanOf s ch
    let a := answer (runCommand t) ch hdr.toNat (request s1 ch).2 s1
    let waits := code ≠ 1 ∧ malformed s.lc.state c.gen hdr.toNat pl = none ∧ c.gen ≠ 0 ∧ admitted s ch code pl = true ∧
      behindOther s ch code pl = true
    ((code = 1 ∨ seq = (c.lastSeq + 1) % 65536) → ¬ waits → exec i s = .next (conclude ch hdr.toNat a.1 a.2)) ∧
    (seq = (c.lastSeq + 1) % 65536 → waits → ∃ u,
      exec i s = .next u ∧ u = setChan ch { chanOf s1 ch with busy := true, turn := some (nextTurn s1) } s1 ∧
      (chanOf u ch).lastSeq = c.lastSeq) ∧
    (code = 1 → ∃ u, exec i s = .next u ∧ (chanOf u ch).lastSeq = seq) ∧
    (code ≠ 1 → seq = c.lastSeq → c.stored ≠ [] → exec i s = .next (putReply ch c.stored s1)) ∧
    (code ≠ 1 → seq ≠ (c.lastSeq + 1) % 65536 → seq ≠ c.lastSeq → ∃ u,
      exec i s = .next u ∧ u = putReply ch (replyWords c.gen code seq (rejected stFormat)) s1 ∧ (chanOf u ch).lastSeq = c.lastSeq)

/-- What a channel turns away, and what it takes urgently. A request that is structurally malformed completes REJECTED_FORMAT, with the
offset of the reserved field that is not zero in detail or all ones where no single field failed, and executes nothing (R380, R5). A
command that the channel may not carry, or that comes before a generation is negotiated, completes REJECTED_STATE and executes nothing
(R381, R384, R393), unless a check of its own fails with a lower status (R8). Writing go on a busy channel is ignored and counted (R377). CBX_URGENT submits TILE_RETIRE, POWER_DOWN or RESET with
payload word 0 equal to uarg shifted left by 16, even on a busy channel and without a generation, and ustatus takes the result (R394);
while ubusy is 1 the write is ignored and counted, a reserved bit is REJECTED_FORMAT, and a command that the channel may not carry is
turned away as above. -/
def Obligations.RequestsAreRefusedDiscardedOrUrgent : Prop :=
  (∀ (t : SelfTest) (ch : Nat) (hdr : Word) (pl : List Word) (i : Instr) (s : State) (d : Nat),
    goRow t ch hdr pl = some i → i.wellFormed = true → s.active.isSome = true → (chanOf s ch).busy = false →
    (wf hdr 47 32 = 1 ∨ wf hdr 31 16 = ((chanOf s ch).lastSeq + 1) % 65536) →
    malformed s.lc.state (chanOf s ch).gen hdr.toNat ((request (putRequest ch hdr pl s) ch).2.take (wf hdr 15 0 / 8)) = some d →
    exec i s = .next (conclude ch hdr.toNat (rejected stFormat d) (putRequest ch hdr pl s))) ∧
  (∀ (t : SelfTest) (ch : Nat) (hdr : Word) (pl : List Word) (i : Instr) (s : State),
    goRow t ch hdr pl = some i → i.wellFormed = true → s.active.isSome = true → (chanOf s ch).busy = false →
    wf hdr 15 0 = 8 * pl.length → wf hdr 47 32 ≠ 1 → wf hdr 31 16 = ((chanOf s ch).lastSeq + 1) % 65536 →
    malformed s.lc.state (chanOf s ch).gen hdr.toNat pl = none →
    let s1 := putRequest ch hdr pl s
    let own := (runCommand t (wf hdr 47 32) ch (wf hdr 31 16) pl s1).1
    let lower := stFormat ≤ own.status ∧ own.status < stState
    ((chanOf s ch).gen = 0 → exec i s = .next (conclude ch hdr.toNat (if lower then own else rejected stState) s1)) ∧
    ((chanOf s ch).gen ≠ 0 → admitted s ch (wf hdr 47 32) pl = false →
      exec i s = .next (conclude ch hdr.toNat (if lower then own else rejected stState (admitField s ch (wf hdr 47 32) pl)) s1))) ∧
  (∀ (t : SelfTest) (ch : Nat) (hdr : Word) (pl : List Word) (i : Instr) (s : State),
    goRow t ch hdr pl = some i → i.wellFormed = true → (chanOf s ch).busy = true →
    exec i s = .next (bump 0x0262 ch 1 (setChan ch { chanOf s ch with discards := min (2 ^ 32 - 1) ((chanOf s ch).discards + 1) } s))) ∧
  (∀ (ch : Nat) (u : BitVec 48) (t : SelfTest) (s : State), ch < 16 → s.active.isSome = true → (Instr.packageReset ch (.urgent u) t).wellFormed = true →
    let w := [word (u.toNat * 65536)]
    let done := fun (code : Nat) (r : Reply × State) =>
      replyIrq ch (setChan ch { chanOf r.2 ch with ucmd := code, ustatus := r.1.status * 256 + r.1.flags } r.2)
    let row := fun (code : Nat) (f : Cmd) (i : Instr) =>
      ((chanOf s ch).ubusy = true → exec i s = .next (discardWrite ch s)) ∧
      ((chanOf s ch).ubusy = false →
        (∀ d, reservedAt s.lc.state code w = some d → exec i s = .next (done code (rejected stFormat d, s))) ∧
        (reservedAt s.lc.state code w = none → admitted s ch code w = true → exec i s = .next (done code (f ch 0 w s))) ∧
        (reservedAt s.lc.state code w = none → admitted s ch code w = false →
          let own := (f ch 0 w s).1
          exec i s = .next (done code (if stFormat ≤ own.status ∧ own.status < stState then own else rejected stState, s))))
    row 0x0040 cmdTileRetire (.tileRetire ch (.urgent u)) ∧ row 0x0081 cmdPowerDown (.powerDown ch (.urgent u)) ∧
    (bit u.toNat 43 = false → row 0x0090 (cmdReset {}) (.reset ch (.urgent u)) ∧ exec (.packageReset ch (.urgent u) t) s = .next s) ∧
    (bit u.toNat 43 = true → row 0x0090 (cmdReset t) (.packageReset ch (.urgent u) t) ∧ exec (.reset ch (.urgent u)) s = .next s))

/-- VERSION_HELLO negotiates min(gen_max, 3) where that is at least max(gen_min, 1), and tells the channel, its partition and the
device identifier; otherwise the channel has no generation and the status is REJECTED_STATE (R381). -/
def Obligations.VersionHelloNegotiates : Prop :=
  ∀ (ch : Nat) (hdr : Word) (pl : List Word) (s : State),
    ready s 0x0001 ch hdr pl = true → (Instr.versionHello ch hdr pl).wellFormed = true →
    let s1 := putRequest ch hdr pl s
    let g := min (wf (wd pl 0) 63 56) 3
    (max (wf (wd pl 0) 55 48) 1 ≤ g →
      exec (.versionHello ch hdr pl) s = .next (conclude ch hdr.toNat
        (ok [word (g * 2 ^ 56 + 3 * 2 ^ 48 + 2 ^ 40 + ch * 2 ^ 36 + (chanPart s ch).getD 0 * 2 ^ 32 +
              (if (chanPart s ch).isSome then 2 ^ 31 else 0)), word s.lc.deviceId])
        (setChan ch { chanOf s1 ch with gen := g } s1))) ∧
    (¬ max (wf (wd pl 0) 55 48) 1 ≤ g →
      exec (.versionHello ch hdr pl) s =
        .next (conclude ch hdr.toNat (rejected stState) (setChan ch { chanOf s1 ch with gen := 0 } s1)))

/-- PART_CREATE: a failed check rejects it and assigns nothing (R8, R27). Where the partition is new, what it asks for is in range and
held by no other partition, its logical tiles are backed, no unit of it is marked failed and something is left of every rate and quota,
no check fails: the partition of the payload is made, each field clamped as Tables 07-6 and 08-9 say, its tiles zeroed, its buckets full
and its quota frames taken, and the reply tells CLAMP and the number of clamps once every quota frame is held (R136, R200, R237, R385,
R392; that it waits for them is the model's choice, log 37). PART_DISSOLVE: it is REJECTED_STATE for a partition that does not exist
or has an open job; otherwise its queues are disabled and their records performed, and when none waits any more the partition and all that it held are gone
and the reply follows (R385). -/
def Obligations.PartitionsAreCreatedAndDissolved : Prop :=
  ∀ (ch : Nat) (hdr : Word) (pl : List Word) (s : State),
    let s1 := putRequest ch hdr pl s
    let seq := wf hdr 31 16
    let p := wf (wd pl 0) 63 60
    let fields := createFields s seq pl
    let clamps := fields.flatMap (·.entry)
    let x := wantedOf pl
    let free := x.tiles.1 + x.tiles.2 ≤ 544 ∧ x.queues.1 + x.queues.2 ≤ 16384 ∧ x.regions.1 + x.regions.2 ≤ 4096 ∧ partExists s p = false ∧
      (∀ e ∈ s.parts, (x.chan ≠ 0 → e.2.chan ≠ x.chan) ∧ meets e.2.tiles x.tiles = false ∧ meets e.2.queues x.queues = false ∧
        meets e.2.regions x.regions = false ∧ e.2.redMask &&& x.red = 0 ∧ e.2.drayMask &&& x.drays = 0 ∧ e.2.portMask &&& x.ports = 0 ∧
        ∀ j, j < 4 → ∀ r ∈ e.2.ranges, meets r ((rangeOf seq pl j).1, (rangeOf seq pl j).2.used) = false) ∧
      (∀ l, l < x.tiles.2 → (physOf s (x.tiles.1 + l)).isSome = true) ∧ (∀ d, d < 40 → bit x.drays d = true → recordFailed s (drayUnit d) = false) ∧
      (∀ e, e < 16 → bit x.red e = true → recordFailed s (redUnit e) = false) ∧ (∀ c ∈ fields, c.none_ = false)
    (ready s 0x0010 ch hdr pl = true → (Instr.partCreate ch hdr pl).wellFormed = true →
      (∀ st d, pick (createAll s seq pl) = some (st, d) →
        exec (.partCreate ch hdr pl) s = .next (conclude ch hdr.toNat (rejected st d) s1)) ∧
      (partExists s p = true → ∃ st d, pick (createAll s seq pl) = some (st, d)) ∧
      (free → let t := setClamps ch seq clamps (assign p (newPart s seq pl) s1)
        let r : Reply := { status := stDone, flags := if clamps = [] then 0 else 2, clamps := clamps.length }
        (framesHeld t p = true → exec (.partCreate ch hdr pl) s = .next (conclude ch hdr.toNat r t)) ∧
        (framesHeld t p = false → exec (.partCreate ch hdr pl) s = .next (conclude ch hdr.toNat { r with later := true }
          (setPart p { partOf t p with creating := some (ch, seq, clamps.length) } t))))) ∧
    (ready s 0x0011 ch hdr pl = true → (Instr.partDissolve ch hdr pl).wellFormed = true →
      (partExists s p = false → exec (.partDissolve ch hdr pl) s = .next (conclude ch hdr.toNat (rejected stState 7) s1)) ∧
      (partExists s p = true → (jobOf s p).isSome = true →
        exec (.partDissolve ch hdr pl) s = .next (conclude ch hdr.toNat (rejected stState) s1)) ∧
      (partExists s p = true → jobOf s p = none →
        let u := (partQueues s1 p).foldl (fun s q => performAll q (if (queueOf s q).enable then disableQueue q s else s)) s1
        (queuesQuiet u p = true → exec (.partDissolve ch hdr pl) s = .next (conclude ch hdr.toNat ok (tierRetry (dissolve p u)))) ∧
        (queuesQuiet u p = false → exec (.partDissolve ch hdr pl) s = .next (conclude ch hdr.toNat { status := stDone, later := true }
          (setPart p { partOf u p with dissolving := some (ch, seq) } u))) ∧
        (partQueues s p = [] → exec (.partDissolve ch hdr pl) s = .next (conclude ch hdr.toNat ok (tierRetry (dissolve p s1)))) ∧
        partExists (dissolve p s1) p = false ∧ ∀ k, k ≠ p → partExists (dissolve p s1) k = partExists s k))

/-- SLATE_INSTALL: an image that starts off a 128 B boundary is REJECTED_FORMAT, a range outside the backed UMR REJECTED_REGION where no
form check of its header fails, an image with a failed check is rejected with the lowest status, and one that passes is installed and
answered with its SHA-384 digest (R8, R154, R155, R233). JOB_OPEN that passes its checks arms every sequencer of the partition for the
job, with T0 = t0 and a schedule offset of zero, and raises every compute die to point 9 or above (R164, R387, R433); on a degraded
package of a consist the other members are told first that epoch 0 runs degraded (the model's choice, log 57). -/
def Obligations.SlatesAreInstalledAndJobsOpened : Prop :=
  ∀ (ch : Nat) (hdr : Word) (pl : List Word) (s : State),
    let s1 := putRequest ch hdr pl s
    let p := wf (wd pl 0) 63 60
    let a := wf (wd pl 1) 55 0
    let len := wf (wd pl 2) 39 0
    (ready s 0x0020 ch hdr pl = true → (Instr.slateInstall ch hdr pl).wellFormed = true →
      (a % 128 ≠ 0 → exec (.slateInstall ch hdr pl) s = .next (conclude ch hdr.toNat (rejected stFormat 8) s1)) ∧
      (a % 128 = 0 → umrEnd < a + len → exec (.slateInstall ch hdr pl) s =
          .next (conclude ch hdr.toNat (outsideUmr p a len (settleRange a 128 s1)) s1) ∧
        (umrEnd < a + 128 → outsideUmr p a len (settleRange a 128 s1) = rejected stRegion 8)) ∧
      (a % 128 = 0 → a + len ≤ umrEnd → ∀ st d, installFails (settleRange a len s1) p a len = some (st, d) →
        exec (.slateInstall ch hdr pl) s = .next (conclude ch hdr.toNat (rejected st d) (settleRange a len s1))) ∧
      (a % 128 = 0 → a + len ≤ umrEnd → installFails (settleRange a len s1) p a len = none →
        exec (.slateInstall ch hdr pl) s = .next (conclude ch hdr.toNat
          (ok (wordsOf (sha384 (peek (settleRange a len s1) a len)))) (installImage p a len (settleRange a len s1))))) ∧
    (ready s 0x0021 ch hdr pl = true → (Instr.jobOpen ch hdr pl).wellFormed = true →
      ∀ i, (partOf s p).image = some i → (partOf s p).job = none →
      let rq := wf (wd pl 0) 58 45
      let irq := bit (wd pl 0).toNat 59
      let t0 := (wd pl 2).toNat
      let sealed := bit (wd pl 0).toNat 40
      let slot := wf (wd pl 0) 44 41
      let job : Job := { id := (wd pl 1).toNat, t0 := t0, recQueue := rq, irq := irq,
                         sealSlot := if sealed then some slot else none, service := i.service, members := i.members,
                         degFrom := if s.degraded then some 0 else none, degraded := decide (s.level < 0x1F) }
      let opened := setPart p { partOf s p with job := some job, offset := 0 } s1
      ((wd pl 1).toNat = 0 ∨ t0 % 4 ≠ 0 → ∃ d, exec (.jobOpen ch hdr pl) s = .next (conclude ch hdr.toNat (rejected stFormat d) s1)) ∧
      ((wd pl 1).toNat ≠ 0 → t0 % 4 = 0 →
        (if i.service then irq = false ∧ rq = 0 ∧ (queueOf s i.svcQueue).enable = true ∧ (queueOf s i.svcQueue).qtype = 1
         else queuePart s rq = some p ∧ (queueOf s rq).enable = true) →
        (sealed = true → (tblGet? (partOf s p).seals slot).isSome = true) → now s + 1000000 ≤ t0 → t0 ≤ now s + 3600000000000 →
        (1 < i.members → ∃ r, s.route = some r ∧ r.members = i.members ∧ holdLeadOk s i = true) → quartzReady s i.members = true →
        receiptBlocked s = false → namesUnbacked s i = false →
        exec (.jobOpen ch hdr pl) s = .next (conclude ch hdr.toNat ok (raiseFloor
          (setSeqs p (fun q => { q with st := .armed, epoch := 0, entry := 0 })
            (if s.degraded = true ∧ 1 < i.members then issue p 3 5 0 0 0 opened else opened))))))

/-- JOB_CLOSE: it is REJECTED_STATE where it does not name the open job, or in one-shot mode at or after T0; before T0 the job is
withdrawn, with no record and no receipt. In service mode a session between slots ends at once and its waiting requests are
flushed, one with a slot in progress ends later and the channel stays busy (R366, R388). -/
def Obligations.JobCloseWithdrawsOrEnds : Prop :=
  ∀ (ch : Nat) (hdr : Word) (pl : List Word) (s : State),
    ready s 0x0022 ch hdr pl = true → (Instr.jobClose ch hdr pl).wellFormed = true →
    let s1 := putRequest ch hdr pl s
    let p := wf (wd pl 0) 63 60
    (jobOf s p = none → exec (.jobClose ch hdr pl) s = .next (conclude ch hdr.toNat (rejected stState 8) s1)) ∧
    (∀ j, jobOf s p = some j →
      (j.id ≠ (wd pl 1).toNat → exec (.jobClose ch hdr pl) s = .next (conclude ch hdr.toNat (rejected stState 8) s1)) ∧
      (j.id = (wd pl 1).toNat → j.service = false → j.running = true ∨ j.t0 ≤ now s →
        exec (.jobClose ch hdr pl) s = .next (conclude ch hdr.toNat (rejected stState) s1)) ∧
      (j.id = (wd pl 1).toNat → j.service = false → j.running = false → now s < j.t0 →
        exec (.jobClose ch hdr pl) s = .next (conclude ch hdr.toNat ok (closeJob p stDone s1))) ∧
      (j.id = (wd pl 1).toNat → j.service = true → inSlot s p j = false →
        exec (.jobClose ch hdr pl) s = .next (conclude ch hdr.toNat ok (closeJob p stDone
          (match sessionQueue s1 p with | some q => flushSession p q stState s1 | none => s1)))) ∧
      (j.id = (wd pl 1).toNat → j.service = true → inSlot s p j = true →
        exec (.jobClose ch hdr pl) s = .next (conclude ch hdr.toNat { status := stDone, later := true }
          (setJob p { j with closing := some (ch, wf hdr 31 16) } s1))))

/-- SEAL_MODEL stores the seal root of the range in the slot, write-protects the range and returns the root (R389, R416); a poisoned line
in the range ends it as a Dray's command (the model's reading, log 20); a release empties the slot, unless the open job
named it. TILE_RETIRE retires the physical tile, or the tile that carries the logical one, for cause 7, and a
partition whose creation is in progress and has lost a tile is rejected and dissolved (R383); a tile already retired gives DONE with no
effect (R391). -/
def Obligations.ModelsAreSealedAndTilesRetired : Prop :=
  ∀ (ch : Nat) (hdr : Word) (pl : List Word) (s : State),
    let s1 := putRequest ch hdr pl s
    let w0 := wd pl 0
    let p := wf w0 63 60
    (ready s 0x0030 ch hdr pl = true → (Instr.sealModel ch hdr pl).wellFormed = true →
      let slot := wf w0 59 56
      let d := wf w0 54 49
      let base := wf (wd pl 1) 42 0
      let len := wf (wd pl 2) 39 0
      let q := partOf s p
      (bit w0.toNat 55 = false → base % extSize = 0 → len ≠ 0 → inPart q base len = true → base + len ≤ umrEnd →
        bit q.drayMask d = true → q.job = none → tblGet? q.seals slot = none → ringInRange s base len = false →
        (rangePoisoned s base len = true → exec (.sealModel ch hdr pl) s = .next (conclude ch hdr.toNat (rejected stReset) (partReset p s1))) ∧
        (rangePoisoned s base len = false →
        let r := cohRead (.dray d) base len none s1
        exec (.sealModel ch hdr pl) s = .next (conclude ch hdr.toNat (ok (wordsOf (sealRoot r.1)))
          (setPart p { partOf r.2 p with seals := tblSet slot { root := sealRoot r.1, base := base, len := len } (partOf r.2 p).seals } r.2)))) ∧
      (bit w0.toNat 55 = true → (∃ j, q.job = some j ∧ j.sealSlot = some slot) →
        exec (.sealModel ch hdr pl) s = .next (conclude ch hdr.toNat (rejected stState) s1)) ∧
      (bit w0.toNat 55 = true → partExists s p = true → (∀ j, q.job = some j → j.sealSlot ≠ some slot) →
        exec (.sealModel ch hdr pl) s =
          .next (conclude ch hdr.toNat ok (setPart p { q with seals := tblDel slot q.seals } s1)))) ∧
    (ready s 0x0040 ch hdr pl = true → (Instr.tileRetire ch (.go hdr pl)).wellFormed = true →
      let t := wf w0 58 49
      let after := fun x => if retired s x then s1 else undoCreates (retireTile x 7 s1)
      (bit w0.toNat 59 = true → t ≤ 575 → ch = 0 →
        exec (.tileRetire ch (.go hdr pl)) s = .next (conclude ch hdr.toNat ok (after t))) ∧
      (bit w0.toNat 59 = true → 575 < t →
        exec (.tileRetire ch (.go hdr pl)) s = .next (conclude ch hdr.toNat (rejected stFormat 6) s1)) ∧
      (bit w0.toNat 59 = false → 543 < t →
        exec (.tileRetire ch (.go hdr pl)) s = .next (conclude ch hdr.toNat (rejected stFormat 6) s1)) ∧
      (bit w0.toNat 59 = false → t ≤ 543 → tilePart s t ≠ some p →
        exec (.tileRetire ch (.go hdr pl)) s = .next (conclude ch hdr.toNat (rejected stQuota 6) s1)) ∧
      (∀ x, bit w0.toNat 59 = false → t ≤ 543 → tilePart s t = some p → physOf s t = some x →
        exec (.tileRetire ch (.go hdr pl)) s = .next (conclude ch hdr.toNat ok (after x))))

/-- The reads change nothing but the channel and, on page 0x01, the count of free values: TELEMETRY_READ of page 0x00, 0x02, 0x03 or
0x04 returns the page's entries from first (R395), page 0x00 of a partition's last job too once the partition is gone (R187),
CLAMP_REPORT_READ the latest clamp report (R392), RECEIPT_FETCH the latest receipt of a job, a receipt by its log index, or a batch's
record (R396, R421). -/
def Obligations.ReadsReturnWhatTheyName : Prop :=
  ∀ (ch : Nat) (hdr : Word) (pl : List Word) (s : State),
    let s1 := putRequest ch hdr pl s
    let w0 := wd pl 0
    let p := wf w0 63 60
    let first := wf w0 51 36
    (ready s 0x0050 ch hdr pl = true → (Instr.telemetryRead ch hdr pl).wellFormed = true →
      (wf w0 59 52 = 0 → partExists s p = true ∨ (tblGet? s.lastJobs p).isSome = true →
        exec (.telemetryRead ch hdr pl) s = .next (conclude ch hdr.toNat (ok (teleReply first (page0 s p))) s1)) ∧
      (wf w0 59 52 = 0 → partExists s p = false → tblGet? s.lastJobs p = none →
        exec (.telemetryRead ch hdr pl) s = .next (conclude ch hdr.toNat (rejected stState 7) s1)) ∧
      (wf w0 59 52 = 1 → ch = 0 → ∃ v, exec (.telemetryRead ch hdr pl) s =
        .next (conclude ch hdr.toNat (ok (teleReply first (page1 v s1))) { s1 with freeCtr := s1.freeCtr + 1 })) ∧
      (wf w0 59 52 = 2 → ch = 0 → exec (.telemetryRead ch hdr pl) s = .next (conclude ch hdr.toNat (ok (teleReply first
        (s.events.map (fun e => (e.code, e.unit, e.cause, e.at_))))) s1)) ∧
      (wf w0 59 52 = 3 → ch = 0 → exec (.telemetryRead ch hdr pl) s = .next (conclude ch hdr.toNat (ok (teleReply first (page3 s))) s1)) ∧
      (wf w0 59 52 = 4 → ch = 0 → exec (.telemetryRead ch hdr pl) s = .next (conclude ch hdr.toNat (ok (teleReply first (page4 s))) s1)) ∧
      (4 < wf w0 59 52 → exec (.telemetryRead ch hdr pl) s = .next (conclude ch hdr.toNat (rejected stFormat 6) s1))) ∧
    (ready s 0x0051 ch hdr pl = true → (Instr.clampReportRead ch hdr pl).wellFormed = true →
      exec (.clampReportRead ch hdr pl) s = .next (conclude ch hdr.toNat
        (ok (word ((chanOf s1 ch).clampSeq * 2 ^ 48 + (chanOf s1 ch).clamps.length * 2 ^ 40) ::
          (chanOf s1 ch).clamps.flatMap (fun e => [e.1, e.2]))) s1)) ∧
    (ready s 0x0060 ch hdr pl = true → (Instr.receiptFetch ch hdr pl).wellFormed = true → inSafe s = false →
      let key := (wd pl 1).toNat
      let sends := fun ws => exec (.receiptFetch ch hdr pl) s = .next (conclude ch hdr.toNat (ok ws) s1)
      let refuses := exec (.receiptFetch ch hdr pl) s = .next (conclude ch hdr.toNat (rejected stState) s1)
      (wf w0 59 58 = 0 → match findReceipt s p key with
        | some (i, r) => sends (receiptReply s i r)
        | none => refuses) ∧
      (wf w0 59 58 = 1 → match tblGet? s.rcpt.log key with
        | some r => if ch = 0 ∨ receiptPart r = p then sends (receiptReply s key r) else refuses
        | none => refuses) ∧
      (wf w0 59 58 = 2 → match s.rcpt.batches.find? (fun b => b.num == key && !b.record.isEmpty) with
        | some b =>
          let part := (b.record.drop (wf (wd pl 2) 31 0)).take 2024
          sends (word (b.record.length * 2 ^ 32 + part.length) :: wordsOf (padTo (roundUp part.length 8) 0 part))
        | none => refuses) ∧
      (wf w0 59 58 = 3 → exec (.receiptFetch ch hdr pl) s = .next (conclude ch hdr.toNat (rejected stFormat 7) s1)))

/-- ROUTE_INSTALL puts a table that passes its checks in force, unless a partition holds an image (R326, R390). POWER_SET clamps the
cap to 1,600 to 3,600 W and is answered at the next control interval boundary, where the cap takes effect (R390, R430). POWER_DOWN
takes every rail but the islands' and is answered DONE (R390, R451). -/
def Obligations.RoutesCapsAndPowerDown : Prop :=
  ∀ (ch : Nat) (hdr : Word) (pl : List Word) (s : State),
    let s1 := putRequest ch hdr pl s
    (ready s 0x0070 ch hdr pl = true → (Instr.routeInstall ch hdr pl).wellFormed = true →
      let a := wf (wd pl 0) 55 0
      let r := cohRead (.caboose (s.active.getD 0)) a 4368 none s1
      (a % 8 ≠ 0 → exec (.routeInstall ch hdr pl) s = .next (conclude ch hdr.toNat (rejected stFormat 0) s1)) ∧
      (a % 8 = 0 → a + 4368 ≤ umrEnd → rangePoisoned s1 a 4368 = true ∨ rtBad r.1 = true →
        exec (.routeInstall ch hdr pl) s = .next (conclude ch hdr.toNat (rejected stFormat) r.2)) ∧
      (a % 8 = 0 → a + 4368 ≤ umrEnd → rangePoisoned s1 a 4368 = false → rtBad r.1 = false → s.parts.any (fun e => e.2.image.isSome) = true →
        exec (.routeInstall ch hdr pl) s = .next (conclude ch hdr.toNat (rejected stState) r.2)) ∧
      (a % 8 = 0 → umrEnd < a + 4368 → exec (.routeInstall ch hdr pl) s = .next (conclude ch hdr.toNat (rejected stRegion 0) s1)) ∧
      (a % 8 = 0 → a + 4368 ≤ umrEnd → rangePoisoned s1 a 4368 = false → rtBad r.1 = false →
        s.parts.any (fun e => e.2.image.isSome) = false →
        exec (.routeInstall ch hdr pl) s = .next (conclude ch hdr.toNat ok (installRoute (rtParse r.1) r.2)))) ∧
    (ready s 0x0080 ch hdr pl = true → (Instr.powerSet ch hdr pl).wellFormed = true →
      let cap := wf (wd pl 0) 63 52
      let used := max 1600 (min 3600 cap)
      let u := if used ≠ cap then setClamps ch (wf hdr 31 16) [clampEntry 0x03 0 52 12 (wf hdr 31 16) cap used] s1 else s1
      exec (.powerSet ch hdr pl) s = .next (conclude ch hdr.toNat { status := stDone, later := true }
        { u with power := { u.power with newCap := some used, capReply := some (ch, wf hdr 31 16, if used ≠ cap then 1 else 0) } })) ∧
    (ready s 0x0081 ch hdr pl = true → (Instr.powerDown ch (.go hdr pl)).wellFormed = true →
      exec (.powerDown ch (.go hdr pl)) s = .next (conclude ch hdr.toNat ok (powerDown s1)))

/-- RESET of a partition resets it and is answered DONE; of one that does not exist, REJECTED_STATE. RESET of the package while bring-up
is complete is the package reset of Table 17-3, after POWER_DOWN a power restart and in the safe state the bring-up from step 3; while a latch is held or the supply is not good it is REJECTED_STATE (R390, R400,
R408, R447). -/
def Obligations.ResetsOfPartitionAndPackage : Prop :=
  ∀ (ch : Nat) (hdr : Word) (pl : List Word) (t : SelfTest) (s : State),
    ready s 0x0090 ch hdr pl = true →
    let s1 := putRequest ch hdr pl s
    let p := wf (wd pl 0) 63 60
    ((Instr.reset ch (.go hdr pl)).wellFormed = true → bit (wd pl 0).toNat 59 = false →
      (partExists s p = true → exec (.reset ch (.go hdr pl)) s = .next (conclude ch hdr.toNat ok (partReset p s1))) ∧
      (partExists s p = false → exec (.reset ch (.go hdr pl)) s = .next (conclude ch hdr.toNat (rejected stState 7) s1))) ∧
    ((Instr.reset ch (.go hdr pl)).wellFormed = true → bit (wd pl 0).toNat 59 = true → exec (.reset ch (.go hdr pl)) s = .next s) ∧
    ((Instr.packageReset ch (.go hdr pl) t).wellFormed = true → bit (wd pl 0).toNat 59 = false → exec (.packageReset ch (.go hdr pl) t) s = .next s) ∧
    ((Instr.packageReset ch (.go hdr pl) t).wellFormed = true → bit (wd pl 0).toNat 59 = true → ch = 0 →
      (latched s = false → s.power.fault = false → s.power.islands = true → s.bu.state ≠ 1 → s.bu.down = true →
        exec (.packageReset ch (.go hdr pl) t) s = .next (conclude ch hdr.toNat { status := stDone, fresh := true } (powerRestart t s1))) ∧
      (latched s = false → s.power.fault = false → s.power.islands = true → s.bu.state = 2 ∨ s.bu.state = 3 → s.bu.down = false →
        exec (.packageReset ch (.go hdr pl) t) s = .next (conclude ch hdr.toNat { status := stDone, fresh := true } (powerOn t 3 false s1))) ∧
      (latched s = false → s.power.fault = false → s.power.islands = true → s.bu.state = 1 →
        exec (.packageReset ch (.go hdr pl) t) s =
          .next (conclude ch hdr.toNat { status := stDone, fresh := true } (packageReset t s1))) ∧
      (latched s = true ∨ s.power.fault = true →
        exec (.packageReset ch (.go hdr pl) t) s = .next (conclude ch hdr.toNat (rejected stState) s1)))

/-- LIFECYCLE_ADVANCE. Advance: a transition outside Table 15-2, one other than to SCRAP while a partition exists or the tamper latch
is set, one whose authorisation fails, and DEPLOYED to RMA with rma_entries at 8 are REJECTED_STATE (R402, R404, R405, R408), and so is
the enrolment that fails (R410); every other request, each transition of Table 15-2 among them, completes: the fuses take the target,
trans_count and in RMA rma_entries advance by one, and the package resets. Stage: a valid image goes to the slot that is not running
with the running serial plus one, any other is REJECTED_FORMAT with both slots as they were (R413, R415). Commit: the minimum svn rises to
the running image's, at most eight times (R415). In SCRAP each completes REJECTED_STATE where its form is right (R406). -/
def Obligations.LifecycleAdvancesStagesCommits : Prop :=
  ∀ (ch : Nat) (hdr : Word) (pl : List Word) (t : SelfTest) (s : State), ready s 0x00A0 ch hdr pl = true →
    let s1 := putRequest ch hdr pl s
    let w0 := wd pl 0
    let ty := wf w0 55 48
    let run := runningSlot s1.lc ty
    ((Instr.lifecycleAdvance ch hdr pl t).wellFormed = true → wf w0 63 56 = 1 →
      let target := wf w0 55 52
      let refused := transition s.lc.state target = false ∨ (target ≠ 5 ∧ (s.lc.tamper = true ∨ s.parts ≠ [])) ∨
        (needsAuth s.lc.state target = true ∧ authorised s.lc target pl = false) ∨ (s.lc.state = 3 ∧ target = 4 ∧ 8 ≤ s.lc.rmaEntries)
      let enrols := s.lc.state = 1 ∧ target = 2
      (refused → exec (.lifecycleAdvance ch hdr pl t) s = .next (conclude ch hdr.toNat (rejected stState) s1)) ∧
      (¬ refused → enrols → Config.pufEnrols s.lc.tries = false → exec (.lifecycleAdvance ch hdr pl t) s =
        .next (conclude ch hdr.toNat (rejected stState) { s1 with lc := { s1.lc with tries := s1.lc.tries + 1 } })) ∧
      (¬ refused → (enrols → Config.pufEnrols s.lc.tries = true) → exec (.lifecycleAdvance ch hdr pl t) s =
        .next (conclude ch hdr.toNat { status := stDone, fresh := true } (advanceLife t target s1))) ∧
      (s.lc.state = 2 → target = 3 → s.lc.tamper = false → s.parts = [] →
        exec (.lifecycleAdvance ch hdr pl t) s = .next (conclude ch hdr.toNat { status := stDone, fresh := true } (advanceLife t 3 s1))) ∧
      (target = 5 → s.lc.state = 1 ∨ s.lc.state = 2 ∨ s.lc.state = 3 ∨ s.lc.state = 4 →
        exec (.lifecycleAdvance ch hdr pl t) s = .next (conclude ch hdr.toNat { status := stDone, fresh := true } (advanceLife t 5 s1))) ∧
      (∀ u : State, (fuseState target u).lc.state = target ∧ (fuseState target u).lc.transCount = u.lc.transCount + 1 ∧
        (fuseState target u).lc.rmaEntries = u.lc.rmaEntries + (if target = 4 then 1 else 0))) ∧
    ((Instr.lifecycleAdvance ch hdr pl t).wellFormed = true → wf w0 63 56 ≠ 1 → exec (.lifecycleAdvance ch hdr pl t) s = .next s) ∧
    ((Instr.lifecycleStage ch hdr pl).wellFormed = true → wf w0 63 56 ≠ 2 → exec (.lifecycleStage ch hdr pl) s = .next s) ∧
    ((Instr.lifecycleCommit ch hdr pl).wellFormed = true → wf w0 63 56 ≠ 3 → exec (.lifecycleCommit ch hdr pl) s = .next s) ∧
    ((Instr.lifecycleStage ch hdr pl).wellFormed = true → wf w0 63 56 = 2 → ty ≠ 1 → ty ≠ 2 →
      exec (.lifecycleStage ch hdr pl) s = .next (conclude ch hdr.toNat (rejected stFormat 6) s1)) ∧
    ((Instr.lifecycleStage ch hdr pl).wellFormed = true → wf w0 63 56 = 2 → ty = 1 ∨ ty = 2 →
      let a := wf (wd pl 1) 55 0
      let len := wf (wd pl 2) 31 0
      let r := cohRead (.caboose (s.active.getD 0)) a len none s1
      let valid := decide (8192 ≤ len) && !rangePoisoned s1 a len && imageValid s1.lc ty r.1
      (8192 ≤ len → umrEnd < a + len → exec (.lifecycleStage ch hdr pl) s = .next (conclude ch hdr.toNat (rejected stRegion 8) s1)) ∧
      (len < 8192 ∨ a + len ≤ umrEnd ∧ valid = false →
        exec (.lifecycleStage ch hdr pl) s = .next (conclude ch hdr.toNat (rejected stFormat) s1)) ∧
      (a + len ≤ umrEnd → valid = true → s.lc.state ≠ 5 → s.lc.tamper = false →
        let v := runningSlot r.2.lc ty
        let x : BootSlot := { serial := (tblGet {} r.2.lc.slots (2 * (ty - 1) + v)).serial + 1, svn := leNat (cut r.1 4 4),
                              valid := true, digest := cut r.1 64 48 }
        exec (.lifecycleStage ch hdr pl) s = .next (conclude ch hdr.toNat ok
          { r.2 with lc := { r.2.lc with slots := tblSet (2 * (ty - 1) + (1 - v)) x r.2.lc.slots } }))) ∧
    ((Instr.lifecycleCommit ch hdr pl).wellFormed = true → wf w0 63 56 = 3 →
      let svn := (tblGet {} s1.lc.slots (2 * (ty - 1) + run)).svn
      let open_ := s.lc.state ≠ 5 ∧ s.lc.tamper = false
      (ty ≠ 1 → ty ≠ 2 → exec (.lifecycleCommit ch hdr pl) s = .next (conclude ch hdr.toNat (rejected stFormat 6) s1)) ∧
      (ty = 1 ∨ ty = 2 → ¬ open_ → exec (.lifecycleCommit ch hdr pl) s = .next (conclude ch hdr.toNat (rejected stState) s1)) ∧
      (ty = 1 → s.lc.svnCab = svn ∨ 8 ≤ s.lc.commitsCab →
        exec (.lifecycleCommit ch hdr pl) s = .next (conclude ch hdr.toNat (rejected stState) s1)) ∧
      (ty = 2 → s.lc.svnProc = svn ∨ 8 ≤ s.lc.commitsProc →
        exec (.lifecycleCommit ch hdr pl) s = .next (conclude ch hdr.toNat (rejected stState) s1)) ∧
      (ty = 1 → open_ → s.lc.svnCab ≠ svn → s.lc.commitsCab < 8 → exec (.lifecycleCommit ch hdr pl) s = .next (conclude ch hdr.toNat ok
        { s1 with lc := { s1.lc with svnCab := svn, commitsCab := s1.lc.commitsCab + 1 } })) ∧
      (ty = 2 → open_ → s.lc.svnProc ≠ svn → s.lc.commitsProc < 8 → exec (.lifecycleCommit ch hdr pl) s = .next (conclude ch hdr.toNat ok
        { s1 with lc := { s1.lc with svnProc := svn, commitsProc := s1.lc.commitsProc + 1 } })))

/-! ### Device registers -/

/-- CBX_ACK: an 8-byte write of ack = 1 clears reply_valid and changes nothing else; a 4-byte write does nothing (R377, R478).
CBX_IRQ: a write whose hart is above 95 or whose file is 9 to 15 is refused as a whole and counted, any other takes effect (R377). -/
def Obligations.ChannelAcknowledgeAndInterrupt : Prop :=
  ∀ (ch : Nat) (acc : Acc) (v : Word) (s : State), ch < 16 →
    let c := chanOf s ch
    let m := mergeAcc acc (cbxIrq c) v.toNat
    (acc = .full → bit v.toNat 0 = true → exec (.cbxAck ch acc v) s = .next (setChan ch { c with replyValid := false } s)) ∧
    (acc ≠ .full ∨ bit v.toNat 0 = false → exec (.cbxAck ch acc v) s = .next s) ∧
    (95 < fld m 22 16 ∨ 8 < fld m 15 12 → exec (.cbxIrqWrite ch acc v) s = .next
      (bump 0x0262 ch 1 (setChan ch { c with discards := min (2 ^ 32 - 1) (c.discards + 1) } s))) ∧
    (fld m 22 16 ≤ 95 → fld m 15 12 ≤ 8 → exec (.cbxIrqWrite ch acc v) s = .next
      (setChan ch { c with irqEn := bit m 23, irqHart := fld m 22 16, irqFile := fld m 15 12 } s))

/-- Registers a hart reads and writes. A read of an RC register returns the count and clears it; its upper half reads zero and clears
nothing (Table 00-5, R475, R482, R484). QTZ_LOAD (R480): while a job is open the write is ignored and load_refused is set; otherwise the
value is loaded at the next tick where it is not below the count there, and refused where it is; an 8-byte QTZ_STATE write with bit 9 set
clears load_refused. An 8-byte write to PWR_FLAGS or THM_FLAGS clears the flags whose bits are 1 and no other (R485, R486); a 4-byte
write to these does nothing. The Quartz's references (Table 06-1, R150, R152, R467): QREF valid takes FREE to LOCAL; its loss, or that of
the upstream port's symbols in CONSIST, begins HOLDOVER at the present count; an up alternate port ends it in CONSIST, with a rate within
50 ppm of nominal (its value is free, log 32); a 1PPS edge at the time root is stamped, or ignored and counted. -/
def Obligations.CountersFlagsAndTheQuartzFollowTheirRules : Prop :=
  (∀ (h rd ch u : Nat) (s : State), h < 96 → rd < 32 → ch < 16 → u < 18 → s.bu.state = 1 →
    (∀ acc, acc = .full ∨ acc = .lo →
      exec (.cbxDiscardsRead h rd ch acc) s =
        .next (let t := wrX h rd (readAcc acc (chanOf s ch).discards) s; setChan ch { chanOf t ch with discards := 0 } t) ∧
      exec (.dblAheadCountRead h rd acc) s =
        .next (let t := wrX h rd (readAcc acc s.dbl.aheadCount) s; { t with dbl := { t.dbl with aheadCount := 0 } }) ∧
      exec (.dblDiscardsRead h rd acc) s =
        .next (let t := wrX h rd (readAcc acc s.dbl.discards) s; { t with dbl := { t.dbl with discards := 0 } }) ∧
      exec (.fncMismatchRead h rd u acc) s =
        .next (let t := wrX h rd (readAcc acc (homeOf s u).mismatch) s; setHome u { homeOf t u with mismatch := 0 } t)) ∧
    exec (.cbxDiscardsRead h rd ch .hi) s = .next (wrX h rd (readAcc .hi (chanOf s ch).discards) s) ∧
    exec (.dblAheadCountRead h rd .hi) s = .next (wrX h rd (readAcc .hi s.dbl.aheadCount) s) ∧
    exec (.dblDiscardsRead h rd .hi) s = .next (wrX h rd (readAcc .hi s.dbl.discards) s) ∧
    exec (.fncMismatchRead h rd u .hi) s = .next (wrX h rd (readAcc .hi (homeOf s u).mismatch) s)) ∧
  (∀ (v : Word) (s : State),
    (anyJob s = true → exec (.qtzLoad .full v) s = .next { s with quartz := { s.quartz with loadRefused := true } }) ∧
    (anyJob s = false → ∃ t, exec (.qtzLoad .full v) s = .next t ∧ t = { s with quartz := t.quartz } ∧ now (tick s) ≤ now t ∧
      (now (tick s) ≤ v.toNat → now t = v.toNat ∧ t.quartz.loadRefused = s.quartz.loadRefused) ∧
      (v.toNat < now (tick s) → t.quartz = { (tick s).quartz with loadRefused := true })) ∧
    exec (.qtzStateWrite .full v) s = .next { s with quartz := { s.quartz with loadRefused := s.quartz.loadRefused && !bit v.toNat 9 } } ∧
    (∀ acc, acc ≠ .full → exec (.qtzLoad acc v) s = .next s ∧ exec (.qtzStateWrite acc v) s = .next s)) ∧
  (∀ (v : Word) (s : State),
    exec (.pwrFlagsWrite .full v) s = .next { s with power := { s.power with
      maxInput := s.power.maxInput && !bit v.toNat 2, capFloor := s.power.capFloor && !bit v.toNat 1,
      supplyWarn := s.power.supplyWarn && !bit v.toNat 0 } } ∧
    exec (.thmFlagsWrite .full v) s = .next { s with thermal := { s.thermal with flag := s.thermal.flag && !bit v.toNat 0 } } ∧
    (∀ acc, acc ≠ .full → exec (.pwrFlagsWrite acc v) s = .next s ∧ exec (.thmFlagsWrite acc v) s = .next s)) ∧
  (∀ (s : State),
    (s.quartz.state = .free → ∃ t, exec .qrefLock s = .next t ∧ t = { s with quartz := t.quartz } ∧ t.quartz.state = .localRef ∧
      t.quartz.qref = true ∧ now t = now s) ∧
    (s.quartz.state = .localRef ∨ s.quartz.state = .consist → exec .qrefLoss s = .next { s with quartz := { s.quartz with
      qref := false, state := .holdover, holdoverSince := some s.quartz.now, consistSince := none } }) ∧
    (s.quartz.state = .consist → exec .upstreamLoss s = .next { s with quartz := { s.quartz with
      timingPort := none, state := .holdover, holdoverSince := some s.quartz.now, consistSince := none } }) ∧
    (∀ p r, p < 20 → s.quartz.state = .holdover → s.route = some r → r.timeRoot ≠ r.self → r.alt1 = some p ∨ r.alt2 = some p →
      (portOf s p).up = true → ∃ t, exec (.alternateLock p) s = .next t ∧ t.quartz.state = .consist ∧ t.quartz.timingPort = some p ∧
        now t = now s ∧ 0x400000000 - 858993 ≤ t.quartz.rate ∧ t.quartz.rate ≤ 0x400000000 + 858993) ∧
    (∀ w r, 10 ≤ w → s.route = some r → r.timeRoot = r.self →
      (ppsBad s = false → ∃ t, exec (.ppsEdge w) s = .next t ∧ t.quartz.ppsPresent = true ∧ t.quartz.ppsStamp = now s ∧ now t = now s) ∧
      (ppsBad s = true → ∃ t, exec (.ppsEdge w) s = .next t ∧ t.quartz.ppsIgnored = s.quartz.ppsIgnored + 1 ∧
        t.quartz.ppsStamp = s.quartz.ppsStamp ∧ now t = now s)))

/-- HD1's Caboose takes over from HD0's: it becomes active and sets standby, and the package resets; on HD1's registers a channel shows
only the answer to a request that was in progress (R375; the last point is the model's choice, log 35). Once HD1 is active no
takeover is left. -/
def Obligations.StandbyTakesOverOnce : Prop :=
  ∀ (t : SelfTest) (s : State), (Instr.standbyTakeover t).wellFormed = true →
    (s.active = some 0 → s.bu.state = 1 → exec (.standbyTakeover t) s =
      .next (takeChans s.chans (packageReset t { s with active := some 1, standby := true }))) ∧
    (s.active ≠ some 0 → exec (.standbyTakeover t) s = .next s)

/-- QUEUE_ENABLE of a disabled queue: where a condition of R347 fails enable stays 0 and cfg_err is set; otherwise the queue runs with
head, exp_seq, cq_tail, db_tail and cq_head 0, both phases 1 and db_seq 0xFFFF. QUEUE_DISABLE: every descriptor accepted and not
started receives a REJECTED_STATE record, in order, and no further descriptor is read; a queue with no record left reads disabled. -/
def Obligations.QueuesAreEnabledAndDisabled : Prop :=
  ∀ (q p : Nat) (v : Word) (s : State), q < 16384 → queuePart s q = some p →
    let x := queueOf s q
    let x1 := setCtrl v.toNat x
    (bit v.toNat 63 = true → x.enable = false → x.disabling = false →
      (enableOk s p x1 = false → exec (.queueEnable q .full v) s = .next (setQueue q { x1 with cfgErr := true } s)) ∧
      (enableOk s p x1 = true → exec (.queueEnable q .full v) s = .next (setQueue q { x1 with
        enable := true, cfgErr := false, state := .running, head := 0, expSeq := 0, cqTail := 0, dbTail := 0, cqHead := 0,
        sqPhase := true, cqPhase := true, dbSeq := 0xFFFF, reading := false, repoll := none, repollNo := 0, accepted := [],
        cur := none, recs := [], disabling := false } s))) ∧
    (bit v.toNat 63 = true → x.enable = true → exec (.queueEnable q .full v) s = .next s) ∧
    (bit v.toNat 63 = false → x.enable = true → ∃ t, exec (.queueDisable q .full v) s = .next t ∧
      (queueOf t q).enable = false ∧ (queueOf t q).accepted = [] ∧ (queueOf t q).reading = false ∧
      (queueOf t q).recs = x.recs ++ x.accepted.map (fun d => descRec d.1 stState) ∧
      (∀ k, k ≠ q → queueOf t k = queueOf s k) ∧ t = { s with queues := t.queues } ∧
      (x.recs = [] → x.accepted = [] → x.cur = none → s.parts.all (fun e => e.2.job.isNone) = true →
        (queueOf t q).state = .disabled))

/-- A region entry that is not valid becomes valid where the conditions of R370 hold, with err clear; otherwise valid stays 0 and err is
set. While it is valid a write takes effect only if it clears valid (R369). -/
def Obligations.RegionsAreValidatedAndInvalidated : Prop :=
  ∀ (r p : Nat) (v : Word) (s : State), r < 4096 → regionPart s r = some p →
    let x := regionOf s r
    let x1 := setRgnCtrl v.toNat x
    (bit v.toNat 63 = true →
      (x.valid = false → validateOk s p x1 = true →
        exec (.regionValidate r .full v) s = .next (setRegion r { x1 with valid := true, err := false } s)) ∧
      (x.valid = false → validateOk s p x1 = false → exec (.regionValidate r .full v) s = .next (setRegion r { x1 with err := true } s)) ∧
      (x.valid = true → exec (.regionValidate r .full v) s = .next s)) ∧
    (bit v.toNat 63 = false →
      (x.valid = true → exec (.regionInvalidate r .full v) s = .next (setRegion r { x1 with valid := false } s)) ∧
      (x.valid = false → exec (.regionInvalidate r .full v) s = .next (setRegion r x1 s)))

/-- A doorbell (R28, R347 to R349): on a queue that no partition holds it is discarded, counted and raises EV_REGION_FAULT; on a
disabled queue, or out of range, it is discarded and counted; one whose seq is neither db_seq with no descriptor added nor db_seq
plus the number added is a counted mismatch; any other sets db_tail and db_seq, then cq_head, then resumes a parked queue. -/
def Obligations.DoorbellIsTakenOrDiscarded : Prop :=
  ∀ (q : Nat) (v : Word) (s : State), q < 16384 →
    let x := queueOf s q
    let w := v.toNat
    let tail := fld w 15 0
    let seq := fld w 31 16
    let n := (tail + 2 ^ x.sqLog - x.dbTail) % 2 ^ x.sqLog
    let discarded := bump 0x0260 q 1 { s with dbl := { s.dbl with discards := min (2 ^ 32 - 1) (s.dbl.discards + 1) } }
    let legal := fld w 61 48 = 0 ∧ tail < 2 ^ x.sqLog ∧ fld w 47 32 < 2 ^ x.cqLog
    let current := (n = 0 ∧ seq = x.dbSeq) ∨ seq = (x.dbSeq + n) % 65536
    (queuePart s q = none →
      exec (.doorbell q v) s = .next (raiseEvent evRegionFault q (causeOf evRegionFault 5) discarded)) ∧
    ((queuePart s q).isSome = true → x.enable = false ∨ ¬ legal → exec (.doorbell q v) s = .next discarded) ∧
    ((queuePart s q).isSome = true → x.enable = true → legal → ¬ current → exec (.doorbell q v) s = .next (bump 0x0261 q 1 s)) ∧
    ((queuePart s q).isSome = true → x.enable = true → legal → current → ∃ y, exec (.doorbell q v) s = .next (setQueue q y s) ∧
      y.dbTail = tail ∧ y.dbSeq = seq ∧ y.cqHead = (if bit w 63 then fld w 47 32 else x.cqHead) ∧
      y.state = (if bit w 62 ∧ x.state = .parked then .running else x.state) ∧ y.head = x.head ∧ y.accepted = x.accepted)

/-- A descriptor is current when its phase equals sq_phase and its seq equals exp_seq: it is accepted, head advances, sq_phase toggles
when head wraps and exp_seq advances by one (R351). A stale one is read again after 64 × 2^min(i − 1, 6) ns for re-poll i, up to 16
times; then the queue parks, a DOORBELL_AHEAD record with seq = exp_seq is written and the event raised, and head stays (R352). -/
def Obligations.DescriptorsAreAcceptedRepolledOrParked : Prop :=
  ∀ (q : Nat) (s : State), q < 16384 → (queueOf s q).reading = true → (queueOf s q).state = .running →
    let r := readDescriptor q s
    let x := queueOf r.2 q
    let phase := bit (wd r.1 0).toNat 47
    let seq := wf (wd r.1 0) 63 48
    (phase = x.sqPhase → seq = x.expSeq → x.qtype = 0 → badOpcode x r.1 = false →
      ∃ y, exec (.descriptorReadReturn q) s = .next (setQueue q y r.2) ∧ y.head = (x.head + 1) % 2 ^ x.sqLog ∧
        y.expSeq = (x.expSeq + 1) % 65536 ∧ y.sqPhase = (if (x.head + 1) % 2 ^ x.sqLog = 0 then !x.sqPhase else x.sqPhase) ∧
        (x.accepted.all (fun d => !badOpcode x d.1) = true → y.accepted = x.accepted ++ [(r.1, now r.2)])) ∧
    (phase ≠ x.sqPhase ∨ seq ≠ x.expSeq → x.repollNo < 16 → exec (.descriptorReadReturn q) s = .next (setQueue q
      { x with reading := false, repoll := some (x.repollNo + 1, now r.2 + 64 * 2 ^ min x.repollNo 6) } r.2)) ∧
    (phase ≠ x.sqPhase ∨ seq ≠ x.expSeq → 16 ≤ x.repollNo → exec (.descriptorReadReturn q) s = .next (parkAhead q r.2)) ∧
    (∀ i t, (queueOf s q).repoll = some (i, t) → exec (.descriptorRepoll q) s = .next
      (advance t (setQueue q { queueOf s q with reading := true, repoll := none, repollNo := i } s)))


/-! ### Harts and the coherent and direct paths -/

/-- A plain load that issues goes by its range (R22 to R26, R256, R264, R271, R278, R335, R474). From the UMR or the direct aperture it
returns the value of its path, behind the requests that wait for its line, or raises the load access fault where a line is poisoned
(R196); it is held behind the hart's own held write. A doorbell page reads zero; the register space returns an aligned register or half
of one; a PCIe window is asked, or with its link down returns all ones and counts; another package is asked line by line. Where the
range does not permit the load it raises the load access fault. -/
def Obligations.LoadsGoByAddressRange : Prop :=
  ∀ (h rd a n : Nat) (sg : Bool) (s : State), (Instr.hartLoad h rd a n sg).wellFormed = true →
    issues s h (.hartLoad h rd a n sg) = true →
    let gives := fun (t : State) => exec (.hartLoad h rd a n sg) s = .next t
    let faults := gives (raiseTrap h .loadFault a s)
    let umr := fun (u : Nat) (dir : Bool) =>
      (readWaits s (.hart h) dir u n = none →
        let o := hartRead h u n dir none (if dir then s else (linesOf u n).foldl (fun s l => arrive (.hart h) false false l s) s)
        (∀ v, o.1 = some v → gives (wrX h rd (loadValue v n sg) o.2)) ∧
        (o.1 = none → gives (raiseTrap h .loadFault (if dir then directBase + u else u) o.2))) ∧
      (∀ x, readWaits s (.hart h) dir u n = some x → gives (holdRead x (.hartOp h u dir (.load rd n sg none)) s))
    (∀ u, hartSpace a n = .umr u → umr u false) ∧
    (∀ u, hartSpace a n = .direct u → umr u true) ∧
    (∀ q o, hartSpace a n = .door q o → gives (wrX h rd 0 s)) ∧
    (∀ o, hartSpace a n = .regs o →
      (n = 8 → o % 8 = 0 → gives (rcClear o .full (wrX h rd (word (regRead s o)) s))) ∧
      (n = 4 → o % 4 = 0 → gives (rcClear (o / 8 * 8) (if o % 8 = 0 then .lo else .hi)
        (wrX h rd (loadValue (leBytes 4 (if o % 8 = 0 then regRead s (o / 8 * 8) % 2 ^ 32 else regRead s (o / 8 * 8) / 2 ^ 32)) 4 sg) s))) ∧
      ((n ≠ 4 ∧ n ≠ 8) ∨ o % n ≠ 0 → faults)) ∧
    (∀ p o, hartSpace a n = .pcie p o →
      let up := setHas s.pcie.link (subOf s p o)
      (up = true → gives (send (.pcieRead (subOf s p o) (pcieBase + p * 2 ^ 44 + o) n)
        (modHart h (fun x => { x with pcieLoads := x.pcieLoads ++ [(rd, pcieBase + p * 2 ^ 44 + o, n, sg)] }) s))) ∧
      (up = false → gives (wrX h rd (loadValue (List.replicate n 255#8) n sg)
        { s with pcie := { s.pcie with downs := satAdd max32 s.pcie.downs 1 } }))) ∧
    (∀ k o, hartSpace a n = .remote k o →
      (∀ u, remoteReach s k o n = .own u → umr u true) ∧
      (∀ p f, remoteReach s k o n = .other p f → n ≤ 64 - f % 64 →
        gives (sendReq p 0 (f / 64 * 64) 0 [] (.hart h) (some (rd, f % 64, n, sg)) s)) ∧
      (remoteReach s k o n = .nowhere → faults)) ∧
    (hartSpace a n = .none → faults)

/-- A plain store that issues goes by its range (R24 to R26, R154, R271, R278, R335, R474): its bytes go by the path of the range, and
those to a write-protected extent raise the event and the store access fault; an 8-byte store at offset 0 of a doorbell page rings,
elsewhere in the page it is ignored and counted, and of another width it faults; the register space takes aligned stores of 4 and 8
bytes; a PCIe window takes a posted write, or counts it with its link down; another package is sent a plain write. -/
def Obligations.StoresGoByAddressRange : Prop :=
  ∀ (h rs a n : Nat) (s : State), (Instr.hartStore h rs a n).wellFormed = true → issues s h (.hartStore h rs a n) = true →
    let v := rdX s h rs
    let d := leBytes n v.toNat
    let gives := fun (t : State) => exec (.hartStore h rs a n) s = .next t
    let faults := gives (raiseTrap h .storeFault a s)
    let umr := fun (u : Nat) (dir : Bool) =>
      (protectedRange s u n = false → gives (if dir then dirWrite (.hart h) u d none s else cohWrite (.hart h) u d none s)) ∧
      (protectedRange s u n = true → gives (raiseTrap h .storeFault a (raiseEvent evRegionFault h (causeOf evRegionFault 1) s)))
    (∀ u, hartSpace a n = .umr u → umr u false) ∧
    (∀ u, hartSpace a n = .direct u → umr u true) ∧
    (∀ q o, hartSpace a n = .door q o →
      (n = 8 → o = 0 → gives (ringDoorbell q v s)) ∧ (n = 8 → o ≠ 0 → gives (discardDoorbell q s)) ∧ (n ≠ 8 → faults)) ∧
    (∀ o, hartSpace a n = .regs o →
      (n = 8 → o % 8 = 0 → gives (regWrite o .full v.toNat s)) ∧
      (n = 4 → o % 4 = 0 → gives (regStore o 4 v s)) ∧
      ((n ≠ 4 ∧ n ≠ 8) ∨ o % n ≠ 0 → faults)) ∧
    (∀ p o, hartSpace a n = .pcie p o →
      (setHas s.pcie.link (subOf s p o) = true → gives (send (.pcieWrite (subOf s p o) (pcieBase + p * 2 ^ 44 + o) d) s)) ∧
      (setHas s.pcie.link (subOf s p o) = false → gives { s with pcie := { s.pcie with downs := satAdd max32 s.pcie.downs 1 } })) ∧
    (∀ k o, hartSpace a n = .remote k o →
      (∀ u, remoteReach s k o n = .own u → umr u true) ∧
      (∀ p f, remoteReach s k o n = .other p f → gives (remoteWrite p 2 f d (.hart h) s)) ∧
      (remoteReach s k o n = .nowhere → faults)) ∧
    (hartSpace a n = .none → faults)

/-- A coherent write by a requester that does not cache, of a line that no cache holds, that no accepted direct write awaits and whose
extent takes writes (R196, R216, R246): the bytes stand in memory and every other byte reads as before; the sectors that it touches are
dirty; the poison and the errors of its lines are gone. Nothing changes but memory, the extents, the poison, the errors and the homes'
release records. A release whose waits have not ended stays at its requester, and a write beyond the UMR does not reach it (R22, R251). -/
def Obligations.DeviceWritesReachMemory : Prop :=
  ∀ (r : Requester) (a : Nat) (d : List Byte) (rel : Option Scope) (s : State),
    (Instr.coherentWrite r a d rel).wellFormed = true → (∀ h, r ≠ .hart h) →
    (a + d.length ≤ umrEnd → protectedExt s (a / extSize) = false →
      (reqBlocked s (.write r a d rel) = false → writeHeld s (a / extSize) = false → tblGet? s.dir (a / 64) = none →
        (homeOf s (homeNum s (a / 64 * 64))).dbuf.any (fun w => decide (w.addr / 64 = a / 64)) = false →
        ∃ t, exec (.coherentWrite r a d rel) s = .next t ∧ peek t a d.length = d ∧
          (∀ b n, b + n ≤ a ∨ a + d.length ≤ b → peek t b n = peek s b n) ∧
          (extOf t (a / extSize)).dirty = (extOf s (a / extSize)).dirty ||| dirtyMask (a / extSize) a d.length ∧
          (∀ x, x ≠ a / extSize → extOf t x = extOf s x) ∧ (∀ l, setHas t.poison l = (setHas s.poison l && !overlap (l * 64) 64 a d.length)) ∧
          (∀ e, e ∈ t.lineErr ↔ e ∈ s.lineErr ∧ overlap (e.1 * 64) 64 a d.length = false) ∧
          t = { s with mem := t.mem, exts := t.exts, poison := t.poison, lineErr := t.lineErr, homes := t.homes }) ∧
      (reqBlocked s (.write r a d rel) = true →
        exec (.coherentWrite r a d rel) s = .next { s with reqWait := s.reqWait ++ [.write r a d rel] })) ∧
    (a + d.length ≤ umrEnd → protectedExt s (a / extSize) = true →
      exec (.coherentWrite r a d rel) s = .next (raiseEvent evRegionFault (unitOf r) (causeOf evRegionFault 1) s)) ∧
    (umrEnd < a + d.length → exec (.coherentWrite r a d rel) s = .next (refuseAccess r true a s))

/-- A hart's coherent write that need not wait, other than a consist-scope release (R246, R252, R255): the hart's cache owns the line
as its one copy, dirty, with the written bytes in it; a tile or package release leaves its tag with the line; where the hart did not
own the line before, every other hart's reservation on it is lost. -/
def Obligations.HartWritesOwnTheirLine : Prop :=
  ∀ (h a : Nat) (d : List Byte) (rel : Option Scope) (s : State),
    (Instr.coherentWrite (.hart h) a d rel).wellFormed = true → rel ≠ some .consist → a + d.length ≤ umrEnd →
    protectedExt s (a / extSize) = false → writeHeld s (a / extSize) = false → mustWait s (a / 64) (.hart h) true false = false →
    reqBlocked s (.write (.hart h) a d rel) = false → (∀ e ∈ (lineOf s (a / 64)).copies, e.2.length = 64) →
    ((lineOf s (a / 64)).owner = some h → ∃ v, (lineOf s (a / 64)).copies = [(h, v)]) →
    ∃ t v, exec (.coherentWrite (.hart h) a d rel) s = .next t ∧
      (lineOf t (a / 64)).owner = some h ∧ (lineOf t (a / 64)).dirty = true ∧ (lineOf t (a / 64)).copies = [(h, v)] ∧ v.length = 64 ∧
      (v.drop (a % 64)).take d.length = d ∧ (lineOf t (a / 64)).tag = rel.map (fun sc => (sc, h)) ∧
      ((lineOf s (a / 64)).owner ≠ some h → ∀ k, k ≠ h → (hartOf t k).resv ≠ some (a / 64))

/-- The coherent read of a line's bytes by the hart that holds it returns what its cache holds and changes no memory; another hart's, of
a line that is poisoned, returns it poisoned and caches nothing; a read by another requester is served by the line's home (R196, R246).
A read that meets the requester's own held write, or a Tender that restarts, is held at its extent (R256, R458). -/
def Obligations.HoldersReadTheirCopies : Prop :=
  ∀ (r : Requester) (a n : Nat) (s : State), (Instr.coherentRead r a n none).wellFormed = true →
    let gives := fun (t : State) => exec (.coherentRead r a n none) s = .next t
    let o := cohRead r a n none s
    (a + n ≤ umrEnd → reqBlocked s (.read r a n none) = false →
      (readWaits s r false a n = none → mustWait s (a / 64) r false false = false →
        ((∀ h, r ≠ .hart h) → gives (returnData r a o.1 (rangePoisoned s a n) o.2)) ∧
        (∀ h, r = .hart h →
          (hartPoison s h a n = none → gives (returnData r a o.1 false o.2)) ∧
          (∀ l, hartPoison s h a n = some l → gives (returnData r a (peek s a n) true (countPoison l s))) ∧
          (∀ v, tblGet? (lineOf s (a / 64)).copies h = some v → (lineOf s (a / 64)).waiting = [] →
            hartPoison s h a n = none ∧ o.1 = (v.drop (a % 64)).take n ∧ o.2 = s))) ∧
      (∀ x, readWaits s r false a n = some x → gives (holdRead x (.read r a n none) s))) ∧
    (umrEnd < a + n → gives (refuseAccess r false a s))

/-- A direct write is accepted by the buffer of its home, behind those accepted before; memory is unchanged, and a read of the line
finds its bytes over memory's until it drains (R247). DIRECT_WRITE_DRAIN puts the oldest in memory. A direct read of a line that has
one pending returns them (R247); an acquire first drains every buffer, and its poison is that of the drained memory (R254). A write to
a protected extent raises the event; an address outside the aperture reaches nothing (R22, R154). -/
def Obligations.DirectWritesWaitInTheBuffer : Prop :=
  (∀ (r : Requester) (a u : Nat) (d : List Byte) (s : State), (Instr.directWrite r a d).wellFormed = true → classify a = .direct u →
    let l := u / 64
    let k := homeNum s (l * 64)
    (protectedExt s (u / extSize) = false → writeHeld s (u / extSize) = false → (homeOf s k).dbuf.length < 64 →
      ∃ t, exec (.directWrite r a d) s = .next t ∧ t.mem = s.mem ∧
        (homeOf t k).dbuf = (homeOf s k).dbuf ++ [{ addr := u, data := d, at_ := now s }] ∧
        homeLine t l = overlayWrite l (homeLine s l) { addr := u, data := d, at_ := now s } ∧
        tblGet? (homeOf t k).readAhead l = none ∧ t = { s with homes := t.homes, dir := t.dir }) ∧
    (protectedExt s (u / extSize) = true → exec (.directWrite r a d) s = .next (refuseProtected r a s))) ∧
  (∀ (r : Requester) (a : Nat) (d : List Byte) (s : State), (Instr.directWrite r a d).wellFormed = true → (∀ u, classify a ≠ .direct u) →
    exec (.directWrite r a d) s = .next (refuseAccess r true a s)) ∧
  (∀ (j : Nat) (s : State), j < 18 →
    (∀ w rest, (homeOf s j).dbuf = w :: rest →
      exec (.directWriteDrain j) s = .next (poke w.addr w.data (setHome j { homeOf s j with dbuf := rest } s))) ∧
    ((homeOf s j).dbuf = [] → exec (.directWriteDrain j) s = .next s)) ∧
  (∀ (r : Requester) (a n : Nat) (acq : Bool) (s : State), (Instr.directRead r a n acq).wellFormed = true →
    (∀ u, classify a = .direct u →
      let l := u / 64
      let k := homeNum s (l * 64)
      let s0 := if acq then drainAll s else s
      let o := dirRead r u n (if acq then some .consist else none) s0
      (readWaits s r true u n = none →
        exec (.directRead r a n acq) s = .next (returnData r (directBase + u) o.1 (rangePoisoned s0 u n) o.2)) ∧
      (∀ x, readWaits s r true u n = some x → exec (.directRead r a n acq) s = .next (holdRead x (.directRead r u n acq) s)) ∧
      (acq = false → (homeOf s k).dbuf.any (fun w => decide (w.addr / 64 = l)) = true → o.1 = ((homeLine s l).drop (u % 64)).take n)) ∧
    ((∀ u, classify a ≠ .direct u) → exec (.directRead r a n acq) s = .next (refuseAccess r false a s)))

/-- LINE_WRITEBACK by a cache that holds no copy changes nothing; by the owner of a dirty line against which no direct write was
accepted, the line's bytes stand in memory, every other byte reads as before, and the cache holds the line no more (R246, R255, R259).
GRANT_HOLD_EXPIRY takes time to the end of the hold and forwards a waiting request's snoop; SNOOP_ANSWER then performs the oldest
waiting request alone, and the next one's snoop follows unless the line was granted anew (R264, R265). -/
def Obligations.LinesAreWrittenBackAndForwarded : Prop :=
  ∀ (c l : Nat) (s : State), (Instr.lineWriteback c l).wellFormed = true →
    let x := lineOf s l
    (tblGet? x.copies c = none → exec (.lineWriteback c l) s = .next s) ∧
    (∀ v, tblGet? x.copies c = some v → v.length = 64 → x.dirty = true → x.owner = some c → x.clash = false →
      ∃ t, exec (.lineWriteback c l) s = .next t ∧ peek t (l * 64) 64 = v ∧
        (∀ b n, b + n ≤ l * 64 ∨ l * 64 + 64 ≤ b → peek t b n = peek s b n) ∧ tblGet? (lineOf t l).copies c = none ∧
        (c < 96 → (hartOf t c).resv ≠ some l)) ∧
    (∀ v, tblGet? x.copies c = some v → x.owner ≠ some c → ∃ t, exec (.lineWriteback c l) s = .next t ∧ t.mem = s.mem ∧
      tblGet? (lineOf t l).copies c = none) ∧
    (tblGet? s.dir l = none → exec (.grantHoldExpiry l) s = .next s) ∧
    ((tblGet? s.dir l).isSome = true → exec (.grantHoldExpiry l) s = .next
      (if x.waiting.isEmpty then advance x.hold s else setLine l { x with snooped := true } (advance x.hold s))) ∧
    (∀ w rest, x.snooped = true → x.waiting = w :: rest →
      let s1 := performWaiting (setLine l { x with waiting := rest, snooped := false } s) w
      exec (.snoopAnswer l) s = .next (retryReq (if decide ((lineOf s1 l).hold ≤ now s1) && !(lineOf s1 l).waiting.isEmpty
        then setLine l { lineOf s1 l with snooped := true } s1 else s1))) ∧
    (x.snooped = false ∨ x.waiting = [] → exec (.snoopAnswer l) s = .next s)

/-- AMO, LR and SC at an aligned address of the backed UMR, behind the requests that wait for the line (R264, R275, R276, R285): the AMO
returns the old value, of two registers at 16 bytes, and the hart's cache owns the line with the new one; LR reserves the line; SC with
the reservation stores and returns 0, without it stores nothing and returns 1 (PRESUMED from the standard, log 48), and either way no
reservation is left. Misaligned, they raise the misaligned exception of their kind; outside the backed UMR, the access fault; a store
to a write-protected extent, the event and the store access fault (R154). -/
def Obligations.AtomicsReadModifyWrite : Prop :=
  ∀ (h rd rs a n u : Nat) (aq rl : Bool) (op : AmoOp) (s : State),
    let come := fun (write : Bool) => (linesOf u n).foldl (fun s l => arrive (.hart h) write false l s) s
    let ready := hartSpace a n = .umr u ∧ a % n = 0 ∧ readWaits s (.hart h) false u n = none
    let stops := fun (i : Instr) (mis fault : Trap) =>
      (hartSpace a n = .umr u → a % n ≠ 0 → exec i s = .next (raiseTrap h mis a s)) ∧
      ((∀ x, hartSpace a n ≠ .umr x) → exec i s = .next (raiseTrap h fault a s))
    let refuses := fun (i : Instr) => hartSpace a n = .umr u → a % n = 0 → protectedRange s u n = true →
      exec i s = .next (raiseTrap h .storeFault a (raiseEvent evRegionFault h (causeOf evRegionFault 1) s))
    ((Instr.amo h op rd rs a n aq rl).wellFormed = true → issues s h (.amo h op rd rs a n aq rl) = true →
      (∀ v, ready → protectedRange s u n = false → writeHeld (come true) (u / extSize) = false →
        (hartRead h u n false (relOf aq) (come true)).1 = some v →
        let s1 := (hartRead h u n false (relOf aq) (come true)).2
        let old := leNat v
        let new := amoResult op n old (rdPair s h rs n) (rdPair s h rd n)
        exec (.amo h op rd rs a n aq rl) s = .next (wrLoaded h rd n v
          (if op = .cas ∧ old ≠ rdPair s h rd n % 2 ^ (8 * n) then s1
           else writeOwned h (u / 64) (u % 64) (leBytes n new) (relOf rl) s1))) ∧
      stops (.amo h op rd rs a n aq rl) .storeMisaligned .storeFault ∧ refuses (.amo h op rd rs a n aq rl)) ∧
    ((Instr.lr h rd a n aq rl).wellFormed = true → issues s h (.lr h rd a n aq rl) = true →
      (∀ v, ready → (hartRead h u n false (relOf aq) (come false)).1 = some v →
        exec (.lr h rd a n aq rl) s = .next (wrX h rd (loadValue v n true)
          (modHart h (fun x => { x with resv := some (u / 64) }) (hartRead h u n false (relOf aq) (come false)).2))) ∧
      stops (.lr h rd a n aq rl) .loadMisaligned .loadFault) ∧
    ((Instr.sc h rd rs a n aq rl).wellFormed = true → issues s h (.sc h rd rs a n aq rl) = true →
      (ready → protectedRange s u n = false →
        ((hartOf (come true) h).resv = some (u / 64) → writeHeld (come true) (u / extSize) = false →
          exec (.sc h rd rs a n aq rl) s = .next (wrX h rd 0 (modHart h (fun x => { x with resv := none })
            (writeOwned h (u / 64) (u % 64) (leBytes n (rdX s h rs).toNat) (relOf rl) (come true))))) ∧
        ((hartOf (come true) h).resv ≠ some (u / 64) → exec (.sc h rd rs a n aq rl) s =
          .next (wrX h rd 1 (modHart h (fun x => { x with resv := none }) (come true))))) ∧
      stops (.sc h rd rs a n aq rl) .storeMisaligned .storeFault ∧ refuses (.sc h rd rs a n aq rl))

/-- The scoped instructions that issue (R284 to R286, R290, R291). Scope code 3, or a non-zero field that Table 10-5 marks 0, makes them
illegal. A legal scfence, and FENCE, orders and changes no state. A scoped access faults outside the ranges of Table 10-3 and is
misaligned off its width; otherwise scld returns the sign-extended value of an acquire read, and scst is a release write; only consist
scope reaches another package as an acquire or a release. qsubmit rings the doorbell of its page and faults at any other address.
An instruction of a hart issues in program order: it waits behind those that wait, for the registers that it uses, for an acquire that
has not returned and for what its release or fence orders, and none runs while the harts are in reset (R249 to R253, R297; log 46). -/
def Obligations.ScopedInstructionsFollowTheirCodes : Prop :=
  (∀ (h : Nat) (insn : BitVec 32) (tso : Bool) (pred succ : BitVec 4) (s : State), h < 96 →
    let i := insn.toNat
    let rd := fld i 11 7
    let rs1 := fld i 19 15
    let rs2 := fld i 24 20
    let a := (rdX s h rs1).toNat
    let n := 2 ^ fld i 26 25
    (issues s h (.fence h tso pred succ) = true → exec (.fence h tso pred succ) s = .next s) ∧
    (isCustom i 0 = true → issues s h (.scfence h insn) = true →
      (fld i 8 7 = 3 ∨ fld i 31 28 ≠ 0 ∨ rs1 ≠ 0 ∨ fld i 11 9 ≠ 0 → exec (.scfence h insn) s = .next (raiseTrap h .illegal i s)) ∧
      (fld i 8 7 ≠ 3 → fld i 31 28 = 0 → rs1 = 0 → fld i 11 9 = 0 → exec (.scfence h insn) s = .next s)) ∧
    (isCustom i 1 = true → issues s h (.scld h insn) = true →
      (fld i 31 30 = 3 ∨ fld i 29 27 ≠ 0 ∨ rs2 ≠ 0 → exec (.scld h insn) s = .next (raiseTrap h .illegal i s)) ∧
      (∀ sc, scopeOf (fld i 31 30) = some sc → fld i 29 27 = 0 → rs2 = 0 →
        (scopedSpace a n = false → exec (.scld h insn) s = .next (raiseTrap h .loadFault a s)) ∧
        (scopedSpace a n = true → a % n ≠ 0 → exec (.scld h insn) s = .next (raiseTrap h .loadMisaligned a s)) ∧
        (∀ u dir v, a % n = 0 → hartSpace a n = (if dir then .direct u else .umr u) → readWaits s (.hart h) dir u n = none →
          let o := hartRead h u n dir (some sc) (if dir then s else (linesOf u n).foldl (fun s l => arrive (.hart h) false false l s) s)
          o.1 = some v → exec (.scld h insn) s = .next (wrX h rd (loadValue v n true) o.2)) ∧
        (∀ k o p f, a % n = 0 → hartSpace a n = .remote k o → remoteReach s k o n = .other p f → n ≤ 64 - f % 64 → exec (.scld h insn) s =
          .next (sendReq p (if sc = .consist then 1 else 0) (f / 64 * 64) 0 [] (.hart h) (some (rd, f % 64, n, true)) s)))) ∧
    (isCustom i 2 = true → issues s h (.scst h insn) = true →
      (fld i 31 30 = 3 ∨ fld i 29 27 ≠ 0 ∨ rd ≠ 0 → exec (.scst h insn) s = .next (raiseTrap h .illegal i s)) ∧
      (∀ sc, scopeOf (fld i 31 30) = some sc → fld i 29 27 = 0 → rd = 0 →
        let d := leBytes n (rdX s h rs2).toNat
        (scopedSpace a n = false → exec (.scst h insn) s = .next (raiseTrap h .storeFault a s)) ∧
        (scopedSpace a n = true → a % n ≠ 0 → exec (.scst h insn) s = .next (raiseTrap h .storeMisaligned a s)) ∧
        (∀ u, a % n = 0 → hartSpace a n = .umr u → protectedRange s u n = false →
          exec (.scst h insn) s = .next (cohWrite (.hart h) u d (some sc) s)) ∧
        (∀ u, a % n = 0 → hartSpace a n = .direct u → protectedRange s u n = false →
          exec (.scst h insn) s = .next (dirWrite (.hart h) u d (some sc) s)) ∧
        (∀ k o p f, a % n = 0 → hartSpace a n = .remote k o → remoteReach s k o n = .other p f →
          exec (.scst h insn) s = .next (remoteWrite p (if sc = .consist then 3 else 2) f d (.hart h) s)))) ∧
    (isCustom i 3 = true → issues s h (.qsubmit h insn) = true →
      (fld i 31 25 ≠ 0 ∨ rd ≠ 0 → exec (.qsubmit h insn) s = .next (raiseTrap h .illegal i s)) ∧
      (fld i 31 25 = 0 → rd = 0 →
        (∀ q, classify a = .door q 0 → exec (.qsubmit h insn) s = .next (ringDoorbell q (rdX s h rs2) s)) ∧
        ((∀ q, classify a ≠ .door q 0) → exec (.qsubmit h insn) s = .next (raiseTrap h .storeFault a s))))) ∧
  (∀ (h rd rs a n : Nat) (sg aq rl tso : Bool) (op : AmoOp) (tgt : RegTarget) (v : Word) (w : BitVec 32) (pred succ : BitVec 4)
      (s : State) (i : Instr),
    i ∈ [.hartLoad h rd a n sg, .hartStore h rs a n, .scld h w, .scst h w, .scfence h w, .fence h tso pred succ, .qsubmit h w, .cboClean h a,
         .cboFlush h a, .cboInval h a, .cboZero h a, .amo h op rd rs a n aq rl, .lr h rd a n aq rl, .sc h rd rs a n aq rl, .qtimeRead h rd,
         .sipiWrite h v, .mipiWrite h v, .rfClean h v, .rfFlush h v, .rfInvalidate h v, .registerWrite h tgt v] → i.wellFormed = true →
    let x := hartOf s h
    (s.bu.state ≠ 1 → exec i s = .next s) ∧
    (s.bu.state = 1 → x.waiting = [] → mayIssue s h i = false → exec i s = .next (modHart h (fun x => { x with waiting := [i] }) s)) ∧
    (∀ j rest, s.bu.state = 1 → x.waiting = j :: rest → mayIssue s h j = false →
      exec i s = .next (modHart h (fun x => { x with waiting := x.waiting ++ [i] }) s)) ∧
    (mayIssue s h i = true → (insRegs i).all (fun r => !regBusy s h r) = true ∧ acquireBehind s h = false))

/-- The cache-block operations that issue, where xenvcfg permits them, on a block of the backed UMR, behind the requests that wait for
its line (R260, R264, R265, R278, R279): clean writes the line back, flush and inval also drop every copy, zero writes one granule of
zeros. Where xenvcfg does not permit them they raise its exception; outside the backed UMR, the store access fault; a zero of a
write-protected block, the event and that fault (R154). -/
def Obligations.CacheBlockOperations : Prop :=
  ∀ (h a : Nat) (s : State), h < 96 → a < 2 ^ 56 →
    let x := hartOf s h
    let s1 := fun (u : Nat) => settleLine (u / 64) s
    let row := fun (i : Instr) (on : Nat → Bool) (t : Nat → State) => issues s h i = true →
      (cboTrap x on = none →
        (∀ u, classify a = .umr u → exec i s = .next (t u)) ∧
        ((∀ u, classify a ≠ .umr u) → exec i s = .next (raiseTrap h .storeFault a s))) ∧
      (∀ t, cboTrap x on = some t → exec i s = .next (raiseTrap h t a s))
    row (.cboClean h a) cbcfe (fun u => recallLine (u / 64) (s1 u)) ∧
    row (.cboFlush h a) cbcfe (fun u => invalidateLine (u / 64) (s1 u)) ∧
    row (.cboInval h a) cbie (fun u => invalidateLine (u / 64) (s1 u)) ∧
    row (.cboZero h a) cbze (fun u =>
      if protectedRange (s1 u) (u / 64 * 64) 64 then raiseTrap h .storeFault a (raiseEvent evRegionFault h (causeOf evRegionFault 1) (s1 u))
      else cohWrite (.hart h) (u / 64 * 64) (List.replicate 64 0) none (s1 u)) ∧
    (x.mode = .m → cboTrap x cbcfe = none ∧ cboTrap x cbie = none ∧ cboTrap x cbze = none)

/-- The range-flush engine (R261, R282, R287 to R289): where the CSR is open to the hart, a write of rfgo with op 1 to 3 is refused
while four requests are queued, with rfgo reading bit 63; otherwise the request takes the next ticket, which is never 0, with the
hart's rfbase and rflen, an invalidation performed as a flush while rfi is 0; one of length zero with nothing ahead completes at once.
RF_COMPLETE ends the oldest: done is its ticket, and the hart's rfskip its ticket and the lines it skipped. A hart to which the CSR is
closed takes the exception of R281. -/
def Obligations.RangeFlushTakesAndCompletesRequests : Prop :=
  (∀ (h : Nat) (v : Word) (s : State), h < 96 →
    let y := hartOf s h
    let x := rfOf s (h / 48)
    let row := fun (i : Instr) (op : Nat) => issues s h i = true → wf v 1 0 = op →
      (csrOpen y 0x5C2 = false → exec i s = .next (raiseTrap h (if virtual y.mode then .virtualInstr else .illegal) 0x5C2 s)) ∧
      (csrOpen y 0x5C2 = true → 4 ≤ x.queue.length → exec i s = .next (setHart h { y with rfgo := 2 ^ 63 } s)) ∧
      (csrOpen y 0x5C2 = true → x.queue.length < 4 → y.rflen ≠ 0 ∨ x.queue ≠ [] → ∃ t q, exec i s = .next (setRf (h / 48)
        { x with ctr := t, queue := x.queue ++ [q] } (setHart h { y with rfgo := t } s)) ∧ t ≠ 0 ∧ (x.ctr < 2 ^ 32 - 1 → t = x.ctr + 1) ∧
        q.hart = h ∧ q.ticket = t ∧ q.base = y.rfbase ∧ q.len = y.rflen ∧ q.notify = bit v.toNat 2 ∧
        q.op = (if op = 3 ∧ bit y.mgxcfg 3 = false then 2 else op)) ∧
      (csrOpen y 0x5C2 = true → x.queue = [] → y.rflen = 0 → ∃ t, exec i s = .next t ∧ (rfOf t (h / 48)).queue = [] ∧
        (hartOf t h).rfgo = (rfOf t (h / 48)).ctr ∧ (rfOf t (h / 48)).done = (rfOf t (h / 48)).ctr ∧ (rfOf t (h / 48)).ctr ≠ 0)
    row (.rfClean h v) 1 ∧ row (.rfFlush h v) 2 ∧ row (.rfInvalidate h v) 3) ∧
  (∀ (d : Nat) (s : State), d < 2 →
    ((rfOf s d).queue = [] → exec (.rfComplete d) s = .next s) ∧
    (∀ q rest, (rfOf s d).queue = q :: rest → q.hart < 96 → ∃ t, exec (.rfComplete d) s = .next t ∧
      (rfOf t d).done = q.ticket ∧ (rfOf t d).queue = rest ∧
      (hartOf t q.hart).rfskip = q.ticket * 2 ^ 32 + min (2 ^ 32 - 1) (rangeLines q.base q.len - backedLines q.base q.len)))

/-- A write to sipi with hart number h in bits [6:0] makes identity 33 pending in the supervisor file of hart h; a write to mipi does so
in the machine file where its bit 63 is 1 and in the supervisor file where it is 0. No other identity, file or hart is touched, no other
bit is looked at, and a hart number above 95 is ignored (R296). -/
def Obligations.SoftwareInterruptsReachTheirFile : Prop :=
  ∀ (h : Nat) (v : Word) (s : State), h < 96 →
    let k := wf v 6 0
    let raises := fun (i : Instr) (file : Nat) => ∃ t, exec i s = .next t ∧ setHas (tblGet [] (hartOf t k).files file) 33 = true ∧
      (∀ j f id, j ≠ k ∨ f ≠ file ∨ id ≠ 33 →
        setHas (tblGet [] (hartOf t j).files f) id = setHas (tblGet [] (hartOf s j).files f) id) ∧ t = { s with harts := t.harts }
    (csrOpen (hartOf s h) 0x5C4 = true → issues s h (.sipiWrite h v) = true →
      (k ≤ 95 → raises (.sipiWrite h v) 1) ∧ (95 < k → exec (.sipiWrite h v) s = .next s)) ∧
    ((hartOf s h).mode = .m → issues s h (.mipiWrite h v) = true →
      (k ≤ 95 → bit v.toNat 63 = true → raises (.mipiWrite h v) 0) ∧ (k ≤ 95 → bit v.toNat 63 = false → raises (.mipiWrite h v) 1) ∧
      (95 < k → exec (.mipiWrite h v) s = .next s))

/-- A hart's CSR instructions and register writes that issue (R281, R282, R288, R296, R474, R475): a write of a read-only Garoux CSR is
illegal, and a CSR that is closed to the hart raises the exception of R281, sipi and mipi too; an open one is read into rd, as qstat,
rfstat and rfskip are, and then written, mgxcfg, rfbase and rflen as wide as they are. A CSR of a number that Table 10-4 and the
standard leave without a register is illegal. A register write reaches the register at its address, as an aligned whole or half;
another faults. -/
def Obligations.CsrAndRegisterWrites : Prop :=
  ∀ (h num rd : Nat) (op : CsrOp) (v : Word) (s : State), h < 96 → num < 4096 → rd < 32 →
    let x := hartOf s h
    let refused := raiseTrap h (if virtual x.mode then .virtualInstr else .illegal)
    let row := fun (o : CsrOp) (t : State) => exec (.registerWrite h (.csr num rd o) v) s = .next t
    (issues s h (.registerWrite h (.csr num rd op) v) = true →
      (garouxCsr num = true →
        (csrReadOnly num = true → op ≠ .read → row op (raiseTrap h .illegal num s)) ∧
        (csrReadOnly num = false ∨ op = .read → csrOpen x num = false → row op (refused num s)) ∧
        (csrReadOnly num = false ∨ op = .read → csrOpen x num = true →
          let old := garouxOld h num s
          let s1 := wrX h rd (word old.1) old.2
          row op (match op with
            | .read => s1
            | .write => csrPut h num v.toNat s1
            | .set => csrPut h num (old.1 ||| v.toNat) s1
            | .clear => csrPut h num (old.1 &&& (2 ^ 64 - 1 - v.toNat % 2 ^ 64)) s1))) ∧
      (absentCsr num = true → garouxCsr num = false → row op (raiseTrap h .illegal num s))) ∧
    (issues s h (.registerWrite h (.csr num rd .write) v) = true → csrOpen x num = true →
      let s1 := wrX h rd (word (garouxOld h num s).1) s
      (num = 0x7C0 → row .write (modHart h (fun x => { x with mgxcfg := v.toNat % 16 }) s1)) ∧
      (num = 0x5C0 → row .write (modHart h (fun x => { x with rfbase := v.toNat % 2 ^ 56 }) s1)) ∧
      (num = 0x5C1 → row .write (modHart h (fun x => { x with rflen := v.toNat % 2 ^ 40 }) s1))) ∧
    (issues s h (.registerWrite h (.csr num rd .read) v) = true → csrOpen x num = true →
      (num = 0xCC1 → row .read (wrX h rd (word (quartzCode s.quartz.state)) s)) ∧
      (num = 0xDC0 → row .read (wrX h rd (word ((rfOf s (h / 48)).done * 2 ^ 32 + (rfOf s (h / 48)).queue.length * 2 ^ 24)) s)) ∧
      (num = 0xDC1 → row .read (wrX h rd (word x.rfskip) s))) ∧
    (∀ a o wide, hartSpace a (if wide then 8 else 4) = .regs o → a < 2 ^ 56 → issues s h (.registerWrite h (.mmio a wide) v) = true →
      (o % (if wide then 8 else 4) = 0 → exec (.registerWrite h (.mmio a wide) v) s = .next (regStore o (if wide then 8 else 4) v s)) ∧
      (o % (if wide then 8 else 4) ≠ 0 → exec (.registerWrite h (.mmio a wide) v) s = .next (raiseTrap h .storeFault a s))) ∧
    (csrOpen x 0x5C4 = false → issues s h (.sipiWrite h v) = true → exec (.sipiWrite h v) s = .next (refused 0x5C4 s)) ∧
    (x.mode ≠ .m → issues s h (.mipiWrite h v) = true → exec (.mipiWrite h v) s = .next (refused 0x7C4 s))

/-- Time at the harts (R147, R280, R282, R283): MACHINE_TIMER sets the machine timer interrupt when time reaches mqcmp, STIMECMP
the supervisor's or the virtual supervisor's where STCE enables it (PRESUMED, log 48). qtime never falls below the value last read on
the die, and in LOCAL and CONSIST lies within 1 ns of the counter or at that value; a hart to which it is closed takes the exception. -/
def Obligations.TimersAndQtime : Prop :=
  ∀ (h rd : Nat) (virt : Bool) (s : State), h < 96 → rd < 32 →
    let x := hartOf s h
    let c := if virt then x.vstimecmp else x.stimecmp
    (s.bu.state = 1 → 4 * x.mqcmp < 2 ^ 64 → ∃ t, exec (.machineTimer h) s = .next t ∧ (hartOf t h).mtip = true ∧ 4 * x.mqcmp ≤ now t ∧
      now s ≤ now t ∧ (4 * x.mqcmp ≤ now s → now t = now s) ∧ t = { s with harts := t.harts, quartz := t.quartz }) ∧
    (s.bu.state = 1 → 4 * c < 2 ^ 64 → stce x virt = true → ∃ t, exec (.stimecmp h virt) s = .next t ∧
      (if virt then (hartOf t h).vstip else (hartOf t h).stip) = true ∧ 4 * c ≤ now t ∧ now s ≤ now t ∧
      (4 * c ≤ now s → now t = now s)) ∧
    (issues s h (.qtimeRead h rd) = true →
      (csrOpen x 0xCC0 = true → ∃ v t, exec (.qtimeRead h rd) s = .next (wrX h rd (word v) t) ∧
        tblGet 0 t.quartz.dieRead (4 + h / 48) = v ∧ tblGet 0 s.quartz.dieRead (4 + h / 48) ≤ v ∧ now t = now s ∧
        (s.quartz.state = .localRef ∨ s.quartz.state = .consist →
          v = tblGet 0 s.quartz.dieRead (4 + h / 48) ∨ (now s - 1 ≤ v ∧ v ≤ now s + 1)) ∧
        t = { s with quartz := t.quartz, freeCtr := s.freeCtr + 1 }) ∧
      (csrOpen x 0xCC0 = false → exec (.qtimeRead h rd) s = .next (raiseTrap h (if virtual x.mode then .virtualInstr else .illegal) 0xCC0 s)))

/-! ### Records, Dray engines and Slate actions -/

/-- COMPLETION_RECORD (R353, R354): on a full ring, where (cq_tail + 1) mod 2^cq_log2 is cq_head, the record waits, counted once. It
waits too while a write of its command is held or the tokens of its command are not paid (R8, R198, log 69). Otherwise, with its ring in
HBM, the oldest record is written at cq_base + 32 × cq_tail as a consist-scope release with the present phase and time; cq_tail advances
and cq_phase toggles where it wraps. Its interrupt follows where irq_en is 1 and its descriptor asks for one or it is DOORBELL_AHEAD. A
ring in an extent in flash begins to be promoted first (R221). A dissolution that waited for the record then ends (R385). -/
def Obligations.CompletionRecordsAreWritten : Prop :=
  ∀ (q : Nat) (s : State), q < 16384 →
    let x := queueOf s q
    let full := (x.cqTail + 1) % 2 ^ x.cqLog = x.cqHead
    let a := x.cqBase + 32 * x.cqTail
    (x.recs = [] → exec (.completionRecord q) s = .next (settleDissolve s)) ∧
    (∀ r rest, x.recs = r :: rest →
      (full → r.counted = false → exec (.completionRecord q) s =
        .next (settleDissolve (bump 0x0263 q 1 (setQueue q { x with recs := { r with counted := true } :: rest } s)))) ∧
      (full → r.counted = true → exec (.completionRecord q) s = .next (settleDissolve s)) ∧
      (¬ full → commandHeld s x = true ∨ tokensPaid s r.needs = false → exec (.completionRecord q) s = .next (settleDissolve s)) ∧
      (¬ full → commandHeld s x = false → tokensPaid s r.needs = true → writeHeld s (a / extSize) = true →
        (extOf s (a / extSize)).st = .flash → (∀ w ∈ s.tierWait, w.ext ≠ a / extSize) → exec (.completionRecord q) s = .next
          (settleDissolve (tierStart { ext := a / extSize, kind := .demandPromote (a / extSize % 4) } s))) ∧
      (¬ full → commandHeld s x = false → tokensPaid s r.needs = true → writeHeld s (a / extSize) = false →
        let s1 := cohWrite (.queueEngine (queueHub q)) a (recBytes r x.cqPhase (now s)) (some .consist) s
        let t := (x.cqTail + 1) % 2 ^ x.cqLog
        let s2 := setQueue q { x with recs := rest, cur := none, cqTail := t, cqPhase := if t = 0 then !x.cqPhase else x.cqPhase } s1
        exec (.completionRecord q) s = .next (settleDissolve (rejectOpcodes q (settleDisabled q
          (if x.irqEn ∧ (r.irq ∨ r.kind = 1) then pend x.irqHart x.irqFile x.irqId s2 else s2))))))

/-- COPY, GATHER, SCATTER, CONVERT, DIGEST and INVALIDATE of a command queue whose next command it is, on an idle Dray with no read
that waits (R8, R29, R256, R355, R357 to R359): where a check fails, the record tells the lowest status that failed, with the event where
that is REJECTED_REGION, and no byte moves; otherwise, with no line of another package awaited and no poison met, the operation runs and
its record tells the bytes moved, the clamps and whether it was cut, once the tokens it owes are paid (R198). Lines of another package
that are missing are asked for. A row that is not the Dray's next work changes nothing. -/
def Obligations.DrayCommandsRunOrAreRejected : Prop :=
  ∀ (q p : Nat) (w : List Word) (t : Nat) (rest : List (List Word × Nat)) (s : State),
    q < 16384 → (queueOf s q).accepted = (w, t) :: rest → queuePart s q = some p →
    nextQueue s (queueOf s q).dray = some q → drayBusy s (queueOf s q).dray = false →
    let x := queueOf s q
    let m : Mover := { dray := x.dray, part := p, slate := false, seed := 0 }
    let s1 := setQueue q { x with accepted := rest, cur := some w } { s with drayLast := tblSet x.dray q s.drayLast }
    let o := operandsOf s1 p false (drayDesc w)
    let s2 := { s1 with drayWait := tblDel x.dray s1.drayWait }
    let r := moveAll m (drayDesc w) (operandsOf s2 p false (drayDesc w)) s2
    readsHeld s m w = false →
    let row := fun (op : Nat) (i : Instr) =>
      (wf (wd w 0) 5 0 = op →
        (∀ st, drayChecks s1 m w = some st → exec i s = .next
          (if st = stRegion then raiseEvent evRegionFault x.dray (causeOf evRegionFault 4) (pushRec q (descRec w st) s1)
           else pushRec q (descRec w st) s1)) ∧
        (drayChecks s1 m w = none → missingLines s1 m [] (drayDesc w) o = [] → indexOutside s2 m (drayDesc w) o = false →
          meetsPoison s2 m (drayDesc w) (operandsOf s2 p false (drayDesc w)) = false →
          exec i s = .next (pushRec q { drayRec w r.1 with needs := tokenNeeds r.2.2 p } r.2.2)) ∧
        (drayChecks s1 m w = none → (missingLines s1 m [] (drayDesc w) o).dedup ≠ [] → exec i s = .next
          (requestLines x.dray (drayDesc w).acquire (missingLines s1 m [] (drayDesc w) o).dedup
            { s1 with drayWait := tblSet x.dray { queue := q } s1.drayWait }))) ∧
      (wf (wd w 0) 5 0 ≠ op → exec i s = .next s)
    row 0x30 (.copy (.queue q)) ∧ row 0x31 (.gather (.queue q)) ∧ row 0x32 (.scatter (.queue q)) ∧ row 0x33 (.convert (.queue q)) ∧
    row 0x34 (.digest (.queue q)) ∧ row 0x35 (.invalidate (.queue q))

/-- A Slate action's row (R84, R115, R125, R158, R165, R172, R337): where the stream's next entry is not of its type, or a gate, an
implicit gate or the commit of the epoch before is not met, or its unit is busy, nothing happens; otherwise the entry launches, not
before its P, is in progress, and the action has the effect of its type. A relocation window opens from its launch for its length
(R226). -/
def Obligations.SlateActionsLaunchWhenTheirGatesAreMet : Prop :=
  ∀ (st : Nat) (s : State), st < 600 →
    let row := fun (ty : Nat) (i : Instr) (run : Going → State → State) =>
      (∀ g, going s st ty = some g → exec i s = .next (noteNeeds g.part st g.idx (run g (launch st 0 s)))) ∧
      (going s st ty = none → exec i s = .next s)
    let tile := fun (run : Nat → Going → State → State) (g : Going) (u : State) =>
      match physOf s st with | some t => run t g u | none => u
    let tier := fun (kind : Going → TierKind) (g : Going) (u : State) => tierRetry ((tierExts g.desc).foldl
      (fun u x => releaseHeld x (tierStart { ext := x, kind := kind g, owner := some (st, g.idx) } u)) u)
    let dray := fun (g : Going) (u : State) => drayAction g.part st g.idx g.img.seed g.desc u
    let coll := fun (g : Going) (u : State) => startColl (st - 584) g.part st g.idx g.desc u
    (st < 544 →
      row 0x21 (.cubeOperation st) (tile fun t g u => runCubeOp t g.desc g.img.seed u) ∧
      row 0x22 (.vectorProgram st) (tile fun t g u => runVectorProgram t g.desc g.img.seed u) ∧
      row 0x23 (.updateProgram st) (tile fun t g u =>
        startUpdate t g.part st g.idx (now u) g.desc (g.img.utabs.getD (updTable g.desc) []) u) ∧
      row 0x24 (.bankGrant st) (tile fun t g u => complete st g.idx (applyGrant t g.desc u))) ∧
    (544 ≤ st → st < 584 → (∀ p i j x, nextEntry s st = some (p, i, j, x) →
        readsHeld s { dray := st - 544, part := p, slate := true, seed := 0 } x.desc = false) →
      row 0x30 (.copy (.stream st)) dray ∧ row 0x31 (.gather (.stream st)) dray ∧ row 0x32 (.scatter (.stream st)) dray ∧
      row 0x33 (.convert (.stream st)) dray ∧ row 0x34 (.digest (.stream st)) dray ∧ row 0x35 (.invalidate (.stream st)) dray) ∧
    (544 ≤ st → st < 584 →
      row 0x38 (.promote st) (tier fun g => .promote (wf (wd g.desc 0) 27 26) (bit (wd g.desc 0).toNat 25) g.part) ∧
      row 0x39 (.demote st) (tier fun _ => .demote) ∧ row 0x3A (.writeBack st) (tier fun _ => .writeBack) ∧
      row 0x3B (.discard st) (tier fun _ => .discard) ∧ row 0x3D (.expire st) (fun g u => (tierExts g.desc).foldl expireExt u)) ∧
    (576 ≤ st → st < 584 → (going s st 0x3C = none → exec (.relocationWindow st) s = .next s) ∧
      ∀ g p i j x, going s st 0x3C = some g → nextEntry s st = some (p, i, j, x) →
        let t := max (now s) (plannedTime i j (partOf s p).offset x)
        let u := launch st (t + 4 * wf (wd g.desc 0) 63 36) s
        exec (.relocationWindow st) s = .next { u with windows := u.windows.filter (fun w => decide (t < w.until_)) ++ windowsOf g.desc t }) ∧
    (584 ≤ st →
      row 0x10 (.allReduce st) coll ∧ row 0x11 (.reduceScatter st) coll ∧ row 0x12 (.allGather st) coll ∧
      row 0x13 (.gradientAllReduce st) coll ∧ row 0x14 (.barrier st) coll) ∧
    (∀ ty g, going s st ty = some g → ∃ p i j x, nextEntry s st = some (p, i, j, x) ∧ g.idx = (seqOf s st).entry ∧ g.desc = x.desc ∧
      actionType x = ty ∧ j.running = true ∧ x.epoch = j.epoch ∧ j.localDone = false ∧ (∀ k ∈ x.gates, gateMet s st k = true) ∧
      implicitOk s i j st g.idx x = true ∧ unitFree s st ty = true ∧ (ty = 0x21 → cubeGates s i j st (launchAt s p i j x) x = true)) ∧
    (∀ p i j x w, nextEntry s st = some (p, i, j, x) → plannedTime i j (partOf s p).offset x ≤ now (launch st w s) ∧
      inProgress (launch st w s) st (seqOf s st).entry = true ∧ now s ≤ now (launch st w s))

/-- Completion raises the watermark (R159, R160, R166, Table 06-8): a null action launches and completes in one cycle; an action in
progress whose effects are done and whose tokens are paid completes, not before its instant (R198, R219); and what becomes visible to a class of streams is the largest w
such that the first w entries have all completed. -/
def Obligations.CompletionsRaiseTheWatermark : Prop :=
  ∀ (st e c : Nat) (s : State), st < 600 → e < 1048576 → c < 4 →
    (∀ g, launchable s st 0x01 = some g → exec (.nullAction st) s = .next (complete st (seqOf s st).entry (launch st 0 s))) ∧
    (launchable s st 0x01 = none → exec (.nullAction st) s = .next s) ∧
    (∀ f, (seqOf s st).inflight.find? (fun f => f.idx == e) = some f → effectsDone s st e = true → tokensPaid s f.needs = true → ∃ t,
      exec (.actionComplete st e) s = .next t ∧ setHas (seqOf t st).done e = true ∧ inProgress t st e = false ∧ f.waits ≤ now t) ∧
    ((effectsDone s st e = false ∨ inProgress s st e = false) → exec (.actionComplete st e) s = .next s) ∧
    (∃ t, exec (.gateVisible st c) s = .next t ∧ t = setSeq st { seqOf s st with vis := (seqOf t st).vis } s ∧
      let w := tblGet 0 (seqOf t st).vis c
      (∀ k, k < w → setHas (seqOf s st).done k = true) ∧ setHas (seqOf s st).done w = false ∧
      (∀ d, d ≠ c → tblGet 0 (seqOf t st).vis d = tblGet 0 (seqOf s st).vis d))


/-! ### Vector engines and update ports -/

/-- A row of Table 04-4 whose word is one of its own and that R99 lets stand in a program issues on the tile's engine: it has its
operation on the engine's registers, and the program counter moves on, back to the start of a loop body while passes are left (R98,
R101). VCVT and VCVTA count what they clamp and saturate for the tile, VLD reads 256 bytes of tile memory into vd and VST writes them,
where the vector engine may reach them, no test step runs there and the words read hold no error (R127, R134, R138); a[va] takes 256
more where post_inc is 1. Where the word is another instruction's, or none, nothing changes. But for those counts and for the bytes of
VLD and VST, nothing changes outside the engine. -/
def Obligations.VectorInstructionsIssueOnTheirEngine : Prop :=
  ∀ (t : Nat) (w : Word) (s : State), t < 576 →
    let v := (tileOf s t).vec
    let put := fun (x : Vec) (s : State) => setTile t { tileOf s t with vec := x } s
    let bs := tileRead s t ownVector (vAddr w v) 256
    let ld := vPut (vVd w) (vSize w) ((vLanes v w (vCount w)).map (fun i => (i, leNat ((bs.drop (vSize w * i)).take (vSize w))))) v
    let st := (vLanes v w (vCount w)).foldl
      (fun s i => tileWrite t ownVector (vAddr w v + vSize w * i) (leBytes (vSize w) (vGet v (vVd w) (vSize w) i)) s) s
    let cvt := opVcvt w v
    let cva := opVcvta w v
    let calm := ∀ m ∈ banksOf (vAddr w v) 256, (testOf s t m).startAt = none
    let misses := fun (op : Nat) (i : Instr) => vOp w ≠ op ∨ vInsnOk w = false → exec i s = .next s
    let row := fun (op : Nat) (i : Instr) (f : Vec → Vec) =>
      (vOp w = op → vInsnOk w = true → exec i s = .next (put (vecNext (f v)) s)) ∧ misses op i
    row 0x00 (.nop t w) id ∧ row 0x01 (.vadd t w) (opVadd w) ∧ row 0x02 (.vmul t w) (opVmul w) ∧ row 0x03 (.vfma t w) (opVfma w) ∧
    row 0x04 (.vmax t w) (opVmax w) ∧ row 0x05 (.vmin t w) (opVmin w) ∧ row 0x06 (.vsel t w) (opVsel w) ∧
    row 0x07 (.vcmp t w) (opVcmp w) ∧ row 0x08 (.vsign t w) (opVsign w) ∧ row 0x10 (.vexp t w) (opVexp w) ∧
    row 0x11 (.vlog t w) (opVlog w) ∧ row 0x12 (.vrsqrt t w) (opVrsqrt w) ∧ row 0x1A (.va128add t w) (opVa128add w) ∧
    row 0x1B (.va128rsum t w) (opVa128rsum w) ∧ row 0x1C (.vreanchor t w) (opVreanchor w) ∧
    row 0x1D (.va128drain t w) (opVa128drain w) ∧ row 0x28 (.aset t w) (opAset w) ∧ row 0x29 (.aadd t w) (opAadd w) ∧
    row 0x30 (.loop t w) (opLoop w) ∧ row 0x3F (.endProg t w) (fun v => { v with running := false }) ∧
    (vOp w = 0x18 → vInsnOk w = true → ∃ u, exec (.vcvt t w) s = .next u ∧ (tileOf u t).vec = vecNext { cvt.1 with clamp := cvt.1.clamp || decide (0 < cvt.2) } ∧
      u = put (tileOf u t).vec (tileFlags t false false 0 cvt.2 s)) ∧
    (vOp w = 0x19 → vInsnOk w = true → ∃ u, exec (.vcvta t w) s = .next u ∧ (tileOf u t).vec = vecNext cva.1 ∧
      u = put (tileOf u t).vec (tileFlags t false false cva.2 0 s)) ∧
    (vOp w = 0x20 → vInsnOk w = true → mismatch s t ownVector (vAddr w v) 256 = false → calm → errWords s t (vAddr w v) 256 = [] →
      exec (.vld t w) s = .next (put (vecNext (vPost w ld)) s)) ∧
    (vOp w = 0x21 → vInsnOk w = true → mismatch s t ownVector (vAddr w v) 256 = false → calm →
      exec (.vst t w) s = .next (put (vecNext (vPost w v)) st)) ∧
    misses 0x18 (.vcvt t w) ∧ misses 0x19 (.vcvta t w) ∧ misses 0x20 (.vld t w) ∧ misses 0x21 (.vst t w)

/-- A masked element is never computed and its destination element keeps its old value (R96). Of an issued FP instruction of Table 04-4
that works element by element, element i of vd is afterwards, where the mask names it, the code of the one result, rounded once with RNE
in the named type (R102), from element i of the sources as they were before: vd may be a source. neg_b negates vb. Every other register
of the file, the masks, the address registers and the flags keep their values. VCMP sets the bits of k[vd] that the mask names and keeps
the others; VA128RSUM writes the sum of the unmasked elements to element 0 and zero to the others. -/
def Obligations.VectorElementsFollowTheirMask : Prop :=
  ∀ (t : Nat) (w : Word) (ty : FpType) (s : State), t < 576 → vInsnOk w = true →
    let v := (tileOf s t).vec
    let on := fun i => bit (vMask v (vKm w)) i
    let x := fun r i => vSrc v ty r i
    let y := fun i => if vNegB w then (x (vVb w) i).negate else x (vVb w) i
    let row := fun (op : Nat) (i : Instr) (f : Nat → FVal) => vFp w = some ty → vOp w = op → ∃ u, exec i s = .next u ∧
      let v' := (tileOf u t).vec
      (∀ i, i < 256 / ty.size → vGet v' (vVd w) ty.size i =
        if on i then fpRound ty (f i) % 256 ^ ty.size else vGet v (vVd w) ty.size i) ∧
      (∀ r sz i, r ≠ vVd w → sz * i + sz ≤ 256 → vGet v' r sz i = vGet v r sz i) ∧
      v'.k = v.k ∧ v'.a = v.a ∧ v'.ovf = v.ovf ∧ v'.clamp = v.clamp
    row 0x01 (.vadd t w) (fun i => (x (vVa w) i).add (y i)) ∧ row 0x02 (.vmul t w) (fun i => (x (vVa w) i).mul (y i)) ∧
    row 0x03 (.vfma t w) (fun i => ((x (vVa w) i).mul (y i)).add (x (vVc w) i)) ∧
    row 0x04 (.vmax t w) (fun i => (x (vVa w) i).maxNum (y i)) ∧ row 0x05 (.vmin t w) (fun i => (x (vVa w) i).minNum (y i)) ∧
    row 0x06 (.vsel t w) (fun i => if bit (vMask v (vVc w)) i then x (vVa w) i else y i) ∧
    row 0x08 (.vsign t w) (fun i => vsignVal (x (vVa w) i)) ∧ row 0x10 (.vexp t w) (fun i => vexpVal (x (vVa w) i)) ∧
    row 0x11 (.vlog t w) (fun i => vlogVal (x (vVa w) i)) ∧ row 0x12 (.vrsqrt t w) (fun i => vrsqrtVal (x (vVa w) i)) ∧
    (vFp w = some ty → vOp w = 0x07 → ∃ u, exec (.vcmp t w) s = .next u ∧ (tileOf u t).vec.v = v.v ∧
      (∀ i, i < 128 → bit (vMask (tileOf u t).vec (vVd w)) i =
        if on i && decide (i < 256 / ty.size) then vCond (wf w 2 0) (x (vVa w) i) (y i) else bit (vMask v (vVd w)) i) ∧
      ∀ k, k ≠ vVd w → vMask (tileOf u t).vec k = vMask v k) ∧
    (vOp w = 0x1B → ∃ u, exec (.va128rsum t w) s = .next u ∧
      (∀ i, i < 16 → vGet (tileOf u t).vec (vVd w) 16 i =
        if i = 0 then toCode 128 (a128Sum (((List.range 16).filter on).map (vGetA v (vVa w)))).1 % 256 ^ 16 else 0) ∧
      ∀ r sz i, r ≠ vVd w → sz * i + sz ≤ 256 → vGet (tileOf u t).vec r sz i = vGet v r sz i)

/-- The update port of a tile (R115, R230): once every retain write of phase 1 is acknowledged the action's launch time is written at
marker_addr; phase 2 begins with the marker's acknowledgement, while no write of the port is held, and no block is read, computed or
written back before it. Then the pairs write back in order, each those of its blocks that the bitmap named when the action started, and
the action ends after the last one (R109, R114, R116). -/
def Obligations.UpdatePortKeepsItsPhases : Prop :=
  ∀ (t : Nat) (s : State), t < 576 →
    ((tileOf s t).upd = none →
      exec (.updateMarkerWrite t) s = .next s ∧ exec (.updatePhase2 t) s = .next s ∧ exec (.updateWriteback t) s = .next s) ∧
    (∀ u, (tileOf s t).upd = some u →
      let with_ := fun (u : Option UpdAct) (s : State) => setTile t { tileOf s t with upd := u } s
      (u.kept = true → u.markerWritten = false → portHeld s t = false →
        exec (.updateMarkerWrite t) s = .next (modUpd t (fun u => some { u with markerWritten := true })
          (cohWrite (.updatePort t) (updMarker u.desc) (leBytes 8 u.launched) none (chargeFor (.updatePort t) (updMarker u.desc) 8 true s)))) ∧
      (u.kept = false ∨ u.markerWritten = true ∨ portHeld s t = true → exec (.updateMarkerWrite t) s = .next s) ∧
      (portHeld s t = true → exec (.updatePhase2 t) s = .next s) ∧
      (portHeld s t = false → u.markerWritten = true → exec (.updatePhase2 t) s = .next (with_ (some { u with phase2 := true }) s)) ∧
      (portHeld s t = false → u.markerWritten = false → ∃ s1, exec (.updatePhase2 t) s = .next s1 ∧ tileOf s1 t = tileOf s t) ∧
      (u.phase2 = false → exec (.updateWriteback t) s = .next s) ∧
      (u.phase2 = true →
        let p := (seqOf s u.stream).part
        let pair := [2 * u.next, 2 * u.next + 1].filter (fun i => u.map.elem i)
        let seed := ((partOf s p).image.map (·.seed)).getD 0
        let s1 := pair.foldl (fun s i => updateBlock t p u seed (updFirst u.desc + i) s) s
        exec (.updateWriteback t) s = .next (noteNeeds p u.stream u.entry
          (modUpd t (fun u => if updPairs u.desc ≤ u.next + 1 then none else some { u with next := u.next + 1 }) s1))))

/-! ### Jobs, epochs, holds and replays -/

/-- A job begins where the Quartz reaches T0 (R169). In service mode a slot opens on the grid that its image names: 4 × floor(k ×
slot_num / (4 × slot_den)) ns after T0 and the offset (R184); bind_lead before it, the oldest request accepted no later is bound, one
that fails its region check completing REJECTED_REGION in its place (R185, R365), and none where its receipt would overwrite an unsigned
one (R421); a slot without a bound request is skipped. An epoch
completes locally, not before its planned start, once every entry has completed in every stream and unless a replay or a retirement that
is noted abandons it (R174); on a consist of one package it then commits, on a wider one the member sends its commit notice and waits for
those of all members (R171, R172). A slot ends where the next one opens, and a session that is closing ends there (R169, R186, log 67). -/
def Obligations.SlotsOpenOnTheirGridAndEpochsCommit : Prop :=
  ∀ (p : Nat) (i : Image) (j : Job) (s : State), p < 16 → (partOf s p).image = some i → jobOf s p = some j →
    let k := if j.running then j.slot + 1 else j.slot
    let opens := fun k => j.t0 + (partOf s p).offset + 4 * (k * i.slotNum / (4 * i.slotDen))
    let u := advance (opens k - 4 * i.bindLead) s
    let passes := fun (d : List Word) => (List.range 4).all (fun b => bufOk u p (i.bufUse.getD b (false, false)) (bufOf d b))
    let q := i.svcQueue
    let ended := setSeqs p (fun q => if q.st == .done then { q with st := .armed } else q) (advance (opens j.slot) s)
    let noBind := exec (.slotBind p) s = .next (setQueue q (queueOf u q) u)
    (j.service = false → j.running = false → exec (.t0Reached p) s = .next (beginJob p j.t0 (advance j.t0 s))) ∧
    (j.service = true ∨ j.running = true → exec (.t0Reached p) s = .next s) ∧
    (j.service = true → j.nextBound = none → j.closing = none → receiptBlocked u = true →
      exec (.slotBind p) s = .next (setJob p { j with skipped := j.skipped + 1 } u)) ∧
    (j.service = false ∨ j.nextBound.isSome = true ∨ j.closing.isSome = true → exec (.slotBind p) s = .next s) ∧
    (j.service = true → j.nextBound = none → j.closing = none → receiptBlocked u = false →
      ((queueOf s q).accepted = [] → noBind) ∧
      (∀ d t rest, (queueOf s q).accepted = (d, t) :: rest →
        (opens k - 4 * i.bindLead < t → noBind) ∧
        (t ≤ opens k - 4 * i.bindLead → passes d = true → exec (.slotBind p) s = .next (modJob p (fun j => { j with
          nextBound := some { queue := q, desc := d, bufs := (List.range 4).map (fun b => bufExtent u (bufOf d b)) } })
          (setQueue q { queueOf u q with accepted := rest } u))) ∧
        (t ≤ opens k - 4 * i.bindLead → passes d = false → exec (.slotBind p) s = .next (bindScan p q (opens k - 4 * i.bindLead) i.bufUse [] rest
          (raiseEvent evRegionFault q (causeOf evRegionFault 0) (pushRec q (descRec d stRegion) u)))))) ∧
    (j.service = true → j.running = false → j.nextBound = none →
      j.closing = none → exec (.slotOpen p) s = .next (setJob p { j with slot := j.slot + 1, epochBase := (j.slot + 1) * i.nEpochs } ended)) ∧
    (∀ b, j.service = true → j.running = false → j.nextBound = some b → j.closing = none → exec (.slotOpen p) s = .next (beginJob p (opens j.slot)
      (setJob p { freshSlot j with epochBase := j.slot * i.nEpochs, degraded := decide (s.level < 0x1F) } ended))) ∧
    (j.service = true → j.running = false → j.closing.isSome = true → let u := endSlot p (advance (opens j.slot) s)
      jobOf u p = none → exec (.slotOpen p) s = .next u) ∧
    (j.service = false ∨ j.running = true → exec (.slotOpen p) s = .next s) ∧
    (j.running = true → j.localDone = false → j.restartAt = none → j.notices.any (abandonsEpoch j) = false → epochFinished s i j = true →
      let e := j.epochBase + j.epoch
      let s1 := advance (plannedStart i j (partOf s p).offset j.epoch) s
      (j.members ≤ 1 → exec (.epochLocalComplete p) s =
        .next (commitEpoch p (modJob p (fun j => { j with localDone := true, commits := setIns (e * 1024 + selfNo s) j.commits }) s1))) ∧
      (1 < j.members → exec (.epochLocalComplete p) s = .next (tryCommit p (modJob p
        (fun j => { j with localDone := true, commits := setIns (e * 1024 + selfNo s) j.commits }) (issue p 4 2 e 0 0 s1))))) ∧
    (j.running = false ∨ j.localDone = true ∨ j.restartAt.isSome = true ∨ j.notices.any (abandonsEpoch j) = true ∨
      epochFinished s i j = false → exec (.epochLocalComplete p) s = .next s)

/-- Notices (R171, R178, R180, R182, R332, R333): a copy whose origin and serial the member holds is discarded; another is kept
and goes out again on every used port but the one that it came by. A hold, replay or abort notice waits for its instant, or, where that
has passed, is applied on receipt and counted; a degrade notice moves the start of degraded mode to the lowest epoch named; a commit
notice is held, and the epoch commits with the last of them. A probe updates the delay of its origin; a member in CONSIST, and the time root in LOCAL, sends
its own at its present time, not before 10 s after its last (R333). -/
def Obligations.NoticesAreKeptOnceAndFlooded : Prop :=
  ∀ (pt p : Nat) (n : Notice) (j : Job) (s : State), pt < 20 → okNotice n = true → noticePart s n = some p → jobOf s p = some j →
    let held := flood n (some pt) (setJob p { j with seen := j.seen ++ [(n.origin, n.serial)] } s)
    let row := fun (k : Nat) (i : Instr) (f : Nat → State → State) =>
      (n.kind = k → (n.origin, n.serial) ∈ j.seen → exec i s = .next s) ∧
      (n.kind = k → (n.origin, n.serial) ∉ j.seen → exec i s = .next (f p held)) ∧
      (n.kind ≠ k → exec i s = .next s)
    row 0 (.holdNotice pt n) (keepUntil n applyHold) ∧ row 1 (.replayNotice pt n) (keepUntil n applyReplay) ∧
    row 2 (.abortNotice pt n) (keepUntil n applyAbort) ∧ row 3 (.degradeNotice pt n) (degradeFrom n.instant) ∧
    row 4 (.commitNotice pt n) (fun p s => tryCommit p (modJob p (fun j => { j with commits := setIns (n.epoch * 1024 + n.origin) j.commits }) s)) ∧
    (∀ f : Nat → HeldNotice → State → State,
      (now s ≤ n.instant → keepUntil n f p held = setJob p { j with seen := j.seen ++ [(n.origin, n.serial)], notices := j.notices ++ [({ n := n } : HeldNotice)] } held) ∧
      (n.instant < now s → keepUntil n f p held = f p { n := n } (setJob p { j with
        seen := j.seen ++ [(n.origin, n.serial)], notices := j.notices ++ [({ n := n } : HeldNotice)], lateNotices := satAdd max32 j.lateNotices 1 } held))) ∧
    (n.kind = 5 → (∀ k, tblGet? s.quartz.probeSeen n.origin = some k → k < n.serial) → exec (.probeNotice pt n) s = .next (flood n (some pt)
      { s with quartz := { s.quartz with probes := tblSet n.origin (now s - n.instant) s.quartz.probes,
                                         probeSeen := tblSet n.origin n.serial s.quartz.probeSeen } })) ∧
    (∀ k, n.kind = 5 → tblGet? s.quartz.probeSeen n.origin = some k → n.serial ≤ k → exec (.probeNotice pt n) s = .next s) ∧
    (n.kind ≠ 5 → exec (.probeNotice pt n) s = .next s) ∧
    let root := match s.route with | some r => r.timeRoot == r.self | none => false
    (¬ (s.quartz.state = .consist ∨ (root = true ∧ s.quartz.state = .localRef)) → exec .probeSend s = .next s) ∧
    (s.quartz.state = .consist ∨ (root = true ∧ s.quartz.state = .localRef) →
      let s1 := match s.quartz.lastProbe with | some t => advance (t + 10000000000) s | none => s
      let own : Notice := ⟨5, selfNo s, 0, s.quartz.probeSerial, 0, 0, now s1, 0⟩
      exec .probeSend s = .next (flood own none
        { s1 with quartz := { s1.quartz with lastProbe := some (now s1), probeSerial := (s.quartz.probeSerial + 1) % 2 ^ 32 } }))

/-- Lateness and recovery (R174, R175, R177, R180, R181, R453, R456). An entry unlaunched at P plus S that cannot launch is reported, and
answered with a hold notice of n = 1 with the instant hold_lead later, with an abort notice where it has taken hold_limit consecutive
holds, or with none while a notice stands pending; the cause that it names is the model's reading (log 68). At its instant a hold moves the offset by n hold quanta, counts, sets LATE and raises EV_HOLD; a
replay stops the epoch, which launches again recovery later from its first entries; an abort resets the partition, or for a retirement
stops the job ABORTED_RETIRE. An action not complete 100 ms after its launch plus budget fails its tile, or its unit with an abort
notice. -/
def Obligations.LatenessIsHeldReplayedOrAborted : Prop :=
  ∀ (p st : Nat) (i : Image) (j : Job) (s : State), p < 16 → st < 600 → (partOf s p).image = some i → jobOf s p = some j →
    (∀ t e x, streamJob s st = some (p, i, j) → nextReport s p i j st = some (t, e, x) → j.running = true → j.restartAt = none →
      mayLaunch s st = false →
      let s1 := advance t s
      let q := seqOf s1 st
      let s2 := setSeq st { q with reported := q.reported ++ [e], st := if q.st == .wait && e == (q.epoch, q.entry) then .late else q.st } s1
      (pendingHold s2 j = true → exec (.latenessReport st) s = .next s2) ∧
      (pendingHold s2 j = false → i.holdLimit ≤ tblGet 0 j.consec (entryKey st e) → exec (.latenessReport st) s = .next
        (issue p 2 4 (j.epochBase + j.epoch) (roundUp (now s1 + 4 * i.holdLead) 4) 0 s2)) ∧
      (pendingHold s2 j = false → tblGet 0 j.consec (entryKey st e) < i.holdLimit → exec (.latenessReport st) s = .next
        (issue p 0 (if x.epoch ≠ j.epoch then 2 else if actionType x = 0x01 ∨ (e = (q.epoch, q.entry) ∧ mayGate s st i j e.2 x = true) then 1 else 0) (j.epochBase + x.epoch) (roundUp (now s1 + 4 * i.holdLead) 4) 1 s2))) ∧
    (mayLaunch s st = true → exec (.latenessReport st) s = .next s) ∧
    (∀ h, dueNotice j 0 = some h → ∃ t, exec (.holdInstant p) s = .next t ∧ h.n.instant ≤ now t ∧
      (partOf t p).offset = (partOf s p).offset + h.n.n * (4 * i.holdQuantum) ∧
      (j.service = false → ∃ k, jobOf t p = some k ∧ k.late = true ∧ k.holds = satAdd max32 j.holds 1)) ∧
    (∀ h, dueNotice j 1 = some h → dueNotice j 0 = none → exec (.replayInstant p) s = .next (applyReplay p h (advance h.n.instant s))) ∧
    (∀ g h, dueNotice j 1 = some h → dueNotice j 0 = some g → exec (.replayInstant p) s = .next
      (if g.n.instant ≤ h.n.instant then applyHold p g (advance g.n.instant s) else applyReplay p h (advance h.n.instant s))) ∧
    (∀ h, j.running = true → h.n.epoch = j.epochBase + j.epoch → h.n.n = 0 → ∃ k, jobOf (applyReplay p h s) p = some k ∧ k.replayed = true ∧
      k.replays = satAdd 0xFFFF j.replays 1 ∧ k.restartAt = some (h.n.instant + 4 * i.recovery) ∧ k.localDone = false ∧
      (partOf (applyReplay p h s) p).offset = (partOf s p).offset) ∧
    (∀ r, j.restartAt = some r → exec (.restartInstant p) s = .next (noteDegraded p (rewind p
      (modJob p (fun j => { j with upds := [], restartAt := none }) (remapPending p (j.upds.foldl (restoreAction p) (advance r s))))))) ∧
    (∀ h, dueNotice j 2 = some h → exec (.abortInstant p) s = .next
      (if h.n.cause = 3 then abortJob p stRetire true (advance h.n.instant s) else partReset p (advance h.n.instant s))) ∧
    (∀ f rest x, (seqOf s st).inflight = f :: rest → streamJob s st = some (p, i, j) → (epochEntries i st j.epoch)[f.idx]? = some x →
      let s1 := advance (f.at_ + budgetOf j x + 100000000) s
      (∀ t, st < 544 → physOf s st = some t → exec (.tileWatchdog st) s = .next (retireTile t 4 s1)) ∧
      (544 ≤ st → exec (.unitWatchdog st) s =
        .next (issueAbort p 4 (recordEntry { kind := 1, a := if st < 584 then st - 544 else 64 + (st - 584) } s1))))

/-! ### Tests of memory, tiers and media -/

/-- The background test of a tile's memories and of the vault (R134, R137 to R141, R144 to R146). A step starts on the walk's region while
its memory is quiescent, and saves it; on completion memory holds what it held, the walk moves on, corrected words are counted and
rewritten, and each failing row or column takes a spare of its sub-array and is recorded; a sub-array with two repairs has no spare left,
which retires the tile after the step; a double-bit error retires it at once. A step that an access cut short is counted as abandoned and
repeated. A vault step that meets an uncorrectable word wipes the vault and enters the safe state; the vault's wipe ends 2 us after what
started it. -/
def Obligations.BackgroundTestsKeepMemory : Prop :=
  ∀ (t m : Nat) (s : State), t < 576 → m < 5 →
    let r := (tileOf s t).walk
    let off := if r < 384 then r * 4096 else 0x180000 + (r - 384) * 4096
    let a := t * 0x200000 + off
    let x := testOf s t m
    let es := errWords s t off 4096
    let next := fun u => setTile t { tileOf s t with
      walk := (r + 1) % 400, tests := tblSet m { x with save := [], startAt := none, lastWalk := if r % 96 = 95 ∧ r < 384 ∨ r = 399 then now s else x.lastWalk } (tileOf s t).tests } (eccWrite t off 4096 u)
    let gone := setTest t m { x with save := [], startAt := none } s
    (min (r / 96) 4 = m → x.startAt = none → retired s t = false → quiescent s t m = true → exec (.testStepStart t m) s =
      .next (setTest t m { x with save := memRead s.tileMem a 4096, startAt := some (now s) } s)) ∧
    (min (r / 96) 4 ≠ m ∨ x.startAt.isSome ∨ retired s t = true ∨ quiescent s t m = false → exec (.testStepStart t m) s = .next s) ∧
    (∀ o, okOutcome m o = true → min (r / 96) 4 ≠ m ∨ x.startAt = none → exec (.testStepComplete t m o) s = .next s) ∧
    (∀ o, okOutcome m o = true → min (r / 96) 4 = m → x.startAt.isSome →
      (x.save ≠ memRead s.tileMem a 4096 → exec (.testStepComplete t m o) s = .next (bump 0x0202 (8 * t + m) 1 gone)) ∧
      (x.save = memRead s.tileMem a 4096 →
        exec (.testStepComplete t m .abandoned) s = .next (bump 0x0202 (8 * t + m) 1 gone) ∧
        exec (.testStepComplete t m .doubleBit) s = .next (retireTile t 1 gone) ∧
        ((∃ e ∈ es, 1 < e.2) → o ≠ .abandoned → exec (.testStepComplete t m o) s = .next (retireTile t 1 gone)) ∧
        ((∀ e ∈ es, e.2 ≤ 1) →
          exec (.testStepComplete t m .pass) s = .next (next (countCorrected t m es.length s)) ∧
          (∀ w, exec (.testStepComplete t m (.singleBit w)) s = .next (next (countCorrected t m (1 + es.length) s))) ∧
          (∀ c fails, okOutcome m (.march c fails) = true → let f := fails.foldl (softRepair t m) (true, countCorrected t m (b2n c + es.length) s)
            exec (.testStepComplete t m (.march c fails)) s = .next (if f.1 then next f.2 else retireTile t 3 (next f.2)) ∧
            (next f.2).tileMem = s.tileMem)))) ∧
    (∀ n, ctrGet s 0x0200 (8 * t + m) ≤ max32 → ctrGet (countCorrected t m n s) 0x0200 (8 * t + m) = min max32 (ctrGet s 0x0200 (8 * t + m) + n)) ∧
    (∀ sub row no, let k := (s.repairs.filter (fun y => y.mem == 8 * t + m && y.sub == sub && y.row == row)).length
      let z : Repair := { mem := 8 * t + m, sub := sub, row := row, no := no }
      (k < 2 → softRepair t m (true, s) (sub, row, no) = (true, { s with repairs := s.repairs ++ [z], record := { s.record with
        buffered := s.record.buffered ++ [repairEntry z] } })) ∧
      (2 ≤ k → softRepair t m (true, s) (sub, row, no) = (false, s))) ∧
    (∀ hd, hd < 2 →
      let v := vaultOf s hd
      (v.wiping = none → v.bad = false → ∀ o, o ≠ .uncorrectable → exec (.vaultTestStep hd o) s = .next (setVault hd { v with region := (v.region + 1) % 2048 } s)) ∧
      (v.wiping = none → ∀ o, v.bad = true ∨ o = .uncorrectable → exec (.vaultTestStep hd o) s = .next (enterSafe 0x06 (6 + hd)
        (setVault hd { v with wiping := some (now s + 2000), keys := false, data := [], bad := false, save := [] } s))) ∧
      (∀ w, v.wiping = some w → (∀ o, exec (.vaultTestStep hd o) s = .next s) ∧
        exec (.vaultWipeComplete hd) s = .next (setVault hd { v with wiping := none } (advance w s))) ∧
      (v.wiping = none → exec (.vaultWipeComplete hd) s = .next s))

/-- Extents, sectors and blocks (R195 to R198, R216 to R219, R223 to R230, R458, R459). At each refill time a bucket gains its rate, up to
its burst. The switch of a promotion makes an extent HBM-resident and clean with a retained copy, its bytes unchanged. A demotion's pass
over a clean map switches: the bytes of the extent are committed to flash; over a dirty map a further pass begins. A read of a sector
counts on its block, unless one made at the same instant has read it (log 60); relocation moves a block to a fresh one where it may
program, and changes no byte; a failed block is retired and below 16 GiB of spares its stack is read-only. A scrub, of a
line of a reserved frame too, poisons an uncorrectable line and counts a corrected one. A switch may let a PART_CREATE go on that waits for
frames (R237, log 37). A Tender that restarts holds what is homed at it. -/
def Obligations.ExtentsSwitchAndBlocksMove : Prop :=
  ∀ (x : Nat) (s : State), x < 4059136 →
    (∀ k b, tblGet? s.hbmBuckets k = some b → b.owed = 0 → ∃ t, exec .hbmBucketRefill s = .next t ∧ now t = max (now s) ((now s / 32 + 1) * 32) ∧
      tblGet? t.hbmBuckets k = some { b with tokens := min b.burst (b.tokens + b.rate) } ∧ t = { s with quartz := t.quartz, hbmBuckets := t.hbmBuckets }) ∧
    (∀ k b, tblGet? s.flBuckets k = some b → b.owed = 0 → ∃ t, exec .flashBucketRefill s = .next t ∧ now t = max (now s) ((now s / 4096 + 1) * 4096) ∧
      tblGet? t.flBuckets k = some { b with tokens := min b.burst (b.tokens + b.rate) } ∧ t = { s with quartz := t.quartz, flBuckets := t.flBuckets }) ∧
    ((extOf s x).st = .promoting → tenderServes s x = true → ∃ u, u.mem = s.mem ∧ u.flash = s.flash ∧ (extOf u x).st = .hbm ∧
      (extOf u x).dirty = 0 ∧ (extOf u x).retained = true ∧ (extOf u x).frame = (extOf s x).frame ∧ (extOf u x).die = (extOf s x).die ∧
      exec (.promotionSwitch x) s = .next (settleCreate (afterSwitch x u))) ∧
    ((extOf s x).st ≠ .promoting ∨ tenderServes s x = false → exec (.promotionSwitch x) s = .next (settleCreate s)) ∧
    (∀ u : State, (∀ e ∈ u.parts, e.2.creating = none) → settleCreate u = u) ∧
    ((extOf s x).st = .demoting → tenderServes s x = true → (extOf s x).copying = 0 ∨ stackReadOnly s x = false →
      let u := drainExtent x s
      let c := (extOf s x).copying.toNat
      ((extOf u x).dirty = 0 →
        let u1 := if (extOf s x).passes = 0 then chargePass x (popcount 512 c) u else u
        exec (.demotionPass x) s = .next (settleCreate (afterSwitch x (demoteSwitch x u1))) ∧
        (demoteSwitch x u1).flash = memCopyRange (x * extSize) extSize (demoteSwitch x u1).mem s.flash ∧
        (u.lineErr = [] → (demoteSwitch x u1).mem = u.mem) ∧
        (extOf (demoteSwitch x u1) x).st = (if (extOf u x).why = .writeBack then .hbm else .flash)) ∧
      ((extOf u x).dirty ≠ 0 → exec (.demotionPass x) s =
        .next (settleCreate (let u2 := settleExtent x u
               let e := extOf u2 x
               setExt x { e with copying := e.copying ||| e.dirty, dirty := 0, passes := e.passes + 1 }
                 (chargePass x (popcount 512 e.dirty.toNat + if (extOf s x).passes = 0 then popcount 512 c else 0) u2))))) ∧
    ((extOf s x).st ≠ .demoting ∨ tenderServes s x = false ∨ ((extOf s x).copying ≠ 0 ∧ stackReadOnly s x = true) →
      exec (.demotionPass x) s = .next (settleCreate s)) ∧
    (∀ r k, okRequester r = true → okSector r = true → k < 512 → inHbm s x = false → tenderHolds s x = false →
      let n := fun (u : State) => tblGet 0 (stackOf u (flashStack x)).reads (sectorBlock s x k)
      let seen := s.sectors.1 = now s ∧ setHas s.sectors.2 (x * 512 + k) = true
      let a := x * extSize + k * 4096
      let got : ReadRet := { req := r, addr := a, data := peek s a 4096, poison := rangePoisoned s a 4096 }
      ∃ u, exec (.sectorRead r x k .clean) s = .next { u with ret := some got } ∧
        u.mem = s.mem ∧ (¬ seen → n u = n s + 1) ∧ (seen → n u = n s)) ∧
    (∀ r k o, inHbm s x = true ∨ tenderHolds s x = true → okRequester r = true → okSector r = true → k < 512 → exec (.sectorRead r x k o) s = .next s) ∧
    (∀ f b, f < 4 → b < 131072 → let t := stackOf s f
      let serves := (tblGet {} s.tenders (f / 2)).restarting = false ∧ (tblGet {} s.tenders (f / 2)).dead = false
      (∀ n, tblGet? t.reloc b = some n → mayRelocate s f b = true → (tblGet {} s.tenders (f / 2)).restarting = false →
        ∃ u, exec (.relocationSwitch f b) s = .next (setStack f u s) ∧ tblGet 0 u.reads b = 0 ∧
          tblGet 0 u.erases b = tblGet 0 t.erases b + 1 ∧ tblGet? u.reloc b = none ∧ u.moved = moveBlock b n t.moved) ∧
      (tblGet? t.reloc b = none ∨ mayRelocate s f b = false ∨ (tblGet {} s.tenders (f / 2)).restarting = true → exec (.relocationSwitch f b) s = .next s) ∧
      (b ∈ t.queued ∨ 2 ^ 25 ≤ tblGet 0 t.reads b → tblGet? t.reloc b = none → mayRelocate s f b = true → serves →
        ∃ u n m, exec (.relocationStart f b) s = .next u ∧ n < 131072 ∧ tblGet 0 t.reads b ≤ m ∧
          (t.bad.length + t.reloc.length + t.moved.length + t.reads.length < 131071 → blockFree t b n = true) ∧
          (stackOf u f).reloc = tblSet b n t.reloc ∧ (stackOf u f).reads = tblSet b m t.reads ∧ u.mem = s.mem ∧ u.flash = s.flash) ∧
      ((b ∉ t.queued ∧ tblGet 0 t.reads b < 2 ^ 25) ∨ (tblGet? t.reloc b).isSome = true ∨ mayRelocate s f b = false ∨ ¬ serves →
        exec (.relocationStart f b) s = .next s) ∧
      (setHas t.bad b = false → ∃ u, exec (.blockFailure f b) s = .next u ∧ setHas (stackOf u f).bad b = true ∧ u.mem = s.mem ∧ u.flash = s.flash ∧
        (stackOf u f).spareBlocks = t.spareBlocks - 1 ∧ (stackOf u f).readOnly = (t.readOnly || decide (t.spareBlocks - 1 < 1024))) ∧
      (setHas t.bad b = true → exec (.blockFailure f b) s = .next s)) ∧
    (∀ l, l < 0x1EF80000000 / 16 + 4096 * 32768 → (inHbm s (l / 32768) = false → ∀ o, exec (.patrolScrub l o) s = .next s) ∧
      (inHbm s (l / 32768) = true →
        (tblGet? s.lineErr l = none → exec (.patrolScrub l .clean) s = .next s) ∧
        exec (.patrolScrub l .uncorrectable) s = .next { s with lineErr := tblDel l s.lineErr, poison := setIns l s.poison } ∧
        exec (.patrolScrub l .corrected) s = .next (hbmCorrected l { s with lineErr := tblDel l s.lineErr }))) ∧
    (∀ st c, st < 16 → c < 32 → exec (.channelFault st c) s = .next { s with deadCh := setIns (st * 64 + c) s.deadCh }) ∧
    (∀ die l, die < 4 → (fillOf s die l = none → exec (.cacheFill die l) s = .next s) ∧
      (∀ f, fillOf s die l = some f → exec (.cacheFill die l) s = .next (finishFill f s))) ∧
    (∀ hd, hd < 2 → let t := tblGet {} s.tenders hd
      let fails := if t.restarting then t.fails ++ [now s] else t.fails
      let dead := t.restarting && decide (2 ≤ (fails.filter (fun f => decide (now s ≤ f + 60000000000))).length)
      (t.dead = false → exec (.tenderRestart hd) s =
        .next (((s.exts.filter (fun e => e.1 % 2 == hd)).map (·.1)).foldl restartExt (settleRelocations (2 * hd + 1) (settleRelocations (2 * hd)
          { s with tenders := tblSet hd { restarting := !dead, fails := fails, dead := dead } s.tenders })))) ∧
      (t.dead = true → exec (.tenderRestart hd) s = .next s) ∧
      (t.restarting = false → exec (.tenderRestartDone hd) s = .next s) ∧
      (t.restarting = true → exec (.tenderRestartDone hd) s =
        .next (let u := { s with tenders := tblSet hd { t with restarting := false } s.tenders }
               tierRetry (((u.exts.filter (fun e => e.1 % 2 == hd && !(inHbm u e.1 && e.2.queue.isEmpty))).map (·.1)).foldl
                 (fun s x => tierDrain x (releaseHeld x s)) u))))

/-! ### Coupling links and Nguix ports -/

/-- Flits and lanes of a coupling link (R300 to R310). A 256-byte flit on a direction that runs counts its parity errors; one that fails
its CRC is answered by a nak and delivers nothing; a data flit in order delivers its packets once and is acknowledged; one delivered
before, and one behind a flit that failed, is not delivered; its header acts on the other direction, and on its own only by what the flits
sent back say. A flit that is sent carries its type, its sequence, the last good sequence of the other direction, whether a replay is
asked for, its slots, and a CRC that the receiver finds good. A lane's failure takes a spare, of which there are four, then halves the
direction, moves it to the other group, or loses it, and its packets move to the links that are left: a direction that used the lane stops
for 4 us from it, and a change of width raises EV_LANE_DEGRADE and the degraded condition. The direction resumes by replay of every
unacknowledged flit, then sends what waits. -/
def Obligations.CouplingLinksRetryAndNarrow : Prop :=
  ∀ (l d n : Nat) (s : State), l < 41 → d < 2 → n < 68 →
    let x := linkOf s l d
    (∀ bs, bs.length = 256 → carries x = true →
      let s1 := ((parityErrors bs x.width).filterMap (laneMap x)).foldl (countParity l d) s
      let x1 := linkOf s1 l d
      let h := leNat (bs.take 4)
      let s2 := takeHeader l d h s1
      let y := linkOf s2 l d
      let good := (crc32c (bs.take 244)).toNat = leNat ((bs.drop 244).take 4)
      let ahead := (fld h 29 18 + 4096 - x1.rxNext) % 4096
      let nak := fun (z : LinkDir) (u : State) => sendFlit l (back d) 0 0 [] (setLink l d { z with
        replays := z.replays + 1, nakDue := true, nakked := true, laneCheck := z.laneCheck || decide (8 ≤ z.replays + 1) } u)
      let pk := takePackets 80 (chunks 16 (x1.partialPkt.length / 16 + 1) x1.partialPkt ++ chunks 16 16 ((bs.drop 4).take 240))
      let freed := pk.1.foldl (fun t p => tblSet (pktVc p) (tblGet 0 t (pktVc p) + pktSlots p) t) y.freed
      y = { x1 with nakDue := y.nakDue, freed := y.freed } ∧
      (¬ good → exec (.flit l d bs) s = .next (nak x1 s1)) ∧
      (good → fld h 31 30 ≠ 1 → exec (.flit l d bs) s = .next s2) ∧
      (good → fld h 31 30 = 1 → fld h 29 18 = x1.rxNext → exec (.flit l d bs) s = .next (sendFlit l (back d) 0 0 [] (setLink l d { y with
        rxNext := (x1.rxNext + 1) % 4096, replays := 0, nakked := false, partialPkt := pk.2.flatten, delivered := x1.delivered ++ pk.1, freed := freed } s2))) ∧
      (good → fld h 31 30 = 1 → fld h 29 18 ≠ x1.rxNext → ahead < 2048 → x1.nakked = false → exec (.flit l d bs) s = .next (nak y s2)) ∧
      (good → fld h 31 30 = 1 → fld h 29 18 ≠ x1.rxNext → 2048 ≤ ahead ∨ x1.nakked = true → exec (.flit l d bs) s = .next s2)) ∧
    (∀ bs, bs.length ≤ 272 → bs.length ≠ 256 ∨ carries x = false → exec (.flit l d bs) s = .next s) ∧
    (∀ ty q slots, ty < 4 → q < 4096 → carries x = true → ∃ bs, (sendFlit l d ty q slots s).out = s.out ++ [.flit l d bs] ∧
      (crc32c (bs.take 244)).toNat = leNat ((bs.drop 244).take 4) ∧ (bs.drop 4).take 240 = padTo 240 0 slots ∧
      let h := leNat (bs.take 4)
      fld h 31 30 = ty ∧ fld h 29 18 = q ∧ fld h 17 6 = ((linkOf s l (back d)).rxNext + 4095) % 4096 ∧ bit h 5 = (linkOf s l (back d)).nakDue) ∧
    (setHas x.failed n = true ∨ x.width = 0 → exec (.laneFailure l d n) s = .next s) ∧
    (setHas x.failed n = false → x.width ≠ 0 →
      let f := setIns n x.failed
      let wg := dirWidth f (if x.width = 32 then some x.group else none)
      let s2 := recordEntry { kind := recLane, a := 2 * l + d, b := n } (setLink l d { x with
        failed := f, width := wg.1, group := wg.2, stopUntil := if laneUsed x n then some (now s + 4000) else x.stopUntil, laneCheck := false } s)
      let ports := fun u : State => if u.bu.state = 1 then
        (cutLinkDies u).foldl (fun s k => (List.range 5).foldl (fun s i => losePort (5 * k + i) s) s) (if wg.1 = 0 then moveLink l u else u) else u
      (f.length ≤ 4 → wg = (64, 0)) ∧
      (4 < f.length → x.width ≠ 32 → ∃ g, wg.2 = g ∧ (g = 0 ∨ g = 1) ∧ groupFails f g ≤ groupFails f (1 - g) ∧ (groupFails f g = groupFails f (1 - g) → g = 0) ∧
        wg.1 = (if groupFails f g ≤ 2 then 32 else 0)) ∧
      (wg.1 = x.width → wg.1 = 64 ∨ wg.2 = x.group → exec (.laneFailure l d n) s = .next s2) ∧
      (wg.1 = x.width → wg.1 ≠ 64 → wg.2 ≠ x.group → exec (.laneFailure l d n) s = .next (ports (enterDegraded s2))) ∧
      (wg.1 < x.width → exec (.laneFailure l d n) s = .next (ports (afterWidth l d s2)))) ∧
    (x.stopUntil = none → exec (.directionResume l d) s = .next s) ∧
    (∀ t, x.stopUntil = some t → exec (.directionResume l d) s =
      .next (pump l d (replayFlits l d (setLink l d { x with stopUntil := none } (advance t s)))))

/-- Nguix ports (R318, R320 to R325, R327, R330). A frame that fails its CRC is answered by a nak and delivers nothing; a data frame in
order is delivered once and acknowledged; one behind a frame that failed is discarded. A frame that is sent carries its type, its
sequence, the last good sequence received, whether a replay is asked for, its slots, and a CRC that the receiver finds good. The first
failed lane halves a port for at most 20 us and a failure in each group loses it, with EV_LANE_DEGRADE; a module's fault loses the five
ports of its link die. A port comes up where training, lanes, the peer's feature word and the lasers allow it, and is excluded where the
neighbour or the delay differs from the route table. A timing symbol measures the link delay as ((t_rx − t_e1) − t_hold) / 2, and steps
the counter on the first lock alone, never while a job is open and never back (R147, R151). -/
def Obligations.NguixPortsTrainRetryAndMeasure : Prop :=
  ∀ (p : Nat) (s : State), p < 20 →
    let x := portOf s p
    (∀ bs, bs.length = 512 → x.up = true → x.stopUntil = none →
      let h := leNat (bs.take 8)
      let s1 := takeFrameHeader p h s
      let y := portOf s1 p
      let good := (crc64 (bs.take 504)).toNat = leNat (bs.drop 504)
      let ahead := (fld h 61 48 + 16384 - y.rxNext) % 16384
      let nak := fun (z : Port) (u : State) => sendFrame p 0 0 [] (setPort p { z with
        replays := z.replays + 1, nakDue := true, nakked := true, laneCheck := z.laneCheck || decide (8 ≤ z.replays + 1) } u)
      (¬ good → exec (.frame p bs) s = .next (nak x (badCodewords p s))) ∧
      (good → fld h 63 62 ≠ 1 → exec (.frame p bs) s = .next s1) ∧
      (good → fld h 63 62 = 1 → fld h 61 48 = y.rxNext → exec (.frame p bs) s = .next (sendFrame p 0 0 [] (setPort p { y with
        rxNext := (y.rxNext + 1) % 16384, replays := 0, nakked := false, delivered := y.delivered ++ [(bs.drop 8).take 496] } s1))) ∧
      (good → fld h 63 62 = 1 → fld h 61 48 ≠ y.rxNext → ahead < 8192 → y.nakked = false → exec (.frame p bs) s = .next (nak y s1)) ∧
      (good → fld h 63 62 = 1 → fld h 61 48 ≠ y.rxNext → 8192 ≤ ahead ∨ y.nakked = true → exec (.frame p bs) s = .next s1)) ∧
    (∀ bs, bs.length ≤ 544 → bs.length ≠ 512 ∨ x.up = false ∨ x.stopUntil.isSome = true → exec (.frame p bs) s = .next s) ∧
    (∀ ty q slots, ty < 4 → q < 16384 → x.up = true → x.stopUntil = none → ∃ bs, (sendFrame p ty q slots s).out = s.out ++ [.frame p bs] ∧
      (crc64 (bs.take 504)).toNat = leNat (bs.drop 504) ∧ (bs.drop 8).take 496 = padTo 496 0 slots ∧
      let h := leNat (bs.take 8)
      fld h 63 62 = ty ∧ fld h 61 48 = q ∧ fld h 47 34 = (x.rxNext + 16383) % 16384 ∧ bit h 33 = x.nakDue) ∧
    (∀ n, n < 8 →
      let f := setIns n x.failed
      let w := portLanes f
      let s1 := raiseEvent evLaneDegrade (41 + p) (causeOf evLaneDegrade 2)
        (setPort p { x with failed := f, lanes := w, stopUntil := some (now s + 20000), laneCheck := false } s)
      (x.up = false ∨ setHas x.failed n = true → exec (.nguixLaneFailure p n) s = .next s) ∧
      (x.up = true → setHas x.failed n = false →
        (w = 0 → ∃ u, exec (.nguixLaneFailure p n) s = .next u ∧ (portOf u p).failed = f ∧ u = setPort p (portOf u p) (losePort p s)) ∧
        (w ≠ 0 → w = x.lanes → exec (.nguixLaneFailure p n) s = .next (setPort p { x with failed := f } s)) ∧
        (w ≠ 0 → w ≠ x.lanes → exec (.nguixLaneFailure p n) s = .next (if routeUses s p then enterDegraded s1 else s1)))) ∧
    (portLanes [] = 8 ∧ ∀ f, f ≠ [] → (portLanes f = 0 ↔ (∃ i ∈ f, i < 4) ∧ ∃ i ∈ f, 4 ≤ i) ∧ (portLanes f ≠ 0 → portLanes f = 4)) ∧
    (∀ t, x.stopUntil = some t → exec (.portResume p) s =
      .next (pumpFrames p (replayFrames p (setPort p { x with stopUntil := none } (advance t s))))) ∧
    (x.stopUntil = none → exec (.portResume p) s = .next s) ∧
    (∀ k, k < 4 → exec (.laserModuleReady k) s = .next { s with lasers := tblSet k { ready := true, enabled := true, faulted := false } s.lasers } ∧
      exec (.laserModuleFault k) s = .next ((List.range 5).foldl (fun s i => losePort (5 * k + i) s)
        { s with lasers := tblSet k { ready := false, enabled := false, faulted := true } s.lasers })) ∧
    (∀ r, r.failed.all (fun l => decide (l < 8)) = true → r.peerPort < 20 →
      let f := r.failed.foldl (fun l n => setIns n l) []
      let ok := r.ok && decide (portLanes f ≠ 0) && featureOk r.feature && (laserOf s (p / 5)).enabled
      (x.up = true → exec (.portTraining p r) s = .next s) ∧
      (x.up = false → ok = false → exec (.portTraining p r) s = .next (setPort p { x with failed := f, lanes := 0 } s)) ∧
      (x.up = false → ok = true → delayTooLong s p r.delay = false → ∃ u, exec (.portTraining p r) s = .next u ∧ (portOf u p).up = true ∧
        (portOf u p).lanes = portLanes f ∧ (portOf u p).generation = min 2 (wf r.feature 63 56) ∧ (portOf u p).features = wf r.feature 4 0 ∧
        (portOf u p).peerDevice = r.peerDevice.toNat ∧ (portOf u p).delay = r.delay)) ∧
    (∀ r nbr nbrPort, s.route = some r → (tblGet {} r.ports p).used = true → nbr < 1024 → nbrPort < 20 →
      ((tblGet {} r.ports p).nbr = nbr → (tblGet {} r.ports p).nbrPort = nbrPort → exec (.routeAnnounce p nbr nbrPort) s = .next s) ∧
      ((tblGet {} r.ports p).nbr ≠ nbr ∨ (tblGet {} r.ports p).nbrPort ≠ nbrPort → exec (.routeAnnounce p nbr nbrPort) s = .next (excludePort p s))) ∧
    (x.up = true →
      let s1 := match x.lastSent with | some t => advance (t + 2048) s | none => s
      exec (.timingSymbolSend p) s = .next (send (.symbol p (stampNow s1) x.tE1 x.tE2 (stampNow s1 - x.tE2)) (setPort p { x with lastSent := some (now s1) } s1))) ∧
    (∀ tTx tE1 tE2 tHold : Nat,
      let dly : Int := (((stampNow s : Nat) : Int) - tE1 - tHold) / 2
      let there : Int := (tTx : Int) + dly
      let s1 := setPort p { x with tE1 := tTx, tE2 := stampNow s, symDelay := dly } s
      (x.up = false → exec (.timingSymbol p tTx tE1 tE2 tHold) s = .next s ∧ exec (.timingSymbolSend p) s = .next s) ∧
      (x.up = true → disciplines s p = false → exec (.timingSymbol p tTx tE1 tE2 tHold) s = .next s1) ∧
      (x.up = true → disciplines s p = true → ∃ u, exec (.timingSymbol p tTx tE1 tE2 tHold) s = .next u ∧ u.quartz.firstLocked = true ∧ u.quartz.state = .consist ∧
        u.quartz.timingPort = some p ∧ (portOf u p).symDelay = dly ∧ now s ≤ now u ∧
        (s.quartz.firstLocked = true ∨ anyJob s = true ∨ there < stampNow s → now u = now s) ∧
        (s.quartz.firstLocked = false → anyJob s = false → (stampNow s : Int) ≤ there → now u = (there / 256).toNat)))

/-! ### Remote requests, collectives and PCIe -/

/-- Remote requests at their destination (R271, R272, R328, R334 to R336): those of a source are performed in the order of its pseq; an early one
waits, as does one whose source still has a write held (R271, R272), and a gap of 100 us is skipped and counted. An unbacked address, a poisoned line or a write to an image is answered by an error
with EV_REGION_FAULT; a reserved op, a misaligned address or a reserved bit is discarded and counted. A write puts the enabled bytes in
memory on the direct path, or is held while its extent is not in HBM. A request for another member is forwarded, one without a route
answered by an error. -/
def Obligations.RemoteRequestsArePerformedInOrder : Prop :=
  ∀ (m : RemoteMsg) (s : State), okMsg m = true →
    let x := srcOf s m.src
    let wants := m.op = 0 ∨ m.op = 1 ∨ m.op = 4 ∨ m.op = 5
    let answer := fun op data s => send (.remote { dst := m.src, src := m.dst, op := op, tag := m.tag, pseq := 0, addr := m.addr, mask := 0, data := padTo 64 0 data }) s
    let fail := fun s => if wants then answer 0xA [] s else s
    let refuse := fun s => fail (raiseEvent evRegionFault m.src (causeOf evRegionFault 3) s)
    let fits := m.op ≤ 5 ∧ m.addr % 64 = 0 ∧ m.reserved = false
    let held := writesWait s (.remote m.src)
    let kept := x.early.filter (fun e => !(e.pseq == m.pseq)) ++ [m]
    let since := if x.early.any (fun e => e.pseq == x.next) then none else some (x.gapSince.getD (now s))
    let far := (m.pseq + 65536 - x.next) % 65536
    let row := fun (op : Nat) (i : Instr) =>
      (m.op ≠ op → exec i s = .next s) ∧
      (m.op = op → s.route = none → exec i s = .next (fail s)) ∧
      (∀ r, m.op = op → s.route = some r → m.dst ≠ r.self →
        exec i s = .next (if (routePort s r m.dst).isSome then send (.remote m) s else fail s)) ∧
      (∀ r, m.op = op → s.route = some r → m.dst = r.self →
        (m.pseq = x.next → held = false → exec i s = .next (drainSource m.src (x.early.length + 1)
          (remotePerform m (setSrc m.src { x with next := (x.next + 1) % 65536, gapSince := none } s)))) ∧
        (m.pseq = x.next → held = true → exec i s = .next (setSrc m.src { x with early := kept, gapSince := none } s)) ∧
        (m.pseq ≠ x.next → far < 32768 → x.early.length < 4096 →
          exec i s = .next (setSrc m.src { x with early := kept, gapSince := since } s)) ∧
        (m.pseq ≠ x.next → 32768 ≤ far ∨ 4096 ≤ x.early.length → exec i s = .next s))
    row 0 (.remoteRead m) ∧ row 1 (.remoteReadAcquire m) ∧ row 2 (.remoteWrite m) ∧ row 3 (.remoteWriteRelease m) ∧
    row 4 (.remoteWriteAcked m) ∧ row 5 (.remoteWriteReleaseAcked m) ∧
    (∀ k src s, (writesWait s (.remote src) = true → drainSource src (k + 1) s = s) ∧
      (writesWait s (.remote src) = false → drainSource src (k + 1) s =
        (match (srcOf s src).early.find? (fun m => m.pseq == (srcOf s src).next) with
        | some e => drainSource src k (remotePerform e (setSrc src { srcOf s src with
            next := ((srcOf s src).next + 1) % 65536, early := (srcOf s src).early.filter (fun y => !(y.pseq == e.pseq)) } s))
        | none => setSrc src { srcOf s src with
            gapSince := if (srcOf s src).early.isEmpty then none else some ((srcOf s src).gapSince.getD (now s)) } s))) ∧
    (¬ fits → remotePerform m s = { s with remote := { s.remote with discarded := s.remote.discarded + 1 } }) ∧
    (fits → umrEnd < m.addr + 64 → remotePerform m s = refuse s) ∧
    (fits → m.addr + 64 ≤ umrEnd →
      (∀ sc, m.op ≤ 1 → sc = (if m.op = 1 then some Scope.consist else none) →
        (rangePoisoned (drainFor sc s) m.addr 64 = true → remotePerform m s = refuse (countPoison (m.addr / 64) (drainFor sc s))) ∧
        (rangePoisoned (drainFor sc s) m.addr 64 = false →
          let r := dirRead (.remote m.src) m.addr 64 sc (drainFor sc s)
          remotePerform m s = answer 8 r.1 r.2)) ∧
      (2 ≤ m.op → protectedRange s m.addr 64 = true → remotePerform m s = refuse s) ∧
      (2 ≤ m.op → protectedRange s m.addr 64 = false → writeHeld s (m.addr / extSize) = true →
        remotePerform m s = holdWrite (m.addr / extSize) (.remoteWrite m) s) ∧
      (2 ≤ m.op → protectedRange s m.addr 64 = false → writeHeld s (m.addr / extSize) = false →
        let u := (maskRuns m.mask.toNat m.data).foldl (fun s r =>
          directWriteLine (.remote m.src) (m.addr + r.1) r.2 (if m.op = 3 ∨ m.op = 5 then some .consist else none) (m.addr / 64) s) s
        remotePerform m s = (if wants then answer 9 [] u else u))) ∧
    (∀ src, src < 1024 → (srcOf s src).gapSince = none ∨ (srcOf s src).early.any (fun e => e.pseq == (srcOf s src).next) = true ∨
      (srcOf s src).early = [] → exec (.pseqGapSkip src) s = .next s) ∧
    (∀ t e, x.gapSince = some t → e ∈ x.early → x.early.any (fun e => e.pseq == x.next) = false →
      (∀ y ∈ x.early, y ≠ e → (e.pseq + 65536 - x.next) % 65536 < (y.pseq + 65536 - x.next) % 65536) →
      let u := advance (t + 100000) s
      exec (.pseqGapSkip m.src) s = .next (drainSource m.src (x.early.length + 1) (setSrc m.src { x with next := e.pseq, gapSince := none }
        { u with remote := { u.remote with gapSkips := u.remote.gapSkips + 1 } })))

/-- Responses and collective packets at the member they are for (R22, R328, R335, R340): read data, an acknowledgement or an error
completes the outstanding request with its tag, once; 200 us without a response complete it with the error response of R22. A response
for another member goes on by its route. A collective packet of another attempt is discarded, one that is early is kept, and one that
the engine's action waits for is taken, with those that came early after it. -/
def Obligations.ResponsesCompleteTheirRequests : Prop :=
  ∀ (m : RemoteMsg) (k : CollPacket) (s : State), okMsg m = true → okColl k = true →
    let settled := fun (o : Outstanding) (err : Bool) (d : List Byte) => { s with remote := { s.remote with
      out := s.remote.out.filter (fun x => !(x.dst == o.dst && x.tag == o.tag)), done := s.remote.done ++ [(o.req, o.tag, err, d)] } }
    let here := fun r => s.route = some r ∧ m.dst = r.self
    let row := fun (op : Nat) (i : Instr) =>
      (m.op ≠ op ∨ s.route = none → exec i s = .next s) ∧
      (∀ r, m.op = op → s.route = some r → m.dst ≠ r.self → exec i s = .next (if (routePort s r m.dst).isSome then send (.remote m) s else s)) ∧
      (∀ r, here r → outstanding s m.src m.tag = none → exec i s = .next s)
    let early := { s with collEarly := tblSet k.engine (tblGet [] s.collEarly k.engine ++ [k]) s.collEarly }
    row 8 (.remoteReadData m) ∧ row 9 (.remoteWriteAck m) ∧ row 10 (.remoteError m) ∧
    (∀ r o, here r → outstanding s m.src m.tag = some o →
      (m.op = 8 → 2 ≤ o.op → exec (.remoteReadData m) s = .next s) ∧
      (m.op = 8 → o.op ≤ 1 → ∀ h rd off n sg, o.req = .hart h → o.load = some (rd, off, n, sg) →
        exec (.remoteReadData m) s = .next (hartArrive h m.src m.tag rd off n sg m.data (settled o false m.data)) ∧
        ((hartOf s h).splits = [] →
          exec (.remoteReadData m) s = .next (wrX h rd (loadValue ((m.data.drop off).take n) n sg) (settled o false m.data)))) ∧
      (m.op = 8 → o.op ≤ 1 → ∀ d, o.req = .dray d →
        exec (.remoteReadData m) s = .next (drayArrive d m.src (o.addr / 64) (some m.data) (settled o false m.data))) ∧
      (m.op = 9 → exec (.remoteWriteAck m) s = .next (if 4 ≤ o.op then settled o false [] else s)) ∧
      (m.op = 10 → exec (.remoteError m) s = .next (failRemote o s)) ∧
      (∀ h, o.req = .hart h → o.load.isSome ∨ 2 ≤ o.op → (hartOf s h).splits = [] →
        failRemote o s = raiseTrap h (if o.op ≤ 1 then .loadFault else .storeFault) (2 ^ 55 + o.dst * 2 ^ 43 + o.addr) (settled o true [])) ∧
      (∀ d, o.req = .dray d → failRemote o s =
        (if o.op ≤ 1 then drayArrive d o.dst (o.addr / 64) none (settled o true []) else rejectWrite d (settled o true [])))) ∧
    (∀ dst tag, dst < 1024 → tag < 4096 → (outstanding s dst tag = none → exec (.remoteTimeout dst tag) s = .next s) ∧
      (∀ o, outstanding s dst tag = some o → exec (.remoteTimeout dst tag) s = .next (failRemote o (advance (o.at_ + 200000) s)))) ∧
    (redPart s k.engine = none → exec (.collectivePacket k) s = .next s) ∧
    (∀ p, redPart s k.engine = some p → jobOf s p = none → exec (.collectivePacket k) s = .next s) ∧
    (∀ p j, redPart s k.engine = some p → jobOf s p = some j →
      let e := (j.epochBase + j.epoch) % 2 ^ 32
      let q := seqOf s (584 + k.engine)
      (k.epoch = e → k.attempt ≠ j.attempt % 256 → exec (.collectivePacket k) s = .next s) ∧
      (k.epoch = e → k.attempt = j.attempt % 256 →
        (∀ c, tblGet? s.colls k.engine = some c →
          (packetFits c k = true → exec (.collectivePacket k) s =
            .next (drainEarly k.engine ((tblGet [] s.collEarly k.engine).length + 1) (takePacket k.engine c k s))) ∧
          (packetFits c k = false → exec (.collectivePacket k) s = .next (if c.entry ≤ k.entry then early else s))) ∧
        (tblGet? s.colls k.engine = none →
          exec (.collectivePacket k) s = .next (if q.entry ≤ k.entry ∧ setHas q.done k.entry = false then early else s))) ∧
      (e < k.epoch → tblGet? s.colls k.engine = none → exec (.collectivePacket k) s = .next early) ∧
      (k.epoch < e → tblGet? s.colls k.engine = none → exec (.collectivePacket k) s = .next s))

/-- Inbound PCIe requests (R25, R370, R371). A request resolves to the lowest-numbered valid region entry of its sub-port that matches its
requester and covers it with the right; one that resolves nowhere is an Unsupported Request, counted, with EV_REGION_FAULT. A write in
the MSI window raises the identity that its address and data name, where the entry is an MSI entry and they are legal. A request to
another sub-port's memory space is forwarded where p2p_mask permits. Reads and writes act at the translated address on its path, a write to
an image excepted. While its link is down a sub-port sends nothing. A hart's oldest load from a PCIe window ends with the data of its
completion, or with all ones. -/
def Obligations.InboundPcieResolvesByRegionEntry : Prop :=
  ∀ (sub rid a n : Nat) (d : List Byte) (w : Bool) (s : State), sub < 16 → rid < 65536 → 0 < n → n ≤ 4096 → 0 < d.length → d.length ≤ 512 →
    let entry := fun len write (e : Nat × Region) => e.2.valid && e.2.port == sub && ((rid ^^^ e.2.rid) &&& e.2.ridMask) == 0 &&
      inside a len e.2.pcieBase (e.2.lenPages * 4096) && (if write then e.2.inWr else e.2.inRd)
    let ur := fun read => let u := raiseEvent evRegionFault sub (causeOf evRegionFault 2) { s with pcie := { s.pcie with unresolved := satAdd max32 s.pcie.unresolved 1 } }
      if read then send (.pcieDone sub rid false false []) u else u
    let live := setHas s.pcie.link sub = true ∧ pcieBehind s sub = false
    let here := memSpaceSub s a = none ∨ memSpaceSub s a = some sub
    (¬ live → exec (.pcieInboundMsi sub rid a d) s = .next s ∧ exec (.pcieInboundP2p sub rid a w d) s = .next s ∧
      exec (.pcieInboundRead sub rid a n) s = .next s ∧ exec (.pcieInboundWrite sub rid a d) s = .next s) ∧
    (inMsi a 1 = false → exec (.pcieInboundMsi sub rid a d) s = .next s) ∧
    (here → exec (.pcieInboundP2p sub rid a w d) s = .next s) ∧
    (¬ here → exec (.pcieInboundRead sub rid a n) s = .next s ∧ exec (.pcieInboundWrite sub rid a d) s = .next s) ∧
    (live → inMsi a 1 = true →
      (s.regions.find? (entry 4 true) = none → exec (.pcieInboundMsi sub rid a d) s = .next (ur false)) ∧
      (∀ e, s.regions.find? (entry 4 true) = some e →
        (e.2.msi = true → d.length = 4 → irqLegal (fld a 22 16) (fld a 15 12) (fld (leNat d) 10 0) = true →
          exec (.pcieInboundMsi sub rid a d) s = .next (pend (fld a 22 16) (fld a 15 12) (fld (leNat d) 10 0) s)) ∧
        (e.2.msi = false ∨ d.length ≠ 4 ∨ irqLegal (fld a 22 16) (fld a 15 12) (fld (leNat d) 10 0) = false →
          exec (.pcieInboundMsi sub rid a d) s = .next (ur false)))) ∧
    (∀ j, live → memSpaceSub s a = some j → j ≠ sub →
      (bit (tblGet 0 s.pcie.p2p sub) j = true → setHas s.pcie.link j = true → exec (.pcieInboundP2p sub rid a w d) s = .next (send (.pcieForward j rid a w d) s)) ∧
      (bit (tblGet 0 s.pcie.p2p sub) j = false ∨ setHas s.pcie.link j = false → exec (.pcieInboundP2p sub rid a w d) s = .next (ur (!w)))) ∧
    (live → here → inMsi a 1 = true → exec (.pcieInboundRead sub rid a n) s = .next (ur true) ∧ exec (.pcieInboundWrite sub rid a d) s = .next s) ∧
    (live → here → inMsi a 1 = false →
      (s.regions.find? (entry n false) = none → exec (.pcieInboundRead sub rid a n) s = .next (ur true)) ∧
      (∀ e, s.regions.find? (entry n false) = some e →
        let t := e.2.target + (a - e.2.pcieBase)
        exec (.pcieInboundRead sub rid a n) s =
          .next (inboundReadAt (.pcie sub rid) t n (charge ((regionPart s e.1).getD 0) ((umrOf t).getD 0) n false s))) ∧
      (s.regions.find? (entry d.length true) = none → exec (.pcieInboundWrite sub rid a d) s = .next (ur false)) ∧
      (∀ e, s.regions.find? (entry d.length true) = some e →
        let t := e.2.target + (a - e.2.pcieBase)
        let u := (umrOf t).getD 0
        (protectedRange s u d.length = true → exec (.pcieInboundWrite sub rid a d) s = .next (refuseProtected (.pcie sub rid) u s)) ∧
        (protectedRange s u d.length = false → exec (.pcieInboundWrite sub rid a d) s =
          .next (inboundWriteAt (.pcie sub rid) t d (charge ((regionPart s e.1).getD 0) u d.length false s))))) ∧
    exec (.pcieLinkUp sub) s = .next (if subExists s sub = true ∧ s.bu.state = 1 then { s with pcie := { s.pcie with link := setIns sub s.pcie.link } } else s) ∧
    exec (.pcieLinkDown sub) s = .next { s with pcie := { s.pcie with link := setDel sub s.pcie.link } } ∧
    (∀ h ok v, h < 96 → ((hartOf s h).pcieLoads = [] → exec (.pcieCompletion h ok v) s = .next s) ∧
      (∀ rd x k sg rest, (hartOf s h).pcieLoads = (rd, x, k, sg) :: rest → exec (.pcieCompletion h ok v) s =
        .next (wrX h rd (loadValue (if ok then leBytes k v.toNat else List.replicate k 255#8) k sg) (setHart h { hartOf s h with pcieLoads := rest } s))))

/-! ### Power, temperature and supply -/

/-- Power and temperature (R427 to R438). At each multiple of 250 us of Quartz time the interval that has ended is compared with the
allowances of Table 16-3, less the excess of the shares that have no actuator; each domain completes the change it was making, takes the
thermal limit of R434 and R436 and moves one point towards the target of R432 and R433. A floor that is held raises EV_CAP_FLOOR; holding it
above 3,600 W ends the open jobs. A sample starts throttling on the domains of a die that has reached 105 degrees or drives a stack above 95.
A guardband rises in steps of 5 mV up to 45 and never falls, and a raise is recorded; a point without margin there is lost with those above it. -/
def Obligations.PointsAllowancesAndThrottling : Prop :=
  ∀ (m : PowerSample) (tj ts : List Int) (s : State), m.domains.length = 28 → m.shares.length = 10 → tj.length = 12 → ts.length = 16 →
    (s.bu.state ≠ 1 → exec (.controlInterval m) s = .next s ∧ exec (.thermalSample tj ts) s = .next s) ∧
    (s.bu.state = 1 → 250000 ∣ s.power.lastInterval → m.inputMs ≤ 3600 ∨ anyJob s = false → ∃ t b, exec (.controlInterval m) s = .next t ∧
      250000 ∣ b ∧ now s ≤ b ∧ s.power.lastInterval < b ∧ (∀ c, 250000 ∣ c → now s ≤ c → s.power.lastInterval < c → b ≤ c) ∧
      now t = b ∧ t.power.lastInterval = b ∧ t.power.cap = s.power.newCap.getD s.power.cap ∧ t.power.newCap = none ∧
      t.power.excess = (m.shares.getD 6 0 + m.shares.getD 7 0 + m.shares.getD 8 0) * 1000 - t.power.cap * 320 ∧
      (∀ a, a < 28 →
        let d := domOf s a
        let p := d.target.getD d.point
        let held := a < 4 ∧ anyJob s = true
        let cool := coolWhole s (if a < 4 then a else 4 + (a - 4) / 12) b
        let share := if a < 4 then t.power.cap * 145 - s.power.excess * 145 / 680 else (t.power.cap * 50 - s.power.excess * 50 / 680) / 12
        let mean := m.domains.getD a 0
        let limit := if cool then min 15 (d.limit + 1) else if d.throttled then (if held ∧ p ≤ 9 then 9 else p - 1) else d.limit
        let want := if share < mean * 1000 then p - 1 else if mean * 100000 < 95 * share then p + 1 else p
        let goal := min 15 (if held then max (min (min want d.highest) limit) 9 else min (min want d.highest) limit)
        (domOf t a = { d with point := p, limit := limit, throttled := d.throttled && !cool, target := if goal < p then some (p - 1) else if p < goal then some (p + 1) else none }) ∧
        (held → p ≤ 9 → share < mean * 1000 ∨ (cool = false ∧ d.throttled = true) → t.power.capFloor = true ∧ t.power.floored = true))) ∧
    (s.bu.state = 1 → ∃ t, exec (.controlInterval m) s = .next t ∧ s.power.lastInterval < t.power.lastInterval ∧ now s ≤ t.power.lastInterval ∧
      t.power.excess = (m.shares.getD 6 0 + m.shares.getD 7 0 + m.shares.getD 8 0) * 1000 - s.power.newCap.getD s.power.cap * 320 ∧
      t.power.input = m.inputMean ∧ t.power.vin = m.millivolts ∧ t.power.mean = m.shares) ∧
    (∀ u, u.power.floored = true → 3600 < m.inputMs → anyJob u = true → maxInputStop m u =
      capFloorEvent 0 1 { haltJobs stPower true u with power := { (haltJobs stPower true u).power with maxInput := true } }) ∧
    (s.bu.state = 1 → ∃ t, exec (.thermalSample tj ts) s = .next t ∧ t.thermal.tj = tj ∧ t.thermal.temps = ts ∧ 10000 ∣ roundUp (now s + 1) 10000 ∧
      now t = roundUp (now s + 1) 10000 ∧
      let new := fun die => (1050 ≤ tj.getD die 0 ∧ setHas s.thermal.hot die = false) ∨ (∃ i, i < 16 ∧ i / 4 = die ∧ 950 < ts.getD i 0 ∧ setHas s.thermal.over95 i = false)
      ∀ a, a < 28 → ((new (domDie a) → domOf t a = { domOf s a with throttled := true }) ∧ (¬ new (domDie a) → domOf t a = domOf s a))) ∧
    (∀ a, a < 28 → exec (.pointChangeComplete a) s = .next (match (domOf s a).target with
      | some p => setDom a { domOf s a with point := p, target := none } s
      | none => s)) ∧
    (∀ c pc, c < 24 → pc ≤ 100 → exec (.clockStretch c pc) s = .next (if s.bu.state ≠ 1 ∨ 8 < pc then s
      else { s with power := { s.power with stretch := if pc = 0 then tblDel c s.power.stretch else tblSet c pc s.power.stretch } })) ∧
    (∀ die g, (Instr.guardbandRaise die g).wellFormed = true → s.bu.state ≠ 1 → exec (.guardbandRaise die g) s = .next s) ∧
    (∀ die mv, die < 12 → s.bu.state = 1 →
      let g := tblGet 15 s.power.guard die
      let up := min 45 (roundUp mv 5)
      (up ≤ g → exec (.guardbandRaise die (.raise mv)) s = .next s) ∧
      (g < up → exec (.guardbandRaise die (.raise mv)) s = .next { s with power := { s.power with guard := tblSet die up s.power.guard }, record := { s.record with buffered := s.record.buffered ++ [{ kind := recGuardband, a := die, b := up }] } }) ∧
      (∀ a p, a < 28 → p < 16 → 45 ≤ g → domDie a = die → p ≤ (domOf s a).highest →
        let u := recordEntry { kind := recPoint, a := a, b := p - 1 } (setDom a { domOf s a with highest := p - 1 } s)
        exec (.guardbandRaise die (.lost a p)) s = .next (if a < 4 ∧ p < 10 then recordEntry { kind := recDie, a := die } u else u)) ∧
      (∀ a p, a < 28 → p < 16 → g < 45 ∨ domDie a ≠ die ∨ (domOf s a).highest < p → exec (.guardbandRaise die (.lost a p)) s = .next s))

/-- The supply, the trip and tampering (R407, R408, R425, R426, R437). A warning is raised once until the input has risen above 43 V.
Below 38 V or above 62 V every rail but the islands' is off: jobs end without records, partitions, tile memory and harts are gone; recovery is
a power restart unless a latch is held. Below 34 V the islands lose their supply with events, telemetry, channels, vaults and buffered
records; a wake starts everything afresh but fuses, flash and the committed record. A trip or an armed detector leaves the rails off, its pin
low and its latch held; tampering wipes both vaults. -/
def Obligations.SupplyTripAndTamperCutThePower : Prop :=
  ∀ (mv die hd src : Nat) (z : SelfTest) (s : State), okTest z = true → die < 12 → hd < 2 → 1 ≤ src → src ≤ 5 →
    let off := fun (t : State) => t.power.rails = false ∧ t.parts = [] ∧ t.seqs = [] ∧ t.queues = [] ∧ t.tileMem = [] ∧ t.cubes = [] ∧ t.harts = [] ∧
      t.dir = [] ∧ t.ports = [] ∧ t.pins.safeOut = true ∧ t.pins.peRst = false ∧ t.bu.state ≠ 1
    (s.power.islands = false → exec (.supplyWarn mv) s = .next s ∧ exec (.supplyWarnRearm mv) s = .next s ∧ exec (.supplyFault mv) s = .next s ∧
      exec (.supplyRecovery z) s = .next s ∧ exec (.islandSupplyLoss mv) s = .next s ∧ exec (.thermalTrip die) s = .next s ∧
      exec (.tamperEvent hd src) s = .next s) ∧
    (s.power.islands = true →
      (42000 ≤ mv → exec (.supplyWarn mv) s = .next s) ∧
      (mv < 42000 → exec (.supplyWarn mv) s = .next (if s.power.armed then raiseEvent evSupplyWarn 0 (causeOf evSupplyWarn 0)
        { s with power := { s.power with vin := mv, armed := false, supplyWarn := true } } else { s with power := { s.power with vin := mv } })) ∧
      exec (.supplyWarnRearm mv) s = .next (if 43000 < mv then { s with power := { s.power with armed := true, vin := mv } } else s) ∧
      (38000 ≤ mv → mv ≤ 62000 → exec (.supplyFault mv) s = .next s) ∧
      (mv < 38000 ∨ 62000 < mv → ∃ t, exec (.supplyFault mv) s = .next t ∧ off t ∧ t.power.fault = true ∧ t.power.vin = mv ∧
        t = { losePower s with bu := { (losePower s).bu with state := if s.bu.state = 1 then 0 else s.bu.state, todo := [], down := false }, power := { (losePower s).power with fault := true, vin := mv } }) ∧
      exec (.supplyRecovery z) s = .next (if s.power.fault = true then
        let u := { s with power := { s.power with fault := false, vin := 44001 + (Config.free64 s.freeCtr).toNat % 16000 }, freeCtr := s.freeCtr + 1 }
        if s.lc.tamper ∨ s.power.trip.isSome ∨ s.lc.state = 5 then u else powerRestart z u else s) ∧
      (34000 ≤ mv → exec (.islandSupplyLoss mv) s = .next s) ∧
      (mv < 34000 → ∃ t, exec (.islandSupplyLoss mv) s = .next t ∧ t.power.rails = false ∧ t.power.islands = false ∧ t.parts = [] ∧ t.harts = [] ∧ t.tileMem = [] ∧
        t.events = [] ∧ t.ctr = [] ∧ t.chans = [] ∧ t.active = none ∧ t.record.buffered = [] ∧ t.pins.safeOut = false ∧ vaultOf t 0 = {} ∧ vaultOf t 1 = {}) ∧
      exec (.thermalTrip die) s = .next (if s.power.trip.isSome then s else
        let u := bump 0x030D 0 1 (enterSafe 2 die s)
        { u with power := { u.power with trip := some (die, now s) }, pins := { u.pins with thermTripN := false } }) ∧
      (s.power.trip = none → ∃ t, exec (.thermalTrip die) s = .next t ∧ off t ∧ t.bu.state = 2 ∧ t.bu.cause = 2 ∧ t.bu.unit = die) ∧
      (let arms := s.lc.state ≠ 5 ∧ (2 ≤ src ∧ src ≤ 4 ∨ s.lc.state = 2 ∨ s.lc.state = 3)
       (¬ arms → exec (.tamperEvent hd src) s = .next s) ∧
       (arms → let x := wipeVaults (if src = 5 then { s with pins := { s.pins with lidB := false } } else s)
         let y := raiseEvent evTamper hd src x
         let z := enterSafe 1 (if s.lc.tamper then s.lc.tamperCause else src) { y with lc := if s.lc.tamper then y.lc else { y.lc with tamper := true, tamperCause := src } }
         (∀ d, d < 2 → (vaultOf x d).data = [] ∧ (vaultOf x d).keys = false ∧ (vaultOf x d).wiping = some (now s + 2000)) ∧ off z ∧ z.bu.state = 2 ∧ z.bu.cause = 1 ∧
         exec (.tamperEvent hd src) s = .next { z with pins := { z.pins with tamperOutN := false } }))) ∧
    (s.power.islands = true → exec (.wakeFromOff z) s = .next s) ∧
    (s.power.islands = false → exec (.wakeFromOff z) s =
      .next (powerOn z 1 true (wakeIslands { s with freeCtr := s.freeCtr + 1, power := { s.power with vin := 44001 + (Config.free64 s.freeCtr).toNat % 16000 } })))

/-! ### Bring-up, pins, the record and receipt batches -/

/-- Bring-up, its pins, the record and the batches (R145, R146, R419, R443 to R451, R468). The steps of Table 17-1 run in order: step 3 waits
for PWR_GOOD_IN, step 4 for RESET_IN_N; a critical failure stops them and enters the safe state; past the last the package is up.
PWR_GOOD_IN falling acts as a supply fault and rising as a power restart, or lets the steps that wait go on. RESET_IN_N falling starts a package
reset, ignored while a latch is held; in the safe state its rise acts as RESET. An overrun is a critical failure of its step, but at steps
6 and 12. The buffered entries of the record are committed behind those already there. A batch closes 1 s after its first receipt; its record
is the 128-byte header with both signatures, which are zero in BLANK, and is written once the keys of the state are there: the Caboose
reads them from its vault, behind a wipe that is running; an uncorrectable word there wipes the vault and ends in the safe state (R145, R146). -/
def Obligations.BringUpPinsRecordAndBatches : Prop :=
  ∀ (z : SelfTest) (k : Nat) (s : State), okTest z = true → 1 ≤ k → k ≤ 14 →
    let held := s.lc.tamper = true ∨ s.power.trip.isSome = true ∨ s.lc.state = 5
    let alive := s.power.islands = true ∧ s.power.fault = false ∧ ¬ held
    let good := { s with pins := { s.pins with pwrGood := true } }
    let low := { s with pins := { s.pins with resetN := false } }
    let high := { s with pins := { s.pins with resetN := true } }
    (∀ full wake u, runSteps z full wake [] u = { u with bu := { u.bu with state := 1, todo := [] } }) ∧
    (∀ full wake l u, (k = 3 ∧ u.pins.pwrGood = false) ∨ (k = 4 ∧ u.pins.resetN = false) →
      runSteps z full wake (k :: l) u = { u with bu := { u.bu with todo := k :: l } }) ∧
    (∀ full wake l u c n, (k = 3 → u.pins.pwrGood = true) → (k = 4 → u.pins.resetN = true) → z.critical = some (k, c, n) → c ≠ 1 →
      ∃ t, runSteps z full wake (k :: l) u = t ∧ t.bu.state ≠ 0 ∧ t.bu.state ≠ 1 ∧ t.bu.cause = c ∧ t.bu.unit = n ∧ t.bu.todo = [] ∧ t.power.rails = false) ∧
    (∀ full wake l u, (k = 3 → u.pins.pwrGood = true) → (k = 4 → u.pins.resetN = true) → z.critical.map (·.1) ≠ some k → u.bu.state = 0 →
      let v := stepAction k z full u
      runSteps z full wake (k :: l) u = (if v.bu.state = 0 then runSteps z full wake l (markStep k wake v) else { v with bu := { v.bu with todo := [] } })) ∧
    (s.pins.pwrGood = false → exec .pwrGoodInFall s = .next s) ∧
    (s.pins.pwrGood = true → exec .pwrGoodInFall s = .next (if s.power.islands then { supplyDown s with pins := { (supplyDown s).pins with pwrGood := false } }
      else { s with pins := { s.pins with pwrGood := false } })) ∧
    (s.pins.pwrGood = true → exec (.pwrGoodInRise z) s = .next s) ∧
    (s.pins.pwrGood = false → (¬ alive → exec (.pwrGoodInRise z) s = .next good) ∧
      (alive → ∀ j l, s.bu.todo = j :: l → exec (.pwrGoodInRise z) s = .next (passBringUp 45000000 (runSteps z true false (j :: l) good))) ∧
      (alive → s.bu.todo = [] → exec (.pwrGoodInRise z) s = .next (if s.bu.state = 1 then good else powerRestart z good))) ∧
    (s.pins.resetN = false → exec .resetInNAssert s = .next s) ∧
    (s.pins.resetN = true →
      (held ∨ s.power.islands = false ∨ s.bu.state ≠ 1 → exec .resetInNAssert s = .next low) ∧
      (¬ held → s.power.islands = true → s.bu.state = 1 → s.tenders.all (fun e => !e.2.dead) = true →
        ∃ t, exec .resetInNAssert s = .next t ∧ t = { packageDown low with bu := { (packageDown low).bu with todo := [4, 5, 6, 7, 8, 13, 14] } } ∧
          t.bu.state = 0 ∧ t.parts = [] ∧ t.harts = [] ∧ t.tileMem = [] ∧ t.seqs = [] ∧ t.pins.safeOut = true ∧ t.pins.peRst = false) ∧
      (¬ held → s.power.islands = true → s.bu.state = 1 → ∀ e, s.tenders.find? (fun e => e.2.dead) = some e →
        exec .resetInNAssert s = .next (enterSafe 0x0E (dieHD e.1) (packageDown low)))) ∧
    (s.pins.resetN = true → exec (.resetInNRelease z) s = .next s) ∧
    (s.pins.resetN = false →
      (∀ j l, s.bu.todo = j :: l → exec (.resetInNRelease z) s = .next (passBringUp 15000000 (runSteps z ((j :: l).elem 9) false (j :: l) high))) ∧
      (s.bu.todo = [] → exec (.resetInNRelease z) s = .next (if s.bu.state = 2 ∨ s.bu.state = 3 then (resetPackage z high).getD high else high))) ∧
    (s.bu.state ≠ 0 ∨ s.bu.todo.head? ≠ some k ∨ k = 3 ∨ k = 12 → exec (.bringupStepTimeout k) s = .next s) ∧
    (s.bu.state = 0 → s.bu.todo.head? = some k → k ≠ 3 → k ≠ 12 → ∃ t, exec (.bringupStepTimeout k) s = .next t ∧
      (k = 6 → t = { s with active := some 1, standby := true }) ∧ (k ≠ 6 → t.bu.state = 2 ∧ t.power.rails = false ∧ t.parts = [] ∧ t.pins.safeOut = true)) ∧
    exec .recordCommit s = .next (if s.power.islands then { s with record := ⟨s.record.committed ++ s.record.buffered, []⟩ } else s) ∧
    (s.rcpt.batches.find? (fun b => b.closedAt.isNone) = none → exec .batchTimeout s = .next s) ∧
    (s.rcpt.batches.find? (fun b => b.closedAt.isSome && b.record.isEmpty && !b.stopped) = none → exec .batchRecord s = .next s) ∧
    (∀ hd, let x := vaultOf s hd
      (x.wiping = none → x.bad = false → readVault hd s = s) ∧
      (x.wiping = none → x.bad = true → readVault hd s = enterSafe 0x06 (6 + hd) (wipeVault hd s)) ∧
      (∀ t, x.wiping = some t → x.bad = false → readVault hd s = setVault hd { x with wiping := none } (advance t s))) ∧
    (∀ b, s.rcpt.batches.find? (fun b => b.closedAt.isSome && b.record.isEmpty && !b.stopped) = some b →
      let u := match s.active with | some hd => (if s.lc.state = 1 then s else readVault hd s) | none => s
      let signed := u.rcpt.batches.map (fun x => if x.num = b.num then { x with record := batchRecordBytes u x } else x)
      (canSign u = false → exec .batchRecord s = .next u) ∧
      (canSign u = true → (batchHeader u b).length = 128 ∧ (batchRecordBytes u b).length = 3533 ∧ (batchRecordBytes u b).take 128 = batchHeader u b ∧
        (u.lc.state = 1 → (batchRecordBytes u b).drop 128 = List.replicate 3405 0#8) ∧
        exec .batchRecord s = .next { u with rcpt := { u.rcpt with batches := signed } })) ∧
    (∀ b, s.rcpt.batches.find? (fun b => b.closedAt.isNone) = some b → ∃ t, exec .batchTimeout s = .next t ∧ now t = max (now s) (b.openedAt + 1000000000) ∧
      t.rcpt.batches = s.rcpt.batches.map (fun b => if b.closedAt.isNone then { b with closedAt := some (now t) } else b))

/-! ### External management -/

/-- The management ports, the UARTs and the TAP (R397 to R399, R401, R411, Table 14-8). ENTDAA and SETDASA both give a port its
address. A control message is answered on either port; PLDM sensors and SPDM are served by the active Caboose alone. GET_VERSION starts a
connection afresh and the requests follow it in order: one before its stage is answered by an error. Slot 0 holds the certificate, empty
but in PROVISIONED and DEPLOYED; the identity key signs the transcript with the nonce, if the vault holds it
when the Caboose reads it (R145, R146). Whether the FINISH of a session
verifies is a free value; END_SESSION ends an established session. A UART takes input in BLANK and RMA only, and there alone a Garoux
debug instruction of the TAP acts otherwise than as BYPASS. -/
def Obligations.ManagementPortsServeTheirRequests : Prop :=
  ∀ (hd slot off len i a : Nat) (flag : Bool) (msg : List Byte) (c : Byte) (s : State), hd < 2 → a < 128 → i < 65536 →
    let m := mgmtOf s hd
    let powered := s.power.islands = true
    let up := fun (u : State) => u.power.islands = true ∧ (mgmtOf u hd).addr.isSome = true ∧ u.active = some hd ∧ u.bu.state ≠ 3
    let serves := up s
    let debug := s.lc.state = 1 ∨ s.lc.state = 4
    let cert := fun (u : State) => if u.lc.state = 2 ∨ u.lc.state = 3 then some (Config.certificate u.lc.deviceId) else none
    let sign := fun (u : State) t => if (vaultOf u hd).keys = true ∧ (cert u).isSome = true then
      some (padTo 96 0#8 (Config.ecdsaSign (if u.lc.state = 2 then 3 else u.lc.state) u.lc.deviceId t)) else none
    let reply := fun code body m u => send (.spdm hd code body) (setMgmt hd m u)
    let log := fun (x : List Byte) (m : Mgmt) => { m with transcript := m.transcript ++ x }
    let v := if serves then readVault hd s else s
    let w := if msg = [] then s else v
    let row := fun code stage u i => (¬ up u → exec i s = .next u) ∧ (up u → (mgmtOf u hd).spdm < stage → exec i s = .next (send (.spdm hd code none) u))
    (exec (.i3cDynamicAddress hd a flag) s = .next (if powered then setMgmt hd { m with addr := some a } s else s)) ∧
    (exec (.mctpControl hd msg) s = .next (if powered ∧ m.addr.isSome = true then send (.i3c hd (Config.answerBody 0 msg)) (match eidOf msg with
      | some e => setMgmt hd { m with eid := e } s
      | none => s) else s)) ∧
    (exec (.pldmSensorRead hd i) s = .next (if serves then send (.pldm hd i (sensorReading s (Config.sensorOf i))) s else s)) ∧
    row 0x84 0 s (.getVersion hd msg) ∧ row 0xE1 1 s (.getCapabilities hd msg) ∧ row 0xE3 2 s (.negotiateAlgorithms hd msg) ∧ row 0x81 3 s (.getDigests hd msg) ∧
    row 0x82 3 s (.getCertificate hd slot off len) ∧ row 0x83 3 v (.challenge hd slot msg) ∧ row 0xE0 3 w (.getMeasurements hd i msg) ∧
    row 0xE4 3 v (.keyExchange hd slot msg) ∧
    (serves → exec (.getVersion hd msg) s = .next (reply 0x84 (some [0x13#8]) { m with spdm := 1, session := 0, transcript := msg } s)) ∧
    (serves → 1 ≤ m.spdm → exec (.getCapabilities hd msg) s = .next (reply 0xE1 (some (Config.answerBody 0xE1 msg)) (log msg { m with spdm := max m.spdm 2 }) s)) ∧
    (serves → 2 ≤ m.spdm → exec (.negotiateAlgorithms hd msg) s = .next (reply 0xE3 (some (Config.answerBody 0xE3 msg)) (log msg { m with spdm := 3 }) s)) ∧
    (serves → 3 ≤ m.spdm →
      (exec (.getDigests hd msg) s = .next (reply 0x81 (some (match cert s with
        | some x => sha384 x
        | none => [])) (log msg m) s)) ∧
      (exec (.getCertificate hd slot off len) s = .next (reply 0x82 (if slot = 0 then (cert s).map (fun x => (x.drop off).take len) else none) m s))) ∧
    (∀ x, mgmtOf v hd = x → up v → 3 ≤ x.spdm →
      (exec (.challenge hd slot msg) s = .next (reply 0x83 (if slot = 0 then sign v (x.transcript ++ msg) else none) (log msg x) v)) ∧
      (∀ g, slot = 0 → x.session = 0 → sign v (x.transcript ++ msg) = some g →
        exec (.keyExchange hd slot msg) s = .next (reply 0xE4 (some (Config.answerBody 0xE4 msg ++ g)) (log msg { x with session := 1 }) v)) ∧
      (slot ≠ 0 ∨ x.session ≠ 0 ∨ sign v (x.transcript ++ msg) = none → exec (.keyExchange hd slot msg) s = .next (reply 0xE4 none x v))) ∧
    (∀ x, mgmtOf w hd = x → up w → 3 ≤ x.spdm →
      exec (.getMeasurements hd i msg) s = .next (reply 0xE0 (match measurements w i with
        | some b => if msg = [] then some b else (sign w (x.transcript ++ msg ++ b)).map (b ++ ·)
        | none => none) (log msg x) w)) ∧
    (serves → (vaultOf s hd).wiping = none → (vaultOf s hd).bad = false → v = s) ∧
    (¬ serves → exec (.finish hd msg) s = .next s ∧ exec (.endSession hd) s = .next s) ∧
    (serves → m.session = 1 → let u := { s with freeCtr := s.freeCtr + 1 }
      exec (.finish hd msg) s = .next (if (Config.free64 s.freeCtr).toNat % 2 = 1 then
        send (.spdm hd 0xE5 (some (Config.answerBody 0xE5 msg))) (setMgmt hd (log msg { m with session := 2 }) u)
        else send (.spdm hd 0xE5 none) (setMgmt hd { m with session := 0 } u))) ∧
    (serves → m.session ≠ 1 → exec (.finish hd msg) s = .next (send (.spdm hd 0xE5 none) s)) ∧
    (serves → exec (.endSession hd) s = .next (if m.session = 2 then reply 0xEC (some []) { m with session := 0 } s else send (.spdm hd 0xEC none) s)) ∧
    exec (.uartReceive hd c) s = .next (if powered ∧ debug then setMgmt hd { m with uart := m.uart ++ [c] } s else s) ∧
    (∀ k, k < 256 →
      (k = 0xFF ∨ (Config.tapDebug k = true ∧ ¬ debug) → exec (.tapInstruction k) s = .next (send (.tap 0xFF 0) { s with tap := 0xFF })) ∧
      (k ≠ 0xFF → Config.tapDebug k = false ∨ debug →
        exec (.tapInstruction k) s = .next (send (.tap k (Config.free64 s.freeCtr).toNat) { s with tap := k, freeCtr := s.freeCtr + 1 })))
end

