-- ==== Sys2Proof/Laws/Bits.lean ====
section
/-! SUPPORT. Bits, fields of one bit, and the positions of the bits set. -/

namespace Sys2Proof.Machine

/-! ### Bits and fields -/

theorem bit_eq {v b : Nat} : bit v b = v.testBit b := by
  unfold bit; rw [Nat.testBit, Nat.one_and_eq_mod_two]
  rcases Nat.mod_two_eq_zero_or_one (v >>> b) with h | h <;> simp [h]

/-- A field of one bit changes that bit alone. -/
theorem bit_setFld {m i j : Nat} {c : Bool} : bit (setFld m i i (b2n c)) j = if j = i then c else bit m j := by
  rw [bit_eq, bit_eq]
  unfold setFld
  have hc : (b2n c) % 2 ^ (i + 1 - i) = b2n c := by
    have : i + 1 - i = 1 := by omega
    rw [this]; cases c <;> rfl
  rw [hc, Nat.shiftLeft_eq, Nat.shiftLeft_eq, Nat.pow_succ]
  have e : m >>> (i + 1) * (2 ^ i * 2) + b2n c * 2 ^ i + m % 2 ^ i = 2 ^ i * (2 * (m >>> (i+1)) + b2n c) + m % 2 ^ i := by ring
  rw [e, Nat.testBit_two_pow_mul_add _ (Nat.mod_lt _ (Nat.two_pow_pos i))]
  split
  · rename_i h
    rw [Nat.testBit_mod_two_pow, if_neg (by omega)]; simp [h]
  · rename_i h
    split
    · rename_i h2; subst h2
      simp only [Nat.sub_self, Nat.testBit_zero]; cases c <;> simp [b2n]
    · rename_i h2
      have : j - i = (j - i - 1) + 1 := by omega
      rw [this, Nat.testBit_succ]
      have : (2 * m >>> (i + 1) + b2n c) / 2 = m >>> (i+1) := by
        cases c
        · simp [b2n]
        · simp [b2n]; omega
      rw [this, Nat.testBit_shiftRight]
      congr 1; omega

/-- The positions that `bitsOf` lists. -/
theorem mem_bitsOf {n v i : Nat} : i ∈ bitsOf n v ↔ i < n ∧ bit v i = true := by
  induction n with
  | zero => simp [bitsOf]
  | succ n ih =>
    unfold bitsOf
    split
    · rename_i h
      rw [List.mem_append, ih]; simp only [List.mem_singleton]
      constructor
      · rintro (⟨a, b⟩ | rfl)
        · exact ⟨by omega, b⟩
        · exact ⟨by omega, h⟩
      · rintro ⟨a, b⟩
        rcases Nat.lt_or_ge i n with h3 | h3
        · exact .inl ⟨h3, b⟩
        · exact .inr (by omega)
    · rename_i h
      rw [ih]
      constructor
      · rintro ⟨a, b⟩; exact ⟨by omega, b⟩
      · rintro ⟨a, b⟩
        refine ⟨?_, b⟩
        rcases Nat.lt_or_ge i n with h3 | h3
        · exact h3
        · have : i = n := by omega
          subst this; exact absurd b h

theorem nodup_bitsOf {n v : Nat} : (bitsOf n v).Nodup := by
  induction n with
  | zero => simp [bitsOf]
  | succ n ih =>
    unfold bitsOf
    split
    · refine List.Nodup.append ih (List.nodup_singleton _) ?_
      intro a ha hb
      rw [List.mem_singleton] at hb
      have := (mem_bitsOf.mp ha).1
      omega
    · exact ih

theorem bitsOf_eq {n v : Nat} : bitsOf n v = (List.range n).filter (fun i => bit v i) := by
  induction n with
  | zero => rfl
  | succ n ih =>
    unfold bitsOf
    rw [List.range_succ, List.filter_append, ← ih]
    split <;> rename_i h <;> simp [h]
/-- Bits set one after the other. -/
theorem bit_foldFld {c : Nat → Bool} {l : List Nat} {m j : Nat} :
    bit (l.foldl (fun m i => setFld m i i (b2n (c i))) m) j = if j ∈ l then c j else bit m j := by
  induction l generalizing m with
  | nil => rfl
  | cons a l ih =>
    rw [List.foldl_cons, ih, bit_setFld]
    by_cases h : j ∈ l
    · simp [h]
    · by_cases h2 : j = a
      · subst h2; simp [h]
      · simp [h, h2]

end Sys2Proof.Machine
end

