-- ==== Sys2Proof/Laws/Table.lean ====
section
/-! SUPPORT. The laws of tables and byte memories: a read after a write, what a write leaves alone, and that every
operation keeps the canonical form. -/

namespace Sys2Proof.Machine

/-! ### Tables -/

section Tables
variable {α : Type} {t : Tbl α} {k k' : Nat} {v d : α}

@[simp] theorem tblGet?_nil : tblGet? ([] : Tbl α) k = none := rfl

@[simp] theorem tblGet_nil : tblGet d ([] : Tbl α) k = d := rfl

@[simp] theorem tblGet?_set_same : tblGet? (tblSet k v t) k = some v := by
  induction t with
  | nil => simp [tblSet, tblGet?]
  | cons a t ih => unfold tblSet; split <;> [skip; split] <;> simp_all [tblGet?]; omega

theorem tblGet?_set_ne (h : k' ≠ k) : tblGet? (tblSet k v t) k' = tblGet? t k' := by
  induction t with
  | nil => simp [tblSet, tblGet?, h.symm]
  | cons a t ih => unfold tblSet; split <;> [skip; split] <;> simp_all [tblGet?, eq_comm]

@[simp] theorem tblGet_set_same : tblGet d (tblSet k v t) k = v := by simp [tblGet]

theorem tblGet_set_ne (h : k' ≠ k) : tblGet d (tblSet k v t) k' = tblGet d t k' := by simp [tblGet, tblGet?_set_ne h]

theorem tblGet_set : tblGet d (tblSet k v t) k' = if k' = k then v else tblGet d t k' := by
  split
  · subst k'; simp
  · rename_i h; exact tblGet_set_ne h

/-- Of two entries set at one key the later stands. -/
@[simp] theorem tblSet_set : tblSet k v (tblSet k w t) = tblSet k v t := by
  induction t with
  | nil => simp [tblSet]
  | cons a t ih =>
    by_cases h1 : k < a.1
    · simp [tblSet, h1]
    · by_cases h2 : k = a.1
      · simp [tblSet, h2]
      · simp [tblSet, h1, h2, ih]

@[simp] theorem tblGet?_del_same : tblGet? (tblDel k t) k = none := by
  induction t with
  | nil => rfl
  | cons a t ih =>
    by_cases h : a.1 = k
    · simpa [tblDel, h] using ih
    · simpa [tblDel, h, tblGet?] using ih

theorem tblGet?_del_ne (h : k' ≠ k) : tblGet? (tblDel k t) k' = tblGet? t k' := by
  induction t with
  | nil => rfl
  | cons a t ih =>
    by_cases h' : a.1 = k
    · have : a.1 ≠ k' := fun e => h (e ▸ h')
      simpa [tblDel, h', tblGet?, this, h.symm] using ih
    · by_cases h2 : a.1 = k'
      · simp [tblDel, tblGet?, h2, h]
      · simpa [tblDel, h', tblGet?, h2] using ih

@[simp] theorem tblGet_del_same : tblGet d (tblDel k t) k = d := by simp [tblGet]

theorem tblGet_del_ne (h : k' ≠ k) : tblGet d (tblDel k t) k' = tblGet d t k' := by simp [tblGet, tblGet?_del_ne h]

/-- The canonical form says that the keys rise strictly throughout. -/
theorem tblWf_iff : tblWf t = true ↔ t.Pairwise (fun a b => a.1 < b.1) := by
  induction t with
  | nil => simp [tblWf]
  | cons a t ih =>
    cases t with
    | nil => simp [tblWf]
    | cons b t =>
      rw [List.pairwise_cons, ← ih]
      simp only [tblWf, Bool.and_eq_true, decide_eq_true_eq, and_congr_left_iff]
      intro h
      rw [ih, List.pairwise_cons] at h
      constructor
      · intro hab c hc
        rcases List.mem_cons.1 hc with rfl | hc
        · exact hab
        · exact Nat.lt_trans hab (h.1 c hc)
      · intro hc; exact hc b (List.mem_cons_self)

theorem tblWf_filter {p : Nat × α → Bool} (h : tblWf t = true) : tblWf (t.filter p) = true := by
  rw [tblWf_iff] at h ⊢; exact h.filter p

theorem tblWf_del (h : tblWf t = true) : tblWf (tblDel k t) = true := tblWf_filter h

theorem mem_tblSet {e : Nat × α} (h : e ∈ tblSet k v t) : e = (k, v) ∨ e ∈ t := by
  induction t with
  | nil => simpa [tblSet] using h
  | cons a t ih =>
    unfold tblSet at h
    split at h
    · simpa using h
    · split at h
      · rcases List.mem_cons.1 h with h | h
        · exact .inl h
        · exact .inr (List.mem_cons_of_mem _ h)
      · rcases List.mem_cons.1 h with h | h
        · exact .inr (h ▸ List.mem_cons_self)
        · exact (ih h).imp id (List.mem_cons_of_mem _)

/-- A search that passes the key by finds what it found. -/
theorem any_tblSet {p : Nat × α → Bool} (h : ∀ x, p (k, x) = false) : (tblSet k v t).any p = t.any p := by
  induction t with
  | nil => simp [tblSet, h]
  | cons e t ih =>
    obtain ⟨j, x⟩ := e
    unfold tblSet
    split
    · simp [h]
    · split
      · subst_vars; simp [h]
      · simp [ih]

theorem tblWf_set (h : tblWf t = true) : tblWf (tblSet k v t) = true := by
  rw [tblWf_iff] at h ⊢
  induction t with
  | nil => simp [tblSet]
  | cons a t ih =>
    rw [List.pairwise_cons] at h
    unfold tblSet
    split
    · rename_i hk
      refine List.pairwise_cons.2 ⟨?_, List.pairwise_cons.2 h⟩
      intro c hc
      rcases List.mem_cons.1 hc with rfl | hc
      · exact hk
      · exact Nat.lt_trans hk (h.1 c hc)
    · split
      · rename_i hk; subst hk; exact List.pairwise_cons.2 h
      · rename_i h1 h2
        refine List.pairwise_cons.2 ⟨?_, ih h.2⟩
        intro c hc
        rcases mem_tblSet hc with rfl | hc
        · exact Nat.lt_of_le_of_ne (Nat.le_of_not_lt h1) (Ne.symm h2)
        · exact h.1 c hc

end Tables

/-! ### Byte memories -/

section Memories
variable {m : Mem} {a b : Nat} {v : Byte}

@[simp] theorem memGet_nil : memGet [] a = 0#8 := rfl

@[simp] theorem memGet_set_same : memGet (memSet a v m) a = v := by
  unfold memSet memGet
  split <;> simp_all

theorem memGet_set_ne (h : b ≠ a) : memGet (memSet a v m) b = memGet m b := by
  unfold memSet memGet
  split
  · exact tblGet_del_ne h
  · exact tblGet_set_ne h

theorem memWf_iff : memWf m = true ↔ tblWf m = true ∧ ∀ c ∈ m, c.2 ≠ 0#8 := by simp [memWf]

theorem memWf_nil : memWf [] = true := rfl

theorem memWf_filter {p : Host.Cell → Bool} (h : memWf m = true) : memWf (m.filter p) = true := by
  rw [memWf_iff] at h ⊢
  exact ⟨tblWf_filter h.1, fun c hc => h.2 c (List.mem_of_mem_filter hc)⟩

theorem memWf_set (h : memWf m = true) : memWf (memSet a v m) = true := by
  unfold memSet
  split
  · exact memWf_filter h
  · rename_i hv
    rw [memWf_iff] at h ⊢
    refine ⟨tblWf_set h.1, fun c hc => ?_⟩
    rcases mem_tblSet hc with rfl | hc
    · exact hv
    · exact h.2 c hc

theorem memWf_write {bs : List Byte} (h : memWf m = true) : memWf (memWrite m a bs) = true := by
  induction bs generalizing m a with
  | nil => exact h
  | cons x bs ih => exact ih (memWf_set h)

theorem memWf_writeMask {mask i : Nat} {bs : List Byte} (h : memWf m = true) : memWf (memWriteMask m mask a i bs) = true := by
  induction bs generalizing m i with
  | nil => exact h
  | cons x bs ih =>
    unfold memWriteMask
    split
    · exact ih (memWf_set h)
    · exact ih h

theorem memWf_clear {n : Nat} (h : memWf m = true) : memWf (memClear a n m) = true := memWf_filter h

theorem memWf_part {n : Nat} (h : memWf m = true) : memWf (memPart a n m) = true := memWf_filter h

theorem memWf_copyRange {n : Nat} {src dst : Mem} (h : memWf dst = true) : memWf (memCopyRange a n src dst) = true := by
  unfold memCopyRange
  generalize memPart a n src = l
  have hc : memWf (memClear a n dst) = true := memWf_clear h
  generalize memClear a n dst = d at hc
  induction l generalizing d with
  | nil => exact hc
  | cons c l ih => exact ih _ (memWf_set hc)

/-- A write leaves every byte outside it alone. -/
theorem memGet_write_out {bs : List Byte} (h : b < a ∨ a + bs.length ≤ b) : memGet (memWrite m a bs) b = memGet m b := by
  induction bs generalizing m a with
  | nil => rfl
  | cons x bs ih =>
    have e : (x :: bs).length = bs.length + 1 := rfl
    rw [memWrite, ih (by omega), memGet_set_ne (by omega)]

/-- A byte of a write reads as it was written. -/
theorem memGet_write_in {bs : List Byte} {i : Nat} (h : i < bs.length) : memGet (memWrite m a bs) (a + i) = bs[i] := by
  induction bs generalizing m a i with
  | nil => simp at h
  | cons x bs ih =>
    rw [memWrite]
    cases i with
    | zero => rw [memGet_write_out (by omega)]; simp
    | succ i =>
      have := ih (m := memSet a x m) (a := a + 1) (i := i) (by simpa using h)
      rw [← Nat.add_assoc, Nat.add_right_comm, this]; rfl

@[simp] theorem memRead_length {n : Nat} : (memRead m a n).length = n := by
  induction n generalizing a with
  | zero => rfl
  | succ n ih => simp [memRead, ih]

theorem memRead_getElem {n i : Nat} (h : i < (memRead m a n).length) : (memRead m a n)[i] = memGet m (a + i) := by
  induction n generalizing a i with
  | zero => simp [memRead] at h
  | succ n ih =>
    cases i with
    | zero => rfl
    | succ i =>
      simp only [memRead, List.getElem_cons_succ]
      rw [ih, Nat.add_right_comm, ← Nat.add_assoc]

/-- Bytes read where they were written are the bytes written. -/
theorem memRead_write {bs : List Byte} : memRead (memWrite m a bs) a bs.length = bs := by
  apply List.ext_getElem (by simp)
  intro i h1 h2
  rw [memRead_getElem, memGet_write_in h2]

/-- A read that a write does not touch. -/
theorem memRead_write_out {bs : List Byte} {n : Nat} (h : b + n ≤ a ∨ a + bs.length ≤ b) :
    memRead (memWrite m a bs) b n = memRead m b n := by
  apply List.ext_getElem (by simp)
  intro i h1 h2
  simp at h1 h2
  rw [memRead_getElem, memRead_getElem, memGet_write_out (by omega)]

theorem memGet_filter_out {p : Host.Cell → Bool} (h : ∀ c ∈ m, c.1 = b → p c = false) : memGet (m.filter p) b = 0#8 := by
  induction m with
  | nil => rfl
  | cons c m ih =>
    have ih' := ih (fun x hx => h x (List.mem_cons_of_mem _ hx))
    by_cases hc : p c = true
    · have : c.1 ≠ b := fun e => by simp [h c List.mem_cons_self e] at hc
      simpa [List.filter, hc, memGet, tblGet, tblGet?, this] using ih'
    · simpa [List.filter, hc] using ih'

theorem memGet_filter_in {p : Host.Cell → Bool} (h : ∀ c ∈ m, c.1 = b → p c = true) : memGet (m.filter p) b = memGet m b := by
  induction m with
  | nil => rfl
  | cons c m ih =>
    have ih' := ih (fun x hx => h x (List.mem_cons_of_mem _ hx))
    by_cases hb : c.1 = b
    · have := h c List.mem_cons_self hb
      simp [List.filter, this, memGet, tblGet, tblGet?, hb]
    · by_cases hc : p c = true
      · simpa [List.filter, hc, memGet, tblGet, tblGet?, hb] using ih'
      · simpa [List.filter, hc, memGet, tblGet, tblGet?, hb] using ih'

/-- A cleared range reads zero. -/
theorem memGet_clear_in {n : Nat} (h1 : a ≤ b) (h2 : b < a + n) : memGet (memClear a n m) b = 0#8 := by
  refine memGet_filter_out (fun c _ e => ?_)
  simp only [Bool.or_eq_false_iff, decide_eq_false_iff_not]
  omega

theorem memGet_clear_out {n : Nat} (h : b < a ∨ a + n ≤ b) : memGet (memClear a n m) b = memGet m b := by
  refine memGet_filter_in (fun c _ e => ?_)
  simp only [Bool.or_eq_true, decide_eq_true_eq]
  omega

end Memories

/-! ### Bytes of numbers -/

@[simp] theorem leBytes_length {n v : Nat} : (leBytes n v).length = n := by
  induction n generalizing v with
  | zero => rfl
  | succ n ih => simp [leBytes, ih]

theorem leNat_leBytes {n v : Nat} : leNat (leBytes n v) = v % 256 ^ n := by
  induction n generalizing v with
  | zero => simp [leBytes, leNat, Nat.mod_one]
  | succ n ih =>
    have e : (BitVec.ofNat 8 v).toNat = v % 256 := by simp
    rw [leBytes, leNat, ih, e, Nat.pow_succ', Nat.mod_mul]

/-! ### Sets -/

theorem mem_setIns {l : NatSet} {k j : Nat} : j ∈ setIns k l ↔ j = k ∨ j ∈ l := by
  induction l with
  | nil => simp [setIns]
  | cons h t ih =>
    unfold setIns
    split
    · simp
    · split
      · rename_i e; subst e; simp
      · simp only [List.mem_cons, ih, or_left_comm]

theorem setHas_ins {l : NatSet} {k j : Nat} : setHas (setIns k l) j = (decide (j = k) || setHas l j) := by
  rw [Bool.eq_iff_iff]
  simp [setHas, mem_setIns]

theorem setHas_del {l : NatSet} {k j : Nat} : setHas (setDel k l) j = (decide (j ≠ k) && setHas l j) := by
  rw [Bool.eq_iff_iff]
  simp [setHas, setDel, List.mem_filter, and_comm]

end Sys2Proof.Machine
end

