-- ==== Sys2Proof/Laws/State.lean ====
section
/-! SUPPORT. What each named update of State leaves as it was, field by field, and what the accessors read after it. -/

namespace Sys2Proof.Machine

variable {s : State}

/-! ### Fields -/

@[simp] theorem setHart_fields {h : Nat} {x : Hart} :
    (setHart h x s).pending = s.pending ∧ (setHart h x s).freeCtr = s.freeCtr ∧ (setHart h x s).out = s.out ∧
    (setHart h x s).ret = s.ret ∧ (setHart h x s).quartz = s.quartz ∧ (setHart h x s).mem = s.mem ∧ (setHart h x s).flash = s.flash ∧
    (setHart h x s).poison = s.poison ∧ (setHart h x s).flashPoison = s.flashPoison ∧ (setHart h x s).lineErr = s.lineErr ∧
    (setHart h x s).exts = s.exts ∧ (setHart h x s).freeFrames = s.freeFrames ∧ (setHart h x s).tierWait = s.tierWait ∧
    (setHart h x s).hbmBuckets = s.hbmBuckets ∧ (setHart h x s).hbmRows = s.hbmRows ∧ (setHart h x s).deadCh = s.deadCh ∧
    (setHart h x s).wrc = s.wrc ∧ (setHart h x s).flBuckets = s.flBuckets ∧ (setHart h x s).flStacks = s.flStacks ∧
    (setHart h x s).sectors = s.sectors ∧ (setHart h x s).windows = s.windows ∧ (setHart h x s).tenders = s.tenders ∧
    (setHart h x s).dir = s.dir ∧ (setHart h x s).homes = s.homes ∧ (setHart h x s).reqWait = s.reqWait ∧ (setHart h x s).rfs = s.rfs ∧
    (setHart h x s).links = s.links ∧ (setHart h x s).level = s.level ∧ (setHart h x s).revs = s.revs ∧
    (setHart h x s).degraded = s.degraded ∧ (setHart h x s).ports = s.ports ∧ (setHart h x s).lasers = s.lasers ∧
    (setHart h x s).route = s.route ∧ (setHart h x s).remote = s.remote ∧ (setHart h x s).colls = s.colls ∧
    (setHart h x s).collEarly = s.collEarly ∧ (setHart h x s).tileMem = s.tileMem ∧ (setHart h x s).tileErr = s.tileErr ∧
    (setHart h x s).fuses = s.fuses ∧ (setHart h x s).repairs = s.repairs ∧ (setHart h x s).tiles = s.tiles ∧
    (setHart h x s).cubes = s.cubes ∧ (setHart h x s).spares = s.spares ∧ (setHart h x s).map = s.map ∧ (setHart h x s).parts = s.parts ∧
    (setHart h x s).lastJobs = s.lastJobs ∧ (setHart h x s).seqs = s.seqs ∧ (setHart h x s).queues = s.queues ∧
    (setHart h x s).regions = s.regions ∧ (setHart h x s).dbl = s.dbl ∧ (setHart h x s).pcie = s.pcie ∧
    (setHart h x s).drayLast = s.drayLast ∧ (setHart h x s).drayWait = s.drayWait ∧ (setHart h x s).active = s.active ∧
    (setHart h x s).standby = s.standby ∧ (setHart h x s).chans = s.chans ∧ (setHart h x s).events = s.events ∧
    (setHart h x s).ctr = s.ctr ∧ (setHart h x s).lc = s.lc ∧ (setHart h x s).vaults = s.vaults ∧ (setHart h x s).rcpt = s.rcpt ∧
    (setHart h x s).power = s.power ∧ (setHart h x s).thermal = s.thermal ∧ (setHart h x s).bu = s.bu ∧ (setHart h x s).pins = s.pins ∧
    (setHart h x s).record = s.record ∧ (setHart h x s).mgmt = s.mgmt ∧ (setHart h x s).tap = s.tap :=
  by repeat' first | exact rfl | constructor

@[simp] theorem setQueue_fields {h : Nat} {x : QCtx} :
    (setQueue h x s).pending = s.pending ∧ (setQueue h x s).freeCtr = s.freeCtr ∧ (setQueue h x s).out = s.out ∧
    (setQueue h x s).ret = s.ret ∧ (setQueue h x s).quartz = s.quartz ∧ (setQueue h x s).mem = s.mem ∧ (setQueue h x s).flash = s.flash ∧
    (setQueue h x s).poison = s.poison ∧ (setQueue h x s).flashPoison = s.flashPoison ∧ (setQueue h x s).lineErr = s.lineErr ∧
    (setQueue h x s).exts = s.exts ∧ (setQueue h x s).freeFrames = s.freeFrames ∧ (setQueue h x s).tierWait = s.tierWait ∧
    (setQueue h x s).hbmBuckets = s.hbmBuckets ∧ (setQueue h x s).hbmRows = s.hbmRows ∧ (setQueue h x s).deadCh = s.deadCh ∧
    (setQueue h x s).wrc = s.wrc ∧ (setQueue h x s).flBuckets = s.flBuckets ∧ (setQueue h x s).flStacks = s.flStacks ∧
    (setQueue h x s).sectors = s.sectors ∧ (setQueue h x s).windows = s.windows ∧ (setQueue h x s).tenders = s.tenders ∧
    (setQueue h x s).dir = s.dir ∧ (setQueue h x s).homes = s.homes ∧ (setQueue h x s).reqWait = s.reqWait ∧
    (setQueue h x s).harts = s.harts ∧ (setQueue h x s).rfs = s.rfs ∧ (setQueue h x s).links = s.links ∧
    (setQueue h x s).level = s.level ∧ (setQueue h x s).revs = s.revs ∧ (setQueue h x s).degraded = s.degraded ∧
    (setQueue h x s).ports = s.ports ∧ (setQueue h x s).lasers = s.lasers ∧ (setQueue h x s).route = s.route ∧
    (setQueue h x s).remote = s.remote ∧ (setQueue h x s).colls = s.colls ∧ (setQueue h x s).collEarly = s.collEarly ∧
    (setQueue h x s).tileMem = s.tileMem ∧ (setQueue h x s).tileErr = s.tileErr ∧ (setQueue h x s).fuses = s.fuses ∧
    (setQueue h x s).repairs = s.repairs ∧ (setQueue h x s).tiles = s.tiles ∧ (setQueue h x s).cubes = s.cubes ∧
    (setQueue h x s).spares = s.spares ∧ (setQueue h x s).map = s.map ∧ (setQueue h x s).parts = s.parts ∧
    (setQueue h x s).lastJobs = s.lastJobs ∧ (setQueue h x s).seqs = s.seqs ∧ (setQueue h x s).regions = s.regions ∧
    (setQueue h x s).dbl = s.dbl ∧ (setQueue h x s).pcie = s.pcie ∧ (setQueue h x s).drayLast = s.drayLast ∧
    (setQueue h x s).drayWait = s.drayWait ∧ (setQueue h x s).active = s.active ∧ (setQueue h x s).standby = s.standby ∧
    (setQueue h x s).chans = s.chans ∧ (setQueue h x s).events = s.events ∧ (setQueue h x s).ctr = s.ctr ∧ (setQueue h x s).lc = s.lc ∧
    (setQueue h x s).vaults = s.vaults ∧ (setQueue h x s).rcpt = s.rcpt ∧ (setQueue h x s).power = s.power ∧
    (setQueue h x s).thermal = s.thermal ∧ (setQueue h x s).bu = s.bu ∧ (setQueue h x s).pins = s.pins ∧
    (setQueue h x s).record = s.record ∧ (setQueue h x s).mgmt = s.mgmt ∧ (setQueue h x s).tap = s.tap :=
  by repeat' first | exact rfl | constructor

@[simp] theorem setRegion_fields {h : Nat} {x : Region} :
    (setRegion h x s).pending = s.pending ∧ (setRegion h x s).freeCtr = s.freeCtr ∧ (setRegion h x s).out = s.out ∧
    (setRegion h x s).ret = s.ret ∧ (setRegion h x s).quartz = s.quartz ∧ (setRegion h x s).mem = s.mem ∧
    (setRegion h x s).flash = s.flash ∧ (setRegion h x s).poison = s.poison ∧ (setRegion h x s).flashPoison = s.flashPoison ∧
    (setRegion h x s).lineErr = s.lineErr ∧ (setRegion h x s).exts = s.exts ∧ (setRegion h x s).freeFrames = s.freeFrames ∧
    (setRegion h x s).tierWait = s.tierWait ∧ (setRegion h x s).hbmBuckets = s.hbmBuckets ∧ (setRegion h x s).hbmRows = s.hbmRows ∧
    (setRegion h x s).deadCh = s.deadCh ∧ (setRegion h x s).wrc = s.wrc ∧ (setRegion h x s).flBuckets = s.flBuckets ∧
    (setRegion h x s).flStacks = s.flStacks ∧ (setRegion h x s).sectors = s.sectors ∧ (setRegion h x s).windows = s.windows ∧
    (setRegion h x s).tenders = s.tenders ∧ (setRegion h x s).dir = s.dir ∧ (setRegion h x s).homes = s.homes ∧
    (setRegion h x s).reqWait = s.reqWait ∧ (setRegion h x s).harts = s.harts ∧ (setRegion h x s).rfs = s.rfs ∧
    (setRegion h x s).links = s.links ∧ (setRegion h x s).level = s.level ∧ (setRegion h x s).revs = s.revs ∧
    (setRegion h x s).degraded = s.degraded ∧ (setRegion h x s).ports = s.ports ∧ (setRegion h x s).lasers = s.lasers ∧
    (setRegion h x s).route = s.route ∧ (setRegion h x s).remote = s.remote ∧ (setRegion h x s).colls = s.colls ∧
    (setRegion h x s).collEarly = s.collEarly ∧ (setRegion h x s).tileMem = s.tileMem ∧ (setRegion h x s).tileErr = s.tileErr ∧
    (setRegion h x s).fuses = s.fuses ∧ (setRegion h x s).repairs = s.repairs ∧ (setRegion h x s).tiles = s.tiles ∧
    (setRegion h x s).cubes = s.cubes ∧ (setRegion h x s).spares = s.spares ∧ (setRegion h x s).map = s.map ∧
    (setRegion h x s).parts = s.parts ∧ (setRegion h x s).lastJobs = s.lastJobs ∧ (setRegion h x s).seqs = s.seqs ∧
    (setRegion h x s).queues = s.queues ∧ (setRegion h x s).dbl = s.dbl ∧ (setRegion h x s).pcie = s.pcie ∧
    (setRegion h x s).drayLast = s.drayLast ∧ (setRegion h x s).drayWait = s.drayWait ∧ (setRegion h x s).active = s.active ∧
    (setRegion h x s).standby = s.standby ∧ (setRegion h x s).chans = s.chans ∧ (setRegion h x s).events = s.events ∧
    (setRegion h x s).ctr = s.ctr ∧ (setRegion h x s).lc = s.lc ∧ (setRegion h x s).vaults = s.vaults ∧ (setRegion h x s).rcpt = s.rcpt ∧
    (setRegion h x s).power = s.power ∧ (setRegion h x s).thermal = s.thermal ∧ (setRegion h x s).bu = s.bu ∧
    (setRegion h x s).pins = s.pins ∧ (setRegion h x s).record = s.record ∧ (setRegion h x s).mgmt = s.mgmt ∧
    (setRegion h x s).tap = s.tap :=
  by repeat' first | exact rfl | constructor

@[simp] theorem setChan_fields {h : Nat} {x : Chan} :
    (setChan h x s).pending = s.pending ∧ (setChan h x s).freeCtr = s.freeCtr ∧ (setChan h x s).out = s.out ∧
    (setChan h x s).ret = s.ret ∧ (setChan h x s).quartz = s.quartz ∧ (setChan h x s).mem = s.mem ∧ (setChan h x s).flash = s.flash ∧
    (setChan h x s).poison = s.poison ∧ (setChan h x s).flashPoison = s.flashPoison ∧ (setChan h x s).lineErr = s.lineErr ∧
    (setChan h x s).exts = s.exts ∧ (setChan h x s).freeFrames = s.freeFrames ∧ (setChan h x s).tierWait = s.tierWait ∧
    (setChan h x s).hbmBuckets = s.hbmBuckets ∧ (setChan h x s).hbmRows = s.hbmRows ∧ (setChan h x s).deadCh = s.deadCh ∧
    (setChan h x s).wrc = s.wrc ∧ (setChan h x s).flBuckets = s.flBuckets ∧ (setChan h x s).flStacks = s.flStacks ∧
    (setChan h x s).sectors = s.sectors ∧ (setChan h x s).windows = s.windows ∧ (setChan h x s).tenders = s.tenders ∧
    (setChan h x s).dir = s.dir ∧ (setChan h x s).homes = s.homes ∧ (setChan h x s).reqWait = s.reqWait ∧
    (setChan h x s).harts = s.harts ∧ (setChan h x s).rfs = s.rfs ∧ (setChan h x s).links = s.links ∧ (setChan h x s).level = s.level ∧
    (setChan h x s).revs = s.revs ∧ (setChan h x s).degraded = s.degraded ∧ (setChan h x s).ports = s.ports ∧
    (setChan h x s).lasers = s.lasers ∧ (setChan h x s).route = s.route ∧ (setChan h x s).remote = s.remote ∧
    (setChan h x s).colls = s.colls ∧ (setChan h x s).collEarly = s.collEarly ∧ (setChan h x s).tileMem = s.tileMem ∧
    (setChan h x s).tileErr = s.tileErr ∧ (setChan h x s).fuses = s.fuses ∧ (setChan h x s).repairs = s.repairs ∧
    (setChan h x s).tiles = s.tiles ∧ (setChan h x s).cubes = s.cubes ∧ (setChan h x s).spares = s.spares ∧ (setChan h x s).map = s.map ∧
    (setChan h x s).parts = s.parts ∧ (setChan h x s).lastJobs = s.lastJobs ∧ (setChan h x s).seqs = s.seqs ∧
    (setChan h x s).queues = s.queues ∧ (setChan h x s).regions = s.regions ∧ (setChan h x s).dbl = s.dbl ∧
    (setChan h x s).pcie = s.pcie ∧ (setChan h x s).drayLast = s.drayLast ∧ (setChan h x s).drayWait = s.drayWait ∧
    (setChan h x s).active = s.active ∧ (setChan h x s).standby = s.standby ∧ (setChan h x s).events = s.events ∧
    (setChan h x s).ctr = s.ctr ∧ (setChan h x s).lc = s.lc ∧ (setChan h x s).vaults = s.vaults ∧ (setChan h x s).rcpt = s.rcpt ∧
    (setChan h x s).power = s.power ∧ (setChan h x s).thermal = s.thermal ∧ (setChan h x s).bu = s.bu ∧ (setChan h x s).pins = s.pins ∧
    (setChan h x s).record = s.record ∧ (setChan h x s).mgmt = s.mgmt ∧ (setChan h x s).tap = s.tap :=
  by repeat' first | exact rfl | constructor

@[simp] theorem setPart_fields {h : Nat} {x : Part} :
    (setPart h x s).pending = s.pending ∧ (setPart h x s).freeCtr = s.freeCtr ∧ (setPart h x s).out = s.out ∧
    (setPart h x s).ret = s.ret ∧ (setPart h x s).quartz = s.quartz ∧ (setPart h x s).mem = s.mem ∧ (setPart h x s).flash = s.flash ∧
    (setPart h x s).poison = s.poison ∧ (setPart h x s).flashPoison = s.flashPoison ∧ (setPart h x s).lineErr = s.lineErr ∧
    (setPart h x s).exts = s.exts ∧ (setPart h x s).freeFrames = s.freeFrames ∧ (setPart h x s).tierWait = s.tierWait ∧
    (setPart h x s).hbmBuckets = s.hbmBuckets ∧ (setPart h x s).hbmRows = s.hbmRows ∧ (setPart h x s).deadCh = s.deadCh ∧
    (setPart h x s).wrc = s.wrc ∧ (setPart h x s).flBuckets = s.flBuckets ∧ (setPart h x s).flStacks = s.flStacks ∧
    (setPart h x s).sectors = s.sectors ∧ (setPart h x s).windows = s.windows ∧ (setPart h x s).tenders = s.tenders ∧
    (setPart h x s).dir = s.dir ∧ (setPart h x s).homes = s.homes ∧ (setPart h x s).reqWait = s.reqWait ∧
    (setPart h x s).harts = s.harts ∧ (setPart h x s).rfs = s.rfs ∧ (setPart h x s).links = s.links ∧ (setPart h x s).level = s.level ∧
    (setPart h x s).revs = s.revs ∧ (setPart h x s).degraded = s.degraded ∧ (setPart h x s).ports = s.ports ∧
    (setPart h x s).lasers = s.lasers ∧ (setPart h x s).route = s.route ∧ (setPart h x s).remote = s.remote ∧
    (setPart h x s).colls = s.colls ∧ (setPart h x s).collEarly = s.collEarly ∧ (setPart h x s).tileMem = s.tileMem ∧
    (setPart h x s).tileErr = s.tileErr ∧ (setPart h x s).fuses = s.fuses ∧ (setPart h x s).repairs = s.repairs ∧
    (setPart h x s).tiles = s.tiles ∧ (setPart h x s).cubes = s.cubes ∧ (setPart h x s).spares = s.spares ∧ (setPart h x s).map = s.map ∧
    (setPart h x s).lastJobs = s.lastJobs ∧ (setPart h x s).seqs = s.seqs ∧ (setPart h x s).queues = s.queues ∧
    (setPart h x s).regions = s.regions ∧ (setPart h x s).dbl = s.dbl ∧ (setPart h x s).pcie = s.pcie ∧
    (setPart h x s).drayLast = s.drayLast ∧ (setPart h x s).drayWait = s.drayWait ∧ (setPart h x s).active = s.active ∧
    (setPart h x s).standby = s.standby ∧ (setPart h x s).chans = s.chans ∧ (setPart h x s).events = s.events ∧
    (setPart h x s).ctr = s.ctr ∧ (setPart h x s).lc = s.lc ∧ (setPart h x s).vaults = s.vaults ∧ (setPart h x s).rcpt = s.rcpt ∧
    (setPart h x s).power = s.power ∧ (setPart h x s).thermal = s.thermal ∧ (setPart h x s).bu = s.bu ∧ (setPart h x s).pins = s.pins ∧
    (setPart h x s).record = s.record ∧ (setPart h x s).mgmt = s.mgmt ∧ (setPart h x s).tap = s.tap :=
  by repeat' first | exact rfl | constructor

@[simp] theorem setSeq_fields {h : Nat} {x : Seq} :
    (setSeq h x s).pending = s.pending ∧ (setSeq h x s).freeCtr = s.freeCtr ∧ (setSeq h x s).out = s.out ∧ (setSeq h x s).ret = s.ret ∧
    (setSeq h x s).quartz = s.quartz ∧ (setSeq h x s).mem = s.mem ∧ (setSeq h x s).flash = s.flash ∧ (setSeq h x s).poison = s.poison ∧
    (setSeq h x s).flashPoison = s.flashPoison ∧ (setSeq h x s).lineErr = s.lineErr ∧ (setSeq h x s).exts = s.exts ∧
    (setSeq h x s).freeFrames = s.freeFrames ∧ (setSeq h x s).tierWait = s.tierWait ∧ (setSeq h x s).hbmBuckets = s.hbmBuckets ∧
    (setSeq h x s).hbmRows = s.hbmRows ∧ (setSeq h x s).deadCh = s.deadCh ∧ (setSeq h x s).wrc = s.wrc ∧
    (setSeq h x s).flBuckets = s.flBuckets ∧ (setSeq h x s).flStacks = s.flStacks ∧ (setSeq h x s).sectors = s.sectors ∧
    (setSeq h x s).windows = s.windows ∧ (setSeq h x s).tenders = s.tenders ∧ (setSeq h x s).dir = s.dir ∧
    (setSeq h x s).homes = s.homes ∧ (setSeq h x s).reqWait = s.reqWait ∧ (setSeq h x s).harts = s.harts ∧ (setSeq h x s).rfs = s.rfs ∧
    (setSeq h x s).links = s.links ∧ (setSeq h x s).level = s.level ∧ (setSeq h x s).revs = s.revs ∧
    (setSeq h x s).degraded = s.degraded ∧ (setSeq h x s).ports = s.ports ∧ (setSeq h x s).lasers = s.lasers ∧
    (setSeq h x s).route = s.route ∧ (setSeq h x s).remote = s.remote ∧ (setSeq h x s).colls = s.colls ∧
    (setSeq h x s).collEarly = s.collEarly ∧ (setSeq h x s).tileMem = s.tileMem ∧ (setSeq h x s).tileErr = s.tileErr ∧
    (setSeq h x s).fuses = s.fuses ∧ (setSeq h x s).repairs = s.repairs ∧ (setSeq h x s).tiles = s.tiles ∧
    (setSeq h x s).cubes = s.cubes ∧ (setSeq h x s).spares = s.spares ∧ (setSeq h x s).map = s.map ∧ (setSeq h x s).parts = s.parts ∧
    (setSeq h x s).lastJobs = s.lastJobs ∧ (setSeq h x s).queues = s.queues ∧ (setSeq h x s).regions = s.regions ∧
    (setSeq h x s).dbl = s.dbl ∧ (setSeq h x s).pcie = s.pcie ∧ (setSeq h x s).drayLast = s.drayLast ∧
    (setSeq h x s).drayWait = s.drayWait ∧ (setSeq h x s).active = s.active ∧ (setSeq h x s).standby = s.standby ∧
    (setSeq h x s).chans = s.chans ∧ (setSeq h x s).events = s.events ∧ (setSeq h x s).ctr = s.ctr ∧ (setSeq h x s).lc = s.lc ∧
    (setSeq h x s).vaults = s.vaults ∧ (setSeq h x s).rcpt = s.rcpt ∧ (setSeq h x s).power = s.power ∧
    (setSeq h x s).thermal = s.thermal ∧ (setSeq h x s).bu = s.bu ∧ (setSeq h x s).pins = s.pins ∧ (setSeq h x s).record = s.record ∧
    (setSeq h x s).mgmt = s.mgmt ∧ (setSeq h x s).tap = s.tap :=
  by repeat' first | exact rfl | constructor

@[simp] theorem setTile_fields {h : Nat} {x : Tile} :
    (setTile h x s).pending = s.pending ∧ (setTile h x s).freeCtr = s.freeCtr ∧ (setTile h x s).out = s.out ∧
    (setTile h x s).ret = s.ret ∧ (setTile h x s).quartz = s.quartz ∧ (setTile h x s).mem = s.mem ∧ (setTile h x s).flash = s.flash ∧
    (setTile h x s).poison = s.poison ∧ (setTile h x s).flashPoison = s.flashPoison ∧ (setTile h x s).lineErr = s.lineErr ∧
    (setTile h x s).exts = s.exts ∧ (setTile h x s).freeFrames = s.freeFrames ∧ (setTile h x s).tierWait = s.tierWait ∧
    (setTile h x s).hbmBuckets = s.hbmBuckets ∧ (setTile h x s).hbmRows = s.hbmRows ∧ (setTile h x s).deadCh = s.deadCh ∧
    (setTile h x s).wrc = s.wrc ∧ (setTile h x s).flBuckets = s.flBuckets ∧ (setTile h x s).flStacks = s.flStacks ∧
    (setTile h x s).sectors = s.sectors ∧ (setTile h x s).windows = s.windows ∧ (setTile h x s).tenders = s.tenders ∧
    (setTile h x s).dir = s.dir ∧ (setTile h x s).homes = s.homes ∧ (setTile h x s).reqWait = s.reqWait ∧
    (setTile h x s).harts = s.harts ∧ (setTile h x s).rfs = s.rfs ∧ (setTile h x s).links = s.links ∧ (setTile h x s).level = s.level ∧
    (setTile h x s).revs = s.revs ∧ (setTile h x s).degraded = s.degraded ∧ (setTile h x s).ports = s.ports ∧
    (setTile h x s).lasers = s.lasers ∧ (setTile h x s).route = s.route ∧ (setTile h x s).remote = s.remote ∧
    (setTile h x s).colls = s.colls ∧ (setTile h x s).collEarly = s.collEarly ∧ (setTile h x s).tileMem = s.tileMem ∧
    (setTile h x s).tileErr = s.tileErr ∧ (setTile h x s).fuses = s.fuses ∧ (setTile h x s).repairs = s.repairs ∧
    (setTile h x s).cubes = s.cubes ∧ (setTile h x s).spares = s.spares ∧ (setTile h x s).map = s.map ∧ (setTile h x s).parts = s.parts ∧
    (setTile h x s).lastJobs = s.lastJobs ∧ (setTile h x s).seqs = s.seqs ∧ (setTile h x s).queues = s.queues ∧
    (setTile h x s).regions = s.regions ∧ (setTile h x s).dbl = s.dbl ∧ (setTile h x s).pcie = s.pcie ∧
    (setTile h x s).drayLast = s.drayLast ∧ (setTile h x s).drayWait = s.drayWait ∧ (setTile h x s).active = s.active ∧
    (setTile h x s).standby = s.standby ∧ (setTile h x s).chans = s.chans ∧ (setTile h x s).events = s.events ∧
    (setTile h x s).ctr = s.ctr ∧ (setTile h x s).lc = s.lc ∧ (setTile h x s).vaults = s.vaults ∧ (setTile h x s).rcpt = s.rcpt ∧
    (setTile h x s).power = s.power ∧ (setTile h x s).thermal = s.thermal ∧ (setTile h x s).bu = s.bu ∧ (setTile h x s).pins = s.pins ∧
    (setTile h x s).record = s.record ∧ (setTile h x s).mgmt = s.mgmt ∧ (setTile h x s).tap = s.tap :=
  by repeat' first | exact rfl | constructor

@[simp] theorem setCube_fields {t h : Nat} {x : Cube} :
    (setCube t h x s).pending = s.pending ∧ (setCube t h x s).freeCtr = s.freeCtr ∧ (setCube t h x s).out = s.out ∧
    (setCube t h x s).ret = s.ret ∧ (setCube t h x s).quartz = s.quartz ∧ (setCube t h x s).mem = s.mem ∧
    (setCube t h x s).flash = s.flash ∧ (setCube t h x s).poison = s.poison ∧ (setCube t h x s).flashPoison = s.flashPoison ∧
    (setCube t h x s).lineErr = s.lineErr ∧ (setCube t h x s).exts = s.exts ∧ (setCube t h x s).freeFrames = s.freeFrames ∧
    (setCube t h x s).tierWait = s.tierWait ∧ (setCube t h x s).hbmBuckets = s.hbmBuckets ∧ (setCube t h x s).hbmRows = s.hbmRows ∧
    (setCube t h x s).deadCh = s.deadCh ∧ (setCube t h x s).wrc = s.wrc ∧ (setCube t h x s).flBuckets = s.flBuckets ∧
    (setCube t h x s).flStacks = s.flStacks ∧ (setCube t h x s).sectors = s.sectors ∧ (setCube t h x s).windows = s.windows ∧
    (setCube t h x s).tenders = s.tenders ∧ (setCube t h x s).dir = s.dir ∧ (setCube t h x s).homes = s.homes ∧
    (setCube t h x s).reqWait = s.reqWait ∧ (setCube t h x s).harts = s.harts ∧ (setCube t h x s).rfs = s.rfs ∧
    (setCube t h x s).links = s.links ∧ (setCube t h x s).level = s.level ∧ (setCube t h x s).revs = s.revs ∧
    (setCube t h x s).degraded = s.degraded ∧ (setCube t h x s).ports = s.ports ∧ (setCube t h x s).lasers = s.lasers ∧
    (setCube t h x s).route = s.route ∧ (setCube t h x s).remote = s.remote ∧ (setCube t h x s).colls = s.colls ∧
    (setCube t h x s).collEarly = s.collEarly ∧ (setCube t h x s).tileMem = s.tileMem ∧ (setCube t h x s).tileErr = s.tileErr ∧
    (setCube t h x s).fuses = s.fuses ∧ (setCube t h x s).repairs = s.repairs ∧ (setCube t h x s).tiles = s.tiles ∧
    (setCube t h x s).spares = s.spares ∧ (setCube t h x s).map = s.map ∧ (setCube t h x s).parts = s.parts ∧
    (setCube t h x s).lastJobs = s.lastJobs ∧ (setCube t h x s).seqs = s.seqs ∧ (setCube t h x s).queues = s.queues ∧
    (setCube t h x s).regions = s.regions ∧ (setCube t h x s).dbl = s.dbl ∧ (setCube t h x s).pcie = s.pcie ∧
    (setCube t h x s).drayLast = s.drayLast ∧ (setCube t h x s).drayWait = s.drayWait ∧ (setCube t h x s).active = s.active ∧
    (setCube t h x s).standby = s.standby ∧ (setCube t h x s).chans = s.chans ∧ (setCube t h x s).events = s.events ∧
    (setCube t h x s).ctr = s.ctr ∧ (setCube t h x s).lc = s.lc ∧ (setCube t h x s).vaults = s.vaults ∧ (setCube t h x s).rcpt = s.rcpt ∧
    (setCube t h x s).power = s.power ∧ (setCube t h x s).thermal = s.thermal ∧ (setCube t h x s).bu = s.bu ∧
    (setCube t h x s).pins = s.pins ∧ (setCube t h x s).record = s.record ∧ (setCube t h x s).mgmt = s.mgmt ∧
    (setCube t h x s).tap = s.tap :=
  by repeat' first | exact rfl | constructor

@[simp] theorem setPort_fields {h : Nat} {x : Port} :
    (setPort h x s).pending = s.pending ∧ (setPort h x s).freeCtr = s.freeCtr ∧ (setPort h x s).out = s.out ∧
    (setPort h x s).ret = s.ret ∧ (setPort h x s).quartz = s.quartz ∧ (setPort h x s).mem = s.mem ∧ (setPort h x s).flash = s.flash ∧
    (setPort h x s).poison = s.poison ∧ (setPort h x s).flashPoison = s.flashPoison ∧ (setPort h x s).lineErr = s.lineErr ∧
    (setPort h x s).exts = s.exts ∧ (setPort h x s).freeFrames = s.freeFrames ∧ (setPort h x s).tierWait = s.tierWait ∧
    (setPort h x s).hbmBuckets = s.hbmBuckets ∧ (setPort h x s).hbmRows = s.hbmRows ∧ (setPort h x s).deadCh = s.deadCh ∧
    (setPort h x s).wrc = s.wrc ∧ (setPort h x s).flBuckets = s.flBuckets ∧ (setPort h x s).flStacks = s.flStacks ∧
    (setPort h x s).sectors = s.sectors ∧ (setPort h x s).windows = s.windows ∧ (setPort h x s).tenders = s.tenders ∧
    (setPort h x s).dir = s.dir ∧ (setPort h x s).homes = s.homes ∧ (setPort h x s).reqWait = s.reqWait ∧
    (setPort h x s).harts = s.harts ∧ (setPort h x s).rfs = s.rfs ∧ (setPort h x s).links = s.links ∧ (setPort h x s).level = s.level ∧
    (setPort h x s).revs = s.revs ∧ (setPort h x s).degraded = s.degraded ∧ (setPort h x s).lasers = s.lasers ∧
    (setPort h x s).route = s.route ∧ (setPort h x s).remote = s.remote ∧ (setPort h x s).colls = s.colls ∧
    (setPort h x s).collEarly = s.collEarly ∧ (setPort h x s).tileMem = s.tileMem ∧ (setPort h x s).tileErr = s.tileErr ∧
    (setPort h x s).fuses = s.fuses ∧ (setPort h x s).repairs = s.repairs ∧ (setPort h x s).tiles = s.tiles ∧
    (setPort h x s).cubes = s.cubes ∧ (setPort h x s).spares = s.spares ∧ (setPort h x s).map = s.map ∧ (setPort h x s).parts = s.parts ∧
    (setPort h x s).lastJobs = s.lastJobs ∧ (setPort h x s).seqs = s.seqs ∧ (setPort h x s).queues = s.queues ∧
    (setPort h x s).regions = s.regions ∧ (setPort h x s).dbl = s.dbl ∧ (setPort h x s).pcie = s.pcie ∧
    (setPort h x s).drayLast = s.drayLast ∧ (setPort h x s).drayWait = s.drayWait ∧ (setPort h x s).active = s.active ∧
    (setPort h x s).standby = s.standby ∧ (setPort h x s).chans = s.chans ∧ (setPort h x s).events = s.events ∧
    (setPort h x s).ctr = s.ctr ∧ (setPort h x s).lc = s.lc ∧ (setPort h x s).vaults = s.vaults ∧ (setPort h x s).rcpt = s.rcpt ∧
    (setPort h x s).power = s.power ∧ (setPort h x s).thermal = s.thermal ∧ (setPort h x s).bu = s.bu ∧ (setPort h x s).pins = s.pins ∧
    (setPort h x s).record = s.record ∧ (setPort h x s).mgmt = s.mgmt ∧ (setPort h x s).tap = s.tap :=
  by repeat' first | exact rfl | constructor

@[simp] theorem setLink_fields {t h : Nat} {x : LinkDir} :
    (setLink t h x s).pending = s.pending ∧ (setLink t h x s).freeCtr = s.freeCtr ∧ (setLink t h x s).out = s.out ∧
    (setLink t h x s).ret = s.ret ∧ (setLink t h x s).quartz = s.quartz ∧ (setLink t h x s).mem = s.mem ∧
    (setLink t h x s).flash = s.flash ∧ (setLink t h x s).poison = s.poison ∧ (setLink t h x s).flashPoison = s.flashPoison ∧
    (setLink t h x s).lineErr = s.lineErr ∧ (setLink t h x s).exts = s.exts ∧ (setLink t h x s).freeFrames = s.freeFrames ∧
    (setLink t h x s).tierWait = s.tierWait ∧ (setLink t h x s).hbmBuckets = s.hbmBuckets ∧ (setLink t h x s).hbmRows = s.hbmRows ∧
    (setLink t h x s).deadCh = s.deadCh ∧ (setLink t h x s).wrc = s.wrc ∧ (setLink t h x s).flBuckets = s.flBuckets ∧
    (setLink t h x s).flStacks = s.flStacks ∧ (setLink t h x s).sectors = s.sectors ∧ (setLink t h x s).windows = s.windows ∧
    (setLink t h x s).tenders = s.tenders ∧ (setLink t h x s).dir = s.dir ∧ (setLink t h x s).homes = s.homes ∧
    (setLink t h x s).reqWait = s.reqWait ∧ (setLink t h x s).harts = s.harts ∧ (setLink t h x s).rfs = s.rfs ∧
    (setLink t h x s).level = s.level ∧ (setLink t h x s).revs = s.revs ∧ (setLink t h x s).degraded = s.degraded ∧
    (setLink t h x s).ports = s.ports ∧ (setLink t h x s).lasers = s.lasers ∧ (setLink t h x s).route = s.route ∧
    (setLink t h x s).remote = s.remote ∧ (setLink t h x s).colls = s.colls ∧ (setLink t h x s).collEarly = s.collEarly ∧
    (setLink t h x s).tileMem = s.tileMem ∧ (setLink t h x s).tileErr = s.tileErr ∧ (setLink t h x s).fuses = s.fuses ∧
    (setLink t h x s).repairs = s.repairs ∧ (setLink t h x s).tiles = s.tiles ∧ (setLink t h x s).cubes = s.cubes ∧
    (setLink t h x s).spares = s.spares ∧ (setLink t h x s).map = s.map ∧ (setLink t h x s).parts = s.parts ∧
    (setLink t h x s).lastJobs = s.lastJobs ∧ (setLink t h x s).seqs = s.seqs ∧ (setLink t h x s).queues = s.queues ∧
    (setLink t h x s).regions = s.regions ∧ (setLink t h x s).dbl = s.dbl ∧ (setLink t h x s).pcie = s.pcie ∧
    (setLink t h x s).drayLast = s.drayLast ∧ (setLink t h x s).drayWait = s.drayWait ∧ (setLink t h x s).active = s.active ∧
    (setLink t h x s).standby = s.standby ∧ (setLink t h x s).chans = s.chans ∧ (setLink t h x s).events = s.events ∧
    (setLink t h x s).ctr = s.ctr ∧ (setLink t h x s).lc = s.lc ∧ (setLink t h x s).vaults = s.vaults ∧ (setLink t h x s).rcpt = s.rcpt ∧
    (setLink t h x s).power = s.power ∧ (setLink t h x s).thermal = s.thermal ∧ (setLink t h x s).bu = s.bu ∧
    (setLink t h x s).pins = s.pins ∧ (setLink t h x s).record = s.record ∧ (setLink t h x s).mgmt = s.mgmt ∧
    (setLink t h x s).tap = s.tap :=
  by repeat' first | exact rfl | constructor

@[simp] theorem setHome_fields {h : Nat} {x : Home} :
    (setHome h x s).pending = s.pending ∧ (setHome h x s).freeCtr = s.freeCtr ∧ (setHome h x s).out = s.out ∧
    (setHome h x s).ret = s.ret ∧ (setHome h x s).quartz = s.quartz ∧ (setHome h x s).mem = s.mem ∧ (setHome h x s).flash = s.flash ∧
    (setHome h x s).poison = s.poison ∧ (setHome h x s).flashPoison = s.flashPoison ∧ (setHome h x s).lineErr = s.lineErr ∧
    (setHome h x s).exts = s.exts ∧ (setHome h x s).freeFrames = s.freeFrames ∧ (setHome h x s).tierWait = s.tierWait ∧
    (setHome h x s).hbmBuckets = s.hbmBuckets ∧ (setHome h x s).hbmRows = s.hbmRows ∧ (setHome h x s).deadCh = s.deadCh ∧
    (setHome h x s).wrc = s.wrc ∧ (setHome h x s).flBuckets = s.flBuckets ∧ (setHome h x s).flStacks = s.flStacks ∧
    (setHome h x s).sectors = s.sectors ∧ (setHome h x s).windows = s.windows ∧ (setHome h x s).tenders = s.tenders ∧
    (setHome h x s).dir = s.dir ∧ (setHome h x s).reqWait = s.reqWait ∧ (setHome h x s).harts = s.harts ∧ (setHome h x s).rfs = s.rfs ∧
    (setHome h x s).links = s.links ∧ (setHome h x s).level = s.level ∧ (setHome h x s).revs = s.revs ∧
    (setHome h x s).degraded = s.degraded ∧ (setHome h x s).ports = s.ports ∧ (setHome h x s).lasers = s.lasers ∧
    (setHome h x s).route = s.route ∧ (setHome h x s).remote = s.remote ∧ (setHome h x s).colls = s.colls ∧
    (setHome h x s).collEarly = s.collEarly ∧ (setHome h x s).tileMem = s.tileMem ∧ (setHome h x s).tileErr = s.tileErr ∧
    (setHome h x s).fuses = s.fuses ∧ (setHome h x s).repairs = s.repairs ∧ (setHome h x s).tiles = s.tiles ∧
    (setHome h x s).cubes = s.cubes ∧ (setHome h x s).spares = s.spares ∧ (setHome h x s).map = s.map ∧ (setHome h x s).parts = s.parts ∧
    (setHome h x s).lastJobs = s.lastJobs ∧ (setHome h x s).seqs = s.seqs ∧ (setHome h x s).queues = s.queues ∧
    (setHome h x s).regions = s.regions ∧ (setHome h x s).dbl = s.dbl ∧ (setHome h x s).pcie = s.pcie ∧
    (setHome h x s).drayLast = s.drayLast ∧ (setHome h x s).drayWait = s.drayWait ∧ (setHome h x s).active = s.active ∧
    (setHome h x s).standby = s.standby ∧ (setHome h x s).chans = s.chans ∧ (setHome h x s).events = s.events ∧
    (setHome h x s).ctr = s.ctr ∧ (setHome h x s).lc = s.lc ∧ (setHome h x s).vaults = s.vaults ∧ (setHome h x s).rcpt = s.rcpt ∧
    (setHome h x s).power = s.power ∧ (setHome h x s).thermal = s.thermal ∧ (setHome h x s).bu = s.bu ∧ (setHome h x s).pins = s.pins ∧
    (setHome h x s).record = s.record ∧ (setHome h x s).mgmt = s.mgmt ∧ (setHome h x s).tap = s.tap :=
  by repeat' first | exact rfl | constructor

@[simp] theorem setLine_fields {h : Nat} {x : Line} :
    (setLine h x s).pending = s.pending ∧ (setLine h x s).freeCtr = s.freeCtr ∧ (setLine h x s).out = s.out ∧
    (setLine h x s).ret = s.ret ∧ (setLine h x s).quartz = s.quartz ∧ (setLine h x s).mem = s.mem ∧ (setLine h x s).flash = s.flash ∧
    (setLine h x s).poison = s.poison ∧ (setLine h x s).flashPoison = s.flashPoison ∧ (setLine h x s).lineErr = s.lineErr ∧
    (setLine h x s).exts = s.exts ∧ (setLine h x s).freeFrames = s.freeFrames ∧ (setLine h x s).tierWait = s.tierWait ∧
    (setLine h x s).hbmBuckets = s.hbmBuckets ∧ (setLine h x s).hbmRows = s.hbmRows ∧ (setLine h x s).deadCh = s.deadCh ∧
    (setLine h x s).wrc = s.wrc ∧ (setLine h x s).flBuckets = s.flBuckets ∧ (setLine h x s).flStacks = s.flStacks ∧
    (setLine h x s).sectors = s.sectors ∧ (setLine h x s).windows = s.windows ∧ (setLine h x s).tenders = s.tenders ∧
    (setLine h x s).homes = s.homes ∧ (setLine h x s).reqWait = s.reqWait ∧ (setLine h x s).harts = s.harts ∧
    (setLine h x s).rfs = s.rfs ∧ (setLine h x s).links = s.links ∧ (setLine h x s).level = s.level ∧ (setLine h x s).revs = s.revs ∧
    (setLine h x s).degraded = s.degraded ∧ (setLine h x s).ports = s.ports ∧ (setLine h x s).lasers = s.lasers ∧
    (setLine h x s).route = s.route ∧ (setLine h x s).remote = s.remote ∧ (setLine h x s).colls = s.colls ∧
    (setLine h x s).collEarly = s.collEarly ∧ (setLine h x s).tileMem = s.tileMem ∧ (setLine h x s).tileErr = s.tileErr ∧
    (setLine h x s).fuses = s.fuses ∧ (setLine h x s).repairs = s.repairs ∧ (setLine h x s).tiles = s.tiles ∧
    (setLine h x s).cubes = s.cubes ∧ (setLine h x s).spares = s.spares ∧ (setLine h x s).map = s.map ∧ (setLine h x s).parts = s.parts ∧
    (setLine h x s).lastJobs = s.lastJobs ∧ (setLine h x s).seqs = s.seqs ∧ (setLine h x s).queues = s.queues ∧
    (setLine h x s).regions = s.regions ∧ (setLine h x s).dbl = s.dbl ∧ (setLine h x s).pcie = s.pcie ∧
    (setLine h x s).drayLast = s.drayLast ∧ (setLine h x s).drayWait = s.drayWait ∧ (setLine h x s).active = s.active ∧
    (setLine h x s).standby = s.standby ∧ (setLine h x s).chans = s.chans ∧ (setLine h x s).events = s.events ∧
    (setLine h x s).ctr = s.ctr ∧ (setLine h x s).lc = s.lc ∧ (setLine h x s).vaults = s.vaults ∧ (setLine h x s).rcpt = s.rcpt ∧
    (setLine h x s).power = s.power ∧ (setLine h x s).thermal = s.thermal ∧ (setLine h x s).bu = s.bu ∧ (setLine h x s).pins = s.pins ∧
    (setLine h x s).record = s.record ∧ (setLine h x s).mgmt = s.mgmt ∧ (setLine h x s).tap = s.tap :=
  by repeat' first | exact rfl | constructor

@[simp] theorem setStack_fields {h : Nat} {x : Stack} :
    (setStack h x s).pending = s.pending ∧ (setStack h x s).freeCtr = s.freeCtr ∧ (setStack h x s).out = s.out ∧
    (setStack h x s).ret = s.ret ∧ (setStack h x s).quartz = s.quartz ∧ (setStack h x s).mem = s.mem ∧ (setStack h x s).flash = s.flash ∧
    (setStack h x s).poison = s.poison ∧ (setStack h x s).flashPoison = s.flashPoison ∧ (setStack h x s).lineErr = s.lineErr ∧
    (setStack h x s).exts = s.exts ∧ (setStack h x s).freeFrames = s.freeFrames ∧ (setStack h x s).tierWait = s.tierWait ∧
    (setStack h x s).hbmBuckets = s.hbmBuckets ∧ (setStack h x s).hbmRows = s.hbmRows ∧ (setStack h x s).deadCh = s.deadCh ∧
    (setStack h x s).wrc = s.wrc ∧ (setStack h x s).flBuckets = s.flBuckets ∧ (setStack h x s).sectors = s.sectors ∧
    (setStack h x s).windows = s.windows ∧ (setStack h x s).tenders = s.tenders ∧ (setStack h x s).dir = s.dir ∧
    (setStack h x s).homes = s.homes ∧ (setStack h x s).reqWait = s.reqWait ∧ (setStack h x s).harts = s.harts ∧
    (setStack h x s).rfs = s.rfs ∧ (setStack h x s).links = s.links ∧ (setStack h x s).level = s.level ∧ (setStack h x s).revs = s.revs ∧
    (setStack h x s).degraded = s.degraded ∧ (setStack h x s).ports = s.ports ∧ (setStack h x s).lasers = s.lasers ∧
    (setStack h x s).route = s.route ∧ (setStack h x s).remote = s.remote ∧ (setStack h x s).colls = s.colls ∧
    (setStack h x s).collEarly = s.collEarly ∧ (setStack h x s).tileMem = s.tileMem ∧ (setStack h x s).tileErr = s.tileErr ∧
    (setStack h x s).fuses = s.fuses ∧ (setStack h x s).repairs = s.repairs ∧ (setStack h x s).tiles = s.tiles ∧
    (setStack h x s).cubes = s.cubes ∧ (setStack h x s).spares = s.spares ∧ (setStack h x s).map = s.map ∧
    (setStack h x s).parts = s.parts ∧ (setStack h x s).lastJobs = s.lastJobs ∧ (setStack h x s).seqs = s.seqs ∧
    (setStack h x s).queues = s.queues ∧ (setStack h x s).regions = s.regions ∧ (setStack h x s).dbl = s.dbl ∧
    (setStack h x s).pcie = s.pcie ∧ (setStack h x s).drayLast = s.drayLast ∧ (setStack h x s).drayWait = s.drayWait ∧
    (setStack h x s).active = s.active ∧ (setStack h x s).standby = s.standby ∧ (setStack h x s).chans = s.chans ∧
    (setStack h x s).events = s.events ∧ (setStack h x s).ctr = s.ctr ∧ (setStack h x s).lc = s.lc ∧ (setStack h x s).vaults = s.vaults ∧
    (setStack h x s).rcpt = s.rcpt ∧ (setStack h x s).power = s.power ∧ (setStack h x s).thermal = s.thermal ∧
    (setStack h x s).bu = s.bu ∧ (setStack h x s).pins = s.pins ∧ (setStack h x s).record = s.record ∧ (setStack h x s).mgmt = s.mgmt ∧
    (setStack h x s).tap = s.tap :=
  by repeat' first | exact rfl | constructor

@[simp] theorem setVault_fields {h : Nat} {x : Vault} :
    (setVault h x s).pending = s.pending ∧ (setVault h x s).freeCtr = s.freeCtr ∧ (setVault h x s).out = s.out ∧
    (setVault h x s).ret = s.ret ∧ (setVault h x s).quartz = s.quartz ∧ (setVault h x s).mem = s.mem ∧ (setVault h x s).flash = s.flash ∧
    (setVault h x s).poison = s.poison ∧ (setVault h x s).flashPoison = s.flashPoison ∧ (setVault h x s).lineErr = s.lineErr ∧
    (setVault h x s).exts = s.exts ∧ (setVault h x s).freeFrames = s.freeFrames ∧ (setVault h x s).tierWait = s.tierWait ∧
    (setVault h x s).hbmBuckets = s.hbmBuckets ∧ (setVault h x s).hbmRows = s.hbmRows ∧ (setVault h x s).deadCh = s.deadCh ∧
    (setVault h x s).wrc = s.wrc ∧ (setVault h x s).flBuckets = s.flBuckets ∧ (setVault h x s).flStacks = s.flStacks ∧
    (setVault h x s).sectors = s.sectors ∧ (setVault h x s).windows = s.windows ∧ (setVault h x s).tenders = s.tenders ∧
    (setVault h x s).dir = s.dir ∧ (setVault h x s).homes = s.homes ∧ (setVault h x s).reqWait = s.reqWait ∧
    (setVault h x s).harts = s.harts ∧ (setVault h x s).rfs = s.rfs ∧ (setVault h x s).links = s.links ∧
    (setVault h x s).level = s.level ∧ (setVault h x s).revs = s.revs ∧ (setVault h x s).degraded = s.degraded ∧
    (setVault h x s).ports = s.ports ∧ (setVault h x s).lasers = s.lasers ∧ (setVault h x s).route = s.route ∧
    (setVault h x s).remote = s.remote ∧ (setVault h x s).colls = s.colls ∧ (setVault h x s).collEarly = s.collEarly ∧
    (setVault h x s).tileMem = s.tileMem ∧ (setVault h x s).tileErr = s.tileErr ∧ (setVault h x s).fuses = s.fuses ∧
    (setVault h x s).repairs = s.repairs ∧ (setVault h x s).tiles = s.tiles ∧ (setVault h x s).cubes = s.cubes ∧
    (setVault h x s).spares = s.spares ∧ (setVault h x s).map = s.map ∧ (setVault h x s).parts = s.parts ∧
    (setVault h x s).lastJobs = s.lastJobs ∧ (setVault h x s).seqs = s.seqs ∧ (setVault h x s).queues = s.queues ∧
    (setVault h x s).regions = s.regions ∧ (setVault h x s).dbl = s.dbl ∧ (setVault h x s).pcie = s.pcie ∧
    (setVault h x s).drayLast = s.drayLast ∧ (setVault h x s).drayWait = s.drayWait ∧ (setVault h x s).active = s.active ∧
    (setVault h x s).standby = s.standby ∧ (setVault h x s).chans = s.chans ∧ (setVault h x s).events = s.events ∧
    (setVault h x s).ctr = s.ctr ∧ (setVault h x s).lc = s.lc ∧ (setVault h x s).rcpt = s.rcpt ∧ (setVault h x s).power = s.power ∧
    (setVault h x s).thermal = s.thermal ∧ (setVault h x s).bu = s.bu ∧ (setVault h x s).pins = s.pins ∧
    (setVault h x s).record = s.record ∧ (setVault h x s).mgmt = s.mgmt ∧ (setVault h x s).tap = s.tap :=
  by repeat' first | exact rfl | constructor

@[simp] theorem setMgmt_fields {h : Nat} {x : Mgmt} :
    (setMgmt h x s).pending = s.pending ∧ (setMgmt h x s).freeCtr = s.freeCtr ∧ (setMgmt h x s).out = s.out ∧
    (setMgmt h x s).ret = s.ret ∧ (setMgmt h x s).quartz = s.quartz ∧ (setMgmt h x s).mem = s.mem ∧ (setMgmt h x s).flash = s.flash ∧
    (setMgmt h x s).poison = s.poison ∧ (setMgmt h x s).flashPoison = s.flashPoison ∧ (setMgmt h x s).lineErr = s.lineErr ∧
    (setMgmt h x s).exts = s.exts ∧ (setMgmt h x s).freeFrames = s.freeFrames ∧ (setMgmt h x s).tierWait = s.tierWait ∧
    (setMgmt h x s).hbmBuckets = s.hbmBuckets ∧ (setMgmt h x s).hbmRows = s.hbmRows ∧ (setMgmt h x s).deadCh = s.deadCh ∧
    (setMgmt h x s).wrc = s.wrc ∧ (setMgmt h x s).flBuckets = s.flBuckets ∧ (setMgmt h x s).flStacks = s.flStacks ∧
    (setMgmt h x s).sectors = s.sectors ∧ (setMgmt h x s).windows = s.windows ∧ (setMgmt h x s).tenders = s.tenders ∧
    (setMgmt h x s).dir = s.dir ∧ (setMgmt h x s).homes = s.homes ∧ (setMgmt h x s).reqWait = s.reqWait ∧
    (setMgmt h x s).harts = s.harts ∧ (setMgmt h x s).rfs = s.rfs ∧ (setMgmt h x s).links = s.links ∧ (setMgmt h x s).level = s.level ∧
    (setMgmt h x s).revs = s.revs ∧ (setMgmt h x s).degraded = s.degraded ∧ (setMgmt h x s).ports = s.ports ∧
    (setMgmt h x s).lasers = s.lasers ∧ (setMgmt h x s).route = s.route ∧ (setMgmt h x s).remote = s.remote ∧
    (setMgmt h x s).colls = s.colls ∧ (setMgmt h x s).collEarly = s.collEarly ∧ (setMgmt h x s).tileMem = s.tileMem ∧
    (setMgmt h x s).tileErr = s.tileErr ∧ (setMgmt h x s).fuses = s.fuses ∧ (setMgmt h x s).repairs = s.repairs ∧
    (setMgmt h x s).tiles = s.tiles ∧ (setMgmt h x s).cubes = s.cubes ∧ (setMgmt h x s).spares = s.spares ∧ (setMgmt h x s).map = s.map ∧
    (setMgmt h x s).parts = s.parts ∧ (setMgmt h x s).lastJobs = s.lastJobs ∧ (setMgmt h x s).seqs = s.seqs ∧
    (setMgmt h x s).queues = s.queues ∧ (setMgmt h x s).regions = s.regions ∧ (setMgmt h x s).dbl = s.dbl ∧
    (setMgmt h x s).pcie = s.pcie ∧ (setMgmt h x s).drayLast = s.drayLast ∧ (setMgmt h x s).drayWait = s.drayWait ∧
    (setMgmt h x s).active = s.active ∧ (setMgmt h x s).standby = s.standby ∧ (setMgmt h x s).chans = s.chans ∧
    (setMgmt h x s).events = s.events ∧ (setMgmt h x s).ctr = s.ctr ∧ (setMgmt h x s).lc = s.lc ∧ (setMgmt h x s).vaults = s.vaults ∧
    (setMgmt h x s).rcpt = s.rcpt ∧ (setMgmt h x s).power = s.power ∧ (setMgmt h x s).thermal = s.thermal ∧ (setMgmt h x s).bu = s.bu ∧
    (setMgmt h x s).pins = s.pins ∧ (setMgmt h x s).record = s.record ∧ (setMgmt h x s).tap = s.tap :=
  by repeat' first | exact rfl | constructor

@[simp] theorem setRf_fields {h : Nat} {x : RangeFlush} :
    (setRf h x s).pending = s.pending ∧ (setRf h x s).freeCtr = s.freeCtr ∧ (setRf h x s).out = s.out ∧ (setRf h x s).ret = s.ret ∧
    (setRf h x s).quartz = s.quartz ∧ (setRf h x s).mem = s.mem ∧ (setRf h x s).flash = s.flash ∧ (setRf h x s).poison = s.poison ∧
    (setRf h x s).flashPoison = s.flashPoison ∧ (setRf h x s).lineErr = s.lineErr ∧ (setRf h x s).exts = s.exts ∧
    (setRf h x s).freeFrames = s.freeFrames ∧ (setRf h x s).tierWait = s.tierWait ∧ (setRf h x s).hbmBuckets = s.hbmBuckets ∧
    (setRf h x s).hbmRows = s.hbmRows ∧ (setRf h x s).deadCh = s.deadCh ∧ (setRf h x s).wrc = s.wrc ∧
    (setRf h x s).flBuckets = s.flBuckets ∧ (setRf h x s).flStacks = s.flStacks ∧ (setRf h x s).sectors = s.sectors ∧
    (setRf h x s).windows = s.windows ∧ (setRf h x s).tenders = s.tenders ∧ (setRf h x s).dir = s.dir ∧ (setRf h x s).homes = s.homes ∧
    (setRf h x s).reqWait = s.reqWait ∧ (setRf h x s).harts = s.harts ∧ (setRf h x s).links = s.links ∧ (setRf h x s).level = s.level ∧
    (setRf h x s).revs = s.revs ∧ (setRf h x s).degraded = s.degraded ∧ (setRf h x s).ports = s.ports ∧ (setRf h x s).lasers = s.lasers ∧
    (setRf h x s).route = s.route ∧ (setRf h x s).remote = s.remote ∧ (setRf h x s).colls = s.colls ∧
    (setRf h x s).collEarly = s.collEarly ∧ (setRf h x s).tileMem = s.tileMem ∧ (setRf h x s).tileErr = s.tileErr ∧
    (setRf h x s).fuses = s.fuses ∧ (setRf h x s).repairs = s.repairs ∧ (setRf h x s).tiles = s.tiles ∧ (setRf h x s).cubes = s.cubes ∧
    (setRf h x s).spares = s.spares ∧ (setRf h x s).map = s.map ∧ (setRf h x s).parts = s.parts ∧ (setRf h x s).lastJobs = s.lastJobs ∧
    (setRf h x s).seqs = s.seqs ∧ (setRf h x s).queues = s.queues ∧ (setRf h x s).regions = s.regions ∧ (setRf h x s).dbl = s.dbl ∧
    (setRf h x s).pcie = s.pcie ∧ (setRf h x s).drayLast = s.drayLast ∧ (setRf h x s).drayWait = s.drayWait ∧
    (setRf h x s).active = s.active ∧ (setRf h x s).standby = s.standby ∧ (setRf h x s).chans = s.chans ∧
    (setRf h x s).events = s.events ∧ (setRf h x s).ctr = s.ctr ∧ (setRf h x s).lc = s.lc ∧ (setRf h x s).vaults = s.vaults ∧
    (setRf h x s).rcpt = s.rcpt ∧ (setRf h x s).power = s.power ∧ (setRf h x s).thermal = s.thermal ∧ (setRf h x s).bu = s.bu ∧
    (setRf h x s).pins = s.pins ∧ (setRf h x s).record = s.record ∧ (setRf h x s).mgmt = s.mgmt ∧ (setRf h x s).tap = s.tap :=
  by repeat' first | exact rfl | constructor

@[simp] theorem setExt_fields {h : Nat} {x : Ext} :
    (setExt h x s).pending = s.pending ∧ (setExt h x s).freeCtr = s.freeCtr ∧ (setExt h x s).out = s.out ∧ (setExt h x s).ret = s.ret ∧
    (setExt h x s).quartz = s.quartz ∧ (setExt h x s).mem = s.mem ∧ (setExt h x s).flash = s.flash ∧ (setExt h x s).poison = s.poison ∧
    (setExt h x s).flashPoison = s.flashPoison ∧ (setExt h x s).lineErr = s.lineErr ∧ (setExt h x s).freeFrames = s.freeFrames ∧
    (setExt h x s).tierWait = s.tierWait ∧ (setExt h x s).hbmBuckets = s.hbmBuckets ∧ (setExt h x s).hbmRows = s.hbmRows ∧
    (setExt h x s).deadCh = s.deadCh ∧ (setExt h x s).wrc = s.wrc ∧ (setExt h x s).flBuckets = s.flBuckets ∧
    (setExt h x s).flStacks = s.flStacks ∧ (setExt h x s).sectors = s.sectors ∧ (setExt h x s).windows = s.windows ∧
    (setExt h x s).tenders = s.tenders ∧ (setExt h x s).dir = s.dir ∧ (setExt h x s).homes = s.homes ∧
    (setExt h x s).reqWait = s.reqWait ∧ (setExt h x s).harts = s.harts ∧ (setExt h x s).rfs = s.rfs ∧ (setExt h x s).links = s.links ∧
    (setExt h x s).level = s.level ∧ (setExt h x s).revs = s.revs ∧ (setExt h x s).degraded = s.degraded ∧
    (setExt h x s).ports = s.ports ∧ (setExt h x s).lasers = s.lasers ∧ (setExt h x s).route = s.route ∧
    (setExt h x s).remote = s.remote ∧ (setExt h x s).colls = s.colls ∧ (setExt h x s).collEarly = s.collEarly ∧
    (setExt h x s).tileMem = s.tileMem ∧ (setExt h x s).tileErr = s.tileErr ∧ (setExt h x s).fuses = s.fuses ∧
    (setExt h x s).repairs = s.repairs ∧ (setExt h x s).tiles = s.tiles ∧ (setExt h x s).cubes = s.cubes ∧
    (setExt h x s).spares = s.spares ∧ (setExt h x s).map = s.map ∧ (setExt h x s).parts = s.parts ∧
    (setExt h x s).lastJobs = s.lastJobs ∧ (setExt h x s).seqs = s.seqs ∧ (setExt h x s).queues = s.queues ∧
    (setExt h x s).regions = s.regions ∧ (setExt h x s).dbl = s.dbl ∧ (setExt h x s).pcie = s.pcie ∧
    (setExt h x s).drayLast = s.drayLast ∧ (setExt h x s).drayWait = s.drayWait ∧ (setExt h x s).active = s.active ∧
    (setExt h x s).standby = s.standby ∧ (setExt h x s).chans = s.chans ∧ (setExt h x s).events = s.events ∧ (setExt h x s).ctr = s.ctr ∧
    (setExt h x s).lc = s.lc ∧ (setExt h x s).vaults = s.vaults ∧ (setExt h x s).rcpt = s.rcpt ∧ (setExt h x s).power = s.power ∧
    (setExt h x s).thermal = s.thermal ∧ (setExt h x s).bu = s.bu ∧ (setExt h x s).pins = s.pins ∧ (setExt h x s).record = s.record ∧
    (setExt h x s).mgmt = s.mgmt ∧ (setExt h x s).tap = s.tap :=
  by repeat' first | exact rfl | constructor

@[simp] theorem advance_fields {h : Nat} :
    (advance h s).pending = s.pending ∧ (advance h s).freeCtr = s.freeCtr ∧ (advance h s).out = s.out ∧ (advance h s).ret = s.ret ∧
    (advance h s).mem = s.mem ∧ (advance h s).flash = s.flash ∧ (advance h s).poison = s.poison ∧
    (advance h s).flashPoison = s.flashPoison ∧ (advance h s).lineErr = s.lineErr ∧ (advance h s).exts = s.exts ∧
    (advance h s).freeFrames = s.freeFrames ∧ (advance h s).tierWait = s.tierWait ∧ (advance h s).hbmBuckets = s.hbmBuckets ∧
    (advance h s).hbmRows = s.hbmRows ∧ (advance h s).deadCh = s.deadCh ∧ (advance h s).wrc = s.wrc ∧
    (advance h s).flBuckets = s.flBuckets ∧ (advance h s).flStacks = s.flStacks ∧ (advance h s).sectors = s.sectors ∧
    (advance h s).windows = s.windows ∧ (advance h s).tenders = s.tenders ∧ (advance h s).dir = s.dir ∧ (advance h s).homes = s.homes ∧
    (advance h s).reqWait = s.reqWait ∧ (advance h s).harts = s.harts ∧ (advance h s).rfs = s.rfs ∧ (advance h s).links = s.links ∧
    (advance h s).level = s.level ∧ (advance h s).revs = s.revs ∧ (advance h s).degraded = s.degraded ∧ (advance h s).ports = s.ports ∧
    (advance h s).lasers = s.lasers ∧ (advance h s).route = s.route ∧ (advance h s).remote = s.remote ∧ (advance h s).colls = s.colls ∧
    (advance h s).collEarly = s.collEarly ∧ (advance h s).tileMem = s.tileMem ∧ (advance h s).tileErr = s.tileErr ∧
    (advance h s).fuses = s.fuses ∧ (advance h s).repairs = s.repairs ∧ (advance h s).tiles = s.tiles ∧ (advance h s).cubes = s.cubes ∧
    (advance h s).spares = s.spares ∧ (advance h s).map = s.map ∧ (advance h s).parts = s.parts ∧ (advance h s).lastJobs = s.lastJobs ∧
    (advance h s).seqs = s.seqs ∧ (advance h s).queues = s.queues ∧ (advance h s).regions = s.regions ∧ (advance h s).dbl = s.dbl ∧
    (advance h s).pcie = s.pcie ∧ (advance h s).drayLast = s.drayLast ∧ (advance h s).drayWait = s.drayWait ∧
    (advance h s).active = s.active ∧ (advance h s).standby = s.standby ∧ (advance h s).chans = s.chans ∧
    (advance h s).events = s.events ∧ (advance h s).ctr = s.ctr ∧ (advance h s).lc = s.lc ∧ (advance h s).vaults = s.vaults ∧
    (advance h s).rcpt = s.rcpt ∧ (advance h s).power = s.power ∧ (advance h s).thermal = s.thermal ∧ (advance h s).bu = s.bu ∧
    (advance h s).pins = s.pins ∧ (advance h s).record = s.record ∧ (advance h s).mgmt = s.mgmt ∧ (advance h s).tap = s.tap :=
  by repeat' first | exact rfl | constructor

@[simp] theorem tick_fields :
    (tick s).pending = s.pending ∧ (tick s).freeCtr = s.freeCtr ∧ (tick s).out = s.out ∧ (tick s).ret = s.ret ∧ (tick s).mem = s.mem ∧
    (tick s).flash = s.flash ∧ (tick s).poison = s.poison ∧ (tick s).flashPoison = s.flashPoison ∧ (tick s).lineErr = s.lineErr ∧
    (tick s).exts = s.exts ∧ (tick s).freeFrames = s.freeFrames ∧ (tick s).tierWait = s.tierWait ∧ (tick s).hbmBuckets = s.hbmBuckets ∧
    (tick s).hbmRows = s.hbmRows ∧ (tick s).deadCh = s.deadCh ∧ (tick s).wrc = s.wrc ∧ (tick s).flBuckets = s.flBuckets ∧
    (tick s).flStacks = s.flStacks ∧ (tick s).sectors = s.sectors ∧ (tick s).windows = s.windows ∧ (tick s).tenders = s.tenders ∧
    (tick s).dir = s.dir ∧ (tick s).homes = s.homes ∧ (tick s).reqWait = s.reqWait ∧ (tick s).harts = s.harts ∧ (tick s).rfs = s.rfs ∧
    (tick s).links = s.links ∧ (tick s).level = s.level ∧ (tick s).revs = s.revs ∧ (tick s).degraded = s.degraded ∧
    (tick s).ports = s.ports ∧ (tick s).lasers = s.lasers ∧ (tick s).route = s.route ∧ (tick s).remote = s.remote ∧
    (tick s).colls = s.colls ∧ (tick s).collEarly = s.collEarly ∧ (tick s).tileMem = s.tileMem ∧ (tick s).tileErr = s.tileErr ∧
    (tick s).fuses = s.fuses ∧ (tick s).repairs = s.repairs ∧ (tick s).tiles = s.tiles ∧ (tick s).cubes = s.cubes ∧
    (tick s).spares = s.spares ∧ (tick s).map = s.map ∧ (tick s).parts = s.parts ∧ (tick s).lastJobs = s.lastJobs ∧
    (tick s).seqs = s.seqs ∧ (tick s).queues = s.queues ∧ (tick s).regions = s.regions ∧ (tick s).dbl = s.dbl ∧ (tick s).pcie = s.pcie ∧
    (tick s).drayLast = s.drayLast ∧ (tick s).drayWait = s.drayWait ∧ (tick s).active = s.active ∧ (tick s).standby = s.standby ∧
    (tick s).chans = s.chans ∧ (tick s).events = s.events ∧ (tick s).ctr = s.ctr ∧ (tick s).lc = s.lc ∧ (tick s).vaults = s.vaults ∧
    (tick s).rcpt = s.rcpt ∧ (tick s).power = s.power ∧ (tick s).thermal = s.thermal ∧ (tick s).bu = s.bu ∧ (tick s).pins = s.pins ∧
    (tick s).record = s.record ∧ (tick s).mgmt = s.mgmt ∧ (tick s).tap = s.tap :=
  by repeat' first | exact rfl | constructor

@[simp] theorem send_fields {o : Out} :
    (send o s).pending = s.pending ∧ (send o s).freeCtr = s.freeCtr ∧ (send o s).ret = s.ret ∧ (send o s).quartz = s.quartz ∧
    (send o s).mem = s.mem ∧ (send o s).flash = s.flash ∧ (send o s).poison = s.poison ∧ (send o s).flashPoison = s.flashPoison ∧
    (send o s).lineErr = s.lineErr ∧ (send o s).exts = s.exts ∧ (send o s).freeFrames = s.freeFrames ∧ (send o s).tierWait = s.tierWait ∧
    (send o s).hbmBuckets = s.hbmBuckets ∧ (send o s).hbmRows = s.hbmRows ∧ (send o s).deadCh = s.deadCh ∧ (send o s).wrc = s.wrc ∧
    (send o s).flBuckets = s.flBuckets ∧ (send o s).flStacks = s.flStacks ∧ (send o s).sectors = s.sectors ∧
    (send o s).windows = s.windows ∧ (send o s).tenders = s.tenders ∧ (send o s).dir = s.dir ∧ (send o s).homes = s.homes ∧
    (send o s).reqWait = s.reqWait ∧ (send o s).harts = s.harts ∧ (send o s).rfs = s.rfs ∧ (send o s).links = s.links ∧
    (send o s).level = s.level ∧ (send o s).revs = s.revs ∧ (send o s).degraded = s.degraded ∧ (send o s).ports = s.ports ∧
    (send o s).lasers = s.lasers ∧ (send o s).route = s.route ∧ (send o s).remote = s.remote ∧ (send o s).colls = s.colls ∧
    (send o s).collEarly = s.collEarly ∧ (send o s).tileMem = s.tileMem ∧ (send o s).tileErr = s.tileErr ∧ (send o s).fuses = s.fuses ∧
    (send o s).repairs = s.repairs ∧ (send o s).tiles = s.tiles ∧ (send o s).cubes = s.cubes ∧ (send o s).spares = s.spares ∧
    (send o s).map = s.map ∧ (send o s).parts = s.parts ∧ (send o s).lastJobs = s.lastJobs ∧ (send o s).seqs = s.seqs ∧
    (send o s).queues = s.queues ∧ (send o s).regions = s.regions ∧ (send o s).dbl = s.dbl ∧ (send o s).pcie = s.pcie ∧
    (send o s).drayLast = s.drayLast ∧ (send o s).drayWait = s.drayWait ∧ (send o s).active = s.active ∧ (send o s).standby = s.standby ∧
    (send o s).chans = s.chans ∧ (send o s).events = s.events ∧ (send o s).ctr = s.ctr ∧ (send o s).lc = s.lc ∧
    (send o s).vaults = s.vaults ∧ (send o s).rcpt = s.rcpt ∧ (send o s).power = s.power ∧ (send o s).thermal = s.thermal ∧
    (send o s).bu = s.bu ∧ (send o s).pins = s.pins ∧ (send o s).record = s.record ∧ (send o s).mgmt = s.mgmt ∧ (send o s).tap = s.tap :=
  by repeat' first | exact rfl | constructor

@[simp] theorem recordEntry_fields {e : RecEntry} :
    (recordEntry e s).pending = s.pending ∧ (recordEntry e s).freeCtr = s.freeCtr ∧ (recordEntry e s).out = s.out ∧
    (recordEntry e s).ret = s.ret ∧ (recordEntry e s).quartz = s.quartz ∧ (recordEntry e s).mem = s.mem ∧
    (recordEntry e s).flash = s.flash ∧ (recordEntry e s).poison = s.poison ∧ (recordEntry e s).flashPoison = s.flashPoison ∧
    (recordEntry e s).lineErr = s.lineErr ∧ (recordEntry e s).exts = s.exts ∧ (recordEntry e s).freeFrames = s.freeFrames ∧
    (recordEntry e s).tierWait = s.tierWait ∧ (recordEntry e s).hbmBuckets = s.hbmBuckets ∧ (recordEntry e s).hbmRows = s.hbmRows ∧
    (recordEntry e s).deadCh = s.deadCh ∧ (recordEntry e s).wrc = s.wrc ∧ (recordEntry e s).flBuckets = s.flBuckets ∧
    (recordEntry e s).flStacks = s.flStacks ∧ (recordEntry e s).sectors = s.sectors ∧ (recordEntry e s).windows = s.windows ∧
    (recordEntry e s).tenders = s.tenders ∧ (recordEntry e s).dir = s.dir ∧ (recordEntry e s).homes = s.homes ∧
    (recordEntry e s).reqWait = s.reqWait ∧ (recordEntry e s).harts = s.harts ∧ (recordEntry e s).rfs = s.rfs ∧
    (recordEntry e s).links = s.links ∧ (recordEntry e s).level = s.level ∧ (recordEntry e s).revs = s.revs ∧
    (recordEntry e s).degraded = s.degraded ∧ (recordEntry e s).ports = s.ports ∧ (recordEntry e s).lasers = s.lasers ∧
    (recordEntry e s).route = s.route ∧ (recordEntry e s).remote = s.remote ∧ (recordEntry e s).colls = s.colls ∧
    (recordEntry e s).collEarly = s.collEarly ∧ (recordEntry e s).tileMem = s.tileMem ∧ (recordEntry e s).tileErr = s.tileErr ∧
    (recordEntry e s).fuses = s.fuses ∧ (recordEntry e s).repairs = s.repairs ∧ (recordEntry e s).tiles = s.tiles ∧
    (recordEntry e s).cubes = s.cubes ∧ (recordEntry e s).spares = s.spares ∧ (recordEntry e s).map = s.map ∧
    (recordEntry e s).parts = s.parts ∧ (recordEntry e s).lastJobs = s.lastJobs ∧ (recordEntry e s).seqs = s.seqs ∧
    (recordEntry e s).queues = s.queues ∧ (recordEntry e s).regions = s.regions ∧ (recordEntry e s).dbl = s.dbl ∧
    (recordEntry e s).pcie = s.pcie ∧ (recordEntry e s).drayLast = s.drayLast ∧ (recordEntry e s).drayWait = s.drayWait ∧
    (recordEntry e s).active = s.active ∧ (recordEntry e s).standby = s.standby ∧ (recordEntry e s).chans = s.chans ∧
    (recordEntry e s).events = s.events ∧ (recordEntry e s).ctr = s.ctr ∧ (recordEntry e s).lc = s.lc ∧
    (recordEntry e s).vaults = s.vaults ∧ (recordEntry e s).rcpt = s.rcpt ∧ (recordEntry e s).power = s.power ∧
    (recordEntry e s).thermal = s.thermal ∧ (recordEntry e s).bu = s.bu ∧ (recordEntry e s).pins = s.pins ∧
    (recordEntry e s).mgmt = s.mgmt ∧ (recordEntry e s).tap = s.tap :=
  by repeat' first | exact rfl | constructor

@[simp] theorem bump_fields {i k n : Nat} :
    (bump i k n s).pending = s.pending ∧ (bump i k n s).freeCtr = s.freeCtr ∧ (bump i k n s).out = s.out ∧ (bump i k n s).ret = s.ret ∧
    (bump i k n s).quartz = s.quartz ∧ (bump i k n s).mem = s.mem ∧ (bump i k n s).flash = s.flash ∧ (bump i k n s).poison = s.poison ∧
    (bump i k n s).flashPoison = s.flashPoison ∧ (bump i k n s).lineErr = s.lineErr ∧ (bump i k n s).exts = s.exts ∧
    (bump i k n s).freeFrames = s.freeFrames ∧ (bump i k n s).tierWait = s.tierWait ∧ (bump i k n s).hbmBuckets = s.hbmBuckets ∧
    (bump i k n s).hbmRows = s.hbmRows ∧ (bump i k n s).deadCh = s.deadCh ∧ (bump i k n s).wrc = s.wrc ∧
    (bump i k n s).flBuckets = s.flBuckets ∧ (bump i k n s).flStacks = s.flStacks ∧ (bump i k n s).sectors = s.sectors ∧
    (bump i k n s).windows = s.windows ∧ (bump i k n s).tenders = s.tenders ∧ (bump i k n s).dir = s.dir ∧
    (bump i k n s).homes = s.homes ∧ (bump i k n s).reqWait = s.reqWait ∧ (bump i k n s).harts = s.harts ∧ (bump i k n s).rfs = s.rfs ∧
    (bump i k n s).links = s.links ∧ (bump i k n s).level = s.level ∧ (bump i k n s).revs = s.revs ∧
    (bump i k n s).degraded = s.degraded ∧ (bump i k n s).ports = s.ports ∧ (bump i k n s).lasers = s.lasers ∧
    (bump i k n s).route = s.route ∧ (bump i k n s).remote = s.remote ∧ (bump i k n s).colls = s.colls ∧
    (bump i k n s).collEarly = s.collEarly ∧ (bump i k n s).tileMem = s.tileMem ∧ (bump i k n s).tileErr = s.tileErr ∧
    (bump i k n s).fuses = s.fuses ∧ (bump i k n s).repairs = s.repairs ∧ (bump i k n s).tiles = s.tiles ∧
    (bump i k n s).cubes = s.cubes ∧ (bump i k n s).spares = s.spares ∧ (bump i k n s).map = s.map ∧ (bump i k n s).parts = s.parts ∧
    (bump i k n s).lastJobs = s.lastJobs ∧ (bump i k n s).seqs = s.seqs ∧ (bump i k n s).queues = s.queues ∧
    (bump i k n s).regions = s.regions ∧ (bump i k n s).dbl = s.dbl ∧ (bump i k n s).pcie = s.pcie ∧
    (bump i k n s).drayLast = s.drayLast ∧ (bump i k n s).drayWait = s.drayWait ∧ (bump i k n s).active = s.active ∧
    (bump i k n s).standby = s.standby ∧ (bump i k n s).chans = s.chans ∧ (bump i k n s).events = s.events ∧ (bump i k n s).lc = s.lc ∧
    (bump i k n s).vaults = s.vaults ∧ (bump i k n s).rcpt = s.rcpt ∧ (bump i k n s).power = s.power ∧
    (bump i k n s).thermal = s.thermal ∧ (bump i k n s).bu = s.bu ∧ (bump i k n s).pins = s.pins ∧ (bump i k n s).record = s.record ∧
    (bump i k n s).mgmt = s.mgmt ∧ (bump i k n s).tap = s.tap :=
  by repeat' first | exact rfl | constructor

/-! ### Accessors -/

@[simp] theorem hartOf_setHart {h : Nat} {x : Hart} : hartOf (setHart h x s) h = x := tblGet_set_same

theorem hartOf_setHart_ne {h k : Nat} {x : Hart} (e : k ≠ h) : hartOf (setHart h x s) k = hartOf s k := tblGet_set_ne e

@[simp] theorem setHart_setHart {h : Nat} {x y : Hart} : setHart h x (setHart h y s) = setHart h x s := by simp [setHart]

@[simp] theorem queueOf_setQueue {h : Nat} {x : QCtx} : queueOf (setQueue h x s) h = x := tblGet_set_same

theorem queueOf_setQueue_ne {h k : Nat} {x : QCtx} (e : k ≠ h) : queueOf (setQueue h x s) k = queueOf s k := tblGet_set_ne e

@[simp] theorem setQueue_setQueue {h : Nat} {x y : QCtx} : setQueue h x (setQueue h y s) = setQueue h x s := by simp [setQueue]

@[simp] theorem regionOf_setRegion {h : Nat} {x : Region} : regionOf (setRegion h x s) h = x := tblGet_set_same

theorem regionOf_setRegion_ne {h k : Nat} {x : Region} (e : k ≠ h) : regionOf (setRegion h x s) k = regionOf s k := tblGet_set_ne e

@[simp] theorem setRegion_setRegion {h : Nat} {x y : Region} : setRegion h x (setRegion h y s) = setRegion h x s := by simp [setRegion]

@[simp] theorem chanOf_setChan {h : Nat} {x : Chan} : chanOf (setChan h x s) h = x := tblGet_set_same

theorem chanOf_setChan_ne {h k : Nat} {x : Chan} (e : k ≠ h) : chanOf (setChan h x s) k = chanOf s k := tblGet_set_ne e

@[simp] theorem setChan_setChan {h : Nat} {x y : Chan} : setChan h x (setChan h y s) = setChan h x s := by simp [setChan]

@[simp] theorem partOf_setPart {h : Nat} {x : Part} : partOf (setPart h x s) h = x := tblGet_set_same

theorem partOf_setPart_ne {h k : Nat} {x : Part} (e : k ≠ h) : partOf (setPart h x s) k = partOf s k := tblGet_set_ne e

@[simp] theorem setPart_setPart {h : Nat} {x y : Part} : setPart h x (setPart h y s) = setPart h x s := by simp [setPart]

@[simp] theorem seqOf_setSeq {h : Nat} {x : Seq} : seqOf (setSeq h x s) h = x := tblGet_set_same

theorem seqOf_setSeq_ne {h k : Nat} {x : Seq} (e : k ≠ h) : seqOf (setSeq h x s) k = seqOf s k := tblGet_set_ne e

@[simp] theorem setSeq_setSeq {h : Nat} {x y : Seq} : setSeq h x (setSeq h y s) = setSeq h x s := by simp [setSeq]

@[simp] theorem tileOf_setTile {h : Nat} {x : Tile} : tileOf (setTile h x s) h = x := tblGet_set_same

theorem tileOf_setTile_ne {h k : Nat} {x : Tile} (e : k ≠ h) : tileOf (setTile h x s) k = tileOf s k := tblGet_set_ne e

@[simp] theorem setTile_setTile {h : Nat} {x y : Tile} : setTile h x (setTile h y s) = setTile h x s := by simp [setTile]

@[simp] theorem portOf_setPort {h : Nat} {x : Port} : portOf (setPort h x s) h = x := tblGet_set_same

theorem portOf_setPort_ne {h k : Nat} {x : Port} (e : k ≠ h) : portOf (setPort h x s) k = portOf s k := tblGet_set_ne e

@[simp] theorem setPort_setPort {h : Nat} {x y : Port} : setPort h x (setPort h y s) = setPort h x s := by simp [setPort]

@[simp] theorem homeOf_setHome {h : Nat} {x : Home} : homeOf (setHome h x s) h = x := tblGet_set_same

theorem homeOf_setHome_ne {h k : Nat} {x : Home} (e : k ≠ h) : homeOf (setHome h x s) k = homeOf s k := tblGet_set_ne e

@[simp] theorem setHome_setHome {h : Nat} {x y : Home} : setHome h x (setHome h y s) = setHome h x s := by simp [setHome]

@[simp] theorem lineOf_setLine {h : Nat} {x : Line} : lineOf (setLine h x s) h = x := tblGet_set_same

theorem lineOf_setLine_ne {h k : Nat} {x : Line} (e : k ≠ h) : lineOf (setLine h x s) k = lineOf s k := tblGet_set_ne e

@[simp] theorem setLine_setLine {h : Nat} {x y : Line} : setLine h x (setLine h y s) = setLine h x s := by simp [setLine]

@[simp] theorem stackOf_setStack {h : Nat} {x : Stack} : stackOf (setStack h x s) h = x := tblGet_set_same

theorem stackOf_setStack_ne {h k : Nat} {x : Stack} (e : k ≠ h) : stackOf (setStack h x s) k = stackOf s k := tblGet_set_ne e

@[simp] theorem setStack_setStack {h : Nat} {x y : Stack} : setStack h x (setStack h y s) = setStack h x s := by simp [setStack]

@[simp] theorem vaultOf_setVault {h : Nat} {x : Vault} : vaultOf (setVault h x s) h = x := tblGet_set_same

theorem vaultOf_setVault_ne {h k : Nat} {x : Vault} (e : k ≠ h) : vaultOf (setVault h x s) k = vaultOf s k := tblGet_set_ne e

@[simp] theorem setVault_setVault {h : Nat} {x y : Vault} : setVault h x (setVault h y s) = setVault h x s := by simp [setVault]

@[simp] theorem mgmtOf_setMgmt {h : Nat} {x : Mgmt} : mgmtOf (setMgmt h x s) h = x := tblGet_set_same

theorem mgmtOf_setMgmt_ne {h k : Nat} {x : Mgmt} (e : k ≠ h) : mgmtOf (setMgmt h x s) k = mgmtOf s k := tblGet_set_ne e

@[simp] theorem setMgmt_setMgmt {h : Nat} {x y : Mgmt} : setMgmt h x (setMgmt h y s) = setMgmt h x s := by simp [setMgmt]

@[simp] theorem rfOf_setRf {h : Nat} {x : RangeFlush} : rfOf (setRf h x s) h = x := tblGet_set_same

theorem rfOf_setRf_ne {h k : Nat} {x : RangeFlush} (e : k ≠ h) : rfOf (setRf h x s) k = rfOf s k := tblGet_set_ne e

@[simp] theorem setRf_setRf {h : Nat} {x y : RangeFlush} : setRf h x (setRf h y s) = setRf h x s := by simp [setRf]

@[simp] theorem extOf_setExt {h : Nat} {x : Ext} : extOf (setExt h x s) h = x := by simp [extOf, setExt]

theorem extOf_setExt_ne {h k : Nat} {x : Ext} (e : k ≠ h) : extOf (setExt h x s) k = extOf s k := by simp [extOf, setExt, tblGet?_set_ne e]

end Sys2Proof.Machine
end

