-- ==== Sys2Proof/Laws/Memory.lean ====
section
/-! SUPPORT. What a write of memory changes, and what the coherent and the direct path do to one line. -/

namespace Sys2Proof.Machine

variable {s : State}

/-! ### Bytes of the UMR -/

theorem foldl_exts {f : State → Nat → State} (hf : ∀ s x, ∃ e, f s x = { s with exts := e }) {l : List Nat} :
    ∃ e, l.foldl f s = { s with exts := e } := by
  induction l generalizing s with
  | nil => exact ⟨s.exts, rfl⟩
  | cons a t ih =>
    obtain ⟨e, he⟩ := hf s a
    obtain ⟨e', he'⟩ := @ih (f s a)
    exact ⟨e', by rw [List.foldl_cons, he', he]⟩

/-- An age stamp changes the extent table alone. -/
theorem touchExt_eq {x : Nat} : ∃ e, touchExt x s = { s with exts := e } := by
  unfold touchExt
  dsimp only
  split
  · exact ⟨_, rfl⟩
  · exact ⟨s.exts, rfl⟩

theorem touch_eq {a n : Nat} : ∃ e, touch a n s = { s with exts := e } := foldl_exts (fun _ _ => touchExt_eq)

theorem markDirty_eq {a n : Nat} : ∃ e, markDirty a n s = { s with exts := e } := foldl_exts (fun _ _ => ⟨_, rfl⟩)

/-- A write of memory changes the bytes, the extents' dirty maps and stamps, and the poison and stored errors that it clears. -/
theorem poke_eq {a : Nat} {bs : List Byte} : ∃ e, poke a bs s = { s with
    mem := memWrite s.mem a bs, exts := e, poison := s.poison.filter (fun l => !overlap (l * 64) 64 a bs.length),
    lineErr := s.lineErr.filter (fun e => !overlap (e.1 * 64) 64 a bs.length) } := by
  unfold poke
  obtain ⟨e, he⟩ := @markDirty_eq { s with mem := memWrite s.mem a bs } a bs.length
  obtain ⟨e', he'⟩ := @touch_eq (clearPoison a bs.length (markDirty a bs.length { s with mem := memWrite s.mem a bs })) a bs.length
  refine ⟨e', ?_⟩
  rw [he', he]
  rfl

@[simp] theorem poke_mem {a : Nat} {bs : List Byte} : (poke a bs s).mem = memWrite s.mem a bs := by
  obtain ⟨e, h⟩ := @poke_eq s a bs
  rw [h]

/-- The bytes that a write puts are read back. -/
@[simp] theorem peek_poke {a : Nat} {bs : List Byte} : peek (poke a bs s) a bs.length = bs := by
  unfold peek
  rw [poke_mem]
  exact memRead_write

/-- Every other byte reads as before. -/
theorem peek_poke_out {a b n : Nat} {bs : List Byte} (h : b + n ≤ a ∨ a + bs.length ≤ b) : peek (poke a bs s) b n = peek s b n := by
  unfold peek
  rw [poke_mem]
  exact memRead_write_out h

/-! ### A line that no cache holds and no direct write awaits -/

theorem writeBackLine_clean {l : Nat} (h : (lineOf s l).dirty = false) : writeBackLine l s = s := by
  unfold writeBackLine
  dsimp only
  split
  · rename_i hd _
    rw [h] at hd
    cases hd
  · rfl

theorem lineOf_none {l : Nat} (h : tblGet? s.dir l = none) : lineOf s l = {} := by simp [lineOf, tblGet, h]

theorem invalidateLine_none {l : Nat} (h : tblGet? s.dir l = none) : invalidateLine l s = s := by
  unfold invalidateLine
  rw [h]
  rfl

theorem waitHold_none {l : Nat} (h : tblGet? s.dir l = none) : waitHold l s = s := by
  unfold waitHold
  rw [lineOf_none h]
  rfl

theorem drainLine_none {l : Nat} (h : (homeOf s (homeNum s (l * 64))).dbuf.any (fun w => decide (w.addr / 64 = l)) = false) :
    drainLine l s = s := by
  unfold drainLine
  dsimp only
  rw [h]
  rfl

/-- Release records and read-ahead copies are the homes'. -/
theorem dropAhead_eq {l : Nat} : ∃ h, dropAhead l s = { s with homes := h } := by
  unfold dropAhead
  dsimp only
  split
  · exact ⟨_, rfl⟩
  · exact ⟨s.homes, rfl⟩

theorem forgetRelease_eq {l : Nat} : ∃ h, forgetRelease l s = { s with homes := h } := by
  unfold forgetRelease
  dsimp only
  split
  · exact ⟨_, rfl⟩
  · exact ⟨s.homes, rfl⟩

theorem recordRelease_eq {l : Nat} {sc : Scope} {r : Requester} {d : Bool} : ∃ h, recordRelease l sc r d s = { s with homes := h } := ⟨_, rfl⟩

/-- A write performed at the home of such a line puts the bytes in memory and changes the homes' records. -/
theorem homeWrite_free {r : Requester} {l off : Nat} {d : List Byte} {rel : Option Scope} (h1 : tblGet? s.dir l = none)
    (h2 : (homeOf s (homeNum s (l * 64))).dbuf.any (fun w => decide (w.addr / 64 = l)) = false) :
    ∃ h, homeWrite r l off d rel s = { poke (l * 64 + off) d s with homes := h } := by
  unfold homeWrite
  dsimp only
  rw [invalidateLine_none h1, drainLine_none h2]
  cases rel with
  | none => exact forgetRelease_eq
  | some sc =>
    have key : ∀ b : Bool, ∃ h, recordRelease l sc r false (if b then dropAhead l (poke (l * 64 + off) d s) else poke (l * 64 + off) d s) =
        { poke (l * 64 + off) d s with homes := h } := by
      intro b
      cases b
      · exact ⟨_, rfl⟩
      · obtain ⟨h, e⟩ := @dropAhead_eq (poke (l * 64 + off) d s) l
        rw [if_pos rfl, e]
        exact ⟨_, rfl⟩
    exact key _

/-- The lines of a range inside one line. -/
theorem linesOf_one {a n : Nat} (h0 : 0 < n) (h : a / 64 = (a + n - 1) / 64) : linesOf a n = [a / 64] := by
  unfold linesOf
  rw [if_neg (by omega), ← h]
  have : a / 64 + 1 - a / 64 = 1 := by omega
  rw [this]
  simp

/-- A range inside one line is that line's part of itself. -/
theorem linePart_one {a : Nat} {d : List Byte} (h0 : 0 < d.length) (h : a / 64 = (a + d.length - 1) / 64) :
    linePart a d (a / 64) = (a % 64, d) := by
  unfold linePart
  have h1 : max a (a / 64 * 64) = a := by omega
  have h2 : min (a + d.length) (a / 64 * 64 + 64) = a + d.length := by omega
  dsimp only
  rw [h1, h2]
  have h3 : a - a / 64 * 64 = a % 64 := by omega
  have h4 : a + d.length - a = d.length := by omega
  rw [h3, h4]
  simp

end Sys2Proof.Machine
end

