-- ==== Sys2Proof/Laws/Coherence.lean ====
section
/-! SUPPORT. The laws of lines and extents: what touching an extent, fetching a line, patching it, writing it back and losing
reservations leave as it was, and what a granted write leaves. -/

namespace Sys2Proof.Machine

/-- An access within one line lies in one extent. -/
theorem extsOf_one {a n : Nat} (h0 : 0 < n) (h : a / 64 = (a + n - 1) / 64) : extsOf a n = [a / extSize] := by
  unfold extsOf extSize
  rw [if_neg (by omega)]
  have : (a + n - 1) / 0x200000 + 1 - a / 0x200000 = 1 := by omega
  rw [this]
  simp

/-- A touch changes no map of dirty sectors, and no other extent. -/
theorem touchExt_ext {x y : Nat} {s : State} : (extOf (touchExt x s) y).dirty = (extOf s y).dirty ∧ (y ≠ x → extOf (touchExt x s) y = extOf s y) := by
  unfold touchExt
  dsimp only
  split
  · by_cases h : y = x
    · subst h; simp
    · simp [extOf_setExt_ne h]
  · simp

/-- A line at its home is 64 bytes. -/
theorem homeLine_length {s : State} {l : Nat} : (homeLine s l).length = 64 := by
  unfold homeLine
  generalize List.filter _ _ = ws
  have : (peek s (l * 64) 64).length = 64 := memRead_length
  revert this
  generalize peek s (l * 64) 64 = x
  induction ws generalizing x with
  | nil => exact id
  | cons w t ih =>
    intro hx
    rw [List.foldl_cons]
    apply ih
    unfold overlayWrite
    rw [List.length_mapIdx, hx]

/-- A patch keeps the length. -/
theorem patch_length {v d : List Byte} {off : Nat} (h : off + d.length ≤ v.length) : (patch v off d).length = v.length := by
  unfold patch; simp; omega

/-- A patch is read back. -/
theorem patch_part {v d : List Byte} {off : Nat} (h : off + d.length ≤ v.length) : ((patch v off d).drop off).take d.length = d := by
  unfold patch
  rw [List.append_assoc, List.drop_append_of_le_length (by simp; omega), List.drop_of_length_le (by simp)]
  simp

/-- Marking sectors dirty leaves the directory and the harts. -/
theorem markDirty_fields {a n : Nat} {s : State} : (markDirty a n s).dir = s.dir ∧ (markDirty a n s).harts = s.harts := by
  obtain ⟨e, h⟩ := @markDirty_eq s a n
  rw [h]; exact ⟨rfl, rfl⟩

/-- A line is what the directory holds of it. -/
theorem lineOf_dir {s t : State} {l : Nat} (h : s.dir = t.dir) : lineOf s l = lineOf t l := by unfold lineOf; rw [h]

/-- Losing reservations leaves the directory. -/
theorem loseReservations_dir {l : Nat} {k : Option Nat} {s : State} : (loseReservations l k s).dir = s.dir := by
  unfold loseReservations; split <;> rfl

/-- Two states have the same directory and harts. -/
def SameLines (s t : State) : Prop := t.dir = s.dir ∧ t.harts = s.harts

theorem SameLines.trans {s t u : State} (h : SameLines s t) (k : SameLines t u) : SameLines s u := ⟨k.1.trans h.1, k.2.trans h.2⟩

theorem SameLines.foldl {α : Type} {f : State → α → State} (hf : ∀ s x, SameLines s (f s x)) {xs : List α} :
    ∀ {s : State}, SameLines s (xs.foldl f s) := by
  induction xs with
  | nil => exact ⟨rfl, rfl⟩
  | cons x t ih => exact (hf _ _).trans ih

/-- What the controller does about an error leaves the directory and the harts. -/
theorem actOnError_same {l : Nat} {o : EccOutcome} {s : State} : SameLines s (actOnError l o s) := by
  unfold actOnError
  extract_lets s1
  have h1 : SameLines s s1 := ⟨rfl, rfl⟩
  clear_value s1
  split
  · split
    · exact ⟨rfl, rfl⟩
    · refine h1.trans ?_
      apply SameLines.foldl
      intro u i
      exact ⟨rfl, rfl⟩
  · refine h1.trans ?_
    unfold hbmCorrected
    dsimp only
    split <;> split <;> exact ⟨rfl, rfl⟩
  · exact h1.trans ⟨rfl, rfl⟩

theorem meetError_same {l : Nat} {s : State} : SameLines s (meetError l s) := by
  unfold meetError
  split
  · exact actOnError_same
  · exact ⟨rfl, rfl⟩

/-- A fetch leaves the directory and the harts. -/
theorem lineFetch_eq {l : Nat} {s : State} : SameLines s (lineFetch l s) := by
  unfold lineFetch
  split
  · refine SameLines.trans ?_ meetError_same
    obtain ⟨e, h⟩ := @touchExt_eq s (l / 32768)
    rw [h]; exact ⟨rfl, rfl⟩
  · unfold arrayRead
    dsimp only
    split <;> exact ⟨rfl, rfl⟩

/-- A write of memory bytes leaves the directory and the harts. -/
theorem poke_same {a : Nat} {bs : List Byte} {s : State} : SameLines s (poke a bs s) := by
  obtain ⟨e, h⟩ := @poke_eq s a bs
  rw [h]; exact ⟨rfl, rfl⟩

theorem forgetRelease_same {l : Nat} {s : State} : SameLines s (forgetRelease l s) := by
  unfold forgetRelease; dsimp only; split <;> exact ⟨rfl, rfl⟩

/-- A write-back puts the line's entry, with the same copies, where it was, and leaves the harts. -/
theorem writeBackLine_dir {l : Nat} {s : State} : (writeBackLine l s).harts = s.harts ∧
    ((writeBackLine l s).dir = s.dir ∨ (writeBackLine l s).dir = (setLine l { lineOf s l with dirty := false, owner := none, tag := none, clash := false } s).dir) := by
  unfold writeBackLine
  dsimp only
  split
  · refine (fun (h : SameLines (setLine l { lineOf s l with dirty := false, owner := none, tag := none, clash := false } s) _) => ⟨h.2, .inr h.1⟩) ?_
    have fin : ∀ (u t : State) (b : Bool), SameLines u t → SameLines u (match (lineOf s l).tag with
        | some (sc, h) => if b = true then recordRelease l sc (.hart h) false t else t
        | none => if b = true then forgetRelease l t else t) := by
      intro u t b h
      split
      · split
        · exact h.trans ⟨rfl, rfl⟩
        · exact h
      · split
        · exact h.trans forgetRelease_same
        · exact h
    refine fin _ _ _ ?_
    split <;> split <;> first | exact ⟨rfl, rfl⟩ | (refine SameLines.trans ?_ poke_same; exact ⟨rfl, rfl⟩)
  · exact ⟨rfl, .inl rfl⟩

/-- A write-back leaves the copies of the line and the harts. -/
theorem writeBackLine_copies {l : Nat} {s : State} : (lineOf (writeBackLine l s) l).copies = (lineOf s l).copies ∧ (writeBackLine l s).harts = s.harts := by
  refine ⟨?_, writeBackLine_dir.1⟩
  rcases (@writeBackLine_dir l s).2 with h | h <;> rw [lineOf, h]
  · rfl
  · simp [setLine]

/-- A write-back of one line leaves every other. -/
theorem writeBackLine_other {l k : Nat} {s : State} (hk : k ≠ l) : lineOf (writeBackLine l s) k = lineOf s k := by
  rcases (@writeBackLine_dir l s).2 with h | h <;> rw [lineOf, h]
  · rfl
  · simp [setLine, lineOf, tblGet_set_ne hk]

/-- An invalidation of one line leaves every other. -/
theorem invalidateLine_other {l k : Nat} {s : State} (hk : k ≠ l) : lineOf (invalidateLine l s) k = lineOf s k := by
  have hw : lineOf (waitHold l s) k = lineOf s k := by unfold waitHold; split <;> rfl
  have hb : lineOf (writeBackLine l (waitHold l s)) k = lineOf s k := by rw [writeBackLine_other hk, hw]
  unfold invalidateLine
  split
  · dsimp only
    rw [lineOf_dir loseReservations_dir]
    split
    · rw [lineOf, ← hb, lineOf]; exact tblGet_del_ne hk
    · rw [← hb]; simp [setLine, lineOf, tblGet_set_ne hk]
  · rfl

/-- Making room for an entry leaves the line it is for. -/
theorem makeRoom_line {l : Nat} {s : State} : lineOf (makeRoom l s) l = lineOf s l := by
  unfold makeRoom
  split
  · rfl
  · rename_i h0
    dsimp only
    split
    · rfl
    · rename_i h1
      rw [invalidateLine_other]
      · rfl
      · intro he
        generalize hls : (dirLines s (homeNum s (l * 64))).filter (fun k => decide (k ≠ l)) = ls at he h1
        have hl : (draw s).1.toNat % ls.length < ls.length := Nat.mod_lt _ (List.length_pos_iff.2 (by intro h; simp [h] at h1))
        rw [List.getD_eq_getElem _ _ hl] at he
        have hm : l ∈ ls := he ▸ List.getElem_mem hl
        rw [← hls] at hm
        simp at hm

/-- A map that keeps the keys maps what is found. -/
theorem tblGet?_map {α : Type} {f : Nat × α → Nat × α} (hf : ∀ e, (f e).1 = e.1) {t : Tbl α} {k : Nat} :
    tblGet? (t.map f) k = (tblGet? t k).map (fun v => (f (k, v)).2) := by
  induction t with
  | nil => rfl
  | cons a t ih =>
    rw [List.map_cons]
    unfold tblGet?
    have : f a = (a.1, (f a).2) := by rw [← hf a]
    rw [this]
    dsimp only
    by_cases h : a.1 = k
    · subst h; simp
    · simp [h, ih]

/-- Of a line whose reservations are lost to all but one hart, no other hart holds one. -/
theorem resv_lost {s : State} {l h k : Nat} (hk : k ≠ h) : (hartOf (loseReservations l (some h) s) k).resv ≠ some l := by
  unfold loseReservations
  split
  · unfold hartOf tblGet
    dsimp only
    rw [tblGet?_map (fun e => by split <;> rfl)]
    cases hq : tblGet? s.harts k with
    | none => simp
    | some y =>
      simp only [Option.map_some, Option.getD_some]
      by_cases hr : y.resv = some l
      · simp [hr, hk]
      · simp [hr]
  · rename_i hn
    unfold hartOf tblGet
    cases hq : tblGet? s.harts k with
    | none => simp
    | some y =>
      simp only [Option.getD_some]
      intro hr
      apply hn
      rw [List.any_eq_true]
      have : ∀ t : Tbl Hart, tblGet? t k = some y → (k, y) ∈ t := by
        intro t
        induction t with
        | nil => intro h; cases h
        | cons a t ih =>
          unfold tblGet?
          intro h
          split at h
          · cases h; rename_i e; subst e; simp
          · exact List.mem_cons_of_mem _ (ih h)
      exact ⟨(k, y), this _ hq, by simp [hr, hk]⟩

/-- Clearing poison leaves the directory and the harts. -/
theorem clearPoison_fields {a n : Nat} {s : State} : (clearPoison a n s).dir = s.dir ∧ (clearPoison a n s).harts = s.harts := ⟨rfl, rfl⟩

/-- A granted write leaves the hart as the one owner, with its bytes patched in. -/
theorem grantWrite_line {h l : Nat} {s : State} (hc : ∀ e ∈ (lineOf s l).copies, e.2.length = 64) :
    ((lineOf (grantWrite h l s) l).owner = some h) ∧ (∀ v, tblGet? (lineOf (grantWrite h l s) l).copies h = some v → v.length = 64) ∧
    ((lineOf s l).owner ≠ some h → (∃ v, (lineOf (grantWrite h l s) l).copies = [(h, v)]) ∧ ∀ k, k ≠ h → (hartOf (grantWrite h l s) k).resv ≠ some l) := by
  have mem : ∀ (t : Tbl (List Byte)) h v, tblGet? t h = some v → (h, v) ∈ t := by
    intro t h v
    induction t with
    | nil => intro h; cases h
    | cons a t ih =>
      unfold tblGet?
      intro h
      split at h
      · cases h; rename_i e; subst e; simp
      · exact List.mem_cons_of_mem _ (ih h)
  unfold grantWrite
  dsimp only
  split
  · rename_i ho
    have ho : (lineOf s l).owner = some h := by simpa using ho
    exact ⟨ho, fun v hv => hc _ (mem _ _ _ hv), fun hn => absurd ho hn⟩
  · rename_i ho
    have ho : (lineOf s l).owner ≠ some h := by simpa using ho
    generalize hs1 : (if (lineOf s l).copies.any (fun e => decide (e.1 ≠ h)) then waitHold l (makeRoom l s) else makeRoom l s) = s1
    have hs1c : (lineOf s1 l).copies = (lineOf s l).copies := by
      rw [← hs1]; split
      · unfold waitHold; split
        · rw [makeRoom_line]
        · show (lineOf (makeRoom l s) l).copies = _
          rw [makeRoom_line]
      · rw [makeRoom_line]
    generalize hs2 : writeBackLine l s1 = s2
    have hs2c : (lineOf s2 l).copies = (lineOf s l).copies := by rw [← hs2, writeBackLine_copies.1, hs1c]
    generalize how : ((tblGet? (lineOf s2 l).copies h).orElse (fun _ => nearCopy (lineOf s2 l) h)) = own
    have hown : ∀ v, own = some v → v.length = 64 := by
      intro v hv
      rw [← how] at hv
      cases hq : tblGet? (lineOf s2 l).copies h with
      | some w => rw [hq] at hv; cases hv; exact hc _ (hs2c ▸ mem _ _ _ hq)
      | none => rw [hq] at hv; exact hc _ (hs2c ▸ mem _ _ _ (show tblGet? (lineOf s2 l).copies (l3Of h) = some v from hv))
    generalize hs3 : (if own.isSome then s2 else lineFetch l s2) = s3
    generalize hdat : own.getD (homeLine s3 l) = data
    have hlen : data.length = 64 := by
      rw [← hdat]
      cases hq : own with
      | none => exact homeLine_length
      | some v => exact hown v hq
    generalize hold : (if (own.isSome && setHas (lineOf s2 l).stale (if (tblGet? (lineOf s2 l).copies h).isSome = true then h else l3Of h)) = true then [h] else []) = st
    generalize hx : ({ lineOf s2 l with copies := [(h, data)], owner := some h, overflow := false, hold := now s3 + 40, tag := none, stale := st } : Line) = x
    have hd : ∀ u, SameLines u (clearPoison (l * 64) 64 (markDirty (l * 64) 64 u)) := by
      intro u; exact ⟨(clearPoison_fields.1).trans markDirty_fields.1, (clearPoison_fields.2).trans markDirty_fields.2⟩
    have hl : lineOf (clearPoison (l * 64) 64 (markDirty (l * 64) 64 (loseReservations l (some h) (setLine l x s3)))) l = x := by
      rw [lineOf_dir (hd _).1, lineOf_dir loseReservations_dir]; simp
    rw [hl, ← hx]
    refine ⟨rfl, fun v hv => ?_, fun _ => ⟨⟨data, rfl⟩, fun k hk => ?_⟩⟩
    · simp [tblGet?] at hv; rw [← hv]; exact hlen
    · show (tblGet {} (clearPoison (l * 64) 64 (markDirty (l * 64) 64 _)).harts k).resv ≠ some l
      rw [(hd _).2]; exact resv_lost hk

/-- An address of the direct path is its UMR address above the base of the aperture. -/
theorem classify_direct {a u : Nat} (h : classify a = .direct u) : a = directBase + u ∧ u < umrEnd := by
  unfold classify at h
  split at h
  · exact Space.noConfusion h
  · split at h
    · rename_i hc
      injection h with h
      simp only [Bool.and_eq_true, decide_eq_true_eq] at hc
      omega
    · repeat' split at h
      all_goals exact Space.noConfusion h

/-- The last pending write lies over the others. -/
theorem overlay_foldl {l : Nat} {x : List Byte} {ws : List DWrite} {w : DWrite} : (ws ++ [w]).foldl (overlayWrite l) x = overlayWrite l (ws.foldl (overlayWrite l) x) w := by
  simp

end Sys2Proof.Machine
end

