-- ==== Sys2Proof/Laws/Exec.lean ====
section
/-! SUPPORT. One law for each command: where the term is one, `exec` answers the next state that its effect gives. -/

namespace Sys2Proof.Machine

theorem onWf_next {i : Instr} {t : State} (h : i.wellFormed = true) : onWf i t = .next t := if_pos h

variable {s : State}

theorem exec_versionHello {ch : Nat} {hdr : Word} {pl : List Word} (h : (Instr.versionHello ch hdr pl).wellFormed = true) :
    exec (.versionHello ch hdr pl) s = .next (submit (runCommand {}) 0x0001 ch (.go hdr pl) s) := onWf_next h

theorem exec_partCreate {ch : Nat} {hdr : Word} {pl : List Word} (h : (Instr.partCreate ch hdr pl).wellFormed = true) :
    exec (.partCreate ch hdr pl) s = .next (submit (runCommand {}) 0x0010 ch (.go hdr pl) s) := onWf_next h

theorem exec_partDissolve {ch : Nat} {hdr : Word} {pl : List Word} (h : (Instr.partDissolve ch hdr pl).wellFormed = true) :
    exec (.partDissolve ch hdr pl) s = .next (submit (runCommand {}) 0x0011 ch (.go hdr pl) s) := onWf_next h

theorem exec_slateInstall {ch : Nat} {hdr : Word} {pl : List Word} (h : (Instr.slateInstall ch hdr pl).wellFormed = true) :
    exec (.slateInstall ch hdr pl) s = .next (submit (runCommand {}) 0x0020 ch (.go hdr pl) s) := onWf_next h

theorem exec_jobOpen {ch : Nat} {hdr : Word} {pl : List Word} (h : (Instr.jobOpen ch hdr pl).wellFormed = true) :
    exec (.jobOpen ch hdr pl) s = .next (submit (runCommand {}) 0x0021 ch (.go hdr pl) s) := onWf_next h

theorem exec_jobClose {ch : Nat} {hdr : Word} {pl : List Word} (h : (Instr.jobClose ch hdr pl).wellFormed = true) :
    exec (.jobClose ch hdr pl) s = .next (submit (runCommand {}) 0x0022 ch (.go hdr pl) s) := onWf_next h

theorem exec_sealModel {ch : Nat} {hdr : Word} {pl : List Word} (h : (Instr.sealModel ch hdr pl).wellFormed = true) :
    exec (.sealModel ch hdr pl) s = .next (submit (runCommand {}) 0x0030 ch (.go hdr pl) s) := onWf_next h

theorem exec_tileRetire {ch : Nat} {sub : Submission} (h : (Instr.tileRetire ch sub).wellFormed = true) :
    exec (.tileRetire ch sub) s = .next (submit (runCommand {}) 0x0040 ch sub s) := onWf_next h

theorem exec_telemetryRead {ch : Nat} {hdr : Word} {pl : List Word} (h : (Instr.telemetryRead ch hdr pl).wellFormed = true) :
    exec (.telemetryRead ch hdr pl) s = .next (submit (runCommand {}) 0x0050 ch (.go hdr pl) s) := onWf_next h

theorem exec_clampReportRead {ch : Nat} {hdr : Word} {pl : List Word} (h : (Instr.clampReportRead ch hdr pl).wellFormed = true) :
    exec (.clampReportRead ch hdr pl) s = .next (submit (runCommand {}) 0x0051 ch (.go hdr pl) s) := onWf_next h

theorem exec_receiptFetch {ch : Nat} {hdr : Word} {pl : List Word} (h : (Instr.receiptFetch ch hdr pl).wellFormed = true) :
    exec (.receiptFetch ch hdr pl) s = .next (submit (runCommand {}) 0x0060 ch (.go hdr pl) s) := onWf_next h

theorem exec_routeInstall {ch : Nat} {hdr : Word} {pl : List Word} (h : (Instr.routeInstall ch hdr pl).wellFormed = true) :
    exec (.routeInstall ch hdr pl) s = .next (submit (runCommand {}) 0x0070 ch (.go hdr pl) s) := onWf_next h

theorem exec_powerSet {ch : Nat} {hdr : Word} {pl : List Word} (h : (Instr.powerSet ch hdr pl).wellFormed = true) :
    exec (.powerSet ch hdr pl) s = .next (submit (runCommand {}) 0x0080 ch (.go hdr pl) s) := onWf_next h

theorem exec_powerDown {ch : Nat} {sub : Submission} (h : (Instr.powerDown ch sub).wellFormed = true) :
    exec (.powerDown ch sub) s = .next (submit (runCommand {}) 0x0081 ch sub s) := onWf_next h

theorem exec_reset {ch : Nat} {sub : Submission} (h : (Instr.reset ch sub).wellFormed = true) :
    exec (.reset ch sub) s = .next (resetRow {} false ch sub s) := onWf_next h

theorem exec_packageReset {ch : Nat} {sub : Submission} {t : SelfTest} (h : (Instr.packageReset ch sub t).wellFormed = true) :
    exec (.packageReset ch sub t) s = .next (resetRow t true ch sub s) := onWf_next h

theorem exec_lifecycleAdvance {ch : Nat} {hdr : Word} {pl : List Word} {t : SelfTest} (h : (Instr.lifecycleAdvance ch hdr pl
    t).wellFormed = true) :
    exec (.lifecycleAdvance ch hdr pl t) s = .next (lifecycleRow t 1 ch hdr pl s) := onWf_next h

theorem exec_lifecycleStage {ch : Nat} {hdr : Word} {pl : List Word} (h : (Instr.lifecycleStage ch hdr pl).wellFormed = true) :
    exec (.lifecycleStage ch hdr pl) s = .next (lifecycleRow {} 2 ch hdr pl s) := onWf_next h

theorem exec_lifecycleCommit {ch : Nat} {hdr : Word} {pl : List Word} (h : (Instr.lifecycleCommit ch hdr pl).wellFormed = true) :
    exec (.lifecycleCommit ch hdr pl) s = .next (lifecycleRow {} 3 ch hdr pl s) := onWf_next h

theorem exec_cbxAck {ch : Nat} {acc : Acc} {v : Word} (h : (Instr.cbxAck ch acc v).wellFormed = true) :
    exec (.cbxAck ch acc v) s = .next (ackWrite ch acc v.toNat s) := onWf_next h

theorem exec_cbxIrqWrite {ch : Nat} {acc : Acc} {v : Word} (h : (Instr.cbxIrqWrite ch acc v).wellFormed = true) :
    exec (.cbxIrqWrite ch acc v) s = .next (irqWrite ch acc v.toNat s) := onWf_next h

theorem exec_cbxDiscardsRead {hart rd ch : Nat} {acc : Acc} (h : (Instr.cbxDiscardsRead hart rd ch acc).wellFormed = true) :
    exec (.cbxDiscardsRead hart rd ch acc) s = .next (rcRead hart rd (0x2000 * ch + 0x1030) acc s) := onWf_next h

theorem exec_standbyTakeover {t : SelfTest} (h : (Instr.standbyTakeover t).wellFormed = true) :
    exec (.standbyTakeover t) s = .next (takeoverEffect t s) := onWf_next h

theorem exec_registerWrite {hart : Nat} {tgt : RegTarget} {v : Word} (h : (Instr.registerWrite hart tgt v).wellFormed = true) :
    exec (.registerWrite hart tgt v) s = .next (issueIns hart (.registerWrite hart tgt v) s) := onWf_next h

theorem exec_queueEnable {q : Nat} {acc : Acc} {v : Word} (h : (Instr.queueEnable q acc v).wellFormed = true) :
    exec (.queueEnable q acc v) s = .next (queueEnableEffect q acc v.toNat s) := onWf_next h

theorem exec_queueDisable {q : Nat} {acc : Acc} {v : Word} (h : (Instr.queueDisable q acc v).wellFormed = true) :
    exec (.queueDisable q acc v) s = .next (queueDisableEffect q acc v.toNat s) := onWf_next h

theorem exec_regionValidate {r : Nat} {acc : Acc} {v : Word} (h : (Instr.regionValidate r acc v).wellFormed = true) :
    exec (.regionValidate r acc v) s = .next (regionValidateEffect r acc v.toNat s) := onWf_next h

theorem exec_regionInvalidate {r : Nat} {acc : Acc} {v : Word} (h : (Instr.regionInvalidate r acc v).wellFormed = true) :
    exec (.regionInvalidate r acc v) s = .next (regionInvalidateEffect r acc v.toNat s) := onWf_next h

theorem exec_qtzLoad {acc : Acc} {v : Word} (h : (Instr.qtzLoad acc v).wellFormed = true) :
    exec (.qtzLoad acc v) s = .next (qtzLoadEffect acc v.toNat s) := onWf_next h

theorem exec_qtzStateWrite {acc : Acc} {v : Word} (h : (Instr.qtzStateWrite acc v).wellFormed = true) :
    exec (.qtzStateWrite acc v) s = .next (qtzStateEffect acc v.toNat s) := onWf_next h

theorem exec_dblAheadCountRead {hart rd : Nat} {acc : Acc} (h : (Instr.dblAheadCountRead hart rd acc).wellFormed = true) :
    exec (.dblAheadCountRead hart rd acc) s = .next (rcRead hart rd 0x3000808 acc s) := onWf_next h

theorem exec_dblDiscardsRead {hart rd : Nat} {acc : Acc} (h : (Instr.dblDiscardsRead hart rd acc).wellFormed = true) :
    exec (.dblDiscardsRead hart rd acc) s = .next (rcRead hart rd 0x3000810 acc s) := onWf_next h

theorem exec_fncMismatchRead {hart rd u : Nat} {acc : Acc} (h : (Instr.fncMismatchRead hart rd u acc).wellFormed = true) :
    exec (.fncMismatchRead hart rd u acc) s = .next (rcRead hart rd (0x6000000 + 8 * u) acc s) := onWf_next h

theorem exec_pwrFlagsWrite {acc : Acc} {v : Word} (h : (Instr.pwrFlagsWrite acc v).wellFormed = true) :
    exec (.pwrFlagsWrite acc v) s = .next (pwrFlagsEffect acc v.toNat s) := onWf_next h

theorem exec_thmFlagsWrite {acc : Acc} {v : Word} (h : (Instr.thmFlagsWrite acc v).wellFormed = true) :
    exec (.thmFlagsWrite acc v) s = .next (thmFlagsEffect acc v.toNat s) := onWf_next h

theorem exec_hartLoad {hart rd addr size : Nat} {signed : Bool} (h : (Instr.hartLoad hart rd addr size signed).wellFormed = true) :
    exec (.hartLoad hart rd addr size signed) s = .next (issueIns hart (.hartLoad hart rd addr size signed) s) := onWf_next h

theorem exec_hartStore {hart rs2 addr size : Nat} (h : (Instr.hartStore hart rs2 addr size).wellFormed = true) :
    exec (.hartStore hart rs2 addr size) s = .next (issueIns hart (.hartStore hart rs2 addr size) s) := onWf_next h

theorem exec_scld {hart : Nat} {insn : BitVec 32} (h : (Instr.scld hart insn).wellFormed = true) :
    exec (.scld hart insn) s = .next (issueIns hart (.scld hart insn) s) := onWf_next h

theorem exec_scst {hart : Nat} {insn : BitVec 32} (h : (Instr.scst hart insn).wellFormed = true) :
    exec (.scst hart insn) s = .next (issueIns hart (.scst hart insn) s) := onWf_next h

theorem exec_scfence {hart : Nat} {insn : BitVec 32} (h : (Instr.scfence hart insn).wellFormed = true) :
    exec (.scfence hart insn) s = .next (issueIns hart (.scfence hart insn) s) := onWf_next h

theorem exec_fence {hart : Nat} {tso : Bool} {pred succ : BitVec 4} (h : (Instr.fence hart tso pred succ).wellFormed = true) :
    exec (.fence hart tso pred succ) s = .next (issueIns hart (.fence hart tso pred succ) s) := onWf_next h

theorem exec_qsubmit {hart : Nat} {insn : BitVec 32} (h : (Instr.qsubmit hart insn).wellFormed = true) :
    exec (.qsubmit hart insn) s = .next (issueIns hart (.qsubmit hart insn) s) := onWf_next h

theorem exec_cboClean {hart addr : Nat} (h : (Instr.cboClean hart addr).wellFormed = true) :
    exec (.cboClean hart addr) s = .next (issueIns hart (.cboClean hart addr) s) := onWf_next h

theorem exec_cboFlush {hart addr : Nat} (h : (Instr.cboFlush hart addr).wellFormed = true) :
    exec (.cboFlush hart addr) s = .next (issueIns hart (.cboFlush hart addr) s) := onWf_next h

theorem exec_cboInval {hart addr : Nat} (h : (Instr.cboInval hart addr).wellFormed = true) :
    exec (.cboInval hart addr) s = .next (issueIns hart (.cboInval hart addr) s) := onWf_next h

theorem exec_cboZero {hart addr : Nat} (h : (Instr.cboZero hart addr).wellFormed = true) :
    exec (.cboZero hart addr) s = .next (issueIns hart (.cboZero hart addr) s) := onWf_next h

theorem exec_qtimeRead {hart rd : Nat} (h : (Instr.qtimeRead hart rd).wellFormed = true) :
    exec (.qtimeRead hart rd) s = .next (issueIns hart (.qtimeRead hart rd) s) := onWf_next h

theorem exec_sipiWrite {hart : Nat} {v : Word} (h : (Instr.sipiWrite hart v).wellFormed = true) :
    exec (.sipiWrite hart v) s = .next (issueIns hart (.sipiWrite hart v) s) := onWf_next h

theorem exec_mipiWrite {hart : Nat} {v : Word} (h : (Instr.mipiWrite hart v).wellFormed = true) :
    exec (.mipiWrite hart v) s = .next (issueIns hart (.mipiWrite hart v) s) := onWf_next h

theorem exec_machineTimer {hart : Nat} (h : (Instr.machineTimer hart).wellFormed = true) :
    exec (.machineTimer hart) s = .next (machineTimerEffect hart s) := onWf_next h

theorem exec_rfClean {hart : Nat} {v : Word} (h : (Instr.rfClean hart v).wellFormed = true) :
    exec (.rfClean hart v) s = .next (issueIns hart (.rfClean hart v) s) := onWf_next h

theorem exec_rfFlush {hart : Nat} {v : Word} (h : (Instr.rfFlush hart v).wellFormed = true) :
    exec (.rfFlush hart v) s = .next (issueIns hart (.rfFlush hart v) s) := onWf_next h

theorem exec_rfInvalidate {hart : Nat} {v : Word} (h : (Instr.rfInvalidate hart v).wellFormed = true) :
    exec (.rfInvalidate hart v) s = .next (issueIns hart (.rfInvalidate hart v) s) := onWf_next h

theorem exec_rfComplete {pd : Nat} (h : (Instr.rfComplete pd).wellFormed = true) :
    exec (.rfComplete pd) s = .next (rfCompleteEffect pd s) := onWf_next h

theorem exec_coherentRead {req : Requester} {addr len : Nat} {acq : Option Scope} (h : (Instr.coherentRead req addr len acq).wellFormed =
    true) :
    exec (.coherentRead req addr len acq) s = .next (coherentReadEffect req addr len acq s) := onWf_next h

theorem exec_coherentWrite {req : Requester} {addr : Nat} {data : List Byte} {rel : Option Scope} (h : (Instr.coherentWrite req addr data
    rel).wellFormed = true) :
    exec (.coherentWrite req addr data rel) s = .next (coherentWriteEffect req addr data rel s) := onWf_next h

theorem exec_directRead {req : Requester} {addr len : Nat} {acq : Bool} (h : (Instr.directRead req addr len acq).wellFormed = true) :
    exec (.directRead req addr len acq) s = .next (directReadEffect req addr len acq s) := onWf_next h

theorem exec_directWrite {req : Requester} {addr : Nat} {data : List Byte} (h : (Instr.directWrite req addr data).wellFormed = true) :
    exec (.directWrite req addr data) s = .next (directWriteEffect req addr data s) := onWf_next h

theorem exec_directWriteDrain {home : Nat} (h : (Instr.directWriteDrain home).wellFormed = true) :
    exec (.directWriteDrain home) s = .next (directWriteDrainEffect home s) := onWf_next h

theorem exec_lineWriteback {cache line : Nat} (h : (Instr.lineWriteback cache line).wellFormed = true) :
    exec (.lineWriteback cache line) s = .next (lineWritebackEffect cache line s) := onWf_next h

theorem exec_grantHoldExpiry {line : Nat} (h : (Instr.grantHoldExpiry line).wellFormed = true) :
    exec (.grantHoldExpiry line) s = .next (grantHoldExpiryEffect line s) := onWf_next h

theorem exec_snoopAnswer {line : Nat} (h : (Instr.snoopAnswer line).wellFormed = true) :
    exec (.snoopAnswer line) s = .next (snoopAnswerEffect line s) := onWf_next h

theorem exec_doorbell {q : Nat} {v : Word} (h : (Instr.doorbell q v).wellFormed = true) :
    exec (.doorbell q v) s = .next (ringDoorbell q v s) := onWf_next h

theorem exec_descriptorReadReturn {q : Nat} (h : (Instr.descriptorReadReturn q).wellFormed = true) :
    exec (.descriptorReadReturn q) s = .next (descriptorReturnEffect q s) := onWf_next h

theorem exec_descriptorRepoll {q : Nat} (h : (Instr.descriptorRepoll q).wellFormed = true) :
    exec (.descriptorRepoll q) s = .next (repollEffect q s) := onWf_next h

theorem exec_completionRecord {q : Nat} (h : (Instr.completionRecord q).wellFormed = true) :
    exec (.completionRecord q) s = .next (settleDissolve (performRec q s)) := onWf_next h

theorem exec_copy {w : DrayWork} (h : (Instr.copy w).wellFormed = true) :
    exec (.copy w) s = .next (drayEffect 0x30 w s) := onWf_next h

theorem exec_gather {w : DrayWork} (h : (Instr.gather w).wellFormed = true) :
    exec (.gather w) s = .next (drayEffect 0x31 w s) := onWf_next h

theorem exec_scatter {w : DrayWork} (h : (Instr.scatter w).wellFormed = true) :
    exec (.scatter w) s = .next (drayEffect 0x32 w s) := onWf_next h

theorem exec_convert {w : DrayWork} (h : (Instr.convert w).wellFormed = true) :
    exec (.convert w) s = .next (drayEffect 0x33 w s) := onWf_next h

theorem exec_digest {w : DrayWork} (h : (Instr.digest w).wellFormed = true) :
    exec (.digest w) s = .next (drayEffect 0x34 w s) := onWf_next h

theorem exec_invalidate {w : DrayWork} (h : (Instr.invalidate w).wellFormed = true) :
    exec (.invalidate w) s = .next (drayEffect 0x35 w s) := onWf_next h

theorem exec_cubeOperation {st : Nat} (h : (Instr.cubeOperation st).wellFormed = true) :
    exec (.cubeOperation st) s = .next (cubeEffect st s) := onWf_next h

theorem exec_vectorProgram {st : Nat} (h : (Instr.vectorProgram st).wellFormed = true) :
    exec (.vectorProgram st) s = .next (vectorEffect st s) := onWf_next h

theorem exec_updateProgram {st : Nat} (h : (Instr.updateProgram st).wellFormed = true) :
    exec (.updateProgram st) s = .next (updateEffect st s) := onWf_next h

theorem exec_bankGrant {st : Nat} (h : (Instr.bankGrant st).wellFormed = true) :
    exec (.bankGrant st) s = .next (grantEffect st s) := onWf_next h

theorem exec_nullAction {st : Nat} (h : (Instr.nullAction st).wellFormed = true) :
    exec (.nullAction st) s = .next (nullEffect st s) := onWf_next h

theorem exec_allReduce {st : Nat} (h : (Instr.allReduce st).wellFormed = true) :
    exec (.allReduce st) s = .next (collEffect st 0x10 s) := onWf_next h

theorem exec_reduceScatter {st : Nat} (h : (Instr.reduceScatter st).wellFormed = true) :
    exec (.reduceScatter st) s = .next (collEffect st 0x11 s) := onWf_next h

theorem exec_allGather {st : Nat} (h : (Instr.allGather st).wellFormed = true) :
    exec (.allGather st) s = .next (collEffect st 0x12 s) := onWf_next h

theorem exec_gradientAllReduce {st : Nat} (h : (Instr.gradientAllReduce st).wellFormed = true) :
    exec (.gradientAllReduce st) s = .next (collEffect st 0x13 s) := onWf_next h

theorem exec_barrier {st : Nat} (h : (Instr.barrier st).wellFormed = true) :
    exec (.barrier st) s = .next (collEffect st 0x14 s) := onWf_next h

theorem exec_promote {st : Nat} (h : (Instr.promote st).wellFormed = true) :
    exec (.promote st) s = .next (tierRow st 0x38 (fun g => .promote (wf (wd g.desc 0) 27 26) (bit (wd g.desc 0).toNat 25) g.part) s) :=
    onWf_next h

theorem exec_demote {st : Nat} (h : (Instr.demote st).wellFormed = true) :
    exec (.demote st) s = .next (tierRow st 0x39 (fun _ => .demote) s) := onWf_next h

theorem exec_writeBack {st : Nat} (h : (Instr.writeBack st).wellFormed = true) :
    exec (.writeBack st) s = .next (tierRow st 0x3A (fun _ => .writeBack) s) := onWf_next h

theorem exec_discard {st : Nat} (h : (Instr.discard st).wellFormed = true) :
    exec (.discard st) s = .next (tierRow st 0x3B (fun _ => .discard) s) := onWf_next h

theorem exec_relocationWindow {st : Nat} (h : (Instr.relocationWindow st).wellFormed = true) :
    exec (.relocationWindow st) s = .next (windowEffect st s) := onWf_next h

theorem exec_expire {st : Nat} (h : (Instr.expire st).wellFormed = true) :
    exec (.expire st) s = .next (slateRow st 0x3D (fun g s => (tierExts g.desc).foldl expireExt s) s) := onWf_next h

theorem exec_actionComplete {st e : Nat} (h : (Instr.actionComplete st e).wellFormed = true) :
    exec (.actionComplete st e) s = .next (actionCompleteEffect st e s) := onWf_next h

theorem exec_gateVisible {st c : Nat} (h : (Instr.gateVisible st c).wellFormed = true) :
    exec (.gateVisible st c) s = .next (makeVisible st c s) := onWf_next h

theorem exec_nop {t : Nat} {w : Word} (h : (Instr.nop t w).wellFormed = true) :
    exec (.nop t w) s = .next (vecRow 0x00 t w s) := onWf_next h

theorem exec_vadd {t : Nat} {w : Word} (h : (Instr.vadd t w).wellFormed = true) :
    exec (.vadd t w) s = .next (vecRow 0x01 t w s) := onWf_next h

theorem exec_vmul {t : Nat} {w : Word} (h : (Instr.vmul t w).wellFormed = true) :
    exec (.vmul t w) s = .next (vecRow 0x02 t w s) := onWf_next h

theorem exec_vfma {t : Nat} {w : Word} (h : (Instr.vfma t w).wellFormed = true) :
    exec (.vfma t w) s = .next (vecRow 0x03 t w s) := onWf_next h

theorem exec_vmax {t : Nat} {w : Word} (h : (Instr.vmax t w).wellFormed = true) :
    exec (.vmax t w) s = .next (vecRow 0x04 t w s) := onWf_next h

theorem exec_vmin {t : Nat} {w : Word} (h : (Instr.vmin t w).wellFormed = true) :
    exec (.vmin t w) s = .next (vecRow 0x05 t w s) := onWf_next h

theorem exec_vsel {t : Nat} {w : Word} (h : (Instr.vsel t w).wellFormed = true) :
    exec (.vsel t w) s = .next (vecRow 0x06 t w s) := onWf_next h

theorem exec_vcmp {t : Nat} {w : Word} (h : (Instr.vcmp t w).wellFormed = true) :
    exec (.vcmp t w) s = .next (vecRow 0x07 t w s) := onWf_next h

theorem exec_vsign {t : Nat} {w : Word} (h : (Instr.vsign t w).wellFormed = true) :
    exec (.vsign t w) s = .next (vecRow 0x08 t w s) := onWf_next h

theorem exec_vexp {t : Nat} {w : Word} (h : (Instr.vexp t w).wellFormed = true) :
    exec (.vexp t w) s = .next (vecRow 0x10 t w s) := onWf_next h

theorem exec_vlog {t : Nat} {w : Word} (h : (Instr.vlog t w).wellFormed = true) :
    exec (.vlog t w) s = .next (vecRow 0x11 t w s) := onWf_next h

theorem exec_vrsqrt {t : Nat} {w : Word} (h : (Instr.vrsqrt t w).wellFormed = true) :
    exec (.vrsqrt t w) s = .next (vecRow 0x12 t w s) := onWf_next h

theorem exec_vcvt {t : Nat} {w : Word} (h : (Instr.vcvt t w).wellFormed = true) :
    exec (.vcvt t w) s = .next (vecRow 0x18 t w s) := onWf_next h

theorem exec_vcvta {t : Nat} {w : Word} (h : (Instr.vcvta t w).wellFormed = true) :
    exec (.vcvta t w) s = .next (vecRow 0x19 t w s) := onWf_next h

theorem exec_va128add {t : Nat} {w : Word} (h : (Instr.va128add t w).wellFormed = true) :
    exec (.va128add t w) s = .next (vecRow 0x1A t w s) := onWf_next h

theorem exec_va128rsum {t : Nat} {w : Word} (h : (Instr.va128rsum t w).wellFormed = true) :
    exec (.va128rsum t w) s = .next (vecRow 0x1B t w s) := onWf_next h

theorem exec_vreanchor {t : Nat} {w : Word} (h : (Instr.vreanchor t w).wellFormed = true) :
    exec (.vreanchor t w) s = .next (vecRow 0x1C t w s) := onWf_next h

theorem exec_va128drain {t : Nat} {w : Word} (h : (Instr.va128drain t w).wellFormed = true) :
    exec (.va128drain t w) s = .next (vecRow 0x1D t w s) := onWf_next h

theorem exec_vld {t : Nat} {w : Word} (h : (Instr.vld t w).wellFormed = true) :
    exec (.vld t w) s = .next (vecRow 0x20 t w s) := onWf_next h

theorem exec_vst {t : Nat} {w : Word} (h : (Instr.vst t w).wellFormed = true) :
    exec (.vst t w) s = .next (vecRow 0x21 t w s) := onWf_next h

theorem exec_aset {t : Nat} {w : Word} (h : (Instr.aset t w).wellFormed = true) :
    exec (.aset t w) s = .next (vecRow 0x28 t w s) := onWf_next h

theorem exec_aadd {t : Nat} {w : Word} (h : (Instr.aadd t w).wellFormed = true) :
    exec (.aadd t w) s = .next (vecRow 0x29 t w s) := onWf_next h

theorem exec_loop {t : Nat} {w : Word} (h : (Instr.loop t w).wellFormed = true) :
    exec (.loop t w) s = .next (vecRow 0x30 t w s) := onWf_next h

theorem exec_endProg {t : Nat} {w : Word} (h : (Instr.endProg t w).wellFormed = true) :
    exec (.endProg t w) s = .next (vecRow 0x3F t w s) := onWf_next h

theorem exec_updateMarkerWrite {t : Nat} (h : (Instr.updateMarkerWrite t).wellFormed = true) :
    exec (.updateMarkerWrite t) s = .next (markerEffect t s) := onWf_next h

theorem exec_updatePhase2 {t : Nat} (h : (Instr.updatePhase2 t).wellFormed = true) :
    exec (.updatePhase2 t) s = .next (phase2Effect t s) := onWf_next h

theorem exec_updateWriteback {t : Nat} (h : (Instr.updateWriteback t).wellFormed = true) :
    exec (.updateWriteback t) s = .next (writebackEffect t s) := onWf_next h

theorem exec_t0Reached {p : Nat} (h : (Instr.t0Reached p).wellFormed = true) :
    exec (.t0Reached p) s = .next (t0Effect p s) := onWf_next h

theorem exec_slotBind {p : Nat} (h : (Instr.slotBind p).wellFormed = true) :
    exec (.slotBind p) s = .next (slotBindEffect p s) := onWf_next h

theorem exec_slotOpen {p : Nat} (h : (Instr.slotOpen p).wellFormed = true) :
    exec (.slotOpen p) s = .next (slotOpenEffect p s) := onWf_next h

theorem exec_epochLocalComplete {p : Nat} (h : (Instr.epochLocalComplete p).wellFormed = true) :
    exec (.epochLocalComplete p) s = .next (epochLocalCompleteEffect p s) := onWf_next h

theorem exec_latenessReport {st : Nat} (h : (Instr.latenessReport st).wellFormed = true) :
    exec (.latenessReport st) s = .next (latenessEffect st s) := onWf_next h

theorem exec_holdNotice {port : Nat} {n : Notice} (h : (Instr.holdNotice port n).wellFormed = true) :
    exec (.holdNotice port n) s = .next (holdNoticeEffect port n s) := onWf_next h

theorem exec_replayNotice {port : Nat} {n : Notice} (h : (Instr.replayNotice port n).wellFormed = true) :
    exec (.replayNotice port n) s = .next (replayNoticeEffect port n s) := onWf_next h

theorem exec_abortNotice {port : Nat} {n : Notice} (h : (Instr.abortNotice port n).wellFormed = true) :
    exec (.abortNotice port n) s = .next (abortNoticeEffect port n s) := onWf_next h

theorem exec_degradeNotice {port : Nat} {n : Notice} (h : (Instr.degradeNotice port n).wellFormed = true) :
    exec (.degradeNotice port n) s = .next (degradeNoticeEffect port n s) := onWf_next h

theorem exec_commitNotice {port : Nat} {n : Notice} (h : (Instr.commitNotice port n).wellFormed = true) :
    exec (.commitNotice port n) s = .next (commitNoticeEffect port n s) := onWf_next h

theorem exec_probeNotice {port : Nat} {n : Notice} (h : (Instr.probeNotice port n).wellFormed = true) :
    exec (.probeNotice port n) s = .next (probeNoticeEffect port n s) := onWf_next h

theorem exec_probeSend (h : (Instr.probeSend).wellFormed = true) :
    exec .probeSend s = .next (probeSendEffect s) := onWf_next h

theorem exec_holdInstant {p : Nat} (h : (Instr.holdInstant p).wellFormed = true) :
    exec (.holdInstant p) s = .next (holdInstantEffect p s) := onWf_next h

theorem exec_replayInstant {p : Nat} (h : (Instr.replayInstant p).wellFormed = true) :
    exec (.replayInstant p) s = .next (replayInstantEffect p s) := onWf_next h

theorem exec_restartInstant {p : Nat} (h : (Instr.restartInstant p).wellFormed = true) :
    exec (.restartInstant p) s = .next (restartEffect p s) := onWf_next h

theorem exec_abortInstant {p : Nat} (h : (Instr.abortInstant p).wellFormed = true) :
    exec (.abortInstant p) s = .next (abortInstantEffect p s) := onWf_next h

theorem exec_tileWatchdog {st : Nat} (h : (Instr.tileWatchdog st).wellFormed = true) :
    exec (.tileWatchdog st) s = .next (tileWatchdogEffect st s) := onWf_next h

theorem exec_unitWatchdog {st : Nat} (h : (Instr.unitWatchdog st).wellFormed = true) :
    exec (.unitWatchdog st) s = .next (unitWatchdogEffect st s) := onWf_next h

theorem exec_testStepStart {t m : Nat} (h : (Instr.testStepStart t m).wellFormed = true) :
    exec (.testStepStart t m) s = .next (testStartEffect t m s) := onWf_next h

theorem exec_testStepComplete {t m : Nat} {o : TestOutcome} (h : (Instr.testStepComplete t m o).wellFormed = true) :
    exec (.testStepComplete t m o) s = .next (testDoneEffect t m o s) := onWf_next h

theorem exec_vaultTestStep {hd : Nat} {o : EccOutcome} (h : (Instr.vaultTestStep hd o).wellFormed = true) :
    exec (.vaultTestStep hd o) s = .next (vaultTestEffect hd o s) := onWf_next h

theorem exec_vaultWipeComplete {hd : Nat} (h : (Instr.vaultWipeComplete hd).wellFormed = true) :
    exec (.vaultWipeComplete hd) s = .next (vaultWipeEffect hd s) := onWf_next h

theorem exec_hbmBucketRefill (h : (Instr.hbmBucketRefill).wellFormed = true) :
    exec .hbmBucketRefill s = .next (hbmRefillEffect s) := onWf_next h

theorem exec_flashBucketRefill (h : (Instr.flashBucketRefill).wellFormed = true) :
    exec .flashBucketRefill s = .next (flashRefillEffect s) := onWf_next h

theorem exec_patrolScrub {l : Nat} {o : EccOutcome} (h : (Instr.patrolScrub l o).wellFormed = true) :
    exec (.patrolScrub l o) s = .next (scrubEffect l o s) := onWf_next h

theorem exec_channelFault {st c : Nat} (h : (Instr.channelFault st c).wellFormed = true) :
    exec (.channelFault st c) s = .next ({ s with deadCh := setIns (st * 64 + c) s.deadCh }) := onWf_next h

theorem exec_cacheFill {die l : Nat} (h : (Instr.cacheFill die l).wellFormed = true) :
    exec (.cacheFill die l) s = .next (cacheFillEffect die l s) := onWf_next h

theorem exec_sectorRead {r : Requester} {x k : Nat} {o : EccOutcome} (h : (Instr.sectorRead r x k o).wellFormed = true) :
    exec (.sectorRead r x k o) s = .next (sectorReadEffect r x k o s) := onWf_next h

theorem exec_promotionSwitch {x : Nat} (h : (Instr.promotionSwitch x).wellFormed = true) :
    exec (.promotionSwitch x) s = .next (settleCreate (promotionSwitchEffect x s)) := onWf_next h

theorem exec_demotionPass {x : Nat} (h : (Instr.demotionPass x).wellFormed = true) :
    exec (.demotionPass x) s = .next (settleCreate (demotionPassEffect x s)) := onWf_next h

theorem exec_relocationStart {f b : Nat} (h : (Instr.relocationStart f b).wellFormed = true) :
    exec (.relocationStart f b) s = .next (relocationStartEffect f b s) := onWf_next h

theorem exec_relocationSwitch {f b : Nat} (h : (Instr.relocationSwitch f b).wellFormed = true) :
    exec (.relocationSwitch f b) s = .next (relocationSwitchEffect f b s) := onWf_next h

theorem exec_blockFailure {f b : Nat} (h : (Instr.blockFailure f b).wellFormed = true) :
    exec (.blockFailure f b) s = .next (blockFailureEffect f b s) := onWf_next h

theorem exec_tenderRestart {hd : Nat} (h : (Instr.tenderRestart hd).wellFormed = true) :
    exec (.tenderRestart hd) s = .next (tenderRestartEffect hd s) := onWf_next h

theorem exec_tenderRestartDone {hd : Nat} (h : (Instr.tenderRestartDone hd).wellFormed = true) :
    exec (.tenderRestartDone hd) s = .next (tenderRestartDoneEffect hd s) := onWf_next h

theorem exec_flit {l d : Nat} {bs : List Byte} (h : (Instr.flit l d bs).wellFormed = true) :
    exec (.flit l d bs) s = .next (flitEffect l d bs s) := onWf_next h

theorem exec_laneFailure {l d n : Nat} (h : (Instr.laneFailure l d n).wellFormed = true) :
    exec (.laneFailure l d n) s = .next (failLane l d n s) := onWf_next h

theorem exec_directionResume {l d : Nat} (h : (Instr.directionResume l d).wellFormed = true) :
    exec (.directionResume l d) s = .next (resumeEffect l d s) := onWf_next h

theorem exec_frame {p : Nat} {bs : List Byte} (h : (Instr.frame p bs).wellFormed = true) :
    exec (.frame p bs) s = .next (frameEffect p bs s) := onWf_next h

theorem exec_nguixLaneFailure {p n : Nat} (h : (Instr.nguixLaneFailure p n).wellFormed = true) :
    exec (.nguixLaneFailure p n) s = .next (nguixLaneEffect p n s) := onWf_next h

theorem exec_portResume {p : Nat} (h : (Instr.portResume p).wellFormed = true) :
    exec (.portResume p) s = .next (portResumeEffect p s) := onWf_next h

theorem exec_portTraining {p : Nat} {r : PortTrain} (h : (Instr.portTraining p r).wellFormed = true) :
    exec (.portTraining p r) s = .next (trainEffect p r s) := onWf_next h

theorem exec_routeAnnounce {p nbr nbrPort : Nat} (h : (Instr.routeAnnounce p nbr nbrPort).wellFormed = true) :
    exec (.routeAnnounce p nbr nbrPort) s = .next (announceEffect p nbr nbrPort s) := onWf_next h

theorem exec_laserModuleReady {k : Nat} (h : (Instr.laserModuleReady k).wellFormed = true) :
    exec (.laserModuleReady k) s = .next ({ s with lasers := tblSet k { ready := true, enabled := true, faulted := false } s.lasers }) :=
    onWf_next h

theorem exec_laserModuleFault {k : Nat} (h : (Instr.laserModuleFault k).wellFormed = true) :
    exec (.laserModuleFault k) s = .next (laserFaultEffect k s) := onWf_next h

theorem exec_timingSymbol {port tTx tE1 tE2 tHold : Nat} (h : (Instr.timingSymbol port tTx tE1 tE2 tHold).wellFormed = true) :
    exec (.timingSymbol port tTx tE1 tE2 tHold) s = .next (timingSymbolEffect port tTx tE1 tHold s) := onWf_next h

theorem exec_timingSymbolSend {p : Nat} (h : (Instr.timingSymbolSend p).wellFormed = true) :
    exec (.timingSymbolSend p) s = .next (symbolSendEffect p s) := onWf_next h

theorem exec_remoteRead {m : RemoteMsg} (h : (Instr.remoteRead m).wellFormed = true) :
    exec (.remoteRead m) s = .next (requestRow 0 m s) := onWf_next h

theorem exec_remoteReadAcquire {m : RemoteMsg} (h : (Instr.remoteReadAcquire m).wellFormed = true) :
    exec (.remoteReadAcquire m) s = .next (requestRow 1 m s) := onWf_next h

theorem exec_remoteWrite {m : RemoteMsg} (h : (Instr.remoteWrite m).wellFormed = true) :
    exec (.remoteWrite m) s = .next (requestRow 2 m s) := onWf_next h

theorem exec_remoteWriteRelease {m : RemoteMsg} (h : (Instr.remoteWriteRelease m).wellFormed = true) :
    exec (.remoteWriteRelease m) s = .next (requestRow 3 m s) := onWf_next h

theorem exec_remoteWriteAcked {m : RemoteMsg} (h : (Instr.remoteWriteAcked m).wellFormed = true) :
    exec (.remoteWriteAcked m) s = .next (requestRow 4 m s) := onWf_next h

theorem exec_remoteWriteReleaseAcked {m : RemoteMsg} (h : (Instr.remoteWriteReleaseAcked m).wellFormed = true) :
    exec (.remoteWriteReleaseAcked m) s = .next (requestRow 5 m s) := onWf_next h

theorem exec_remoteReadData {m : RemoteMsg} (h : (Instr.remoteReadData m).wellFormed = true) :
    exec (.remoteReadData m) s = .next (responseRow 8 m readDataEffect s) := onWf_next h

theorem exec_remoteWriteAck {m : RemoteMsg} (h : (Instr.remoteWriteAck m).wellFormed = true) :
    exec (.remoteWriteAck m) s = .next (responseRow 9 m writeAckEffect s) := onWf_next h

theorem exec_remoteError {m : RemoteMsg} (h : (Instr.remoteError m).wellFormed = true) :
    exec (.remoteError m) s = .next (responseRow 0xA m remoteErrorEffect s) := onWf_next h

theorem exec_pseqGapSkip {src : Nat} (h : (Instr.pseqGapSkip src).wellFormed = true) :
    exec (.pseqGapSkip src) s = .next (gapEffect src s) := onWf_next h

theorem exec_remoteTimeout {dst tag : Nat} (h : (Instr.remoteTimeout dst tag).wellFormed = true) :
    exec (.remoteTimeout dst tag) s = .next (timeoutEffect dst tag s) := onWf_next h

theorem exec_collectivePacket {p : CollPacket} (h : (Instr.collectivePacket p).wellFormed = true) :
    exec (.collectivePacket p) s = .next (packetEffect p s) := onWf_next h

theorem exec_pcieInboundMsi {sub rid addr : Nat} {data : List Byte} (h : (Instr.pcieInboundMsi sub rid addr data).wellFormed = true) :
    exec (.pcieInboundMsi sub rid addr data) s = .next (msiEffect sub rid addr data s) := onWf_next h

theorem exec_pcieInboundP2p {sub rid addr : Nat} {write : Bool} {data : List Byte} (h : (Instr.pcieInboundP2p sub rid addr write
    data).wellFormed = true) :
    exec (.pcieInboundP2p sub rid addr write data) s = .next (p2pEffect sub rid addr write data s) := onWf_next h

theorem exec_pcieInboundRead {sub rid addr len : Nat} (h : (Instr.pcieInboundRead sub rid addr len).wellFormed = true) :
    exec (.pcieInboundRead sub rid addr len) s = .next (inboundReadEffect sub rid addr len s) := onWf_next h

theorem exec_pcieInboundWrite {sub rid addr : Nat} {data : List Byte} (h : (Instr.pcieInboundWrite sub rid addr data).wellFormed = true) :
    exec (.pcieInboundWrite sub rid addr data) s = .next (inboundWriteEffect sub rid addr data s) := onWf_next h

theorem exec_pcieLinkUp {sub : Nat} (h : (Instr.pcieLinkUp sub).wellFormed = true) :
    exec (.pcieLinkUp sub) s = .next (linkUpEffect sub s) := onWf_next h

theorem exec_pcieLinkDown {sub : Nat} (h : (Instr.pcieLinkDown sub).wellFormed = true) :
    exec (.pcieLinkDown sub) s = .next (linkDownEffect sub s) := onWf_next h

theorem exec_qrefLock (h : (Instr.qrefLock).wellFormed = true) :
    exec .qrefLock s = .next (qrefLockEffect s) := onWf_next h

theorem exec_qrefLoss (h : (Instr.qrefLoss).wellFormed = true) :
    exec .qrefLoss s = .next (toHoldover (modQuartz (fun q => { q with qref := false }) s)) := onWf_next h

theorem exec_upstreamLoss (h : (Instr.upstreamLoss).wellFormed = true) :
    exec .upstreamLoss s = .next (upstreamLossEffect s) := onWf_next h

theorem exec_alternateLock {p : Nat} (h : (Instr.alternateLock p).wellFormed = true) :
    exec (.alternateLock p) s = .next (alternateLockEffect p s) := onWf_next h

theorem exec_ppsEdge {width : Nat} (h : (Instr.ppsEdge width).wellFormed = true) :
    exec (.ppsEdge width) s = .next (ppsEffect width s) := onWf_next h

theorem exec_controlInterval {m : PowerSample} (h : (Instr.controlInterval m).wellFormed = true) :
    exec (.controlInterval m) s = .next (intervalEffect m s) := onWf_next h

theorem exec_pointChangeComplete {a : Nat} (h : (Instr.pointChangeComplete a).wellFormed = true) :
    exec (.pointChangeComplete a) s = .next (pointEffect a s) := onWf_next h

theorem exec_thermalSample {tj temps : List Int} (h : (Instr.thermalSample tj temps).wellFormed = true) :
    exec (.thermalSample tj temps) s = .next (thermalEffect tj temps s) := onWf_next h

theorem exec_thermalTrip {die : Nat} (h : (Instr.thermalTrip die).wellFormed = true) :
    exec (.thermalTrip die) s = .next (tripEffect die s) := onWf_next h

theorem exec_guardbandRaise {die : Nat} {m : Margin} (h : (Instr.guardbandRaise die m).wellFormed = true) :
    exec (.guardbandRaise die m) s = .next (guardEffect die m s) := onWf_next h

theorem exec_clockStretch {c pc : Nat} (h : (Instr.clockStretch c pc).wellFormed = true) :
    exec (.clockStretch c pc) s = .next (stretchEffect c pc s) := onWf_next h

theorem exec_supplyWarn {mv : Nat} (h : (Instr.supplyWarn mv).wellFormed = true) :
    exec (.supplyWarn mv) s = .next (supplyWarnEffect mv s) := onWf_next h

theorem exec_supplyFault {mv : Nat} (h : (Instr.supplyFault mv).wellFormed = true) :
    exec (.supplyFault mv) s = .next (supplyFaultEffect mv s) := onWf_next h

theorem exec_supplyRecovery {t : SelfTest} (h : (Instr.supplyRecovery t).wellFormed = true) :
    exec (.supplyRecovery t) s = .next (supplyRecoveryEffect t s) := onWf_next h

theorem exec_islandSupplyLoss {mv : Nat} (h : (Instr.islandSupplyLoss mv).wellFormed = true) :
    exec (.islandSupplyLoss mv) s = .next (islandLossEffect mv s) := onWf_next h

theorem exec_wakeFromOff {t : SelfTest} (h : (Instr.wakeFromOff t).wellFormed = true) :
    exec (.wakeFromOff t) s = .next (wakeEffect t s) := onWf_next h

theorem exec_tamperEvent {hd source : Nat} (h : (Instr.tamperEvent hd source).wellFormed = true) :
    exec (.tamperEvent hd source) s = .next (tamperEffect hd source s) := onWf_next h

theorem exec_pwrGoodInRise {t : SelfTest} (h : (Instr.pwrGoodInRise t).wellFormed = true) :
    exec (.pwrGoodInRise t) s = .next (pwrRiseEffect t s) := onWf_next h

theorem exec_pwrGoodInFall (h : (Instr.pwrGoodInFall).wellFormed = true) :
    exec .pwrGoodInFall s = .next (pwrFallEffect s) := onWf_next h

theorem exec_resetInNAssert (h : (Instr.resetInNAssert).wellFormed = true) :
    exec .resetInNAssert s = .next (resetAssertEffect s) := onWf_next h

theorem exec_resetInNRelease {t : SelfTest} (h : (Instr.resetInNRelease t).wellFormed = true) :
    exec (.resetInNRelease t) s = .next (resetReleaseEffect t s) := onWf_next h

theorem exec_bringupStepTimeout {k : Nat} (h : (Instr.bringupStepTimeout k).wellFormed = true) :
    exec (.bringupStepTimeout k) s = .next (overrunEffect k s) := onWf_next h

theorem exec_recordCommit (h : (Instr.recordCommit).wellFormed = true) :
    exec .recordCommit s = .next (recordCommitEffect s) := onWf_next h

theorem exec_batchTimeout (h : (Instr.batchTimeout).wellFormed = true) :
    exec .batchTimeout s = .next (batchTimeoutEffect s) := onWf_next h

theorem exec_batchRecord (h : (Instr.batchRecord).wellFormed = true) :
    exec .batchRecord s = .next (batchRecordEffect s) := onWf_next h

theorem exec_i3cDynamicAddress {hd addr : Nat} {setdasa : Bool} (h : (Instr.i3cDynamicAddress hd addr setdasa).wellFormed = true) :
    exec (.i3cDynamicAddress hd addr setdasa) s = .next (i3cAddressEffect hd addr s) := onWf_next h

theorem exec_mctpControl {hd : Nat} {msg : List Byte} (h : (Instr.mctpControl hd msg).wellFormed = true) :
    exec (.mctpControl hd msg) s = .next (mctpEffect hd msg s) := onWf_next h

theorem exec_pldmSensorRead {hd sensor : Nat} (h : (Instr.pldmSensorRead hd sensor).wellFormed = true) :
    exec (.pldmSensorRead hd sensor) s = .next (pldmEffect hd sensor s) := onWf_next h

theorem exec_getVersion {hd : Nat} {msg : List Byte} (h : (Instr.getVersion hd msg).wellFormed = true) :
    exec (.getVersion hd msg) s = .next (getVersionEffect hd msg s) := onWf_next h

theorem exec_getCapabilities {hd : Nat} {msg : List Byte} (h : (Instr.getCapabilities hd msg).wellFormed = true) :
    exec (.getCapabilities hd msg) s = .next (getCapabilitiesEffect hd msg s) := onWf_next h

theorem exec_negotiateAlgorithms {hd : Nat} {msg : List Byte} (h : (Instr.negotiateAlgorithms hd msg).wellFormed = true) :
    exec (.negotiateAlgorithms hd msg) s = .next (negotiateEffect hd msg s) := onWf_next h

theorem exec_getDigests {hd : Nat} {msg : List Byte} (h : (Instr.getDigests hd msg).wellFormed = true) :
    exec (.getDigests hd msg) s = .next (getDigestsEffect hd msg s) := onWf_next h

theorem exec_getCertificate {hd slot offset len : Nat} (h : (Instr.getCertificate hd slot offset len).wellFormed = true) :
    exec (.getCertificate hd slot offset len) s = .next (getCertificateEffect hd slot offset len s) := onWf_next h

theorem exec_challenge {hd slot : Nat} {nonce : List Byte} (h : (Instr.challenge hd slot nonce).wellFormed = true) :
    exec (.challenge hd slot nonce) s = .next (challengeEffect hd slot nonce s) := onWf_next h

theorem exec_getMeasurements {hd index : Nat} {nonce : List Byte} (h : (Instr.getMeasurements hd index nonce).wellFormed = true) :
    exec (.getMeasurements hd index nonce) s = .next (getMeasurementsEffect hd index nonce s) := onWf_next h

theorem exec_keyExchange {hd slot : Nat} {msg : List Byte} (h : (Instr.keyExchange hd slot msg).wellFormed = true) :
    exec (.keyExchange hd slot msg) s = .next (keyExchangeEffect hd slot msg s) := onWf_next h

theorem exec_finish {hd : Nat} {msg : List Byte} (h : (Instr.finish hd msg).wellFormed = true) :
    exec (.finish hd msg) s = .next (finishEffect hd msg s) := onWf_next h

theorem exec_endSession {hd : Nat} (h : (Instr.endSession hd).wellFormed = true) :
    exec (.endSession hd) s = .next (endSessionEffect hd s) := onWf_next h

theorem exec_uartReceive {hd : Nat} {c : Byte} (h : (Instr.uartReceive hd c).wellFormed = true) :
    exec (.uartReceive hd c) s = .next (uartEffect hd c s) := onWf_next h

theorem exec_amo {hart : Nat} {op : AmoOp} {rd rs2 addr size : Nat} {aq rl : Bool} (h : (Instr.amo hart op rd rs2 addr size aq
    rl).wellFormed = true) :
    exec (.amo hart op rd rs2 addr size aq rl) s = .next (issueIns hart (.amo hart op rd rs2 addr size aq rl) s) := onWf_next h

theorem exec_lr {hart rd addr size : Nat} {aq rl : Bool} (h : (Instr.lr hart rd addr size aq rl).wellFormed = true) :
    exec (.lr hart rd addr size aq rl) s = .next (issueIns hart (.lr hart rd addr size aq rl) s) := onWf_next h

theorem exec_sc {hart rd rs2 addr size : Nat} {aq rl : Bool} (h : (Instr.sc hart rd rs2 addr size aq rl).wellFormed = true) :
    exec (.sc hart rd rs2 addr size aq rl) s = .next (issueIns hart (.sc hart rd rs2 addr size aq rl) s) := onWf_next h

theorem exec_pcieCompletion {hart : Nat} {ok : Bool} {data : Word} (h : (Instr.pcieCompletion hart ok data).wellFormed = true) :
    exec (.pcieCompletion hart ok data) s = .next (pcieCompletionEffect hart ok data s) := onWf_next h

theorem exec_tapInstruction {code : Nat} (h : (Instr.tapInstruction code).wellFormed = true) :
    exec (.tapInstruction code) s = .next (tapEffect code s) := onWf_next h

theorem exec_stimecmp {hart : Nat} {virt : Bool} (h : (Instr.stimecmp hart virt).wellFormed = true) :
    exec (.stimecmp hart virt) s = .next (stimecmpEffect hart virt s) := onWf_next h

theorem exec_supplyWarnRearm {mv : Nat} (h : (Instr.supplyWarnRearm mv).wellFormed = true) :
    exec (.supplyWarnRearm mv) s = .next (supplyRearmEffect mv s) := onWf_next h

end Sys2Proof.Machine
end

