-- ==== Sys2Proof/Laws/Hart.lean ====
section
/-! SUPPORT. The laws of the harts' issue: an instruction runs, waits, or is dropped in reset; and a line at which nothing waits. -/

namespace Sys2Proof.Machine

variable {s : State} {h l : Nat} {i j : Instr} {rest : List Instr}

/-- An instruction that can issue runs. -/
theorem issueIns_go (hi : issues s h i = true) : issueIns h i s = insRun i s := by
  simp only [issues, Bool.and_eq_true, beq_iff_eq, List.isEmpty_iff] at hi
  obtain ⟨⟨hb, hw⟩, hm⟩ := hi
  simp [issueIns, hb, hw, issueWaiting, hm]

/-- None runs while the harts are in reset. -/
theorem issueIns_reset (hb : s.bu.state ≠ 1) : issueIns h i s = s := if_pos hb

/-- One that cannot issue waits. -/
theorem issueIns_waits (hb : s.bu.state = 1) (hw : (hartOf s h).waiting = []) (hm : mayIssue s h i = false) :
    issueIns h i s = modHart h (fun x => { x with waiting := [i] }) s := by
  simp only [issueIns, hb, hw, issueWaiting, hm, List.length_nil]
  simp [modHart, hw]

/-- One behind an instruction that cannot issue waits behind it. -/
theorem issueIns_behind (hb : s.bu.state = 1) (hw : (hartOf s h).waiting = j :: rest) (hm : mayIssue s h j = false) :
    issueIns h i s = modHart h (fun x => { x with waiting := x.waiting ++ [i] }) s := by
  have hk : issueWaiting h ((hartOf s h).waiting.length) s = s := by
    rw [hw, List.length_cons]; unfold issueWaiting; simp [hw, hm]
  unfold issueIns; dsimp only; rw [if_neg (by simp [hb]), hk, if_neg (by simp [hw])]

/-- Where nothing waits for a line, nothing is performed before a request for it. -/
theorem settleLine_idle (hw : (lineOf s l).waiting = []) : settleLine l s = s := by simp [settleLine, hw]

theorem arrive_idle {r : Requester} {w k : Bool} (hw : (lineOf s l).waiting = []) : arrive r w k l s = s := by
  unfold arrive; rw [settleLine_idle hw]; split <;> rfl

/-- A request that need not wait finds nothing waiting before it. -/
theorem arrive_free {r : Requester} {w k : Bool} (hm : mustWait s l r w k = false) : arrive r w k l s = s := by
  unfold arrive
  split
  · rfl
  · rename_i hn
    simp only [mustWait, Bool.and_eq_false_iff, Bool.not_eq_false', Bool.or_eq_false_iff] at hm
    refine settleLine_idle ?_
    rcases hm with hm | hm
    · exact absurd hm hn
    · simpa using hm.1

end Sys2Proof.Machine
end

