-- ==== Sys2Proof/Laws/Keeps.lean ====
section
/-! SUPPORT. What every effect keeps: the queue, what holds in every state, and the fuses and the committed record
(Sys2Proof/Safety.lean). The files KeepsMemory to KeepsCommands say it of each operation. -/

namespace Sys2Proof.Machine

/-- What an effect keeps from a state `b`: the queue; and where `b` is a state the package reaches, that it is one and that nothing
fused or recorded has gone back. -/
def Keeps (b s : State) : Prop := s.pending = b.pending ∧ (b.Inv → s.Inv ∧ FusesKept b s)

variable {b s : State}

theorem FusesKept.refl : FusesKept s s :=
  ⟨rfl, rfl, List.prefix_rfl, Nat.le_refl _, Nat.le_refl _, Nat.le_refl _, Nat.le_refl _, Nat.le_refl _, Nat.le_refl _, id, id, id⟩

theorem FusesKept.trans {a c : State} (h : FusesKept a s) (k : FusesKept s c) : FusesKept a c :=
  ⟨k.1.trans h.1, k.2.trans h.2, h.3.trans k.3, h.4.trans k.4, h.5.trans k.5, h.6.trans k.6, h.7.trans k.7, h.8.trans k.8,
    h.9.trans k.9, k.10 ∘ h.10, k.11 ∘ h.11, h.12 ∘ k.12⟩

theorem Keeps.refl : Keeps s s := ⟨rfl, fun h => ⟨h, .refl⟩⟩

theorem Keeps.mem (h : Keeps b s) (i : b.Inv) : memWf s.mem = true := (h.2 i).1.mem
theorem Keeps.flash (h : Keeps b s) (i : b.Inv) : memWf s.flash = true := (h.2 i).1.flash
theorem Keeps.tileMem (h : Keeps b s) (i : b.Inv) : memWf s.tileMem = true := (h.2 i).1.tileMem

/-- What one more update must show: the queue unchanged, the invariant and the fuses kept. -/
theorem Keeps.next {t : State} (h : Keeps b s) (hq : t.pending = s.pending) (hi : s.Inv → t.Inv ∧ FusesKept s t) : Keeps b t :=
  ⟨hq.trans h.1, fun i => ⟨(hi (h.2 i).1).1, (h.2 i).2.trans (hi (h.2 i).1).2⟩⟩

/-- New byte memories. -/
theorem keeps_mem {m f t : Mem} (h : Keeps b s) (hm : b.Inv → memWf m = true) (hf : b.Inv → memWf f = true)
    (ht : b.Inv → memWf t = true) : Keeps b { s with mem := m, flash := f, tileMem := t } :=
  ⟨h.1, fun i => ⟨⟨hm i, hf i, ht i, (h.2 i).1.4, (h.2 i).1.5⟩, ⟨(h.2 i).2.1, (h.2 i).2.2, (h.2 i).2.3, (h.2 i).2.4, (h.2 i).2.5,
    (h.2 i).2.6, (h.2 i).2.7, (h.2 i).2.8, (h.2 i).2.9, (h.2 i).2.10, (h.2 i).2.11, (h.2 i).2.12⟩⟩⟩

/-- A new event log. -/
theorem keeps_events {l : List EventRec} (h : Keeps b s) (hl : s.Inv → eventsOk l = true) : Keeps b { s with events := l } :=
  h.next rfl fun i => ⟨⟨i.1, i.2, i.3, hl i, i.5⟩, ⟨rfl, rfl, List.prefix_rfl, Nat.le_refl _, Nat.le_refl _, Nat.le_refl _,
    Nat.le_refl _, Nat.le_refl _, Nat.le_refl _, id, id, id⟩⟩

theorem eventsOk_drop {l : List EventRec} (h : eventsOk l = true) : eventsOk (l.drop 1) = true := by
  simp only [eventsOk, Bool.and_eq_true, decide_eq_true_eq, List.all_eq_true] at h ⊢
  exact ⟨by simp; omega, fun e he => h.2 e (List.mem_of_mem_drop he)⟩

theorem eventsOk_push {l : List EventRec} {e : EventRec} (h : eventsOk l = true) (hc : legalCode e.code = true) :
    eventsOk (if (l ++ [e]).length ≤ 1024 then l ++ [e] else (l ++ [e]).drop 1) = true := by
  simp only [eventsOk, Bool.and_eq_true, decide_eq_true_eq, List.all_eq_true] at h ⊢
  constructor
  · split
    · assumption
    · simp; omega
  · intro x hx
    have : x ∈ l ++ [e] := by
      split at hx
      · exact hx
      · exact List.mem_of_mem_drop hx
    rcases List.mem_append.1 this with hx | hx
    · exact h.2 x hx
    · rw [List.mem_singleton.1 hx]; exact hc

/-- New life-cycle registers. -/
theorem keeps_lc {l : LifeCycle} (h : Keeps b s) (hl : s.Inv → FusesOk l ∧ FusesKept s { s with lc := l }) :
    Keeps b { s with lc := l } :=
  h.next rfl fun i => ⟨⟨i.1, i.2, i.3, i.4, (hl i).1⟩, (hl i).2⟩

/-- A new persistent record. -/
theorem keeps_record {r : PRecord} (h : Keeps b s) (hr : s.record.committed <+: r.committed) : Keeps b { s with record := r } :=
  h.next rfl fun i => ⟨⟨i.1, i.2, i.3, i.4, i.5⟩, ⟨rfl, rfl, hr, Nat.le_refl _, Nat.le_refl _, Nat.le_refl _,
    Nat.le_refl _, Nat.le_refl _, Nat.le_refl _, id, id, id⟩⟩

theorem keeps_getD {o : Option State} {d : State} (h : ∀ t, o = some t → Keeps b t) (hd : Keeps b d) : Keeps b (o.getD d) := by
  cases o with
  | none => exact hd
  | some t => exact h t rfl

theorem keeps_ite {c : Prop} [Decidable c] {x y : State} (hx : Keeps b x) (hy : Keeps b y) : Keeps b (if c then x else y) := by
  split <;> assumption

theorem keeps_foldl {α : Type} {f : State → α → State} {l : List α} (hf : ∀ s x, Keeps b s → Keeps b (f s x))
    (h : Keeps b s) : Keeps b (l.foldl f s) := by
  induction l generalizing s with
  | nil => exact h
  | cons a t ih => exact ih (hf _ _ h)

theorem keeps_foldr {α : Type} {f : α → State → State} {l : List α} (hf : ∀ x s, Keeps b s → Keeps b (f x s))
    (h : Keeps b s) : Keeps b (l.foldr f s) := by
  induction l with
  | nil => exact h
  | cons a t ih => exact hf _ _ ih

theorem keeps_foldl_snd {α β : Type} {f : β × State → α → β × State} {l : List α} {p : β × State}
    (hf : ∀ p x, Keeps b p.2 → Keeps b (f p x).2) (h : Keeps b p.2) : Keeps b (l.foldl f p).2 := by
  induction l generalizing p with
  | nil => exact h
  | cons a t ih => exact ih (hf _ _ h)

theorem keeps_foldl_fst {α β : Type} {f : State × β → α → State × β} {l : List α} {p : State × β}
    (hf : ∀ p x, Keeps b p.1 → Keeps b (f p x).1) (h : Keeps b p.1) : Keeps b (l.foldl f p).1 := by
  induction l generalizing p with
  | nil => exact h
  | cons a t ih => exact ih (hf _ _ h)

theorem keeps_fst {β : Type} {p : State × β} {t : State} {y : β} (e : p = (t, y)) (h : Keeps b p.1) : Keeps b t := by
  rw [e] at h; exact h

theorem keeps_snd {α : Type} {p : α × State} {a : α} {t : State} (e : p = (a, t)) (h : Keeps b p.2) : Keeps b t := by
  rw [e] at h; exact h

theorem onWf_keeps {i : Instr} {t t' : State} (e : onWf i t = .next t') (h : Keeps b t) : Keeps b t' := by
  unfold onWf at e
  split at e
  · cases e; exact h
  · cases e

section
variable {x0 : Nat} {x1 : List Out} {x2 : Option ReadRet} {x3 : Quartz} {x4 : NatSet} {x5 : NatSet} {x6 : Tbl Nat} {x7
  : Tbl Ext} {x8 : List NatSet} {x9 : List TierReq} {x10 : Tbl Bucket} {x11 : Tbl Nat} {x12 : NatSet} {x13 : Wrc} {x14
  : Tbl Bucket} {x15 : Tbl Stack} {x16 : Nat × NatSet} {x17 : List Window} {x18 : Tbl Tender} {x19 : Tbl Line} {x20 :
  Tbl Home} {x21 : List WaitReq} {x22 : Tbl Hart} {x23 : Tbl RangeFlush} {x24 : Tbl LinkDir} {x25 : Nat} {x26 : List
  Nat} {x27 : Bool} {x28 : Tbl Port} {x29 : Tbl Laser} {x30 : Option Route} {x31 : Remote} {x32 : Tbl Coll} {x33 : Tbl
  (List CollPacket)} {x34 : Tbl Nat} {x35 : List Repair} {x36 : List Repair} {x37 : Tbl Tile} {x38 : Tbl Cube} {x39 :
  Tbl (Option Nat)} {x40 : Tbl Part} {x41 : Tbl Job} {x42 : Tbl Seq} {x43 : Tbl QCtx} {x44 : Tbl Region} {x45 : Dbl}
  {x46 : Pcie} {x47 : Tbl Nat} {x48 : Tbl DrayWait} {x49 : Option Nat} {x50 : Bool} {x51 : Tbl Chan} {x52 : Tbl Nat}
  {x53 : Tbl Vault} {x54 : Receipts} {x55 : Power} {x56 : Thermal} {x57 : BringUp} {x58 : Pins} {x59 : Tbl Mgmt} {x60
  : Nat}

/-- No other field takes part. -/
theorem keeps_mk_iff : Keeps b { s with
    freeCtr := x0, out := x1, ret := x2, quartz := x3, poison := x4, flashPoison := x5, lineErr := x6, exts := x7,
    freeFrames := x8, tierWait := x9, hbmBuckets := x10, hbmRows := x11, deadCh := x12, wrc := x13, flBuckets := x14,
    flStacks := x15, sectors := x16, windows := x17, tenders := x18, dir := x19, homes := x20, reqWait := x21, harts
    := x22, rfs := x23, links := x24, level := x25, revs := x26, degraded := x27, ports := x28, lasers := x29, route
    := x30, remote := x31, colls := x32, collEarly := x33, tileErr := x34, fuses := x35, repairs := x36, tiles := x37,
    cubes := x38, map := x39, parts := x40, lastJobs := x41, seqs := x42, queues := x43, regions := x44, dbl := x45,
    pcie := x46, drayLast := x47, drayWait := x48, active := x49, standby := x50, chans := x51, ctr := x52, vaults :=
    x53, rcpt := x54, power := x55, thermal := x56, bu := x57, pins := x58, mgmt := x59, tap := x60 } = Keeps b s := by
  apply propext
  constructor
  · intro h
    exact ⟨h.1, fun i => ⟨⟨(h.2 i).1.1, (h.2 i).1.2, (h.2 i).1.3, (h.2 i).1.4, (h.2 i).1.5⟩, ⟨(h.2 i).2.1, (h.2 i).2.2, (h.2 i).2.3,
      (h.2 i).2.4, (h.2 i).2.5, (h.2 i).2.6, (h.2 i).2.7, (h.2 i).2.8, (h.2 i).2.9, (h.2 i).2.10, (h.2 i).2.11, (h.2 i).2.12⟩⟩⟩
  · intro h
    exact ⟨h.1, fun i => ⟨⟨(h.2 i).1.1, (h.2 i).1.2, (h.2 i).1.3, (h.2 i).1.4, (h.2 i).1.5⟩, ⟨(h.2 i).2.1, (h.2 i).2.2, (h.2 i).2.3,
      (h.2 i).2.4, (h.2 i).2.5, (h.2 i).2.6, (h.2 i).2.7, (h.2 i).2.8, (h.2 i).2.9, (h.2 i).2.10, (h.2 i).2.11, (h.2 i).2.12⟩⟩⟩

theorem keeps_mk (h : Keeps b s) : Keeps b { s with
    freeCtr := x0, out := x1, ret := x2, quartz := x3, poison := x4, flashPoison := x5, lineErr := x6, exts := x7,
    freeFrames := x8, tierWait := x9, hbmBuckets := x10, hbmRows := x11, deadCh := x12, wrc := x13, flBuckets := x14,
    flStacks := x15, sectors := x16, windows := x17, tenders := x18, dir := x19, homes := x20, reqWait := x21, harts
    := x22, rfs := x23, links := x24, level := x25, revs := x26, degraded := x27, ports := x28, lasers := x29, route
    := x30, remote := x31, colls := x32, collEarly := x33, tileErr := x34, fuses := x35, repairs := x36, tiles := x37,
    cubes := x38, map := x39, parts := x40, lastJobs := x41, seqs := x42, queues := x43, regions := x44, dbl := x45,
    pcie := x46, drayLast := x47, drayWait := x48, active := x49, standby := x50, chans := x51, ctr := x52, vaults :=
    x53, rcpt := x54, power := x55, thermal := x56, bu := x57, pins := x58, mgmt := x59, tap := x60 } :=
  keeps_mk_iff.mpr h

theorem keeps_mems {m f t : Mem} (h : Keeps b s) (hm : b.Inv → memWf m = true) (hf : b.Inv → memWf f = true)
    (ht : b.Inv → memWf t = true) : Keeps b { s with
    mem := m, flash := f, tileMem := t, freeCtr := x0, out := x1, ret := x2, quartz := x3, poison := x4, flashPoison
    := x5, lineErr := x6, exts := x7, freeFrames := x8, tierWait := x9, hbmBuckets := x10, hbmRows := x11, deadCh :=
    x12, wrc := x13, flBuckets := x14, flStacks := x15, sectors := x16, windows := x17, tenders := x18, dir := x19,
    homes := x20, reqWait := x21, harts := x22, rfs := x23, links := x24, level := x25, revs := x26, degraded := x27,
    ports := x28, lasers := x29, route := x30, remote := x31, colls := x32, collEarly := x33, tileErr := x34, fuses :=
    x35, repairs := x36, tiles := x37, cubes := x38, map := x39, parts := x40, lastJobs := x41, seqs := x42, queues :=
    x43, regions := x44, dbl := x45, pcie := x46, drayLast := x47, drayWait := x48, active := x49, standby := x50,
    chans := x51, ctr := x52, vaults := x53, rcpt := x54, power := x55, thermal := x56, bu := x57, pins := x58, mgmt
    := x59, tap := x60 } :=
  keeps_mk (s := { s with mem := m, flash := f, tileMem := t }) (keeps_mem h hm hf ht)

end

end Sys2Proof.Machine
end

