-- ==== Sys2Proof/Laws/KeepsMemory.lean ====
section
/-! SUPPORT. What Laws/Keeps.lean says, of the shared operations, the tier manager and the mailbox. -/

set_option maxRecDepth 20000
set_option linter.unusedTactic false
set_option linter.unreachableTactic false
set_option linter.unusedVariables false
set_option linter.unusedSimpArgs false

namespace Sys2Proof.Machine

variable {b0 : State}

theorem setHart_keeps (h : Nat) (x : Hart) {s : State} (hk : Keeps b0 s) : Keeps b0 (setHart h x s) := by
  unfold setHart
  try dsimp only
  repeat' first
    | with_reducible first
      | intro _ | assumption | apply keeps_ite | simp only [keeps_mk_iff] | split | dsimp only

theorem modHart_keeps (h : Nat) (f : Hart → Hart) {s : State} (hk : Keeps b0 s) : Keeps b0 (modHart h f s) := by
  unfold modHart
  try dsimp only
  repeat' first
    | with_reducible first
      | intro _ | assumption | apply setHart_keeps | apply keeps_ite | simp only [keeps_mk_iff] | split | dsimp only

theorem wrX_keeps (h r : Nat) (v : Word) {s : State} (hk : Keeps b0 s) : Keeps b0 (wrX h r v s) := by
  unfold wrX
  try dsimp only
  repeat' first
    | with_reducible first
      | intro _ | assumption | apply modHart_keeps | apply keeps_ite | simp only [keeps_mk_iff] | split | dsimp only

theorem raiseTrap_keeps (h : Nat) (t : Trap) (v : Nat) {s : State} (hk : Keeps b0 s) : Keeps b0 (raiseTrap h t v s) := by
  unfold raiseTrap
  try dsimp only
  repeat' first
    | with_reducible first
      | intro _ | assumption | apply modHart_keeps | apply keeps_ite | simp only [keeps_mk_iff] | split | dsimp only

theorem setQueue_keeps (q : Nat) (x : QCtx) {s : State} (hk : Keeps b0 s) : Keeps b0 (setQueue q x s) := by
  unfold setQueue
  try dsimp only
  repeat' first
    | with_reducible first
      | intro _ | assumption | apply keeps_ite | simp only [keeps_mk_iff] | split | dsimp only

theorem setRegion_keeps (r : Nat) (x : Region) {s : State} (hk : Keeps b0 s) : Keeps b0 (setRegion r x s) := by
  unfold setRegion
  try dsimp only
  repeat' first
    | with_reducible first
      | intro _ | assumption | apply keeps_ite | simp only [keeps_mk_iff] | split | dsimp only

theorem setChan_keeps (c : Nat) (x : Chan) {s : State} (hk : Keeps b0 s) : Keeps b0 (setChan c x s) := by
  unfold setChan
  try dsimp only
  repeat' first
    | with_reducible first
      | intro _ | assumption | apply keeps_ite | simp only [keeps_mk_iff] | split | dsimp only

theorem setPart_keeps (p : Nat) (x : Part) {s : State} (hk : Keeps b0 s) : Keeps b0 (setPart p x s) := by
  unfold setPart
  try dsimp only
  repeat' first
    | with_reducible first
      | intro _ | assumption | apply keeps_ite | simp only [keeps_mk_iff] | split | dsimp only

theorem setSeq_keeps (n : Nat) (x : Seq) {s : State} (hk : Keeps b0 s) : Keeps b0 (setSeq n x s) := by
  unfold setSeq
  try dsimp only
  repeat' first
    | with_reducible first
      | intro _ | assumption | apply keeps_ite | simp only [keeps_mk_iff] | split | dsimp only

theorem setTile_keeps (t : Nat) (x : Tile) {s : State} (hk : Keeps b0 s) : Keeps b0 (setTile t x s) := by
  unfold setTile
  try dsimp only
  repeat' first
    | with_reducible first
      | intro _ | assumption | apply keeps_ite | simp only [keeps_mk_iff] | split | dsimp only

theorem setCube_keeps (t c : Nat) (x : Cube) {s : State} (hk : Keeps b0 s) : Keeps b0 (setCube t c x s) := by
  unfold setCube
  try dsimp only
  repeat' first
    | with_reducible first
      | intro _ | assumption | apply keeps_ite | simp only [keeps_mk_iff] | split | dsimp only

theorem setPort_keeps (p : Nat) (x : Port) {s : State} (hk : Keeps b0 s) : Keeps b0 (setPort p x s) := by
  unfold setPort
  try dsimp only
  repeat' first
    | with_reducible first
      | intro _ | assumption | apply keeps_ite | simp only [keeps_mk_iff] | split | dsimp only

theorem setLink_keeps (l d : Nat) (x : LinkDir) {s : State} (hk : Keeps b0 s) : Keeps b0 (setLink l d x s) := by
  unfold setLink
  try dsimp only
  repeat' first
    | with_reducible first
      | intro _ | assumption | apply keeps_ite | simp only [keeps_mk_iff] | split | dsimp only

theorem setHome_keeps (u : Nat) (x : Home) {s : State} (hk : Keeps b0 s) : Keeps b0 (setHome u x s) := by
  unfold setHome
  try dsimp only
  repeat' first
    | with_reducible first
      | intro _ | assumption | apply keeps_ite | simp only [keeps_mk_iff] | split | dsimp only

theorem setLine_keeps (l : Nat) (x : Line) {s : State} (hk : Keeps b0 s) : Keeps b0 (setLine l x s) := by
  unfold setLine
  try dsimp only
  repeat' first
    | with_reducible first
      | intro _ | assumption | apply keeps_ite | simp only [keeps_mk_iff] | split | dsimp only

theorem setStack_keeps (f : Nat) (x : Stack) {s : State} (hk : Keeps b0 s) : Keeps b0 (setStack f x s) := by
  unfold setStack
  try dsimp only
  repeat' first
    | with_reducible first
      | intro _ | assumption | apply keeps_ite | simp only [keeps_mk_iff] | split | dsimp only

theorem setVault_keeps (d : Nat) (x : Vault) {s : State} (hk : Keeps b0 s) : Keeps b0 (setVault d x s) := by
  unfold setVault
  try dsimp only
  repeat' first
    | with_reducible first
      | intro _ | assumption | apply keeps_ite | simp only [keeps_mk_iff] | split | dsimp only

theorem setMgmt_keeps (d : Nat) (x : Mgmt) {s : State} (hk : Keeps b0 s) : Keeps b0 (setMgmt d x s) := by
  unfold setMgmt
  try dsimp only
  repeat' first
    | with_reducible first
      | intro _ | assumption | apply keeps_ite | simp only [keeps_mk_iff] | split | dsimp only

theorem setRf_keeps (d : Nat) (x : RangeFlush) {s : State} (hk : Keeps b0 s) : Keeps b0 (setRf d x s) := by
  unfold setRf
  try dsimp only
  repeat' first
    | with_reducible first
      | intro _ | assumption | apply keeps_ite | simp only [keeps_mk_iff] | split | dsimp only

theorem setJob_keeps (p : Nat) (j : Job) {s : State} (hk : Keeps b0 s) : Keeps b0 (setJob p j s) := by
  unfold setJob
  try dsimp only
  repeat' first
    | with_reducible first
      | intro _ | assumption | apply setPart_keeps | apply keeps_ite | simp only [keeps_mk_iff] | split | dsimp only

theorem modJob_keeps (p : Nat) (f : Job → Job) {s : State} (hk : Keeps b0 s) : Keeps b0 (modJob p f s) := by
  unfold modJob
  try dsimp only
  repeat' first
    | with_reducible first
      | intro _ | assumption | apply setJob_keeps | apply keeps_ite | simp only [keeps_mk_iff]
      | refine keeps_snd (by assumption) ?_ | split | dsimp only

theorem draw_keeps {s : State} (hk : Keeps b0 s) : Keeps b0 (draw s).2 := by
  unfold draw
  try dsimp only
  repeat' first
    | with_reducible first
      | intro _ | assumption | apply keeps_ite | simp only [keeps_mk_iff] | split | dsimp only

theorem advance_keeps (t : Nat) {s : State} (hk : Keeps b0 s) : Keeps b0 (advance t s) := by
  unfold advance
  try dsimp only
  repeat' first
    | with_reducible first
      | intro _ | assumption | apply keeps_ite | simp only [keeps_mk_iff] | split | dsimp only

theorem tick_keeps {s : State} (hk : Keeps b0 s) : Keeps b0 (tick s) := by
  unfold tick
  try dsimp only
  repeat' first
    | with_reducible first
      | intro _ | assumption | apply keeps_ite | simp only [keeps_mk_iff] | split | dsimp only

theorem bump_keeps (item idx n : Nat) {s : State} (hk : Keeps b0 s) : Keeps b0 (bump item idx n s) := by
  unfold bump
  try dsimp only
  repeat' first
    | with_reducible first
      | intro _ | assumption | apply keeps_ite | simp only [keeps_mk_iff] | split | dsimp only

theorem pend_keeps (h file id : Nat) {s : State} (hk : Keeps b0 s) : Keeps b0 (pend h file id s) := by
  unfold pend
  try dsimp only
  repeat' first
    | with_reducible first
      | intro _ | assumption | apply modHart_keeps | apply keeps_ite | simp only [keeps_mk_iff] | split | dsimp only

theorem raiseEvent_keeps (code unit cause : Nat) {s : State} (hk : Keeps b0 s) (hc : legalCode code = true) :
    Keeps b0 (raiseEvent code unit cause s) := by
  have hl := keeps_events (l := if (s.events ++ [{ code, unit, cause, at_ := now s : EventRec }]).length ≤ 1024
    then s.events ++ [{ code, unit, cause, at_ := now s : EventRec }] else (s.events ++ [{ code, unit, cause, at_ := now s : EventRec }]).drop 1) hk
    fun i => eventsOk_push i.4 hc
  unfold raiseEvent bump
  dsimp only
  split <;> rename_i h <;> first | rw [if_pos h] at hl | rw [if_neg h] at hl
  all_goals
    split <;> first | exact hl | exact keeps_mk (s := { s with events := _ }) hl

theorem send_keeps (o : Out) {s : State} (hk : Keeps b0 s) : Keeps b0 (send o s) := by
  unfold send
  try dsimp only
  repeat' first
    | with_reducible first
      | intro _ | assumption | apply keeps_ite | simp only [keeps_mk_iff] | split | dsimp only

theorem recordEntry_keeps (e : RecEntry) {s : State} (hk : Keeps b0 s) : Keeps b0 (recordEntry e s) :=
  keeps_record hk List.prefix_rfl

theorem setExt_keeps (x : Nat) (e : Ext) {s : State} (hk : Keeps b0 s) : Keeps b0 (setExt x e s) := by
  unfold setExt
  try dsimp only
  repeat' first
    | with_reducible first
      | intro _ | assumption | apply keeps_ite | simp only [keeps_mk_iff] | split | dsimp only

theorem touchExt_keeps (x : Nat) {s : State} (hk : Keeps b0 s) : Keeps b0 (touchExt x s) := by
  unfold touchExt
  try dsimp only
  repeat' first
    | with_reducible first
      | intro _ | assumption | apply setExt_keeps | apply keeps_ite | simp only [keeps_mk_iff]
      | refine keeps_snd (by assumption) ?_ | split | dsimp only

theorem touch_keeps (a n : Nat) {s : State} (hk : Keeps b0 s) : Keeps b0 (touch a n s) := by
  unfold touch
  try dsimp only
  repeat' first
    | with_reducible first
      | intro _ | assumption | apply touchExt_keeps | apply keeps_foldl | apply keeps_foldl_snd | apply keeps_ite
      | simp only [keeps_mk_iff] | split | dsimp only

theorem markDirty_keeps (a n : Nat) {s : State} (hk : Keeps b0 s) : Keeps b0 (markDirty a n s) := by
  unfold markDirty
  try dsimp only
  repeat' first
    | with_reducible first
      | intro _ | assumption | apply setExt_keeps | apply keeps_foldl | apply keeps_foldl_snd | apply keeps_ite
      | simp only [keeps_mk_iff] | refine keeps_snd (by assumption) ?_ | split | dsimp only

theorem clearPoison_keeps (a n : Nat) {s : State} (hk : Keeps b0 s) : Keeps b0 (clearPoison a n s) := by
  unfold clearPoison
  try dsimp only
  repeat' first
    | with_reducible first
      | intro _ | assumption | apply keeps_ite | simp only [keeps_mk_iff] | split | dsimp only

theorem poke_keeps (a : Nat) (bs : List Byte) {s : State} (hk : Keeps b0 s) : Keeps b0 (poke a bs s) := by
  unfold poke
  apply touch_keeps
  apply clearPoison_keeps
  apply markDirty_keeps
  exact keeps_mems hk (fun i => memWf_write (hk.mem i)) hk.flash hk.tileMem

theorem pokeMask_keeps (a : Nat) (mask : Nat) (bs : List Byte) {s : State} (hk : Keeps b0 s) : Keeps b0 (pokeMask a mask bs s) := by
  unfold pokeMask
  split
  · exact hk
  apply touch_keeps
  apply clearPoison_keeps
  apply markDirty_keeps
  exact keeps_mems hk (fun i => memWf_writeMask (hk.mem i)) hk.flash hk.tileMem

theorem countPoison_keeps (l : Nat) {s : State} (hk : Keeps b0 s) : Keeps b0 (countPoison l s) := by
  unfold countPoison
  try dsimp only
  repeat' first
    | with_reducible first
      | intro _ | assumption | apply bump_keeps | apply keeps_ite | simp only [keeps_mk_iff] | split | dsimp only

theorem hbmCorrected_keeps (l : Nat) {s : State} (hk : Keeps b0 s) : Keeps b0 (hbmCorrected l s) := by
  unfold hbmCorrected
  try dsimp only
  repeat' first
    | with_reducible first
      | intro _ | assumption | apply bump_keeps | apply recordEntry_keeps | apply keeps_ite | simp only [keeps_mk_iff]
      | split | dsimp only

theorem actOnError_keeps (l : Nat) (o : EccOutcome) {s : State} (hk : Keeps b0 s) : Keeps b0 (actOnError l o s) := by
  have h1 : Keeps b0 { s with lineErr := tblDel l s.lineErr } := keeps_mk (s := s) hk
  cases o with
  | clean =>
    unfold actOnError
    dsimp only
    split
    · exact hk
    · refine keeps_foldl (fun u i hu => ?_) h1
      have hd := draw_keeps hu
      exact keeps_mems hd (fun i => memWf_write (hd.mem i)) hd.flash hd.tileMem
  | corrected => exact hbmCorrected_keeps _ h1
  | uncorrectable => exact keeps_mk (s := { s with lineErr := _ }) h1

theorem meetError_keeps (l : Nat) {s : State} (hk : Keeps b0 s) : Keeps b0 (meetError l s) := by
  unfold meetError
  try dsimp only
  repeat' first
    | with_reducible first
      | intro _ | assumption | apply actOnError_keeps | apply keeps_ite | simp only [keeps_mk_iff] | split | dsimp only

theorem carryErrors_keeps (x : Nat) {s : State} (hk : Keeps b0 s) : Keeps b0 (carryErrors x s) := by
  unfold carryErrors
  try dsimp only
  repeat' first
    | with_reducible first
      | intro _ | assumption | apply meetError_keeps | apply keeps_foldl | apply keeps_foldl_snd | apply keeps_ite
      | simp only [keeps_mk_iff] | split | dsimp only

theorem chargeHbm_keeps (k cost : Nat) {s : State} (hk : Keeps b0 s) : Keeps b0 (chargeHbm k cost s) := by
  unfold chargeHbm
  try dsimp only
  repeat' first
    | with_reducible first
      | intro _ | assumption | apply keeps_ite | simp only [keeps_mk_iff] | refine keeps_snd (by assumption) ?_ | split
      | dsimp only

theorem chargeFlash_keeps (k cost : Nat) {s : State} (hk : Keeps b0 s) : Keeps b0 (chargeFlash k cost s) := by
  unfold chargeFlash
  try dsimp only
  repeat' first
    | with_reducible first
      | intro _ | assumption | apply keeps_ite | simp only [keeps_mk_iff] | refine keeps_snd (by assumption) ?_ | split
      | dsimp only

theorem chargeFrame_keeps (die p sectors : Nat) {s : State} (hk : Keeps b0 s) : Keeps b0 (chargeFrame die p sectors s) :=
    by
  unfold chargeFrame
  try dsimp only
  repeat' first
    | with_reducible first
      | intro _ | assumption | apply chargeHbm_keeps | apply keeps_foldl | apply keeps_foldl_snd | apply keeps_ite
      | simp only [keeps_mk_iff] | split | dsimp only

theorem drainHome_keeps (u : Nat) (p : DWrite → Bool) {s : State} (hk : Keeps b0 s) : Keeps b0 (drainHome u p s) := by
  unfold drainHome
  try dsimp only
  repeat' first
    | with_reducible first
      | intro _ | assumption | apply poke_keeps | apply setHome_keeps | apply keeps_foldl | apply keeps_foldl_snd
      | apply keeps_ite | simp only [keeps_mk_iff] | split | dsimp only

theorem recordRelease_keeps (l : Nat) (sc : Scope) (origin : Requester) (direct : Bool) {s : State} (hk : Keeps b0 s) :
    Keeps b0 (recordRelease l sc origin direct s) := by
  unfold recordRelease
  try dsimp only
  repeat' first
    | with_reducible first
      | intro _ | assumption | apply setHome_keeps | apply keeps_ite | simp only [keeps_mk_iff] | split | dsimp only

theorem forgetRelease_keeps (l : Nat) {s : State} (hk : Keeps b0 s) : Keeps b0 (forgetRelease l s) := by
  unfold forgetRelease
  try dsimp only
  repeat' first
    | with_reducible first
      | intro _ | assumption | apply setHome_keeps | apply keeps_ite | simp only [keeps_mk_iff] | split | dsimp only

theorem waitHold_keeps (l : Nat) {s : State} (hk : Keeps b0 s) : Keeps b0 (waitHold l s) := by
  unfold waitHold
  try dsimp only
  repeat' first
    | with_reducible first
      | intro _ | assumption | apply advance_keeps | apply keeps_ite | simp only [keeps_mk_iff] | split | dsimp only

theorem writeBackLine_keeps (l : Nat) {s : State} (hk : Keeps b0 s) : Keeps b0 (writeBackLine l s) := by
  unfold writeBackLine
  try dsimp only
  repeat' first
    | with_reducible first
      | intro _ | assumption | apply setLine_keeps | apply draw_keeps | apply poke_keeps | apply setHome_keeps
      | apply recordRelease_keeps | apply forgetRelease_keeps | apply keeps_ite | simp only [keeps_mk_iff]
      | refine keeps_snd (by assumption) ?_ | split | dsimp only

theorem recallLine_keeps (l : Nat) {s : State} (hk : Keeps b0 s) : Keeps b0 (recallLine l s) := by
  unfold recallLine
  try dsimp only
  repeat' first
    | with_reducible first
      | intro _ | assumption | apply writeBackLine_keeps | apply waitHold_keeps | apply keeps_ite
      | simp only [keeps_mk_iff] | split | dsimp only

theorem recallExtent_keeps (x : Nat) {s : State} (hk : Keeps b0 s) : Keeps b0 (recallExtent x s) := by
  unfold recallExtent
  try dsimp only
  repeat' first
    | with_reducible first
      | intro _ | assumption | apply recallLine_keeps | apply keeps_foldl | apply keeps_foldl_snd | apply keeps_ite
      | simp only [keeps_mk_iff] | split | dsimp only

theorem drainExtent_keeps (x : Nat) {s : State} (hk : Keeps b0 s) : Keeps b0 (drainExtent x s) := by
  unfold drainExtent
  try dsimp only
  repeat' first
    | with_reducible first
      | intro _ | assumption | apply drainHome_keeps | apply keeps_foldl | apply keeps_foldl_snd | apply keeps_ite
      | simp only [keeps_mk_iff] | split | dsimp only

theorem dropAheadExtent_keeps (x : Nat) {s : State} (hk : Keeps b0 s) : Keeps b0 (dropAheadExtent x s) := by
  unfold dropAheadExtent
  try dsimp only
  repeat' first
    | with_reducible first
      | intro _ | assumption | apply keeps_ite | simp only [keeps_mk_iff] | split | dsimp only

theorem settleExtent_keeps (x : Nat) {s : State} (hk : Keeps b0 s) : Keeps b0 (settleExtent x s) := by
  unfold settleExtent
  try dsimp only
  repeat' first
    | with_reducible first
      | intro _ | assumption | apply recallExtent_keeps | apply drainExtent_keeps | apply keeps_ite
      | simp only [keeps_mk_iff] | split | dsimp only

theorem forgetExtent_keeps (x : Nat) {s : State} (hk : Keeps b0 s) : Keeps b0 (forgetExtent x s) := by
  unfold forgetExtent
  try dsimp only
  repeat' first
    | with_reducible first
      | intro _ | assumption | apply dropAheadExtent_keeps | apply keeps_ite | simp only [keeps_mk_iff]
      | refine keeps_snd (by assumption) ?_ | split | dsimp only

theorem sendReply_keeps (m : RemoteMsg) (op : Nat) (data : List Byte) {s : State} (hk : Keeps b0 s) : Keeps b0 (sendReply
    m op data s) := by
  unfold sendReply
  try dsimp only
  repeat' first
    | with_reducible first
      | intro _ | assumption | apply send_keeps | apply keeps_ite | simp only [keeps_mk_iff] | split | dsimp only

theorem startPasses_keeps (x : Nat) (why : DemoteWhy) (r : Option TierReq) {s : State} (hk : Keeps b0 s) : Keeps b0
    (startPasses x why r s) := by
  unfold startPasses
  try dsimp only
  repeat' first
    | with_reducible first
      | intro _ | assumption | apply settleExtent_keeps | apply setExt_keeps | apply keeps_ite
      | simp only [keeps_mk_iff] | split | dsimp only

theorem takePoolFrame_keeps (die : Nat) {s : State} {u : State} {x : Nat} (e : takePoolFrame die s = some (x, u)) (hk :
    Keeps b0 s) : Keeps b0 u := by
  unfold takePoolFrame at e
  try dsimp only at e
  repeat' first | contradiction | (cases e) | split at e
  all_goals
    repeat' first
      | with_reducible first
        | intro _ | assumption | apply keeps_getD | apply keeps_ite | simp only [keeps_mk_iff]
        | refine keeps_snd (by assumption) ?_ | split | dsimp only

theorem freePoolFrame_keeps (die f : Nat) {s : State} (hk : Keeps b0 s) : Keeps b0 (freePoolFrame die f s) := by
  unfold freePoolFrame
  try dsimp only
  repeat' first
    | with_reducible first
      | intro _ | assumption | apply keeps_getD | apply keeps_ite | simp only [keeps_mk_iff] | split | dsimp only

theorem takeHeldFrame_keeps (p die : Nat) {s : State} {u : State} {x : Nat} (e : takeHeldFrame p die s = some (x, u)) (hk
    : Keeps b0 s) : Keeps b0 u := by
  unfold takeHeldFrame at e
  try dsimp only at e
  repeat' first | contradiction | (cases e) | split at e
  all_goals
    repeat' first
      | with_reducible first
        | intro _ | assumption | apply setPart_keeps | apply keeps_getD | apply keeps_ite | simp only [keeps_mk_iff]
        | refine keeps_snd (by assumption) ?_ | split | dsimp only

theorem giveHeldFrame_keeps (p die f : Nat) {s : State} (hk : Keeps b0 s) : Keeps b0 (giveHeldFrame p die f s) := by
  unfold giveHeldFrame
  try dsimp only
  repeat' first
    | with_reducible first
      | intro _ | assumption | apply setPart_keeps | apply freePoolFrame_keeps | apply keeps_getD | apply keeps_ite
      | simp only [keeps_mk_iff] | split | dsimp only

theorem releaseFrame_keeps (e : Ext) {s : State} (hk : Keeps b0 s) : Keeps b0 (releaseFrame e s) := by
  unfold releaseFrame
  try dsimp only
  repeat' first
    | with_reducible first
      | intro _ | assumption | apply giveHeldFrame_keeps | apply freePoolFrame_keeps | apply keeps_ite
      | simp only [keeps_mk_iff] | refine keeps_snd (by assumption) ?_ | split | dsimp only

theorem toFlash_keeps (x : Nat) {s : State} (hk : Keeps b0 s) : Keeps b0 (toFlash x s) := by
  unfold toFlash
  try dsimp only
  repeat' first
    | with_reducible first
      | intro _ | assumption | apply setExt_keeps | apply releaseFrame_keeps | apply keeps_ite
      | simp only [keeps_mk_iff] | split | dsimp only

theorem freshPages_keeps (x : Nat) (ks : BitVec 512) {s : State} (hk : Keeps b0 s) : Keeps b0 (freshPages x ks s) := by
  unfold freshPages
  try dsimp only
  repeat' first
    | with_reducible first
      | intro _ | assumption | apply setStack_keeps | apply keeps_foldl | apply keeps_foldl_snd | apply keeps_ite
      | simp only [keeps_mk_iff] | split | dsimp only

theorem commitFlash_keeps (x : Nat) {s : State} (hk : Keeps b0 s) : Keeps b0 (commitFlash x s) := by
  have h1 := freshPages_keeps x (extOf s x).copying (carryErrors_keeps x hk)
  exact keeps_mems h1 h1.mem (fun i => memWf_copyRange (h1.flash i)) h1.tileMem

theorem evict_keeps (x : Nat) {s : State} (hk : Keeps b0 s) : Keeps b0 (evict x s) := by
  unfold evict
  try dsimp only
  repeat' first
    | with_reducible first
      | intro _ | assumption | apply startPasses_keeps | apply keeps_ite | simp only [keeps_mk_iff] | split | dsimp only

theorem pinInPlace_keeps (p x : Nat) {s : State} {u : State} (e : pinInPlace p x s = some u) (hk : Keeps b0 s) : Keeps b0
    u := by
  unfold pinInPlace at e
  try dsimp only at e
  repeat' first | contradiction | (cases e) | split at e
  all_goals
    repeat' first
      | with_reducible first
        | intro _ | assumption | apply setExt_keeps | apply freePoolFrame_keeps
        | refine takeHeldFrame_keeps _ _ (by assumption) ?_ | apply keeps_ite | simp only [keeps_mk_iff]
        | refine keeps_snd (by assumption) ?_ | split | dsimp only

theorem moveFrame_keeps (r : TierReq) (die f : Nat) (pin : Option Nat) {s : State} (hk : Keeps b0 s) : Keeps b0 (moveFrame
    r die f pin s) := by
  unfold moveFrame
  try dsimp only
  repeat' first
    | with_reducible first
      | intro _ | assumption | apply carryErrors_keeps | apply chargeFrame_keeps | apply setExt_keeps
      | apply releaseFrame_keeps | apply keeps_ite | simp only [keeps_mk_iff] | refine keeps_snd (by assumption) ?_
      | split | dsimp only

theorem obtainFrame_keeps (r : TierReq) (die : Nat) (pin : Option Nat) {s : State} {t : State} (e : obtainFrame r die pin s = some t)
    (hk : Keeps b0 s) : Keeps b0 t := by
  unfold obtainFrame at e
  dsimp only at e
  have key : ∀ f s1, (match pin with | some p => takeHeldFrame p die s | none => takePoolFrame die s) = some (f, s1) → Keeps b0 s1 := by
    intro f s1 h
    split at h
    · exact takeHeldFrame_keeps _ _ h hk
    · exact takePoolFrame_keeps _ h hk
  split at e
  · cases e
  · rename_i f s1 h
    have hs := key _ _ h
    split at e <;> cases e
    · exact moveFrame_keeps _ _ _ _ hs
    · exact setExt_keeps _ _ hs

theorem waitFrame_keeps (r : TierReq) (die : Nat) (pin : Option Nat) {s : State} (hk : Keeps b0 s) : Keeps b0 (waitFrame r
    die pin s) := by
  unfold waitFrame
  try dsimp only
  repeat' first
    | with_reducible first
      | intro _ | assumption | apply evict_keeps | apply keeps_ite | simp only [keeps_mk_iff]
      | refine keeps_snd (by assumption) ?_ | split | dsimp only

theorem takeOrWait_keeps (r : TierReq) (die : Nat) (pin : Option Nat) {s : State} (hk : Keeps b0 s) : Keeps b0 (takeOrWait
    r die pin s) := by
  unfold takeOrWait
  try dsimp only
  repeat' first
    | with_reducible first
      | intro _ | assumption | apply waitFrame_keeps | apply keeps_getD
      | refine obtainFrame_keeps _ _ _ (by assumption) ?_ | apply keeps_ite | simp only [keeps_mk_iff] | split
      | dsimp only

theorem promoteResident_keeps (r : TierReq) (die : Nat) (pin : Option Nat) {s : State} (hk : Keeps b0 s) : Keeps b0
    (promoteResident r die pin s) := by
  unfold promoteResident
  try dsimp only
  repeat' first
    | with_reducible first
      | intro _ | assumption | apply waitFrame_keeps | apply setExt_keeps | apply takeOrWait_keeps | apply keeps_getD
      | refine pinInPlace_keeps _ _ (by assumption) ?_ | apply keeps_ite | simp only [keeps_mk_iff]
      | refine keeps_snd (by assumption) ?_ | split | dsimp only

theorem discardExt_keeps (x : Nat) {s : State} (hk : Keeps b0 s) : Keeps b0 (discardExt x s) := by
  have h1 := forgetExtent_keeps x hk
  have h2 : Keeps b0 { forgetExtent x s with
      flash := memClear (x * extSize) extSize (forgetExtent x s).flash,
      flashPoison := (forgetExtent x s).flashPoison.filter (fun l => decide (l / 32768 ≠ x)) } :=
    keeps_mems h1 h1.mem (fun i => memWf_clear (h1.flash i)) h1.tileMem
  unfold discardExt
  dsimp only
  apply toFlash_keeps
  split
  · exact keeps_mems h1 (fun i => memWf_copyRange (h1.mem i)) h1.flash h1.tileMem
  · exact keeps_mems h2 (fun i => memWf_copyRange (h2.mem i)) h2.flash h2.tileMem

theorem tierStart_keeps (r : TierReq) {s : State} (hk : Keeps b0 s) : Keeps b0 (tierStart r s) := by
  unfold tierStart
  try dsimp only
  repeat' first
    | with_reducible first
      | intro _ | assumption | apply setExt_keeps | apply promoteResident_keeps | apply takeOrWait_keeps
      | apply evict_keeps | apply startPasses_keeps | apply discardExt_keeps | apply keeps_ite
      | simp only [keeps_mk_iff] | refine keeps_snd (by assumption) ?_ | split | dsimp only

theorem tierDrain_keeps (x : Nat) {s : State} (hk : Keeps b0 s) : Keeps b0 (tierDrain x s) := by
  unfold tierDrain
  try dsimp only
  repeat' first
    | with_reducible first
      | intro _ | assumption | apply tierStart_keeps | apply setExt_keeps | apply keeps_foldl | apply keeps_foldl_snd
      | apply keeps_ite | simp only [keeps_mk_iff] | split | dsimp only

theorem retryFrame_keeps {s : State} (r : TierReq) (hk : Keeps b0 s) : Keeps b0 (retryFrame s r) := by
  unfold retryFrame
  try dsimp only
  repeat' first
    | with_reducible first
      | intro _ | assumption | apply takeOrWait_keeps | apply tierStart_keeps | apply tierDrain_keeps | apply keeps_ite
      | simp only [keeps_mk_iff] | refine keeps_snd (by assumption) ?_ | split | dsimp only

theorem tierRetry_keeps {s : State} (hk : Keeps b0 s) : Keeps b0 (tierRetry s) := by
  unfold tierRetry
  try dsimp only
  repeat' first
    | with_reducible first
      | intro _ | assumption | apply retryFrame_keeps | apply keeps_foldl | apply keeps_foldl_snd | apply keeps_ite
      | simp only [keeps_mk_iff] | split | dsimp only

theorem promoteSwitch_keeps (x : Nat) {s : State} (hk : Keeps b0 s) : Keeps b0 (promoteSwitch x s) := by
  unfold promoteSwitch
  try dsimp only
  repeat' first
    | with_reducible first
      | intro _ | assumption | apply setExt_keeps | apply keeps_ite | simp only [keeps_mk_iff] | split | dsimp only

theorem demoteSwitch_keeps (x : Nat) {s : State} (hk : Keeps b0 s) : Keeps b0 (demoteSwitch x s) := by
  unfold demoteSwitch
  try dsimp only
  repeat' first
    | with_reducible first
      | intro _ | assumption | apply commitFlash_keeps | apply setExt_keeps | apply toFlash_keeps | apply keeps_ite
      | simp only [keeps_mk_iff] | split | dsimp only

theorem holdWrite_keeps (x : Nat) (w : WaitReq) {s : State} (hk : Keeps b0 s) : Keeps b0 (holdWrite x w s) := by
  unfold holdWrite
  try dsimp only
  repeat' first
    | with_reducible first
      | intro _ | assumption | apply setExt_keeps | apply tierStart_keeps | apply keeps_ite | simp only [keeps_mk_iff]
      | split | dsimp only

theorem endTransition_keeps (again : List TierReq) (x : Nat) {s : State} (hk : Keeps b0 s) : Keeps b0 (endTransition again
    x s) := by
  unfold endTransition
  try dsimp only
  repeat' first
    | with_reducible first
      | intro _ | assumption | apply setExt_keeps | apply releaseFrame_keeps | apply keeps_ite
      | simp only [keeps_mk_iff] | refine keeps_snd (by assumption) ?_ | split | dsimp only

theorem tierPartReset_keeps (p : Nat) {s : State} (hk : Keeps b0 s) : Keeps b0 (tierPartReset p s) := by
  unfold tierPartReset
  try dsimp only
  repeat' first
    | with_reducible first
      | intro _ | assumption | apply endTransition_keeps | apply tierDrain_keeps | apply tierStart_keeps
      | apply tierRetry_keeps | apply keeps_foldl | apply keeps_foldl_snd | apply keeps_ite | simp only [keeps_mk_iff]
      | refine keeps_snd (by assumption) ?_ | split | dsimp only

theorem tierReset_keeps {s : State} (hk : Keeps b0 s) : Keeps b0 (tierReset s) := by
  unfold tierReset
  try dsimp only
  repeat' first
    | with_reducible first
      | intro _ | assumption | apply keeps_foldl | apply keeps_foldl_snd | apply keeps_getD | apply keeps_ite
      | simp only [keeps_mk_iff] | split | dsimp only

theorem tierPowerOn_keeps {s : State} (hk : Keeps b0 s) : Keeps b0 (tierPowerOn s) :=
  keeps_mems hk (fun i => memWf_part (hk.flash i)) (fun i => memWf_part (hk.flash i)) hk.tileMem

theorem checked_keeps (cs : List Check) (run : State → Reply × State) {s : State} (h0 : ∀ s, Keeps b0 s → Keeps b0 (run
    s).2) (hk : Keeps b0 s) : Keeps b0 (checked cs run s).2 := by
  unfold checked
  try dsimp only
  repeat' first
    | with_reducible first
      | intro _ | assumption | apply h0 | apply keeps_ite | simp only [keeps_mk_iff]
      | refine keeps_snd (by assumption) ?_ | split | dsimp only

theorem discardWrite_keeps (ch : Nat) {s : State} (hk : Keeps b0 s) : Keeps b0 (discardWrite ch s) := by
  unfold discardWrite
  try dsimp only
  repeat' first
    | with_reducible first
      | intro _ | assumption | apply bump_keeps | apply setChan_keeps | apply keeps_ite | simp only [keeps_mk_iff]
      | split | dsimp only

theorem replyIrq_keeps (ch : Nat) {s : State} (hk : Keeps b0 s) : Keeps b0 (replyIrq ch s) := by
  unfold replyIrq
  try dsimp only
  repeat' first
    | with_reducible first
      | intro _ | assumption | apply pend_keeps | apply keeps_ite | simp only [keeps_mk_iff] | split | dsimp only

theorem putReply_keeps (ch : Nat) (ws : List Word) {s : State} (hk : Keeps b0 s) : Keeps b0 (putReply ch ws s) := by
  unfold putReply
  try dsimp only
  repeat' first
    | with_reducible first
      | intro _ | assumption | apply replyIrq_keeps | apply setChan_keeps | apply keeps_ite | simp only [keeps_mk_iff]
      | split | dsimp only

theorem answer_keeps (f : Nat → Cmd) (ch hdr : Nat) (w : List Word) {s : State} (h0 : ∀ code ch seq w s, Keeps b0 s →
    Keeps b0 (f code ch seq w s).2) (hk : Keeps b0 s) : Keeps b0 (answer f ch hdr w s).2 := by
  unfold answer
  try dsimp only
  repeat' first
    | with_reducible first
      | intro _ | assumption | apply h0 | apply keeps_ite | simp only [keeps_mk_iff]
      | refine keeps_snd (by assumption) ?_ | split | dsimp only

theorem conclude_keeps (ch hdr : Nat) (r : Reply) {s : State} (hk : Keeps b0 s) : Keeps b0 (conclude ch hdr r s) := by
  unfold conclude
  try dsimp only
  repeat' first
    | with_reducible first
      | intro _ | assumption | apply setChan_keeps | apply putReply_keeps | apply keeps_ite | simp only [keeps_mk_iff]
      | split | dsimp only

theorem execute_keeps (f : Nat → Cmd) (ch hdr : Nat) (w : List Word) {s : State} (h0 : ∀ code ch seq w s, Keeps b0 s →
    Keeps b0 (f code ch seq w s).2) (hk : Keeps b0 s) : Keeps b0 (execute f ch hdr w s) := by
  unfold execute
  try dsimp only
  repeat' first
    | with_reducible first
      | intro _ | assumption | apply h0 | apply conclude_keeps | apply answer_keeps | apply keeps_ite
      | simp only [keeps_mk_iff] | split | dsimp only

theorem finishDeferred_keeps (ch cmd seq : Nat) (r : Reply) {s : State} (hk : Keeps b0 s) : Keeps b0 (finishDeferred ch
    cmd seq r s) := by
  unfold finishDeferred
  try dsimp only
  repeat' first
    | with_reducible first
      | intro _ | assumption | apply putReply_keeps | apply setChan_keeps | apply keeps_ite | simp only [keeps_mk_iff]
      | split | dsimp only

theorem goWith_keeps (f : Nat → Cmd) (ch : Nat) {s : State} (h0 : ∀ code ch seq w s, Keeps b0 s → Keeps b0 (f code ch seq
    w s).2) (hk : Keeps b0 s) : Keeps b0 (goWith f ch s) := by
  unfold goWith
  try dsimp only
  repeat' first
    | with_reducible first
      | intro _ | assumption | apply h0 | apply discardWrite_keeps | apply execute_keeps | apply putReply_keeps
      | apply setChan_keeps | apply keeps_ite | simp only [keeps_mk_iff] | refine keeps_snd (by assumption) ?_ | split | dsimp only

theorem serveWaiting_keeps (f : Nat → Cmd) (n : Nat) {s : State} (h0 : ∀ code ch seq w s, Keeps b0 s → Keeps b0 (f code ch
    seq w s).2) (hk : Keeps b0 s) : Keeps b0 (serveWaiting f n s) := by
  induction n generalizing s with
  | zero => exact hk
  | succ n ih =>
    unfold serveWaiting
    dsimp only
    split
    · exact hk
    · exact ih (execute_keeps _ _ _ _ h0 (setChan_keeps _ _ hk))

theorem putRequest_keeps (ch : Nat) (hdr : Word) (pl : List Word) {s : State} (hk : Keeps b0 s) : Keeps b0 (putRequest ch
    hdr pl s) := by
  unfold putRequest
  try dsimp only
  repeat' first
    | with_reducible first
      | intro _ | assumption | apply setChan_keeps | apply keeps_ite | simp only [keeps_mk_iff] | split | dsimp only

theorem urgentWith_keeps (f : Nat → Cmd) (ch ucmd : Nat) (uarg : Nat) {s : State} (h0 : ∀ code ch seq w s, Keeps b0 s →
    Keeps b0 (f code ch seq w s).2) (hk : Keeps b0 s) : Keeps b0 (urgentWith f ch ucmd uarg s) := by
  unfold urgentWith
  try dsimp only
  repeat' first
    | with_reducible first
      | intro _ | assumption | apply h0 | apply discardWrite_keeps | apply replyIrq_keeps | apply setChan_keeps
      | apply keeps_ite | simp only [keeps_mk_iff] | refine keeps_snd (by assumption) ?_ | split | dsimp only

theorem submit_keeps (f : Nat → Cmd) (code ch : Nat) (sub : Submission) {s : State} (h0 : ∀ code ch seq w s, Keeps b0 s →
    Keeps b0 (f code ch seq w s).2) (hk : Keeps b0 s) : Keeps b0 (submit f code ch sub s) := by
  unfold submit
  try dsimp only
  repeat' first
    | with_reducible first
      | intro _ | assumption | apply h0 | apply goWith_keeps | apply putRequest_keeps | apply urgentWith_keeps
      | apply keeps_ite | simp only [keeps_mk_iff] | refine keeps_snd (by assumption) ?_ | split | dsimp only

end Sys2Proof.Machine
end

