-- ==== Sys2Proof/Laws/KeepsSchedule.lean ====
section
/-! SUPPORT. What Laws/Keeps.lean says, of the sequencers, the tiles and their engines. -/

set_option maxRecDepth 20000
set_option linter.unusedTactic false
set_option linter.unreachableTactic false
set_option linter.unusedVariables false
set_option linter.unusedSimpArgs false

namespace Sys2Proof.Machine

variable {b0 : State}

theorem launch_keeps (st : Nat) (waits : Nat) {s : State} (hk : Keeps b0 s) : Keeps b0 (launch st waits s) := by
  unfold launch
  try dsimp only
  repeat' first
    | with_reducible first
      | intro _ | assumption | apply advance_keeps | apply modJob_keeps | apply setSeq_keeps | apply keeps_ite
      | simp only [keeps_mk_iff] | refine keeps_snd (by assumption) ?_ | split | dsimp only

theorem complete_keeps (st idx : Nat) {s : State} (hk : Keeps b0 s) : Keeps b0 (complete st idx s) := by
  unfold complete
  try dsimp only
  repeat' first
    | with_reducible first
      | intro _ | assumption | apply setSeq_keeps | apply keeps_ite | simp only [keeps_mk_iff] | split | dsimp only

theorem noteNeeds_keeps (p st idx : Nat) {s : State} (hk : Keeps b0 s) : Keeps b0 (noteNeeds p st idx s) := by
  unfold noteNeeds
  try dsimp only
  repeat' first
    | with_reducible first
      | intro _ | assumption | apply setSeq_keeps | apply keeps_ite | simp only [keeps_mk_iff] | split | dsimp only

theorem makeVisible_keeps (st cls : Nat) {s : State} (hk : Keeps b0 s) : Keeps b0 (makeVisible st cls s) := by
  unfold makeVisible
  try dsimp only
  repeat' first
    | with_reducible first
      | intro _ | assumption | apply setSeq_keeps | apply keeps_ite | simp only [keeps_mk_iff] | split | dsimp only

theorem rerouteTime_keeps {s : State} (hk : Keeps b0 s) : Keeps b0 (rerouteTime s) := by
  unfold rerouteTime
  try dsimp only
  repeat' first
    | with_reducible first
      | intro _ | assumption | apply keeps_ite | simp only [keeps_mk_iff] | split | dsimp only

theorem flood_keeps (n : Notice) (skip : Option Nat) {s : State} (hk : Keeps b0 s) : Keeps b0 (flood n skip s) := by
  unfold flood
  try dsimp only
  repeat' first
    | with_reducible first
      | intro _ | assumption | apply send_keeps | apply keeps_foldl | apply keeps_foldl_snd | apply keeps_ite
      | simp only [keeps_mk_iff] | split | dsimp only

theorem issue_keeps (p kind cause epoch instant n : Nat) {s : State} (hk : Keeps b0 s) : Keeps b0 (issue p kind cause
    epoch instant n s) := by
  unfold issue
  try dsimp only
  repeat' first
    | with_reducible first
      | intro _ | assumption | apply setJob_keeps | apply flood_keeps | apply keeps_ite | simp only [keeps_mk_iff]
      | refine keeps_snd (by assumption) ?_ | split | dsimp only

theorem issueAbort_keeps (p cause : Nat) {s : State} (hk : Keeps b0 s) : Keeps b0 (issueAbort p cause s) := by
  unfold issueAbort
  try dsimp only
  repeat' first
    | with_reducible first
      | intro _ | assumption | apply issue_keeps | apply keeps_ite | simp only [keeps_mk_iff]
      | refine keeps_snd (by assumption) ?_ | split | dsimp only

theorem issueReplay_keeps (p : Nat) {s : State} (hk : Keeps b0 s) : Keeps b0 (issueReplay p s) := by
  unfold issueReplay
  try dsimp only
  repeat' first
    | with_reducible first
      | intro _ | assumption | apply issue_keeps | apply keeps_ite | simp only [keeps_mk_iff]
      | refine keeps_snd (by assumption) ?_ | split | dsimp only

theorem modBatches_keeps (f : Batch → Batch) {s : State} (hk : Keeps b0 s) : Keeps b0 (modBatches f s) := by
  unfold modBatches
  try dsimp only
  repeat' first
    | with_reducible first
      | intro _ | assumption | apply keeps_ite | simp only [keeps_mk_iff] | split | dsimp only

theorem closeBatch_keeps {s : State} (hk : Keeps b0 s) : Keeps b0 (closeBatch s) := by
  unfold closeBatch
  try dsimp only
  repeat' first
    | with_reducible first
      | intro _ | assumption | apply modBatches_keeps | apply keeps_ite | simp only [keeps_mk_iff] | split | dsimp only

theorem stopSigning_keeps {s : State} (hk : Keeps b0 s) : Keeps b0 (stopSigning s) := by
  unfold stopSigning
  try dsimp only
  repeat' first
    | with_reducible first
      | intro _ | assumption | apply modBatches_keeps | apply keeps_ite | simp only [keeps_mk_iff] | split | dsimp only

theorem appendReceipt_keeps (bs : List Byte) {s : State} (hk : Keeps b0 s) : Keeps b0 (appendReceipt bs s) := by
  unfold appendReceipt
  try dsimp only
  repeat' first
    | with_reducible first
      | intro _ | assumption | apply closeBatch_keeps | apply keeps_ite | simp only [keeps_mk_iff]
      | refine keeps_snd (by assumption) ?_ | split | dsimp only

theorem pushRec_keeps (q : Nat) (r : Rec) {s : State} (hk : Keeps b0 s) : Keeps b0 (pushRec q r s) := by
  unfold pushRec
  try dsimp only
  repeat' first
    | with_reducible first
      | intro _ | assumption | apply bump_keeps | apply setQueue_keeps | apply keeps_ite | simp only [keeps_mk_iff]
      | refine keeps_snd (by assumption) ?_ | split | dsimp only

theorem commitFlags_keeps (p : Nat) {s : State} (hk : Keeps b0 s) : Keeps b0 (commitFlags p s) := by
  unfold commitFlags
  try dsimp only
  repeat' first
    | with_reducible first
      | intro _ | assumption | apply setJob_keeps | apply setTile_keeps | apply keeps_foldl | apply keeps_foldl_snd
      | apply keeps_ite | simp only [keeps_mk_iff] | refine keeps_snd (by assumption) ?_ | split | dsimp only

theorem dropFlags_keeps (p : Nat) {s : State} (hk : Keeps b0 s) : Keeps b0 (dropFlags p s) := by
  unfold dropFlags
  try dsimp only
  repeat' first
    | with_reducible first
      | intro _ | assumption | apply setTile_keeps | apply modJob_keeps | apply keeps_foldl | apply keeps_foldl_snd
      | apply keeps_ite | simp only [keeps_mk_iff] | split | dsimp only

theorem havocCube_keeps (t : Nat) {s : State} (k : Nat) (hk : Keeps b0 s) : Keeps b0 (havocCube t s k) := by
  unfold havocCube
  try dsimp only
  repeat' first
    | with_reducible first
      | intro _ | assumption | apply setCube_keeps | apply keeps_ite | simp only [keeps_mk_iff] | split | dsimp only

theorem stopTile_keeps (p st t : Nat) {s : State} (hk : Keeps b0 s) : Keeps b0 (stopTile p st t s) := by
  unfold stopTile
  try dsimp only
  repeat' first
    | with_reducible first
      | intro _ | assumption | apply havocCube_keeps | apply setTile_keeps | apply keeps_foldl | apply keeps_foldl_snd
      | apply keeps_ite | simp only [keeps_mk_iff] | refine keeps_snd (by assumption) ?_ | split | dsimp only

theorem stopActions_keeps (p : Nat) {s : State} (hk : Keeps b0 s) : Keeps b0 (stopActions p s) := by
  unfold stopActions
  try dsimp only
  repeat' first
    | with_reducible first
      | intro _ | assumption | apply stopTile_keeps | apply setSeq_keeps | apply keeps_foldl | apply keeps_foldl_snd
      | apply keeps_ite | simp only [keeps_mk_iff] | refine keeps_snd (by assumption) ?_ | split | dsimp only

theorem setSeqs_keeps (p : Nat) (f : Seq → Seq) {s : State} (hk : Keeps b0 s) : Keeps b0 (setSeqs p f s) := by
  unfold setSeqs
  try dsimp only
  repeat' first
    | with_reducible first
      | intro _ | assumption | apply setSeq_keeps | apply keeps_foldl | apply keeps_foldl_snd | apply keeps_ite
      | simp only [keeps_mk_iff] | split | dsimp only

theorem flushAccepted_keeps (q status : Nat) {s : State} (hk : Keeps b0 s) : Keeps b0 (flushAccepted q status s) := by
  unfold flushAccepted
  try dsimp only
  repeat' first
    | with_reducible first
      | intro _ | assumption | apply setQueue_keeps | apply keeps_ite | simp only [keeps_mk_iff] | split | dsimp only

theorem finishJob_keeps (p status : Nat) (record : Bool) {s : State} (hk : Keeps b0 s) : Keeps b0 (finishJob p status
    record s) := by
  unfold finishJob
  try dsimp only
  repeat' first
    | with_reducible first
      | intro _ | assumption | apply appendReceipt_keeps | apply pushRec_keeps | apply keeps_ite
      | simp only [keeps_mk_iff] | refine keeps_snd (by assumption) ?_ | split | dsimp only

theorem zeroTile_keeps (t : Nat) {s : State} (hk : Keeps b0 s) : Keeps b0 (zeroTile t s) :=
  keeps_mems hk hk.mem hk.flash (fun i => memWf_clear (hk.tileMem i))

theorem moveTile_keeps (l : Nat) (to_ : Option Nat) {s : State} (hk : Keeps b0 s) : Keeps b0 (moveTile l to_ s) := by
  unfold moveTile
  try dsimp only
  repeat' first
    | with_reducible first
      | intro _ | assumption | apply zeroTile_keeps | apply keeps_ite | simp only [keeps_mk_iff]
      | refine keeps_snd (by assumption) ?_ | split | dsimp only

theorem remapTile_keeps (l : Nat) {s : State} (hk : Keeps b0 s) : Keeps b0 (remapTile l s) := by
  unfold remapTile
  try dsimp only
  repeat' first
    | with_reducible first
      | intro _ | assumption | apply moveTile_keeps | apply keeps_ite | simp only [keeps_mk_iff] | split | dsimp only

theorem moveDue_keeps (m : Nat × Option Nat) {s : State} (hk : Keeps b0 s) : Keeps b0 (moveDue m s) := by
  unfold moveDue
  try dsimp only
  repeat' first
    | with_reducible first
      | intro _ | assumption | apply remapTile_keeps | apply moveTile_keeps | apply keeps_ite | simp only [keeps_mk_iff]
      | refine keeps_snd (by assumption) ?_ | split | dsimp only

theorem closeJob_keeps (p st : Nat) {s : State} (hk : Keeps b0 s) : Keeps b0 (closeJob p st s) := by
  unfold closeJob
  try dsimp only
  repeat' first
    | with_reducible first
      | intro _ | assumption | apply setPart_keeps | apply moveDue_keeps | apply setSeqs_keeps
      | apply finishDeferred_keeps | apply keeps_foldl | apply keeps_foldl_snd | apply keeps_getD | apply keeps_ite
      | simp only [keeps_mk_iff] | refine keeps_snd (by assumption) ?_ | split | dsimp only

theorem flushSession_keeps (p q status : Nat) {s : State} (hk : Keeps b0 s) : Keeps b0 (flushSession p q status s) := by
  unfold flushSession
  try dsimp only
  repeat' first
    | with_reducible first
      | intro _ | assumption | apply pushRec_keeps | apply flushAccepted_keeps | apply keeps_ite
      | simp only [keeps_mk_iff] | refine keeps_snd (by assumption) ?_ | split | dsimp only

theorem abortJob_keeps (p status : Nat) (record : Bool) {s : State} (hk : Keeps b0 s) : Keeps b0 (abortJob p status record
    s) := by
  unfold abortJob
  try dsimp only
  repeat' first
    | with_reducible first
      | intro _ | assumption | apply stopActions_keeps | apply dropFlags_keeps | apply finishJob_keeps
      | apply flushSession_keeps | apply closeJob_keeps | apply keeps_ite | simp only [keeps_mk_iff]
      | refine keeps_snd (by assumption) ?_ | split | dsimp only

theorem patchReceipts_keeps (rs : List Rec) {s : State} (hk : Keeps b0 s) : Keeps b0 (patchReceipts rs s) := by
  unfold patchReceipts
  try dsimp only
  repeat' first
    | with_reducible first
      | intro _ | assumption | apply keeps_foldl | apply keeps_foldl_snd | apply keeps_ite | simp only [keeps_mk_iff]
      | refine keeps_snd (by assumption) ?_ | split | dsimp only

theorem resetQueue_keeps (q : Nat) {s : State} (hk : Keeps b0 s) : Keeps b0 (resetQueue q s) := by
  unfold resetQueue
  try dsimp only
  repeat' first
    | with_reducible first
      | intro _ | assumption | apply patchReceipts_keeps | apply setQueue_keeps | apply keeps_ite
      | simp only [keeps_mk_iff] | refine keeps_snd (by assumption) ?_ | split | dsimp only

theorem noteDegraded_keeps (p : Nat) {s : State} (hk : Keeps b0 s) : Keeps b0 (noteDegraded p s) := by
  unfold noteDegraded
  try dsimp only
  repeat' first
    | with_reducible first
      | intro _ | assumption | apply modJob_keeps | apply keeps_ite | simp only [keeps_mk_iff] | split | dsimp only

theorem resetTile_keeps (t : Nat) {s : State} (hk : Keeps b0 s) : Keeps b0 (resetTile t s) := by
  unfold resetTile
  try dsimp only
  repeat' first
    | with_reducible first
      | intro _ | assumption | apply zeroTile_keeps | apply keeps_ite | simp only [keeps_mk_iff] | split | dsimp only

theorem endCommands_keeps (p : Nat) {s : State} (hk : Keeps b0 s) : Keeps b0 (endCommands p s) := by
  unfold endCommands
  try dsimp only
  repeat' first
    | with_reducible first
      | intro _ | assumption | apply finishDeferred_keeps | apply setPart_keeps | apply keeps_foldl | apply keeps_ite
      | simp only [keeps_mk_iff] | split | dsimp only

theorem partReset_keeps (p : Nat) {s : State} (hk : Keeps b0 s) : Keeps b0 (partReset p s) := by
  unfold partReset
  try dsimp only
  repeat' first
    | with_reducible first
      | intro _ | assumption | apply tierPartReset_keeps | apply abortJob_keeps | apply endCommands_keeps
      | apply resetQueue_keeps | apply resetTile_keeps | apply keeps_foldl | apply keeps_foldl_snd | apply keeps_ite | simp only [keeps_mk_iff]
      | refine keeps_snd (by assumption) ?_ | split | dsimp only

theorem remapPending_keeps (p : Nat) {s : State} (hk : Keeps b0 s) : Keeps b0 (remapPending p s) := by
  unfold remapPending
  try dsimp only
  repeat' first
    | with_reducible first
      | intro _ | assumption | apply modJob_keeps | apply moveDue_keeps | apply issueAbort_keeps | apply keeps_foldl
      | apply keeps_foldl_snd | apply keeps_ite | simp only [keeps_mk_iff] | refine keeps_snd (by assumption) ?_ | split
      | dsimp only

theorem jobDone_keeps (p : Nat) {s : State} (hk : Keeps b0 s) : Keeps b0 (jobDone p s) := by
  unfold jobDone
  try dsimp only
  repeat' first
    | with_reducible first
      | intro _ | assumption | apply finishJob_keeps | apply setPart_keeps | apply setSeqs_keeps | apply setJob_keeps
      | apply closeJob_keeps | apply keeps_ite | simp only [keeps_mk_iff] | refine keeps_snd (by assumption) ?_ | split
      | dsimp only

theorem commitEpoch_keeps (p : Nat) {s : State} (hk : Keeps b0 s) : Keeps b0 (commitEpoch p s) := by
  unfold commitEpoch
  try dsimp only
  repeat' first
    | with_reducible first
      | intro _ | assumption | apply remapPending_keeps | apply commitFlags_keeps | apply modJob_keeps
      | apply jobDone_keeps | apply noteDegraded_keeps | apply setSeqs_keeps | apply keeps_ite
      | simp only [keeps_mk_iff] | refine keeps_snd (by assumption) ?_ | split | dsimp only

theorem tryCommit_keeps (p : Nat) {s : State} (hk : Keeps b0 s) : Keeps b0 (tryCommit p s) := by
  unfold tryCommit
  try dsimp only
  repeat' first
    | with_reducible first
      | intro _ | assumption | apply commitEpoch_keeps | apply keeps_ite | simp only [keeps_mk_iff]
      | refine keeps_snd (by assumption) ?_ | split | dsimp only

theorem endSlot_keeps (p : Nat) {s : State} (hk : Keeps b0 s) : Keeps b0 (endSlot p s) := by
  unfold endSlot
  try dsimp only
  repeat' first
    | with_reducible first
      | intro _ | assumption | apply closeJob_keeps | apply flushSession_keeps | apply setSeqs_keeps | apply keeps_ite
      | simp only [keeps_mk_iff] | refine keeps_snd (by assumption) ?_ | split | dsimp only

theorem beginJob_keeps (p t : Nat) {s : State} (hk : Keeps b0 s) : Keeps b0 (beginJob p t s) := by
  unfold beginJob
  try dsimp only
  repeat' first
    | with_reducible first
      | intro _ | assumption | apply remapPending_keeps | apply modJob_keeps | apply noteDegraded_keeps
      | apply setSeqs_keeps | apply setSeq_keeps | apply issueAbort_keeps | apply keeps_foldl | apply keeps_foldl_snd
      | apply keeps_ite | simp only [keeps_mk_iff] | refine keeps_snd (by assumption) ?_ | split | dsimp only

theorem retireTile_keeps (t cause : Nat) {s : State} (hk : Keeps b0 s) : Keeps b0 (retireTile t cause s) := by
  unfold retireTile
  try dsimp only
  repeat' first
    | with_reducible first
      | intro _ | assumption | apply raiseEvent_keeps | apply recordEntry_keeps | apply setJob_keeps
      | apply setSeq_keeps | apply stopTile_keeps | apply issueReplay_keeps | apply issueAbort_keeps
      | apply remapTile_keeps | apply keeps_getD | apply keeps_ite | simp only [keeps_mk_iff]
      | refine keeps_snd (by assumption) ?_ | split | dsimp only
    | exact rfl

theorem setTest_keeps (t m : Nat) (x : TestSt) {s : State} (hk : Keeps b0 s) : Keeps b0 (setTest t m x s) := by
  unfold setTest
  try dsimp only
  repeat' first
    | with_reducible first
      | intro _ | assumption | apply setTile_keeps | apply keeps_ite | simp only [keeps_mk_iff] | split | dsimp only

theorem abandonStep_keeps (t m : Nat) {s : State} (hk : Keeps b0 s) : Keeps b0 (abandonStep t m s) := by
  unfold abandonStep
  try dsimp only
  repeat' first
    | with_reducible first
      | intro _ | assumption | apply bump_keeps | apply setTest_keeps | apply keeps_ite | simp only [keeps_mk_iff]
      | split | dsimp only

theorem endSteps_keeps (t a n : Nat) {s : State} (hk : Keeps b0 s) : Keeps b0 (endSteps t a n s) := by
  unfold endSteps
  try dsimp only
  repeat' first
    | with_reducible first
      | intro _ | assumption | apply abandonStep_keeps | apply keeps_foldl | apply keeps_foldl_snd | apply keeps_ite
      | simp only [keeps_mk_iff] | split | dsimp only

theorem countCorrected_keeps (t m n : Nat) {s : State} (hk : Keeps b0 s) : Keeps b0 (countCorrected t m n s) := by
  unfold countCorrected
  try dsimp only
  repeat' first
    | with_reducible first
      | intro _ | assumption | apply bump_keeps | apply keeps_ite | simp only [keeps_mk_iff] | split | dsimp only

theorem eccRead_keeps (t a n : Nat) {s : State} (hk : Keeps b0 s) : Keeps b0 (eccRead t a n s) := by
  unfold eccRead
  try dsimp only
  repeat' first
    | with_reducible first
      | intro _ | assumption | apply countCorrected_keeps | apply retireTile_keeps | apply keeps_foldl
      | apply keeps_foldl_snd | apply keeps_ite | simp only [keeps_mk_iff] | split | dsimp only

theorem eccWrite_keeps (t a n : Nat) {s : State} (hk : Keeps b0 s) : Keeps b0 (eccWrite t a n s) := by
  unfold eccWrite
  try dsimp only
  repeat' first
    | with_reducible first
      | intro _ | assumption | apply keeps_ite | simp only [keeps_mk_iff] | refine keeps_snd (by assumption) ?_ | split
      | dsimp only

theorem checkReach_keeps (t who a n : Nat) {s : State} (hk : Keeps b0 s) : Keeps b0 (checkReach t who a n s) := by
  unfold checkReach
  try dsimp only
  repeat' first
    | with_reducible first
      | intro _ | assumption | apply endSteps_keeps | apply retireTile_keeps | apply keeps_ite
      | simp only [keeps_mk_iff] | refine keeps_snd (by assumption) ?_ | split | dsimp only

theorem readReach_keeps (t who a n : Nat) {s : State} (hk : Keeps b0 s) : Keeps b0 (readReach t who a n s) := by
  unfold readReach
  try dsimp only
  repeat' first
    | with_reducible first
      | intro _ | assumption | apply eccRead_keeps | apply checkReach_keeps | apply keeps_ite | simp only [keeps_mk_iff]
      | split | dsimp only

theorem tilePut_keeps (t who : Nat) (a : Nat) (v : Byte) {s : State} (hk : Keeps b0 s) : Keeps b0 (tilePut t who a v s) := by
  unfold tilePut
  split
  · split
    · exact keeps_mems hk hk.mem hk.flash (fun i => memWf_set (hk.tileMem i))
    · exact hk
  · exact hk

theorem tilePuts_keeps (t who a : Nat) (bs : List Byte) {s : State} (hk : Keeps b0 s) : Keeps b0 (tilePuts t who a bs s) := by
  induction bs generalizing a s with
  | nil => exact hk
  | cons b bs ih => exact ih _ (tilePut_keeps _ _ _ _ hk)

theorem tileWrite_keeps (t who a : Nat) (bs : List Byte) {s : State} (hk : Keeps b0 s) : Keeps b0 (tileWrite t who a bs s)
    := by
  unfold tileWrite
  try dsimp only
  repeat' first
    | with_reducible first
      | intro _ | assumption | apply tilePuts_keeps | apply eccWrite_keeps | apply keeps_ite | simp only [keeps_mk_iff]
      | refine keeps_snd (by assumption) ?_ | split | dsimp only

theorem tileBits_keeps (t who a o w v : Nat) {s : State} (hk : Keeps b0 s) : Keeps b0 (tileBits t who a o w v s) := by
  unfold tileBits
  try dsimp only
  repeat' first
    | with_reducible first
      | intro _ | assumption | apply tileWrite_keeps | apply keeps_ite | simp only [keeps_mk_iff] | split | dsimp only

theorem applyGrant_keeps (t : Nat) (d : List Word) {s : State} (hk : Keeps b0 s) : Keeps b0 (applyGrant t d s) := by
  unfold applyGrant
  try dsimp only
  repeat' first
    | with_reducible first
      | intro _ | assumption | apply setTile_keeps | apply keeps_foldl | apply keeps_foldl_snd | apply keeps_ite
      | simp only [keeps_mk_iff] | refine keeps_snd (by assumption) ?_ | split | dsimp only

theorem loadPanel_keeps (t : Nat) (c : CubeDesc) (k : Nat) {s : State} (hk : Keeps b0 s) : Keeps b0 (loadPanel t c k s) :=
    by
  unfold loadPanel
  try dsimp only
  repeat' first
    | with_reducible first
      | intro _ | assumption | apply setCube_keeps | apply keeps_ite | simp only [keeps_mk_iff] | split | dsimp only

theorem tileFlags_keeps (t : Nat) (ovf clamp : Bool) (n m : Nat) {s : State} (hk : Keeps b0 s) : Keeps b0 (tileFlags t ovf
    clamp n m s) := by
  unfold tileFlags
  try dsimp only
  repeat' first
    | with_reducible first
      | intro _ | assumption | apply setTile_keeps | apply keeps_ite | simp only [keeps_mk_iff]
      | refine keeps_snd (by assumption) ?_ | split | dsimp only

theorem stepCube_keeps (t : Nat) (c : CubeDesc) (q k : Nat) {s : State} (hk : Keeps b0 s) : Keeps b0 (stepCube t c q k s)
    := by
  unfold stepCube
  try dsimp only
  repeat' first
    | with_reducible first
      | intro _ | assumption | apply tileFlags_keeps | apply setCube_keeps | apply keeps_ite | simp only [keeps_mk_iff]
      | refine keeps_snd (by assumption) ?_ | split | dsimp only

theorem putElem_keeps (t : Nat) (c : CubeDesc) (f : OutFmt) (q row col code : Nat) {s : State} (hk : Keeps b0 s) : Keeps
    b0 (putElem t c f q row col code s) := by
  unfold putElem
  try dsimp only
  repeat' first
    | with_reducible first
      | intro _ | assumption | apply tileBits_keeps | apply keeps_ite | simp only [keeps_mk_iff] | split | dsimp only

theorem drainCube_keeps (t : Nat) (c : CubeDesc) (f : OutFmt) (seed q k : Nat) {s : State} (hk : Keeps b0 s) : Keeps b0
    (drainCube t c f seed q k s) := by
  unfold drainCube
  try dsimp only
  repeat' first
    | with_reducible first
      | intro _ | assumption | apply putElem_keeps | apply keeps_foldl | apply keeps_foldl_snd | apply keeps_ite
      | simp only [keeps_mk_iff] | split | dsimp only

theorem drainMxCube_keeps (t : Nat) (c : CubeDesc) (f : OutFmt) (seed q k : Nat) {s : State} (hk : Keeps b0 s) : Keeps b0
    (drainMxCube t c f seed q k s) := by
  unfold drainMxCube
  try dsimp only
  repeat' first
    | with_reducible first
      | intro _ | assumption | apply putElem_keeps | apply keeps_foldl | apply keeps_foldl_snd | apply keeps_ite
      | simp only [keeps_mk_iff] | split | dsimp only

theorem drainScale_keeps (t : Nat) (c : CubeDesc) (f : OutFmt) (q g i : Nat) {s : State} (hk : Keeps b0 s) : Keeps b0
    (drainScale t c f q g i s) := by
  unfold drainScale
  try dsimp only
  repeat' first
    | with_reducible first
      | intro _ | assumption | apply tileWrite_keeps | apply tileFlags_keeps | apply keeps_ite
      | simp only [keeps_mk_iff] | refine keeps_snd (by assumption) ?_ | split | dsimp only

theorem drainRun_keeps (t : Nat) (c : CubeDesc) (seed q : Nat) {s : State} (hk : Keeps b0 s) : Keeps b0 (drainRun t c seed
    q s) := by
  unfold drainRun
  try dsimp only
  repeat' first
    | with_reducible first
      | intro _ | assumption | apply drainMxCube_keeps | apply drainScale_keeps | apply drainCube_keeps
      | apply keeps_foldl | apply keeps_foldl_snd | apply keeps_ite | simp only [keeps_mk_iff]
      | refine keeps_snd (by assumption) ?_ | split | dsimp only

theorem passFlags_keeps (t k : Nat) {s : State} (hk : Keeps b0 s) : Keeps b0 (passFlags t k s) := by
  unfold passFlags
  try dsimp only
  repeat' first
    | with_reducible first
      | intro _ | assumption | apply tileFlags_keeps | apply keeps_ite | simp only [keeps_mk_iff] | split | dsimp only

theorem cubeRun_keeps (t : Nat) (c : CubeDesc) (seed : Nat) {s : State} (q : Nat) (hk : Keeps b0 s) : Keeps b0 (cubeRun t
    c seed s q) := by
  unfold cubeRun
  try dsimp only
  repeat' first
    | with_reducible first
      | intro _ | assumption | apply stepCube_keeps | apply drainRun_keeps | apply passFlags_keeps | apply keeps_foldl
      | apply keeps_foldl_snd | apply keeps_ite | simp only [keeps_mk_iff] | split | dsimp only

theorem runCubeOp_keeps (t : Nat) (d : List Word) (seed : Nat) {s : State} (hk : Keeps b0 s) : Keeps b0 (runCubeOp t d
    seed s) := by
  unfold runCubeOp
  try dsimp only
  repeat' first
    | with_reducible first
      | intro _ | assumption | apply loadPanel_keeps | apply cubeRun_keeps | apply tileFlags_keeps
      | apply passFlags_keeps | apply checkReach_keeps | apply readReach_keeps | apply keeps_foldl
      | apply keeps_foldl_snd | apply keeps_ite | simp only [keeps_mk_iff] | split | dsimp only

theorem modVec_keeps (t : Nat) (f : Vec → Vec) {s : State} (hk : Keeps b0 s) : Keeps b0 (modVec t f s) := by
  unfold modVec
  try dsimp only
  repeat' first
    | with_reducible first
      | intro _ | assumption | apply setTile_keeps | apply keeps_ite | simp only [keeps_mk_iff] | split | dsimp only

theorem effVld_keeps (t : Nat) (w : Word) {s : State} (hk : Keeps b0 s) : Keeps b0 (effVld t w s) := by
  unfold effVld
  try dsimp only
  repeat' first
    | with_reducible first
      | intro _ | assumption | apply readReach_keeps | apply modVec_keeps | apply keeps_ite | simp only [keeps_mk_iff]
      | split | dsimp only

theorem effVst_keeps (t : Nat) (w : Word) {s : State} (hk : Keeps b0 s) : Keeps b0 (effVst t w s) := by
  unfold effVst
  try dsimp only
  repeat' first
    | with_reducible first
      | intro _ | assumption | apply tileWrite_keeps | apply checkReach_keeps | apply modVec_keeps | apply keeps_foldl
      | apply keeps_foldl_snd | apply keeps_ite | simp only [keeps_mk_iff] | split | dsimp only

theorem effCount_keeps (t : Nat) (r : Vec × Nat) (clamp : Bool) {s : State} (hk : Keeps b0 s) : Keeps b0 (effCount t r
    clamp s) := by
  unfold effCount
  try dsimp only
  repeat' first
    | with_reducible first
      | intro _ | assumption | apply modVec_keeps | apply tileFlags_keeps | apply keeps_ite | simp only [keeps_mk_iff]
      | refine keeps_snd (by assumption) ?_ | split | dsimp only

theorem vecEffect_keeps (t : Nat) (w : Word) {s : State} (hk : Keeps b0 s) : Keeps b0 (vecEffect t w s) := by
  unfold vecEffect
  try dsimp only
  repeat' first
    | with_reducible first
      | intro _ | assumption | apply modVec_keeps | apply effCount_keeps | apply effVld_keeps | apply effVst_keeps
      | apply keeps_ite | simp only [keeps_mk_iff] | split | dsimp only

theorem vecIssue_keeps (t : Nat) (w : Word) {s : State} (hk : Keeps b0 s) : Keeps b0 (vecIssue t w s) := by
  unfold vecIssue
  try dsimp only
  repeat' first
    | with_reducible first
      | intro _ | assumption | apply modVec_keeps | apply vecEffect_keeps | apply keeps_ite | simp only [keeps_mk_iff]
      | split | dsimp only

theorem vecRow_keeps (op t : Nat) (w : Word) {s : State} (hk : Keeps b0 s) : Keeps b0 (vecRow op t w s) := by
  unfold vecRow
  try dsimp only
  repeat' first
    | with_reducible first
      | intro _ | assumption | apply vecIssue_keeps | apply keeps_ite | simp only [keeps_mk_iff] | split | dsimp only

theorem vecRun_keeps (t n : Nat) {s : State} (hk : Keeps b0 s) : Keeps b0 (vecRun t n s) := by
  induction n generalizing s with
  | zero => exact hk
  | succ n ih =>
    unfold vecRun
    dsimp only
    split
    · exact ih (vecIssue_keeps _ _ hk)
    · exact hk

theorem runVectorProgram_keeps (t : Nat) (d : List Word) (seed : Nat) {s : State} (hk : Keeps b0 s) : Keeps b0
    (runVectorProgram t d seed s) := by
  unfold runVectorProgram
  try dsimp only
  repeat' first
    | with_reducible first
      | intro _ | assumption | apply readReach_keeps | apply vecRun_keeps | apply modVec_keeps | apply tileFlags_keeps
      | apply keeps_ite | simp only [keeps_mk_iff] | split | dsimp only

theorem arrayRead_keeps (x k : Nat) {s : State} (hk : Keeps b0 s) : Keeps b0 (arrayRead x k s) := by
  unfold arrayRead
  try dsimp only
  repeat' first
    | with_reducible first
      | intro _ | assumption | apply setStack_keeps | apply bump_keeps | apply keeps_ite | simp only [keeps_mk_iff]
      | split | dsimp only

theorem sectorArray_keeps (k : Nat) {s : State} (hk : Keeps b0 s) : Keeps b0 (sectorArray k s) := by
  unfold sectorArray
  try dsimp only
  repeat' first
    | with_reducible first
      | intro _ | assumption | apply arrayRead_keeps | apply keeps_ite | simp only [keeps_mk_iff] | split | dsimp only

theorem poisonSector_keeps (x k : Nat) {s : State} (hk : Keeps b0 s) : Keeps b0 (poisonSector x k s) := by
  unfold poisonSector
  try dsimp only
  repeat' first
    | with_reducible first
      | intro _ | assumption | apply bump_keeps | apply keeps_foldl | apply keeps_foldl_snd | apply keeps_ite
      | simp only [keeps_mk_iff] | split | dsimp only

theorem lineFetch_keeps (l : Nat) {s : State} (hk : Keeps b0 s) : Keeps b0 (lineFetch l s) := by
  unfold lineFetch
  try dsimp only
  repeat' first
    | with_reducible first
      | intro _ | assumption | apply meetError_keeps | apply touchExt_keeps | apply arrayRead_keeps | apply keeps_ite
      | simp only [keeps_mk_iff] | split | dsimp only

theorem switchBlock_keeps (f b n : Nat) {s : State} (hk : Keeps b0 s) : Keeps b0 (switchBlock f b n s) := by
  unfold switchBlock
  try dsimp only
  repeat' first
    | with_reducible first
      | intro _ | assumption | apply setStack_keeps | apply keeps_ite | simp only [keeps_mk_iff] | split | dsimp only

theorem settleRelocations_keeps (f : Nat) {s : State} (hk : Keeps b0 s) : Keeps b0 (settleRelocations f s) := by
  unfold settleRelocations
  try dsimp only
  repeat' first
    | with_reducible first
      | intro _ | assumption | apply draw_keeps | apply switchBlock_keeps | apply setStack_keeps | apply keeps_foldl
      | apply keeps_foldl_snd | apply keeps_ite | simp only [keeps_mk_iff] | refine keeps_snd (by assumption) ?_ | split
      | dsimp only

end Sys2Proof.Machine
end

