-- ==== Sys2Proof/Laws/KeepsCoherence.lean ====
section
/-! SUPPORT. What Laws/Keeps.lean says, of the coherent and the direct path, the read cache and the queues. -/

set_option maxRecDepth 20000
set_option linter.unusedTactic false
set_option linter.unreachableTactic false
set_option linter.unusedVariables false
set_option linter.unusedSimpArgs false

namespace Sys2Proof.Machine

variable {b0 : State}

theorem drainLine_keeps (l : Nat) {s : State} (hk : Keeps b0 s) : Keeps b0 (drainLine l s) := by
  unfold drainLine
  try dsimp only
  repeat' first
    | with_reducible first
      | intro _ | assumption | apply drainHome_keeps | apply keeps_ite | simp only [keeps_mk_iff] | split | dsimp only

theorem drainAll_keeps {s : State} (hk : Keeps b0 s) : Keeps b0 (drainAll s) := by
  unfold drainAll
  try dsimp only
  repeat' first
    | with_reducible first
      | intro _ | assumption | apply drainHome_keeps | apply setHome_keeps | apply keeps_foldl | apply keeps_foldl_snd
      | apply keeps_ite | simp only [keeps_mk_iff] | split | dsimp only

theorem dropAhead_keeps (l : Nat) {s : State} (hk : Keeps b0 s) : Keeps b0 (dropAhead l s) := by
  unfold dropAhead
  try dsimp only
  repeat' first
    | with_reducible first
      | intro _ | assumption | apply setHome_keeps | apply keeps_ite | simp only [keeps_mk_iff] | split | dsimp only

theorem checkAcquire_keeps (l : Nat) (sc : Scope) (r : Requester) (direct : Bool) {s : State} (hk : Keeps b0 s) : Keeps b0
    (checkAcquire l sc r direct s) := by
  unfold checkAcquire
  try dsimp only
  repeat' first
    | with_reducible first
      | intro _ | assumption | apply setHome_keeps | apply raiseEvent_keeps | apply keeps_ite | simp only [keeps_mk_iff]
      | refine keeps_snd (by assumption) ?_ | split | dsimp only
    | exact rfl

theorem loseReservations_keeps (l : Nat) (keep : Option Nat) {s : State} (hk : Keeps b0 s) : Keeps b0 (loseReservations l
    keep s) := by
  unfold loseReservations
  try dsimp only
  repeat' first
    | with_reducible first
      | intro _ | assumption | apply keeps_ite | simp only [keeps_mk_iff] | split | dsimp only

theorem invalidateLine_keeps (l : Nat) {s : State} (hk : Keeps b0 s) : Keeps b0 (invalidateLine l s) := by
  unfold invalidateLine
  try dsimp only
  repeat' first
    | with_reducible first
      | intro _ | assumption | apply writeBackLine_keeps | apply waitHold_keeps | apply loseReservations_keeps
      | apply setLine_keeps | apply keeps_ite | simp only [keeps_mk_iff] | split | dsimp only

theorem makeRoom_keeps (l : Nat) {s : State} (hk : Keeps b0 s) : Keeps b0 (makeRoom l s) := by
  unfold makeRoom
  try dsimp only
  repeat' first
    | with_reducible first
      | intro _ | assumption | apply draw_keeps | apply invalidateLine_keeps | apply keeps_getD | apply keeps_ite
      | simp only [keeps_mk_iff] | refine keeps_snd (by assumption) ?_ | split | dsimp only

theorem grantRead_keeps (h l : Nat) {s : State} (hk : Keeps b0 s) : Keeps b0 (grantRead h l s) := by
  unfold grantRead
  try dsimp only
  repeat' first
    | with_reducible first
      | intro _ | assumption | apply recallLine_keeps | apply makeRoom_keeps | apply lineFetch_keeps
      | apply setLine_keeps | apply keeps_getD | apply keeps_ite | simp only [keeps_mk_iff]
      | refine keeps_snd (by assumption) ?_ | split | dsimp only

theorem grantWrite_keeps (h l : Nat) {s : State} (hk : Keeps b0 s) : Keeps b0 (grantWrite h l s) := by
  unfold grantWrite
  try dsimp only
  repeat' first
    | with_reducible first
      | intro _ | assumption | apply makeRoom_keeps | apply waitHold_keeps | apply writeBackLine_keeps
      | apply lineFetch_keeps | apply clearPoison_keeps | apply markDirty_keeps | apply loseReservations_keeps
      | apply setLine_keeps | apply keeps_getD | apply keeps_ite | simp only [keeps_mk_iff] | split | dsimp only

theorem writeOwned_keeps (h l off : Nat) (d : List Byte) (rel : Option Scope) {s : State} (hk : Keeps b0 s) : Keeps b0
    (writeOwned h l off d rel s) := by
  unfold writeOwned
  try dsimp only
  repeat' first
    | with_reducible first
      | intro _ | assumption | apply grantWrite_keeps | apply setLine_keeps | apply keeps_ite | simp only [keeps_mk_iff]
      | split | dsimp only

theorem homeWrite_keeps (r : Requester) (l off : Nat) (d : List Byte) (rel : Option Scope) {s : State} (hk : Keeps b0 s) :
    Keeps b0 (homeWrite r l off d rel s) := by
  unfold homeWrite
  try dsimp only
  repeat' first
    | with_reducible first
      | intro _ | assumption | apply drainLine_keeps | apply invalidateLine_keeps | apply poke_keeps
      | apply recordRelease_keeps | apply dropAhead_keeps | apply forgetRelease_keeps | apply keeps_ite
      | simp only [keeps_mk_iff] | refine keeps_snd (by assumption) ?_ | split | dsimp only

theorem performWriteLine_keeps (r : Requester) (a : Nat) (d : List Byte) (rel : Option Scope) (l : Nat) {s : State} (hk :
    Keeps b0 s) : Keeps b0 (performWriteLine r a d rel l s) := by
  unfold performWriteLine
  try dsimp only
  repeat' first
    | with_reducible first
      | intro _ | assumption | apply holdWrite_keeps | apply homeWrite_keeps | apply writeOwned_keeps | apply keeps_ite
      | simp only [keeps_mk_iff] | refine keeps_snd (by assumption) ?_ | split | dsimp only

theorem fetchSectors_keeps (a n : Nat) {s : State} (hk : Keeps b0 s) : Keeps b0 (fetchSectors a n s) := by
  unfold fetchSectors
  try dsimp only
  repeat' first
    | with_reducible first
      | intro _ | assumption | apply sectorArray_keeps | apply keeps_foldl | apply keeps_foldl_snd | apply keeps_ite
      | simp only [keeps_mk_iff] | split | dsimp only

theorem fetchFor_keeps (r : Requester) (l : Nat) {s : State} (hk : Keeps b0 s) : Keeps b0 (fetchFor r l s) := by
  unfold fetchFor
  try dsimp only
  repeat' first
    | with_reducible first
      | intro _ | assumption | apply meetError_keeps | apply touchExt_keeps | apply lineFetch_keeps | apply keeps_ite
      | simp only [keeps_mk_iff] | split | dsimp only

theorem performReadLine_keeps (r : Requester) (acq : Option Scope) (l : Nat) {s : State} (hk : Keeps b0 s) : Keeps b0
    (performReadLine r acq l s).2 := by
  unfold performReadLine
  try dsimp only
  repeat' first
    | with_reducible first
      | intro _ | assumption | apply grantRead_keeps | apply checkAcquire_keeps | apply fetchFor_keeps
      | apply recallLine_keeps | apply countPoison_keeps | apply keeps_ite | simp only [keeps_mk_iff]
      | refine keeps_snd (by assumption) ?_ | split | dsimp only

theorem readLines_keeps (one : Nat → State → List Byte × State) (a n : Nat) {s : State} (h0 : ∀ l s, Keeps b0 s → Keeps b0
    (one l s).2) (hk : Keeps b0 s) : Keeps b0 (readLines one a n s).2 := by
  unfold readLines
  try dsimp only
  repeat' first
    | with_reducible first
      | intro _ | assumption | apply h0 | apply keeps_foldl | apply keeps_foldl_snd | apply keeps_ite
      | simp only [keeps_mk_iff] | refine keeps_snd (by assumption) ?_ | split | dsimp only

theorem returnData_keeps (r : Requester) (a : Nat) (v : List Byte) (p : Bool) {s : State} (hk : Keeps b0 s) : Keeps b0
    (returnData r a v p s) := by
  unfold returnData
  try dsimp only
  repeat' first
    | with_reducible first
      | intro _ | assumption | apply raiseTrap_keeps | apply send_keeps | apply keeps_ite | simp only [keeps_mk_iff]
      | refine keeps_snd (by assumption) ?_ | split | dsimp only

theorem serveWith_keeps (one : Requester → Option Scope → Nat → State → List Byte × State) (r : Requester) (a n : Nat)
    (acq : Option Scope) {s : State} (h0 : ∀ r acq l s, Keeps b0 s → Keeps b0 (one r acq l s).2) (hk : Keeps b0 s) : Keeps
    b0 (serveWith one r a n acq s) := by
  unfold serveWith
  try dsimp only
  repeat' first
    | with_reducible first
      | intro _ | assumption | apply h0 | apply returnData_keeps | apply countPoison_keeps | apply readLines_keeps
      | apply fetchSectors_keeps | apply keeps_ite | simp only [keeps_mk_iff] | refine keeps_snd (by assumption) ?_
      | split | dsimp only

theorem holdRead_keeps (x : Nat) (w : WaitReq) {s : State} (hk : Keeps b0 s) : Keeps b0 (holdRead x w s) := by
  unfold holdRead
  try dsimp only
  repeat' first
    | with_reducible first
      | intro _ | assumption | apply setExt_keeps | apply keeps_ite | simp only [keeps_mk_iff] | split | dsimp only

theorem performWaiting_keeps {s : State} (w : WaitReq) (hk : Keeps b0 s) : Keeps b0 (performWaiting s w) := by
  unfold performWaiting
  try dsimp only
  repeat' first
    | with_reducible first
      | intro _ | assumption | apply holdRead_keeps | apply serveWith_keeps | apply performReadLine_keeps
      | apply performWriteLine_keeps | apply keeps_foldl | apply keeps_foldl_snd | apply keeps_ite
      | simp only [keeps_mk_iff] | refine keeps_snd (by assumption) ?_ | split | dsimp only

theorem settleLine_keeps (l : Nat) {s : State} (hk : Keeps b0 s) : Keeps b0 (settleLine l s) := by
  unfold settleLine
  try dsimp only
  repeat' first
    | with_reducible first
      | intro _ | assumption | apply performWaiting_keeps | apply setLine_keeps | apply waitHold_keeps
      | apply keeps_foldl | apply keeps_foldl_snd | apply keeps_ite | simp only [keeps_mk_iff] | split | dsimp only

theorem arrive_keeps (r : Requester) (write atHome : Bool) (l : Nat) {s : State} (hk : Keeps b0 s) : Keeps b0 (arrive r
    write atHome l s) := by
  unfold arrive
  try dsimp only
  repeat' first
    | with_reducible first
      | intro _ | assumption | apply settleLine_keeps | apply keeps_ite | simp only [keeps_mk_iff] | split | dsimp only

theorem cohWriteLine_keeps (r : Requester) (a : Nat) (d : List Byte) (rel : Option Scope) (l : Nat) {s : State} (hk :
    Keeps b0 s) : Keeps b0 (cohWriteLine r a d rel l s) := by
  unfold cohWriteLine
  try dsimp only
  repeat' first
    | with_reducible first
      | intro _ | assumption | apply performWriteLine_keeps | apply arrive_keeps | apply keeps_ite
      | simp only [keeps_mk_iff] | split | dsimp only

theorem cohWrite_keeps (r : Requester) (a : Nat) (d : List Byte) (rel : Option Scope) {s : State} (hk : Keeps b0 s) :
    Keeps b0 (cohWrite r a d rel s) := by
  unfold cohWrite
  try dsimp only
  repeat' first
    | with_reducible first
      | intro _ | assumption | apply cohWriteLine_keeps | apply keeps_foldl | apply keeps_foldl_snd | apply keeps_ite
      | simp only [keeps_mk_iff] | split | dsimp only

theorem cohReadLine_keeps (r : Requester) (acq : Option Scope) (l : Nat) {s : State} (hk : Keeps b0 s) : Keeps b0
    (cohReadLine r acq l s).2 := by
  unfold cohReadLine
  try dsimp only
  repeat' first
    | with_reducible first
      | intro _ | assumption | apply performReadLine_keeps | apply arrive_keeps | apply keeps_ite
      | simp only [keeps_mk_iff] | split | dsimp only

theorem cohRead_keeps (r : Requester) (a n : Nat) (acq : Option Scope) {s : State} (hk : Keeps b0 s) : Keeps b0 (cohRead r
    a n acq s).2 := by
  unfold cohRead
  try dsimp only
  repeat' first
    | with_reducible first
      | intro _ | assumption | apply readLines_keeps | apply cohReadLine_keeps | apply fetchSectors_keeps
      | apply keeps_ite | simp only [keeps_mk_iff] | split | dsimp only

theorem acceptDirect_keeps (r : Requester) (l off : Nat) (d : List Byte) (rel : Option Scope) {s : State} (hk : Keeps b0
    s) : Keeps b0 (acceptDirect r l off d rel s) := by
  unfold acceptDirect
  try dsimp only
  repeat' first
    | with_reducible first
      | intro _ | assumption | apply dropAhead_keeps | apply poke_keeps | apply setHome_keeps | apply setLine_keeps
      | apply recordRelease_keeps | apply forgetRelease_keeps | apply keeps_ite | simp only [keeps_mk_iff]
      | refine keeps_snd (by assumption) ?_ | split | dsimp only

theorem directWriteLine_keeps (r : Requester) (a : Nat) (d : List Byte) (rel : Option Scope) (l : Nat) {s : State} (hk :
    Keeps b0 s) : Keeps b0 (directWriteLine r a d rel l s) := by
  unfold directWriteLine
  try dsimp only
  repeat' first
    | with_reducible first
      | intro _ | assumption | apply holdWrite_keeps | apply acceptDirect_keeps | apply keeps_ite
      | simp only [keeps_mk_iff] | refine keeps_snd (by assumption) ?_ | split | dsimp only

theorem dirWrite_keeps (r : Requester) (a : Nat) (d : List Byte) (rel : Option Scope) {s : State} (hk : Keeps b0 s) :
    Keeps b0 (dirWrite r a d rel s) := by
  unfold dirWrite
  try dsimp only
  repeat' first
    | with_reducible first
      | intro _ | assumption | apply directWriteLine_keeps | apply keeps_foldl | apply keeps_foldl_snd | apply keeps_ite
      | simp only [keeps_mk_iff] | split | dsimp only

theorem remotePerformWrite_keeps (m : RemoteMsg) {s : State} (hk : Keeps b0 s) : Keeps b0 (remotePerformWrite m s) := by
  unfold remotePerformWrite
  try dsimp only
  repeat' first
    | with_reducible first
      | intro _ | assumption | apply holdWrite_keeps | apply directWriteLine_keeps | apply sendReply_keeps
      | apply keeps_foldl | apply keeps_foldl_snd | apply keeps_ite | simp only [keeps_mk_iff]
      | refine keeps_snd (by assumption) ?_ | split | dsimp only

theorem readAhead_keeps (r : Requester) (l : Nat) {s : State} (hk : Keeps b0 s) : Keeps b0 (readAhead r l s) := by
  unfold readAhead
  try dsimp only
  repeat' first
    | with_reducible first
      | intro _ | assumption | apply setHome_keeps | apply draw_keeps | apply keeps_ite | simp only [keeps_mk_iff]
      | split | dsimp only

theorem drainFor_keeps (acq : Option Scope) {s : State} (hk : Keeps b0 s) : Keeps b0 (drainFor acq s) := by
  unfold drainFor
  try dsimp only
  repeat' first
    | with_reducible first
      | intro _ | assumption | apply drainAll_keeps | apply keeps_ite | simp only [keeps_mk_iff]
      | refine keeps_snd (by assumption) ?_ | split | dsimp only

theorem dirReadLine_keeps (r : Requester) (acq : Option Scope) (l : Nat) {s : State} (hk : Keeps b0 s) : Keeps b0
    (dirReadLine r acq l s).2 := by
  unfold dirReadLine
  try dsimp only
  repeat' first
    | with_reducible first
      | intro _ | assumption | apply drainFor_keeps | apply lineFetch_keeps | apply readAhead_keeps
      | apply countPoison_keeps | apply checkAcquire_keeps | apply keeps_getD | apply keeps_ite
      | simp only [keeps_mk_iff] | refine keeps_snd (by assumption) ?_ | split | dsimp only

theorem dirRead_keeps (r : Requester) (a n : Nat) (acq : Option Scope) {s : State} (hk : Keeps b0 s) : Keeps b0 (dirRead r
    a n acq s).2 := by
  unfold dirRead
  try dsimp only
  repeat' first
    | with_reducible first
      | intro _ | assumption | apply readLines_keeps | apply dirReadLine_keeps | apply keeps_ite
      | simp only [keeps_mk_iff] | split | dsimp only

theorem dropRange_keeps (a n : Nat) {s : State} (hk : Keeps b0 s) : Keeps b0 (dropRange a n s) := by
  unfold dropRange
  try dsimp only
  repeat' first
    | with_reducible first
      | intro _ | assumption | apply invalidateLine_keeps | apply keeps_foldl | apply keeps_foldl_snd | apply keeps_ite
      | simp only [keeps_mk_iff] | split | dsimp only

theorem coherenceReset_keeps {s : State} (hk : Keeps b0 s) : Keeps b0 (coherenceReset s) := by
  unfold coherenceReset
  try dsimp only
  repeat' first
    | with_reducible first
      | intro _ | assumption | apply drainAll_keeps | apply keeps_ite | simp only [keeps_mk_iff] | split | dsimp only

theorem serveRead_keeps (r : Requester) (a n : Nat) (acq : Option Scope) {s : State} (hk : Keeps b0 s) : Keeps b0
    (serveRead r a n acq s) := by
  unfold serveRead
  try dsimp only
  repeat' first
    | with_reducible first
      | intro _ | assumption | apply serveWith_keeps | apply cohReadLine_keeps | apply keeps_ite
      | simp only [keeps_mk_iff] | split | dsimp only

theorem serveDirect_keeps (r : Requester) (u n : Nat) (acq : Bool) {s : State} (hk : Keeps b0 s) : Keeps b0 (serveDirect r
    u n acq s) := by
  unfold serveDirect
  try dsimp only
  repeat' first
    | with_reducible first
      | intro _ | assumption | apply drainFor_keeps | apply dirRead_keeps | apply returnData_keeps | apply keeps_ite
      | simp only [keeps_mk_iff] | refine keeps_snd (by assumption) ?_ | split | dsimp only

theorem remoteData_keeps (src a : Nat) (acq : Bool) {s : State} (hk : Keeps b0 s) : Keeps b0 (remoteData src a acq s).2 :=
    by
  unfold remoteData
  try dsimp only
  repeat' first
    | with_reducible first
      | intro _ | assumption | apply drainFor_keeps | apply countPoison_keeps | apply dirRead_keeps | apply keeps_ite
      | simp only [keeps_mk_iff] | refine keeps_snd (by assumption) ?_ | split | dsimp only

theorem hartRead_keeps (h a n : Nat) (direct : Bool) (acq : Option Scope) {s : State} (hk : Keeps b0 s) : Keeps b0
    (hartRead h a n direct acq s).2 := by
  unfold hartRead
  try dsimp only
  repeat' first
    | with_reducible first
      | intro _ | assumption | apply drainFor_keeps | apply dirRead_keeps | apply countPoison_keeps
      | apply cohRead_keeps | apply keeps_ite | simp only [keeps_mk_iff] | refine keeps_snd (by assumption) ?_ | split
      | dsimp only

theorem wrLoaded_keeps (h rd n : Nat) (bs : List Byte) {s : State} (hk : Keeps b0 s) : Keeps b0 (wrLoaded h rd n bs s) :=
    by
  unfold wrLoaded
  try dsimp only
  repeat' first
    | with_reducible first
      | intro _ | assumption | apply wrX_keeps | apply keeps_ite | simp only [keeps_mk_iff] | split | dsimp only

theorem performHart_keeps (h a : Nat) (direct : Bool) (op : HartOp) {s : State} (hk : Keeps b0 s) : Keeps b0 (performHart
    h a direct op s) := by
  unfold performHart
  try dsimp only
  repeat' first
    | with_reducible first
      | intro _ | assumption | apply hartRead_keeps | apply wrX_keeps | apply raiseTrap_keeps | apply modHart_keeps
      | apply holdWrite_keeps | apply writeOwned_keeps | apply wrLoaded_keeps | apply keeps_ite
      | simp only [keeps_mk_iff] | refine keeps_snd (by assumption) ?_ | split | dsimp only

theorem hartAccess_keeps (h a : Nat) (direct : Bool) (op : HartOp) {s : State} (hk : Keeps b0 s) : Keeps b0 (hartAccess h
    a direct op s) := by
  unfold hartAccess
  try dsimp only
  repeat' first
    | with_reducible first
      | intro _ | assumption | apply holdRead_keeps | apply performHart_keeps | apply arrive_keeps | apply keeps_foldl
      | apply keeps_foldl_snd | apply keeps_ite | simp only [keeps_mk_iff] | refine keeps_snd (by assumption) ?_ | split
      | dsimp only

theorem readOrHold_keeps (r : Requester) (direct : Bool) (a n : Nat) (acq : Option Scope) {s : State} (hk : Keeps b0 s) :
    Keeps b0 (readOrHold r direct a n acq s) := by
  unfold readOrHold
  try dsimp only
  repeat' first
    | with_reducible first
      | intro _ | assumption | apply holdRead_keeps | apply serveDirect_keeps | apply serveRead_keeps | apply keeps_ite
      | simp only [keeps_mk_iff] | refine keeps_snd (by assumption) ?_ | split | dsimp only

theorem orWait_keeps (w : WaitReq) (run : State → State) {s : State} (h0 : ∀ s, Keeps b0 s → Keeps b0 (run s)) (hk : Keeps
    b0 s) : Keeps b0 (orWait w run s) := by
  unfold orWait
  try dsimp only
  repeat' first
    | with_reducible first
      | intro _ | assumption | apply h0 | apply keeps_ite | simp only [keeps_mk_iff] | split | dsimp only

theorem performHeld_keeps {s : State} (w : WaitReq) (hk : Keeps b0 s) : Keeps b0 (performHeld s w) := by
  unfold performHeld
  try dsimp only
  repeat' first
    | with_reducible first
      | intro _ | assumption | apply cohWrite_keeps | apply dirWrite_keeps | apply readOrHold_keeps
      | apply remotePerformWrite_keeps | apply hartAccess_keeps | apply keeps_ite | simp only [keeps_mk_iff]
      | refine keeps_snd (by assumption) ?_ | split | dsimp only

theorem retryReq_keeps {s : State} (hk : Keeps b0 s) : Keeps b0 (retryReq s) := by
  unfold retryReq
  try dsimp only
  repeat' first
    | with_reducible first
      | intro _ | assumption | apply orWait_keeps | apply performHeld_keeps | apply keeps_foldl | apply keeps_foldl_snd
      | apply keeps_ite | simp only [keeps_mk_iff] | split | dsimp only

theorem releaseHeld_keeps (x : Nat) {s : State} (hk : Keeps b0 s) : Keeps b0 (releaseHeld x s) := by
  unfold releaseHeld
  try dsimp only
  repeat' first
    | with_reducible first
      | intro _ | assumption | apply retryReq_keeps | apply performHeld_keeps | apply setExt_keeps | apply keeps_foldl
      | apply keeps_foldl_snd | apply keeps_ite | simp only [keeps_mk_iff] | split | dsimp only

theorem refuseAccess_keeps (r : Requester) (write : Bool) (a : Nat) {s : State} (hk : Keeps b0 s) : Keeps b0 (refuseAccess
    r write a s) := by
  unfold refuseAccess
  try dsimp only
  repeat' first
    | with_reducible first
      | intro _ | assumption | apply raiseTrap_keeps | apply raiseEvent_keeps | apply send_keeps | apply keeps_ite
      | simp only [keeps_mk_iff] | refine keeps_snd (by assumption) ?_ | split | dsimp only
    | exact rfl

theorem refuseProtected_keeps (r : Requester) (a : Nat) {s : State} (hk : Keeps b0 s) : Keeps b0 (refuseProtected r a s)
    := by
  unfold refuseProtected
  try dsimp only
  repeat' first
    | with_reducible first
      | intro _ | assumption | apply raiseEvent_keeps | apply raiseTrap_keeps | apply keeps_ite
      | simp only [keeps_mk_iff] | refine keeps_snd (by assumption) ?_ | split | dsimp only
    | exact rfl

theorem queueOrServe_keeps (l : Nat) (r : Requester) (write atHome : Bool) (w : WaitReq) {s : State} (hk : Keeps b0 s) :
    Keeps b0 (queueOrServe l r write atHome w s) := by
  unfold queueOrServe
  try dsimp only
  repeat' first
    | with_reducible first
      | intro _ | assumption | apply setLine_keeps | apply performHeld_keeps | apply keeps_ite
      | simp only [keeps_mk_iff] | split | dsimp only

theorem coherentReadEffect_keeps (r : Requester) (a n : Nat) (acq : Option Scope) {s : State} (hk : Keeps b0 s) : Keeps b0
    (coherentReadEffect r a n acq s) := by
  unfold coherentReadEffect
  try dsimp only
  repeat' first
    | with_reducible first
      | intro _ | assumption | apply orWait_keeps | apply holdRead_keeps | apply queueOrServe_keeps
      | apply refuseAccess_keeps | apply keeps_ite | simp only [keeps_mk_iff] | refine keeps_snd (by assumption) ?_
      | split | dsimp only

theorem coherentWriteEffect_keeps (r : Requester) (a : Nat) (d : List Byte) (rel : Option Scope) {s : State} (hk : Keeps
    b0 s) : Keeps b0 (coherentWriteEffect r a d rel s) := by
  unfold coherentWriteEffect
  try dsimp only
  repeat' first
    | with_reducible first
      | intro _ | assumption | apply refuseProtected_keeps | apply orWait_keeps | apply queueOrServe_keeps
      | apply refuseAccess_keeps | apply keeps_ite | simp only [keeps_mk_iff] | split | dsimp only

theorem directReadEffect_keeps (r : Requester) (a n : Nat) (acq : Bool) {s : State} (hk : Keeps b0 s) : Keeps b0
    (directReadEffect r a n acq s) := by
  unfold directReadEffect
  try dsimp only
  repeat' first
    | with_reducible first
      | intro _ | assumption | apply holdRead_keeps | apply serveDirect_keeps | apply refuseAccess_keeps
      | apply keeps_ite | simp only [keeps_mk_iff] | refine keeps_snd (by assumption) ?_ | split | dsimp only

theorem directWriteEffect_keeps (r : Requester) (a : Nat) (d : List Byte) {s : State} (hk : Keeps b0 s) : Keeps b0
    (directWriteEffect r a d s) := by
  unfold directWriteEffect
  try dsimp only
  repeat' first
    | with_reducible first
      | intro _ | assumption | apply refuseProtected_keeps | apply dirWrite_keeps | apply refuseAccess_keeps
      | apply keeps_ite | simp only [keeps_mk_iff] | refine keeps_snd (by assumption) ?_ | split | dsimp only

theorem directWriteDrainEffect_keeps (u : Nat) {s : State} (hk : Keeps b0 s) : Keeps b0 (directWriteDrainEffect u s) := by
  unfold directWriteDrainEffect
  try dsimp only
  repeat' first
    | with_reducible first
      | intro _ | assumption | apply poke_keeps | apply setHome_keeps | apply keeps_ite | simp only [keeps_mk_iff]
      | refine keeps_snd (by assumption) ?_ | split | dsimp only

theorem intoL3_keeps (c : Nat) (old x : Line) {s : State} (hk : Keeps b0 s) : Keeps b0 (intoL3 c old x s).2 := by
  unfold intoL3
  try dsimp only
  repeat' first
    | with_reducible first
      | intro _ | assumption | apply draw_keeps | apply keeps_ite | simp only [keeps_mk_iff]
      | refine keeps_snd (by assumption) ?_ | split | dsimp only

theorem lineWritebackEffect_keeps (c l : Nat) {s : State} (hk : Keeps b0 s) : Keeps b0 (lineWritebackEffect c l s) := by
  unfold lineWritebackEffect
  try dsimp only
  repeat' first
    | with_reducible first
      | intro _ | assumption | apply writeBackLine_keeps | apply intoL3_keeps | apply setLine_keeps
      | apply modHart_keeps | apply keeps_ite | simp only [keeps_mk_iff] | refine keeps_snd (by assumption) ?_ | split
      | dsimp only

theorem grantHoldExpiryEffect_keeps (l : Nat) {s : State} (hk : Keeps b0 s) : Keeps b0 (grantHoldExpiryEffect l s) := by
  unfold grantHoldExpiryEffect
  try dsimp only
  repeat' first
    | with_reducible first
      | intro _ | assumption | apply advance_keeps | apply setLine_keeps | apply keeps_ite | simp only [keeps_mk_iff]
      | split | dsimp only

theorem snoopAnswerEffect_keeps (l : Nat) {s : State} (hk : Keeps b0 s) : Keeps b0 (snoopAnswerEffect l s) := by
  unfold snoopAnswerEffect
  try dsimp only
  repeat' first
    | with_reducible first
      | intro _ | assumption | apply performWaiting_keeps | apply setLine_keeps | apply retryReq_keeps | apply keeps_ite
      | simp only [keeps_mk_iff] | refine keeps_snd (by assumption) ?_ | split | dsimp only

theorem sendReq_keeps (dst op addr : Nat) (mask : BitVec 64) (data : List Byte) (req : Requester) (load : Option (Nat ×
    Nat × Nat × Bool)) {s : State} (hk : Keeps b0 s) : Keeps b0 (sendReq dst op addr mask data req load s) := by
  unfold sendReq
  try dsimp only
  repeat' first
    | with_reducible first
      | intro _ | assumption | apply send_keeps | apply keeps_ite | simp only [keeps_mk_iff] | split | dsimp only

theorem remoteWrite_keeps (pkg op a : Nat) (bs : List Byte) (req : Requester) {s : State} (hk : Keeps b0 s) : Keeps b0
    (remoteWrite pkg op a bs req s) := by
  unfold remoteWrite
  try dsimp only
  repeat' first
    | with_reducible first
      | intro _ | assumption | apply sendReq_keeps | apply keeps_foldl | apply keeps_foldl_snd | apply keeps_ite
      | simp only [keeps_mk_iff] | refine keeps_snd (by assumption) ?_ | split | dsimp only

theorem charge_keeps (p a n : Nat) (sector : Bool) {s : State} (hk : Keeps b0 s) : Keeps b0 (charge p a n sector s) := by
  unfold charge
  try dsimp only
  repeat' first
    | with_reducible first
      | intro _ | assumption | apply chargeHbm_keeps | apply chargeFlash_keeps | apply keeps_foldl
      | apply keeps_foldl_snd | apply keeps_ite | simp only [keeps_mk_iff] | refine keeps_snd (by assumption) ?_ | split
      | dsimp only

theorem chargeFor_keeps (r : Requester) (a n : Nat) (write : Bool) {s : State} (hk : Keeps b0 s) : Keeps b0 (chargeFor r a
    n write s) := by
  unfold chargeFor
  try dsimp only
  repeat' first
    | with_reducible first
      | intro _ | assumption | apply charge_keeps | apply keeps_ite | simp only [keeps_mk_iff]
      | refine keeps_snd (by assumption) ?_ | split | dsimp only

theorem uPoison_keeps (p : Nat) (rs : List (Nat × Nat)) {s : State} {u : State} (e : uPoison p rs s = some u) (hk : Keeps
    b0 s) : Keeps b0 u := by
  unfold uPoison at e
  try dsimp only at e
  repeat' first | contradiction | (cases e) | split at e
  all_goals
    repeat' first
      | with_reducible first
        | intro _ | assumption | apply issueAbort_keeps | apply countPoison_keeps | apply keeps_ite
        | simp only [keeps_mk_iff] | refine keeps_snd (by assumption) ?_ | split | dsimp only

theorem portRead_keeps (t a n : Nat) {s : State} (hk : Keeps b0 s) : Keeps b0 (portRead t a n s).2 := by
  unfold portRead
  try dsimp only
  repeat' first
    | with_reducible first
      | intro _ | assumption | apply cohRead_keeps | apply chargeFor_keeps | apply keeps_ite | simp only [keeps_mk_iff]
      | split | dsimp only

theorem portWrite_keeps (t a : Nat) (bs : List Byte) {s : State} (hk : Keeps b0 s) : Keeps b0 (portWrite t a bs s) := by
  unfold portWrite
  try dsimp only
  repeat' first
    | with_reducible first
      | intro _ | assumption | apply cohWrite_keeps | apply chargeFor_keeps | apply keeps_ite | simp only [keeps_mk_iff]
      | split | dsimp only

theorem readMap_keeps (t : Nat) (d : List Word) {s : State} (hk : Keeps b0 s) : Keeps b0 (readMap t d s).2 := by
  unfold readMap
  try dsimp only
  repeat' first
    | with_reducible first
      | intro _ | assumption | apply portRead_keeps | apply keeps_getD | apply keeps_ite | simp only [keeps_mk_iff]
      | refine keeps_snd (by assumption) ?_ | split | dsimp only

theorem portCopy_keeps (t src dst n : Nat) {s : State} (hk : Keeps b0 s) : Keeps b0 (portCopy t src dst n s) := by
  unfold portCopy
  try dsimp only
  repeat' first
    | with_reducible first
      | intro _ | assumption | apply portRead_keeps | apply portWrite_keeps | apply keeps_ite | simp only [keeps_mk_iff]
      | refine keeps_snd (by assumption) ?_ | split | dsimp only

theorem retainBlock_keeps (t : Nat) (us : List UStream) {s : State} (b : Nat) (hk : Keeps b0 s) : Keeps b0 (retainBlock t
    us s b) := by
  unfold retainBlock
  try dsimp only
  repeat' first
    | with_reducible first
      | intro _ | assumption | apply portCopy_keeps | apply keeps_foldl | apply keeps_foldl_snd | apply keeps_ite
      | simp only [keeps_mk_iff] | split | dsimp only

theorem restoreBlock_keeps (t : Nat) (us : List UStream) {s : State} (b : Nat) (hk : Keeps b0 s) : Keeps b0 (restoreBlock
    t us s b) := by
  unfold restoreBlock
  try dsimp only
  repeat' first
    | with_reducible first
      | intro _ | assumption | apply portCopy_keeps | apply keeps_foldl | apply keeps_foldl_snd | apply keeps_ite
      | simp only [keeps_mk_iff] | split | dsimp only

theorem updateBlock_keeps (t p : Nat) (u : UpdAct) (seed b : Nat) {s : State} (hk : Keeps b0 s) : Keeps b0 (updateBlock t
    p u seed b s) := by
  unfold updateBlock
  try dsimp only
  repeat' first
    | with_reducible first
      | intro _ | assumption | apply portRead_keeps | apply portWrite_keeps | apply tileFlags_keeps | apply keeps_foldl
      | apply keeps_foldl_snd | apply keeps_getD | refine uPoison_keeps _ _ (by assumption) ?_ | apply keeps_ite
      | simp only [keeps_mk_iff] | refine keeps_snd (by assumption) ?_ | split | dsimp only

theorem modUpd_keeps (t : Nat) (f : UpdAct → Option UpdAct) {s : State} (hk : Keeps b0 s) : Keeps b0 (modUpd t f s) := by
  unfold modUpd
  try dsimp only
  repeat' first
    | with_reducible first
      | intro _ | assumption | apply setTile_keeps | apply keeps_ite | simp only [keeps_mk_iff]
      | refine keeps_snd (by assumption) ?_ | split | dsimp only

theorem startUpdate_keeps (t p st idx at_ : Nat) (d tab : List Word) {s : State} (hk : Keeps b0 s) :
    Keeps b0 (startUpdate t p st idx at_ d tab s) := by
  unfold startUpdate
  dsimp -zeta only
  extract_lets n prog us s0
  have h0 : Keeps b0 s0 := readReach_keeps t ownVector (updProg d) (4 * updInstrs d) hk
  have h1 := readMap_keeps t d h0
  clear_value s0
  split
  · split
    · rename_i e
      exact uPoison_keeps _ _ e h0
    · split
      · exact modJob_keeps _ _ (setTile_keeps _ _ h1)
      · split
        · rename_i e
          exact uPoison_keeps _ _ e (modJob_keeps _ _ (setTile_keeps _ _ h1))
        · exact modUpd_keeps _ _ (keeps_foldl (fun s i hs => retainBlock_keeps _ _ _ hs) (modJob_keeps _ _ (setTile_keeps _ _ h1)))
  · exact h0

theorem markerEffect_keeps (t : Nat) {s : State} (hk : Keeps b0 s) : Keeps b0 (markerEffect t s) := by
  unfold markerEffect
  try dsimp only
  repeat' first
    | with_reducible first
      | intro _ | assumption | apply modUpd_keeps | apply portWrite_keeps | apply keeps_ite | simp only [keeps_mk_iff]
      | refine keeps_snd (by assumption) ?_ | split | dsimp only

theorem phase2Effect_keeps (t : Nat) {s : State} (hk : Keeps b0 s) : Keeps b0 (phase2Effect t s) := by
  unfold phase2Effect
  try dsimp only
  repeat' first
    | with_reducible first
      | intro _ | assumption | apply modUpd_keeps | apply keeps_ite | simp only [keeps_mk_iff] | split | dsimp only

theorem writebackEffect_keeps (t : Nat) {s : State} (hk : Keeps b0 s) : Keeps b0 (writebackEffect t s) := by
  unfold writebackEffect
  try dsimp only
  repeat' first
    | with_reducible first
      | intro _ | assumption | apply updateBlock_keeps | apply noteNeeds_keeps | apply modUpd_keeps | apply keeps_foldl
      | apply keeps_foldl_snd | apply keeps_ite | simp only [keeps_mk_iff] | refine keeps_snd (by assumption) ?_ | split
      | dsimp only

theorem restoreAction_keeps (p : Nat) {s : State} (e : Nat × Nat × Nat) (hk : Keeps b0 s) : Keeps b0 (restoreAction p s e)
    := by
  unfold restoreAction
  try dsimp only
  repeat' first
    | with_reducible first
      | intro _ | assumption | apply portRead_keeps | apply readMap_keeps | apply restoreBlock_keeps | apply keeps_foldl
      | apply keeps_foldl_snd | apply keeps_getD | apply keeps_ite | simp only [keeps_mk_iff]
      | refine keeps_snd (by assumption) ?_ | split | dsimp only

theorem rewind_keeps (p : Nat) {s : State} (hk : Keeps b0 s) : Keeps b0 (rewind p s) := by
  unfold rewind
  try dsimp only
  repeat' first
    | with_reducible first
      | intro _ | assumption | apply setSeq_keeps | apply keeps_foldl | apply keeps_foldl_snd | apply keeps_getD
      | apply keeps_ite | simp only [keeps_mk_iff] | refine keeps_snd (by assumption) ?_ | split | dsimp only

theorem restartEffect_keeps (p : Nat) {s : State} (hk : Keeps b0 s) : Keeps b0 (restartEffect p s) := by
  unfold restartEffect
  try dsimp only
  repeat' first
    | with_reducible first
      | intro _ | assumption | apply restoreAction_keeps | apply advance_keeps | apply modJob_keeps
      | apply remapPending_keeps | apply noteDegraded_keeps | apply rewind_keeps | apply keeps_foldl
      | apply keeps_foldl_snd | apply keeps_ite | simp only [keeps_mk_iff] | refine keeps_snd (by assumption) ?_ | split
      | dsimp only

theorem putSet_keeps (die l : Nat) (x : WrcSet) {s : State} (hk : Keeps b0 s) : Keeps b0 (putSet die l x s) := by
  unfold putSet
  try dsimp only
  repeat' first
    | with_reducible first
      | intro _ | assumption | apply keeps_ite | simp only [keeps_mk_iff] | split | dsimp only

theorem meetWay_keeps (die l : Nat) {s : State} (hk : Keeps b0 s) : Keeps b0 (meetWay die l s) := by
  unfold meetWay
  try dsimp only
  repeat' first
    | with_reducible first
      | intro _ | assumption | apply putSet_keeps | apply keeps_ite | simp only [keeps_mk_iff]
      | refine keeps_snd (by assumption) ?_ | split | dsimp only

theorem allocate_keeps (die l mask : Nat) (data : List Byte) {s : State} (hk : Keeps b0 s) : Keeps b0 (allocate die l mask
    data s) := by
  unfold allocate
  try dsimp only
  repeat' first
    | with_reducible first
      | intro _ | assumption | apply putSet_keeps | apply keeps_ite | simp only [keeps_mk_iff] | split | dsimp only

theorem dropFill_keeps (die l : Nat) {s : State} (hk : Keeps b0 s) : Keeps b0 (dropFill die l s) := by
  unfold dropFill
  try dsimp only
  repeat' first
    | with_reducible first
      | intro _ | assumption | apply keeps_ite | simp only [keeps_mk_iff] | split | dsimp only

theorem finishFill_keeps (f : WrcFill) {s : State} (hk : Keeps b0 s) : Keeps b0 (finishFill f s) := by
  unfold finishFill
  try dsimp only
  repeat' first
    | with_reducible first
      | intro _ | assumption | apply dropFill_keeps | apply countPoison_keeps | apply cohRead_keeps
      | apply allocate_keeps | apply keeps_foldl | apply keeps_foldl_snd | apply keeps_ite | simp only [keeps_mk_iff]
      | refine keeps_snd (by assumption) ?_ | split | dsimp only

theorem detect_keeps (d rs p l : Nat) {s : State} (hk : Keeps b0 s) : Keeps b0 (detect d rs p l s) := by
  unfold detect
  try dsimp only
  repeat' first
    | with_reducible first
      | intro _ | assumption | apply keeps_foldl | apply keeps_foldl_snd | apply keeps_ite | simp only [keeps_mk_iff]
      | refine keeps_snd (by assumption) ?_ | split | dsimp only

theorem clearDetector_keeps (d rs : Nat) {s : State} (hk : Keeps b0 s) : Keeps b0 (clearDetector d rs s) := by
  unfold clearDetector
  try dsimp only
  repeat' first
    | with_reducible first
      | intro _ | assumption | apply keeps_ite | simp only [keeps_mk_iff] | split | dsimp only

theorem wrcRead_keeps (d rs p l : Nat) {s : State} (hk : Keeps b0 s) : Keeps b0 (wrcRead d rs p l s).2 := by
  unfold wrcRead
  try dsimp only
  repeat' first
    | with_reducible first
      | intro _ | assumption | apply meetWay_keeps | apply putSet_keeps | apply finishFill_keeps | apply charge_keeps
      | apply cohRead_keeps | apply allocate_keeps | apply detect_keeps | apply keeps_ite | simp only [keeps_mk_iff]
      | refine keeps_snd (by assumption) ?_ | split | dsimp only

theorem wrcReadRange_keeps (d rs p a n : Nat) {s : State} (hk : Keeps b0 s) : Keeps b0 (wrcReadRange d rs p a n s).2 := by
  unfold wrcReadRange
  try dsimp only
  repeat' first
    | with_reducible first
      | intro _ | assumption | apply wrcRead_keeps | apply keeps_foldl | apply keeps_foldl_snd | apply keeps_ite
      | simp only [keeps_mk_iff] | refine keeps_snd (by assumption) ?_ | split | dsimp only

theorem wrcWrite_keeps (d a : Nat) (bs : List Byte) {s : State} (hk : Keeps b0 s) : Keeps b0 (wrcWrite d a bs s) := by
  unfold wrcWrite
  try dsimp only
  repeat' first
    | with_reducible first
      | intro _ | assumption | apply meetWay_keeps | apply putSet_keeps | apply keeps_foldl | apply keeps_foldl_snd
      | apply keeps_ite | simp only [keeps_mk_iff] | refine keeps_snd (by assumption) ?_ | split | dsimp only

theorem wrcInvalidate_keeps (die a n : Nat) {s : State} (hk : Keeps b0 s) : Keeps b0 (wrcInvalidate die a n s) := by
  unfold wrcInvalidate
  try dsimp only
  repeat' first
    | with_reducible first
      | intro _ | assumption | apply keeps_ite | simp only [keeps_mk_iff] | split | dsimp only

theorem cacheFillEffect_keeps (die l : Nat) {s : State} (hk : Keeps b0 s) : Keeps b0 (cacheFillEffect die l s) := by
  unfold cacheFillEffect
  try dsimp only
  repeat' first
    | with_reducible first
      | intro _ | assumption | apply finishFill_keeps | apply keeps_ite | simp only [keeps_mk_iff]
      | refine keeps_snd (by assumption) ?_ | split | dsimp only

theorem settleDisabled_keeps (q : Nat) {s : State} (hk : Keeps b0 s) : Keeps b0 (settleDisabled q s) := by
  unfold settleDisabled
  try dsimp only
  repeat' first
    | with_reducible first
      | intro _ | assumption | apply setQueue_keeps | apply keeps_ite | simp only [keeps_mk_iff]
      | refine keeps_snd (by assumption) ?_ | split | dsimp only

theorem rejectOpcodes_keeps (q : Nat) {s : State} (hk : Keeps b0 s) : Keeps b0 (rejectOpcodes q s) := by
  unfold rejectOpcodes
  try dsimp only
  repeat' first
    | with_reducible first
      | intro _ | assumption | apply setQueue_keeps | apply keeps_ite | simp only [keeps_mk_iff]
      | refine keeps_snd (by assumption) ?_ | split | dsimp only

theorem performRec_keeps (q : Nat) {s : State} (hk : Keeps b0 s) : Keeps b0 (performRec q s) := by
  unfold performRec
  try dsimp only
  repeat' first
    | with_reducible first
      | intro _ | assumption | apply bump_keeps | apply setQueue_keeps | apply tierStart_keeps | apply cohWrite_keeps
      | apply pend_keeps | apply rejectOpcodes_keeps | apply settleDisabled_keeps | apply keeps_ite
      | simp only [keeps_mk_iff] | refine keeps_snd (by assumption) ?_ | split | dsimp only

theorem discardDoorbell_keeps (q : Nat) {s : State} (hk : Keeps b0 s) : Keeps b0 (discardDoorbell q s) := by
  unfold discardDoorbell
  try dsimp only
  repeat' first
    | with_reducible first
      | intro _ | assumption | apply bump_keeps | apply keeps_ite | simp only [keeps_mk_iff] | split | dsimp only

theorem ringDoorbell_keeps (q : Nat) (w : Word) {s : State} (hk : Keeps b0 s) : Keeps b0 (ringDoorbell q w s) := by
  unfold ringDoorbell
  try dsimp only
  repeat' first
    | with_reducible first
      | intro _ | assumption | apply raiseEvent_keeps | apply discardDoorbell_keeps | apply setQueue_keeps
      | apply bump_keeps | apply keeps_ite | simp only [keeps_mk_iff] | refine keeps_snd (by assumption) ?_ | split
      | dsimp only
    | exact rfl

theorem readDescriptor_keeps (q : Nat) {s : State} (hk : Keeps b0 s) : Keeps b0 (readDescriptor q s).2 := by
  unfold readDescriptor
  try dsimp only
  repeat' first
    | with_reducible first
      | intro _ | assumption | apply cohRead_keeps | apply keeps_ite | simp only [keeps_mk_iff]
      | refine keeps_snd (by assumption) ?_ | split | dsimp only

theorem acceptDescriptor_keeps (q : Nat) (d : List Word) {s : State} (hk : Keeps b0 s) : Keeps b0 (acceptDescriptor q d s)
    := by
  unfold acceptDescriptor
  try dsimp only
  repeat' first
    | with_reducible first
      | intro _ | assumption | apply pushRec_keeps | apply setQueue_keeps | apply rejectOpcodes_keeps | apply keeps_ite
      | simp only [keeps_mk_iff] | refine keeps_snd (by assumption) ?_ | split | dsimp only

theorem parkAhead_keeps (q : Nat) {s : State} (hk : Keeps b0 s) : Keeps b0 (parkAhead q s) := by
  unfold parkAhead
  try dsimp only
  repeat' first
    | with_reducible first
      | intro _ | assumption | apply pushRec_keeps | apply setQueue_keeps | apply raiseEvent_keeps
      | apply performRec_keeps | apply keeps_ite | simp only [keeps_mk_iff] | split | dsimp only
    | exact rfl

theorem descriptorReturnEffect_keeps (q : Nat) {s : State} (hk : Keeps b0 s) : Keeps b0 (descriptorReturnEffect q s) := by
  unfold descriptorReturnEffect
  try dsimp only
  repeat' first
    | with_reducible first
      | intro _ | assumption | apply readDescriptor_keeps | apply acceptDescriptor_keeps | apply parkAhead_keeps
      | apply setQueue_keeps | apply keeps_ite | simp only [keeps_mk_iff] | refine keeps_snd (by assumption) ?_ | split
      | dsimp only

theorem repollEffect_keeps (q : Nat) {s : State} (hk : Keeps b0 s) : Keeps b0 (repollEffect q s) := by
  unfold repollEffect
  try dsimp only
  repeat' first
    | with_reducible first
      | intro _ | assumption | apply advance_keeps | apply setQueue_keeps | apply keeps_ite | simp only [keeps_mk_iff]
      | refine keeps_snd (by assumption) ?_ | split | dsimp only

theorem disableQueue_keeps (q : Nat) {s : State} (hk : Keeps b0 s) : Keeps b0 (disableQueue q s) := by
  unfold disableQueue
  try dsimp only
  repeat' first
    | with_reducible first
      | intro _ | assumption | apply settleDisabled_keeps | apply setQueue_keeps | apply keeps_ite
      | simp only [keeps_mk_iff] | split | dsimp only

theorem ctxWrite_keeps (q off : Nat) (acc : Acc) (v : Nat) {s : State} (hk : Keeps b0 s) : Keeps b0 (ctxWrite q off acc v
    s) := by
  unfold ctxWrite
  try dsimp only
  repeat' first
    | with_reducible first
      | intro _ | assumption | apply setQueue_keeps | apply disableQueue_keeps | apply keeps_ite
      | simp only [keeps_mk_iff] | refine keeps_snd (by assumption) ?_ | split | dsimp only

theorem queueEnableEffect_keeps (q : Nat) (acc : Acc) (v : Nat) {s : State} (hk : Keeps b0 s) : Keeps b0
    (queueEnableEffect q acc v s) := by
  unfold queueEnableEffect
  try dsimp only
  repeat' first
    | with_reducible first
      | intro _ | assumption | apply ctxWrite_keeps | apply keeps_ite | simp only [keeps_mk_iff] | split | dsimp only

theorem queueDisableEffect_keeps (q : Nat) (acc : Acc) (v : Nat) {s : State} (hk : Keeps b0 s) : Keeps b0
    (queueDisableEffect q acc v s) := by
  unfold queueDisableEffect
  try dsimp only
  repeat' first
    | with_reducible first
      | intro _ | assumption | apply ctxWrite_keeps | apply keeps_ite | simp only [keeps_mk_iff] | split | dsimp only

theorem rgnWrite_keeps (r off : Nat) (acc : Acc) (v : Nat) {s : State} (hk : Keeps b0 s) : Keeps b0 (rgnWrite r off acc v
    s) := by
  unfold rgnWrite
  try dsimp only
  repeat' first
    | with_reducible first
      | intro _ | assumption | apply setRegion_keeps | apply keeps_ite | simp only [keeps_mk_iff]
      | refine keeps_snd (by assumption) ?_ | split | dsimp only

theorem regionValidateEffect_keeps (r : Nat) (acc : Acc) (v : Nat) {s : State} (hk : Keeps b0 s) : Keeps b0
    (regionValidateEffect r acc v s) := by
  unfold regionValidateEffect
  try dsimp only
  repeat' first
    | with_reducible first
      | intro _ | assumption | apply rgnWrite_keeps | apply keeps_ite | simp only [keeps_mk_iff] | split | dsimp only

theorem regionInvalidateEffect_keeps (r : Nat) (acc : Acc) (v : Nat) {s : State} (hk : Keeps b0 s) : Keeps b0
    (regionInvalidateEffect r acc v s) := by
  unfold regionInvalidateEffect
  try dsimp only
  repeat' first
    | with_reducible first
      | intro _ | assumption | apply rgnWrite_keeps | apply keeps_ite | simp only [keeps_mk_iff] | split | dsimp only

end Sys2Proof.Machine
end

