-- ==== Sys2Proof/Laws/KeepsTimetable.lean ====
section
/-! SUPPORT. What Laws/Keeps.lean says, of the timetable, the Drays and the reduction engines. -/

set_option maxRecDepth 20000
set_option linter.unusedTactic false
set_option linter.unreachableTactic false
set_option linter.unusedVariables false
set_option linter.unusedSimpArgs false

namespace Sys2Proof.Machine

variable {b0 : State}

theorem nullEffect_keeps (st : Nat) {s : State} (hk : Keeps b0 s) : Keeps b0 (nullEffect st s) := by
  unfold nullEffect
  try dsimp only
  repeat' first
    | with_reducible first
      | intro _ | assumption | apply complete_keeps | apply launch_keeps | apply keeps_ite | simp only [keeps_mk_iff]
      | refine keeps_snd (by assumption) ?_ | split | dsimp only

theorem actionCompleteEffect_keeps (st idx : Nat) {s : State} (hk : Keeps b0 s) : Keeps b0 (actionCompleteEffect st idx s)
    := by
  unfold actionCompleteEffect
  try dsimp only
  repeat' first
    | with_reducible first
      | intro _ | assumption | apply complete_keeps | apply advance_keeps | apply keeps_ite | simp only [keeps_mk_iff]
      | refine keeps_snd (by assumption) ?_ | split | dsimp only

theorem t0Effect_keeps (p : Nat) {s : State} (hk : Keeps b0 s) : Keeps b0 (t0Effect p s) := by
  unfold t0Effect
  try dsimp only
  repeat' first
    | with_reducible first
      | intro _ | assumption | apply beginJob_keeps | apply advance_keeps | apply keeps_ite | simp only [keeps_mk_iff]
      | refine keeps_snd (by assumption) ?_ | split | dsimp only

theorem bindScan_keeps (p qu dl : Nat) (use : List (Bool × Bool)) (kept l : List (List Word × Nat)) {s : State} (hk : Keeps b0 s) :
    Keeps b0 (bindScan p qu dl use kept l s) := by
  induction l generalizing kept s with
  | nil => exact setQueue_keeps _ _ hk
  | cons e l ih =>
    unfold bindScan
    split
    · exact setQueue_keeps _ _ hk
    · dsimp only
      split
      · exact modJob_keeps _ _ (setQueue_keeps _ _ hk)
      · exact ih _ (raiseEvent_keeps _ _ _ (pushRec_keeps _ _ hk) rfl)

theorem slotBindEffect_keeps (p : Nat) {s : State} (hk : Keeps b0 s) : Keeps b0 (slotBindEffect p s) := by
  unfold slotBindEffect
  try dsimp only
  repeat' first
    | with_reducible first
      | intro _ | assumption | apply advance_keeps | apply modJob_keeps | apply bindScan_keeps | apply keeps_ite
      | simp only [keeps_mk_iff] | refine keeps_snd (by assumption) ?_ | split | dsimp only

theorem slotOpenEffect_keeps (p : Nat) {s : State} (hk : Keeps b0 s) : Keeps b0 (slotOpenEffect p s) := by
  unfold slotOpenEffect
  try dsimp only
  repeat' first
    | with_reducible first
      | intro _ | assumption | apply endSlot_keeps | apply advance_keeps | apply modJob_keeps | apply beginJob_keeps
      | apply setJob_keeps | apply keeps_ite | simp only [keeps_mk_iff] | refine keeps_snd (by assumption) ?_ | split
      | dsimp only

theorem epochLocalCompleteEffect_keeps (p : Nat) {s : State} (hk : Keeps b0 s) : Keeps b0 (epochLocalCompleteEffect p s)
    := by
  unfold epochLocalCompleteEffect
  try dsimp only
  repeat' first
    | with_reducible first
      | intro _ | assumption | apply advance_keeps | apply issue_keeps | apply tryCommit_keeps | apply modJob_keeps
      | apply keeps_ite | simp only [keeps_mk_iff] | refine keeps_snd (by assumption) ?_ | split | dsimp only

theorem applyHold_keeps (p : Nat) (h : HeldNotice) {s : State} (hk : Keeps b0 s) : Keeps b0 (applyHold p h s) := by
  unfold applyHold
  try dsimp only
  repeat' first
    | with_reducible first
      | intro _ | assumption | apply setPart_keeps | apply setSeq_keeps | apply raiseEvent_keeps | apply keeps_foldl
      | apply keeps_foldl_snd | apply keeps_ite | simp only [keeps_mk_iff] | refine keeps_snd (by assumption) ?_ | split
      | dsimp only
    | exact rfl

theorem holdInstantEffect_keeps (p : Nat) {s : State} (hk : Keeps b0 s) : Keeps b0 (holdInstantEffect p s) := by
  unfold holdInstantEffect
  try dsimp only
  repeat' first
    | with_reducible first
      | intro _ | assumption | apply applyHold_keeps | apply advance_keeps | apply keeps_ite | simp only [keeps_mk_iff]
      | refine keeps_snd (by assumption) ?_ | split | dsimp only

theorem applyReplay_keeps (p : Nat) (h : HeldNotice) {s : State} (hk : Keeps b0 s) : Keeps b0 (applyReplay p h s) := by
  unfold applyReplay
  try dsimp only
  repeat' first
    | with_reducible first
      | intro _ | assumption | apply setJob_keeps | apply applyHold_keeps | apply stopActions_keeps
      | apply dropFlags_keeps | apply setSeqs_keeps | apply modJob_keeps | apply keeps_ite | simp only [keeps_mk_iff]
      | refine keeps_snd (by assumption) ?_ | split | dsimp only

theorem replayInstantEffect_keeps (p : Nat) {s : State} (hk : Keeps b0 s) : Keeps b0 (replayInstantEffect p s) := by
  unfold replayInstantEffect
  try dsimp only
  repeat' first
    | with_reducible first
      | intro _ | assumption | apply applyHold_keeps | apply advance_keeps | apply applyReplay_keeps | apply keeps_ite
      | simp only [keeps_mk_iff] | refine keeps_snd (by assumption) ?_ | split | dsimp only

theorem applyAbort_keeps (p : Nat) (h : HeldNotice) {s : State} (hk : Keeps b0 s) : Keeps b0 (applyAbort p h s) := by
  unfold applyAbort
  try dsimp only
  repeat' first
    | with_reducible first
      | intro _ | assumption | apply abortJob_keeps | apply partReset_keeps | apply keeps_ite | simp only [keeps_mk_iff]
      | split | dsimp only

theorem abortInstantEffect_keeps (p : Nat) {s : State} (hk : Keeps b0 s) : Keeps b0 (abortInstantEffect p s) := by
  unfold abortInstantEffect
  try dsimp only
  repeat' first
    | with_reducible first
      | intro _ | assumption | apply applyAbort_keeps | apply advance_keeps | apply keeps_ite | simp only [keeps_mk_iff]
      | refine keeps_snd (by assumption) ?_ | split | dsimp only

theorem receive_keeps (port : Nat) (n : Notice) (keep : Nat → State → State) {s : State} (h0 : ∀ p s, Keeps b0 s → Keeps
    b0 (keep p s)) (hk : Keeps b0 s) : Keeps b0 (receive port n keep s) := by
  unfold receive
  try dsimp only
  repeat' first
    | with_reducible first
      | intro _ | assumption | apply h0 | apply flood_keeps | apply setJob_keeps | apply keeps_ite
      | simp only [keeps_mk_iff] | refine keeps_snd (by assumption) ?_ | split | dsimp only

theorem keepUntil_keeps (n : Notice) (apply : Nat → HeldNotice → State → State) (p : Nat) {s : State} (h0 : ∀ p h s, Keeps
    b0 s → Keeps b0 (apply p h s)) (hk : Keeps b0 s) : Keeps b0 (keepUntil n apply p s) := by
  unfold keepUntil
  try dsimp only
  repeat' first
    | with_reducible first
      | intro _ | assumption | apply h0 | apply modJob_keeps | apply keeps_ite | simp only [keeps_mk_iff] | split
      | dsimp only

theorem holdNoticeEffect_keeps (port : Nat) (n : Notice) {s : State} (hk : Keeps b0 s) : Keeps b0 (holdNoticeEffect port n
    s) := by
  unfold holdNoticeEffect
  try dsimp only
  repeat' first
    | with_reducible first
      | intro _ | assumption | apply receive_keeps | apply keepUntil_keeps | apply applyHold_keeps | apply keeps_ite
      | simp only [keeps_mk_iff] | split | dsimp only

theorem replayNoticeEffect_keeps (port : Nat) (n : Notice) {s : State} (hk : Keeps b0 s) : Keeps b0 (replayNoticeEffect
    port n s) := by
  unfold replayNoticeEffect
  try dsimp only
  repeat' first
    | with_reducible first
      | intro _ | assumption | apply receive_keeps | apply keepUntil_keeps | apply applyReplay_keeps | apply keeps_ite
      | simp only [keeps_mk_iff] | split | dsimp only

theorem abortNoticeEffect_keeps (port : Nat) (n : Notice) {s : State} (hk : Keeps b0 s) : Keeps b0 (abortNoticeEffect port
    n s) := by
  unfold abortNoticeEffect
  try dsimp only
  repeat' first
    | with_reducible first
      | intro _ | assumption | apply receive_keeps | apply keepUntil_keeps | apply applyAbort_keeps | apply keeps_ite
      | simp only [keeps_mk_iff] | split | dsimp only

theorem degradeFrom_keeps (e p : Nat) {s : State} (hk : Keeps b0 s) : Keeps b0 (degradeFrom e p s) := by
  unfold degradeFrom
  try dsimp only
  repeat' first
    | with_reducible first
      | intro _ | assumption | apply noteDegraded_keeps | apply modJob_keeps | apply keeps_ite
      | simp only [keeps_mk_iff] | refine keeps_snd (by assumption) ?_ | split | dsimp only

theorem degradeNoticeEffect_keeps (port : Nat) (n : Notice) {s : State} (hk : Keeps b0 s) : Keeps b0 (degradeNoticeEffect
    port n s) := by
  unfold degradeNoticeEffect
  try dsimp only
  repeat' first
    | with_reducible first
      | intro _ | assumption | apply receive_keeps | apply degradeFrom_keeps | apply keeps_ite
      | simp only [keeps_mk_iff] | split | dsimp only

theorem commitNoticeEffect_keeps (port : Nat) (n : Notice) {s : State} (hk : Keeps b0 s) : Keeps b0 (commitNoticeEffect
    port n s) := by
  unfold commitNoticeEffect
  try dsimp only
  repeat' first
    | with_reducible first
      | intro _ | assumption | apply receive_keeps | apply tryCommit_keeps | apply modJob_keeps | apply keeps_ite
      | simp only [keeps_mk_iff] | split | dsimp only

theorem probeNoticeEffect_keeps (port : Nat) (n : Notice) {s : State} (hk : Keeps b0 s) : Keeps b0 (probeNoticeEffect port
    n s) := by
  unfold probeNoticeEffect
  try dsimp only
  repeat' first
    | with_reducible first
      | intro _ | assumption | apply flood_keeps | apply keeps_ite | simp only [keeps_mk_iff]
      | refine keeps_snd (by assumption) ?_ | split | dsimp only

theorem probeSendEffect_keeps {s : State} (hk : Keeps b0 s) : Keeps b0 (probeSendEffect s) := by
  unfold probeSendEffect
  try dsimp only
  repeat' first
    | with_reducible first
      | intro _ | assumption | apply advance_keeps | apply flood_keeps | apply keeps_ite | simp only [keeps_mk_iff]
      | refine keeps_snd (by assumption) ?_ | split | dsimp only

theorem degradeJob_keeps (p : Nat) {s : State} (hk : Keeps b0 s) : Keeps b0 (degradeJob p s) := by
  unfold degradeJob
  try dsimp only
  repeat' first
    | with_reducible first
      | intro _ | assumption | apply degradeFrom_keeps | apply issue_keeps | apply keeps_ite | simp only [keeps_mk_iff]
      | refine keeps_snd (by assumption) ?_ | split | dsimp only

theorem enterDegraded_keeps {s : State} (hk : Keeps b0 s) : Keeps b0 (enterDegraded s) := by
  unfold enterDegraded
  try dsimp only
  repeat' first
    | with_reducible first
      | intro _ | assumption | apply degradeJob_keeps | apply keeps_foldl | apply keeps_foldl_snd | apply keeps_ite
      | simp only [keeps_mk_iff] | split | dsimp only

theorem tileWatchdogEffect_keeps (st : Nat) {s : State} (hk : Keeps b0 s) : Keeps b0 (tileWatchdogEffect st s) := by
  unfold tileWatchdogEffect
  try dsimp only
  repeat' first
    | with_reducible first
      | intro _ | assumption | apply retireTile_keeps | apply advance_keeps | apply keeps_ite | simp only [keeps_mk_iff]
      | refine keeps_snd (by assumption) ?_ | split | dsimp only

theorem unitWatchdogEffect_keeps (st : Nat) {s : State} (hk : Keeps b0 s) : Keeps b0 (unitWatchdogEffect st s) := by
  unfold unitWatchdogEffect
  try dsimp only
  repeat' first
    | with_reducible first
      | intro _ | assumption | apply issueAbort_keeps | apply recordEntry_keeps | apply advance_keeps | apply keeps_ite
      | simp only [keeps_mk_iff] | refine keeps_snd (by assumption) ?_ | split | dsimp only

theorem moverRead_keeps (m : Mover) (cache : Bool) (rs : Nat) (acq : Option Scope) (l : Loc) (n : Nat) {s : State} (hk :
    Keeps b0 s) : Keeps b0 (moverRead m cache rs acq l n s).2 := by
  unfold moverRead
  try dsimp only
  repeat' first
    | with_reducible first
      | intro _ | assumption | apply wrcReadRange_keeps | apply cohRead_keeps | apply charge_keeps | apply dirRead_keeps
      | apply readReach_keeps | apply keeps_ite | simp only [keeps_mk_iff] | refine keeps_snd (by assumption) ?_ | split
      | dsimp only

theorem moverWrite_keeps (m : Mover) (l : Loc) (bs : List Byte) {s : State} (hk : Keeps b0 s) : Keeps b0 (moverWrite m l
    bs s) := by
  unfold moverWrite
  try dsimp only
  repeat' first
    | with_reducible first
      | intro _ | assumption | apply raiseEvent_keeps | apply cohWrite_keeps | apply wrcWrite_keeps | apply charge_keeps
      | apply dirWrite_keeps | apply checkReach_keeps | apply tileWrite_keeps | apply remoteWrite_keeps
      | apply keeps_ite | simp only [keeps_mk_iff] | refine keeps_snd (by assumption) ?_ | split | dsimp only
    | exact rfl

theorem moveCopy_keeps (m : Mover) (d : DrayDesc) (o : Operands) {s : State} (hk : Keeps b0 s) : Keeps b0 (moveCopy m d o
    s).2 := by
  unfold moveCopy
  try dsimp only
  repeat' first
    | with_reducible first
      | intro _ | assumption | apply moverRead_keeps | apply moverWrite_keeps | apply keeps_ite
      | simp only [keeps_mk_iff] | refine keeps_snd (by assumption) ?_ | split | dsimp only

theorem readIndices_keeps (m : Mover) (d : DrayDesc) (o : Operands) {s : State} (hk : Keeps b0 s) : Keeps b0 (readIndices
    m d o s).2 := by
  unfold readIndices
  try dsimp only
  repeat' first
    | with_reducible first
      | intro _ | assumption | apply moverRead_keeps | apply keeps_ite | simp only [keeps_mk_iff]
      | refine keeps_snd (by assumption) ?_ | split | dsimp only

theorem moveElem_keeps (m : Mover) (d : DrayDesc) (o : Operands) (acc : Moved × State) (e : Nat × Nat) (hk : Keeps b0 acc.2) :
    Keeps b0 (moveElem m d o acc e).2 := by
  unfold moveElem
  try dsimp only
  repeat' first | (intro _) | with_reducible assumption | with_reducible apply moverWrite_keeps | with_reducible apply moverRead_keeps | with_reducible apply regionFault_keeps | with_reducible refine keeps_snd (by with_reducible assumption) ?_ | split | dsimp only

theorem moveIndexed_keeps (m : Mover) (d : DrayDesc) (o : Operands) {s : State} (hk : Keeps b0 s) : Keeps b0 (moveIndexed
    m d o s).2 := by
  unfold moveIndexed
  try dsimp only
  repeat' first
    | with_reducible first
      | intro _ | assumption | apply readIndices_keeps | apply moveElem_keeps | apply keeps_foldl
      | apply keeps_foldl_snd | apply keeps_ite | simp only [keeps_mk_iff] | refine keeps_snd (by assumption) ?_ | split
      | dsimp only

theorem moveConvert_keeps (m : Mover) (d : DrayDesc) (o : Operands) {s : State} (hk : Keeps b0 s) : Keeps b0 (moveConvert
    m d o s).2 := by
  unfold moveConvert
  try dsimp only
  repeat' first
    | with_reducible first
      | intro _ | assumption | apply moverRead_keeps | apply moverWrite_keeps | apply keeps_ite
      | simp only [keeps_mk_iff] | refine keeps_snd (by assumption) ?_ | split | dsimp only

theorem moveInvalidate_keeps (m : Mover) (d : DrayDesc) (o : Operands) {s : State} (hk : Keeps b0 s) : Keeps b0
    (moveInvalidate m d o s).2 := by
  unfold moveInvalidate
  try dsimp only
  repeat' first
    | with_reducible first
      | intro _ | assumption | apply wrcInvalidate_keeps | apply keeps_ite | simp only [keeps_mk_iff]
      | refine keeps_snd (by assumption) ?_ | split | dsimp only

theorem moveAll_keeps (m : Mover) (d : DrayDesc) (o : Operands) {s : State} (hk : Keeps b0 s) : Keeps b0 (moveAll m d o
    s).2.2 := by
  unfold moveAll
  try dsimp only
  repeat' first
    | with_reducible first
      | intro _ | assumption | apply clearDetector_keeps | apply moveIndexed_keeps | apply moveConvert_keeps
      | apply moveInvalidate_keeps | apply moveCopy_keeps | apply moverWrite_keeps | apply keeps_ite
      | simp only [keeps_mk_iff] | refine keeps_snd (by assumption) ?_ | split | dsimp only

theorem finishCommand_keeps (m : Mover) (q : Nat) (w : List Word) {s : State} (hk : Keeps b0 s) : Keeps b0 (finishCommand
    m q w s) := by
  unfold finishCommand
  try dsimp only
  repeat' first
    | with_reducible first
      | intro _ | assumption | apply partReset_keeps | apply pushRec_keeps | apply countPoison_keeps
      | apply moveAll_keeps | apply keeps_ite | simp only [keeps_mk_iff] | refine keeps_snd (by assumption) ?_ | split
      | dsimp only

theorem requestLines_keeps (d : Nat) (acq : Bool) (ls : List (Nat × Nat)) {s : State} (hk : Keeps b0 s) : Keeps b0
    (requestLines d acq ls s) := by
  unfold requestLines
  try dsimp only
  repeat' first
    | with_reducible first
      | intro _ | assumption | apply sendReq_keeps | apply keeps_foldl | apply keeps_foldl_snd | apply keeps_ite
      | simp only [keeps_mk_iff] | split | dsimp only

theorem runCommandOn_keeps (m : Mover) (q : Nat) (w : List Word) (x : DrayWait) {s : State} (hk : Keeps b0 s) : Keeps b0
    (runCommandOn m q w x s) := by
  unfold runCommandOn
  try dsimp only
  repeat' first
    | with_reducible first
      | intro _ | assumption | apply raiseEvent_keeps | apply pushRec_keeps | apply finishCommand_keeps
      | apply requestLines_keeps | apply keeps_ite | simp only [keeps_mk_iff] | split | dsimp only
    | exact rfl

theorem drayCommand_keeps (op q : Nat) {s : State} (hk : Keeps b0 s) : Keeps b0 (drayCommand op q s) := by
  unfold drayCommand
  try dsimp only
  repeat' first
    | with_reducible first
      | intro _ | assumption | apply setQueue_keeps | apply pushRec_keeps | apply raiseEvent_keeps
      | apply runCommandOn_keeps | apply keeps_ite | simp only [keeps_mk_iff] | refine keeps_snd (by assumption) ?_
      | split | dsimp only
    | exact rfl

theorem drayArrive_keeps (d pkg l : Nat) (data : Option (List Byte)) {s : State} (hk : Keeps b0 s) : Keeps b0 (drayArrive
    d pkg l data s) := by
  unfold drayArrive
  try dsimp only
  repeat' first
    | with_reducible first
      | intro _ | assumption | apply runCommandOn_keeps | apply raiseEvent_keeps | apply pushRec_keeps | apply keeps_ite
      | simp only [keeps_mk_iff] | refine keeps_snd (by assumption) ?_ | split | dsimp only
    | exact rfl

theorem noteDigest_keeps (p st idx receipt : Nat) (g : Option (List Byte)) {s : State} (hk : Keeps b0 s) : Keeps b0
    (noteDigest p st idx receipt g s) := by
  unfold noteDigest
  try dsimp only
  repeat' first
    | with_reducible first
      | intro _ | assumption | apply modJob_keeps | apply keeps_ite | simp only [keeps_mk_iff]
      | refine keeps_snd (by assumption) ?_ | split | dsimp only

theorem noteMoved_keeps (p d : Nat) (r : Moved) {s : State} (hk : Keeps b0 s) : Keeps b0 (noteMoved p d r s) := by
  unfold noteMoved
  try dsimp only
  repeat' first
    | with_reducible first
      | intro _ | assumption | apply modJob_keeps | apply raiseEvent_keeps | apply keeps_ite | simp only [keeps_mk_iff]
      | refine keeps_snd (by assumption) ?_ | split | dsimp only
    | exact rfl

theorem drayAction_keeps (p st idx seed : Nat) (w : List Word) {s : State} (hk : Keeps b0 s) : Keeps b0 (drayAction p st
    idx seed w s) := by
  unfold drayAction
  try dsimp only
  repeat' first
    | with_reducible first
      | intro _ | assumption | apply issueAbort_keeps | apply countPoison_keeps | apply moveAll_keeps
      | apply noteMoved_keeps | apply noteDigest_keeps | apply keeps_ite | simp only [keeps_mk_iff]
      | refine keeps_snd (by assumption) ?_ | split | dsimp only

theorem collRead_keeps (e : Nat) (w : Word) (n : Nat) {s : State} (hk : Keeps b0 s) : Keeps b0 (collRead e w n s).2 := by
  unfold collRead
  try dsimp only
  repeat' first
    | with_reducible first
      | intro _ | assumption | apply cohRead_keeps | apply readReach_keeps | apply keeps_ite | simp only [keeps_mk_iff]
      | refine keeps_snd (by assumption) ?_ | split | dsimp only

theorem collWrite_keeps (e : Nat) (w : Word) (off : Nat) (bs : List Byte) {s : State} (hk : Keeps b0 s) : Keeps b0
    (collWrite e w off bs s) := by
  unfold collWrite
  try dsimp only
  repeat' first
    | with_reducible first
      | intro _ | assumption | apply cohWrite_keeps | apply checkReach_keeps | apply tileWrite_keeps | apply keeps_ite
      | simp only [keeps_mk_iff] | refine keeps_snd (by assumption) ?_ | split | dsimp only

theorem emit_keeps (e : Nat) (c : Coll) (step : Nat) (exps : Bool) (off : Nat) (xs : List (BitVec 128)) {s : State} (hk :
    Keeps b0 s) : Keeps b0 (emit e c step exps off xs s) := by
  unfold emit
  try dsimp only
  repeat' first
    | with_reducible first
      | intro _ | assumption | apply send_keeps | apply keeps_foldl | apply keeps_foldl_snd | apply keeps_ite
      | simp only [keeps_mk_iff] | split | dsimp only

theorem setColl_keeps (e : Nat) (c : Coll) {s : State} (hk : Keeps b0 s) : Keeps b0 (setColl e c s) := by
  unfold setColl
  try dsimp only
  repeat' first
    | with_reducible first
      | intro _ | assumption | apply keeps_ite | simp only [keeps_mk_iff] | split | dsimp only

theorem startSums_keeps (e : Nat) (c : Coll) {s : State} (hk : Keeps b0 s) : Keeps b0 (startSums e c s) := by
  unfold startSums
  try dsimp only
  repeat' first
    | with_reducible first
      | intro _ | assumption | apply emit_keeps | apply keeps_ite | simp only [keeps_mk_iff]
      | refine keeps_snd (by assumption) ?_ | split | dsimp only

theorem startExps_keeps (e : Nat) (c : Coll) {s : State} (hk : Keeps b0 s) : Keeps b0 (startExps e c s) := by
  unfold startExps
  try dsimp only
  repeat' first
    | with_reducible first
      | intro _ | assumption | apply emit_keeps | apply keeps_getD | apply keeps_ite | simp only [keeps_mk_iff]
      | refine keeps_snd (by assumption) ?_ | split | dsimp only

theorem finishColl_keeps (e : Nat) (d : List Word) (c : Coll) {s : State} (hk : Keeps b0 s) : Keeps b0 (finishColl e d c
    s) := by
  unfold finishColl
  try dsimp only
  repeat' first
    | with_reducible first
      | intro _ | assumption | apply collWrite_keeps | apply cohWrite_keeps | apply orWait_keeps | apply modJob_keeps
      | apply keeps_ite | simp only [keeps_mk_iff] | refine keeps_snd (by assumption) ?_ | split | dsimp only

theorem settle_keeps (e : Nat) (c : Coll) {s : State} (hk : Keeps b0 s) : Keeps b0 (settle e c s) := by
  unfold settle
  try dsimp only
  repeat' first
    | with_reducible first
      | intro _ | assumption | apply startSums_keeps | apply setColl_keeps | apply complete_keeps
      | apply finishColl_keeps | apply keeps_ite | simp only [keeps_mk_iff] | refine keeps_snd (by assumption) ?_
      | split | dsimp only

theorem sumPacket_keeps (e : Nat) (c : Coll) (k : CollPacket) {s : State} (hk : Keeps b0 s) : Keeps b0 (sumPacket e c k s)
    := by
  unfold sumPacket
  try dsimp only
  repeat' first
    | with_reducible first
      | intro _ | assumption | apply settle_keeps | apply emit_keeps | apply keeps_getD | apply keeps_ite
      | simp only [keeps_mk_iff] | refine keeps_snd (by assumption) ?_ | split | dsimp only

theorem expPacket_keeps (e : Nat) (c : Coll) (k : CollPacket) {s : State} (hk : Keeps b0 s) : Keeps b0 (expPacket e c k s)
    := by
  unfold expPacket
  try dsimp only
  repeat' first
    | with_reducible first
      | intro _ | assumption | apply settle_keeps | apply emit_keeps | apply keeps_foldl | apply keeps_foldl_snd
      | apply keeps_getD | apply keeps_ite | simp only [keeps_mk_iff] | split | dsimp only

theorem gatherPacket_keeps (e : Nat) (c : Coll) (k : CollPacket) {s : State} (hk : Keeps b0 s) : Keeps b0 (gatherPacket e
    c k s) := by
  unfold gatherPacket
  try dsimp only
  repeat' first
    | with_reducible first
      | intro _ | assumption | apply settle_keeps | apply emit_keeps | apply keeps_ite | simp only [keeps_mk_iff]
      | split | dsimp only

theorem tokenPacket_keeps (e : Nat) (c : Coll) (k : CollPacket) {s : State} (hk : Keeps b0 s) : Keeps b0 (tokenPacket e c
    k s) := by
  unfold tokenPacket
  try dsimp only
  repeat' first
    | with_reducible first
      | intro _ | assumption | apply settle_keeps | apply emit_keeps | apply keeps_ite | simp only [keeps_mk_iff]
      | split | dsimp only

theorem treeStep_keeps (e : Nat) (c : Coll) {s : State} (hk : Keeps b0 s) : Keeps b0 (treeStep e c s) := by
  unfold treeStep
  try dsimp only
  repeat' first
    | with_reducible first
      | intro _ | assumption | apply setColl_keeps | apply settle_keeps | apply emit_keeps | apply keeps_getD
      | apply keeps_ite | simp only [keeps_mk_iff] | refine keeps_snd (by assumption) ?_ | split | dsimp only

theorem treePacket_keeps (e : Nat) (c : Coll) (k : CollPacket) {s : State} (hk : Keeps b0 s) : Keeps b0 (treePacket e c k
    s) := by
  unfold treePacket
  try dsimp only
  repeat' first
    | with_reducible first
      | intro _ | assumption | apply treeStep_keeps | apply settle_keeps | apply emit_keeps | apply keeps_ite
      | simp only [keeps_mk_iff] | split | dsimp only

theorem takePacket_keeps (e : Nat) (c0 : Coll) (k : CollPacket) {s : State} (hk : Keeps b0 s) : Keeps b0 (takePacket e c0
    k s) := by
  unfold takePacket
  try dsimp only
  repeat' first
    | with_reducible first
      | intro _ | assumption | apply treePacket_keeps | apply tokenPacket_keeps | apply gatherPacket_keeps
      | apply expPacket_keeps | apply sumPacket_keeps | apply keeps_ite | simp only [keeps_mk_iff] | split | dsimp only

theorem drainEarly_keeps (e n : Nat) {s : State} (hk : Keeps b0 s) : Keeps b0 (drainEarly e n s) := by
  induction n generalizing s with
  | zero => exact hk
  | succ n ih =>
    unfold drainEarly
    split
    · exact hk
    · dsimp only
      split
      · refine ih (takePacket_keeps _ _ _ ?_)
        simp only [keeps_mk_iff]
        exact hk
      · exact hk

theorem startColl_keeps (e p st idx : Nat) (d : List Word) {s : State} (hk : Keeps b0 s) : Keeps b0 (startColl e p st idx
    d s) := by
  unfold startColl
  try dsimp only
  repeat' first
    | with_reducible first
      | intro _ | assumption | apply issueAbort_keeps | apply countPoison_keeps | apply collRead_keeps
      | apply treeStep_keeps | apply settle_keeps | apply emit_keeps | apply startExps_keeps | apply setColl_keeps
      | apply startSums_keeps | apply drainEarly_keeps | apply keeps_ite | simp only [keeps_mk_iff]
      | refine keeps_snd (by assumption) ?_ | split | dsimp only

theorem packetEffect_keeps (k : CollPacket) {s : State} (hk : Keeps b0 s) : Keeps b0 (packetEffect k s) := by
  unfold packetEffect
  try dsimp only
  repeat' first
    | with_reducible first
      | intro _ | assumption | apply drainEarly_keeps | apply takePacket_keeps | apply keeps_ite
      | simp only [keeps_mk_iff] | refine keeps_snd (by assumption) ?_ | split | dsimp only

theorem slateRow_keeps (st ty : Nat) (run : Going → State → State) {s : State} (h0 : ∀ g s, Keeps b0 s → Keeps b0 (run g
    s)) (hk : Keeps b0 s) : Keeps b0 (slateRow st ty run s) := by
  unfold slateRow
  try dsimp only
  repeat' first
    | with_reducible first
      | intro _ | assumption | apply h0 | apply noteNeeds_keeps | apply launch_keeps | apply keeps_ite
      | simp only [keeps_mk_iff] | refine keeps_snd (by assumption) ?_ | split | dsimp only

theorem tileRow_keeps (st ty : Nat) (run : Nat → Going → State → State) {s : State} (h0 : ∀ t g s, Keeps b0 s → Keeps b0
    (run t g s)) (hk : Keeps b0 s) : Keeps b0 (tileRow st ty run s) := by
  unfold tileRow
  try dsimp only
  repeat' first
    | with_reducible first
      | intro _ | assumption | apply h0 | apply slateRow_keeps | apply keeps_ite | simp only [keeps_mk_iff]
      | refine keeps_snd (by assumption) ?_ | split | dsimp only

theorem latenessEffect_keeps (st : Nat) {s : State} (hk : Keeps b0 s) : Keeps b0 (latenessEffect st s) := by
  unfold latenessEffect
  try dsimp only
  repeat' first
    | with_reducible first
      | intro _ | assumption | apply advance_keeps | apply setSeq_keeps | apply issueAbort_keeps | apply issue_keeps
      | apply keeps_ite | simp only [keeps_mk_iff] | refine keeps_snd (by assumption) ?_ | split | dsimp only

theorem cubeEffect_keeps (st : Nat) {s : State} (hk : Keeps b0 s) : Keeps b0 (cubeEffect st s) := by
  unfold cubeEffect
  try dsimp only
  repeat' first
    | with_reducible first
      | intro _ | assumption | apply tileRow_keeps | apply runCubeOp_keeps | apply keeps_ite | simp only [keeps_mk_iff]
      | split | dsimp only

theorem vectorEffect_keeps (st : Nat) {s : State} (hk : Keeps b0 s) : Keeps b0 (vectorEffect st s) := by
  unfold vectorEffect
  try dsimp only
  repeat' first
    | with_reducible first
      | intro _ | assumption | apply tileRow_keeps | apply runVectorProgram_keeps | apply keeps_ite
      | simp only [keeps_mk_iff] | split | dsimp only

theorem grantEffect_keeps (st : Nat) {s : State} (hk : Keeps b0 s) : Keeps b0 (grantEffect st s) := by
  unfold grantEffect
  try dsimp only
  repeat' first
    | with_reducible first
      | intro _ | assumption | apply tileRow_keeps | apply complete_keeps | apply applyGrant_keeps | apply keeps_ite
      | simp only [keeps_mk_iff] | split | dsimp only

theorem updateEffect_keeps (st : Nat) {s : State} (hk : Keeps b0 s) : Keeps b0 (updateEffect st s) := by
  unfold updateEffect
  try dsimp only
  repeat' first
    | with_reducible first
      | intro _ | assumption | apply tileRow_keeps | apply startUpdate_keeps | apply keeps_getD | apply keeps_ite
      | simp only [keeps_mk_iff] | split | dsimp only

theorem collEffect_keeps (st ty : Nat) {s : State} (hk : Keeps b0 s) : Keeps b0 (collEffect st ty s) := by
  unfold collEffect
  try dsimp only
  repeat' first
    | with_reducible first
      | intro _ | assumption | apply slateRow_keeps | apply startColl_keeps | apply keeps_ite | simp only [keeps_mk_iff]
      | split | dsimp only

theorem drayEffect_keeps (op : Nat) (w : DrayWork) {s : State} (hk : Keeps b0 s) : Keeps b0 (drayEffect op w s) := by
  unfold drayEffect
  try dsimp only
  repeat' first
    | with_reducible first
      | intro _ | assumption | apply drayCommand_keeps | apply slateRow_keeps | apply drayAction_keeps
      | apply keeps_getD | apply keeps_ite | simp only [keeps_mk_iff] | refine keeps_snd (by assumption) ?_ | split
      | dsimp only

theorem tierRow_keeps (st ty : Nat) (kind : Going → TierKind) {s : State} (hk : Keeps b0 s) : Keeps b0 (tierRow st ty kind
    s) := by
  unfold tierRow
  try dsimp only
  repeat' first
    | with_reducible first
      | intro _ | assumption | apply slateRow_keeps | apply tierRetry_keeps | apply releaseHeld_keeps
      | apply tierStart_keeps | apply keeps_foldl | apply keeps_foldl_snd | apply keeps_ite | simp only [keeps_mk_iff]
      | split | dsimp only

theorem expireExt_keeps {s : State} (x : Nat) (hk : Keeps b0 s) : Keeps b0 (expireExt s x) := by
  unfold expireExt
  try dsimp only
  repeat' first
    | with_reducible first
      | intro _ | assumption | apply setExt_keeps | apply keeps_ite | simp only [keeps_mk_iff]
      | refine keeps_snd (by assumption) ?_ | split | dsimp only

theorem windowEffect_keeps (st : Nat) {s : State} (hk : Keeps b0 s) : Keeps b0 (windowEffect st s) := by
  unfold windowEffect
  try dsimp only
  repeat' first
    | with_reducible first
      | intro _ | assumption | apply launch_keeps | apply keeps_ite | simp only [keeps_mk_iff]
      | refine keeps_snd (by assumption) ?_ | split | dsimp only

end Sys2Proof.Machine
end

