-- ==== Sys2Proof/Laws/KeepsUnits.lean ====
section
/-! SUPPORT. What Laws/Keeps.lean says, of memory upkeep, tests, receipts and links. -/

set_option maxRecDepth 20000
set_option linter.unusedTactic false
set_option linter.unreachableTactic false
set_option linter.unusedVariables false
set_option linter.unusedSimpArgs false

namespace Sys2Proof.Machine

variable {b0 : State}

theorem applyRepairs_keeps {s : State} (hk : Keeps b0 s) : Keeps b0 (applyRepairs s) := by
  unfold applyRepairs
  try dsimp only
  repeat' first
    | with_reducible first
      | intro _ | assumption | apply keeps_ite | simp only [keeps_mk_iff] | split | dsimp only

theorem hbmRefillEffect_keeps {s : State} (hk : Keeps b0 s) : Keeps b0 (hbmRefillEffect s) := by
  unfold hbmRefillEffect
  try dsimp only
  repeat' first
    | with_reducible first
      | intro _ | assumption | apply advance_keeps | apply keeps_ite | simp only [keeps_mk_iff] | split | dsimp only

theorem flashRefillEffect_keeps {s : State} (hk : Keeps b0 s) : Keeps b0 (flashRefillEffect s) := by
  unfold flashRefillEffect
  try dsimp only
  repeat' first
    | with_reducible first
      | intro _ | assumption | apply advance_keeps | apply keeps_ite | simp only [keeps_mk_iff] | split | dsimp only

theorem scrubEffect_keeps (l : Nat) (o : EccOutcome) {s : State} (hk : Keeps b0 s) : Keeps b0 (scrubEffect l o s) := by
  unfold scrubEffect
  try dsimp only
  repeat' first
    | with_reducible first
      | intro _ | assumption | apply meetError_keeps | apply actOnError_keeps | apply keeps_ite
      | simp only [keeps_mk_iff] | refine keeps_snd (by assumption) ?_ | split | dsimp only

theorem sectorReadEffect_keeps (r : Requester) (x k : Nat) (o : EccOutcome) {s : State} (hk : Keeps b0 s) : Keeps b0
    (sectorReadEffect r x k o s) := by
  unfold sectorReadEffect
  try dsimp only
  repeat' first
    | with_reducible first
      | intro _ | assumption | apply sectorArray_keeps | apply chargeFlash_keeps | apply poisonSector_keeps
      | apply keeps_ite | simp only [keeps_mk_iff] | refine keeps_snd (by assumption) ?_ | split | dsimp only

theorem afterSwitch_keeps (x : Nat) {s : State} (hk : Keeps b0 s) : Keeps b0 (afterSwitch x s) := by
  unfold afterSwitch
  try dsimp only
  repeat' first
    | with_reducible first
      | intro _ | assumption | apply tierRetry_keeps | apply tierDrain_keeps | apply releaseHeld_keeps
      | apply dropAheadExtent_keeps | apply keeps_ite | simp only [keeps_mk_iff] | split | dsimp only

theorem noteTransition_keeps (r : Option TierReq) (p : Nat) {s : State} (hk : Keeps b0 s) : Keeps b0 (noteTransition r p
    s) := by
  unfold noteTransition
  try dsimp only
  repeat' first
    | with_reducible first
      | intro _ | assumption | apply noteNeeds_keeps | apply keeps_ite | simp only [keeps_mk_iff]
      | refine keeps_snd (by assumption) ?_ | split | dsimp only

theorem promotionSwitchEffect_keeps (x : Nat) {s : State} (hk : Keeps b0 s) : Keeps b0 (promotionSwitchEffect x s) := by
  unfold promotionSwitchEffect
  try dsimp only
  repeat' first
    | with_reducible first
      | intro _ | assumption | apply arrayRead_keeps | apply noteTransition_keeps | apply chargeFlash_keeps
      | apply chargeFrame_keeps | apply afterSwitch_keeps | apply promoteSwitch_keeps | apply keeps_foldl
      | apply keeps_foldl_snd | apply keeps_ite | simp only [keeps_mk_iff] | refine keeps_snd (by assumption) ?_ | split
      | dsimp only

theorem chargePass_keeps (x sectors : Nat) {s : State} (hk : Keeps b0 s) : Keeps b0 (chargePass x sectors s) := by
  unfold chargePass
  try dsimp only
  repeat' first
    | with_reducible first
      | intro _ | assumption | apply noteTransition_keeps | apply chargeFrame_keeps | apply keeps_ite
      | simp only [keeps_mk_iff] | refine keeps_snd (by assumption) ?_ | split | dsimp only

theorem demotionPassEffect_keeps (x : Nat) {s : State} (hk : Keeps b0 s) : Keeps b0 (demotionPassEffect x s) := by
  unfold demotionPassEffect
  try dsimp only
  repeat' first
    | with_reducible first
      | intro _ | assumption | apply drainExtent_keeps | apply afterSwitch_keeps | apply demoteSwitch_keeps
      | apply chargePass_keeps | apply settleExtent_keeps | apply setExt_keeps | apply keeps_ite
      | simp only [keeps_mk_iff] | refine keeps_snd (by assumption) ?_ | split | dsimp only

theorem relocationStartEffect_keeps (f b : Nat) {s : State} (hk : Keeps b0 s) : Keeps b0 (relocationStartEffect f b s) :=
    by
  unfold relocationStartEffect
  try dsimp only
  repeat' first
    | with_reducible first
      | intro _ | assumption | apply draw_keeps | apply bump_keeps | apply setStack_keeps | apply keeps_ite
      | simp only [keeps_mk_iff] | refine keeps_snd (by assumption) ?_ | split | dsimp only

theorem relocationSwitchEffect_keeps (f b : Nat) {s : State} (hk : Keeps b0 s) : Keeps b0 (relocationSwitchEffect f b s)
    := by
  unfold relocationSwitchEffect
  try dsimp only
  repeat' first
    | with_reducible first
      | intro _ | assumption | apply switchBlock_keeps | apply keeps_ite | simp only [keeps_mk_iff]
      | refine keeps_snd (by assumption) ?_ | split | dsimp only

theorem blockFailureEffect_keeps (f b : Nat) {s : State} (hk : Keeps b0 s) : Keeps b0 (blockFailureEffect f b s) := by
  unfold blockFailureEffect
  try dsimp only
  repeat' first
    | with_reducible first
      | intro _ | assumption | apply draw_keeps | apply setStack_keeps | apply keeps_ite | simp only [keeps_mk_iff]
      | refine keeps_snd (by assumption) ?_ | split | dsimp only

theorem restartExt_keeps {s : State} (x : Nat) (hk : Keeps b0 s) : Keeps b0 (restartExt s x) := by
  unfold restartExt
  try dsimp only
  repeat' first
    | with_reducible first
      | intro _ | assumption | apply endTransition_keeps | apply keeps_ite | simp only [keeps_mk_iff]
      | refine keeps_snd (by assumption) ?_ | split | dsimp only

theorem tenderRestartEffect_keeps (hd : Nat) {s : State} (hk : Keeps b0 s) : Keeps b0 (tenderRestartEffect hd s) := by
  unfold tenderRestartEffect
  try dsimp only
  repeat' first
    | with_reducible first
      | intro _ | assumption | apply restartExt_keeps | apply settleRelocations_keeps | apply keeps_foldl
      | apply keeps_foldl_snd | apply keeps_ite | simp only [keeps_mk_iff] | split | dsimp only

theorem tenderRestartDoneEffect_keeps (hd : Nat) {s : State} (hk : Keeps b0 s) : Keeps b0 (tenderRestartDoneEffect hd s)
    := by
  unfold tenderRestartDoneEffect
  try dsimp only
  repeat' first
    | with_reducible first
      | intro _ | assumption | apply tierRetry_keeps | apply tierDrain_keeps | apply releaseHeld_keeps
      | apply keeps_foldl | apply keeps_foldl_snd | apply keeps_ite | simp only [keeps_mk_iff] | split | dsimp only

theorem testStartEffect_keeps (t m : Nat) {s : State} (hk : Keeps b0 s) : Keeps b0 (testStartEffect t m s) := by
  unfold testStartEffect
  try dsimp only
  repeat' first
    | with_reducible first
      | intro _ | assumption | apply setTest_keeps | apply keeps_ite | simp only [keeps_mk_iff] | split | dsimp only

theorem walkOn_keeps (t m : Nat) {s : State} (hk : Keeps b0 s) : Keeps b0 (walkOn t m s) := by
  unfold walkOn
  try dsimp only
  repeat' first
    | with_reducible first
      | intro _ | assumption | apply setTile_keeps | apply keeps_ite | simp only [keeps_mk_iff] | split | dsimp only

theorem softRepair_keeps (t m : Nat) (acc : Bool × State) (f : Nat × Bool × Nat) (hk : Keeps b0 acc.2) :
    Keeps b0 (softRepair t m acc f).2 := by
  unfold softRepair
  dsimp only
  split
  · exact hk
  · exact recordEntry_keeps _ (keeps_mk (s := acc.2) hk)

theorem loseRegion_keeps (t m : Nat) {s : State} (hk : Keeps b0 s) : Keeps b0 (loseRegion t m s) := by
  unfold loseRegion
  try dsimp only
  repeat' first
    | with_reducible first
      | intro _ | assumption | apply retireTile_keeps | apply setTest_keeps | apply keeps_ite | simp only [keeps_mk_iff]
      | split | dsimp only

theorem restoreStep_keeps (t m n : Nat) (fails : List (Nat × Bool × Nat)) {s : State} (hk : Keeps b0 s) : Keeps b0
    (restoreStep t m n fails s) := by
  unfold restoreStep
  try dsimp only
  repeat' first
    | with_reducible first
      | intro _ | assumption | apply loseRegion_keeps | apply softRepair_keeps | apply countCorrected_keeps
      | apply walkOn_keeps | apply eccWrite_keeps | apply retireTile_keeps | apply keeps_foldl | apply keeps_foldl_snd
      | apply keeps_ite | simp only [keeps_mk_iff] | refine keeps_snd (by assumption) ?_ | split | dsimp only

theorem testDoneEffect_keeps (t m : Nat) (o : TestOutcome) {s : State} (hk : Keeps b0 s) : Keeps b0 (testDoneEffect t m o
    s) := by
  unfold testDoneEffect
  try dsimp only
  repeat' first
    | with_reducible first
      | intro _ | assumption | apply abandonStep_keeps | apply restoreStep_keeps | apply loseRegion_keeps
      | apply keeps_ite | simp only [keeps_mk_iff] | refine keeps_snd (by assumption) ?_ | split | dsimp only

theorem haltJobs_keeps (status : Nat) (record : Bool) {s : State} (hk : Keeps b0 s) : Keeps b0 (haltJobs status record s)
    := by
  unfold haltJobs
  try dsimp only
  repeat' first
    | with_reducible first
      | intro _ | assumption | apply abortJob_keeps | apply keeps_foldl | apply keeps_foldl_snd | apply keeps_ite
      | simp only [keeps_mk_iff] | split | dsimp only

theorem finishChans_keeps (status : Nat) {s : State} (hk : Keeps b0 s) : Keeps b0 (finishChans status s) := by
  unfold finishChans
  try dsimp only
  repeat' first
    | with_reducible first
      | intro _ | assumption | apply finishDeferred_keeps | apply keeps_foldl | apply keeps_foldl_snd | apply keeps_ite
      | simp only [keeps_mk_iff] | split | dsimp only

theorem clearParts_keeps {s : State} (hk : Keeps b0 s) : Keeps b0 (clearParts s) := by
  unfold clearParts
  try dsimp only
  repeat' first
    | with_reducible first
      | intro _ | assumption | apply rerouteTime_keeps | apply keeps_ite | simp only [keeps_mk_iff] | split | dsimp only

theorem resetTiles_keeps {s : State} (hk : Keeps b0 s) : Keeps b0 (resetTiles s) :=
  keeps_mems hk hk.mem hk.flash (fun _ => memWf_nil)

theorem resetHarts_keeps {s : State} (hk : Keeps b0 s) : Keeps b0 (resetHarts s) := by
  unfold resetHarts
  try dsimp only
  repeat' first
    | with_reducible first
      | intro _ | assumption | apply keeps_ite | simp only [keeps_mk_iff] | split | dsimp only

theorem abandonBatches_keeps {s : State} (hk : Keeps b0 s) : Keeps b0 (abandonBatches s) := by
  unfold abandonBatches
  try dsimp only
  repeat' first
    | with_reducible first
      | intro _ | assumption | apply modBatches_keeps | apply keeps_getD | apply keeps_ite | simp only [keeps_mk_iff]
      | split | dsimp only

theorem hbmLost_keeps {s : State} (hk : Keeps b0 s) : Keeps b0 (hbmLost s) := by
  unfold hbmLost
  try dsimp only
  repeat' first
    | with_reducible first
      | intro _ | assumption | apply settleRelocations_keeps | apply tierPowerOn_keeps | apply keeps_foldl
      | apply keeps_foldl_snd | apply keeps_ite | simp only [keeps_mk_iff] | split | dsimp only

theorem islandsOnly_keeps {s : State} (hk : Keeps b0 s) : Keeps b0 (islandsOnly s) := by
  unfold islandsOnly
  try dsimp only
  repeat' first
    | with_reducible first
      | intro _ | assumption | apply resetHarts_keeps | apply resetTiles_keeps | apply clearParts_keeps
      | apply hbmLost_keeps | apply keeps_ite | simp only [keeps_mk_iff] | split | dsimp only

theorem losePower_keeps {s : State} (hk : Keeps b0 s) : Keeps b0 (losePower s) := by
  unfold losePower
  try dsimp only
  repeat' first
    | with_reducible first
      | intro _ | assumption | apply islandsOnly_keeps | apply abandonBatches_keeps | apply finishChans_keeps
      | apply haltJobs_keeps | apply keeps_ite | simp only [keeps_mk_iff] | split | dsimp only

theorem enterSafe_keeps (cause unit : Nat) {s : State} (hk : Keeps b0 s) : Keeps b0 (enterSafe cause unit s) := by
  unfold enterSafe
  try dsimp only
  repeat' first
    | with_reducible first
      | intro _ | assumption | apply losePower_keeps | apply keeps_ite | simp only [keeps_mk_iff] | split | dsimp only

theorem wipeVault_keeps (hd : Nat) {s : State} (hk : Keeps b0 s) : Keeps b0 (wipeVault hd s) := by
  unfold wipeVault
  try dsimp only
  repeat' first
    | with_reducible first
      | intro _ | assumption | apply setVault_keeps | apply keeps_ite | simp only [keeps_mk_iff] | split | dsimp only

theorem wipeVaults_keeps {s : State} (hk : Keeps b0 s) : Keeps b0 (wipeVaults s) := by
  unfold wipeVaults
  try dsimp only
  repeat' first
    | with_reducible first
      | intro _ | assumption | apply wipeVault_keeps | apply keeps_ite | simp only [keeps_mk_iff] | split | dsimp only

theorem vaultTestEffect_keeps (hd : Nat) (o : EccOutcome) {s : State} (hk : Keeps b0 s) : Keeps b0 (vaultTestEffect hd o
    s) := by
  unfold vaultTestEffect
  try dsimp only
  repeat' first
    | with_reducible first
      | intro _ | assumption | apply enterSafe_keeps | apply wipeVault_keeps | apply setVault_keeps | apply keeps_ite
      | simp only [keeps_mk_iff] | refine keeps_snd (by assumption) ?_ | split | dsimp only

theorem vaultWipeEffect_keeps (hd : Nat) {s : State} (hk : Keeps b0 s) : Keeps b0 (vaultWipeEffect hd s) := by
  unfold vaultWipeEffect
  try dsimp only
  repeat' first
    | with_reducible first
      | intro _ | assumption | apply advance_keeps | apply setVault_keeps | apply keeps_ite | simp only [keeps_mk_iff]
      | refine keeps_snd (by assumption) ?_ | split | dsimp only

theorem readVault_keeps (hd : Nat) {s : State} (hk : Keeps b0 s) : Keeps b0 (readVault hd s) := by
  unfold readVault
  try dsimp only
  repeat' first
    | with_reducible first
      | intro _ | assumption | apply vaultWipeEffect_keeps | apply enterSafe_keeps | apply wipeVault_keeps
      | apply keeps_ite | simp only [keeps_mk_iff] | split | dsimp only

theorem signBatches_keeps {s : State} (hk : Keeps b0 s) : Keeps b0 (signBatches s) := by
  unfold signBatches
  try dsimp only
  repeat' first
    | with_reducible first
      | intro _ | assumption | apply modBatches_keeps | apply keeps_ite | simp only [keeps_mk_iff] | split | dsimp only

theorem closeAndSign_keeps {s : State} (hk : Keeps b0 s) : Keeps b0 (closeAndSign s) := by
  unfold closeAndSign
  try dsimp only
  repeat' first
    | with_reducible first
      | intro _ | assumption | apply signBatches_keeps | apply closeBatch_keeps | apply keeps_ite
      | simp only [keeps_mk_iff] | split | dsimp only

theorem batchTimeoutEffect_keeps {s : State} (hk : Keeps b0 s) : Keeps b0 (batchTimeoutEffect s) := by
  unfold batchTimeoutEffect
  try dsimp only
  repeat' first
    | with_reducible first
      | intro _ | assumption | apply closeBatch_keeps | apply advance_keeps | apply keeps_ite | simp only [keeps_mk_iff]
      | refine keeps_snd (by assumption) ?_ | split | dsimp only

theorem batchRecordEffect_keeps {s : State} (hk : Keeps b0 s) : Keeps b0 (batchRecordEffect s) := by
  unfold batchRecordEffect
  try dsimp only
  repeat' first
    | with_reducible first
      | intro _ | assumption | apply readVault_keeps | apply modBatches_keeps | apply keeps_ite
      | simp only [keeps_mk_iff] | refine keeps_snd (by assumption) ?_ | split | dsimp only

theorem cmdReceiptFetch_keeps (ch seq : Nat) (w : List Word) {s : State} (hk : Keeps b0 s) : Keeps b0 (cmdReceiptFetch ch
    seq w s).2 := by
  unfold cmdReceiptFetch
  try dsimp only
  repeat' first
    | with_reducible first
      | intro _ | assumption | apply keeps_ite | simp only [keeps_mk_iff] | refine keeps_snd (by assumption) ?_ | split
      | dsimp only

theorem sendFlit_keeps (l d ftype seq : Nat) (slots : List Byte) {s : State} (hk : Keeps b0 s) : Keeps b0 (sendFlit l d
    ftype seq slots s) := by
  unfold sendFlit
  try dsimp only
  repeat' first
    | with_reducible first
      | intro _ | assumption | apply send_keeps | apply setLink_keeps | apply keeps_getD | apply keeps_ite
      | simp only [keeps_mk_iff] | refine keeps_snd (by assumption) ?_ | split | dsimp only

theorem replayFlits_keeps (l d : Nat) {s : State} (hk : Keeps b0 s) : Keeps b0 (replayFlits l d s) := by
  unfold replayFlits
  try dsimp only
  repeat' first
    | with_reducible first
      | intro _ | assumption | apply sendFlit_keeps | apply keeps_foldl | apply keeps_foldl_snd | apply keeps_ite
      | simp only [keeps_mk_iff] | split | dsimp only

theorem unhold_keeps (l d : Nat) {s : State} (hk : Keeps b0 s) : Keeps b0 (unhold l d s) := by
  unfold unhold
  try dsimp only
  repeat' first
    | with_reducible first
      | intro _ | assumption | apply setLink_keeps | apply keeps_foldl | apply keeps_foldl_snd | apply keeps_ite
      | simp only [keeps_mk_iff] | split | dsimp only

theorem pump_keeps (l d : Nat) {s : State} (hk : Keeps b0 s) : Keeps b0 (pump l d s) := by
  unfold pump
  try dsimp only
  repeat' first
    | with_reducible first
      | intro _ | assumption | apply unhold_keeps | apply sendFlit_keeps | apply setLink_keeps | apply keeps_foldl
      | apply keeps_foldl_snd | apply keeps_ite | simp only [keeps_mk_iff] | refine keeps_snd (by assumption) ?_ | split
      | dsimp only

theorem givePackets_keeps (a b : Nat) (front : Bool) (ps : List (Nat × List Byte)) {s : State} (hk : Keeps b0 s) : Keeps
    b0 (givePackets a b front ps s) := by
  unfold givePackets
  try dsimp only
  repeat' first
    | with_reducible first
      | intro _ | assumption | apply setLink_keeps | apply keeps_foldl | apply keeps_foldl_snd | apply keeps_ite
      | simp only [keeps_mk_iff] | split | dsimp only

theorem moveLink_keeps (l : Nat) {s : State} (hk : Keeps b0 s) : Keeps b0 (moveLink l s) := by
  unfold moveLink
  try dsimp only
  repeat' first
    | with_reducible first
      | intro _ | assumption | apply setLink_keeps | apply pump_keeps | apply givePackets_keeps | apply keeps_foldl
      | apply keeps_foldl_snd | apply keeps_ite | simp only [keeps_mk_iff] | refine keeps_snd (by assumption) ?_ | split
      | dsimp only

theorem afterWidth_keeps (l d : Nat) {s : State} (hk : Keeps b0 s) : Keeps b0 (afterWidth l d s) := by
  unfold afterWidth
  try dsimp only
  repeat' first
    | with_reducible first
      | intro _ | assumption | apply enterDegraded_keeps | apply raiseEvent_keeps | apply enterSafe_keeps
      | apply keeps_ite | simp only [keeps_mk_iff] | refine keeps_snd (by assumption) ?_ | split | dsimp only
    | exact rfl

theorem dropPort_keeps (p : Nat) {s : State} (hk : Keeps b0 s) : Keeps b0 (dropPort p s) := by
  unfold dropPort
  try dsimp only
  repeat' first
    | with_reducible first
      | intro _ | assumption | apply setPort_keeps | apply keeps_ite | simp only [keeps_mk_iff]
      | refine keeps_snd (by assumption) ?_ | split | dsimp only

theorem losePort_keeps (p : Nat) {s : State} (hk : Keeps b0 s) : Keeps b0 (losePort p s) := by
  unfold losePort
  try dsimp only
  repeat' first
    | with_reducible first
      | intro _ | assumption | apply raiseEvent_keeps | apply dropPort_keeps | apply enterDegraded_keeps
      | apply keeps_ite | simp only [keeps_mk_iff] | split | dsimp only
    | exact rfl

theorem failLane_keeps (l d n : Nat) {s : State} (hk : Keeps b0 s) : Keeps b0 (failLane l d n s) := by
  unfold failLane
  try dsimp only
  repeat' first
    | with_reducible first
      | intro _ | assumption | apply setLink_keeps | apply recordEntry_keeps | apply afterWidth_keeps
      | apply enterDegraded_keeps | apply losePort_keeps | apply moveLink_keeps | apply keeps_foldl
      | apply keeps_foldl_snd | apply keeps_ite | simp only [keeps_mk_iff] | refine keeps_snd (by assumption) ?_ | split
      | dsimp only

theorem resumeEffect_keeps (l d : Nat) {s : State} (hk : Keeps b0 s) : Keeps b0 (resumeEffect l d s) := by
  unfold resumeEffect
  try dsimp only
  repeat' first
    | with_reducible first
      | intro _ | assumption | apply setLink_keeps | apply advance_keeps | apply pump_keeps | apply replayFlits_keeps
      | apply keeps_ite | simp only [keeps_mk_iff] | refine keeps_snd (by assumption) ?_ | split | dsimp only

theorem countParity_keeps (l d : Nat) {s : State} (lane : Nat) (hk : Keeps b0 s) : Keeps b0 (countParity l d s lane) := by
  unfold countParity
  try dsimp only
  repeat' first
    | with_reducible first
      | intro _ | assumption | apply setLink_keeps | apply failLane_keeps | apply keeps_ite | simp only [keeps_mk_iff]
      | split | dsimp only

theorem takeHeader_keeps (l d h : Nat) {s : State} (hk : Keeps b0 s) : Keeps b0 (takeHeader l d h s) := by
  unfold takeHeader
  try dsimp only
  repeat' first
    | with_reducible first
      | intro _ | assumption | apply setLink_keeps | apply pump_keeps | apply replayFlits_keeps | apply keeps_ite
      | simp only [keeps_mk_iff] | split | dsimp only

theorem deliverFlit_keeps (l d : Nat) (bs : List Byte) {s : State} (hk : Keeps b0 s) : Keeps b0 (deliverFlit l d bs s) :=
    by
  unfold deliverFlit
  try dsimp only
  repeat' first
    | with_reducible first
      | intro _ | assumption | apply sendFlit_keeps | apply setLink_keeps | apply keeps_foldl | apply keeps_foldl_snd
      | apply keeps_ite | simp only [keeps_mk_iff] | refine keeps_snd (by assumption) ?_ | split | dsimp only

theorem nakFlit_keeps (l d : Nat) {s : State} (hk : Keeps b0 s) : Keeps b0 (nakFlit l d s) := by
  unfold nakFlit
  try dsimp only
  repeat' first
    | with_reducible first
      | intro _ | assumption | apply sendFlit_keeps | apply setLink_keeps | apply keeps_ite | simp only [keeps_mk_iff]
      | refine keeps_snd (by assumption) ?_ | split | dsimp only

theorem flitEffect_keeps (l d : Nat) (bs : List Byte) {s : State} (hk : Keeps b0 s) : Keeps b0 (flitEffect l d bs s) := by
  unfold flitEffect
  try dsimp only
  repeat' first
    | with_reducible first
      | intro _ | assumption | apply countParity_keeps | apply nakFlit_keeps | apply takeHeader_keeps
      | apply deliverFlit_keeps | apply keeps_foldl | apply keeps_foldl_snd | apply keeps_ite | simp only [keeps_mk_iff]
      | refine keeps_snd (by assumption) ?_ | split | dsimp only

theorem nguixLaneEffect_keeps (p n : Nat) {s : State} (hk : Keeps b0 s) : Keeps b0 (nguixLaneEffect p n s) := by
  unfold nguixLaneEffect
  try dsimp only
  repeat' first
    | with_reducible first
      | intro _ | assumption | apply setPort_keeps | apply losePort_keeps | apply raiseEvent_keeps
      | apply enterDegraded_keeps | apply keeps_ite | simp only [keeps_mk_iff] | refine keeps_snd (by assumption) ?_
      | split | dsimp only
    | exact rfl

theorem laserFaultEffect_keeps (k : Nat) {s : State} (hk : Keeps b0 s) : Keeps b0 (laserFaultEffect k s) := by
  unfold laserFaultEffect
  try dsimp only
  repeat' first
    | with_reducible first
      | intro _ | assumption | apply losePort_keeps | apply keeps_foldl | apply keeps_foldl_snd | apply keeps_ite
      | simp only [keeps_mk_iff] | split | dsimp only

theorem excludePort_keeps (p : Nat) {s : State} (hk : Keeps b0 s) : Keeps b0 (excludePort p s) := by
  unfold excludePort
  try dsimp only
  repeat' first
    | with_reducible first
      | intro _ | assumption | apply enterDegraded_keeps | apply raiseEvent_keeps | apply setPort_keeps
      | apply keeps_ite | simp only [keeps_mk_iff] | split | dsimp only
    | exact rfl

theorem trainEffect_keeps (p : Nat) (r : PortTrain) {s : State} (hk : Keeps b0 s) : Keeps b0 (trainEffect p r s) := by
  unfold trainEffect
  try dsimp only
  repeat' first
    | with_reducible first
      | intro _ | assumption | apply setPort_keeps | apply send_keeps | apply excludePort_keeps | apply keeps_foldl
      | apply keeps_foldl_snd | apply keeps_ite | simp only [keeps_mk_iff] | refine keeps_snd (by assumption) ?_ | split
      | dsimp only

theorem announceEffect_keeps (p nbr nbrPort : Nat) {s : State} (hk : Keeps b0 s) : Keeps b0 (announceEffect p nbr nbrPort
    s) := by
  unfold announceEffect
  try dsimp only
  repeat' first
    | with_reducible first
      | intro _ | assumption | apply excludePort_keeps | apply keeps_ite | simp only [keeps_mk_iff]
      | refine keeps_snd (by assumption) ?_ | split | dsimp only

theorem sendFrame_keeps (p ftype seq : Nat) (slots : List Byte) {s : State} (hk : Keeps b0 s) : Keeps b0 (sendFrame p
    ftype seq slots s) := by
  unfold sendFrame
  try dsimp only
  repeat' first
    | with_reducible first
      | intro _ | assumption | apply draw_keeps | apply send_keeps | apply setPort_keeps | apply keeps_ite
      | simp only [keeps_mk_iff] | refine keeps_snd (by assumption) ?_ | split | dsimp only

theorem replayFrames_keeps (p : Nat) {s : State} (hk : Keeps b0 s) : Keeps b0 (replayFrames p s) := by
  unfold replayFrames
  try dsimp only
  repeat' first
    | with_reducible first
      | intro _ | assumption | apply sendFrame_keeps | apply keeps_foldl | apply keeps_foldl_snd | apply keeps_ite
      | simp only [keeps_mk_iff] | split | dsimp only

theorem sendPacket_keeps (p : Nat) {s : State} (k : Nat × List Byte) (hk : Keeps b0 s) : Keeps b0 (sendPacket p s k) := by
  unfold sendPacket
  try dsimp only
  repeat' first
    | with_reducible first
      | intro _ | assumption | apply setPort_keeps | apply sendFrame_keeps | apply keeps_foldl | apply keeps_foldl_snd
      | apply keeps_getD | apply keeps_ite | simp only [keeps_mk_iff] | refine keeps_snd (by assumption) ?_ | split
      | dsimp only

theorem pumpFrames_keeps (p : Nat) {s : State} (hk : Keeps b0 s) : Keeps b0 (pumpFrames p s) := by
  unfold pumpFrames
  try dsimp only
  repeat' first
    | with_reducible first
      | intro _ | assumption | apply sendPacket_keeps | apply setPort_keeps | apply keeps_foldl | apply keeps_foldl_snd
      | apply keeps_ite | simp only [keeps_mk_iff] | split | dsimp only

theorem portResumeEffect_keeps (p : Nat) {s : State} (hk : Keeps b0 s) : Keeps b0 (portResumeEffect p s) := by
  unfold portResumeEffect
  try dsimp only
  repeat' first
    | with_reducible first
      | intro _ | assumption | apply pumpFrames_keeps | apply replayFrames_keeps | apply setPort_keeps
      | apply advance_keeps | apply keeps_ite | simp only [keeps_mk_iff] | refine keeps_snd (by assumption) ?_ | split
      | dsimp only

theorem takeFrameHeader_keeps (p h : Nat) {s : State} (hk : Keeps b0 s) : Keeps b0 (takeFrameHeader p h s) := by
  unfold takeFrameHeader
  try dsimp only
  repeat' first
    | with_reducible first
      | intro _ | assumption | apply setPort_keeps | apply pumpFrames_keeps | apply replayFrames_keeps
      | apply keeps_getD | apply keeps_ite | simp only [keeps_mk_iff] | split | dsimp only

theorem nakFrame_keeps (p : Nat) {s : State} (hk : Keeps b0 s) : Keeps b0 (nakFrame p s) := by
  unfold nakFrame
  try dsimp only
  repeat' first
    | with_reducible first
      | intro _ | assumption | apply sendFrame_keeps | apply setPort_keeps | apply keeps_ite | simp only [keeps_mk_iff]
      | refine keeps_snd (by assumption) ?_ | split | dsimp only

theorem badCodewords_keeps (p : Nat) {s : State} (hk : Keeps b0 s) : Keeps b0 (badCodewords p s) := by
  unfold badCodewords
  try dsimp only
  repeat' first
    | with_reducible first
      | intro _ | assumption | apply draw_keeps | apply bump_keeps | apply keeps_ite | simp only [keeps_mk_iff]
      | refine keeps_snd (by assumption) ?_ | split | dsimp only

theorem frameEffect_keeps (p : Nat) (bs : List Byte) {s : State} (hk : Keeps b0 s) : Keeps b0 (frameEffect p bs s) := by
  unfold frameEffect
  try dsimp only
  repeat' first
    | with_reducible first
      | intro _ | assumption | apply nakFrame_keeps | apply badCodewords_keeps | apply takeFrameHeader_keeps
      | apply sendFrame_keeps | apply setPort_keeps | apply keeps_ite | simp only [keeps_mk_iff]
      | refine keeps_snd (by assumption) ?_ | split | dsimp only

theorem remoteRefuse_keeps (m : RemoteMsg) {s : State} (hk : Keeps b0 s) : Keeps b0 (remoteRefuse m s) := by
  unfold remoteRefuse
  try dsimp only
  repeat' first
    | with_reducible first
      | intro _ | assumption | apply raiseEvent_keeps | apply sendReply_keeps | apply keeps_ite
      | simp only [keeps_mk_iff] | split | dsimp only
    | exact rfl

theorem remotePerformRead_keeps (m : RemoteMsg) {s : State} (hk : Keeps b0 s) : Keeps b0 (remotePerformRead m s) := by
  unfold remotePerformRead
  try dsimp only
  repeat' first
    | with_reducible first
      | intro _ | assumption | apply remoteData_keeps | apply sendReply_keeps | apply remoteRefuse_keeps
      | apply keeps_ite | simp only [keeps_mk_iff] | refine keeps_snd (by assumption) ?_ | split | dsimp only

theorem remotePerform_keeps (m : RemoteMsg) {s : State} (hk : Keeps b0 s) : Keeps b0 (remotePerform m s) := by
  unfold remotePerform
  try dsimp only
  repeat' first
    | with_reducible first
      | intro _ | assumption | apply remoteRefuse_keeps | apply remotePerformRead_keeps | apply remotePerformWrite_keeps
      | apply keeps_ite | simp only [keeps_mk_iff] | split | dsimp only

theorem setSrc_keeps (src : Nat) (x : Source) {s : State} (hk : Keeps b0 s) : Keeps b0 (setSrc src x s) := by
  unfold setSrc
  try dsimp only
  repeat' first
    | with_reducible first
      | intro _ | assumption | apply keeps_ite | simp only [keeps_mk_iff] | split | dsimp only

theorem drainSource_keeps (src n : Nat) {s : State} (hk : Keeps b0 s) : Keeps b0 (drainSource src n s) := by
  induction n generalizing s with
  | zero => exact hk
  | succ n ih =>
    unfold drainSource
    dsimp only
    split
    · exact hk
    · split
      · exact ih (remotePerform_keeps _ (setSrc_keeps _ _ hk))
      · exact setSrc_keeps _ _ hk

theorem takeRequest_keeps (m : RemoteMsg) {s : State} (hk : Keeps b0 s) : Keeps b0 (takeRequest m s) := by
  unfold takeRequest
  try dsimp only
  repeat' first
    | with_reducible first
      | intro _ | assumption | apply setSrc_keeps | apply remotePerform_keeps | apply drainSource_keeps
      | apply keeps_getD | apply keeps_ite | simp only [keeps_mk_iff] | split | dsimp only

theorem requestRow_keeps (op : Nat) (m : RemoteMsg) {s : State} (hk : Keeps b0 s) : Keeps b0 (requestRow op m s) := by
  unfold requestRow
  try dsimp only
  repeat' first
    | with_reducible first
      | intro _ | assumption | apply sendReply_keeps | apply takeRequest_keeps | apply send_keeps | apply keeps_ite
      | simp only [keeps_mk_iff] | refine keeps_snd (by assumption) ?_ | split | dsimp only

theorem gapEffect_keeps (src : Nat) {s : State} (hk : Keeps b0 s) : Keeps b0 (gapEffect src s) := by
  unfold gapEffect
  try dsimp only
  repeat' first
    | with_reducible first
      | intro _ | assumption | apply advance_keeps | apply setSrc_keeps | apply drainSource_keeps | apply keeps_foldl
      | apply keeps_foldl_snd | apply keeps_ite | simp only [keeps_mk_iff] | refine keeps_snd (by assumption) ?_ | split
      | dsimp only

theorem settleRemote_keeps (o : Outstanding) (err : Bool) (data : List Byte) {s : State} (hk : Keeps b0 s) : Keeps b0
    (settleRemote o err data s) := by
  unfold settleRemote
  try dsimp only
  repeat' first
    | with_reducible first
      | intro _ | assumption | apply keeps_ite | simp only [keeps_mk_iff] | split | dsimp only

theorem hartArrive_keeps (h src tag rd off n : Nat) (signed : Bool) (data : List Byte) {s : State} (hk : Keeps b0 s) :
    Keeps b0 (hartArrive h src tag rd off n signed data s) := by
  unfold hartArrive
  try dsimp only
  repeat' first
    | with_reducible first
      | intro _ | assumption | apply wrX_keeps | apply modHart_keeps | apply keeps_ite | simp only [keeps_mk_iff]
      | refine keeps_snd (by assumption) ?_ | split | dsimp only

theorem hartSplitFails_keeps (h src tag : Nat) {s : State} (hk : Keeps b0 s) : Keeps b0 (hartSplitFails h src tag s) := by
  unfold hartSplitFails
  try dsimp only
  repeat' first
    | with_reducible first
      | intro _ | assumption | apply modHart_keeps | apply keeps_ite | simp only [keeps_mk_iff]
      | refine keeps_snd (by assumption) ?_ | split | dsimp only

theorem rejectWrite_keeps (d : Nat) {s : State} (hk : Keeps b0 s) : Keeps b0 (rejectWrite d s) := by
  unfold rejectWrite
  try dsimp only
  repeat' first
    | with_reducible first
      | intro _ | assumption | apply setQueue_keeps | apply raiseEvent_keeps | apply keeps_foldl | apply keeps_foldl_snd
      | apply keeps_ite | simp only [keeps_mk_iff] | split | dsimp only
    | exact rfl

theorem readDataEffect_keeps (m : RemoteMsg) {s : State} (hk : Keeps b0 s) : Keeps b0 (readDataEffect m s) := by
  unfold readDataEffect
  try dsimp only
  repeat' first
    | with_reducible first
      | intro _ | assumption | apply settleRemote_keeps | apply hartArrive_keeps | apply drayArrive_keeps
      | apply keeps_ite | simp only [keeps_mk_iff] | refine keeps_snd (by assumption) ?_ | split | dsimp only

theorem writeAckEffect_keeps (m : RemoteMsg) {s : State} (hk : Keeps b0 s) : Keeps b0 (writeAckEffect m s) := by
  unfold writeAckEffect
  try dsimp only
  repeat' first
    | with_reducible first
      | intro _ | assumption | apply settleRemote_keeps | apply keeps_ite | simp only [keeps_mk_iff]
      | refine keeps_snd (by assumption) ?_ | split | dsimp only

theorem failRemote_keeps (o : Outstanding) {s : State} (hk : Keeps b0 s) : Keeps b0 (failRemote o s) := by
  unfold failRemote
  try dsimp only
  repeat' first
    | with_reducible first
      | intro _ | assumption | apply settleRemote_keeps | apply raiseTrap_keeps | apply hartSplitFails_keeps
      | apply drayArrive_keeps | apply rejectWrite_keeps | apply keeps_ite | simp only [keeps_mk_iff]
      | refine keeps_snd (by assumption) ?_ | split | dsimp only

theorem remoteErrorEffect_keeps (m : RemoteMsg) {s : State} (hk : Keeps b0 s) : Keeps b0 (remoteErrorEffect m s) := by
  unfold remoteErrorEffect
  try dsimp only
  repeat' first
    | with_reducible first
      | intro _ | assumption | apply failRemote_keeps | apply keeps_ite | simp only [keeps_mk_iff]
      | refine keeps_snd (by assumption) ?_ | split | dsimp only

theorem responseRow_keeps (op : Nat) (m : RemoteMsg) (run : RemoteMsg → State → State) {s : State} (h0 : ∀ m s, Keeps b0 s
    → Keeps b0 (run m s)) (hk : Keeps b0 s) : Keeps b0 (responseRow op m run s) := by
  unfold responseRow
  try dsimp only
  repeat' first
    | with_reducible first
      | intro _ | assumption | apply h0 | apply send_keeps | apply keeps_ite | simp only [keeps_mk_iff]
      | refine keeps_snd (by assumption) ?_ | split | dsimp only

theorem timeoutEffect_keeps (dst tag : Nat) {s : State} (hk : Keeps b0 s) : Keeps b0 (timeoutEffect dst tag s) := by
  unfold timeoutEffect
  try dsimp only
  repeat' first
    | with_reducible first
      | intro _ | assumption | apply failRemote_keeps | apply advance_keeps | apply keeps_ite | simp only [keeps_mk_iff]
      | refine keeps_snd (by assumption) ?_ | split | dsimp only

end Sys2Proof.Machine
end

