-- ==== Sys2Proof/Laws/KeepsCaboose.lean ====
section
/-! SUPPORT. What Laws/Keeps.lean says, of bring-up and the mailbox commands. -/

set_option maxRecDepth 20000
set_option linter.unusedTactic false
set_option linter.unreachableTactic false
set_option linter.unusedVariables false
set_option linter.unusedSimpArgs false

namespace Sys2Proof.Machine

variable {b0 : State}

theorem cmdVersionHello_keeps (ch seq : Nat) (w : List Word) {s : State} (hk : Keeps b0 s) : Keeps b0 (cmdVersionHello ch
    seq w s).2 := by
  unfold cmdVersionHello
  try dsimp only
  repeat' first
    | with_reducible first
      | intro _ | assumption | apply setChan_keeps | apply keeps_getD | apply keeps_ite | simp only [keeps_mk_iff]
      | refine keeps_snd (by assumption) ?_ | split | dsimp only

theorem setDom_keeps (a : Nat) (d : Dom) {s : State} (hk : Keeps b0 s) : Keeps b0 (setDom a d s) := by
  unfold setDom
  try dsimp only
  repeat' first
    | with_reducible first
      | intro _ | assumption | apply keeps_ite | simp only [keeps_mk_iff] | split | dsimp only

theorem raiseFloor_keeps {s : State} (hk : Keeps b0 s) : Keeps b0 (raiseFloor s) := by
  unfold raiseFloor
  try dsimp only
  repeat' first
    | with_reducible first
      | intro _ | assumption | apply setDom_keeps | apply keeps_foldl | apply keeps_foldl_snd | apply keeps_ite
      | simp only [keeps_mk_iff] | split | dsimp only

theorem cmdJobOpen_keeps (ch seq : Nat) (w : List Word) {s : State} (hk : Keeps b0 s) : Keeps b0 (cmdJobOpen ch seq w s).2
    := by
  unfold cmdJobOpen
  try dsimp only
  repeat' first
    | with_reducible first
      | intro _ | assumption | apply checked_keeps | apply setPart_keeps | apply issue_keeps | apply raiseFloor_keeps
      | apply setSeqs_keeps | apply keeps_ite | simp only [keeps_mk_iff] | refine keeps_snd (by assumption) ?_ | split
      | dsimp only

theorem cmdJobClose_keeps (ch seq : Nat) (w : List Word) {s : State} (hk : Keeps b0 s) : Keeps b0 (cmdJobClose ch seq w
    s).2 := by
  unfold cmdJobClose
  try dsimp only
  repeat' first
    | with_reducible first
      | intro _ | assumption | apply setJob_keeps | apply flushSession_keeps | apply closeJob_keeps | apply keeps_ite
      | simp only [keeps_mk_iff] | refine keeps_snd (by assumption) ?_ | split | dsimp only

theorem cmdSealModel_keeps (ch seq : Nat) (w : List Word) {s : State} (hk : Keeps b0 s) : Keeps b0 (cmdSealModel ch seq w
    s).2 := by
  unfold cmdSealModel
  try dsimp only
  repeat' first
    | with_reducible first
      | intro _ | assumption | apply checked_keeps | apply setPart_keeps | apply partReset_keeps | apply cohRead_keeps
      | apply keeps_ite | simp only [keeps_mk_iff] | refine keeps_snd (by assumption) ?_ | split | dsimp only

theorem setClamps_keeps (ch seq : Nat) (cs : List (Word × Word)) {s : State} (hk : Keeps b0 s) : Keeps b0 (setClamps ch
    seq cs s) := by
  unfold setClamps
  try dsimp only
  repeat' first
    | with_reducible first
      | intro _ | assumption | apply setChan_keeps | apply keeps_ite | simp only [keeps_mk_iff] | split | dsimp only

theorem cmdClampReportRead_keeps (ch seq : Nat) (w : List Word) {s : State} (hk : Keeps b0 s) : Keeps b0
    (cmdClampReportRead ch seq w s).2 := by
  unfold cmdClampReportRead
  try dsimp only
  repeat' first
    | with_reducible first
      | intro _ | assumption | apply keeps_ite | simp only [keeps_mk_iff] | split | dsimp only

theorem cmdPowerSet_keeps (ch seq : Nat) (w : List Word) {s : State} (hk : Keeps b0 s) : Keeps b0 (cmdPowerSet ch seq w
    s).2 := by
  unfold cmdPowerSet
  try dsimp only
  repeat' first
    | with_reducible first
      | intro _ | assumption | apply setClamps_keeps | apply keeps_ite | simp only [keeps_mk_iff] | split | dsimp only

theorem tamper_keeps (hd source : Nat) {s : State} (hk : Keeps b0 s) : Keeps b0 (tamper hd source s) := by
  have h1 : Keeps b0 (raiseEvent evTamper hd source (wipeVaults s)) := raiseEvent_keeps _ _ _ (wipeVaults_keeps hk) rfl
  unfold tamper
  dsimp only
  simp only [keeps_mk_iff]
  apply enterSafe_keeps
  split
  · exact h1
  · exact keeps_lc h1 fun i => ⟨⟨i.5.1, i.5.2, i.5.3, i.5.4, i.5.5, i.5.6⟩, ⟨rfl, rfl, List.prefix_rfl, Nat.le_refl _, Nat.le_refl _,
      Nat.le_refl _, Nat.le_refl _, Nat.le_refl _, Nat.le_refl _, id, id, id⟩⟩

theorem tamperEffect_keeps (hd source : Nat) {s : State} (hk : Keeps b0 s) : Keeps b0 (tamperEffect hd source s) := by
  unfold tamperEffect
  try dsimp only
  repeat' first
    | with_reducible first
      | intro _ | assumption | apply tamper_keeps | apply keeps_ite | simp only [keeps_mk_iff] | split | dsimp only

theorem rebuildMap_keeps {s : State} (hk : Keeps b0 s) : Keeps b0 (rebuildMap s) := by
  unfold rebuildMap
  try dsimp only
  repeat' first
    | with_reducible first
      | intro _ | assumption | apply remapTile_keeps | apply keeps_foldl | apply keeps_foldl_snd | apply keeps_ite
      | simp only [keeps_mk_iff] | split | dsimp only

theorem markStep_keeps (k : Nat) (wake : Bool) {s : State} (hk : Keeps b0 s) : Keeps b0 (markStep k wake s) := by
  unfold markStep
  try dsimp only
  repeat' first
    | with_reducible first
      | intro _ | assumption | apply draw_keeps | apply keeps_ite | simp only [keeps_mk_iff]
      | refine keeps_snd (by assumption) ?_ | split | dsimp only

/-- The slot that boots is 0 or 1, and its svn is not below the fused minimum. -/
theorem bootSlot_spec {s : State} {ty k : Nat} (h : bootSlot s ty = some k) :
    k ≤ 1 ∧ minSvn s.lc ty ≤ (tblGet {} s.lc.slots (2 * ty + k)).svn := by
  unfold bootSlot verifies at h
  dsimp only at h
  split at h
  · rename_i h1
    cases h
    simp only [Bool.and_eq_true, decide_eq_true_eq] at h1
    exact ⟨Nat.le_refl _, h1.1.2⟩
  · split at h
    · rename_i h1
      cases h
      simp only [Bool.and_eq_true, decide_eq_true_eq] at h1
      exact ⟨Nat.zero_le _, h1.2⟩
    · cases h

theorem stepRoot_keeps {s : State} (hk : Keeps b0 s) : Keeps b0 (stepRoot s) := by
  unfold stepRoot
  split
  · exact enterSafe_keeps _ _ hk
  · split
    · exact enterSafe_keeps _ _ hk
    · rename_i k h
      have hb := bootSlot_spec h
      apply setVault_keeps
      apply setVault_keeps
      refine keeps_lc hk fun i => ⟨⟨i.5.1, i.5.2, i.5.3, ⟨hb.1, i.5.4.2⟩, ?_, i.5.6⟩, ⟨rfl, rfl, List.prefix_rfl, Nat.le_refl _,
        Nat.le_refl _, Nat.le_refl _, Nat.le_refl _, Nat.le_refl _, Nat.le_refl _, id, id, id⟩⟩
      simpa [runningSvn, minSvn] using hb.2

theorem failTile_keeps (cause : Nat) {s : State} (t : Nat) (hk : Keeps b0 s) : Keeps b0 (failTile cause s t) := by
  unfold failTile
  try dsimp only
  repeat' first
    | with_reducible first
      | intro _ | assumption | apply raiseEvent_keeps | apply recordEntry_keeps | apply keeps_ite
      | simp only [keeps_mk_iff] | split | dsimp only
    | exact rfl

theorem stepLinks_keeps (t : SelfTest) {s : State} (hk : Keeps b0 s) : Keeps b0 (stepLinks t s) := by
  unfold stepLinks
  try dsimp only
  repeat' first
    | with_reducible first
      | intro _ | assumption | apply raiseEvent_keeps | apply enterSafe_keeps | apply keeps_foldl
      | apply keeps_foldl_snd | apply keeps_ite | simp only [keeps_mk_iff] | refine keeps_snd (by assumption) ?_ | split
      | dsimp only
    | exact rfl

theorem stepHbm_keeps {s : State} (hk : Keeps b0 s) : Keeps b0 (stepHbm s) := by
  unfold stepHbm
  try dsimp only
  repeat' first
    | with_reducible first
      | intro _ | assumption | apply enterSafe_keeps | apply keeps_ite | simp only [keeps_mk_iff]
      | refine keeps_snd (by assumption) ?_ | split | dsimp only

theorem stepClocks_keeps (t : SelfTest) {s : State} (hk : Keeps b0 s) : Keeps b0 (stepClocks t s) := by
  unfold stepClocks
  try dsimp only
  repeat' first
    | with_reducible first
      | intro _ | assumption | apply keeps_getD | apply keeps_ite | simp only [keeps_mk_iff]
      | refine keeps_snd (by assumption) ?_ | split | dsimp only

theorem reportTiles_keeps {s : State} (hk : Keeps b0 s) : Keeps b0 (reportTiles s) := by
  unfold reportTiles
  try dsimp only
  repeat' first
    | with_reducible first
      | intro _ | assumption | apply raiseEvent_keeps | apply keeps_foldl | simp only [keeps_mk_iff] | dsimp only
    | exact rfl

theorem stepMap_keeps {s : State} (hk : Keeps b0 s) : Keeps b0 (stepMap s) := by
  unfold stepMap
  try dsimp only
  repeat' first
    | with_reducible first
      | intro _ | assumption | apply enterSafe_keeps | apply reportTiles_keeps | apply rebuildMap_keeps | apply keeps_ite
      | simp only [keeps_mk_iff] | refine keeps_snd (by assumption) ?_ | split | dsimp only

theorem stepRelease_keeps {s : State} (hk : Keeps b0 s) : Keeps b0 (stepRelease s) := by
  unfold stepRelease
  split
  · exact enterSafe_keeps _ _ hk
  · rename_i k h
    have hb := bootSlot_spec h
    refine keeps_mk (s := { s with lc := { s.lc with runProc := k } }) (keeps_lc hk fun i => ⟨⟨i.5.1, i.5.2, i.5.3,
      ⟨i.5.4.1, hb.1⟩, i.5.5, ?_⟩, ⟨rfl, rfl, List.prefix_rfl, Nat.le_refl _, Nat.le_refl _, Nat.le_refl _, Nat.le_refl _,
      Nat.le_refl _, Nat.le_refl _, id, id, id⟩⟩)
    simpa [runningSvn, minSvn] using hb.2

theorem resetDoms_keeps {s : State} (hk : Keeps b0 s) : Keeps b0 (resetDoms s) := by
  unfold resetDoms
  try dsimp only
  repeat' first
    | with_reducible first
      | intro _ | assumption | apply keeps_ite | simp only [keeps_mk_iff] | split | dsimp only

theorem stepAction_keeps (k : Nat) (t : SelfTest) (full : Bool) {s : State} (hk : Keeps b0 s) : Keeps b0 (stepAction k t
    full s) := by
  unfold stepAction
  try dsimp only
  repeat' first
    | with_reducible first
      | intro _ | assumption | apply tamper_keeps | apply resetDoms_keeps | apply stepRoot_keeps | apply failTile_keeps
      | apply applyRepairs_keeps | apply stepLinks_keeps | apply stepHbm_keeps | apply setStack_keeps
      | apply stepClocks_keeps | apply stepMap_keeps | apply stepRelease_keeps | apply keeps_foldl
      | apply keeps_foldl_snd | apply keeps_ite | simp only [keeps_mk_iff] | refine keeps_snd (by assumption) ?_ | split
      | dsimp only

theorem failStep_keeps (c u : Nat) {s : State} (hk : Keeps b0 s) : Keeps b0 (failStep c u s) := by
  unfold failStep
  try dsimp only
  repeat' first
    | with_reducible first
      | intro _ | assumption | apply tamper_keeps | apply enterSafe_keeps | apply keeps_ite | simp only [keeps_mk_iff]
      | split | dsimp only

theorem runSteps_keeps (t : SelfTest) (full wake : Bool) (l : List Nat) {s : State} (hk : Keeps b0 s) : Keeps b0 (runSteps t full wake l s) := by
  induction l generalizing s with
  | nil => unfold runSteps; simp only [keeps_mk_iff]; exact hk
  | cons k l ih =>
    unfold runSteps
    dsimp only
    repeat' first | (intro _) | with_reducible assumption | with_reducible apply ih | with_reducible apply markStep_keeps | with_reducible apply stepAction_keeps | with_reducible apply failStep_keeps | with_reducible apply keeps_ite | simp only [keeps_mk_iff] | split

theorem passBringUp_keeps (us : Nat) {s : State} (hk : Keeps b0 s) : Keeps b0 (passBringUp us s) := by
  unfold passBringUp
  try dsimp only
  repeat' first
    | with_reducible first
      | intro _ | assumption | apply draw_keeps | apply advance_keeps | apply keeps_ite | simp only [keeps_mk_iff]
      | refine keeps_snd (by assumption) ?_ | split | dsimp only

theorem powerOn_keeps (t : SelfTest) (from_ : Nat) (wake : Bool) {s : State} (hk : Keeps b0 s) : Keeps b0 (powerOn t from_
    wake s) := by
  unfold powerOn
  try dsimp only
  repeat' first
    | with_reducible first
      | intro _ | assumption | apply passBringUp_keeps | apply runSteps_keeps | apply keeps_ite
      | simp only [keeps_mk_iff] | split | dsimp only

theorem clearFlags_keeps {s : State} (hk : Keeps b0 s) : Keeps b0 (clearFlags s) := by
  unfold clearFlags
  try dsimp only
  repeat' first
    | with_reducible first
      | intro _ | assumption | apply keeps_ite | simp only [keeps_mk_iff] | split | dsimp only

theorem powerRestart_keeps (t : SelfTest) {s : State} (hk : Keeps b0 s) : Keeps b0 (powerRestart t s) := by
  unfold powerRestart
  try dsimp only
  repeat' first
    | with_reducible first
      | intro _ | assumption | apply powerOn_keeps | apply clearFlags_keeps | apply keeps_ite | simp only [keeps_mk_iff]
      | split | dsimp only

theorem readRecord_keeps {s : State} (hk : Keeps b0 s) : Keeps b0 (readRecord s) := by
  unfold readRecord
  try dsimp only
  repeat' first
    | with_reducible first
      | intro _ | assumption | apply setDom_keeps | apply keeps_foldl | apply keeps_foldl_snd | apply keeps_ite
      | simp only [keeps_mk_iff] | split | dsimp only

theorem wakeIslands_keeps {s : State} (hk : Keeps b0 s) : Keeps b0 (wakeIslands s) := by
  have h1 : Keeps b0 { s with events := [] } := keeps_events hk fun _ => rfl
  have h2 := keeps_lc (l := { s.lc with tamper := false, tamperCause := 0 }) h1
    fun i => ⟨⟨i.5.1, i.5.2, i.5.3, i.5.4, i.5.5, i.5.6⟩, ⟨rfl, rfl, List.prefix_rfl, Nat.le_refl _, Nat.le_refl _, Nat.le_refl _,
      Nat.le_refl _, Nat.le_refl _, Nat.le_refl _, id, id, id⟩⟩
  have h3 := keeps_record (r := { s.record with buffered := [] }) h2 List.prefix_rfl
  exact wipeVaults_keeps (readRecord_keeps (keeps_mk h3))

theorem wakeEffect_keeps (t : SelfTest) {s : State} (hk : Keeps b0 s) : Keeps b0 (wakeEffect t s) := by
  unfold wakeEffect
  try dsimp only
  repeat' first
    | with_reducible first
      | intro _ | assumption | apply draw_keeps | apply wakeIslands_keeps | apply powerOn_keeps | apply keeps_ite
      | simp only [keeps_mk_iff] | refine keeps_snd (by assumption) ?_ | split | dsimp only

theorem resetChans_keeps {s : State} (hk : Keeps b0 s) : Keeps b0 (resetChans s) := by
  unfold resetChans
  try dsimp only
  repeat' first
    | with_reducible first
      | intro _ | assumption | apply finishChans_keeps | apply keeps_ite | simp only [keeps_mk_iff] | split | dsimp only

theorem resetLinks_keeps {s : State} (hk : Keeps b0 s) : Keeps b0 (resetLinks s) := by
  unfold resetLinks
  try dsimp only
  repeat' first
    | with_reducible first
      | intro _ | assumption | apply keeps_ite | simp only [keeps_mk_iff] | split | dsimp only

theorem closeSessions_keeps {s : State} (hk : Keeps b0 s) : Keeps b0 (closeSessions s) := by
  unfold closeSessions
  try dsimp only
  repeat' first
    | with_reducible first
      | intro _ | assumption | apply keeps_ite | simp only [keeps_mk_iff] | split | dsimp only

theorem packageDown_keeps {s : State} (hk : Keeps b0 s) : Keeps b0 (packageDown s) := by
  unfold packageDown
  try dsimp only
  repeat' first
    | with_reducible first
      | intro _ | assumption | apply resetChans_keeps | apply closeAndSign_keeps | apply haltJobs_keeps
      | apply resetDoms_keeps | apply resetHarts_keeps | apply resetTiles_keeps | apply clearParts_keeps
      | apply tierReset_keeps | apply settleRelocations_keeps | apply coherenceReset_keeps | apply closeSessions_keeps
      | apply resetLinks_keeps | apply keeps_foldl | apply keeps_foldl_snd | apply keeps_ite | simp only [keeps_mk_iff]
      | split | dsimp only

theorem packageReset_keeps (t : SelfTest) {s : State} (hk : Keeps b0 s) : Keeps b0 (packageReset t s) := by
  unfold packageReset
  try dsimp only
  repeat' first
    | with_reducible first
      | intro _ | assumption | apply packageDown_keeps | apply enterSafe_keeps | apply passBringUp_keeps
      | apply runSteps_keeps | apply keeps_ite | simp only [keeps_mk_iff] | refine keeps_snd (by assumption) ?_ | split
      | dsimp only

theorem resetPackage_keeps (t : SelfTest) {s : State} {u : State} (e : resetPackage t s = some u) (hk : Keeps b0 s) :
    Keeps b0 u := by
  unfold resetPackage at e
  try dsimp only at e
  repeat' first | contradiction | (cases e) | split at e
  all_goals
    repeat' first
      | with_reducible first
        | intro _ | assumption | apply packageReset_keeps | apply powerRestart_keeps | apply powerOn_keeps
        | apply keeps_ite | simp only [keeps_mk_iff] | refine keeps_snd (by assumption) ?_ | split | dsimp only

theorem powerRecords_keeps {s : State} (hk : Keeps b0 s) : Keeps b0 (powerRecords s) := by
  unfold powerRecords
  try dsimp only
  repeat' first
    | with_reducible first
      | intro _ | assumption | apply setQueue_keeps | apply performRec_keeps | apply keeps_foldl | apply keeps_foldl_snd
      | apply keeps_ite | simp only [keeps_mk_iff] | split | dsimp only

theorem powerDown_keeps {s : State} (hk : Keeps b0 s) : Keeps b0 (powerDown s) := by
  unfold powerDown
  try dsimp only
  repeat' first
    | with_reducible first
      | intro _ | assumption | apply powerRecords_keeps | apply haltJobs_keeps | apply islandsOnly_keeps
      | apply finishChans_keeps | apply closeAndSign_keeps | apply keeps_ite | simp only [keeps_mk_iff] | split
      | dsimp only

theorem supplyDown_keeps {s : State} (hk : Keeps b0 s) : Keeps b0 (supplyDown s) := by
  unfold supplyDown
  try dsimp only
  repeat' first
    | with_reducible first
      | intro _ | assumption | apply losePower_keeps | apply keeps_ite | simp only [keeps_mk_iff] | split | dsimp only

theorem supplyFaultEffect_keeps (mv : Nat) {s : State} (hk : Keeps b0 s) : Keeps b0 (supplyFaultEffect mv s) := by
  unfold supplyFaultEffect
  try dsimp only
  repeat' first
    | with_reducible first
      | intro _ | assumption | apply supplyDown_keeps | apply keeps_ite | simp only [keeps_mk_iff]
      | refine keeps_snd (by assumption) ?_ | split | dsimp only

theorem supplyRecoveryEffect_keeps (t : SelfTest) {s : State} (hk : Keeps b0 s) : Keeps b0 (supplyRecoveryEffect t s) :=
    by
  unfold supplyRecoveryEffect
  try dsimp only
  repeat' first
    | with_reducible first
      | intro _ | assumption | apply draw_keeps | apply powerRestart_keeps | apply keeps_ite | simp only [keeps_mk_iff]
      | refine keeps_snd (by assumption) ?_ | split | dsimp only

theorem islandLossEffect_keeps (mv : Nat) {s : State} (hk : Keeps b0 s) : Keeps b0 (islandLossEffect mv s) := by
  unfold islandLossEffect
  split
  · have h2 := setVault_keeps 1 {} (setVault_keeps 0 {} (losePower_keeps hk))
    dsimp only
    generalize setVault 1 {} (setVault 0 {} (losePower s)) = u at h2
    have h3 : Keeps b0 { u with events := [] } := keeps_events h2 fun _ => rfl
    exact keeps_mk (keeps_record (r := { u.record with buffered := [] }) h3 List.prefix_rfl)
  · exact hk

theorem supplyWarnEffect_keeps (mv : Nat) {s : State} (hk : Keeps b0 s) : Keeps b0 (supplyWarnEffect mv s) := by
  unfold supplyWarnEffect
  try dsimp only
  repeat' first
    | with_reducible first
      | intro _ | assumption | apply raiseEvent_keeps | apply keeps_ite | simp only [keeps_mk_iff] | split | dsimp only
    | exact rfl

theorem supplyRearmEffect_keeps (mv : Nat) {s : State} (hk : Keeps b0 s) : Keeps b0 (supplyRearmEffect mv s) := by
  unfold supplyRearmEffect
  try dsimp only
  repeat' first
    | with_reducible first
      | intro _ | assumption | apply keeps_ite | simp only [keeps_mk_iff] | split | dsimp only

theorem pwrFallEffect_keeps {s : State} (hk : Keeps b0 s) : Keeps b0 (pwrFallEffect s) := by
  unfold pwrFallEffect
  try dsimp only
  repeat' first
    | with_reducible first
      | intro _ | assumption | apply supplyDown_keeps | apply keeps_ite | simp only [keeps_mk_iff] | split | dsimp only

theorem pwrRiseEffect_keeps (t : SelfTest) {s : State} (hk : Keeps b0 s) : Keeps b0 (pwrRiseEffect t s) := by
  unfold pwrRiseEffect
  try dsimp only
  repeat' first
    | with_reducible first
      | intro _ | assumption | apply passBringUp_keeps | apply runSteps_keeps | apply powerRestart_keeps
      | apply keeps_ite | simp only [keeps_mk_iff] | refine keeps_snd (by assumption) ?_ | split | dsimp only

theorem resetAssertEffect_keeps {s : State} (hk : Keeps b0 s) : Keeps b0 (resetAssertEffect s) := by
  unfold resetAssertEffect
  try dsimp only
  repeat' first
    | with_reducible first
      | intro _ | assumption | apply packageDown_keeps | apply enterSafe_keeps | apply keeps_ite
      | simp only [keeps_mk_iff] | refine keeps_snd (by assumption) ?_ | split | dsimp only

theorem resetReleaseEffect_keeps (t : SelfTest) {s : State} (hk : Keeps b0 s) : Keeps b0 (resetReleaseEffect t s) := by
  unfold resetReleaseEffect
  try dsimp only
  repeat' first
    | with_reducible first
      | intro _ | assumption | apply passBringUp_keeps | apply runSteps_keeps | apply keeps_getD
      | refine resetPackage_keeps _ (by assumption) ?_ | apply keeps_ite | simp only [keeps_mk_iff]
      | refine keeps_snd (by assumption) ?_ | split | dsimp only

theorem takeChans_keeps (before : Tbl Chan) {s : State} (hk : Keeps b0 s) : Keeps b0 (takeChans before s) := by
  unfold takeChans
  try dsimp only
  repeat' first
    | with_reducible first
      | intro _ | assumption | apply keeps_ite | simp only [keeps_mk_iff] | split | dsimp only

theorem takeoverEffect_keeps (t : SelfTest) {s : State} (hk : Keeps b0 s) : Keeps b0 (takeoverEffect t s) := by
  unfold takeoverEffect
  try dsimp only
  repeat' first
    | with_reducible first
      | intro _ | assumption | apply takeChans_keeps | apply packageReset_keeps | apply keeps_getD
      | refine resetPackage_keeps _ (by assumption) ?_ | apply keeps_ite | simp only [keeps_mk_iff] | split | dsimp only

theorem overrunEffect_keeps (k : Nat) {s : State} (hk : Keeps b0 s) : Keeps b0 (overrunEffect k s) := by
  unfold overrunEffect
  try dsimp only
  repeat' first
    | with_reducible first
      | intro _ | assumption | apply enterSafe_keeps | apply keeps_ite | simp only [keeps_mk_iff]
      | refine keeps_snd (by assumption) ?_ | split | dsimp only

theorem recordCommitEffect_keeps {s : State} (hk : Keeps b0 s) : Keeps b0 (recordCommitEffect s) := by
  unfold recordCommitEffect
  split
  · exact keeps_record hk (List.prefix_append _ _)
  · exact hk

theorem tripEffect_keeps (die : Nat) {s : State} (hk : Keeps b0 s) : Keeps b0 (tripEffect die s) := by
  unfold tripEffect
  try dsimp only
  repeat' first
    | with_reducible first
      | intro _ | assumption | apply bump_keeps | apply enterSafe_keeps | apply keeps_ite | simp only [keeps_mk_iff]
      | refine keeps_snd (by assumption) ?_ | split | dsimp only

theorem wipeThrough_keeps {s : State} (hk : Keeps b0 s) : Keeps b0 (wipeThrough s) := by
  unfold wipeThrough
  try dsimp only
  repeat' first
    | with_reducible first
      | intro _ | assumption | apply advance_keeps | apply wipeVaults_keeps | apply setVault_keeps | apply keeps_ite
      | simp only [keeps_mk_iff] | split | dsimp only

theorem fuseState_keeps (target : Nat) {s : State} (hk : Keeps b0 s) (ht : transition s.lc.state target = true)
    (hr : target = 4 → s.lc.rmaEntries < 8) : Keeps b0 (fuseState target s) := by
  have hto : s.lc.state ≠ 5 ∧ 2 ≤ target ∧ target ≤ 5 := by
    simp only [transition, Bool.or_eq_true, Bool.and_eq_true, beq_iff_eq, decide_eq_true_eq] at ht
    omega
  unfold fuseState
  refine keeps_lc hk fun i => ⟨⟨⟨by simp; omega, hto.2.2⟩, ?_, i.5.3, i.5.4, i.5.5, i.5.6⟩, ⟨rfl, rfl, List.prefix_rfl,
    Nat.le_succ _, ?_, Nat.le_refl _, Nat.le_refl _, Nat.le_refl _, Nat.le_refl _, ?_, fun h => absurd h hto.1, ?_⟩⟩
  · have := i.5.2
    dsimp only
    split
    · have := hr ‹_›; omega
    · exact this
  · dsimp only
    split <;> omega
  · intro h; simp [h]
  · intro h
    have : target = 1 := h
    omega

/-- Closing the batch and wiping the vaults touch no fuse. -/
theorem wipeThrough_lc {s : State} : (wipeThrough (closeAndSign s)).lc = s.lc := by
  have h1 : ∀ u : State, (wipeThrough u).lc = u.lc := fun _ => rfl
  have h2 : (closeAndSign s).lc = s.lc := by
    unfold closeAndSign signBatches closeBatch modBatches
    split <;> rfl
  rw [h1, h2]

theorem advanceLife_keeps (t : SelfTest) (target : Nat) {s : State} (hk : Keeps b0 s)
    (ht : transition s.lc.state target = true) (hr : target = 4 → s.lc.rmaEntries < 8) :
    Keeps b0 (advanceLife t target s) := by
  have h1 : Keeps b0 (fuseState target (wipeThrough (closeAndSign s))) :=
    fuseState_keeps target (wipeThrough_keeps (closeAndSign_keeps hk)) (by rw [wipeThrough_lc]; exact ht)
      (by rw [wipeThrough_lc]; exact hr)
  unfold advanceLife
  dsimp only
  split
  · exact packageReset_keeps t h1
  · split
    · exact enterSafe_keeps _ _ h1
    · exact keeps_getD (fun u h => resetPackage_keeps t h h1) h1

theorem cmdAdvance_keeps (t : SelfTest) (w : List Word) {s : State} (hk : Keeps b0 s) : Keeps b0 (cmdAdvance t w s).2 := by
  unfold cmdAdvance
  dsimp only
  split
  · exact hk
  · rename_i h
    simp only [transitionRefused, Bool.or_eq_true, not_or, Bool.not_eq_true', Bool.not_eq_false] at h
    obtain ⟨⟨⟨⟨ht, _⟩, _⟩, _⟩, hr⟩ := h
    split
    · exact keeps_lc hk fun i => ⟨⟨i.5.1, i.5.2, i.5.3, i.5.4, i.5.5, i.5.6⟩, ⟨rfl, rfl, List.prefix_rfl, Nat.le_refl _,
        Nat.le_refl _, Nat.le_refl _, Nat.le_refl _, Nat.le_refl _, Nat.le_refl _, id, id, id⟩⟩
    · refine advanceLife_keeps _ _ hk ht (fun h4 => ?_)
      rw [h4] at hr ht
      have h3 : s.lc.state = 3 := by simpa [transition] using ht
      simpa [h3] using hr

theorem cmdStage_keeps (w : List Word) {s : State} (hk : Keeps b0 s) : Keeps b0 (cmdStage w s).2 := by
  have h1 := cohRead_keeps (.caboose (s.active.getD 0)) (wf (wd w 1) 55 0) (wf (wd w 2) 31 0) none hk
  unfold cmdStage
  dsimp only
  generalize cohRead (.caboose (s.active.getD 0)) (wf (wd w 1) 55 0) (wf (wd w 2) 31 0) none s = r at h1
  split
  · exact hk
  · rename_i hty
    split
    · exact hk
    · split
      · exact hk
      split
      · exact hk
      · have h12 : wf (wd w 0) 55 48 = 1 ∨ wf (wd w 0) 55 48 = 2 := by simp at hty; omega
        refine keeps_lc h1 fun i => ⟨⟨i.5.1, i.5.2, i.5.3, i.5.4, ?_, ?_⟩, ⟨rfl, rfl, List.prefix_rfl, Nat.le_refl _,
          Nat.le_refl _, Nat.le_refl _, Nat.le_refl _, Nat.le_refl _, Nat.le_refl _, id, id, id⟩⟩
        · have h5 := i.5.5
          have h4 := i.5.4.1
          have h3 : 2 * 0 + r.2.lc.runCab ≠ 2 * (wf (wd w 0) 55 48 - 1) + (1 - runningSlot r.2.lc (wf (wd w 0) 55 48)) := by
            rcases h12 with e | e <;> simp only [e, runningSlot] <;> simp <;> omega
          simpa only [runningSvn, if_true, tblGet_set_ne h3] using h5
        · have h5 := i.5.6
          have h4 := i.5.4
          have h3 : 2 * 1 + r.2.lc.runProc ≠ 2 * (wf (wd w 0) 55 48 - 1) + (1 - runningSlot r.2.lc (wf (wd w 0) 55 48)) := by
            rcases h12 with e | e <;> simp only [e, runningSlot] <;> simp <;> omega
          simpa only [runningSvn, Nat.one_ne_zero, if_false, tblGet_set_ne h3] using h5

theorem cmdCommit_keeps (w : List Word) {s : State} (hk : Keeps b0 s) : Keeps b0 (cmdCommit w s).2 := by
  unfold cmdCommit
  dsimp only
  split
  · rename_i h1
    split
    · exact hk
    · rename_i h
      simp only [h1, runningSlot, Bool.or_eq_true, decide_eq_true_eq, not_or] at h
      refine keeps_lc hk fun i => ⟨⟨i.5.1, i.5.2, ⟨?_, i.5.3.2⟩, i.5.4, ?_, i.5.6⟩, ⟨rfl, rfl, List.prefix_rfl, Nat.le_refl _,
        Nat.le_refl _, ?_, Nat.le_refl _, Nat.le_succ _, Nat.le_refl _, id, id, id⟩⟩
      · dsimp only; omega
      · simp [runningSvn, h1, runningSlot]
      · simpa [runningSvn, h1, runningSlot] using i.5.5
  · split
    · rename_i h1
      split
      · exact hk
      · rename_i h
        simp only [h1, runningSlot, Bool.or_eq_true, decide_eq_true_eq, not_or] at h
        refine keeps_lc hk fun i => ⟨⟨i.5.1, i.5.2, ⟨i.5.3.1, ?_⟩, i.5.4, i.5.5, ?_⟩, ⟨rfl, rfl, List.prefix_rfl, Nat.le_refl _,
          Nat.le_refl _, Nat.le_refl _, ?_, Nat.le_refl _, Nat.le_succ _, id, id, id⟩⟩
        · dsimp only; omega
        · simp [runningSvn, h1, runningSlot]
        · simpa [runningSvn, h1, runningSlot] using i.5.6
    · exact hk

theorem cmdLifecycle_keeps (t : SelfTest) (ch seq : Nat) (w : List Word) {s : State} (hk : Keeps b0 s) : Keeps b0
    (cmdLifecycle t ch seq w s).2 := by
  unfold cmdLifecycle
  try dsimp only
  repeat' first
    | with_reducible first
      | intro _ | assumption | apply cmdAdvance_keeps | apply cmdStage_keeps | apply cmdCommit_keeps | apply keeps_ite
      | simp only [keeps_mk_iff] | refine keeps_snd (by assumption) ?_ | split | dsimp only

theorem cmdReset_keeps (t : SelfTest) (ch seq : Nat) (w : List Word) {s : State} (hk : Keeps b0 s) : Keeps b0 (cmdReset t
    ch seq w s).2 := by
  unfold cmdReset
  try dsimp only
  repeat' first
    | with_reducible first
      | intro _ | assumption | apply partReset_keeps | refine resetPackage_keeps _ (by assumption) ?_ | apply keeps_ite
      | simp only [keeps_mk_iff] | refine keeps_snd (by assumption) ?_ | split | dsimp only

theorem cmdPowerDown_keeps (ch seq : Nat) (w : List Word) {s : State} (hk : Keeps b0 s) : Keeps b0 (cmdPowerDown ch seq w
    s).2 := by
  unfold cmdPowerDown
  try dsimp only
  repeat' first
    | with_reducible first
      | intro _ | assumption | apply powerDown_keeps | apply keeps_ite | simp only [keeps_mk_iff] | split | dsimp only

theorem withdraw_keeps (p die n : Nat) {s : State} (hk : Keeps b0 s) : Keeps b0 (withdraw p die n s) := by
  induction n generalizing s with
  | zero => exact hk
  | succ n ih =>
    unfold withdraw
    split
    · rename_i h
      exact ih (giveHeldFrame_keeps _ _ _ (takePoolFrame_keeps _ h hk))
    · split
      · split
        · rename_i h
          exact ih (giveHeldFrame_keeps _ _ _ (takePoolFrame_keeps _ h (demoteSwitch_keeps _ (startPasses_keeps _ _ _ hk))))
        · exact hk
      · exact hk

theorem withdrawAll_keeps (p : Nat) {s : State} (hk : Keeps b0 s) : Keeps b0 (withdrawAll p s) := by
  unfold withdrawAll
  try dsimp only
  repeat' first
    | with_reducible first
      | intro _ | assumption | apply withdraw_keeps | apply keeps_foldl | apply keeps_foldl_snd | apply keeps_ite
      | simp only [keeps_mk_iff] | split | dsimp only

theorem makeBuckets_keeps (p : Nat) (rates bursts rd : List Nat) {s : State} (hk : Keeps b0 s) : Keeps b0 (makeBuckets p
    rates bursts rd s) := by
  unfold makeBuckets
  try dsimp only
  repeat' first
    | with_reducible first
      | intro _ | assumption | apply keeps_foldl | apply keeps_foldl_snd | apply keeps_getD | apply keeps_ite
      | simp only [keeps_mk_iff] | split | dsimp only

theorem zeroTiles_keeps (ls : List Nat) {s : State} (hk : Keeps b0 s) : Keeps b0 (zeroTiles ls s) := by
  unfold zeroTiles
  try dsimp only
  repeat' first
    | with_reducible first
      | intro _ | assumption | apply zeroTile_keeps | apply keeps_foldl | apply keeps_foldl_snd | apply keeps_ite
      | simp only [keeps_mk_iff] | refine keeps_snd (by assumption) ?_ | split | dsimp only

theorem assign_keeps (p : Nat) (q : Part) {s : State} (hk : Keeps b0 s) : Keeps b0 (assign p q s) := by
  unfold assign
  try dsimp only
  repeat' first
    | with_reducible first
      | intro _ | assumption | apply zeroTiles_keeps | apply setPart_keeps | apply withdrawAll_keeps
      | apply makeBuckets_keeps | apply dropRange_keeps | apply keeps_foldl | apply keeps_foldl_snd | apply keeps_ite
      | simp only [keeps_mk_iff] | split | dsimp only

theorem cmdPartCreate_keeps (ch seq : Nat) (w : List Word) {s : State} (hk : Keeps b0 s) : Keeps b0 (cmdPartCreate ch seq
    w s).2 := by
  unfold cmdPartCreate
  try dsimp only
  repeat' first
    | with_reducible first
      | intro _ | assumption | apply checked_keeps | apply setClamps_keeps | apply assign_keeps | apply setPart_keeps
      | apply keeps_ite | simp only [keeps_mk_iff] | split | dsimp only

theorem settleCreate_keeps {s : State} (hk : Keeps b0 s) : Keeps b0 (settleCreate s) := by
  unfold settleCreate
  try dsimp only
  repeat' first
    | with_reducible first
      | intro _ | assumption | apply withdrawAll_keeps | apply finishDeferred_keeps | apply setPart_keeps
      | apply keeps_foldl | apply keeps_foldl_snd | apply keeps_ite | simp only [keeps_mk_iff]
      | refine keeps_snd (by assumption) ?_ | split | dsimp only

theorem dissolve_keeps (p : Nat) {s : State} (hk : Keeps b0 s) : Keeps b0 (dissolve p s) := by
  unfold dissolve
  try dsimp only
  repeat' first
    | with_reducible first
      | intro _ | assumption | apply wrcInvalidate_keeps | apply keeps_foldl | apply keeps_foldl_snd | apply keeps_getD
      | apply keeps_ite | simp only [keeps_mk_iff] | split | dsimp only

theorem performAll_keeps (q : Nat) {s : State} (hk : Keeps b0 s) : Keeps b0 (performAll q s) := by
  unfold performAll
  try dsimp only
  repeat' first
    | with_reducible first
      | intro _ | assumption | apply performRec_keeps | apply keeps_foldl | apply keeps_foldl_snd | apply keeps_ite
      | simp only [keeps_mk_iff] | split | dsimp only

theorem cmdPartDissolve_keeps (ch seq : Nat) (w : List Word) {s : State} (hk : Keeps b0 s) : Keeps b0 (cmdPartDissolve ch
    seq w s).2 := by
  unfold cmdPartDissolve
  try dsimp only
  repeat' first
    | with_reducible first
      | intro _ | assumption | apply performAll_keeps | apply disableQueue_keeps | apply tierRetry_keeps
      | apply dissolve_keeps | apply setPart_keeps | apply keeps_foldl | apply keeps_foldl_snd | apply keeps_ite
      | simp only [keeps_mk_iff] | split | dsimp only

theorem settleDissolve_keeps {s : State} (hk : Keeps b0 s) : Keeps b0 (settleDissolve s) := by
  unfold settleDissolve
  try dsimp only
  repeat' first
    | with_reducible first
      | intro _ | assumption | apply finishDeferred_keeps | apply tierRetry_keeps | apply dissolve_keeps
      | apply keeps_ite | simp only [keeps_mk_iff] | refine keeps_snd (by assumption) ?_ | split | dsimp only

theorem undoCreates_keeps {s : State} (hk : Keeps b0 s) : Keeps b0 (undoCreates s) := by
  unfold undoCreates
  try dsimp only
  repeat' first
    | with_reducible first
      | intro _ | assumption | apply finishDeferred_keeps | apply tierRetry_keeps | apply dissolve_keeps
      | apply keeps_foldl | apply keeps_ite | simp only [keeps_mk_iff] | split | dsimp only

theorem retireNow_keeps (x : Nat) {s : State} (hk : Keeps b0 s) : Keeps b0 (retireNow x s) := by
  unfold retireNow
  split
  · exact hk
  · exact undoCreates_keeps (retireTile_keeps _ _ hk)

theorem cmdTileRetire_keeps (ch seq : Nat) (w : List Word) {s : State} (hk : Keeps b0 s) : Keeps b0 (cmdTileRetire ch seq
    w s).2 := by
  unfold cmdTileRetire
  try dsimp only
  repeat' first
    | with_reducible first
      | intro _ | assumption | apply checked_keeps | apply retireNow_keeps | apply keeps_ite | simp only [keeps_mk_iff]
      | refine keeps_snd (by assumption) ?_ | split | dsimp only

theorem announcePort_keeps (p : Nat) {s : State} (hk : Keeps b0 s) : Keeps b0 (announcePort p s) := by
  unfold announcePort
  try dsimp only
  repeat' first
    | with_reducible first
      | intro _ | assumption | apply send_keeps | apply setPort_keeps | apply excludePort_keeps | apply keeps_ite
      | simp only [keeps_mk_iff] | split | dsimp only

theorem installRoute_keeps (r : Route) {s : State} (hk : Keeps b0 s) : Keeps b0 (installRoute r s) := by
  unfold installRoute
  try dsimp only
  repeat' first
    | with_reducible first
      | intro _ | assumption | apply announcePort_keeps | apply rerouteTime_keeps | apply keeps_foldl
      | apply keeps_foldl_snd | apply keeps_ite | simp only [keeps_mk_iff] | split | dsimp only

theorem cmdRouteInstall_keeps (ch seq : Nat) (w : List Word) {s : State} (hk : Keeps b0 s) : Keeps b0 (cmdRouteInstall ch
    seq w s).2 := by
  unfold cmdRouteInstall
  try dsimp only
  repeat' first
    | with_reducible first
      | intro _ | assumption | apply cohRead_keeps | apply installRoute_keeps | apply keeps_getD | apply keeps_ite
      | simp only [keeps_mk_iff] | refine keeps_snd (by assumption) ?_ | split | dsimp only

theorem settleRange_keeps (a n : Nat) {s : State} (hk : Keeps b0 s) : Keeps b0 (settleRange a n s) := by
  unfold settleRange
  try dsimp only
  repeat' first
    | with_reducible first
      | intro _ | assumption | apply writeBackLine_keeps | apply drainHome_keeps | apply keeps_foldl
      | apply keeps_foldl_snd | apply keeps_ite | simp only [keeps_mk_iff] | split | dsimp only

theorem unpinImage_keeps (p : Nat) (keep : List Nat) {s : State} (hk : Keeps b0 s) : Keeps b0 (unpinImage p keep s).1 := by
  unfold unpinImage
  split
  · exact hk
  · refine keeps_foldl_fst (fun r x hr => ?_) hk
    dsimp only
    split
    · exact hr
    · exact setExt_keeps _ _ hr

theorem pinHere_keeps (p : Nat) (r : State × List Nat) (x : Nat) (hk : Keeps b0 r.1) : Keeps b0 (pinHere p r x).1 := by
  unfold pinHere
  dsimp only
  split
  · exact hk
  · split
    · exact setExt_keeps _ _ hk
    · exact keeps_getD (fun t h => pinInPlace_keeps _ _ h hk) hk

theorem pinFetched_keeps (p : Nat) {s : State} (x : Nat) (hk : Keeps b0 s) : Keeps b0 (pinFetched p s x) := by
  unfold pinFetched
  try dsimp only
  repeat' first
    | with_reducible first
      | intro _ | assumption | apply commitFlash_keeps | apply settleExtent_keeps | apply releaseFrame_keeps
      | apply arrayRead_keeps | apply releaseHeld_keeps | apply tierDrain_keeps | apply setExt_keeps | apply keeps_foldl
      | apply keeps_foldl_snd | refine takeHeldFrame_keeps _ _ (by assumption) ?_ | apply keeps_ite
      | simp only [keeps_mk_iff] | refine keeps_snd (by assumption) ?_ | split | dsimp only

theorem movePins_keeps (p : Nat) (xs : List Nat) {s : State} (hk : Keeps b0 s) : Keeps b0 (movePins p xs s) := by
  unfold movePins
  have h1 : Keeps b0 (xs.foldl (pinHere p) (unpinImage p xs s)).1 :=
    keeps_foldl_fst (fun r x hr => pinHere_keeps p r x hr) (unpinImage_keeps p xs hk)
  exact keeps_foldl (fun s x hs => pinFetched_keeps p x hs) (keeps_foldl (fun s d hs => withdraw_keeps _ _ _ hs) h1)

theorem installSeqs_keeps (p : Nat) (streams : List Nat) {s : State} (hk : Keeps b0 s) : Keeps b0 (installSeqs p streams
    s) := by
  unfold installSeqs
  try dsimp only
  repeat' first
    | with_reducible first
      | intro _ | assumption | apply setSeq_keeps | apply keeps_foldl | apply keeps_foldl_snd | apply keeps_ite
      | simp only [keeps_mk_iff] | split | dsimp only

theorem installImage_keeps (p a len : Nat) {s : State} (hk : Keeps b0 s) : Keeps b0 (installImage p a len s) := by
  unfold installImage
  try dsimp only
  repeat' first
    | with_reducible first
      | intro _ | assumption | apply movePins_keeps | apply tierRetry_keeps | apply installSeqs_keeps
      | apply setPart_keeps | apply keeps_ite | simp only [keeps_mk_iff] | split | dsimp only

theorem cmdSlateInstall_keeps (ch seq : Nat) (w : List Word) {s : State} (hk : Keeps b0 s) : Keeps b0 (cmdSlateInstall ch
    seq w s).2 := by
  unfold cmdSlateInstall
  try dsimp only
  repeat' first
    | with_reducible first
      | intro _ | assumption | apply settleRange_keeps | apply installImage_keeps | apply keeps_ite
      | simp only [keeps_mk_iff] | refine keeps_snd (by assumption) ?_ | split | dsimp only

theorem applyCap_keeps {s : State} (hk : Keeps b0 s) : Keeps b0 (applyCap s) := by
  unfold applyCap
  try dsimp only
  repeat' first
    | with_reducible first
      | intro _ | assumption | apply finishDeferred_keeps | apply keeps_getD | apply keeps_ite
      | simp only [keeps_mk_iff] | refine keeps_snd (by assumption) ?_ | split | dsimp only

theorem capFloorEvent_keeps (unit which : Nat) {s : State} (hk : Keeps b0 s) : Keeps b0 (capFloorEvent unit which s) := by
  unfold capFloorEvent
  try dsimp only
  repeat' first
    | with_reducible first
      | intro _ | assumption | apply raiseEvent_keeps | apply keeps_ite | simp only [keeps_mk_iff] | split | dsimp only
    | exact rfl

theorem throttleEvent_keeps (die : Nat) {s : State} (hk : Keeps b0 s) : Keeps b0 (throttleEvent die s) := by
  unfold throttleEvent
  try dsimp only
  repeat' first
    | with_reducible first
      | intro _ | assumption | apply raiseEvent_keeps | apply keeps_ite | simp only [keeps_mk_iff] | split | dsimp only
    | exact rfl

theorem stepDoms_keeps (m : PowerSample) (b : Nat) (runs : Bool) {s : State} (hk : Keeps b0 s) : Keeps b0 (stepDoms m b
    runs s) := by
  unfold stepDoms
  try dsimp only
  repeat' first
    | with_reducible first
      | intro _ | assumption | apply setDom_keeps | apply capFloorEvent_keeps | apply throttleEvent_keeps
      | apply bump_keeps | apply keeps_foldl | apply keeps_foldl_snd | apply keeps_ite | simp only [keeps_mk_iff]
      | refine keeps_snd (by assumption) ?_ | split | dsimp only

theorem maxInputStop_keeps (m : PowerSample) {s : State} (hk : Keeps b0 s) : Keeps b0 (maxInputStop m s) := by
  unfold maxInputStop
  try dsimp only
  repeat' first
    | with_reducible first
      | intro _ | assumption | apply haltJobs_keeps | apply capFloorEvent_keeps | apply keeps_ite
      | simp only [keeps_mk_iff] | split | dsimp only

theorem coolDown_keeps (b : Nat) {s : State} (hk : Keeps b0 s) : Keeps b0 (coolDown b s) := by
  unfold coolDown
  try dsimp only
  repeat' first
    | with_reducible first
      | intro _ | assumption | apply keeps_ite | simp only [keeps_mk_iff] | refine keeps_snd (by assumption) ?_ | split
      | dsimp only

theorem intervalEffect_keeps (m : PowerSample) {s : State} (hk : Keeps b0 s) : Keeps b0 (intervalEffect m s) := by
  unfold intervalEffect
  try dsimp only
  repeat' first
    | with_reducible first
      | intro _ | assumption | apply applyCap_keeps | apply advance_keeps | apply coolDown_keeps
      | apply maxInputStop_keeps | apply stepDoms_keeps | apply keeps_getD | apply keeps_ite | simp only [keeps_mk_iff]
      | split | dsimp only

theorem pointEffect_keeps (a : Nat) {s : State} (hk : Keeps b0 s) : Keeps b0 (pointEffect a s) := by
  unfold pointEffect
  try dsimp only
  repeat' first
    | with_reducible first
      | intro _ | assumption | apply setDom_keeps | apply keeps_ite | simp only [keeps_mk_iff] | split | dsimp only

theorem throttleDie_keeps {s : State} (die : Nat) (hk : Keeps b0 s) : Keeps b0 (throttleDie s die) := by
  unfold throttleDie
  try dsimp only
  repeat' first
    | with_reducible first
      | intro _ | assumption | apply throttleEvent_keeps | apply setDom_keeps | apply keeps_foldl
      | apply keeps_foldl_snd | apply keeps_ite | simp only [keeps_mk_iff] | split | dsimp only

theorem thermalEffect_keeps (tj temps : List Int) {s : State} (hk : Keeps b0 s) : Keeps b0 (thermalEffect tj temps s) :=
    by
  unfold thermalEffect
  try dsimp only
  repeat' first
    | with_reducible first
      | intro _ | assumption | apply advance_keeps | apply throttleDie_keeps | apply keeps_foldl | apply keeps_foldl_snd
      | apply keeps_getD | apply keeps_ite | simp only [keeps_mk_iff] | split | dsimp only

theorem raiseGuard_keeps (die mv : Nat) {s : State} (hk : Keeps b0 s) : Keeps b0 (raiseGuard die mv s) := by
  unfold raiseGuard
  try dsimp only
  repeat' first
    | with_reducible first
      | intro _ | assumption | apply recordEntry_keeps | apply keeps_ite | simp only [keeps_mk_iff] | split | dsimp only

theorem losePoint_keeps (die a p : Nat) {s : State} (hk : Keeps b0 s) : Keeps b0 (losePoint die a p s) := by
  unfold losePoint
  try dsimp only
  repeat' first
    | with_reducible first
      | intro _ | assumption | apply recordEntry_keeps | apply setDom_keeps | apply keeps_ite | simp only [keeps_mk_iff]
      | refine keeps_snd (by assumption) ?_ | split | dsimp only

theorem guardEffect_keeps (die : Nat) (m : Margin) {s : State} (hk : Keeps b0 s) : Keeps b0 (guardEffect die m s) := by
  unfold guardEffect
  try dsimp only
  repeat' first
    | with_reducible first
      | intro _ | assumption | apply raiseGuard_keeps | apply losePoint_keeps | apply keeps_ite
      | simp only [keeps_mk_iff] | refine keeps_snd (by assumption) ?_ | split | dsimp only

theorem stretchEffect_keeps (c pc : Nat) {s : State} (hk : Keeps b0 s) : Keeps b0 (stretchEffect c pc s) := by
  unfold stretchEffect
  try dsimp only
  repeat' first
    | with_reducible first
      | intro _ | assumption | apply keeps_ite | simp only [keeps_mk_iff] | refine keeps_snd (by assumption) ?_ | split
      | dsimp only

theorem modQuartz_keeps (f : Quartz → Quartz) {s : State} (hk : Keeps b0 s) : Keeps b0 (modQuartz f s) := by
  unfold modQuartz
  try dsimp only
  repeat' first
    | with_reducible first
      | intro _ | assumption | apply keeps_ite | simp only [keeps_mk_iff] | split | dsimp only

theorem endHoldover_keeps {s : State} (hk : Keeps b0 s) : Keeps b0 (endHoldover s) := by
  unfold endHoldover
  try dsimp only
  repeat' first
    | with_reducible first
      | intro _ | assumption | apply modQuartz_keeps | apply keeps_ite | simp only [keeps_mk_iff]
      | refine keeps_snd (by assumption) ?_ | split | dsimp only

theorem steer_keeps {s : State} (hk : Keeps b0 s) : Keeps b0 (steer s) := by
  unfold steer
  try dsimp only
  repeat' first
    | with_reducible first
      | intro _ | assumption | apply draw_keeps | apply modQuartz_keeps | apply keeps_ite | simp only [keeps_mk_iff]
      | refine keeps_snd (by assumption) ?_ | split | dsimp only

theorem toHoldover_keeps {s : State} (hk : Keeps b0 s) : Keeps b0 (toHoldover s) := by
  unfold toHoldover
  try dsimp only
  repeat' first
    | with_reducible first
      | intro _ | assumption | apply modQuartz_keeps | apply keeps_ite | simp only [keeps_mk_iff]
      | refine keeps_snd (by assumption) ?_ | split | dsimp only

theorem qrefLockEffect_keeps {s : State} (hk : Keeps b0 s) : Keeps b0 (qrefLockEffect s) := by
  unfold qrefLockEffect
  try dsimp only
  repeat' first
    | with_reducible first
      | intro _ | assumption | apply modQuartz_keeps | apply endHoldover_keeps | apply keeps_ite
      | simp only [keeps_mk_iff] | refine keeps_snd (by assumption) ?_ | split | dsimp only

theorem upstreamLossEffect_keeps {s : State} (hk : Keeps b0 s) : Keeps b0 (upstreamLossEffect s) := by
  unfold upstreamLossEffect
  try dsimp only
  repeat' first
    | with_reducible first
      | intro _ | assumption | apply toHoldover_keeps | apply modQuartz_keeps | apply keeps_ite
      | simp only [keeps_mk_iff] | split | dsimp only

theorem toConsist_keeps (p : Nat) {s : State} (hk : Keeps b0 s) : Keeps b0 (toConsist p s) := by
  unfold toConsist
  try dsimp only
  repeat' first
    | with_reducible first
      | intro _ | assumption | apply endHoldover_keeps | apply modQuartz_keeps | apply keeps_getD | apply keeps_ite
      | simp only [keeps_mk_iff] | split | dsimp only

theorem alternateLockEffect_keeps (p : Nat) {s : State} (hk : Keeps b0 s) : Keeps b0 (alternateLockEffect p s) := by
  unfold alternateLockEffect
  try dsimp only
  repeat' first
    | with_reducible first
      | intro _ | assumption | apply steer_keeps | apply toConsist_keeps | apply keeps_ite | simp only [keeps_mk_iff]
      | refine keeps_snd (by assumption) ?_ | split | dsimp only

theorem timingSymbolEffect_keeps (p tTx tE1 tHold : Nat) {s : State} (hk : Keeps b0 s) : Keeps b0 (timingSymbolEffect p
    tTx tE1 tHold s) := by
  unfold timingSymbolEffect
  try dsimp only
  repeat' first
    | with_reducible first
      | intro _ | assumption | apply setPort_keeps | apply toConsist_keeps | apply modQuartz_keeps | apply steer_keeps
      | apply keeps_ite | simp only [keeps_mk_iff] | split | dsimp only

theorem symbolSendEffect_keeps (p : Nat) {s : State} (hk : Keeps b0 s) : Keeps b0 (symbolSendEffect p s) := by
  unfold symbolSendEffect
  try dsimp only
  repeat' first
    | with_reducible first
      | intro _ | assumption | apply advance_keeps | apply send_keeps | apply setPort_keeps | apply keeps_ite
      | simp only [keeps_mk_iff] | refine keeps_snd (by assumption) ?_ | split | dsimp only

theorem ignoreEdge_keeps {s : State} (hk : Keeps b0 s) : Keeps b0 (ignoreEdge s) := by
  unfold ignoreEdge
  try dsimp only
  repeat' first
    | with_reducible first
      | intro _ | assumption | apply modQuartz_keeps | apply keeps_ite | simp only [keeps_mk_iff] | split | dsimp only

theorem ppsEffect_keeps (width : Nat) {s : State} (hk : Keeps b0 s) : Keeps b0 (ppsEffect width s) := by
  unfold ppsEffect
  try dsimp only
  repeat' first
    | with_reducible first
      | intro _ | assumption | apply ignoreEdge_keeps | apply steer_keeps | apply modQuartz_keeps | apply keeps_ite
      | simp only [keeps_mk_iff] | refine keeps_snd (by assumption) ?_ | split | dsimp only

theorem qtzLoadEffect_keeps (acc : Acc) (v : Nat) {s : State} (hk : Keeps b0 s) : Keeps b0 (qtzLoadEffect acc v s) := by
  unfold qtzLoadEffect
  try dsimp only
  repeat' first
    | with_reducible first
      | intro _ | assumption | apply modQuartz_keeps | apply tick_keeps | apply keeps_ite | simp only [keeps_mk_iff]
      | refine keeps_snd (by assumption) ?_ | split | dsimp only

theorem qtzStateEffect_keeps (acc : Acc) (v : Nat) {s : State} (hk : Keeps b0 s) : Keeps b0 (qtzStateEffect acc v s) := by
  unfold qtzStateEffect
  try dsimp only
  repeat' first
    | with_reducible first
      | intro _ | assumption | apply modQuartz_keeps | apply keeps_ite | simp only [keeps_mk_iff]
      | refine keeps_snd (by assumption) ?_ | split | dsimp only

theorem cmdTelemetryRead_keeps (ch seq : Nat) (w : List Word) {s : State} (hk : Keeps b0 s) : Keeps b0 (cmdTelemetryRead
    ch seq w s).2 := by
  unfold cmdTelemetryRead
  try dsimp only
  repeat' first
    | with_reducible first
      | intro _ | assumption | apply checked_keeps | apply draw_keeps | apply keeps_ite | simp only [keeps_mk_iff]
      | refine keeps_snd (by assumption) ?_ | split | dsimp only

theorem runCommand_keeps (t : SelfTest) (code : Nat) (ch seq : Nat) (w : List Word) {s : State} (hk : Keeps b0 s) : Keeps
    b0 (runCommand t code ch seq w s).2 := by
  unfold runCommand
  try dsimp only
  repeat' first
    | with_reducible first
      | intro _ | assumption | apply cmdVersionHello_keeps | apply cmdPartCreate_keeps | apply cmdPartDissolve_keeps
      | apply cmdSlateInstall_keeps | apply cmdJobOpen_keeps | apply cmdJobClose_keeps | apply cmdSealModel_keeps
      | apply cmdTileRetire_keeps | apply cmdTelemetryRead_keeps | apply cmdClampReportRead_keeps
      | apply cmdReceiptFetch_keeps | apply cmdRouteInstall_keeps | apply cmdPowerSet_keeps | apply cmdPowerDown_keeps
      | apply cmdReset_keeps | apply cmdLifecycle_keeps | apply keeps_ite | simp only [keeps_mk_iff]
      | refine keeps_snd (by assumption) ?_ | split | dsimp only

theorem lifecycleRow_keeps (t : SelfTest) (op ch : Nat) (hdr : Word) (pl : List Word) {s : State} (hk : Keeps b0 s) :
    Keeps b0 (lifecycleRow t op ch hdr pl s) := by
  unfold lifecycleRow
  try dsimp only
  repeat' first
    | with_reducible first
      | intro _ | assumption | apply submit_keeps | apply runCommand_keeps | apply keeps_ite | simp only [keeps_mk_iff]
      | split | dsimp only

theorem resetRow_keeps (t : SelfTest) (package : Bool) (ch : Nat) (sub : Submission) {s : State} (hk : Keeps b0 s) : Keeps
    b0 (resetRow t package ch sub s) := by
  unfold resetRow
  try dsimp only
  repeat' first
    | with_reducible first
      | intro _ | assumption | apply submit_keeps | apply runCommand_keeps | apply keeps_ite | simp only [keeps_mk_iff]
      | split | dsimp only

end Sys2Proof.Machine
end

