-- ==== Sys2Proof/Laws/KeepsHart.lean ====
section
/-! SUPPORT. What Laws/Keeps.lean says, of registers, harts, management and PCIe. -/

set_option maxRecDepth 20000
set_option linter.unusedTactic false
set_option linter.unreachableTactic false
set_option linter.unusedVariables false
set_option linter.unusedSimpArgs false

namespace Sys2Proof.Machine

variable {b0 : State}

theorem rcClear_keeps (off : Nat) (acc : Acc) {s : State} (hk : Keeps b0 s) : Keeps b0 (rcClear off acc s) := by
  unfold rcClear
  try dsimp only
  repeat' first
    | with_reducible first
      | intro _ | assumption | apply setChan_keeps | apply setHome_keeps | apply keeps_ite | simp only [keeps_mk_iff]
      | refine keeps_snd (by assumption) ?_ | split | dsimp only

theorem regLoad_keeps (h rd off : Nat) (acc : Acc) {s : State} (hk : Keeps b0 s) : Keeps b0 (regLoad h rd off acc s) := by
  unfold regLoad
  try dsimp only
  repeat' first
    | with_reducible first
      | intro _ | assumption | apply rcClear_keeps | apply wrX_keeps | apply keeps_ite | simp only [keeps_mk_iff]
      | split | dsimp only

theorem reqWrite_keeps (ch o n : Nat) (v : Nat) {s : State} (hk : Keeps b0 s) : Keeps b0 (reqWrite ch o n v s) := by
  unfold reqWrite
  try dsimp only
  repeat' first
    | with_reducible first
      | intro _ | assumption | apply discardWrite_keeps | apply setChan_keeps | apply keeps_ite
      | simp only [keeps_mk_iff] | split | dsimp only

theorem ackWrite_keeps (ch : Nat) (acc : Acc) (v : Nat) {s : State} (hk : Keeps b0 s) : Keeps b0 (ackWrite ch acc v s) :=
    by
  unfold ackWrite
  try dsimp only
  repeat' first
    | with_reducible first
      | intro _ | assumption | apply setChan_keeps | apply keeps_ite | simp only [keeps_mk_iff]
      | refine keeps_snd (by assumption) ?_ | split | dsimp only

theorem irqWrite_keeps (ch : Nat) (acc : Acc) (v : Nat) {s : State} (hk : Keeps b0 s) : Keeps b0 (irqWrite ch acc v s) :=
    by
  unfold irqWrite
  try dsimp only
  repeat' first
    | with_reducible first
      | intro _ | assumption | apply discardWrite_keeps | apply setChan_keeps | apply keeps_ite
      | simp only [keeps_mk_iff] | refine keeps_snd (by assumption) ?_ | split | dsimp only

theorem cbxWrite_keeps (ch o : Nat) (acc : Acc) (v : Nat) {s : State} (hk : Keeps b0 s) : Keeps b0 (cbxWrite ch o acc v s)
    := by
  unfold cbxWrite
  try dsimp only
  repeat' first
    | with_reducible first
      | intro _ | assumption | apply reqWrite_keeps | apply ackWrite_keeps | apply irqWrite_keeps | apply goWith_keeps
      | apply runCommand_keeps | apply urgentWith_keeps | apply keeps_ite | simp only [keeps_mk_iff]
      | refine keeps_snd (by assumption) ?_ | split | dsimp only

theorem pwrFlagsEffect_keeps (acc : Acc) (v : Nat) {s : State} (hk : Keeps b0 s) : Keeps b0 (pwrFlagsEffect acc v s) := by
  unfold pwrFlagsEffect
  try dsimp only
  repeat' first
    | with_reducible first
      | intro _ | assumption | apply keeps_ite | simp only [keeps_mk_iff] | refine keeps_snd (by assumption) ?_ | split
      | dsimp only

theorem thmFlagsEffect_keeps (acc : Acc) (v : Nat) {s : State} (hk : Keeps b0 s) : Keeps b0 (thmFlagsEffect acc v s) := by
  unfold thmFlagsEffect
  try dsimp only
  repeat' first
    | with_reducible first
      | intro _ | assumption | apply keeps_ite | simp only [keeps_mk_iff] | refine keeps_snd (by assumption) ?_ | split
      | dsimp only

theorem p2pWrite_keeps (i : Nat) (acc : Acc) (v : Nat) {s : State} (hk : Keeps b0 s) : Keeps b0 (p2pWrite i acc v s) := by
  unfold p2pWrite
  try dsimp only
  repeat' first
    | with_reducible first
      | intro _ | assumption | apply keeps_ite | simp only [keeps_mk_iff] | split | dsimp only

theorem regWrite_keeps (off : Nat) (acc : Acc) (v : Nat) {s : State} (hk : Keeps b0 s) : Keeps b0 (regWrite off acc v s)
    := by
  unfold regWrite
  try dsimp only
  repeat' first
    | with_reducible first
      | intro _ | assumption | apply cbxWrite_keeps | apply qtzLoadEffect_keeps | apply qtzStateEffect_keeps
      | apply ctxWrite_keeps | apply rgnWrite_keeps | apply p2pWrite_keeps | apply pwrFlagsEffect_keeps
      | apply thmFlagsEffect_keeps | apply keeps_ite | simp only [keeps_mk_iff] | refine keeps_snd (by assumption) ?_
      | split | dsimp only

theorem regStore_keeps (off n : Nat) (v : Word) {s : State} (hk : Keeps b0 s) : Keeps b0 (regStore off n v s) := by
  unfold regStore
  try dsimp only
  repeat' first
    | with_reducible first
      | intro _ | assumption | apply regWrite_keeps | apply keeps_ite | simp only [keeps_mk_iff] | split | dsimp only

theorem rcRead_keeps (h rd off : Nat) (acc : Acc) {s : State} (hk : Keeps b0 s) : Keeps b0 (rcRead h rd off acc s) := by
  unfold rcRead
  try dsimp only
  repeat' first
    | with_reducible first
      | intro _ | assumption | apply regLoad_keeps | apply keeps_ite | simp only [keeps_mk_iff] | split | dsimp only

theorem csrRefuse_keeps (h num : Nat) {s : State} (hk : Keeps b0 s) : Keeps b0 (csrRefuse h num s) := by
  unfold csrRefuse
  try dsimp only
  repeat' first
    | with_reducible first
      | intro _ | assumption | apply raiseTrap_keeps | apply keeps_ite | simp only [keeps_mk_iff] | split | dsimp only

theorem dropLine_keeps (l : Nat) {s : State} (hk : Keeps b0 s) : Keeps b0 (dropLine l s) := by
  unfold dropLine
  try dsimp only
  repeat' first
    | with_reducible first
      | intro _ | assumption | apply loseReservations_keeps | apply setLine_keeps | apply keeps_ite
      | simp only [keeps_mk_iff] | split | dsimp only

theorem rfLine_keeps (op l : Nat) {s : State} (hk : Keeps b0 s) : Keeps b0 (rfLine op l s) := by
  unfold rfLine
  try dsimp only
  repeat' first
    | with_reducible first
      | intro _ | assumption | apply recallLine_keeps | apply invalidateLine_keeps | apply dropLine_keeps
      | apply waitHold_keeps | apply keeps_ite | simp only [keeps_mk_iff] | split | dsimp only

theorem rfRange_keeps (op base len : Nat) {s : State} (hk : Keeps b0 s) : Keeps b0 (rfRange op base len s) := by
  unfold rfRange
  try dsimp only
  repeat' first
    | with_reducible first
      | intro _ | assumption | apply rfLine_keeps | apply keeps_foldl | apply keeps_foldl_snd | apply keeps_ite
      | simp only [keeps_mk_iff] | split | dsimp only

theorem rfFinish_keeps (pd : Nat) (q : RfReq) {s : State} (hk : Keeps b0 s) : Keeps b0 (rfFinish pd q s) := by
  unfold rfFinish
  try dsimp only
  repeat' first
    | with_reducible first
      | intro _ | assumption | apply rfRange_keeps | apply setRf_keeps | apply modHart_keeps | apply pend_keeps
      | apply keeps_ite | simp only [keeps_mk_iff] | split | dsimp only

theorem rfCompleteEffect_keeps (pd : Nat) {s : State} (hk : Keeps b0 s) : Keeps b0 (rfCompleteEffect pd s) := by
  unfold rfCompleteEffect
  try dsimp only
  repeat' first
    | with_reducible first
      | intro _ | assumption | apply rfFinish_keeps | apply setRf_keeps | apply keeps_ite | simp only [keeps_mk_iff]
      | refine keeps_snd (by assumption) ?_ | split | dsimp only

theorem rfSubmit_keeps (h op : Nat) (notify : Bool) {s : State} (hk : Keeps b0 s) : Keeps b0 (rfSubmit h op notify s) :=
    by
  unfold rfSubmit
  try dsimp only
  repeat' first
    | with_reducible first
      | intro _ | assumption | apply setHart_keeps | apply rfFinish_keeps | apply setRf_keeps | apply keeps_ite
      | simp only [keeps_mk_iff] | split | dsimp only

theorem rfgoWrite_keeps (h v : Nat) {s : State} (hk : Keeps b0 s) : Keeps b0 (rfgoWrite h v s) := by
  unfold rfgoWrite
  try dsimp only
  repeat' first
    | with_reducible first
      | intro _ | assumption | apply modHart_keeps | apply rfSubmit_keeps | apply keeps_ite | simp only [keeps_mk_iff]
      | split | dsimp only

theorem rfRow_keeps (h op : Nat) (v : Word) {s : State} (hk : Keeps b0 s) : Keeps b0 (rfRow h op v s) := by
  unfold rfRow
  try dsimp only
  repeat' first
    | with_reducible first
      | intro _ | assumption | apply rfgoWrite_keeps | apply csrRefuse_keeps | apply keeps_ite
      | simp only [keeps_mk_iff] | split | dsimp only

theorem sipiWriteEffect_keeps (v : Nat) {s : State} (hk : Keeps b0 s) : Keeps b0 (sipiWriteEffect v s) := by
  unfold sipiWriteEffect
  try dsimp only
  repeat' first
    | with_reducible first
      | intro _ | assumption | apply pend_keeps | apply keeps_ite | simp only [keeps_mk_iff] | split | dsimp only

theorem mipiWriteEffect_keeps (v : Nat) {s : State} (hk : Keeps b0 s) : Keeps b0 (mipiWriteEffect v s) := by
  unfold mipiWriteEffect
  try dsimp only
  repeat' first
    | with_reducible first
      | intro _ | assumption | apply pend_keeps | apply keeps_ite | simp only [keeps_mk_iff] | split | dsimp only

theorem ipiRow_keeps (h num : Nat) (run : State → State) {s : State} (h0 : ∀ s, Keeps b0 s → Keeps b0 (run s)) (hk : Keeps
    b0 s) : Keeps b0 (ipiRow h num run s) := by
  unfold ipiRow
  try dsimp only
  repeat' first
    | with_reducible first
      | intro _ | assumption | apply h0 | apply csrRefuse_keeps | apply keeps_ite | simp only [keeps_mk_iff] | split
      | dsimp only

theorem dieTime_keeps (die : Nat) {s : State} (hk : Keeps b0 s) : Keeps b0 (dieTime die s).2 := by
  unfold dieTime
  try dsimp only
  repeat' first
    | with_reducible first
      | intro _ | assumption | apply draw_keeps | apply keeps_ite | simp only [keeps_mk_iff]
      | refine keeps_snd (by assumption) ?_ | split | dsimp only

theorem qtimeEffect_keeps (h rd : Nat) {s : State} (hk : Keeps b0 s) : Keeps b0 (qtimeEffect h rd s) := by
  unfold qtimeEffect
  try dsimp only
  repeat' first
    | with_reducible first
      | intro _ | assumption | apply dieTime_keeps | apply wrX_keeps | apply csrRefuse_keeps | apply keeps_ite
      | simp only [keeps_mk_iff] | refine keeps_snd (by assumption) ?_ | split | dsimp only

theorem timeCsr_keeps (h : Nat) {s : State} (hk : Keeps b0 s) : Keeps b0 (timeCsr h s).2 := by
  unfold timeCsr
  try dsimp only
  repeat' first
    | with_reducible first
      | intro _ | assumption | apply dieTime_keeps | apply keeps_ite | simp only [keeps_mk_iff]
      | refine keeps_snd (by assumption) ?_ | split | dsimp only

theorem settleTimers_keeps (h : Nat) {s : State} (hk : Keeps b0 s) : Keeps b0 (settleTimers h s) := by
  unfold settleTimers
  try dsimp only
  repeat' first
    | with_reducible first
      | intro _ | assumption | apply timeCsr_keeps | apply modHart_keeps | apply keeps_ite | simp only [keeps_mk_iff]
      | refine keeps_snd (by assumption) ?_ | split | dsimp only

theorem machineTimerEffect_keeps (h : Nat) {s : State} (hk : Keeps b0 s) : Keeps b0 (machineTimerEffect h s) := by
  unfold machineTimerEffect
  try dsimp only
  repeat' first
    | with_reducible first
      | intro _ | assumption | apply modHart_keeps | apply advance_keeps | apply keeps_ite | simp only [keeps_mk_iff]
      | split | dsimp only

theorem stimecmpEffect_keeps (h : Nat) (virt : Bool) {s : State} (hk : Keeps b0 s) : Keeps b0 (stimecmpEffect h virt s) :=
    by
  unfold stimecmpEffect
  try dsimp only
  repeat' first
    | with_reducible first
      | intro _ | assumption | apply modHart_keeps | apply advance_keeps | apply keeps_ite | simp only [keeps_mk_iff]
      | split | dsimp only

theorem csrPut_keeps (h num v : Nat) {s : State} (hk : Keeps b0 s) : Keeps b0 (csrPut h num v s) := by
  unfold csrPut
  try dsimp only
  repeat' first
    | with_reducible first
      | intro _ | assumption | apply modHart_keeps | apply settleTimers_keeps | apply mipiWriteEffect_keeps
      | apply rfgoWrite_keeps | apply sipiWriteEffect_keeps | apply keeps_ite | simp only [keeps_mk_iff] | split
      | dsimp only

theorem garouxOld_keeps (h num : Nat) {s : State} (hk : Keeps b0 s) : Keeps b0 (garouxOld h num s).2 := by
  unfold garouxOld
  try dsimp only
  repeat' first
    | with_reducible first
      | intro _ | assumption | apply dieTime_keeps | apply keeps_ite | simp only [keeps_mk_iff] | split | dsimp only

theorem stdCsrOld_keeps (h num : Nat) {s : State} (hk : Keeps b0 s) : Keeps b0 (stdCsrOld h num s).2 := by
  unfold stdCsrOld
  try dsimp only
  repeat' first
    | with_reducible first
      | intro _ | assumption | apply timeCsr_keeps | apply keeps_ite | simp only [keeps_mk_iff]
      | refine keeps_snd (by assumption) ?_ | split | dsimp only

theorem stdCsrPut_keeps (h num v : Nat) {s : State} (hk : Keeps b0 s) : Keeps b0 (stdCsrPut h num v s) := by
  unfold stdCsrPut
  try dsimp only
  repeat' first
    | with_reducible first
      | intro _ | assumption | apply settleTimers_keeps | apply modHart_keeps | apply keeps_ite
      | simp only [keeps_mk_iff] | refine keeps_snd (by assumption) ?_ | split | dsimp only

theorem csrDo_keeps (h rd : Nat) (op : CsrOp) (v : Nat) (old : Nat × State) (put : Nat → State → State)
    (h0 : ∀ v s, Keeps b0 s → Keeps b0 (put v s)) (hk : Keeps b0 old.2) : Keeps b0 (csrDo h rd op v old put) := by
  unfold csrDo
  dsimp only
  split
  · exact h0 _ _ (wrX_keeps _ _ _ hk)
  · exact wrX_keeps _ _ _ hk

theorem csrAccess_keeps (h num rd : Nat) (op : CsrOp) (v : Nat) {s : State} (hk : Keeps b0 s) : Keeps b0 (csrAccess h num
    rd op v s) := by
  unfold csrAccess
  try dsimp only
  repeat' first
    | with_reducible first
      | intro _ | assumption | apply raiseTrap_keeps | apply csrDo_keeps | apply garouxOld_keeps | apply csrPut_keeps
      | apply csrRefuse_keeps | apply stdCsrOld_keeps | apply stdCsrPut_keeps | apply keeps_ite
      | simp only [keeps_mk_iff] | refine keeps_snd (by assumption) ?_ | split | dsimp only

theorem unsupported_keeps (sub rid : Nat) (read : Bool) {s : State} (hk : Keeps b0 s) : Keeps b0 (unsupported sub rid read
    s) := by
  unfold unsupported
  try dsimp only
  repeat' first
    | with_reducible first
      | intro _ | assumption | apply raiseEvent_keeps | apply send_keeps | apply keeps_ite | simp only [keeps_mk_iff]
      | split | dsimp only
    | exact rfl

theorem msiEffect_keeps (sub rid a : Nat) (d : List Byte) {s : State} (hk : Keeps b0 s) : Keeps b0 (msiEffect sub rid a d
    s) := by
  unfold msiEffect
  try dsimp only
  repeat' first
    | with_reducible first
      | intro _ | assumption | apply pend_keeps | apply unsupported_keeps | apply keeps_ite | simp only [keeps_mk_iff]
      | refine keeps_snd (by assumption) ?_ | split | dsimp only

theorem p2pEffect_keeps (sub rid a : Nat) (write : Bool) (d : List Byte) {s : State} (hk : Keeps b0 s) : Keeps b0
    (p2pEffect sub rid a write d s) := by
  unfold p2pEffect
  try dsimp only
  repeat' first
    | with_reducible first
      | intro _ | assumption | apply send_keeps | apply unsupported_keeps | apply keeps_ite | simp only [keeps_mk_iff]
      | refine keeps_snd (by assumption) ?_ | split | dsimp only

theorem inboundReadAt_keeps (r : Requester) (t n : Nat) {s : State} (hk : Keeps b0 s) : Keeps b0 (inboundReadAt r t n s)
    := by
  unfold inboundReadAt
  try dsimp only
  repeat' first
    | with_reducible first
      | intro _ | assumption | apply holdRead_keeps | apply queueOrServe_keeps | apply serveRead_keeps
      | apply readOrHold_keeps | apply keeps_ite | simp only [keeps_mk_iff] | refine keeps_snd (by assumption) ?_
      | split | dsimp only

theorem inboundReadEffect_keeps (sub rid a n : Nat) {s : State} (hk : Keeps b0 s) : Keeps b0 (inboundReadEffect sub rid a
    n s) := by
  unfold inboundReadEffect
  try dsimp only
  repeat' first
    | with_reducible first
      | intro _ | assumption | apply unsupported_keeps | apply inboundReadAt_keeps | apply charge_keeps
      | apply keeps_getD | apply keeps_ite | simp only [keeps_mk_iff] | refine keeps_snd (by assumption) ?_ | split
      | dsimp only

theorem inboundWriteAt_keeps (r : Requester) (t : Nat) (d : List Byte) {s : State} (hk : Keeps b0 s) : Keeps b0
    (inboundWriteAt r t d s) := by
  unfold inboundWriteAt
  try dsimp only
  repeat' first
    | with_reducible first
      | intro _ | assumption | apply queueOrServe_keeps | apply dirWrite_keeps | apply keeps_foldl
      | apply keeps_foldl_snd | apply keeps_ite | simp only [keeps_mk_iff] | refine keeps_snd (by assumption) ?_ | split
      | dsimp only

theorem inboundWriteEffect_keeps (sub rid a : Nat) (d : List Byte) {s : State} (hk : Keeps b0 s) : Keeps b0
    (inboundWriteEffect sub rid a d s) := by
  unfold inboundWriteEffect
  try dsimp only
  repeat' first
    | with_reducible first
      | intro _ | assumption | apply refuseProtected_keeps | apply inboundWriteAt_keeps | apply charge_keeps
      | apply unsupported_keeps | apply keeps_getD | apply keeps_ite | simp only [keeps_mk_iff]
      | refine keeps_snd (by assumption) ?_ | split | dsimp only

theorem linkUpEffect_keeps (sub : Nat) {s : State} (hk : Keeps b0 s) : Keeps b0 (linkUpEffect sub s) := by
  unfold linkUpEffect
  try dsimp only
  repeat' first
    | with_reducible first
      | intro _ | assumption | apply keeps_ite | simp only [keeps_mk_iff] | split | dsimp only

theorem linkDownEffect_keeps (sub : Nat) {s : State} (hk : Keeps b0 s) : Keeps b0 (linkDownEffect sub s) := by
  unfold linkDownEffect
  try dsimp only
  repeat' first
    | with_reducible first
      | intro _ | assumption | apply keeps_ite | simp only [keeps_mk_iff] | split | dsimp only

theorem remoteLoad_keeps (h rd pkg off n op : Nat) (signed : Bool) {s : State} (hk : Keeps b0 s) : Keeps b0 (remoteLoad h
    rd pkg off n op signed s) := by
  unfold remoteLoad
  try dsimp only
  repeat' first
    | with_reducible first
      | intro _ | assumption | apply sendReq_keeps | apply modHart_keeps | apply keeps_ite | simp only [keeps_mk_iff]
      | split | dsimp only

theorem pcieLoad_keeps (h rd p off n : Nat) (signed : Bool) {s : State} (hk : Keeps b0 s) : Keeps b0 (pcieLoad h rd p off
    n signed s) := by
  unfold pcieLoad
  try dsimp only
  repeat' first
    | with_reducible first
      | intro _ | assumption | apply send_keeps | apply modHart_keeps | apply wrX_keeps | apply keeps_ite
      | simp only [keeps_mk_iff] | split | dsimp only

theorem regsLoad_keeps (h rd off n : Nat) (signed : Bool) {s : State} (hk : Keeps b0 s) : Keeps b0 (regsLoad h rd off n
    signed s) := by
  unfold regsLoad
  try dsimp only
  repeat' first
    | with_reducible first
      | intro _ | assumption | apply rcClear_keeps | apply wrX_keeps | apply keeps_ite | simp only [keeps_mk_iff]
      | refine keeps_snd (by assumption) ?_ | split | dsimp only

theorem loadEffect_keeps (h rd a n : Nat) (signed : Bool) {s : State} (hk : Keeps b0 s) : Keeps b0 (loadEffect h rd a n
    signed s) := by
  unfold loadEffect
  try dsimp only
  repeat' first
    | with_reducible first
      | intro _ | assumption | apply hartAccess_keeps | apply regsLoad_keeps | apply raiseTrap_keeps | apply wrX_keeps
      | apply pcieLoad_keeps | apply remoteLoad_keeps | apply keeps_ite | simp only [keeps_mk_iff]
      | refine keeps_snd (by assumption) ?_ | split | dsimp only

theorem umrStore_keeps (h a u : Nat) (direct : Bool) (d : List Byte) (rel : Option Scope) {s : State} (hk : Keeps b0 s) :
    Keeps b0 (umrStore h a u direct d rel s) := by
  unfold umrStore
  try dsimp only
  repeat' first
    | with_reducible first
      | intro _ | assumption | apply raiseTrap_keeps | apply raiseEvent_keeps | apply dirWrite_keeps
      | apply cohWrite_keeps | apply keeps_ite | simp only [keeps_mk_iff] | split | dsimp only
    | exact rfl

theorem pcieStore_keeps (p off : Nat) (d : List Byte) {s : State} (hk : Keeps b0 s) : Keeps b0 (pcieStore p off d s) := by
  unfold pcieStore
  try dsimp only
  repeat' first
    | with_reducible first
      | intro _ | assumption | apply send_keeps | apply keeps_ite | simp only [keeps_mk_iff] | split | dsimp only

theorem doorStore_keeps (h a q off n : Nat) (v : Word) {s : State} (hk : Keeps b0 s) : Keeps b0 (doorStore h a q off n v
    s) := by
  unfold doorStore
  try dsimp only
  repeat' first
    | with_reducible first
      | intro _ | assumption | apply raiseTrap_keeps | apply ringDoorbell_keeps | apply discardDoorbell_keeps
      | apply keeps_ite | simp only [keeps_mk_iff] | split | dsimp only

theorem remoteStore_keeps (h a k o : Nat) (d : List Byte) (rel : Option Scope) {s : State} (hk : Keeps b0 s) : Keeps b0
    (remoteStore h a k o d rel s) := by
  unfold remoteStore
  try dsimp only
  repeat' first
    | with_reducible first
      | intro _ | assumption | apply umrStore_keeps | apply remoteWrite_keeps | apply raiseTrap_keeps | apply keeps_ite
      | simp only [keeps_mk_iff] | refine keeps_snd (by assumption) ?_ | split | dsimp only

theorem storeEffect_keeps (h a n : Nat) (v : Word) {s : State} (hk : Keeps b0 s) : Keeps b0 (storeEffect h a n v s) := by
  unfold storeEffect
  try dsimp only
  repeat' first
    | with_reducible first
      | intro _ | assumption | apply umrStore_keeps | apply regStore_keeps | apply raiseTrap_keeps
      | apply doorStore_keeps | apply pcieStore_keeps | apply remoteStore_keeps | apply keeps_ite
      | simp only [keeps_mk_iff] | refine keeps_snd (by assumption) ?_ | split | dsimp only

theorem scopedLoad_keeps (h rd a n : Nat) (sc : Scope) {s : State} (hk : Keeps b0 s) : Keeps b0 (scopedLoad h rd a n sc s)
    := by
  unfold scopedLoad
  try dsimp only
  repeat' first
    | with_reducible first
      | intro _ | assumption | apply raiseTrap_keeps | apply hartAccess_keeps | apply remoteLoad_keeps | apply keeps_ite
      | simp only [keeps_mk_iff] | refine keeps_snd (by assumption) ?_ | split | dsimp only

theorem scldEffect_keeps (h : Nat) (insn : BitVec 32) {s : State} (hk : Keeps b0 s) : Keeps b0 (scldEffect h insn s) := by
  unfold scldEffect
  try dsimp only
  repeat' first
    | with_reducible first
      | intro _ | assumption | apply raiseTrap_keeps | apply scopedLoad_keeps | apply keeps_ite
      | simp only [keeps_mk_iff] | refine keeps_snd (by assumption) ?_ | split | dsimp only

theorem scopedStore_keeps (h a n : Nat) (v : Word) (sc : Scope) {s : State} (hk : Keeps b0 s) : Keeps b0 (scopedStore h a
    n v sc s) := by
  unfold scopedStore
  try dsimp only
  repeat' first
    | with_reducible first
      | intro _ | assumption | apply raiseTrap_keeps | apply umrStore_keeps | apply remoteStore_keeps | apply keeps_ite
      | simp only [keeps_mk_iff] | refine keeps_snd (by assumption) ?_ | split | dsimp only

theorem scstEffect_keeps (h : Nat) (insn : BitVec 32) {s : State} (hk : Keeps b0 s) : Keeps b0 (scstEffect h insn s) := by
  unfold scstEffect
  try dsimp only
  repeat' first
    | with_reducible first
      | intro _ | assumption | apply raiseTrap_keeps | apply scopedStore_keeps | apply keeps_ite
      | simp only [keeps_mk_iff] | refine keeps_snd (by assumption) ?_ | split | dsimp only

theorem scfenceEffect_keeps (h : Nat) (insn : BitVec 32) {s : State} (hk : Keeps b0 s) : Keeps b0 (scfenceEffect h insn s)
    := by
  unfold scfenceEffect
  try dsimp only
  repeat' first
    | with_reducible first
      | intro _ | assumption | apply raiseTrap_keeps | apply keeps_ite | simp only [keeps_mk_iff]
      | refine keeps_snd (by assumption) ?_ | split | dsimp only

theorem qsubmitEffect_keeps (h : Nat) (insn : BitVec 32) {s : State} (hk : Keeps b0 s) : Keeps b0 (qsubmitEffect h insn s)
    := by
  unfold qsubmitEffect
  try dsimp only
  repeat' first
    | with_reducible first
      | intro _ | assumption | apply raiseTrap_keeps | apply ringDoorbell_keeps | apply keeps_ite
      | simp only [keeps_mk_iff] | refine keeps_snd (by assumption) ?_ | split | dsimp only

theorem cboRow_keeps (h a : Nat) (on : Nat → Bool) (run : Nat → State → State) {s : State} (h0 : ∀ l s, Keeps b0 s → Keeps
    b0 (run l s)) (hk : Keeps b0 s) : Keeps b0 (cboRow h a on run s) := by
  unfold cboRow
  try dsimp only
  repeat' first
    | with_reducible first
      | intro _ | assumption | apply h0 | apply raiseTrap_keeps | apply settleLine_keeps | apply keeps_ite
      | simp only [keeps_mk_iff] | refine keeps_snd (by assumption) ?_ | split | dsimp only

theorem zeroBlock_keeps (h a l : Nat) {s : State} (hk : Keeps b0 s) : Keeps b0 (zeroBlock h a l s) := by
  unfold zeroBlock
  try dsimp only
  repeat' first
    | with_reducible first
      | intro _ | assumption | apply umrStore_keeps | apply keeps_ite | simp only [keeps_mk_iff] | split | dsimp only

theorem atomicRow_keeps (h a n : Nat) (store : Bool) (op : State → HartOp) {s : State} (hk : Keeps b0 s) : Keeps b0
    (atomicRow h a n store op s) := by
  unfold atomicRow
  try dsimp only
  repeat' first
    | with_reducible first
      | intro _ | assumption | apply raiseTrap_keeps | apply raiseEvent_keeps | apply hartAccess_keeps | apply keeps_ite
      | simp only [keeps_mk_iff] | refine keeps_snd (by assumption) ?_ | split | dsimp only
    | exact rfl

theorem amoEffect_keeps (h : Nat) (o : AmoOp) (rd rs2 a n : Nat) (aq rl : Bool) {s : State} (hk : Keeps b0 s) : Keeps b0
    (amoEffect h o rd rs2 a n aq rl s) := by
  unfold amoEffect
  try dsimp only
  repeat' first
    | with_reducible first
      | intro _ | assumption | apply atomicRow_keeps | apply keeps_ite | simp only [keeps_mk_iff] | split | dsimp only

theorem lrEffect_keeps (h rd a n : Nat) (aq : Bool) {s : State} (hk : Keeps b0 s) : Keeps b0 (lrEffect h rd a n aq s) :=
    by
  unfold lrEffect
  try dsimp only
  repeat' first
    | with_reducible first
      | intro _ | assumption | apply atomicRow_keeps | apply keeps_ite | simp only [keeps_mk_iff] | split | dsimp only

theorem scEffect_keeps (h rd rs2 a n : Nat) (aq rl : Bool) {s : State} (hk : Keeps b0 s) : Keeps b0 (scEffect h rd rs2 a n
    aq rl s) := by
  unfold scEffect
  try dsimp only
  repeat' first
    | with_reducible first
      | intro _ | assumption | apply atomicRow_keeps | apply keeps_ite | simp only [keeps_mk_iff] | split | dsimp only

theorem pcieCompletionEffect_keeps (h : Nat) (ok : Bool) (v : Word) {s : State} (hk : Keeps b0 s) : Keeps b0
    (pcieCompletionEffect h ok v s) := by
  unfold pcieCompletionEffect
  try dsimp only
  repeat' first
    | with_reducible first
      | intro _ | assumption | apply wrX_keeps | apply modHart_keeps | apply keeps_ite | simp only [keeps_mk_iff]
      | refine keeps_snd (by assumption) ?_ | split | dsimp only

theorem registerWriteEffect_keeps (h : Nat) (tgt : RegTarget) (v : Word) {s : State} (hk : Keeps b0 s) : Keeps b0
    (registerWriteEffect h tgt v s) := by
  unfold registerWriteEffect
  try dsimp only
  repeat' first
    | with_reducible first
      | intro _ | assumption | apply regStore_keeps | apply raiseTrap_keeps | apply csrAccess_keeps | apply keeps_ite
      | simp only [keeps_mk_iff] | refine keeps_snd (by assumption) ?_ | split | dsimp only

theorem insRun_keeps (i : Instr) {s : State} (hk : Keeps b0 s) : Keeps b0 (insRun i s) := by
  unfold insRun
  try dsimp only
  repeat' first
    | with_reducible first
      | intro _ | assumption | apply registerWriteEffect_keeps | apply loadEffect_keeps | apply storeEffect_keeps
      | apply scldEffect_keeps | apply scstEffect_keeps | apply scfenceEffect_keeps | apply qsubmitEffect_keeps
      | apply cboRow_keeps | apply recallLine_keeps | apply invalidateLine_keeps | apply zeroBlock_keeps
      | apply amoEffect_keeps | apply lrEffect_keeps | apply scEffect_keeps | apply qtimeEffect_keeps
      | apply ipiRow_keeps | apply sipiWriteEffect_keeps | apply mipiWriteEffect_keeps | apply rfRow_keeps
      | apply keeps_ite | simp only [keeps_mk_iff] | refine keeps_snd (by assumption) ?_ | split | dsimp only

theorem issueWaiting_keeps (h n : Nat) {s : State} (hk : Keeps b0 s) : Keeps b0 (issueWaiting h n s) := by
  induction n generalizing s with
  | zero => exact hk
  | succ n ih =>
    unfold issueWaiting
    split
    · split
      · exact ih (insRun_keeps _ (modHart_keeps _ _ hk))
      · exact hk
    · exact hk

theorem issueIns_keeps (h : Nat) (i : Instr) {s : State} (hk : Keeps b0 s) : Keeps b0 (issueIns h i s) := by
  unfold issueIns
  try dsimp only
  repeat' first
    | with_reducible first
      | intro _ | assumption | apply issueWaiting_keeps | apply insRun_keeps | apply modHart_keeps | apply keeps_ite
      | simp only [keeps_mk_iff] | split | dsimp only

theorem idle_keeps {s : State} (hk : Keeps b0 s) : Keeps b0 (idle s) := by
  unfold idle
  try dsimp only
  repeat' first
    | with_reducible first
      | intro _ | assumption | apply retryReq_keeps | apply tick_keeps | apply drainSource_keeps
      | apply issueWaiting_keeps | apply keeps_foldl | apply keeps_foldl_snd | apply keeps_ite
      | simp only [keeps_mk_iff] | split | dsimp only

theorem i3cAddressEffect_keeps (hd a : Nat) {s : State} (hk : Keeps b0 s) : Keeps b0 (i3cAddressEffect hd a s) := by
  unfold i3cAddressEffect
  try dsimp only
  repeat' first
    | with_reducible first
      | intro _ | assumption | apply setMgmt_keeps | apply keeps_ite | simp only [keeps_mk_iff] | split | dsimp only

theorem mctpEffect_keeps (hd : Nat) (msg : List Byte) {s : State} (hk : Keeps b0 s) : Keeps b0 (mctpEffect hd msg s) := by
  unfold mctpEffect
  try dsimp only
  repeat' first
    | with_reducible first
      | intro _ | assumption | apply setMgmt_keeps | apply send_keeps | apply keeps_ite | simp only [keeps_mk_iff]
      | refine keeps_snd (by assumption) ?_ | split | dsimp only

theorem pldmEffect_keeps (hd k : Nat) {s : State} (hk : Keeps b0 s) : Keeps b0 (pldmEffect hd k s) := by
  unfold pldmEffect
  try dsimp only
  repeat' first
    | with_reducible first
      | intro _ | assumption | apply send_keeps | apply keeps_ite | simp only [keeps_mk_iff] | split | dsimp only

theorem spdmSend_keeps (hd code : Nat) (content : Option (List Byte)) (m : Mgmt) {s : State} (hk : Keeps b0 s) : Keeps b0
    (spdmSend hd code content m s) := by
  unfold spdmSend
  try dsimp only
  repeat' first
    | with_reducible first
      | intro _ | assumption | apply send_keeps | apply setMgmt_keeps | apply keeps_ite | simp only [keeps_mk_iff]
      | split | dsimp only

theorem spdmStage_keeps (hd code stage : Nat) (content : Option (List Byte)) (f : Mgmt → Mgmt) {s : State} (hk : Keeps b0
    s) : Keeps b0 (spdmStage hd code stage content f s) := by
  unfold spdmStage
  try dsimp only
  repeat' first
    | with_reducible first
      | intro _ | assumption | apply spdmSend_keeps | apply send_keeps | apply keeps_ite | simp only [keeps_mk_iff]
      | split | dsimp only

theorem getVersionEffect_keeps (hd : Nat) (msg : List Byte) {s : State} (hk : Keeps b0 s) : Keeps b0 (getVersionEffect hd
    msg s) := by
  unfold getVersionEffect
  try dsimp only
  repeat' first
    | with_reducible first
      | intro _ | assumption | apply spdmStage_keeps | apply keeps_ite | simp only [keeps_mk_iff] | split | dsimp only

theorem getCapabilitiesEffect_keeps (hd : Nat) (msg : List Byte) {s : State} (hk : Keeps b0 s) : Keeps b0
    (getCapabilitiesEffect hd msg s) := by
  unfold getCapabilitiesEffect
  try dsimp only
  repeat' first
    | with_reducible first
      | intro _ | assumption | apply spdmStage_keeps | apply keeps_ite | simp only [keeps_mk_iff] | split | dsimp only

theorem negotiateEffect_keeps (hd : Nat) (msg : List Byte) {s : State} (hk : Keeps b0 s) : Keeps b0 (negotiateEffect hd
    msg s) := by
  unfold negotiateEffect
  try dsimp only
  repeat' first
    | with_reducible first
      | intro _ | assumption | apply spdmStage_keeps | apply keeps_ite | simp only [keeps_mk_iff] | split | dsimp only

theorem getDigestsEffect_keeps (hd : Nat) (msg : List Byte) {s : State} (hk : Keeps b0 s) : Keeps b0 (getDigestsEffect hd
    msg s) := by
  unfold getDigestsEffect
  try dsimp only
  repeat' first
    | with_reducible first
      | intro _ | assumption | apply spdmStage_keeps | apply keeps_ite | simp only [keeps_mk_iff]
      | refine keeps_snd (by assumption) ?_ | split | dsimp only

theorem getCertificateEffect_keeps (hd slot off len : Nat) {s : State} (hk : Keeps b0 s) : Keeps b0 (getCertificateEffect
    hd slot off len s) := by
  unfold getCertificateEffect
  try dsimp only
  repeat' first
    | with_reducible first
      | intro _ | assumption | apply spdmStage_keeps | apply keeps_ite | simp only [keeps_mk_iff] | split | dsimp only

theorem signing_keeps (hd : Nat) {s : State} (hk : Keeps b0 s) : Keeps b0 (signing hd s) := by
  unfold signing
  try dsimp only
  repeat' first
    | with_reducible first
      | intro _ | assumption | apply readVault_keeps | apply keeps_ite | simp only [keeps_mk_iff] | split | dsimp only

theorem challengeEffect_keeps (hd slot : Nat) (nonce : List Byte) {s : State} (hk : Keeps b0 s) : Keeps b0
    (challengeEffect hd slot nonce s) := by
  unfold challengeEffect
  try dsimp only
  repeat' first
    | with_reducible first
      | intro _ | assumption | apply signing_keeps | apply spdmStage_keeps | apply keeps_ite | simp only [keeps_mk_iff]
      | split | dsimp only

theorem getMeasurementsEffect_keeps (hd i : Nat) (nonce : List Byte) {s : State} (hk : Keeps b0 s) : Keeps b0
    (getMeasurementsEffect hd i nonce s) := by
  unfold getMeasurementsEffect
  try dsimp only
  repeat' first
    | with_reducible first
      | intro _ | assumption | apply signing_keeps | apply spdmStage_keeps | apply keeps_ite | simp only [keeps_mk_iff]
      | refine keeps_snd (by assumption) ?_ | split | dsimp only

theorem keyExchangeEffect_keeps (hd slot : Nat) (msg : List Byte) {s : State} (hk : Keeps b0 s) : Keeps b0
    (keyExchangeEffect hd slot msg s) := by
  unfold keyExchangeEffect
  try dsimp only
  repeat' first
    | with_reducible first
      | intro _ | assumption | apply signing_keeps | apply spdmStage_keeps | apply keeps_ite | simp only [keeps_mk_iff]
      | refine keeps_snd (by assumption) ?_ | split | dsimp only

theorem finishEffect_keeps (hd : Nat) (msg : List Byte) {s : State} (hk : Keeps b0 s) : Keeps b0 (finishEffect hd msg s)
    := by
  unfold finishEffect
  try dsimp only
  repeat' first
    | with_reducible first
      | intro _ | assumption | apply draw_keeps | apply spdmSend_keeps | apply send_keeps | apply keeps_ite
      | simp only [keeps_mk_iff] | refine keeps_snd (by assumption) ?_ | split | dsimp only

theorem endSessionEffect_keeps (hd : Nat) {s : State} (hk : Keeps b0 s) : Keeps b0 (endSessionEffect hd s) := by
  unfold endSessionEffect
  try dsimp only
  repeat' first
    | with_reducible first
      | intro _ | assumption | apply spdmSend_keeps | apply send_keeps | apply keeps_ite | simp only [keeps_mk_iff]
      | split | dsimp only

theorem uartEffect_keeps (hd : Nat) (c : Byte) {s : State} (hk : Keeps b0 s) : Keeps b0 (uartEffect hd c s) := by
  unfold uartEffect
  try dsimp only
  repeat' first
    | with_reducible first
      | intro _ | assumption | apply setMgmt_keeps | apply keeps_ite | simp only [keeps_mk_iff] | split | dsimp only

theorem tapEffect_keeps (code : Nat) {s : State} (hk : Keeps b0 s) : Keeps b0 (tapEffect code s) := by
  unfold tapEffect
  try dsimp only
  repeat' first
    | with_reducible first
      | intro _ | assumption | apply send_keeps | apply draw_keeps | apply keeps_ite | simp only [keeps_mk_iff]
      | refine keeps_snd (by assumption) ?_ | split | dsimp only

end Sys2Proof.Machine
end

