-- ==== Sys2Proof/Laws/KeepsCommands.lean ====
section
/-! SUPPORT. What Laws/Keeps.lean says, of each command. -/

set_option maxRecDepth 20000
set_option linter.unusedTactic false
set_option linter.unreachableTactic false
set_option linter.unusedVariables false
set_option linter.unusedSimpArgs false

namespace Sys2Proof.Machine

variable {b0 : State}

theorem execNop_keeps {t : Nat} {w : Word} {s : State} {t_ : State} (e_ : execNop t w s = .next t_) (hk : Keeps b0 s) :
    Keeps b0 t_ := by
  refine onWf_keeps e_ ?_
  repeat' first
    | with_reducible first
      | intro _ | assumption | apply vecRow_keeps | apply keeps_ite | simp only [keeps_mk_iff] | split | dsimp only

theorem execVadd_keeps {t : Nat} {w : Word} {s : State} {t_ : State} (e_ : execVadd t w s = .next t_) (hk : Keeps b0 s) :
    Keeps b0 t_ := by
  refine onWf_keeps e_ ?_
  repeat' first
    | with_reducible first
      | intro _ | assumption | apply vecRow_keeps | apply keeps_ite | simp only [keeps_mk_iff] | split | dsimp only

theorem execVmul_keeps {t : Nat} {w : Word} {s : State} {t_ : State} (e_ : execVmul t w s = .next t_) (hk : Keeps b0 s) :
    Keeps b0 t_ := by
  refine onWf_keeps e_ ?_
  repeat' first
    | with_reducible first
      | intro _ | assumption | apply vecRow_keeps | apply keeps_ite | simp only [keeps_mk_iff] | split | dsimp only

theorem execVfma_keeps {t : Nat} {w : Word} {s : State} {t_ : State} (e_ : execVfma t w s = .next t_) (hk : Keeps b0 s) :
    Keeps b0 t_ := by
  refine onWf_keeps e_ ?_
  repeat' first
    | with_reducible first
      | intro _ | assumption | apply vecRow_keeps | apply keeps_ite | simp only [keeps_mk_iff] | split | dsimp only

theorem execVmax_keeps {t : Nat} {w : Word} {s : State} {t_ : State} (e_ : execVmax t w s = .next t_) (hk : Keeps b0 s) :
    Keeps b0 t_ := by
  refine onWf_keeps e_ ?_
  repeat' first
    | with_reducible first
      | intro _ | assumption | apply vecRow_keeps | apply keeps_ite | simp only [keeps_mk_iff] | split | dsimp only

theorem execVmin_keeps {t : Nat} {w : Word} {s : State} {t_ : State} (e_ : execVmin t w s = .next t_) (hk : Keeps b0 s) :
    Keeps b0 t_ := by
  refine onWf_keeps e_ ?_
  repeat' first
    | with_reducible first
      | intro _ | assumption | apply vecRow_keeps | apply keeps_ite | simp only [keeps_mk_iff] | split | dsimp only

theorem execVsel_keeps {t : Nat} {w : Word} {s : State} {t_ : State} (e_ : execVsel t w s = .next t_) (hk : Keeps b0 s) :
    Keeps b0 t_ := by
  refine onWf_keeps e_ ?_
  repeat' first
    | with_reducible first
      | intro _ | assumption | apply vecRow_keeps | apply keeps_ite | simp only [keeps_mk_iff] | split | dsimp only

theorem execVcmp_keeps {t : Nat} {w : Word} {s : State} {t_ : State} (e_ : execVcmp t w s = .next t_) (hk : Keeps b0 s) :
    Keeps b0 t_ := by
  refine onWf_keeps e_ ?_
  repeat' first
    | with_reducible first
      | intro _ | assumption | apply vecRow_keeps | apply keeps_ite | simp only [keeps_mk_iff] | split | dsimp only

theorem execVsign_keeps {t : Nat} {w : Word} {s : State} {t_ : State} (e_ : execVsign t w s = .next t_) (hk : Keeps b0 s)
    : Keeps b0 t_ := by
  refine onWf_keeps e_ ?_
  repeat' first
    | with_reducible first
      | intro _ | assumption | apply vecRow_keeps | apply keeps_ite | simp only [keeps_mk_iff] | split | dsimp only

theorem execVexp_keeps {t : Nat} {w : Word} {s : State} {t_ : State} (e_ : execVexp t w s = .next t_) (hk : Keeps b0 s) :
    Keeps b0 t_ := by
  refine onWf_keeps e_ ?_
  repeat' first
    | with_reducible first
      | intro _ | assumption | apply vecRow_keeps | apply keeps_ite | simp only [keeps_mk_iff] | split | dsimp only

theorem execVlog_keeps {t : Nat} {w : Word} {s : State} {t_ : State} (e_ : execVlog t w s = .next t_) (hk : Keeps b0 s) :
    Keeps b0 t_ := by
  refine onWf_keeps e_ ?_
  repeat' first
    | with_reducible first
      | intro _ | assumption | apply vecRow_keeps | apply keeps_ite | simp only [keeps_mk_iff] | split | dsimp only

theorem execVrsqrt_keeps {t : Nat} {w : Word} {s : State} {t_ : State} (e_ : execVrsqrt t w s = .next t_) (hk : Keeps b0
    s) : Keeps b0 t_ := by
  refine onWf_keeps e_ ?_
  repeat' first
    | with_reducible first
      | intro _ | assumption | apply vecRow_keeps | apply keeps_ite | simp only [keeps_mk_iff] | split | dsimp only

theorem execVcvt_keeps {t : Nat} {w : Word} {s : State} {t_ : State} (e_ : execVcvt t w s = .next t_) (hk : Keeps b0 s) :
    Keeps b0 t_ := by
  refine onWf_keeps e_ ?_
  repeat' first
    | with_reducible first
      | intro _ | assumption | apply vecRow_keeps | apply keeps_ite | simp only [keeps_mk_iff] | split | dsimp only

theorem execVcvta_keeps {t : Nat} {w : Word} {s : State} {t_ : State} (e_ : execVcvta t w s = .next t_) (hk : Keeps b0 s)
    : Keeps b0 t_ := by
  refine onWf_keeps e_ ?_
  repeat' first
    | with_reducible first
      | intro _ | assumption | apply vecRow_keeps | apply keeps_ite | simp only [keeps_mk_iff] | split | dsimp only

theorem execVa128add_keeps {t : Nat} {w : Word} {s : State} {t_ : State} (e_ : execVa128add t w s = .next t_) (hk : Keeps
    b0 s) : Keeps b0 t_ := by
  refine onWf_keeps e_ ?_
  repeat' first
    | with_reducible first
      | intro _ | assumption | apply vecRow_keeps | apply keeps_ite | simp only [keeps_mk_iff] | split | dsimp only

theorem execVa128rsum_keeps {t : Nat} {w : Word} {s : State} {t_ : State} (e_ : execVa128rsum t w s = .next t_) (hk :
    Keeps b0 s) : Keeps b0 t_ := by
  refine onWf_keeps e_ ?_
  repeat' first
    | with_reducible first
      | intro _ | assumption | apply vecRow_keeps | apply keeps_ite | simp only [keeps_mk_iff] | split | dsimp only

theorem execVreanchor_keeps {t : Nat} {w : Word} {s : State} {t_ : State} (e_ : execVreanchor t w s = .next t_) (hk :
    Keeps b0 s) : Keeps b0 t_ := by
  refine onWf_keeps e_ ?_
  repeat' first
    | with_reducible first
      | intro _ | assumption | apply vecRow_keeps | apply keeps_ite | simp only [keeps_mk_iff] | split | dsimp only

theorem execVa128drain_keeps {t : Nat} {w : Word} {s : State} {t_ : State} (e_ : execVa128drain t w s = .next t_) (hk :
    Keeps b0 s) : Keeps b0 t_ := by
  refine onWf_keeps e_ ?_
  repeat' first
    | with_reducible first
      | intro _ | assumption | apply vecRow_keeps | apply keeps_ite | simp only [keeps_mk_iff] | split | dsimp only

theorem execVld_keeps {t : Nat} {w : Word} {s : State} {t_ : State} (e_ : execVld t w s = .next t_) (hk : Keeps b0 s) :
    Keeps b0 t_ := by
  refine onWf_keeps e_ ?_
  repeat' first
    | with_reducible first
      | intro _ | assumption | apply vecRow_keeps | apply keeps_ite | simp only [keeps_mk_iff] | split | dsimp only

theorem execVst_keeps {t : Nat} {w : Word} {s : State} {t_ : State} (e_ : execVst t w s = .next t_) (hk : Keeps b0 s) :
    Keeps b0 t_ := by
  refine onWf_keeps e_ ?_
  repeat' first
    | with_reducible first
      | intro _ | assumption | apply vecRow_keeps | apply keeps_ite | simp only [keeps_mk_iff] | split | dsimp only

theorem execAset_keeps {t : Nat} {w : Word} {s : State} {t_ : State} (e_ : execAset t w s = .next t_) (hk : Keeps b0 s) :
    Keeps b0 t_ := by
  refine onWf_keeps e_ ?_
  repeat' first
    | with_reducible first
      | intro _ | assumption | apply vecRow_keeps | apply keeps_ite | simp only [keeps_mk_iff] | split | dsimp only

theorem execAadd_keeps {t : Nat} {w : Word} {s : State} {t_ : State} (e_ : execAadd t w s = .next t_) (hk : Keeps b0 s) :
    Keeps b0 t_ := by
  refine onWf_keeps e_ ?_
  repeat' first
    | with_reducible first
      | intro _ | assumption | apply vecRow_keeps | apply keeps_ite | simp only [keeps_mk_iff] | split | dsimp only

theorem execLoop_keeps {t : Nat} {w : Word} {s : State} {t_ : State} (e_ : execLoop t w s = .next t_) (hk : Keeps b0 s) :
    Keeps b0 t_ := by
  refine onWf_keeps e_ ?_
  repeat' first
    | with_reducible first
      | intro _ | assumption | apply vecRow_keeps | apply keeps_ite | simp only [keeps_mk_iff] | split | dsimp only

theorem execEndProg_keeps {t : Nat} {w : Word} {s : State} {t_ : State} (e_ : execEndProg t w s = .next t_) (hk : Keeps b0
    s) : Keeps b0 t_ := by
  refine onWf_keeps e_ ?_
  repeat' first
    | with_reducible first
      | intro _ | assumption | apply vecRow_keeps | apply keeps_ite | simp only [keeps_mk_iff] | split | dsimp only

theorem execCoherentRead_keeps {req : Requester} {addr len : Nat} {acq : Option Scope} {s : State} {t_ : State} (e_ :
    execCoherentRead req addr len acq s = .next t_) (hk : Keeps b0 s) : Keeps b0 t_ := by
  refine onWf_keeps e_ ?_
  repeat' first
    | with_reducible first
      | intro _ | assumption | apply coherentReadEffect_keeps | apply keeps_ite | simp only [keeps_mk_iff] | split
      | dsimp only

theorem execCoherentWrite_keeps {req : Requester} {addr : Nat} {data : List Byte} {rel : Option Scope} {s : State} {t_ :
    State} (e_ : execCoherentWrite req addr data rel s = .next t_) (hk : Keeps b0 s) : Keeps b0 t_ := by
  refine onWf_keeps e_ ?_
  repeat' first
    | with_reducible first
      | intro _ | assumption | apply coherentWriteEffect_keeps | apply keeps_ite | simp only [keeps_mk_iff] | split
      | dsimp only

theorem execDirectRead_keeps {req : Requester} {addr len : Nat} {acq : Bool} {s : State} {t_ : State} (e_ : execDirectRead
    req addr len acq s = .next t_) (hk : Keeps b0 s) : Keeps b0 t_ := by
  refine onWf_keeps e_ ?_
  repeat' first
    | with_reducible first
      | intro _ | assumption | apply directReadEffect_keeps | apply keeps_ite | simp only [keeps_mk_iff] | split
      | dsimp only

theorem execDirectWrite_keeps {req : Requester} {addr : Nat} {data : List Byte} {s : State} {t_ : State} (e_ :
    execDirectWrite req addr data s = .next t_) (hk : Keeps b0 s) : Keeps b0 t_ := by
  refine onWf_keeps e_ ?_
  repeat' first
    | with_reducible first
      | intro _ | assumption | apply directWriteEffect_keeps | apply keeps_ite | simp only [keeps_mk_iff] | split
      | dsimp only

theorem execDirectWriteDrain_keeps {home : Nat} {s : State} {t_ : State} (e_ : execDirectWriteDrain home s = .next t_) (hk
    : Keeps b0 s) : Keeps b0 t_ := by
  refine onWf_keeps e_ ?_
  repeat' first
    | with_reducible first
      | intro _ | assumption | apply directWriteDrainEffect_keeps | apply keeps_ite | simp only [keeps_mk_iff] | split
      | dsimp only

theorem execLineWriteback_keeps {cache line : Nat} {s : State} {t_ : State} (e_ : execLineWriteback cache line s = .next
    t_) (hk : Keeps b0 s) : Keeps b0 t_ := by
  refine onWf_keeps e_ ?_
  repeat' first
    | with_reducible first
      | intro _ | assumption | apply lineWritebackEffect_keeps | apply keeps_ite | simp only [keeps_mk_iff] | split
      | dsimp only

theorem execGrantHoldExpiry_keeps {line : Nat} {s : State} {t_ : State} (e_ : execGrantHoldExpiry line s = .next t_) (hk :
    Keeps b0 s) : Keeps b0 t_ := by
  refine onWf_keeps e_ ?_
  repeat' first
    | with_reducible first
      | intro _ | assumption | apply grantHoldExpiryEffect_keeps | apply keeps_ite | simp only [keeps_mk_iff] | split
      | dsimp only

theorem execSnoopAnswer_keeps {line : Nat} {s : State} {t_ : State} (e_ : execSnoopAnswer line s = .next t_) (hk : Keeps
    b0 s) : Keeps b0 t_ := by
  refine onWf_keeps e_ ?_
  repeat' first
    | with_reducible first
      | intro _ | assumption | apply snoopAnswerEffect_keeps | apply keeps_ite | simp only [keeps_mk_iff] | split
      | dsimp only

theorem execUpdateMarkerWrite_keeps {t : Nat} {s : State} {t_ : State} (e_ : execUpdateMarkerWrite t s = .next t_) (hk :
    Keeps b0 s) : Keeps b0 t_ := by
  refine onWf_keeps e_ ?_
  repeat' first
    | with_reducible first
      | intro _ | assumption | apply markerEffect_keeps | apply keeps_ite | simp only [keeps_mk_iff] | split
      | dsimp only

theorem execUpdatePhase2_keeps {t : Nat} {s : State} {t_ : State} (e_ : execUpdatePhase2 t s = .next t_) (hk : Keeps b0 s)
    : Keeps b0 t_ := by
  refine onWf_keeps e_ ?_
  repeat' first
    | with_reducible first
      | intro _ | assumption | apply phase2Effect_keeps | apply keeps_ite | simp only [keeps_mk_iff] | split
      | dsimp only

theorem execUpdateWriteback_keeps {t : Nat} {s : State} {t_ : State} (e_ : execUpdateWriteback t s = .next t_) (hk : Keeps
    b0 s) : Keeps b0 t_ := by
  refine onWf_keeps e_ ?_
  repeat' first
    | with_reducible first
      | intro _ | assumption | apply writebackEffect_keeps | apply keeps_ite | simp only [keeps_mk_iff] | split
      | dsimp only

theorem execRestartInstant_keeps {p : Nat} {s : State} {t_ : State} (e_ : execRestartInstant p s = .next t_) (hk : Keeps
    b0 s) : Keeps b0 t_ := by
  refine onWf_keeps e_ ?_
  repeat' first
    | with_reducible first
      | intro _ | assumption | apply restartEffect_keeps | apply keeps_ite | simp only [keeps_mk_iff] | split
      | dsimp only

theorem execCacheFill_keeps {die l : Nat} {s : State} {t_ : State} (e_ : execCacheFill die l s = .next t_) (hk : Keeps b0
    s) : Keeps b0 t_ := by
  refine onWf_keeps e_ ?_
  repeat' first
    | with_reducible first
      | intro _ | assumption | apply cacheFillEffect_keeps | apply keeps_ite | simp only [keeps_mk_iff] | split
      | dsimp only

theorem execDoorbell_keeps {q : Nat} {v : Word} {s : State} {t_ : State} (e_ : execDoorbell q v s = .next t_) (hk : Keeps
    b0 s) : Keeps b0 t_ := by
  refine onWf_keeps e_ ?_
  repeat' first
    | with_reducible first
      | intro _ | assumption | apply ringDoorbell_keeps | apply keeps_ite | simp only [keeps_mk_iff] | split
      | dsimp only

theorem execDescriptorReadReturn_keeps {q : Nat} {s : State} {t_ : State} (e_ : execDescriptorReadReturn q s = .next t_)
    (hk : Keeps b0 s) : Keeps b0 t_ := by
  refine onWf_keeps e_ ?_
  repeat' first
    | with_reducible first
      | intro _ | assumption | apply descriptorReturnEffect_keeps | apply keeps_ite | simp only [keeps_mk_iff] | split
      | dsimp only

theorem execDescriptorRepoll_keeps {q : Nat} {s : State} {t_ : State} (e_ : execDescriptorRepoll q s = .next t_) (hk :
    Keeps b0 s) : Keeps b0 t_ := by
  refine onWf_keeps e_ ?_
  repeat' first
    | with_reducible first
      | intro _ | assumption | apply repollEffect_keeps | apply keeps_ite | simp only [keeps_mk_iff] | split
      | dsimp only

theorem execQueueEnable_keeps {q : Nat} {acc : Acc} {v : Word} {s : State} {t_ : State} (e_ : execQueueEnable q acc v s =
    .next t_) (hk : Keeps b0 s) : Keeps b0 t_ := by
  refine onWf_keeps e_ ?_
  repeat' first
    | with_reducible first
      | intro _ | assumption | apply queueEnableEffect_keeps | apply keeps_ite | simp only [keeps_mk_iff] | split
      | dsimp only

theorem execQueueDisable_keeps {q : Nat} {acc : Acc} {v : Word} {s : State} {t_ : State} (e_ : execQueueDisable q acc v s
    = .next t_) (hk : Keeps b0 s) : Keeps b0 t_ := by
  refine onWf_keeps e_ ?_
  repeat' first
    | with_reducible first
      | intro _ | assumption | apply queueDisableEffect_keeps | apply keeps_ite | simp only [keeps_mk_iff] | split
      | dsimp only

theorem execRegionValidate_keeps {r : Nat} {acc : Acc} {v : Word} {s : State} {t_ : State} (e_ : execRegionValidate r acc
    v s = .next t_) (hk : Keeps b0 s) : Keeps b0 t_ := by
  refine onWf_keeps e_ ?_
  repeat' first
    | with_reducible first
      | intro _ | assumption | apply regionValidateEffect_keeps | apply keeps_ite | simp only [keeps_mk_iff] | split
      | dsimp only

theorem execRegionInvalidate_keeps {r : Nat} {acc : Acc} {v : Word} {s : State} {t_ : State} (e_ : execRegionInvalidate r
    acc v s = .next t_) (hk : Keeps b0 s) : Keeps b0 t_ := by
  refine onWf_keeps e_ ?_
  repeat' first
    | with_reducible first
      | intro _ | assumption | apply regionInvalidateEffect_keeps | apply keeps_ite | simp only [keeps_mk_iff] | split
      | dsimp only

theorem execNullAction_keeps {st : Nat} {s : State} {t_ : State} (e_ : execNullAction st s = .next t_) (hk : Keeps b0 s) :
    Keeps b0 t_ := by
  refine onWf_keeps e_ ?_
  repeat' first
    | with_reducible first
      | intro _ | assumption | apply nullEffect_keeps | apply keeps_ite | simp only [keeps_mk_iff] | split | dsimp only

theorem execActionComplete_keeps {st e : Nat} {s : State} {t_ : State} (e_ : execActionComplete st e s = .next t_) (hk :
    Keeps b0 s) : Keeps b0 t_ := by
  refine onWf_keeps e_ ?_
  repeat' first
    | with_reducible first
      | intro _ | assumption | apply actionCompleteEffect_keeps | apply keeps_ite | simp only [keeps_mk_iff] | split
      | dsimp only

theorem execGateVisible_keeps {st c : Nat} {s : State} {t_ : State} (e_ : execGateVisible st c s = .next t_) (hk : Keeps
    b0 s) : Keeps b0 t_ := by
  refine onWf_keeps e_ ?_
  repeat' first
    | with_reducible first
      | intro _ | assumption | apply makeVisible_keeps | apply keeps_ite | simp only [keeps_mk_iff] | split | dsimp only

theorem execT0Reached_keeps {p : Nat} {s : State} {t_ : State} (e_ : execT0Reached p s = .next t_) (hk : Keeps b0 s) :
    Keeps b0 t_ := by
  refine onWf_keeps e_ ?_
  repeat' first
    | with_reducible first
      | intro _ | assumption | apply t0Effect_keeps | apply keeps_ite | simp only [keeps_mk_iff] | split | dsimp only

theorem execSlotBind_keeps {p : Nat} {s : State} {t_ : State} (e_ : execSlotBind p s = .next t_) (hk : Keeps b0 s) : Keeps
    b0 t_ := by
  refine onWf_keeps e_ ?_
  repeat' first
    | with_reducible first
      | intro _ | assumption | apply slotBindEffect_keeps | apply keeps_ite | simp only [keeps_mk_iff] | split
      | dsimp only

theorem execSlotOpen_keeps {p : Nat} {s : State} {t_ : State} (e_ : execSlotOpen p s = .next t_) (hk : Keeps b0 s) : Keeps
    b0 t_ := by
  refine onWf_keeps e_ ?_
  repeat' first
    | with_reducible first
      | intro _ | assumption | apply slotOpenEffect_keeps | apply keeps_ite | simp only [keeps_mk_iff] | split
      | dsimp only

theorem execEpochLocalComplete_keeps {p : Nat} {s : State} {t_ : State} (e_ : execEpochLocalComplete p s = .next t_) (hk :
    Keeps b0 s) : Keeps b0 t_ := by
  refine onWf_keeps e_ ?_
  repeat' first
    | with_reducible first
      | intro _ | assumption | apply epochLocalCompleteEffect_keeps | apply keeps_ite | simp only [keeps_mk_iff] | split
      | dsimp only

theorem execHoldInstant_keeps {p : Nat} {s : State} {t_ : State} (e_ : execHoldInstant p s = .next t_) (hk : Keeps b0 s) :
    Keeps b0 t_ := by
  refine onWf_keeps e_ ?_
  repeat' first
    | with_reducible first
      | intro _ | assumption | apply holdInstantEffect_keeps | apply keeps_ite | simp only [keeps_mk_iff] | split
      | dsimp only

theorem execReplayInstant_keeps {p : Nat} {s : State} {t_ : State} (e_ : execReplayInstant p s = .next t_) (hk : Keeps b0
    s) : Keeps b0 t_ := by
  refine onWf_keeps e_ ?_
  repeat' first
    | with_reducible first
      | intro _ | assumption | apply replayInstantEffect_keeps | apply keeps_ite | simp only [keeps_mk_iff] | split
      | dsimp only

theorem execAbortInstant_keeps {p : Nat} {s : State} {t_ : State} (e_ : execAbortInstant p s = .next t_) (hk : Keeps b0 s)
    : Keeps b0 t_ := by
  refine onWf_keeps e_ ?_
  repeat' first
    | with_reducible first
      | intro _ | assumption | apply abortInstantEffect_keeps | apply keeps_ite | simp only [keeps_mk_iff] | split
      | dsimp only

theorem execHoldNotice_keeps {port : Nat} {n : Notice} {s : State} {t_ : State} (e_ : execHoldNotice port n s = .next t_)
    (hk : Keeps b0 s) : Keeps b0 t_ := by
  refine onWf_keeps e_ ?_
  repeat' first
    | with_reducible first
      | intro _ | assumption | apply holdNoticeEffect_keeps | apply keeps_ite | simp only [keeps_mk_iff] | split
      | dsimp only

theorem execReplayNotice_keeps {port : Nat} {n : Notice} {s : State} {t_ : State} (e_ : execReplayNotice port n s = .next
    t_) (hk : Keeps b0 s) : Keeps b0 t_ := by
  refine onWf_keeps e_ ?_
  repeat' first
    | with_reducible first
      | intro _ | assumption | apply replayNoticeEffect_keeps | apply keeps_ite | simp only [keeps_mk_iff] | split
      | dsimp only

theorem execAbortNotice_keeps {port : Nat} {n : Notice} {s : State} {t_ : State} (e_ : execAbortNotice port n s = .next
    t_) (hk : Keeps b0 s) : Keeps b0 t_ := by
  refine onWf_keeps e_ ?_
  repeat' first
    | with_reducible first
      | intro _ | assumption | apply abortNoticeEffect_keeps | apply keeps_ite | simp only [keeps_mk_iff] | split
      | dsimp only

theorem execDegradeNotice_keeps {port : Nat} {n : Notice} {s : State} {t_ : State} (e_ : execDegradeNotice port n s =
    .next t_) (hk : Keeps b0 s) : Keeps b0 t_ := by
  refine onWf_keeps e_ ?_
  repeat' first
    | with_reducible first
      | intro _ | assumption | apply degradeNoticeEffect_keeps | apply keeps_ite | simp only [keeps_mk_iff] | split
      | dsimp only

theorem execCommitNotice_keeps {port : Nat} {n : Notice} {s : State} {t_ : State} (e_ : execCommitNotice port n s = .next
    t_) (hk : Keeps b0 s) : Keeps b0 t_ := by
  refine onWf_keeps e_ ?_
  repeat' first
    | with_reducible first
      | intro _ | assumption | apply commitNoticeEffect_keeps | apply keeps_ite | simp only [keeps_mk_iff] | split
      | dsimp only

theorem execProbeNotice_keeps {port : Nat} {n : Notice} {s : State} {t_ : State} (e_ : execProbeNotice port n s = .next
    t_) (hk : Keeps b0 s) : Keeps b0 t_ := by
  refine onWf_keeps e_ ?_
  repeat' first
    | with_reducible first
      | intro _ | assumption | apply probeNoticeEffect_keeps | apply keeps_ite | simp only [keeps_mk_iff] | split
      | dsimp only

theorem execProbeSend_keeps {s : State} {t_ : State} (e_ : execProbeSend s = .next t_) (hk : Keeps b0 s) : Keeps b0 t_ :=
    by
  refine onWf_keeps e_ ?_
  repeat' first
    | with_reducible first
      | intro _ | assumption | apply probeSendEffect_keeps | apply keeps_ite | simp only [keeps_mk_iff] | split
      | dsimp only

theorem execTileWatchdog_keeps {st : Nat} {s : State} {t_ : State} (e_ : execTileWatchdog st s = .next t_) (hk : Keeps b0
    s) : Keeps b0 t_ := by
  refine onWf_keeps e_ ?_
  repeat' first
    | with_reducible first
      | intro _ | assumption | apply tileWatchdogEffect_keeps | apply keeps_ite | simp only [keeps_mk_iff] | split
      | dsimp only

theorem execUnitWatchdog_keeps {st : Nat} {s : State} {t_ : State} (e_ : execUnitWatchdog st s = .next t_) (hk : Keeps b0
    s) : Keeps b0 t_ := by
  refine onWf_keeps e_ ?_
  repeat' first
    | with_reducible first
      | intro _ | assumption | apply unitWatchdogEffect_keeps | apply keeps_ite | simp only [keeps_mk_iff] | split
      | dsimp only

theorem execCollectivePacket_keeps {p : CollPacket} {s : State} {t_ : State} (e_ : execCollectivePacket p s = .next t_)
    (hk : Keeps b0 s) : Keeps b0 t_ := by
  refine onWf_keeps e_ ?_
  repeat' first
    | with_reducible first
      | intro _ | assumption | apply packetEffect_keeps | apply keeps_ite | simp only [keeps_mk_iff] | split
      | dsimp only

theorem execLatenessReport_keeps {st : Nat} {s : State} {t_ : State} (e_ : execLatenessReport st s = .next t_) (hk : Keeps
    b0 s) : Keeps b0 t_ := by
  refine onWf_keeps e_ ?_
  repeat' first
    | with_reducible first
      | intro _ | assumption | apply latenessEffect_keeps | apply keeps_ite | simp only [keeps_mk_iff] | split
      | dsimp only

theorem execCubeOperation_keeps {st : Nat} {s : State} {t_ : State} (e_ : execCubeOperation st s = .next t_) (hk : Keeps
    b0 s) : Keeps b0 t_ := by
  refine onWf_keeps e_ ?_
  repeat' first
    | with_reducible first
      | intro _ | assumption | apply cubeEffect_keeps | apply keeps_ite | simp only [keeps_mk_iff] | split | dsimp only

theorem execVectorProgram_keeps {st : Nat} {s : State} {t_ : State} (e_ : execVectorProgram st s = .next t_) (hk : Keeps
    b0 s) : Keeps b0 t_ := by
  refine onWf_keeps e_ ?_
  repeat' first
    | with_reducible first
      | intro _ | assumption | apply vectorEffect_keeps | apply keeps_ite | simp only [keeps_mk_iff] | split
      | dsimp only

theorem execUpdateProgram_keeps {st : Nat} {s : State} {t_ : State} (e_ : execUpdateProgram st s = .next t_) (hk : Keeps
    b0 s) : Keeps b0 t_ := by
  refine onWf_keeps e_ ?_
  repeat' first
    | with_reducible first
      | intro _ | assumption | apply updateEffect_keeps | apply keeps_ite | simp only [keeps_mk_iff] | split
      | dsimp only

theorem execBankGrant_keeps {st : Nat} {s : State} {t_ : State} (e_ : execBankGrant st s = .next t_) (hk : Keeps b0 s) :
    Keeps b0 t_ := by
  refine onWf_keeps e_ ?_
  repeat' first
    | with_reducible first
      | intro _ | assumption | apply grantEffect_keeps | apply keeps_ite | simp only [keeps_mk_iff] | split | dsimp only

theorem execAllReduce_keeps {st : Nat} {s : State} {t_ : State} (e_ : execAllReduce st s = .next t_) (hk : Keeps b0 s) :
    Keeps b0 t_ := by
  refine onWf_keeps e_ ?_
  repeat' first
    | with_reducible first
      | intro _ | assumption | apply collEffect_keeps | apply keeps_ite | simp only [keeps_mk_iff] | split | dsimp only

theorem execReduceScatter_keeps {st : Nat} {s : State} {t_ : State} (e_ : execReduceScatter st s = .next t_) (hk : Keeps
    b0 s) : Keeps b0 t_ := by
  refine onWf_keeps e_ ?_
  repeat' first
    | with_reducible first
      | intro _ | assumption | apply collEffect_keeps | apply keeps_ite | simp only [keeps_mk_iff] | split | dsimp only

theorem execAllGather_keeps {st : Nat} {s : State} {t_ : State} (e_ : execAllGather st s = .next t_) (hk : Keeps b0 s) :
    Keeps b0 t_ := by
  refine onWf_keeps e_ ?_
  repeat' first
    | with_reducible first
      | intro _ | assumption | apply collEffect_keeps | apply keeps_ite | simp only [keeps_mk_iff] | split | dsimp only

theorem execGradientAllReduce_keeps {st : Nat} {s : State} {t_ : State} (e_ : execGradientAllReduce st s = .next t_) (hk :
    Keeps b0 s) : Keeps b0 t_ := by
  refine onWf_keeps e_ ?_
  repeat' first
    | with_reducible first
      | intro _ | assumption | apply collEffect_keeps | apply keeps_ite | simp only [keeps_mk_iff] | split | dsimp only

theorem execBarrier_keeps {st : Nat} {s : State} {t_ : State} (e_ : execBarrier st s = .next t_) (hk : Keeps b0 s) : Keeps
    b0 t_ := by
  refine onWf_keeps e_ ?_
  repeat' first
    | with_reducible first
      | intro _ | assumption | apply collEffect_keeps | apply keeps_ite | simp only [keeps_mk_iff] | split | dsimp only

theorem execCopy_keeps {w : DrayWork} {s : State} {t_ : State} (e_ : execCopy w s = .next t_) (hk : Keeps b0 s) : Keeps b0
    t_ := by
  refine onWf_keeps e_ ?_
  repeat' first
    | with_reducible first
      | intro _ | assumption | apply drayEffect_keeps | apply keeps_ite | simp only [keeps_mk_iff] | split | dsimp only

theorem execGather_keeps {w : DrayWork} {s : State} {t_ : State} (e_ : execGather w s = .next t_) (hk : Keeps b0 s) :
    Keeps b0 t_ := by
  refine onWf_keeps e_ ?_
  repeat' first
    | with_reducible first
      | intro _ | assumption | apply drayEffect_keeps | apply keeps_ite | simp only [keeps_mk_iff] | split | dsimp only

theorem execScatter_keeps {w : DrayWork} {s : State} {t_ : State} (e_ : execScatter w s = .next t_) (hk : Keeps b0 s) :
    Keeps b0 t_ := by
  refine onWf_keeps e_ ?_
  repeat' first
    | with_reducible first
      | intro _ | assumption | apply drayEffect_keeps | apply keeps_ite | simp only [keeps_mk_iff] | split | dsimp only

theorem execConvert_keeps {w : DrayWork} {s : State} {t_ : State} (e_ : execConvert w s = .next t_) (hk : Keeps b0 s) :
    Keeps b0 t_ := by
  refine onWf_keeps e_ ?_
  repeat' first
    | with_reducible first
      | intro _ | assumption | apply drayEffect_keeps | apply keeps_ite | simp only [keeps_mk_iff] | split | dsimp only

theorem execDigest_keeps {w : DrayWork} {s : State} {t_ : State} (e_ : execDigest w s = .next t_) (hk : Keeps b0 s) :
    Keeps b0 t_ := by
  refine onWf_keeps e_ ?_
  repeat' first
    | with_reducible first
      | intro _ | assumption | apply drayEffect_keeps | apply keeps_ite | simp only [keeps_mk_iff] | split | dsimp only

theorem execInvalidate_keeps {w : DrayWork} {s : State} {t_ : State} (e_ : execInvalidate w s = .next t_) (hk : Keeps b0
    s) : Keeps b0 t_ := by
  refine onWf_keeps e_ ?_
  repeat' first
    | with_reducible first
      | intro _ | assumption | apply drayEffect_keeps | apply keeps_ite | simp only [keeps_mk_iff] | split | dsimp only

theorem execPromote_keeps {st : Nat} {s : State} {t_ : State} (e_ : execPromote st s = .next t_) (hk : Keeps b0 s) : Keeps
    b0 t_ := by
  refine onWf_keeps e_ ?_
  repeat' first
    | with_reducible first
      | intro _ | assumption | apply tierRow_keeps | apply keeps_ite | simp only [keeps_mk_iff] | split | dsimp only

theorem execDemote_keeps {st : Nat} {s : State} {t_ : State} (e_ : execDemote st s = .next t_) (hk : Keeps b0 s) : Keeps
    b0 t_ := by
  refine onWf_keeps e_ ?_
  repeat' first
    | with_reducible first
      | intro _ | assumption | apply tierRow_keeps | apply keeps_ite | simp only [keeps_mk_iff] | split | dsimp only

theorem execWriteBack_keeps {st : Nat} {s : State} {t_ : State} (e_ : execWriteBack st s = .next t_) (hk : Keeps b0 s) :
    Keeps b0 t_ := by
  refine onWf_keeps e_ ?_
  repeat' first
    | with_reducible first
      | intro _ | assumption | apply tierRow_keeps | apply keeps_ite | simp only [keeps_mk_iff] | split | dsimp only

theorem execDiscard_keeps {st : Nat} {s : State} {t_ : State} (e_ : execDiscard st s = .next t_) (hk : Keeps b0 s) : Keeps
    b0 t_ := by
  refine onWf_keeps e_ ?_
  repeat' first
    | with_reducible first
      | intro _ | assumption | apply tierRow_keeps | apply keeps_ite | simp only [keeps_mk_iff] | split | dsimp only

theorem execRelocationWindow_keeps {st : Nat} {s : State} {t_ : State} (e_ : execRelocationWindow st s = .next t_) (hk :
    Keeps b0 s) : Keeps b0 t_ := by
  refine onWf_keeps e_ ?_
  repeat' first
    | with_reducible first
      | intro _ | assumption | apply windowEffect_keeps | apply keeps_ite | simp only [keeps_mk_iff] | split
      | dsimp only

theorem execExpire_keeps {st : Nat} {s : State} {t_ : State} (e_ : execExpire st s = .next t_) (hk : Keeps b0 s) : Keeps
    b0 t_ := by
  refine onWf_keeps e_ ?_
  repeat' first
    | with_reducible first
      | intro _ | assumption | apply slateRow_keeps | apply expireExt_keeps | apply keeps_foldl | apply keeps_ite
      | simp only [keeps_mk_iff] | split | dsimp only

theorem execHbmBucketRefill_keeps {s : State} {t_ : State} (e_ : execHbmBucketRefill s = .next t_) (hk : Keeps b0 s) :
    Keeps b0 t_ := by
  refine onWf_keeps e_ ?_
  repeat' first
    | with_reducible first
      | intro _ | assumption | apply hbmRefillEffect_keeps | apply keeps_ite | simp only [keeps_mk_iff] | split
      | dsimp only

theorem execFlashBucketRefill_keeps {s : State} {t_ : State} (e_ : execFlashBucketRefill s = .next t_) (hk : Keeps b0 s) :
    Keeps b0 t_ := by
  refine onWf_keeps e_ ?_
  repeat' first
    | with_reducible first
      | intro _ | assumption | apply flashRefillEffect_keeps | apply keeps_ite | simp only [keeps_mk_iff] | split
      | dsimp only

theorem execPatrolScrub_keeps {l : Nat} {o : EccOutcome} {s : State} {t_ : State} (e_ : execPatrolScrub l o s = .next t_)
    (hk : Keeps b0 s) : Keeps b0 t_ := by
  refine onWf_keeps e_ ?_
  repeat' first
    | with_reducible first
      | intro _ | assumption | apply scrubEffect_keeps | apply keeps_ite | simp only [keeps_mk_iff] | split | dsimp only

theorem execChannelFault_keeps {st c : Nat} {s : State} {t_ : State} (e_ : execChannelFault st c s = .next t_) (hk : Keeps
    b0 s) : Keeps b0 t_ := by
  refine onWf_keeps e_ ?_
  repeat' first
    | with_reducible first
      | intro _ | assumption | apply keeps_ite | simp only [keeps_mk_iff] | split | dsimp only

theorem execSectorRead_keeps {r : Requester} {x k : Nat} {o : EccOutcome} {s : State} {t_ : State} (e_ : execSectorRead r
    x k o s = .next t_) (hk : Keeps b0 s) : Keeps b0 t_ := by
  refine onWf_keeps e_ ?_
  repeat' first
    | with_reducible first
      | intro _ | assumption | apply sectorReadEffect_keeps | apply keeps_ite | simp only [keeps_mk_iff] | split
      | dsimp only

theorem execRelocationStart_keeps {f b : Nat} {s : State} {t_ : State} (e_ : execRelocationStart f b s = .next t_) (hk :
    Keeps b0 s) : Keeps b0 t_ := by
  refine onWf_keeps e_ ?_
  repeat' first
    | with_reducible first
      | intro _ | assumption | apply relocationStartEffect_keeps | apply keeps_ite | simp only [keeps_mk_iff] | split
      | dsimp only

theorem execRelocationSwitch_keeps {f b : Nat} {s : State} {t_ : State} (e_ : execRelocationSwitch f b s = .next t_) (hk :
    Keeps b0 s) : Keeps b0 t_ := by
  refine onWf_keeps e_ ?_
  repeat' first
    | with_reducible first
      | intro _ | assumption | apply relocationSwitchEffect_keeps | apply keeps_ite | simp only [keeps_mk_iff] | split
      | dsimp only

theorem execBlockFailure_keeps {f b : Nat} {s : State} {t_ : State} (e_ : execBlockFailure f b s = .next t_) (hk : Keeps
    b0 s) : Keeps b0 t_ := by
  refine onWf_keeps e_ ?_
  repeat' first
    | with_reducible first
      | intro _ | assumption | apply blockFailureEffect_keeps | apply keeps_ite | simp only [keeps_mk_iff] | split
      | dsimp only

theorem execTenderRestart_keeps {hd : Nat} {s : State} {t_ : State} (e_ : execTenderRestart hd s = .next t_) (hk : Keeps
    b0 s) : Keeps b0 t_ := by
  refine onWf_keeps e_ ?_
  repeat' first
    | with_reducible first
      | intro _ | assumption | apply tenderRestartEffect_keeps | apply keeps_ite | simp only [keeps_mk_iff] | split
      | dsimp only

theorem execTenderRestartDone_keeps {hd : Nat} {s : State} {t_ : State} (e_ : execTenderRestartDone hd s = .next t_) (hk :
    Keeps b0 s) : Keeps b0 t_ := by
  refine onWf_keeps e_ ?_
  repeat' first
    | with_reducible first
      | intro _ | assumption | apply tenderRestartDoneEffect_keeps | apply keeps_ite | simp only [keeps_mk_iff] | split
      | dsimp only

theorem execTestStepStart_keeps {t m : Nat} {s : State} {t_ : State} (e_ : execTestStepStart t m s = .next t_) (hk : Keeps
    b0 s) : Keeps b0 t_ := by
  refine onWf_keeps e_ ?_
  repeat' first
    | with_reducible first
      | intro _ | assumption | apply testStartEffect_keeps | apply keeps_ite | simp only [keeps_mk_iff] | split
      | dsimp only

theorem execTestStepComplete_keeps {t m : Nat} {o : TestOutcome} {s : State} {t_ : State} (e_ : execTestStepComplete t m o
    s = .next t_) (hk : Keeps b0 s) : Keeps b0 t_ := by
  refine onWf_keeps e_ ?_
  repeat' first
    | with_reducible first
      | intro _ | assumption | apply testDoneEffect_keeps | apply keeps_ite | simp only [keeps_mk_iff] | split
      | dsimp only

theorem execVaultTestStep_keeps {hd : Nat} {o : EccOutcome} {s : State} {t_ : State} (e_ : execVaultTestStep hd o s =
    .next t_) (hk : Keeps b0 s) : Keeps b0 t_ := by
  refine onWf_keeps e_ ?_
  repeat' first
    | with_reducible first
      | intro _ | assumption | apply vaultTestEffect_keeps | apply keeps_ite | simp only [keeps_mk_iff] | split
      | dsimp only

theorem execVaultWipeComplete_keeps {hd : Nat} {s : State} {t_ : State} (e_ : execVaultWipeComplete hd s = .next t_) (hk :
    Keeps b0 s) : Keeps b0 t_ := by
  refine onWf_keeps e_ ?_
  repeat' first
    | with_reducible first
      | intro _ | assumption | apply vaultWipeEffect_keeps | apply keeps_ite | simp only [keeps_mk_iff] | split
      | dsimp only

theorem execBatchTimeout_keeps {s : State} {t_ : State} (e_ : execBatchTimeout s = .next t_) (hk : Keeps b0 s) : Keeps b0
    t_ := by
  refine onWf_keeps e_ ?_
  repeat' first
    | with_reducible first
      | intro _ | assumption | apply batchTimeoutEffect_keeps | apply keeps_ite | simp only [keeps_mk_iff] | split
      | dsimp only

theorem execBatchRecord_keeps {s : State} {t_ : State} (e_ : execBatchRecord s = .next t_) (hk : Keeps b0 s) : Keeps b0 t_
    := by
  refine onWf_keeps e_ ?_
  repeat' first
    | with_reducible first
      | intro _ | assumption | apply batchRecordEffect_keeps | apply keeps_ite | simp only [keeps_mk_iff] | split
      | dsimp only

theorem execLaneFailure_keeps {l d n : Nat} {s : State} {t_ : State} (e_ : execLaneFailure l d n s = .next t_) (hk : Keeps
    b0 s) : Keeps b0 t_ := by
  refine onWf_keeps e_ ?_
  repeat' first
    | with_reducible first
      | intro _ | assumption | apply failLane_keeps | apply keeps_ite | simp only [keeps_mk_iff] | split | dsimp only

theorem execDirectionResume_keeps {l d : Nat} {s : State} {t_ : State} (e_ : execDirectionResume l d s = .next t_) (hk :
    Keeps b0 s) : Keeps b0 t_ := by
  refine onWf_keeps e_ ?_
  repeat' first
    | with_reducible first
      | intro _ | assumption | apply resumeEffect_keeps | apply keeps_ite | simp only [keeps_mk_iff] | split
      | dsimp only

theorem execFlit_keeps {l d : Nat} {bs : List Byte} {s : State} {t_ : State} (e_ : execFlit l d bs s = .next t_) (hk :
    Keeps b0 s) : Keeps b0 t_ := by
  refine onWf_keeps e_ ?_
  repeat' first
    | with_reducible first
      | intro _ | assumption | apply flitEffect_keeps | apply keeps_ite | simp only [keeps_mk_iff] | split | dsimp only

theorem execNguixLaneFailure_keeps {p n : Nat} {s : State} {t_ : State} (e_ : execNguixLaneFailure p n s = .next t_) (hk :
    Keeps b0 s) : Keeps b0 t_ := by
  refine onWf_keeps e_ ?_
  repeat' first
    | with_reducible first
      | intro _ | assumption | apply nguixLaneEffect_keeps | apply keeps_ite | simp only [keeps_mk_iff] | split
      | dsimp only

theorem execLaserModuleReady_keeps {k : Nat} {s : State} {t_ : State} (e_ : execLaserModuleReady k s = .next t_) (hk :
    Keeps b0 s) : Keeps b0 t_ := by
  refine onWf_keeps e_ ?_
  repeat' first
    | with_reducible first
      | intro _ | assumption | apply keeps_ite | simp only [keeps_mk_iff] | split | dsimp only

theorem execLaserModuleFault_keeps {k : Nat} {s : State} {t_ : State} (e_ : execLaserModuleFault k s = .next t_) (hk :
    Keeps b0 s) : Keeps b0 t_ := by
  refine onWf_keeps e_ ?_
  repeat' first
    | with_reducible first
      | intro _ | assumption | apply laserFaultEffect_keeps | apply keeps_ite | simp only [keeps_mk_iff] | split
      | dsimp only

theorem execPortTraining_keeps {p : Nat} {r : PortTrain} {s : State} {t_ : State} (e_ : execPortTraining p r s = .next t_)
    (hk : Keeps b0 s) : Keeps b0 t_ := by
  refine onWf_keeps e_ ?_
  repeat' first
    | with_reducible first
      | intro _ | assumption | apply trainEffect_keeps | apply keeps_ite | simp only [keeps_mk_iff] | split | dsimp only

theorem execRouteAnnounce_keeps {p nbr nbrPort : Nat} {s : State} {t_ : State} (e_ : execRouteAnnounce p nbr nbrPort s =
    .next t_) (hk : Keeps b0 s) : Keeps b0 t_ := by
  refine onWf_keeps e_ ?_
  repeat' first
    | with_reducible first
      | intro _ | assumption | apply announceEffect_keeps | apply keeps_ite | simp only [keeps_mk_iff] | split
      | dsimp only

theorem execPortResume_keeps {p : Nat} {s : State} {t_ : State} (e_ : execPortResume p s = .next t_) (hk : Keeps b0 s) :
    Keeps b0 t_ := by
  refine onWf_keeps e_ ?_
  repeat' first
    | with_reducible first
      | intro _ | assumption | apply portResumeEffect_keeps | apply keeps_ite | simp only [keeps_mk_iff] | split
      | dsimp only

theorem execFrame_keeps {p : Nat} {bs : List Byte} {s : State} {t_ : State} (e_ : execFrame p bs s = .next t_) (hk : Keeps
    b0 s) : Keeps b0 t_ := by
  refine onWf_keeps e_ ?_
  repeat' first
    | with_reducible first
      | intro _ | assumption | apply frameEffect_keeps | apply keeps_ite | simp only [keeps_mk_iff] | split | dsimp only

theorem execRemoteRead_keeps {m : RemoteMsg} {s : State} {t_ : State} (e_ : execRemoteRead m s = .next t_) (hk : Keeps b0
    s) : Keeps b0 t_ := by
  refine onWf_keeps e_ ?_
  repeat' first
    | with_reducible first
      | intro _ | assumption | apply requestRow_keeps | apply keeps_ite | simp only [keeps_mk_iff] | split | dsimp only

theorem execRemoteReadAcquire_keeps {m : RemoteMsg} {s : State} {t_ : State} (e_ : execRemoteReadAcquire m s = .next t_)
    (hk : Keeps b0 s) : Keeps b0 t_ := by
  refine onWf_keeps e_ ?_
  repeat' first
    | with_reducible first
      | intro _ | assumption | apply requestRow_keeps | apply keeps_ite | simp only [keeps_mk_iff] | split | dsimp only

theorem execRemoteWrite_keeps {m : RemoteMsg} {s : State} {t_ : State} (e_ : execRemoteWrite m s = .next t_) (hk : Keeps
    b0 s) : Keeps b0 t_ := by
  refine onWf_keeps e_ ?_
  repeat' first
    | with_reducible first
      | intro _ | assumption | apply remoteWrite_keeps | apply requestRow_keeps | apply keeps_ite
      | simp only [keeps_mk_iff] | split | dsimp only

theorem execRemoteWriteRelease_keeps {m : RemoteMsg} {s : State} {t_ : State} (e_ : execRemoteWriteRelease m s = .next t_)
    (hk : Keeps b0 s) : Keeps b0 t_ := by
  refine onWf_keeps e_ ?_
  repeat' first
    | with_reducible first
      | intro _ | assumption | apply requestRow_keeps | apply keeps_ite | simp only [keeps_mk_iff] | split | dsimp only

theorem execRemoteWriteAcked_keeps {m : RemoteMsg} {s : State} {t_ : State} (e_ : execRemoteWriteAcked m s = .next t_) (hk
    : Keeps b0 s) : Keeps b0 t_ := by
  refine onWf_keeps e_ ?_
  repeat' first
    | with_reducible first
      | intro _ | assumption | apply requestRow_keeps | apply keeps_ite | simp only [keeps_mk_iff] | split | dsimp only

theorem execRemoteWriteReleaseAcked_keeps {m : RemoteMsg} {s : State} {t_ : State} (e_ : execRemoteWriteReleaseAcked m s =
    .next t_) (hk : Keeps b0 s) : Keeps b0 t_ := by
  refine onWf_keeps e_ ?_
  repeat' first
    | with_reducible first
      | intro _ | assumption | apply requestRow_keeps | apply keeps_ite | simp only [keeps_mk_iff] | split | dsimp only

theorem execPseqGapSkip_keeps {src : Nat} {s : State} {t_ : State} (e_ : execPseqGapSkip src s = .next t_) (hk : Keeps b0
    s) : Keeps b0 t_ := by
  refine onWf_keeps e_ ?_
  repeat' first
    | with_reducible first
      | intro _ | assumption | apply gapEffect_keeps | apply keeps_ite | simp only [keeps_mk_iff] | split | dsimp only

theorem execRemoteReadData_keeps {m : RemoteMsg} {s : State} {t_ : State} (e_ : execRemoteReadData m s = .next t_) (hk :
    Keeps b0 s) : Keeps b0 t_ := by
  refine onWf_keeps e_ ?_
  repeat' first
    | with_reducible first
      | intro _ | assumption | apply responseRow_keeps | apply readDataEffect_keeps | apply keeps_ite
      | simp only [keeps_mk_iff] | split | dsimp only

theorem execRemoteWriteAck_keeps {m : RemoteMsg} {s : State} {t_ : State} (e_ : execRemoteWriteAck m s = .next t_) (hk :
    Keeps b0 s) : Keeps b0 t_ := by
  refine onWf_keeps e_ ?_
  repeat' first
    | with_reducible first
      | intro _ | assumption | apply responseRow_keeps | apply writeAckEffect_keeps | apply keeps_ite
      | simp only [keeps_mk_iff] | split | dsimp only

theorem execRemoteError_keeps {m : RemoteMsg} {s : State} {t_ : State} (e_ : execRemoteError m s = .next t_) (hk : Keeps
    b0 s) : Keeps b0 t_ := by
  refine onWf_keeps e_ ?_
  repeat' first
    | with_reducible first
      | intro _ | assumption | apply responseRow_keeps | apply remoteErrorEffect_keeps | apply keeps_ite
      | simp only [keeps_mk_iff] | split | dsimp only

theorem execRemoteTimeout_keeps {dst tag : Nat} {s : State} {t_ : State} (e_ : execRemoteTimeout dst tag s = .next t_) (hk
    : Keeps b0 s) : Keeps b0 t_ := by
  refine onWf_keeps e_ ?_
  repeat' first
    | with_reducible first
      | intro _ | assumption | apply timeoutEffect_keeps | apply keeps_ite | simp only [keeps_mk_iff] | split
      | dsimp only

theorem execTamperEvent_keeps {hd source : Nat} {s : State} {t_ : State} (e_ : execTamperEvent hd source s = .next t_) (hk
    : Keeps b0 s) : Keeps b0 t_ := by
  refine onWf_keeps e_ ?_
  repeat' first
    | with_reducible first
      | intro _ | assumption | apply tamperEffect_keeps | apply keeps_ite | simp only [keeps_mk_iff] | split
      | dsimp only

theorem execWakeFromOff_keeps {t : SelfTest} {s : State} {t_ : State} (e_ : execWakeFromOff t s = .next t_) (hk : Keeps b0
    s) : Keeps b0 t_ := by
  refine onWf_keeps e_ ?_
  repeat' first
    | with_reducible first
      | intro _ | assumption | apply wakeEffect_keeps | apply keeps_ite | simp only [keeps_mk_iff] | split | dsimp only

theorem execSupplyFault_keeps {mv : Nat} {s : State} {t_ : State} (e_ : execSupplyFault mv s = .next t_) (hk : Keeps b0 s)
    : Keeps b0 t_ := by
  refine onWf_keeps e_ ?_
  repeat' first
    | with_reducible first
      | intro _ | assumption | apply supplyFaultEffect_keeps | apply keeps_ite | simp only [keeps_mk_iff] | split
      | dsimp only

theorem execSupplyRecovery_keeps {t : SelfTest} {s : State} {t_ : State} (e_ : execSupplyRecovery t s = .next t_) (hk :
    Keeps b0 s) : Keeps b0 t_ := by
  refine onWf_keeps e_ ?_
  repeat' first
    | with_reducible first
      | intro _ | assumption | apply supplyRecoveryEffect_keeps | apply keeps_ite | simp only [keeps_mk_iff] | split
      | dsimp only

theorem execIslandSupplyLoss_keeps {mv : Nat} {s : State} {t_ : State} (e_ : execIslandSupplyLoss mv s = .next t_) (hk :
    Keeps b0 s) : Keeps b0 t_ := by
  refine onWf_keeps e_ ?_
  repeat' first
    | with_reducible first
      | intro _ | assumption | apply islandLossEffect_keeps | apply keeps_ite | simp only [keeps_mk_iff] | split
      | dsimp only

theorem execSupplyWarn_keeps {mv : Nat} {s : State} {t_ : State} (e_ : execSupplyWarn mv s = .next t_) (hk : Keeps b0 s) :
    Keeps b0 t_ := by
  refine onWf_keeps e_ ?_
  repeat' first
    | with_reducible first
      | intro _ | assumption | apply supplyWarnEffect_keeps | apply keeps_ite | simp only [keeps_mk_iff] | split
      | dsimp only

theorem execSupplyWarnRearm_keeps {mv : Nat} {s : State} {t_ : State} (e_ : execSupplyWarnRearm mv s = .next t_) (hk :
    Keeps b0 s) : Keeps b0 t_ := by
  refine onWf_keeps e_ ?_
  repeat' first
    | with_reducible first
      | intro _ | assumption | apply supplyRearmEffect_keeps | apply keeps_ite | simp only [keeps_mk_iff] | split
      | dsimp only

theorem execPwrGoodInFall_keeps {s : State} {t_ : State} (e_ : execPwrGoodInFall s = .next t_) (hk : Keeps b0 s) : Keeps
    b0 t_ := by
  refine onWf_keeps e_ ?_
  repeat' first
    | with_reducible first
      | intro _ | assumption | apply pwrFallEffect_keeps | apply keeps_ite | simp only [keeps_mk_iff] | split
      | dsimp only

theorem execPwrGoodInRise_keeps {t : SelfTest} {s : State} {t_ : State} (e_ : execPwrGoodInRise t s = .next t_) (hk :
    Keeps b0 s) : Keeps b0 t_ := by
  refine onWf_keeps e_ ?_
  repeat' first
    | with_reducible first
      | intro _ | assumption | apply pwrRiseEffect_keeps | apply keeps_ite | simp only [keeps_mk_iff] | split
      | dsimp only

theorem execResetInNAssert_keeps {s : State} {t_ : State} (e_ : execResetInNAssert s = .next t_) (hk : Keeps b0 s) : Keeps
    b0 t_ := by
  refine onWf_keeps e_ ?_
  repeat' first
    | with_reducible first
      | intro _ | assumption | apply resetAssertEffect_keeps | apply keeps_ite | simp only [keeps_mk_iff] | split
      | dsimp only

theorem execResetInNRelease_keeps {t : SelfTest} {s : State} {t_ : State} (e_ : execResetInNRelease t s = .next t_) (hk :
    Keeps b0 s) : Keeps b0 t_ := by
  refine onWf_keeps e_ ?_
  repeat' first
    | with_reducible first
      | intro _ | assumption | apply resetReleaseEffect_keeps | apply keeps_ite | simp only [keeps_mk_iff] | split
      | dsimp only

theorem execStandbyTakeover_keeps {t : SelfTest} {s : State} {t_ : State} (e_ : execStandbyTakeover t s = .next t_) (hk :
    Keeps b0 s) : Keeps b0 t_ := by
  refine onWf_keeps e_ ?_
  repeat' first
    | with_reducible first
      | intro _ | assumption | apply takeoverEffect_keeps | apply keeps_ite | simp only [keeps_mk_iff] | split
      | dsimp only

theorem execBringupStepTimeout_keeps {k : Nat} {s : State} {t_ : State} (e_ : execBringupStepTimeout k s = .next t_) (hk :
    Keeps b0 s) : Keeps b0 t_ := by
  refine onWf_keeps e_ ?_
  repeat' first
    | with_reducible first
      | intro _ | assumption | apply overrunEffect_keeps | apply keeps_ite | simp only [keeps_mk_iff] | split
      | dsimp only

theorem execRecordCommit_keeps {s : State} {t_ : State} (e_ : execRecordCommit s = .next t_) (hk : Keeps b0 s) : Keeps b0
    t_ := by
  refine onWf_keeps e_ ?_
  repeat' first
    | with_reducible first
      | intro _ | assumption | apply recordCommitEffect_keeps | apply keeps_ite | simp only [keeps_mk_iff] | split
      | dsimp only

theorem execThermalTrip_keeps {die : Nat} {s : State} {t_ : State} (e_ : execThermalTrip die s = .next t_) (hk : Keeps b0
    s) : Keeps b0 t_ := by
  refine onWf_keeps e_ ?_
  repeat' first
    | with_reducible first
      | intro _ | assumption | apply tripEffect_keeps | apply keeps_ite | simp only [keeps_mk_iff] | split | dsimp only

theorem execPromotionSwitch_keeps {x : Nat} {s : State} {t_ : State} (e_ : execPromotionSwitch x s = .next t_) (hk : Keeps
    b0 s) : Keeps b0 t_ := by
  refine onWf_keeps e_ ?_
  repeat' first
    | with_reducible first
      | intro _ | assumption | apply settleCreate_keeps | apply promotionSwitchEffect_keeps | apply keeps_ite
      | simp only [keeps_mk_iff] | split | dsimp only

theorem execDemotionPass_keeps {x : Nat} {s : State} {t_ : State} (e_ : execDemotionPass x s = .next t_) (hk : Keeps b0 s)
    : Keeps b0 t_ := by
  refine onWf_keeps e_ ?_
  repeat' first
    | with_reducible first
      | intro _ | assumption | apply settleCreate_keeps | apply demotionPassEffect_keeps | apply keeps_ite
      | simp only [keeps_mk_iff] | split | dsimp only

theorem execCompletionRecord_keeps {q : Nat} {s : State} {t_ : State} (e_ : execCompletionRecord q s = .next t_) (hk :
    Keeps b0 s) : Keeps b0 t_ := by
  refine onWf_keeps e_ ?_
  repeat' first
    | with_reducible first
      | intro _ | assumption | apply settleDissolve_keeps | apply performRec_keeps | apply keeps_ite
      | simp only [keeps_mk_iff] | split | dsimp only

theorem execControlInterval_keeps {m : PowerSample} {s : State} {t_ : State} (e_ : execControlInterval m s = .next t_) (hk
    : Keeps b0 s) : Keeps b0 t_ := by
  refine onWf_keeps e_ ?_
  repeat' first
    | with_reducible first
      | intro _ | assumption | apply intervalEffect_keeps | apply keeps_ite | simp only [keeps_mk_iff] | split
      | dsimp only

theorem execPointChangeComplete_keeps {a : Nat} {s : State} {t_ : State} (e_ : execPointChangeComplete a s = .next t_) (hk
    : Keeps b0 s) : Keeps b0 t_ := by
  refine onWf_keeps e_ ?_
  repeat' first
    | with_reducible first
      | intro _ | assumption | apply pointEffect_keeps | apply keeps_ite | simp only [keeps_mk_iff] | split | dsimp only

theorem execThermalSample_keeps {tj temps : List Int} {s : State} {t_ : State} (e_ : execThermalSample tj temps s = .next
    t_) (hk : Keeps b0 s) : Keeps b0 t_ := by
  refine onWf_keeps e_ ?_
  repeat' first
    | with_reducible first
      | intro _ | assumption | apply thermalEffect_keeps | apply keeps_ite | simp only [keeps_mk_iff] | split
      | dsimp only

theorem execGuardbandRaise_keeps {die : Nat} {m : Margin} {s : State} {t_ : State} (e_ : execGuardbandRaise die m s =
    .next t_) (hk : Keeps b0 s) : Keeps b0 t_ := by
  refine onWf_keeps e_ ?_
  repeat' first
    | with_reducible first
      | intro _ | assumption | apply guardEffect_keeps | apply keeps_ite | simp only [keeps_mk_iff] | split | dsimp only

theorem execClockStretch_keeps {c pc : Nat} {s : State} {t_ : State} (e_ : execClockStretch c pc s = .next t_) (hk : Keeps
    b0 s) : Keeps b0 t_ := by
  refine onWf_keeps e_ ?_
  repeat' first
    | with_reducible first
      | intro _ | assumption | apply stretchEffect_keeps | apply keeps_ite | simp only [keeps_mk_iff] | split
      | dsimp only

theorem execQrefLock_keeps {s : State} {t_ : State} (e_ : execQrefLock s = .next t_) (hk : Keeps b0 s) : Keeps b0 t_ := by
  refine onWf_keeps e_ ?_
  repeat' first
    | with_reducible first
      | intro _ | assumption | apply qrefLockEffect_keeps | apply keeps_ite | simp only [keeps_mk_iff] | split
      | dsimp only

theorem execQrefLoss_keeps {s : State} {t_ : State} (e_ : execQrefLoss s = .next t_) (hk : Keeps b0 s) : Keeps b0 t_ := by
  refine onWf_keeps e_ ?_
  repeat' first
    | with_reducible first
      | intro _ | assumption | apply toHoldover_keeps | apply modQuartz_keeps | apply keeps_ite
      | simp only [keeps_mk_iff] | split | dsimp only

theorem execUpstreamLoss_keeps {s : State} {t_ : State} (e_ : execUpstreamLoss s = .next t_) (hk : Keeps b0 s) : Keeps b0
    t_ := by
  refine onWf_keeps e_ ?_
  repeat' first
    | with_reducible first
      | intro _ | assumption | apply upstreamLossEffect_keeps | apply keeps_ite | simp only [keeps_mk_iff] | split
      | dsimp only

theorem execAlternateLock_keeps {p : Nat} {s : State} {t_ : State} (e_ : execAlternateLock p s = .next t_) (hk : Keeps b0
    s) : Keeps b0 t_ := by
  refine onWf_keeps e_ ?_
  repeat' first
    | with_reducible first
      | intro _ | assumption | apply alternateLockEffect_keeps | apply keeps_ite | simp only [keeps_mk_iff] | split
      | dsimp only

theorem execTimingSymbol_keeps {port tTx tE1 tE2 tHold : Nat} {s : State} {t_ : State} (e_ : execTimingSymbol port tTx tE1
    tE2 tHold s = .next t_) (hk : Keeps b0 s) : Keeps b0 t_ := by
  refine onWf_keeps e_ ?_
  repeat' first
    | with_reducible first
      | intro _ | assumption | apply timingSymbolEffect_keeps | apply keeps_ite | simp only [keeps_mk_iff] | split
      | dsimp only

theorem execTimingSymbolSend_keeps {p : Nat} {s : State} {t_ : State} (e_ : execTimingSymbolSend p s = .next t_) (hk :
    Keeps b0 s) : Keeps b0 t_ := by
  refine onWf_keeps e_ ?_
  repeat' first
    | with_reducible first
      | intro _ | assumption | apply symbolSendEffect_keeps | apply keeps_ite | simp only [keeps_mk_iff] | split
      | dsimp only

theorem execPpsEdge_keeps {width : Nat} {s : State} {t_ : State} (e_ : execPpsEdge width s = .next t_) (hk : Keeps b0 s) :
    Keeps b0 t_ := by
  refine onWf_keeps e_ ?_
  repeat' first
    | with_reducible first
      | intro _ | assumption | apply ppsEffect_keeps | apply keeps_ite | simp only [keeps_mk_iff] | split | dsimp only

theorem execQtzLoad_keeps {acc : Acc} {v : Word} {s : State} {t_ : State} (e_ : execQtzLoad acc v s = .next t_) (hk :
    Keeps b0 s) : Keeps b0 t_ := by
  refine onWf_keeps e_ ?_
  repeat' first
    | with_reducible first
      | intro _ | assumption | apply qtzLoadEffect_keeps | apply keeps_ite | simp only [keeps_mk_iff] | split
      | dsimp only

theorem execQtzStateWrite_keeps {acc : Acc} {v : Word} {s : State} {t_ : State} (e_ : execQtzStateWrite acc v s = .next
    t_) (hk : Keeps b0 s) : Keeps b0 t_ := by
  refine onWf_keeps e_ ?_
  repeat' first
    | with_reducible first
      | intro _ | assumption | apply qtzStateEffect_keeps | apply keeps_ite | simp only [keeps_mk_iff] | split
      | dsimp only

theorem execVersionHello_keeps {ch : Nat} {hdr : Word} {pl : List Word} {s : State} {t_ : State} (e_ : execVersionHello ch
    hdr pl s = .next t_) (hk : Keeps b0 s) : Keeps b0 t_ := by
  refine onWf_keeps e_ ?_
  repeat' first
    | with_reducible first
      | intro _ | assumption | apply submit_keeps | apply runCommand_keeps | apply keeps_ite | simp only [keeps_mk_iff]
      | split | dsimp only

theorem execPartCreate_keeps {ch : Nat} {hdr : Word} {pl : List Word} {s : State} {t_ : State} (e_ : execPartCreate ch hdr
    pl s = .next t_) (hk : Keeps b0 s) : Keeps b0 t_ := by
  refine onWf_keeps e_ ?_
  repeat' first
    | with_reducible first
      | intro _ | assumption | apply submit_keeps | apply runCommand_keeps | apply keeps_ite | simp only [keeps_mk_iff]
      | split | dsimp only

theorem execPartDissolve_keeps {ch : Nat} {hdr : Word} {pl : List Word} {s : State} {t_ : State} (e_ : execPartDissolve ch
    hdr pl s = .next t_) (hk : Keeps b0 s) : Keeps b0 t_ := by
  refine onWf_keeps e_ ?_
  repeat' first
    | with_reducible first
      | intro _ | assumption | apply submit_keeps | apply runCommand_keeps | apply keeps_ite | simp only [keeps_mk_iff]
      | split | dsimp only

theorem execSlateInstall_keeps {ch : Nat} {hdr : Word} {pl : List Word} {s : State} {t_ : State} (e_ : execSlateInstall ch
    hdr pl s = .next t_) (hk : Keeps b0 s) : Keeps b0 t_ := by
  refine onWf_keeps e_ ?_
  repeat' first
    | with_reducible first
      | intro _ | assumption | apply submit_keeps | apply runCommand_keeps | apply keeps_ite | simp only [keeps_mk_iff]
      | split | dsimp only

theorem execJobOpen_keeps {ch : Nat} {hdr : Word} {pl : List Word} {s : State} {t_ : State} (e_ : execJobOpen ch hdr pl s
    = .next t_) (hk : Keeps b0 s) : Keeps b0 t_ := by
  refine onWf_keeps e_ ?_
  repeat' first
    | with_reducible first
      | intro _ | assumption | apply submit_keeps | apply runCommand_keeps | apply keeps_ite | simp only [keeps_mk_iff]
      | split | dsimp only

theorem execJobClose_keeps {ch : Nat} {hdr : Word} {pl : List Word} {s : State} {t_ : State} (e_ : execJobClose ch hdr pl
    s = .next t_) (hk : Keeps b0 s) : Keeps b0 t_ := by
  refine onWf_keeps e_ ?_
  repeat' first
    | with_reducible first
      | intro _ | assumption | apply submit_keeps | apply runCommand_keeps | apply keeps_ite | simp only [keeps_mk_iff]
      | split | dsimp only

theorem execSealModel_keeps {ch : Nat} {hdr : Word} {pl : List Word} {s : State} {t_ : State} (e_ : execSealModel ch hdr
    pl s = .next t_) (hk : Keeps b0 s) : Keeps b0 t_ := by
  refine onWf_keeps e_ ?_
  repeat' first
    | with_reducible first
      | intro _ | assumption | apply submit_keeps | apply runCommand_keeps | apply keeps_ite | simp only [keeps_mk_iff]
      | split | dsimp only

theorem execTileRetire_keeps {ch : Nat} {sub : Submission} {s : State} {t_ : State} (e_ : execTileRetire ch sub s = .next
    t_) (hk : Keeps b0 s) : Keeps b0 t_ := by
  refine onWf_keeps e_ ?_
  repeat' first
    | with_reducible first
      | intro _ | assumption | apply submit_keeps | apply runCommand_keeps | apply keeps_ite | simp only [keeps_mk_iff]
      | split | dsimp only

theorem execTelemetryRead_keeps {ch : Nat} {hdr : Word} {pl : List Word} {s : State} {t_ : State} (e_ : execTelemetryRead
    ch hdr pl s = .next t_) (hk : Keeps b0 s) : Keeps b0 t_ := by
  refine onWf_keeps e_ ?_
  repeat' first
    | with_reducible first
      | intro _ | assumption | apply submit_keeps | apply runCommand_keeps | apply keeps_ite | simp only [keeps_mk_iff]
      | split | dsimp only

theorem execClampReportRead_keeps {ch : Nat} {hdr : Word} {pl : List Word} {s : State} {t_ : State} (e_ :
    execClampReportRead ch hdr pl s = .next t_) (hk : Keeps b0 s) : Keeps b0 t_ := by
  refine onWf_keeps e_ ?_
  repeat' first
    | with_reducible first
      | intro _ | assumption | apply submit_keeps | apply runCommand_keeps | apply keeps_ite | simp only [keeps_mk_iff]
      | split | dsimp only

theorem execReceiptFetch_keeps {ch : Nat} {hdr : Word} {pl : List Word} {s : State} {t_ : State} (e_ : execReceiptFetch ch
    hdr pl s = .next t_) (hk : Keeps b0 s) : Keeps b0 t_ := by
  refine onWf_keeps e_ ?_
  repeat' first
    | with_reducible first
      | intro _ | assumption | apply submit_keeps | apply runCommand_keeps | apply keeps_ite | simp only [keeps_mk_iff]
      | split | dsimp only

theorem execRouteInstall_keeps {ch : Nat} {hdr : Word} {pl : List Word} {s : State} {t_ : State} (e_ : execRouteInstall ch
    hdr pl s = .next t_) (hk : Keeps b0 s) : Keeps b0 t_ := by
  refine onWf_keeps e_ ?_
  repeat' first
    | with_reducible first
      | intro _ | assumption | apply submit_keeps | apply runCommand_keeps | apply keeps_ite | simp only [keeps_mk_iff]
      | split | dsimp only

theorem execPowerSet_keeps {ch : Nat} {hdr : Word} {pl : List Word} {s : State} {t_ : State} (e_ : execPowerSet ch hdr pl
    s = .next t_) (hk : Keeps b0 s) : Keeps b0 t_ := by
  refine onWf_keeps e_ ?_
  repeat' first
    | with_reducible first
      | intro _ | assumption | apply submit_keeps | apply runCommand_keeps | apply keeps_ite | simp only [keeps_mk_iff]
      | split | dsimp only

theorem execPowerDown_keeps {ch : Nat} {sub : Submission} {s : State} {t_ : State} (e_ : execPowerDown ch sub s = .next
    t_) (hk : Keeps b0 s) : Keeps b0 t_ := by
  refine onWf_keeps e_ ?_
  repeat' first
    | with_reducible first
      | intro _ | assumption | apply powerDown_keeps | apply submit_keeps | apply runCommand_keeps | apply keeps_ite
      | simp only [keeps_mk_iff] | split | dsimp only

theorem execReset_keeps {ch : Nat} {sub : Submission} {s : State} {t_ : State} (e_ : execReset ch sub s = .next t_) (hk :
    Keeps b0 s) : Keeps b0 t_ := by
  refine onWf_keeps e_ ?_
  repeat' first
    | with_reducible first
      | intro _ | assumption | apply resetRow_keeps | apply keeps_ite | simp only [keeps_mk_iff] | split | dsimp only

theorem execPackageReset_keeps {ch : Nat} {sub : Submission} {t : SelfTest} {s : State} {t_ : State} (e_ :
    execPackageReset ch sub t s = .next t_) (hk : Keeps b0 s) : Keeps b0 t_ := by
  refine onWf_keeps e_ ?_
  repeat' first
    | with_reducible first
      | intro _ | assumption | apply packageReset_keeps | apply resetRow_keeps | apply keeps_ite
      | simp only [keeps_mk_iff] | split | dsimp only

theorem execLifecycleAdvance_keeps {ch : Nat} {hdr : Word} {pl : List Word} {t : SelfTest} {s : State} {t_ : State} (e_ :
    execLifecycleAdvance ch hdr pl t s = .next t_) (hk : Keeps b0 s) : Keeps b0 t_ := by
  refine onWf_keeps e_ ?_
  repeat' first
    | with_reducible first
      | intro _ | assumption | apply lifecycleRow_keeps | apply keeps_ite | simp only [keeps_mk_iff] | split
      | dsimp only

theorem execLifecycleStage_keeps {ch : Nat} {hdr : Word} {pl : List Word} {s : State} {t_ : State} (e_ :
    execLifecycleStage ch hdr pl s = .next t_) (hk : Keeps b0 s) : Keeps b0 t_ := by
  refine onWf_keeps e_ ?_
  repeat' first
    | with_reducible first
      | intro _ | assumption | apply lifecycleRow_keeps | apply keeps_ite | simp only [keeps_mk_iff] | split
      | dsimp only

theorem execLifecycleCommit_keeps {ch : Nat} {hdr : Word} {pl : List Word} {s : State} {t_ : State} (e_ :
    execLifecycleCommit ch hdr pl s = .next t_) (hk : Keeps b0 s) : Keeps b0 t_ := by
  refine onWf_keeps e_ ?_
  repeat' first
    | with_reducible first
      | intro _ | assumption | apply lifecycleRow_keeps | apply keeps_ite | simp only [keeps_mk_iff] | split
      | dsimp only

theorem execCbxAck_keeps {ch : Nat} {acc : Acc} {v : Word} {s : State} {t_ : State} (e_ : execCbxAck ch acc v s = .next
    t_) (hk : Keeps b0 s) : Keeps b0 t_ := by
  refine onWf_keeps e_ ?_
  repeat' first
    | with_reducible first
      | intro _ | assumption | apply ackWrite_keeps | apply keeps_ite | simp only [keeps_mk_iff] | split | dsimp only

theorem execCbxIrqWrite_keeps {ch : Nat} {acc : Acc} {v : Word} {s : State} {t_ : State} (e_ : execCbxIrqWrite ch acc v s
    = .next t_) (hk : Keeps b0 s) : Keeps b0 t_ := by
  refine onWf_keeps e_ ?_
  repeat' first
    | with_reducible first
      | intro _ | assumption | apply irqWrite_keeps | apply keeps_ite | simp only [keeps_mk_iff] | split | dsimp only

theorem execPwrFlagsWrite_keeps {acc : Acc} {v : Word} {s : State} {t_ : State} (e_ : execPwrFlagsWrite acc v s = .next
    t_) (hk : Keeps b0 s) : Keeps b0 t_ := by
  refine onWf_keeps e_ ?_
  repeat' first
    | with_reducible first
      | intro _ | assumption | apply pwrFlagsEffect_keeps | apply keeps_ite | simp only [keeps_mk_iff] | split
      | dsimp only

theorem execThmFlagsWrite_keeps {acc : Acc} {v : Word} {s : State} {t_ : State} (e_ : execThmFlagsWrite acc v s = .next
    t_) (hk : Keeps b0 s) : Keeps b0 t_ := by
  refine onWf_keeps e_ ?_
  repeat' first
    | with_reducible first
      | intro _ | assumption | apply thmFlagsEffect_keeps | apply keeps_ite | simp only [keeps_mk_iff] | split
      | dsimp only

theorem execCbxDiscardsRead_keeps {hart rd ch : Nat} {acc : Acc} {s : State} {t_ : State} (e_ : execCbxDiscardsRead hart
    rd ch acc s = .next t_) (hk : Keeps b0 s) : Keeps b0 t_ := by
  refine onWf_keeps e_ ?_
  repeat' first
    | with_reducible first
      | intro _ | assumption | apply rcRead_keeps | apply keeps_ite | simp only [keeps_mk_iff] | split | dsimp only

theorem execDblAheadCountRead_keeps {hart rd : Nat} {acc : Acc} {s : State} {t_ : State} (e_ : execDblAheadCountRead hart
    rd acc s = .next t_) (hk : Keeps b0 s) : Keeps b0 t_ := by
  refine onWf_keeps e_ ?_
  repeat' first
    | with_reducible first
      | intro _ | assumption | apply rcRead_keeps | apply keeps_ite | simp only [keeps_mk_iff] | split | dsimp only

theorem execDblDiscardsRead_keeps {hart rd : Nat} {acc : Acc} {s : State} {t_ : State} (e_ : execDblDiscardsRead hart rd
    acc s = .next t_) (hk : Keeps b0 s) : Keeps b0 t_ := by
  refine onWf_keeps e_ ?_
  repeat' first
    | with_reducible first
      | intro _ | assumption | apply rcRead_keeps | apply keeps_ite | simp only [keeps_mk_iff] | split | dsimp only

theorem execFncMismatchRead_keeps {hart rd u : Nat} {acc : Acc} {s : State} {t_ : State} (e_ : execFncMismatchRead hart rd
    u acc s = .next t_) (hk : Keeps b0 s) : Keeps b0 t_ := by
  refine onWf_keeps e_ ?_
  repeat' first
    | with_reducible first
      | intro _ | assumption | apply rcRead_keeps | apply keeps_ite | simp only [keeps_mk_iff] | split | dsimp only

theorem execMachineTimer_keeps {hart : Nat} {s : State} {t_ : State} (e_ : execMachineTimer hart s = .next t_) (hk : Keeps
    b0 s) : Keeps b0 t_ := by
  refine onWf_keeps e_ ?_
  repeat' first
    | with_reducible first
      | intro _ | assumption | apply machineTimerEffect_keeps | apply keeps_ite | simp only [keeps_mk_iff] | split
      | dsimp only

theorem execStimecmp_keeps {hart : Nat} {virt : Bool} {s : State} {t_ : State} (e_ : execStimecmp hart virt s = .next t_)
    (hk : Keeps b0 s) : Keeps b0 t_ := by
  refine onWf_keeps e_ ?_
  repeat' first
    | with_reducible first
      | intro _ | assumption | apply stimecmpEffect_keeps | apply keeps_ite | simp only [keeps_mk_iff] | split
      | dsimp only

theorem execRfComplete_keeps {pd : Nat} {s : State} {t_ : State} (e_ : execRfComplete pd s = .next t_) (hk : Keeps b0 s) :
    Keeps b0 t_ := by
  refine onWf_keeps e_ ?_
  repeat' first
    | with_reducible first
      | intro _ | assumption | apply rfCompleteEffect_keeps | apply keeps_ite | simp only [keeps_mk_iff] | split
      | dsimp only

theorem execPcieInboundMsi_keeps {sub rid addr : Nat} {data : List Byte} {s : State} {t_ : State} (e_ : execPcieInboundMsi
    sub rid addr data s = .next t_) (hk : Keeps b0 s) : Keeps b0 t_ := by
  refine onWf_keeps e_ ?_
  repeat' first
    | with_reducible first
      | intro _ | assumption | apply msiEffect_keeps | apply keeps_ite | simp only [keeps_mk_iff] | split | dsimp only

theorem execPcieInboundP2p_keeps {sub rid addr : Nat} {write : Bool} {data : List Byte} {s : State} {t_ : State} (e_ :
    execPcieInboundP2p sub rid addr write data s = .next t_) (hk : Keeps b0 s) : Keeps b0 t_ := by
  refine onWf_keeps e_ ?_
  repeat' first
    | with_reducible first
      | intro _ | assumption | apply p2pEffect_keeps | apply keeps_ite | simp only [keeps_mk_iff] | split | dsimp only

theorem execPcieInboundRead_keeps {sub rid addr len : Nat} {s : State} {t_ : State} (e_ : execPcieInboundRead sub rid addr
    len s = .next t_) (hk : Keeps b0 s) : Keeps b0 t_ := by
  refine onWf_keeps e_ ?_
  repeat' first
    | with_reducible first
      | intro _ | assumption | apply inboundReadEffect_keeps | apply keeps_ite | simp only [keeps_mk_iff] | split
      | dsimp only

theorem execPcieInboundWrite_keeps {sub rid addr : Nat} {data : List Byte} {s : State} {t_ : State} (e_ :
    execPcieInboundWrite sub rid addr data s = .next t_) (hk : Keeps b0 s) : Keeps b0 t_ := by
  refine onWf_keeps e_ ?_
  repeat' first
    | with_reducible first
      | intro _ | assumption | apply inboundWriteEffect_keeps | apply keeps_ite | simp only [keeps_mk_iff] | split
      | dsimp only

theorem execPcieLinkUp_keeps {sub : Nat} {s : State} {t_ : State} (e_ : execPcieLinkUp sub s = .next t_) (hk : Keeps b0 s)
    : Keeps b0 t_ := by
  refine onWf_keeps e_ ?_
  repeat' first
    | with_reducible first
      | intro _ | assumption | apply linkUpEffect_keeps | apply keeps_ite | simp only [keeps_mk_iff] | split
      | dsimp only

theorem execPcieLinkDown_keeps {sub : Nat} {s : State} {t_ : State} (e_ : execPcieLinkDown sub s = .next t_) (hk : Keeps
    b0 s) : Keeps b0 t_ := by
  refine onWf_keeps e_ ?_
  repeat' first
    | with_reducible first
      | intro _ | assumption | apply linkDownEffect_keeps | apply keeps_ite | simp only [keeps_mk_iff] | split
      | dsimp only

theorem execRegisterWrite_keeps {hart : Nat} {tgt : RegTarget} {v : Word} {s : State} {t_ : State} (e_ : execRegisterWrite
    hart tgt v s = .next t_) (hk : Keeps b0 s) : Keeps b0 t_ := by
  refine onWf_keeps e_ ?_
  repeat' first
    | with_reducible first
      | intro _ | assumption | apply issueIns_keeps | apply keeps_ite | simp only [keeps_mk_iff] | split | dsimp only

theorem execHartLoad_keeps {hart rd addr size : Nat} {signed : Bool} {s : State} {t_ : State} (e_ : execHartLoad hart rd
    addr size signed s = .next t_) (hk : Keeps b0 s) : Keeps b0 t_ := by
  refine onWf_keeps e_ ?_
  repeat' first
    | with_reducible first
      | intro _ | assumption | apply issueIns_keeps | apply keeps_ite | simp only [keeps_mk_iff] | split | dsimp only

theorem execHartStore_keeps {hart rs2 addr size : Nat} {s : State} {t_ : State} (e_ : execHartStore hart rs2 addr size s =
    .next t_) (hk : Keeps b0 s) : Keeps b0 t_ := by
  refine onWf_keeps e_ ?_
  repeat' first
    | with_reducible first
      | intro _ | assumption | apply issueIns_keeps | apply keeps_ite | simp only [keeps_mk_iff] | split | dsimp only

theorem execScld_keeps {hart : Nat} {insn : BitVec 32} {s : State} {t_ : State} (e_ : execScld hart insn s = .next t_) (hk
    : Keeps b0 s) : Keeps b0 t_ := by
  refine onWf_keeps e_ ?_
  repeat' first
    | with_reducible first
      | intro _ | assumption | apply issueIns_keeps | apply keeps_ite | simp only [keeps_mk_iff] | split | dsimp only

theorem execScst_keeps {hart : Nat} {insn : BitVec 32} {s : State} {t_ : State} (e_ : execScst hart insn s = .next t_) (hk
    : Keeps b0 s) : Keeps b0 t_ := by
  refine onWf_keeps e_ ?_
  repeat' first
    | with_reducible first
      | intro _ | assumption | apply issueIns_keeps | apply keeps_ite | simp only [keeps_mk_iff] | split | dsimp only

theorem execScfence_keeps {hart : Nat} {insn : BitVec 32} {s : State} {t_ : State} (e_ : execScfence hart insn s = .next
    t_) (hk : Keeps b0 s) : Keeps b0 t_ := by
  refine onWf_keeps e_ ?_
  repeat' first
    | with_reducible first
      | intro _ | assumption | apply issueIns_keeps | apply keeps_ite | simp only [keeps_mk_iff] | split | dsimp only

theorem execFence_keeps {hart : Nat} {tso : Bool} {pred succ : BitVec 4} {s : State} {t_ : State} (e_ : execFence hart tso
    pred succ s = .next t_) (hk : Keeps b0 s) : Keeps b0 t_ := by
  refine onWf_keeps e_ ?_
  repeat' first
    | with_reducible first
      | intro _ | assumption | apply issueIns_keeps | apply keeps_ite | simp only [keeps_mk_iff] | split | dsimp only

theorem execQsubmit_keeps {hart : Nat} {insn : BitVec 32} {s : State} {t_ : State} (e_ : execQsubmit hart insn s = .next
    t_) (hk : Keeps b0 s) : Keeps b0 t_ := by
  refine onWf_keeps e_ ?_
  repeat' first
    | with_reducible first
      | intro _ | assumption | apply issueIns_keeps | apply keeps_ite | simp only [keeps_mk_iff] | split | dsimp only

theorem execCboClean_keeps {hart addr : Nat} {s : State} {t_ : State} (e_ : execCboClean hart addr s = .next t_) (hk :
    Keeps b0 s) : Keeps b0 t_ := by
  refine onWf_keeps e_ ?_
  repeat' first
    | with_reducible first
      | intro _ | assumption | apply issueIns_keeps | apply keeps_ite | simp only [keeps_mk_iff] | split | dsimp only

theorem execCboFlush_keeps {hart addr : Nat} {s : State} {t_ : State} (e_ : execCboFlush hart addr s = .next t_) (hk :
    Keeps b0 s) : Keeps b0 t_ := by
  refine onWf_keeps e_ ?_
  repeat' first
    | with_reducible first
      | intro _ | assumption | apply issueIns_keeps | apply keeps_ite | simp only [keeps_mk_iff] | split | dsimp only

theorem execCboInval_keeps {hart addr : Nat} {s : State} {t_ : State} (e_ : execCboInval hart addr s = .next t_) (hk :
    Keeps b0 s) : Keeps b0 t_ := by
  refine onWf_keeps e_ ?_
  repeat' first
    | with_reducible first
      | intro _ | assumption | apply issueIns_keeps | apply keeps_ite | simp only [keeps_mk_iff] | split | dsimp only

theorem execCboZero_keeps {hart addr : Nat} {s : State} {t_ : State} (e_ : execCboZero hart addr s = .next t_) (hk : Keeps
    b0 s) : Keeps b0 t_ := by
  refine onWf_keeps e_ ?_
  repeat' first
    | with_reducible first
      | intro _ | assumption | apply issueIns_keeps | apply keeps_ite | simp only [keeps_mk_iff] | split | dsimp only

theorem execAmo_keeps {hart : Nat} {op : AmoOp} {rd rs2 addr size : Nat} {aq rl : Bool} {s : State} {t_ : State} (e_ :
    execAmo hart op rd rs2 addr size aq rl s = .next t_) (hk : Keeps b0 s) : Keeps b0 t_ := by
  refine onWf_keeps e_ ?_
  repeat' first
    | with_reducible first
      | intro _ | assumption | apply issueIns_keeps | apply keeps_ite | simp only [keeps_mk_iff] | split | dsimp only

theorem execLr_keeps {hart rd addr size : Nat} {aq rl : Bool} {s : State} {t_ : State} (e_ : execLr hart rd addr size aq
    rl s = .next t_) (hk : Keeps b0 s) : Keeps b0 t_ := by
  refine onWf_keeps e_ ?_
  repeat' first
    | with_reducible first
      | intro _ | assumption | apply issueIns_keeps | apply keeps_ite | simp only [keeps_mk_iff] | split | dsimp only

theorem execSc_keeps {hart rd rs2 addr size : Nat} {aq rl : Bool} {s : State} {t_ : State} (e_ : execSc hart rd rs2 addr
    size aq rl s = .next t_) (hk : Keeps b0 s) : Keeps b0 t_ := by
  refine onWf_keeps e_ ?_
  repeat' first
    | with_reducible first
      | intro _ | assumption | apply issueIns_keeps | apply keeps_ite | simp only [keeps_mk_iff] | split | dsimp only

theorem execSipiWrite_keeps {hart : Nat} {v : Word} {s : State} {t_ : State} (e_ : execSipiWrite hart v s = .next t_) (hk
    : Keeps b0 s) : Keeps b0 t_ := by
  refine onWf_keeps e_ ?_
  repeat' first
    | with_reducible first
      | intro _ | assumption | apply issueIns_keeps | apply keeps_ite | simp only [keeps_mk_iff] | split | dsimp only

theorem execMipiWrite_keeps {hart : Nat} {v : Word} {s : State} {t_ : State} (e_ : execMipiWrite hart v s = .next t_) (hk
    : Keeps b0 s) : Keeps b0 t_ := by
  refine onWf_keeps e_ ?_
  repeat' first
    | with_reducible first
      | intro _ | assumption | apply issueIns_keeps | apply keeps_ite | simp only [keeps_mk_iff] | split | dsimp only

theorem execQtimeRead_keeps {hart rd : Nat} {s : State} {t_ : State} (e_ : execQtimeRead hart rd s = .next t_) (hk : Keeps
    b0 s) : Keeps b0 t_ := by
  refine onWf_keeps e_ ?_
  repeat' first
    | with_reducible first
      | intro _ | assumption | apply issueIns_keeps | apply keeps_ite | simp only [keeps_mk_iff] | split | dsimp only

theorem execRfClean_keeps {hart : Nat} {v : Word} {s : State} {t_ : State} (e_ : execRfClean hart v s = .next t_) (hk :
    Keeps b0 s) : Keeps b0 t_ := by
  refine onWf_keeps e_ ?_
  repeat' first
    | with_reducible first
      | intro _ | assumption | apply issueIns_keeps | apply keeps_ite | simp only [keeps_mk_iff] | split | dsimp only

theorem execRfFlush_keeps {hart : Nat} {v : Word} {s : State} {t_ : State} (e_ : execRfFlush hart v s = .next t_) (hk :
    Keeps b0 s) : Keeps b0 t_ := by
  refine onWf_keeps e_ ?_
  repeat' first
    | with_reducible first
      | intro _ | assumption | apply issueIns_keeps | apply keeps_ite | simp only [keeps_mk_iff] | split | dsimp only

theorem execRfInvalidate_keeps {hart : Nat} {v : Word} {s : State} {t_ : State} (e_ : execRfInvalidate hart v s = .next
    t_) (hk : Keeps b0 s) : Keeps b0 t_ := by
  refine onWf_keeps e_ ?_
  repeat' first
    | with_reducible first
      | intro _ | assumption | apply issueIns_keeps | apply keeps_ite | simp only [keeps_mk_iff] | split | dsimp only

theorem execPcieCompletion_keeps {hart : Nat} {ok : Bool} {data : Word} {s : State} {t_ : State} (e_ : execPcieCompletion
    hart ok data s = .next t_) (hk : Keeps b0 s) : Keeps b0 t_ := by
  refine onWf_keeps e_ ?_
  repeat' first
    | with_reducible first
      | intro _ | assumption | apply pcieCompletionEffect_keeps | apply keeps_ite | simp only [keeps_mk_iff] | split
      | dsimp only

theorem execI3cDynamicAddress_keeps {hd addr : Nat} {setdasa : Bool} {s : State} {t_ : State} (e_ : execI3cDynamicAddress
    hd addr setdasa s = .next t_) (hk : Keeps b0 s) : Keeps b0 t_ := by
  refine onWf_keeps e_ ?_
  repeat' first
    | with_reducible first
      | intro _ | assumption | apply i3cAddressEffect_keeps | apply keeps_ite | simp only [keeps_mk_iff] | split
      | dsimp only

theorem execMctpControl_keeps {hd : Nat} {msg : List Byte} {s : State} {t_ : State} (e_ : execMctpControl hd msg s = .next
    t_) (hk : Keeps b0 s) : Keeps b0 t_ := by
  refine onWf_keeps e_ ?_
  repeat' first
    | with_reducible first
      | intro _ | assumption | apply mctpEffect_keeps | apply keeps_ite | simp only [keeps_mk_iff] | split | dsimp only

theorem execPldmSensorRead_keeps {hd sensor : Nat} {s : State} {t_ : State} (e_ : execPldmSensorRead hd sensor s = .next
    t_) (hk : Keeps b0 s) : Keeps b0 t_ := by
  refine onWf_keeps e_ ?_
  repeat' first
    | with_reducible first
      | intro _ | assumption | apply pldmEffect_keeps | apply keeps_ite | simp only [keeps_mk_iff] | split | dsimp only

theorem execGetVersion_keeps {hd : Nat} {msg : List Byte} {s : State} {t_ : State} (e_ : execGetVersion hd msg s = .next
    t_) (hk : Keeps b0 s) : Keeps b0 t_ := by
  refine onWf_keeps e_ ?_
  repeat' first
    | with_reducible first
      | intro _ | assumption | apply getVersionEffect_keeps | apply keeps_ite | simp only [keeps_mk_iff] | split
      | dsimp only

theorem execGetCapabilities_keeps {hd : Nat} {msg : List Byte} {s : State} {t_ : State} (e_ : execGetCapabilities hd msg s
    = .next t_) (hk : Keeps b0 s) : Keeps b0 t_ := by
  refine onWf_keeps e_ ?_
  repeat' first
    | with_reducible first
      | intro _ | assumption | apply getCapabilitiesEffect_keeps | apply keeps_ite | simp only [keeps_mk_iff] | split
      | dsimp only

theorem execNegotiateAlgorithms_keeps {hd : Nat} {msg : List Byte} {s : State} {t_ : State} (e_ : execNegotiateAlgorithms
    hd msg s = .next t_) (hk : Keeps b0 s) : Keeps b0 t_ := by
  refine onWf_keeps e_ ?_
  repeat' first
    | with_reducible first
      | intro _ | assumption | apply negotiateEffect_keeps | apply keeps_ite | simp only [keeps_mk_iff] | split
      | dsimp only

theorem execGetDigests_keeps {hd : Nat} {msg : List Byte} {s : State} {t_ : State} (e_ : execGetDigests hd msg s = .next
    t_) (hk : Keeps b0 s) : Keeps b0 t_ := by
  refine onWf_keeps e_ ?_
  repeat' first
    | with_reducible first
      | intro _ | assumption | apply getDigestsEffect_keeps | apply keeps_ite | simp only [keeps_mk_iff] | split
      | dsimp only

theorem execGetCertificate_keeps {hd slot offset len : Nat} {s : State} {t_ : State} (e_ : execGetCertificate hd slot
    offset len s = .next t_) (hk : Keeps b0 s) : Keeps b0 t_ := by
  refine onWf_keeps e_ ?_
  repeat' first
    | with_reducible first
      | intro _ | assumption | apply getCertificateEffect_keeps | apply keeps_ite | simp only [keeps_mk_iff] | split
      | dsimp only

theorem execChallenge_keeps {hd slot : Nat} {nonce : List Byte} {s : State} {t_ : State} (e_ : execChallenge hd slot nonce
    s = .next t_) (hk : Keeps b0 s) : Keeps b0 t_ := by
  refine onWf_keeps e_ ?_
  repeat' first
    | with_reducible first
      | intro _ | assumption | apply challengeEffect_keeps | apply keeps_ite | simp only [keeps_mk_iff] | split
      | dsimp only

theorem execGetMeasurements_keeps {hd index : Nat} {nonce : List Byte} {s : State} {t_ : State} (e_ : execGetMeasurements
    hd index nonce s = .next t_) (hk : Keeps b0 s) : Keeps b0 t_ := by
  refine onWf_keeps e_ ?_
  repeat' first
    | with_reducible first
      | intro _ | assumption | apply getMeasurementsEffect_keeps | apply keeps_ite | simp only [keeps_mk_iff] | split
      | dsimp only

theorem execKeyExchange_keeps {hd slot : Nat} {msg : List Byte} {s : State} {t_ : State} (e_ : execKeyExchange hd slot msg
    s = .next t_) (hk : Keeps b0 s) : Keeps b0 t_ := by
  refine onWf_keeps e_ ?_
  repeat' first
    | with_reducible first
      | intro _ | assumption | apply keyExchangeEffect_keeps | apply keeps_ite | simp only [keeps_mk_iff] | split
      | dsimp only

theorem execFinish_keeps {hd : Nat} {msg : List Byte} {s : State} {t_ : State} (e_ : execFinish hd msg s = .next t_) (hk :
    Keeps b0 s) : Keeps b0 t_ := by
  refine onWf_keeps e_ ?_
  repeat' first
    | with_reducible first
      | intro _ | assumption | apply finishEffect_keeps | apply keeps_ite | simp only [keeps_mk_iff] | split
      | dsimp only

theorem execEndSession_keeps {hd : Nat} {s : State} {t_ : State} (e_ : execEndSession hd s = .next t_) (hk : Keeps b0 s) :
    Keeps b0 t_ := by
  refine onWf_keeps e_ ?_
  repeat' first
    | with_reducible first
      | intro _ | assumption | apply endSessionEffect_keeps | apply keeps_ite | simp only [keeps_mk_iff] | split
      | dsimp only

theorem execUartReceive_keeps {hd : Nat} {c : Byte} {s : State} {t_ : State} (e_ : execUartReceive hd c s = .next t_) (hk
    : Keeps b0 s) : Keeps b0 t_ := by
  refine onWf_keeps e_ ?_
  repeat' first
    | with_reducible first
      | intro _ | assumption | apply uartEffect_keeps | apply keeps_ite | simp only [keeps_mk_iff] | split | dsimp only

theorem execTapInstruction_keeps {code : Nat} {s : State} {t_ : State} (e_ : execTapInstruction code s = .next t_) (hk :
    Keeps b0 s) : Keeps b0 t_ := by
  refine onWf_keeps e_ ?_
  repeat' first
    | with_reducible first
      | intro _ | assumption | apply tapEffect_keeps | apply keeps_ite | simp only [keeps_mk_iff] | split | dsimp only

end Sys2Proof.Machine
end

