-- ==== Sys2Proof/Laws/Links.lean ====
section
/-! SUPPORT. The laws of links and remote requests: one direction of a link leaves the others, and what the arrival of a
response leaves. -/

namespace Sys2Proof.Machine

/-- A direction that is set leaves every other. -/
theorem linkOf_ne {l d l' d' x s} (h : l' * 2 + d' ≠ l * 2 + d) : linkOf (setLink l d x s) l' d' = linkOf s l' d' := by
  unfold linkOf setLink; exact tblGet_set_ne h

/-- What is sent in turn is appended in order. -/
theorem sends_eq {f : α → Out} {l : List α} {s} : l.foldl (fun s a => send (f a) s) s = { s with out := s.out ++ l.map f } := by
  induction l generalizing s with
  | nil => simp
  | cons a l ih => rw [List.foldl_cons, ih]; unfold send; simp

/-- A direction is as it was but for what its receiver still has to say, which flits of the other direction carry. -/
def ReceiverSame (x y : LinkDir) : Prop := y = { x with nakDue := y.nakDue, freed := y.freed }

theorem ReceiverSame.refl {x : LinkDir} : ReceiverSame x x := rfl

theorem ReceiverSame.trans {x y z : LinkDir} (h : ReceiverSame x y) (k : ReceiverSame y z) : ReceiverSame x z := by
  unfold ReceiverSame at *; rw [k, h]

/-- A flit sent on a direction changes the other one's receiver alone. -/
theorem sendFlit_other {l d e n : Nat} {b : List Byte} {s : State} (hd : d < 2) : ReceiverSame (linkOf s l d) (linkOf (sendFlit l (back d) e n b s) l d) := by
  have hb : back (back d) = d := by unfold back; omega
  unfold sendFlit
  dsimp only
  split
  · rw [hb]
    show ReceiverSame (linkOf s l d) (linkOf (setLink l d _ s) l d)
    rw [show ∀ x, linkOf (setLink l d x s) l d = x from fun x => by unfold linkOf setLink; simp [tblGet]]
    rfl
  · exact .refl

/-- And leaves the links of other numbers, and the direction it goes on. -/
theorem sendFlit_ne {l d e n k f : Nat} {b : List Byte} {s : State} (h : k ≠ l ∨ f = d) (hd : d < 2) (hf : f < 2) :
    linkOf (sendFlit l d e n b s) k f = linkOf s k f := by
  unfold sendFlit
  dsimp only
  split
  · exact linkOf_ne (by unfold back; omega)
  · rfl

/-- What holds of every step of a chain holds of the chain. -/
theorem foldl_receiver {α : Type} {g : State → α → State} {l d : Nat} (h : ∀ s a, ReceiverSame (linkOf s l d) (linkOf (g s a) l d)) {as : List α} :
    ∀ {s : State}, ReceiverSame (linkOf s l d) (linkOf (as.foldl g s) l d) := by
  induction as with
  | nil => intro s; exact .refl
  | cons a t ih => intro s; rw [List.foldl_cons]; exact (h s a).trans ih

theorem unhold_other {l d : Nat} {s : State} (hd : d < 2) : linkOf (unhold l (back d) s) l d = linkOf s l d := by
  unfold unhold
  split
  · rename_i hc
    clear hc
    generalize twins l = ks
    induction ks generalizing s with
    | nil => rfl
    | cons k ks ih =>
      rw [List.foldl_cons, ih]
      split
      · exact linkOf_ne (by unfold back; omega)
      · rfl
  · rfl

/-- What a direction sends next changes the other one's receiver alone. -/
theorem pump_other {l d : Nat} {s : State} (hd : d < 2) : ReceiverSame (linkOf s l d) (linkOf (pump l (back d) s) l d) := by
  unfold pump
  dsimp only
  split
  · rw [unhold_other hd]; exact .refl
  · have h : ∀ x, linkOf (setLink l (back d) x (unhold l (back d) s)) l d = linkOf s l d := fun x => by
      rw [linkOf_ne (by unfold back; omega), unhold_other hd]
    refine ReceiverSame.trans ?_ (foldl_receiver (fun _ _ => sendFlit_other hd))
    rw [h]; exact .refl

/-- A header acts on the other direction; of its own, only what the flits sent back say for its receiver. -/
theorem takeHeader_other {l d h : Nat} {s : State} (hd : d < 2) : ReceiverSame (linkOf s l d) (linkOf (takeHeader l d h s) l d) := by
  unfold takeHeader
  dsimp only
  refine ReceiverSame.trans ?_ (pump_other hd)
  have : ∀ x, linkOf (setLink l (back d) x s) l d = linkOf s l d := fun x => linkOf_ne (by unfold back; omega)
  split
  · refine ReceiverSame.trans ?_ (foldl_receiver (fun _ _ => sendFlit_other hd))
    rw [this]; exact .refl
  · rw [this]; exact .refl

theorem setIns_pair {n m : Nat} : setIns n [m] = if n < m then [n, m] else if n = m then [m] else [m, n] := by
  simp only [setIns]

/-- Data of a load of one line write its register. -/
theorem hartArrive_none {h src tag rd off n : Nat} {sg : Bool} {d : List Byte} {s : State} (e : (hartOf s h).splits = []) :
    hartArrive h src tag rd off n sg d s = wrX h rd (loadValue ((d.drop off).take n) n sg) s := by
  unfold hartArrive; dsimp only; rw [e]; rfl

/-- No load of two lines fails where none is awaited. -/
theorem hartSplitFails_none {h src tag : Nat} {s : State} (e : (hartOf s h).splits = []) : hartSplitFails h src tag s = s := by
  unfold hartSplitFails; dsimp only; rw [e]; rfl

/-- A request that completes leaves the harts. -/
theorem hartOf_settle {o : Outstanding} {e : Bool} {d : List Byte} {s : State} {h : Nat} : hartOf (settleRemote o e d s) h = hartOf s h := rfl

end Sys2Proof.Machine
end

