-- ==== Sys2Proof/Laws/Mailbox.lean ====
section
/-! SUPPORT. The laws of the mailbox: the request area holds what was put there, and a request that nothing stands against
runs its command. -/

namespace Sys2Proof.Machine

/-! ### Words and bytes -/

@[simp] theorem bytesOf_nil : bytesOf [] = [] := rfl

@[simp] theorem bytesOf_cons {w : Word} {ws : List Word} : bytesOf (w :: ws) = leBytes 8 w.toNat ++ bytesOf ws := rfl

@[simp] theorem bytesOf_length {ws : List Word} : (bytesOf ws).length = 8 * ws.length := by
  induction ws with
  | nil => rfl
  | cons w ws ih => simp [ih]; omega

theorem leNat_word {w : Word} : leNat (leBytes 8 w.toNat) = w.toNat := by
  rw [leNat_leBytes]
  exact Nat.mod_eq_of_lt w.isLt

/-- Chunks of whole words, whatever follows them. -/
theorem chunks_bytesOf {ws : List Word} {rest : List Byte} {f : Nat} (hf : ws.length ≤ f) :
    ((chunks 8 f (bytesOf ws ++ rest)).map (fun c => word (leNat c))).take ws.length = ws := by
  induction ws generalizing f with
  | nil => simp
  | cons w ws ih =>
    cases f with
    | zero => simp at hf
    | succ f =>
      have h8 : (leBytes 8 w.toNat).length = 8 := leBytes_length
      have hne : (leBytes 8 w.toNat ++ (bytesOf ws ++ rest)).isEmpty = false := by
        cases h : leBytes 8 w.toNat with
        | nil => rw [h] at h8; simp at h8
        | cons => simp
      have ht : (leBytes 8 w.toNat ++ (bytesOf ws ++ rest)).take 8 = leBytes 8 w.toNat := by
        rw [List.take_append_of_le_length (by omega), List.take_of_length_le (by omega)]
      have hd : (leBytes 8 w.toNat ++ (bytesOf ws ++ rest)).drop 8 = bytesOf ws ++ rest := by
        rw [List.drop_append_of_le_length (by omega), List.drop_of_length_le (by omega)]; rfl
      rw [bytesOf_cons, List.append_assoc, chunks, hne]
      simp only [Bool.false_eq_true, if_false, ht, hd, List.map_cons, List.length_cons, List.take_succ_cons, leNat_word]
      rw [ih (by simpa using hf)]
      simp [word]

theorem wordsOf_bytesOf {ws : List Word} {rest : List Byte} : (wordsOf (bytesOf ws ++ rest)).take ws.length = ws := by
  unfold wordsOf
  refine chunks_bytesOf ?_
  simp
  omega

/-- A longer read begins with a shorter one. -/
theorem memRead_split {m : Mem} {a n k : Nat} : memRead m a (n + k) = memRead m a n ++ memRead m (a + n) k := by
  induction n generalizing a with
  | zero => simp [memRead]
  | succ n ih =>
    rw [Nat.add_right_comm, memRead, memRead, ih, List.cons_append, Nat.add_right_comm, Nat.add_assoc a n 1]

/-! ### The request area (R378) -/

@[simp] theorem chanOf_setChan_same {s : State} {c : Nat} {x : Chan} : chanOf (setChan c x s) c = x := tblGet_set_same


/-- The Caboose reads the message that was put. -/
theorem request_put {s : State} {ch : Nat} {hdr : Word} {pl : List Word} (hb : (chanOf s ch).busy = false) (hl : pl.length ≤ 255) :
    (request (putRequest ch hdr pl s) ch).1 = hdr.toNat ∧ (request (putRequest ch hdr pl s) ch).2.take pl.length = pl := by
  have hc : (chanOf (putRequest ch hdr pl s) ch).req = memWrite (chanOf s ch).req 0 (bytesOf (hdr :: pl)) := by
    simp [putRequest, hb]
  have hw : memRead (memWrite (chanOf s ch).req 0 (bytesOf (hdr :: pl))) 0 (8 + 8 * pl.length) = leBytes 8 hdr.toNat ++ bytesOf pl := by
    have := memRead_write (m := (chanOf s ch).req) (a := 0) (bs := bytesOf (hdr :: pl))
    rw [bytesOf_length, List.length_cons, Nat.mul_succ, Nat.add_comm] at this
    exact this
  rw [memRead_split] at hw
  have h := List.append_inj hw (by simp)
  unfold request
  dsimp only
  rw [hc]
  constructor
  · rw [memLe, h.1, leNat_word]
  · rw [show 2040 = 8 * pl.length + (2040 - 8 * pl.length) by omega, memRead_split, show (8 : Nat) = 0 + 8 from rfl, h.2]
    exact wordsOf_bytesOf

/-- What putting a request leaves alone. -/
theorem chanOf_putRequest {s : State} {ch : Nat} {hdr : Word} {pl : List Word} : (chanOf (putRequest ch hdr pl s) ch).busy = (chanOf s ch).busy ∧
    (chanOf (putRequest ch hdr pl s) ch).lastSeq = (chanOf s ch).lastSeq ∧ (chanOf (putRequest ch hdr pl s) ch).gen = (chanOf s ch).gen := by
  unfold putRequest
  dsimp only
  split
  · exact ⟨rfl, rfl, rfl⟩
  · simp

theorem putRequest_eq {s : State} {ch : Nat} {hdr : Word} {pl : List Word} :
    ∃ t, putRequest ch hdr pl s = { s with chans := t } := by
  unfold putRequest
  dsimp only
  split
  · exact ⟨s.chans, rfl⟩
  · exact ⟨_, rfl⟩

/-- A request put on an idle channel is behind the same requests as before. -/
theorem behindOther_put {s : State} {ch code : Nat} {hdr : Word} {pl w : List Word} :
    behindOther (putRequest ch hdr pl s) ch code w = behindOther s ch code w := by
  have ht : (chanOf (putRequest ch hdr pl s) ch).turn = (chanOf s ch).turn := by
    unfold putRequest; dsimp only; split
    · rfl
    · simp
  unfold behindOther
  rw [ht]
  cases namedPart code w with
  | none => rfl
  | some p =>
    dsimp only
    unfold putRequest
    dsimp only
    split
    · rfl
    · exact any_tblSet (fun x => by simp)

/-- A request that nothing stands against runs its command, and the reply follows (R377 to R381). -/
theorem submit_ready {s : State} {code ch : Nat} {hdr : Word} {pl : List Word} (f : Nat → Cmd) (h : ready s code ch hdr pl = true) :
    submit f code ch (.go hdr pl) s =
      conclude ch hdr.toNat (f code ch (wf hdr 31 16) pl (putRequest ch hdr pl s)).1
        (f code ch (wf hdr 31 16) pl (putRequest ch hdr pl s)).2 := by
  simp only [ready, Bool.and_eq_true, Bool.or_eq_true, decide_eq_true_eq, beq_iff_eq, Bool.not_eq_true', Option.isNone_iff_eq_none] at h
  obtain ⟨⟨⟨⟨⟨⟨⟨⟨hpl, hact⟩, hbusy⟩, hcode⟩, hlen⟩, hseq⟩, hadm⟩, hform⟩, hfirst⟩ := h
  obtain ⟨h1, h2⟩ := request_put (hdr := hdr) hbusy hpl
  obtain ⟨hb, hs, hg⟩ := chanOf_putRequest (s := s) (ch := ch) (hdr := hdr) (pl := pl)
  have hbr : (chanOf (putRequest ch hdr pl s) ch).busy = false := hb.trans hbusy
  obtain ⟨t, ht⟩ := putRequest_eq (s := s) (ch := ch) (hdr := hdr) (pl := pl)
  have hsv : served (putRequest ch hdr pl s) = true := by rw [ht]; exact hact
  have hlc : (putRequest ch hdr pl s).lc = s.lc := by rw [ht]
  have had : admitted (putRequest ch hdr pl s) ch code pl = admitted s ch code pl := by rw [ht]; rfl
  have ef : ∀ a b, fld hdr.toNat a b = wf hdr a b := fun _ _ => rfl
  have hlen' : wf hdr 15 0 / 8 = pl.length := by omega
  unfold submit
  dsimp only
  rw [if_pos hcode]
  unfold goWith
  simp only [hbr, hsv, Bool.not_true, Bool.or_self, Bool.false_eq_true, if_false, h1, ef, hcode, hs]
  rw [if_pos (by simpa using hseq)]
  have hw : mustWaitTurn (putRequest ch hdr pl s) ch hdr.toNat (request (putRequest ch hdr pl s) ch).2 = false := by
    unfold mustWaitTurn
    simp only [ef, hlen', h2, hcode, behindOther_put, hfirst, Bool.and_false]
  rw [if_neg (by rw [hw]; exact Bool.false_ne_true)]
  unfold execute answer
  simp only [ef, hlen', h2, hcode, hlc, hg]
  rw [hform]
  simp only [had]
  rcases hadm with hc | ⟨hgen, hok⟩
  · simp [hc]
  · simp [hgen, hok]

/-! ### The rejection that R8 chooses -/

theorem lowest_none {l : List (Bool × Nat)} : lowest l = none ↔ ∀ c ∈ l, c.1 = false := by
  induction l with
  | nil => simp [lowest]
  | cons c l ih =>
    obtain ⟨b, st⟩ := c
    unfold lowest
    cases h : lowest l with
    | none =>
      have := ih.1 h
      cases b
      · simpa using this
      · simp
    | some x =>
      have : ¬ ∀ c ∈ l, c.1 = false := fun a => by rw [ih.2 a] at h; cases h
      cases b
      all_goals simp
      all_goals simpa using this

theorem lowest_some {l : List (Bool × Nat)} {st : Nat} (h : lowest l = some st) :
    (true, st) ∈ l ∧ ∀ c ∈ l, c.1 = true → st ≤ c.2 := by
  induction l generalizing st with
  | nil => cases h
  | cons c l ih =>
    obtain ⟨b, x⟩ := c
    unfold lowest at h
    cases hl : lowest l with
    | none =>
      have hn := lowest_none.1 hl
      rw [hl] at h
      cases b
      · cases h
      · cases h
        refine ⟨List.mem_cons_self, fun c hc h1 => ?_⟩
        rcases List.mem_cons.1 hc with rfl | hc
        · exact Nat.le_refl _
        · rw [hn c hc] at h1; cases h1
    | some y =>
      rw [hl] at h
      obtain ⟨h1, h2⟩ := ih hl
      cases b
      · cases h
        refine ⟨List.mem_cons_of_mem _ h1, fun c hc h3 => ?_⟩
        rcases List.mem_cons.1 hc with rfl | hc
        · cases h3
        · exact h2 c hc h3
      · cases h
        constructor
        · rcases Nat.le_total x y with hxy | hxy
          · rw [Nat.min_eq_left hxy]; exact List.mem_cons_self
          · rw [Nat.min_eq_right hxy]; exact List.mem_cons_of_mem _ h1
        · intro c hc h3
          rcases List.mem_cons.1 hc with rfl | hc
          · exact Nat.min_le_left _ _
          · exact Nat.le_trans (Nat.min_le_right _ _) (h2 c hc h3)

/-- No check has failed. -/
theorem pick_none {cs : List Check} : pick cs = none ↔ ∀ c ∈ cs, c.1 = false := by
  unfold pick
  cases h : lowest (cs.map (fun c => (c.1, c.2.1))) with
  | none => simpa using lowest_none.1 h
  | some st =>
    obtain ⟨h1, -⟩ := lowest_some h
    obtain ⟨c, hc, he⟩ := List.mem_map.1 h1
    have h2 : c.1 = true := congrArg Prod.fst he
    have h3 : c.2.1 = st := congrArg Prod.snd he
    have : ¬ ∀ c ∈ cs, c.1 = false := fun a => by have := a c hc; simp_all
    simp only [this, iff_false, Option.map_eq_none_iff, List.find?_eq_none]
    intro hn
    exact hn c hc (by simp_all)

/-- The rejection is a check that failed, and none that failed has a lower status. -/
theorem pick_some {cs : List Check} {st d : Nat} (h : pick cs = some (st, d)) :
    (true, st, d) ∈ cs ∧ ∀ c ∈ cs, c.1 = true → st ≤ c.2.1 := by
  unfold pick at h
  cases hl : lowest (cs.map (fun c => (c.1, c.2.1))) with
  | none => rw [hl] at h; cases h
  | some x =>
    rw [hl] at h
    dsimp only at h
    obtain ⟨c, hf, he⟩ := Option.map_eq_some_iff.1 h
    cases he
    have hm := List.mem_of_find?_eq_some hf
    have hp := List.find?_some hf
    simp only [Bool.and_eq_true, beq_iff_eq] at hp
    obtain ⟨h1, h2⟩ := hp
    refine ⟨?_, fun c' hc' h3 => ?_⟩
    · have : c = (true, c.2.1, c.2.2) := by rw [← h1]
      rw [← h2, ← this]; exact hm
    · exact (lowest_some hl).2 (c'.1, c'.2.1) (List.mem_map.2 ⟨c', hc', rfl⟩) h3

/-! ### Each row on its message -/

/-- A request whose header names the row stands in the request area and goes (R377, R378). -/
theorem submit_go {f : Nat → Cmd} {code ch : Nat} {hdr : Word} {pl : List Word} {s : State} (h : wf hdr 47 32 = code) :
   submit f code ch (.go hdr pl) s = goWith f ch (putRequest ch hdr pl s) := by unfold submit; dsimp only; rw [if_pos h]

/-- Each mailbox row on the message that names it runs the command of the table of 14. -/
theorem exec_go {t : SelfTest} {ch : Nat} {hdr : Word} {pl : List Word} {i : Instr} {s : State}
   (h : goRow t ch hdr pl = some i) (hw : i.wellFormed = true) :
   ∃ t', exec i s = .next (goWith (runCommand t') ch (putRequest ch hdr pl s)) ∧
     ∀ ch' seq s', runCommand t' (wf hdr 47 32) ch' seq pl s' = runCommand t (wf hdr 47 32) ch' seq pl s' := by
  unfold goRow at h
  split at h
  all_goals try (cases h; rename_i hc; exact ⟨{}, by first | (exact (onWf_next hw).trans (congrArg _ (submit_go hc))) , by rw [hc]; intros; rfl⟩)
  · rename_i hc
    cases h
    split at hw
    · rename_i hb
      refine ⟨t, ?_, fun _ _ _ => rfl⟩
      rw [if_pos hb]
      refine (onWf_next hw).trans (congrArg _ ?_)
      unfold resetRow resetScope
      simp only [hb]
      exact submit_go hc
    · rename_i hb
      refine ⟨{}, ?_, ?_⟩
      · rw [if_neg hb]
        refine (onWf_next hw).trans (congrArg _ ?_)
        unfold resetRow resetScope
        simp only [hb]
        exact submit_go hc
      · intro ch' seq s'
        rw [hc]
        show cmdReset {} ch' seq pl s' = cmdReset t ch' seq pl s'
        unfold cmdReset
        simp [hb]
  · rename_i hc
    split at h
    · rename_i ho
      cases h
      refine ⟨t, (onWf_next hw).trans (congrArg _ ?_), fun _ _ _ => rfl⟩
      unfold lifecycleRow
      rw [if_pos ho]
      exact submit_go hc
    · rename_i ho
      cases h
      refine ⟨{}, (onWf_next hw).trans (congrArg _ ?_), fun ch' seq s' => ?_⟩
      · unfold lifecycleRow
        rw [if_pos ho]
        exact submit_go hc
      · rw [hc]
        show cmdLifecycle {} ch' seq pl s' = cmdLifecycle t ch' seq pl s'
        unfold cmdLifecycle
        simp [ho]
    · rename_i ho
      cases h
      refine ⟨{}, (onWf_next hw).trans (congrArg _ ?_), fun ch' seq s' => ?_⟩
      · unfold lifecycleRow
        rw [if_pos ho]
        exact submit_go hc
      · rw [hc]
        show cmdLifecycle {} ch' seq pl s' = cmdLifecycle t ch' seq pl s'
        unfold cmdLifecycle
        simp [ho]
    · cases h
  · cases h

/-- Putting a request changes channels alone. -/
theorem put_facts (ch : Nat) (hdr : Word) (pl : List Word) (s : State) :
   ∃ t, putRequest ch hdr pl s = { s with chans := t } := putRequest_eq

@[simp] theorem pend_chans (h f i : Nat) (s : State) : (pend h f i s).chans = s.chans := by
  unfold pend; split <;> rfl
theorem chanOf_replyIrq (c d : Nat) (s : State) : chanOf (replyIrq c s) d = chanOf s d := by
  unfold replyIrq; dsimp only; split
  · unfold chanOf; rw [pend_chans]
  · rfl
theorem chanOf_putReply (c : Nat) (ws : List Word) (s : State) : (chanOf (putReply c ws s) c).lastSeq = (chanOf s c).lastSeq := by
  unfold putReply; dsimp only; rw [chanOf_replyIrq]; simp
/-- The reply sets last_seq to the seq of its request (R379). -/
theorem conclude_seq (ch hdr : Nat) (r : Reply) (s : State) (hf : r.fresh = false) : (chanOf (conclude ch hdr r s) ch).lastSeq = fld hdr 31 16 := by
  unfold conclude; dsimp only
  split
  · simp
  · rw [chanOf_putReply]; simp [hf]

/-- What go does on an idle channel of an active Caboose (R379). -/
theorem go_idle {f : Nat → Cmd} {ch : Nat} {hdr : Word} {pl : List Word} {s : State} (ha : s.active.isSome = true) (hb : (chanOf s ch).busy = false)
  (hl : pl.length ≤ 255) :
  goWith f ch (putRequest ch hdr pl s) = 
    (let c := chanOf s ch; let s1 := putRequest ch hdr pl s
     if wf hdr 47 32 = 1 || wf hdr 31 16 = (c.lastSeq + 1) % 65536 then
       if mustWaitTurn s1 ch hdr.toNat (request s1 ch).2 then setChan ch { chanOf s1 ch with busy := true, turn := some (nextTurn s1) } s1
       else execute f ch hdr.toNat (request s1 ch).2 s1
     else if wf hdr 31 16 = c.lastSeq then
       if c.stored.isEmpty then putReply ch (replyWords c.gen (wf hdr 47 32) (wf hdr 31 16) (rejected stState)) s1
       else putReply ch c.stored s1
     else putReply ch (replyWords c.gen (wf hdr 47 32) (wf hdr 31 16) (rejected stFormat)) s1) := by
  obtain ⟨h1, h2⟩ := request_put (hdr := hdr) hb hl
  obtain ⟨e1, e2, e3⟩ := chanOf_putRequest (s := s) (ch := ch) (hdr := hdr) (pl := pl)
  have e4 : (chanOf (putRequest ch hdr pl s) ch).stored = (chanOf s ch).stored := by
    unfold putRequest; dsimp only; split
    · rfl
    · simp
  obtain ⟨t, ht⟩ := put_facts ch hdr pl s
  have hs : served (putRequest ch hdr pl s) = true := by rw [ht]; exact ha
  unfold goWith
  simp only [e1, hb, hs, Bool.not_true, Bool.or_self, Bool.false_eq_true, if_false, h1, e2, e3, e4]
  rfl

/-- Whether a request just put on an idle channel waits for an earlier one (R382). -/
theorem mustWaitTurn_put {ch : Nat} {hdr : Word} {pl : List Word} {s : State} (hb : (chanOf s ch).busy = false) (hl : pl.length ≤ 255)
    (hlen : wf hdr 15 0 = 8 * pl.length) :
    mustWaitTurn (putRequest ch hdr pl s) ch hdr.toNat (request (putRequest ch hdr pl s) ch).2 =
      ((malformed s.lc.state (chanOf s ch).gen hdr.toNat pl).isNone && decide ((chanOf s ch).gen ≠ 0) && admitted s ch (wf hdr 47 32) pl &&
        behindOther s ch (wf hdr 47 32) pl) := by
  obtain ⟨-, h2⟩ := request_put (hdr := hdr) hb hl
  obtain ⟨x, hx⟩ := put_facts ch hdr pl s
  have hlc : (putRequest ch hdr pl s).lc = s.lc := by rw [hx]
  have had : admitted (putRequest ch hdr pl s) ch (wf hdr 47 32) pl = admitted s ch (wf hdr 47 32) pl := by rw [hx]; rfl
  have ef : ∀ a b, fld hdr.toNat a b = wf hdr a b := fun _ _ => rfl
  unfold mustWaitTurn
  simp only [ef, show wf hdr 15 0 / 8 = pl.length by omega, h2, hlc, (chanOf_putRequest).2.2, had, behindOther_put]

/-- A malformed request waits for nothing. -/
theorem mustWaitTurn_malformed {s : State} {ch hdr : Nat} {w : List Word} {d : Nat}
    (h : malformed s.lc.state (chanOf s ch).gen hdr (w.take (fld hdr 15 0 / 8)) = some d) : mustWaitTurn s ch hdr w = false := by
  unfold mustWaitTurn
  simp [h]

/-- A mailbox row has a channel and at most 255 words of payload (R378). -/
theorem wf_len {t : SelfTest} {ch : Nat} {hdr : Word} {pl : List Word} {i : Instr} (h : goRow t ch hdr pl = some i) (hw : i.wellFormed = true) :
   pl.length ≤ 255 ∧ ch < 16 := by
  unfold goRow at h
  split at h
  all_goals try split at h
  all_goals first | (cases h; done) | skip
  all_goals cases h
  all_goals simp [Instr.wellFormed, okChan, okPayload, okSubmission] at hw
  all_goals (constructor <;> omega)

/-- A request that nothing stands against runs its command. -/
theorem sub_exec {i : Instr} {f : Nat → Cmd} {code ch : Nat} {hdr : Word} {pl : List Word} {s : State} (hw : i.wellFormed = true)
  (hr : ready s code ch hdr pl = true) (he : exec i s = onWf i (submit f code ch (.go hdr pl) s)) :
  exec i s = .next (conclude ch hdr.toNat (f code ch (wf hdr 31 16) pl (putRequest ch hdr pl s)).1
        (f code ch (wf hdr 31 16) pl (putRequest ch hdr pl s)).2) := by
  rw [he, onWf_next hw, submit_ready _ hr]

end Sys2Proof.Machine
end

