-- ==== Sys2Proof/Laws/Power.lean ====
section
/-! SUPPORT. The laws of power, temperature, supply and bring-up: what the domains are after a boundary and after a sample, and what
the loss of the rails and a package reset leave. -/

namespace Sys2Proof.Machine

/-- The domain that was set, and every other. -/
theorem domOf_setDom {a b : Nat} {d : Dom} {s : State} : domOf (setDom a d s) b = if b = a then d else domOf s b := by
  unfold domOf setDom
  by_cases h : b = a
  · subst h; simp
  · simp [h, tblGet?_set_ne h]

/-- Nothing of the power controller but the flag of a held floor is touched, and the clock stands. -/
structure NearPower (u t : State) : Prop where
  power : t.power = { u.power with capFloor := t.power.capFloor }
  flag : u.power.capFloor = true → t.power.capFloor = true
  time : t.quartz = u.quartz
  therm : ∃ f, t.thermal = { u.thermal with flag := f }

theorem NearPower.refl (u : State) : NearPower u u := ⟨rfl, id, rfl, _, rfl⟩

theorem NearPower.trans {a b c : State} (h : NearPower a b) (k : NearPower b c) : NearPower a c :=
  ⟨by rw [k.power, h.power], fun x => k.flag (h.flag x), k.time.trans h.time, by
    obtain ⟨f, e⟩ := h.therm; obtain ⟨g, e'⟩ := k.therm; exact ⟨g, by rw [e', e]⟩⟩

/-- An event leaves the power controller. -/
theorem raise_power {c u k : Nat} {s : State} : (raiseEvent c u k s).power = s.power := by
  unfold raiseEvent; dsimp only; split <;> split <;> rfl

/-- An event leaves the Quartz. -/
theorem raise_quartz {c u k : Nat} {s : State} : (raiseEvent c u k s).quartz = s.quartz := by
  unfold raiseEvent; dsimp only; split <;> split <;> rfl

/-- An event leaves the temperatures. -/
theorem raise_thermal {c u k : Nat} {s : State} : (raiseEvent c u k s).thermal = s.thermal := by
  unfold raiseEvent; dsimp only; split <;> split <;> rfl

/-- A held floor sets its flag. -/
theorem near_cap {u k : Nat} {s : State} : NearPower s (capFloorEvent u k s) ∧ (capFloorEvent u k s).power.capFloor = true := by
  unfold capFloorEvent
  refine ⟨⟨?_, fun _ => ?_, ?_, s.thermal.flag, ?_⟩, ?_⟩ <;> simp only [raise_power, raise_quartz, raise_thermal]

theorem near_throttle {d : Nat} {s : State} : NearPower s (throttleEvent d s) := by
  unfold throttleEvent
  refine ⟨?_, fun h => ?_, ?_, true, ?_⟩ <;> simp only [raise_power, raise_quartz, raise_thermal]
  exact h

theorem near_bump {i j n : Nat} {s : State} : NearPower s (bump i j n s) := ⟨rfl, id, rfl, _, rfl⟩

/-- What holds of each holds of all in turn. -/
theorem near_fold {α : Type} {f : State → α → State} (c : α → Bool) (h : ∀ s r, NearPower s (f s r))
    (hc : ∀ s r, c r = true → (f s r).power.capFloor = true) (l : List α) (s : State) :
    NearPower s (l.foldl f s) ∧ (l.any c = true → (l.foldl f s).power.capFloor = true) := by
  induction l generalizing s with
  | nil => exact ⟨NearPower.refl s, fun h => by simp at h⟩
  | cons r l ih =>
    obtain ⟨h1, h2⟩ := ih (f s r)
    refine ⟨(h s r).trans h1, fun hr => ?_⟩
    rw [List.any_cons, Bool.or_eq_true] at hr
    rcases hr with hr | hr
    · exact h1.flag (hc s r hr)
    · exact h2 hr

/-- The domains set in turn. -/
theorem domOf_fold {α : Type} (g : Nat → Dom × α) (n : Nat) (s : State) :
    ∀ a, domOf (((List.range n).map (fun a => (a, g a))).foldl (fun s (r : Nat × Dom × α) => setDom r.1 r.2.1 s) s) a = if a < n then (g a).1 else domOf s a := by
  induction n with
  | zero => intro a; simp
  | succ n ih =>
    intro a
    rw [List.range_succ, List.map_append, List.foldl_append]
    simp only [List.map_cons, List.map_nil, List.foldl_cons, List.foldl_nil, domOf_setDom, ih]
    by_cases h : a = n
    · subst h; simp
    · by_cases h2 : a < n
      · simp [h, h2, show a < n + 1 by omega]
      · simp [h, h2, show ¬ a < n + 1 by omega]

/-- Domains set leave everything else. -/
theorem setDoms_rest {α : Type} (g : Nat → Dom × α) (l : List Nat) (s : State) :
    let t := (l.map (fun a => (a, g a))).foldl (fun s (r : Nat × Dom × α) => setDom r.1 r.2.1 s) s
    t = { s with power := { s.power with doms := t.power.doms } } := by
  induction l generalizing s with
  | nil => rfl
  | cons a l ih => intro t; exact ih (setDom a (g a).1 s)

/-- The partitions, the temperatures, the Quartz and the power controller are as they were. -/
def SameFour (s t : State) : Prop := t.parts = s.parts ∧ t.thermal = s.thermal ∧ t.quartz = s.quartz ∧ t.power = s.power

theorem pend_four {h f i : Nat} {s : State} : SameFour s (pend h f i s) := by
  unfold pend; split
  · exact ⟨rfl, rfl, rfl, rfl⟩
  · exact ⟨rfl, rfl, rfl, rfl⟩

theorem irq_four {ch : Nat} {s : State} : SameFour s (replyIrq ch s) := by
  unfold replyIrq; dsimp only; split
  · exact pend_four
  · exact ⟨rfl, rfl, rfl, rfl⟩

theorem chan_four {ch : Nat} {c : Chan} {s : State} : SameFour s (setChan ch c s) := ⟨rfl, rfl, rfl, rfl⟩

theorem SameFour.trans {a b c : State} (h : SameFour a b) (k : SameFour b c) : SameFour a c :=
  ⟨k.1.trans h.1, k.2.1.trans h.2.1, k.2.2.1.trans h.2.2.1, k.2.2.2.trans h.2.2.2⟩

theorem reply_four {ch : Nat} {ws : List Word} {s : State} : SameFour s (putReply ch ws s) := by
  unfold putReply; exact chan_four.trans irq_four

/-- A deferred reply touches none of them. -/
theorem finish_four {ch cmd seq : Nat} {r : Reply} {s : State} : SameFour s (finishDeferred ch cmd seq r s) := by
  unfold finishDeferred; dsimp only; split
  · exact chan_four.trans reply_four
  · exact ⟨rfl, rfl, rfl, rfl⟩

/-- What a new cap changes. -/
theorem applyCap_facts (s : State) : (applyCap s).parts = s.parts ∧ (applyCap s).thermal = s.thermal ∧ (applyCap s).quartz = s.quartz ∧
    (applyCap s).power = { s.power with cap := s.power.newCap.getD s.power.cap, newCap := none, capReply := none } := by
  unfold applyCap; dsimp only
  split
  · exact finish_four
  · exact ⟨rfl, rfl, rfl, rfl⟩

/-- What the boundary does to the domains. -/
theorem stepDoms_facts (m : PowerSample) (b : Nat) (runs : Bool) (s : State) :
    let t := stepDoms m b runs s
    let F := (List.range 28).any (fun a => (stepDom s m b runs a).2.1 || (stepDom s m b runs a).2.2)
    t.power.floored = F ∧ t.quartz = s.quartz ∧ (F = true → t.power.capFloor = true) ∧
    t.power = { s.power with doms := t.power.doms, capFloor := t.power.capFloor, floored := F } ∧ (∃ f, t.thermal = { s.thermal with flag := f }) ∧
    (∀ a, a < 28 → domOf t a = (stepDom s m b runs a).1) := by
  intro t F
  let rs := (List.range 28).map (fun a => (a, stepDom s m b runs a))
  let s1 := rs.foldl (fun s r => setDom r.1 r.2.1 s) s
  let s2 := rs.foldl (fun s r => if r.2.2.1 then capFloorEvent r.1 0 s else s) s1
  let s3 := rs.foldl (fun s r => if r.2.2.2 then capFloorEvent r.1 0 (throttleEvent r.1 s) else s) s2
  let s4 := if rs.any (fun r => r.2.2.1) then bump 0x030B 0 1 s3 else s3
  let s5 := if rs.any (fun r => r.2.2.2) then bump 0x030C 0 1 s4 else s4
  have ht : t = { s5 with power := { s5.power with floored := rs.any (fun r => r.2.2.1 || r.2.2.2) } } := rfl
  have hF : rs.any (fun r => r.2.2.1 || r.2.2.2) = F := by simp only [rs, F, List.any_map]; rfl
  have n2 := near_fold (f := fun (s : State) (r : Nat × Dom × Bool × Bool) => if r.2.2.1 then capFloorEvent r.1 0 s else s) (fun r => r.2.2.1)
    (fun s r => by split; exact near_cap.1; exact NearPower.refl s) (fun s r h => by rw [if_pos h]; exact near_cap.2) rs s1
  have n3 := near_fold (f := fun (s : State) (r : Nat × Dom × Bool × Bool) => if r.2.2.2 then capFloorEvent r.1 0 (throttleEvent r.1 s) else s) (fun r => r.2.2.2)
    (fun s r => by split; exact near_throttle.trans near_cap.1; exact NearPower.refl s) (fun s r h => by rw [if_pos h]; exact near_cap.2) rs s2
  have n4 : NearPower s3 s4 := by
    simp only [s4]; split; exact near_bump; exact NearPower.refl _
  have n5 : NearPower s4 s5 := by
    simp only [s5]; split; exact near_bump; exact NearPower.refl _
  have n : NearPower s1 s5 := n2.1.trans (n3.1.trans (n4.trans n5))
  have h1 : s1 = { s with power := { s.power with doms := s1.power.doms } } := setDoms_rest (stepDom s m b runs) (List.range 28) s
  refine ⟨?_, ?_, ?_, ?_, ?_, ?_⟩
  · rw [ht, ← hF]
  · rw [ht]; show s5.quartz = _; rw [n.time, h1]
  · intro h; rw [ht]; show s5.power.capFloor = true
    rw [← hF] at h
    have : (rs.any fun r => r.2.2.1) = true ∨ (rs.any fun r => r.2.2.2) = true := by
      simp only [List.any_eq_true, Bool.or_eq_true] at h ⊢
      obtain ⟨x, hx, hy | hy⟩ := h
      · exact .inl ⟨x, hx, hy⟩
      · exact .inr ⟨x, hx, hy⟩
    rcases this with h | h
    · exact (n3.1.trans (n4.trans n5)).flag (n2.2 h)
    · exact (n4.trans n5).flag (n3.2 h)
  · rw [ht, hF]; show ({ s5.power with floored := F } : Power) = { s.power with doms := s5.power.doms, capFloor := s5.power.capFloor, floored := F }
    rw [n.power, h1]
  · rw [ht]; show ∃ f, s5.thermal = _
    obtain ⟨f, e⟩ := n.therm
    exact ⟨f, by rw [e, h1]⟩
  · intro a ha
    rw [ht]; show domOf s5 a = _
    have : domOf s5 a = domOf s1 a := by unfold domOf; rw [n.power]
    rw [this]
    exact (domOf_fold (stepDom s m b runs) 28 s a).trans (if_pos ha)

/-- Rounding up gives the least multiple that is not below. -/
theorem roundUp_facts (v m : Nat) (hm : 0 < m) : m ∣ roundUp v m ∧ v ≤ roundUp v m ∧ roundUp v m < v + m := by
  unfold roundUp ceilDiv
  have h1 := Nat.div_add_mod (v + m - 1) m
  have h2 := Nat.mod_lt (v + m - 1) hm
  refine ⟨⟨_, Nat.mul_comm _ _⟩, ?_, ?_⟩ <;> rw [Nat.mul_comm] <;> omega

/-- The allowances of Table 16-3, less the excess. -/
theorem allow_eq {cap e a : Nat} (h : a < 28) :
    domAllowance cap e a = if a < 4 then cap * 145 - e * 145 / 680 else (cap * 50 - e * 50 / 680) / 12 := by
  unfold domAllowance
  split
  · unfold shareAllowance; dsimp only
    rw [if_pos (by omega)]
    have : shareFraction a = 145 := by
      have : a = 0 ∨ a = 1 ∨ a = 2 ∨ a = 3 := by omega
      rcases this with rfl | rfl | rfl | rfl <;> rfl
    rw [this]
  · have : 4 + (a - 4) / 12 = 4 ∨ 4 + (a - 4) / 12 = 5 := by omega
    unfold shareAllowance; dsimp only
    rw [if_pos (by omega)]
    rcases this with h | h <;> rw [h] <;> rfl

/-- With no timetable no floor is held. -/
theorem flags_off {s : State} {m : PowerSample} {b a : Nat} : ((stepDom s m b false a).2.1 || (stepDom s m b false a).2.2) = false := by
  unfold stepDom nextLimit; dsimp only
  by_cases h1 : coolWhole s (domDie a) b = true
  · simp [h1]
  · by_cases h2 : (settlePoint (domOf s a)).throttled = true
    · simp [h1, h2]
    · simp [h1, h2]

/-- Throttling starts on the domains of the list. -/
theorem hot_fold (l : List Nat) (s : State) :
    let t := l.foldl (fun s a => setDom a { domOf s a with throttled := true } s) s
    (∀ a, domOf t a = if a ∈ l then { domOf s a with throttled := true } else domOf s a) ∧ t.thermal = s.thermal ∧ t.quartz = s.quartz := by
  induction l generalizing s with
  | nil => exact ⟨fun a => by simp, rfl, rfl⟩
  | cons b l ih =>
    obtain ⟨h1, h2, h3⟩ := ih (setDom b { domOf s b with throttled := true } s)
    refine ⟨fun a => ?_, h2, h3⟩
    rw [List.foldl_cons, h1 a, domOf_setDom]
    by_cases h : a = b
    · subst h; simp
    · simp [h]

/-- Throttling starts on the domains of a die. -/
theorem throttle_dom (die : Nat) (s : State) :
    (∀ a, a < 28 → domOf (throttleDie s die) a = if domDie a = die then { domOf s a with throttled := true } else domOf s a) ∧
    (∃ f, (throttleDie s die).thermal = { s.thermal with flag := f }) ∧ (throttleDie s die).quartz = s.quartz := by
  have ev : ∀ (s : State) a, domOf (throttleEvent die s) a = domOf s a := by
    intro s a; unfold domOf; rw [show (throttleEvent die s).power = s.power from by unfold throttleEvent; rw [raise_power]]
  have evt : ∀ (s : State), (throttleEvent die s).thermal = { s.thermal with flag := true } := by intro s; unfold throttleEvent; rw [raise_thermal]
  have evq : ∀ (s : State), (throttleEvent die s).quartz = s.quartz := by intro s; unfold throttleEvent; rw [raise_quartz]
  unfold throttleDie; dsimp only
  by_cases h : die < 6
  · rw [if_pos h]
    by_cases h2 : ((List.range 28).filter (fun a => domDie a == die)).all (fun a => (domOf s a).throttled) = true
    · rw [if_pos h2]
      refine ⟨fun a ha => ?_, ⟨s.thermal.flag, rfl⟩, rfl⟩
      split
      · rename_i hd
        have := List.all_eq_true.mp h2 a (List.mem_filter.mpr ⟨List.mem_range.mpr ha, by simp [hd]⟩)
        cases hx : domOf s a; rw [hx] at this; simp only at this; simp [this]
      · rfl
    · rw [if_neg h2]
      obtain ⟨h3, h4, h5⟩ := hot_fold ((List.range 28).filter (fun a => domDie a == die)) s
      refine ⟨fun a ha => ?_, ⟨true, ?_⟩, ?_⟩
      · rw [ev, h3 a]; simp [ha]
      · rw [evt, h4]
      · rw [evq, h5]
  · rw [if_neg h]
    refine ⟨fun a ha => ?_, ⟨true, evt s⟩, evq s⟩
    rw [ev, if_neg]
    unfold domDie; split <;> omega

/-- And of several dies. -/
theorem throttle_all (l : List Nat) (s : State) :
    (∀ a, a < 28 → domOf (l.foldl throttleDie s) a = if domDie a ∈ l then { domOf s a with throttled := true } else domOf s a) ∧
    (∃ f, (l.foldl throttleDie s).thermal = { s.thermal with flag := f }) ∧ (l.foldl throttleDie s).quartz = s.quartz := by
  induction l generalizing s with
  | nil => exact ⟨fun a _ => by simp, ⟨s.thermal.flag, rfl⟩, rfl⟩
  | cons d l ih =>
    obtain ⟨h1, ⟨f, h2⟩, h3⟩ := ih (throttleDie s d)
    obtain ⟨g1, ⟨g, g2⟩, g3⟩ := throttle_dom d s
    refine ⟨fun a ha => ?_, ⟨f, ?_⟩, h3.trans g3⟩
    · rw [List.foldl_cons, h1 a ha, g1 a ha]
      by_cases h : domDie a = d
      · subst h; simp
      · simp [h]
    · rw [List.foldl_cons, h2, g2]

/-- A change of route changes nothing but the timing state. -/
theorem rerouteTime_eq (s : State) : ∃ q, rerouteTime s = { s with quartz := q } := by
  unfold rerouteTime
  dsimp only
  repeat' split
  all_goals exact ⟨_, rfl⟩

/-- No partition, sequencer or queue context is left. -/
theorem clearParts_off (s : State) : (clearParts s).parts = [] ∧ (clearParts s).seqs = [] ∧ (clearParts s).queues = [] := by
  unfold clearParts
  rw [(rerouteTime_eq _).choose_spec]
  exact ⟨rfl, rfl, rfl⟩

/-- Every rail but the islands' is off. -/
def RailsOff (t : State) : Prop := t.power.rails = false ∧ t.parts = [] ∧ t.seqs = [] ∧ t.queues = [] ∧ t.tileMem = [] ∧ t.cubes = [] ∧ t.harts = [] ∧
      t.dir = [] ∧ t.ports = [] ∧ t.pins.safeOut = true ∧ t.pins.peRst = false

theorem islandsOnly_off (s : State) : RailsOff (islandsOnly s) := by
  unfold islandsOnly; dsimp only
  generalize hbmLost s = u
  obtain ⟨h1, h2, h3⟩ := clearParts_off u
  exact ⟨rfl, h1, h2, h3, rfl, rfl, rfl, rfl, rfl, rfl, rfl⟩

/-- The loss of power turns the rails off. -/
theorem losePower_off (s : State) : RailsOff (losePower s) := by unfold losePower; exact islandsOnly_off _

/-- So does the safe state, which keeps its cause and unit. -/
theorem enterSafe_facts (c u : Nat) (s : State) : RailsOff (enterSafe c u s) ∧ (enterSafe c u s).bu.state = (if c = 3 then 3 else 2) ∧ (enterSafe c u s).bu.cause = c ∧ (enterSafe c u s).bu.unit = u := by
  have := losePower_off s
  unfold enterSafe
  generalize losePower s = t at this
  obtain ⟨a1, a2, a3, a4, a5, a6, a7, a8, a9, a10, a11⟩ := this
  exact ⟨⟨a1, a2, a3, a4, a5, a6, a7, a8, a9, a10, a11⟩, rfl, rfl, rfl⟩

/-- An event leaves the life-cycle registers. -/
theorem raise_lc {c u k : Nat} {s : State} : (raiseEvent c u k s).lc = s.lc := by
  unfold raiseEvent; dsimp only; split <;> split <;> rfl

theorem wipe_lc {s : State} : (wipeVaults s).lc = s.lc := rfl

/-- Which steps wait for a pin. -/
theorem waits_iff {k : Nat} {s : State} : stepWaits k s = true ↔ (k = 3 ∧ s.pins.pwrGood = false) ∨ (k = 4 ∧ s.pins.resetN = false) := by
  unfold stepWaits; simp

theorem padTo_length {α : Type} {n : Nat} {d : α} {l : List α} : (padTo n d l).length = n := by
  unfold padTo; simp; omega

/-- What a package reset leaves before its steps run. -/
theorem packageDown_facts (s : State) : (packageDown s).bu.state = 0 ∧ (packageDown s).parts = [] ∧ (packageDown s).harts = [] ∧ (packageDown s).tileMem = [] ∧ (packageDown s).seqs = [] ∧
    (packageDown s).pins.safeOut = true ∧ (packageDown s).pins.peRst = false := by
  have h := clearParts_off
  simp only [packageDown, closeSessions, resetLinks, resetDoms, resetHarts, resetTiles, h, and_self]

end Sys2Proof.Machine
end

