-- ==== Sys2Proof/Laws/Schedule.lean ====
section
/-! SUPPORT. The laws of jobs, sequencers and notices: what a launch does, and which steps of lateness and recovery leave the
partitions as they were. -/

namespace Sys2Proof.Machine

/-- What a launch does. -/
theorem launch_facts {s : State} {st w p : Nat} {i : Image} {j : Job} {x : Entry} (h : nextEntry s st = some (p, i, j, x)) :
    plannedTime i j (partOf s p).offset x ≤ now (launch st w s) ∧ inProgress (launch st w s) st (seqOf s st).entry = true ∧ now s ≤ now (launch st w s) := by
  unfold launch
  rw [h]
  dsimp only
  have hm : ∀ f t, now (modJob p f t) = now t ∧ seqOf (modJob p f t) st = seqOf t st := by
    intro f t; unfold modJob; split <;> exact ⟨rfl, rfl⟩
  rw [(hm _ _).1]
  unfold inProgress
  rw [(hm _ _).2]
  refine ⟨?_, ?_, ?_⟩
  · show _ ≤ max _ _; omega
  · rw [seqOf_setSeq]
    simp
    right; rfl
  · exact Nat.le_max_left _ _

theorem jobOf_advance {t p s} : jobOf (advance t s) p = jobOf s p := rfl

theorem partOf_advance {t p s} : partOf (advance t s) p = partOf s p := rfl

/-- The job that was set. -/
theorem jobOf_setJob {p j s} : jobOf (setJob p j s) p = some j := by unfold jobOf setJob; simp

/-- A job that is there is modified in its place. -/
theorem setJob_some {p s} {j : Job} (h : jobOf s p = some j) {f : Job → Job} : modJob p f s = setJob p (f j) s := by
  unfold modJob; rw [h]

/-- A notice that is passed on is sent, and nothing else. -/
theorem flood_eq {n sk s} : ∃ o, flood n sk s = { s with out := o } := by
  unfold flood
  generalize (usedPorts s).filter _ = l
  induction l generalizing s with
  | nil => exact ⟨_, rfl⟩
  | cons a l ih => rw [List.foldl_cons]; obtain ⟨o, h⟩ := @ih (send (.notice a n) s); exact ⟨o, by rw [h]; rfl⟩

/-- Of two jobs set the later stands. -/
theorem setJob_setJob {p j k s} : setJob p j (setJob p k s) = setJob p j s := by unfold setJob; simp

/-- An event leaves the partitions, the sequencers and the time. -/
theorem raiseEvent_parts {c u k s} : (raiseEvent c u k s).parts = s.parts ∧ (raiseEvent c u k s).seqs = s.seqs ∧ now (raiseEvent c u k s) = now s := by
  unfold raiseEvent
  dsimp only
  repeat' split
  all_goals exact ⟨rfl, rfl, rfl⟩

theorem partOf_congr {s u : State} {p} (h : s.parts = u.parts) : partOf s p = partOf u p := by unfold partOf; rw [h]

theorem jobOf_congr {s u : State} {p} (h : s.parts = u.parts) : jobOf s p = jobOf u p := by unfold jobOf; rw [partOf_congr h]

/-- Sequencers set leave the partitions. -/
theorem foldSeq_parts {f : State → Nat → Seq} {l : List Nat} {s} : (l.foldl (fun s st => setSeq st (f s st) s) s).parts = s.parts ∧
   now (l.foldl (fun s st => setSeq st (f s st) s) s) = now s := by
  induction l generalizing s with
  | nil => exact ⟨rfl, rfl⟩
  | cons a l ih => rw [List.foldl_cons]; obtain ⟨h1, h2⟩ := @ih (setSeq a (f s a) s); exact ⟨h1, h2⟩

theorem foldConsec {l : List Nat} {j : Job} : ∃ c, l.foldl (fun (j : Job) e => { j with consec := tblMod 0 e (· + 1) j.consec }) j = { j with consec := c } := by
  induction l generalizing j with
  | nil => exact ⟨_, rfl⟩
  | cons a l ih => rw [List.foldl_cons]; obtain ⟨c, h⟩ := @ih { j with consec := tblMod 0 a (· + 1) j.consec }; exact ⟨c, by rw [h]⟩

/-- What a hold does at its instant. -/
theorem applyHold_facts {p i j h s} (hi : (partOf s p).image = some i) (hj : jobOf s p = some j) :
    (partOf (applyHold p h s) p).offset = (partOf s p).offset + h.n.n * (4 * i.holdQuantum) ∧ now (applyHold p h s) = now s ∧
    (j.service = false → ∃ k, jobOf (applyHold p h s) p = some k ∧ k.late = true ∧ k.holds = satAdd max32 j.holds 1) := by
  unfold applyHold
  rw [hi, hj]
  dsimp only
  refine ⟨?_, ?_, fun hs => ?_⟩
  · rw [partOf_congr raiseEvent_parts.1, partOf_congr foldSeq_parts.1, partOf_setPart]
  · rw [raiseEvent_parts.2.2, foldSeq_parts.2]; rfl
  · rw [jobOf_congr raiseEvent_parts.1, jobOf_congr foldSeq_parts.1]
    unfold jobOf
    rw [partOf_setPart]
    obtain ⟨c, hc⟩ := @foldConsec ((partSeqs s p).flatMap (heldBack s p i j)) { markApplied h j with holds := satAdd max32 (markApplied h j).holds 1, late := true }
    refine ⟨_, rfl, ?_, ?_⟩
    · simp only [hs, Bool.not_false, Bool.true_or, if_true]; rw [hc]
    · simp only [hs, Bool.not_false, Bool.true_or, if_true]; rw [hc]; rfl

/-- Tiles set leave the partitions. -/
theorem foldTile_parts {f : State → Nat → Tile} {l : List Nat} {s} : (l.foldl (fun s st => setTile st (f s st) s) s).parts = s.parts := by
  induction l generalizing s with
  | nil => rfl
  | cons a l ih => rw [List.foldl_cons, ih]; rfl

/-- Unspecified cubes leave the partitions. -/
theorem havoc_parts {t : Nat} {l : List Nat} {s} : (l.foldl (havocCube t) s).parts = s.parts := by
  induction l generalizing s with
  | nil => rfl
  | cons a l ih => rw [List.foldl_cons, ih]; rfl

/-- Stopping a tile's action leaves the partitions. -/
theorem stopTile_parts {p st t s} : (stopTile p st t s).parts = s.parts := by
  unfold stopTile
  dsimp only
  split
  · split
    · exact havoc_parts
    · exact havoc_parts
  · split <;> rfl

/-- Stopping the actions of a partition leaves the partitions. -/
theorem stop_parts {p s} : (stopActions p s).parts = s.parts := by
  unfold stopActions
  generalize partSeqs s p = l
  induction l generalizing s with
  | nil => rfl
  | cons a l ih =>
    rw [List.foldl_cons, ih]
    dsimp only
    have h : (if a < 544 then (match physOf s a with | some t => stopTile p a t s | none => s) else s).parts = s.parts := by
      split
      · split
        · exact stopTile_parts
        · rfl
      · rfl
    generalize (if a < 544 then (match physOf s a with | some t => stopTile p a t s | none => s) else s) = u at h ⊢
    split <;> exact h

end Sys2Proof.Machine
end

