-- ==== Sys2Proof/Laws/Tier.lean ====
section
/-! SUPPORT. The laws of the flash tier: what reading a sector, charging a bucket and freeing a frame leave as they were. -/

namespace Sys2Proof.Machine

/-- A sector that is read counts on its stack, and nothing else. -/
theorem arrayRead_eq {x k s} : ∃ st c, arrayRead x k s = { s with flStacks := st, ctr := c } := by
  unfold arrayRead; dsimp only; split <;> exact ⟨_, _, rfl⟩

/-- So do several. -/
theorem arrayReads_eq {x : Nat} {l : List Nat} {s : State} : ∃ st c, l.foldl (fun s k => arrayRead x k s) s = { s with flStacks := st, ctr := c } := by
  induction l generalizing s with
  | nil => exact ⟨s.flStacks, s.ctr, rfl⟩
  | cons a l ih =>
    rw [List.foldl_cons]
    obtain ⟨st, c, h⟩ := @arrayRead_eq x a s
    obtain ⟨st', c', h'⟩ := @ih (arrayRead x a s)
    rw [h', h]; exact ⟨_, _, rfl⟩

/-- A charge takes tokens, and nothing else. -/
theorem chargeFlash_eq {k n s} : ∃ b, chargeFlash k n s = { s with flBuckets := b } := by
  unfold chargeFlash; split
  · exact ⟨_, rfl⟩
  · exact ⟨s.flBuckets, rfl⟩

/-- Freeing a frame leaves flash. -/
theorem releaseFrame_flash {e s} : (releaseFrame e s).flash = s.flash := by
  unfold releaseFrame; split
  · unfold giveHeldFrame; dsimp only; split <;> rfl
  · rfl

end Sys2Proof.Machine
end

