-- ==== Sys2Proof/Laws/Vector.lean ====
section
/-! SUPPORT. What a vector instruction's row, a write of register elements and a step of the program counter change. -/

namespace Sys2Proof.Machine

variable {s : State} {v : Vec} {xs : List (Nat × Nat)}

theorem modVec_modVec {t f g s} : modVec t f (modVec t g s) = modVec t (f ∘ g) s := by
  unfold modVec; simp

/-- A word of the row's that R99 admits issues. -/
theorem vecRow_hit {op t w s} (h : vOp w = op) (h2 : vInsnOk w = true) : vecRow op t w s = vecIssue t w s := by
  unfold vecRow; simp [h, h2]

/-- Any other word changes nothing. -/
theorem vecRow_miss {op t w s} (h : vOp w ≠ op ∨ vInsnOk w = false) : vecRow op t w s = s := by
  unfold vecRow; rcases h with h | h <;> simp [h]

/-- An access to memories that no test step walks ends none. -/
theorem endSteps_none {t a n s} (h : ∀ m ∈ banksOf a n, (testOf s t m).startAt = none) : endSteps t a n s = s := by
  unfold endSteps
  generalize banksOf a n = l at h
  induction l with
  | nil => rfl
  | cons m l ih =>
    rw [List.foldl_cons, h m (List.mem_cons_self ..)]
    exact ih fun x hx => h x (List.mem_cons_of_mem _ hx)

/-- An access that its requester may make, while no test step walks there, does nothing beside its data. -/
theorem checkReach_ok {t who a n s} (h : mismatch s t who a n = false) (k : ∀ m ∈ banksOf a n, (testOf s t m).startAt = none) :
    checkReach t who a n s = s := by
  unfold checkReach
  dsimp only
  rw [endSteps_none k, h]
  rfl

/-- A read of words without stored errors meets none. -/
theorem eccRead_clean {t a n s} (h : errWords s t a n = []) : eccRead t a n s = s := by
  unfold eccRead
  dsimp only
  rw [h]
  rfl

theorem mismatch_congr {s u : State} {t who a n} (h : (tileOf u t).owner = (tileOf s t).owner) : mismatch u t who a n = mismatch s t who a n := by
  unfold mismatch mayReach bankOwner; rw [h]

theorem tilePut_tiles {t who a v s} : (tilePut t who a v s).tiles = s.tiles := by
  unfold tilePut; split <;> [split <;> rfl; rfl]

theorem tilePuts_tiles {t who bs} : ∀ {a s}, (tilePuts t who a bs s).tiles = s.tiles := by
  induction bs with
  | nil => intros; rfl
  | cons b bs ih => intro a s; show (tilePuts t who (a+1) bs (tilePut t who a b s)).tiles = _; rw [ih, tilePut_tiles]

theorem tileWrite_tiles {t who a bs s} : (tileWrite t who a bs s).tiles = s.tiles := by
  unfold tileWrite
  rw [tilePuts_tiles]
  split <;> rfl

theorem foldTile_tiles {t who} {f : Nat → Nat} {g : Nat → List Byte} : ∀ {l : List Nat} {s : State}, (l.foldl (fun s i => tileWrite t who (f i) (g i) s) s).tiles = s.tiles := by
  intro l; induction l with
  | nil => intros; rfl
  | cons b bs ih => intro s; rw [List.foldl_cons, ih, tileWrite_tiles]

theorem vGet_put_one {v : Mem} {sz a c : Nat} :
    memLe (memWrite v a (leBytes sz c)) a sz = c % 256 ^ sz := by
  unfold memLe
  have := memRead_write (m := v) (a := a) (bs := leBytes sz c)
  rw [leBytes_length] at this
  rw [this, leNat_leBytes]

theorem memLe_write_out {m : Mem} {a b n : Nat} {bs : List Byte} (h : b + n ≤ a ∨ a + bs.length ≤ b) : memLe (memWrite m a bs) b n = memLe m b n := by
  unfold memLe; rw [memRead_write_out h]

theorem vPut_cons {r sz e xs v} : vPut r sz (e :: xs) v = vPut r sz xs { v with v := memWrite v.v (256 * r + sz * e.1) (leBytes sz e.2) } := rfl

theorem vPut_nil {r sz v} : vPut r sz [] v = v := rfl

/-- Other registers keep their elements. -/
theorem vPut_vGet_other {r sz r' sz' i : Nat} (hsz : ∀ j, j ∈ xs → sz * j.1 + sz ≤ 256) (hr : r' ≠ r) (hi : sz' * i + sz' ≤ 256) :
    vGet (vPut r sz xs v) r' sz' i = vGet v r' sz' i := by
  induction xs generalizing v with
  | nil => rfl
  | cons e xs ih =>
    rw [vPut_cons, ih (fun j hj => hsz j (List.mem_cons_of_mem _ hj))]
    have he := hsz e (List.mem_cons_self ..)
    unfold vGet
    apply memLe_write_out
    rw [leBytes_length]
    rcases Nat.lt_or_gt_of_ne hr with h | h
    · left; omega
    · right; omega

/-- Elements that are not written keep their values. -/
theorem vPut_vGet_miss {r sz i : Nat} (h : ∀ e ∈ xs, e.1 ≠ i) : vGet (vPut r sz xs v) r sz i = vGet v r sz i := by
  induction xs generalizing v with
  | nil => rfl
  | cons e xs ih =>
    rw [vPut_cons, ih (fun j hj => h j (List.mem_cons_of_mem _ hj))]
    have he := h e (List.mem_cons_self ..)
    unfold vGet
    apply memLe_write_out
    rw [leBytes_length]
    rcases Nat.lt_or_gt_of_ne he with h | h
    · right; have := Nat.mul_le_mul_left sz (Nat.succ_le_of_lt h); rw [Nat.mul_succ] at this; omega
    · left; have := Nat.mul_le_mul_left sz (Nat.succ_le_of_lt h); rw [Nat.mul_succ] at this; omega

/-- The elements of a written register: those listed take their codes, the others stay. -/
theorem vPut_vGet {r sz i : Nat} {f : Nat → Nat} {l : List Nat} (hl : l.Nodup) : vGet (vPut r sz (l.map (fun i => (i, f i))) v) r sz i =
    if i ∈ l then f i % 256 ^ sz else vGet v r sz i := by
  induction l generalizing v with
  | nil => rfl
  | cons e xs ih =>
    rw [List.map_cons, vPut_cons]
    obtain ⟨h1, h2⟩ := List.nodup_cons.mp hl
    by_cases h : i = e
    · subst h
      rw [vPut_vGet_miss (by intro e he; obtain ⟨a, ha, rfl⟩ := List.mem_map.mp he; rintro rfl; exact h1 ha)]
      simp only [List.mem_cons, true_or, if_true]
      exact vGet_put_one
    · rw [ih h2]
      simp only [List.mem_cons, h, false_or]
      split
      · rfl
      · unfold vGet
        apply memLe_write_out
        rw [leBytes_length]
        rcases Nat.lt_or_gt_of_ne h with h | h
        · left; have := Nat.mul_le_mul_left sz (Nat.succ_le_of_lt h); rw [Nat.mul_succ] at this; omega
        · right; have := Nat.mul_le_mul_left sz (Nat.succ_le_of_lt h); rw [Nat.mul_succ] at this; omega

theorem vPut_rest {r sz : Nat} : (vPut r sz xs v).k = v.k ∧ (vPut r sz xs v).a = v.a ∧ (vPut r sz xs v).ovf = v.ovf ∧ (vPut r sz xs v).clamp = v.clamp ∧ (vPut r sz xs v).pc = v.pc ∧ (vPut r sz xs v).loops = v.loops := ⟨rfl, rfl, rfl, rfl, rfl, rfl⟩

/-- A step of the program counter changes it and the loops alone. -/
theorem vecNext_rest {v : Vec} : (vecNext v).v = v.v ∧ (vecNext v).k = v.k ∧ (vecNext v).a = v.a ∧ (vecNext v).ovf = v.ovf ∧ (vecNext v).clamp = v.clamp := by
  unfold vecNext; dsimp only; split
  · split
    · split <;> exact ⟨rfl, rfl, rfl, rfl, rfl⟩
    · exact ⟨rfl, rfl, rfl, rfl, rfl⟩
  · exact ⟨rfl, rfl, rfl, rfl, rfl⟩

end Sys2Proof.Machine
end

