-- ==== Sys2Proof/Machine/Lands.lean ====
section
/-! DEFINITION. The lands of the package: their names and what stands at each (R460, R462 to R464, Tables 18-1 to 18-3), and the
fibre positions of the optical connectors (R472, Table 18-8). No command reads them. -/

namespace Sys2Proof.Machine

/-- The alphabet of column names: 19 letters (R462). -/
def landLetter (i : Nat) : Char :=
  ['A', 'B', 'C', 'D', 'E', 'F', 'G', 'H', 'J', 'K', 'L', 'M', 'N', 'P', 'T', 'U', 'V', 'W', 'Y'].getD (i - 1) 'A'

/-- The letters of column k, for k from 1 to 116 (R462). -/
def columnName (k : Nat) : List Char :=
  if k ≤ 19 then [landLetter k] else [landLetter ((k - 20) / 19 + 1), landLetter ((k - 20) % 19 + 1)]

/-- A land's name: its column, a hyphen and its row in three digits (R462). -/
def landName (k r : Nat) : List Char :=
  columnName k ++ ['-'] ++ [Nat.digitChar (r / 100), Nat.digitChar (r / 10 % 10), Nat.digitChar (r % 10)]

/-- What stands at a land. A pair's positive side has `pos = true`; `n` is the island, `k` the laser module. -/
inductive Land where
  | vin48
  | gnd
  | rsvd
  | transmit (port lane : Nat) (pos : Bool)
  | receive (port lane : Nat) (pos : Bool)
  | refclk (port : Nat) (pos : Bool)
  | perst (sub : Nat)
  | bifPin (port bit : Nat)
  | qref (pos : Bool)
  | ppsIn
  | i3cScl (n : Nat)
  | i3cSda (n : Nat)
  | uartTx (n : Nat)
  | uartRx (n : Nat)
  | tck
  | tms
  | tdi
  | tdo
  | trstN
  | pwrGoodIn
  | resetInN
  | safeOut
  | tamperOutN
  | thermtripN
  | lidA
  | lidB
  | laserScl (k : Nat)
  | laserSda (k : Nat)
  | laserIntN (k : Nat)
  | laserPrsN (k : Nat)
  | laserEn (k : Nat)
  deriving DecidableEq, Repr

/-- The PCIe lands: columns H (8), J (9), L (11) and M (12) of the 24 rows of a root port (Table 18-2). -/
def pcieLand (k r : Nat) : Land :=
  let p := (r - 1) / 24
  let o := (r - 1) % 24 + 1
  if 4 ≤ o && o ≤ 19 then
    if k = 8 then .transmit p (o - 4) true
    else if k = 9 then .transmit p (o - 4) false
    else if k = 11 then .receive p (o - 4) true
    else if k = 12 then .receive p (o - 4) false
    else .gnd
  else if o = 21 then (if k = 8 then .refclk p true else if k = 9 then .refclk p false else .gnd)
  else if o = 22 then
    if k = 8 then .perst (4 * p)
    else if k = 9 then .perst (4 * p + 1)
    else if k = 11 then .perst (4 * p + 2)
    else if k = 12 then .perst (4 * p + 3)
    else .gnd
  else if o = 23 then (if k = 8 then .bifPin p 0 else if k = 9 then .bifPin p 1 else .gnd)
  else .gnd

/-- The low-speed lands of columns N to V (13 to 17), rows 045 to 054 (Table 18-3). -/
def lowSpeedRows : List (List Land) :=
  [[.qref true, .qref false, .ppsIn],
   [.i3cScl 0, .i3cSda 0, .i3cScl 1, .i3cSda 1],
   [.uartTx 0, .uartRx 0, .uartTx 1, .uartRx 1],
   [.tck, .tms, .tdi, .tdo, .trstN],
   [.pwrGoodIn, .resetInN, .safeOut, .tamperOutN, .thermtripN],
   [.lidA, .lidB]] ++
  (List.range 4).map (fun k => [.laserScl k, .laserSda k, .laserIntN k, .laserPrsN k, .laserEn k])

/-- What stands in column k, row r; none where the grid of 116 columns and 96 rows has no land (R460, R463). -/
def landAt (k r : Nat) : Option Land :=
  if k = 0 || 116 < k || r = 0 || 96 < r then none
  else some (
    if k ≤ 3 then .vin48
    else if k ≤ 6 then .gnd
    else if 8 ≤ k && k ≤ 12 then pcieLand k r
    else if 13 ≤ k && k ≤ 17 && 45 ≤ r && r ≤ 54 then (lowSpeedRows.getD (r - 45) []).getD (k - 13) .gnd
    else if k = 116 || (k = 19 && r = 50) then .rsvd
    else .gnd)

/-- What a position of an optical connector serves. -/
inductive Fibre where
  | transmit (port : Nat)
  | laser (module lane : Nat)
  | unused
  | receive (port : Nat)
  deriving DecidableEq, Repr

/-- Position j, from 1 to 24, of connector OCk (Table 18-8). -/
def fibreAt (k j : Nat) : Option Fibre :=
  if j = 0 || 24 < j then none
  else if j ≤ 5 then some (.transmit (5 * k + (j - 1)))
  else if j ≤ 13 then some (.laser k (j - 6))
  else if j ≤ 19 then some .unused
  else some (.receive (5 * k + (j - 20)))

end Sys2Proof.Machine
end

