-- ==== Sys2Proof/Tests/Slice0.lean ====
section
/-! SUPPORT. Tests: terms that are no commands, small results of the manual, and for each obligation with hypotheses a witness
`witness_<Name>`: concrete states and operands that meet the hypotheses of each of its clauses together. -/

open Sys2Proof Sys2Proof.Machine

namespace Sys2Proof.Tests

set_option maxRecDepth 100000
set_option Elab.async false

/-- The state after, where there is one. -/
def after (o : Out1) : State :=
  match o with
  | .next s => s
  | .fault _ => { State.reset with freeCtr := 999 }
  | .refused _ => { State.reset with freeCtr := 999 }

/-- The outcome is the fault of a term that is no command. -/
def stops (o : Out1) : Bool :=
  match o with
  | .next _ => false
  | .fault .noSuchUnit => true
  | .refused _ => false

/-- A request header. -/
def hd (gen code seq n : Nat) : Word := word (gen * 2 ^ 56 + code * 2 ^ 32 + seq * 2 ^ 16 + 8 * n)

/-! ### Terms that are no commands -/

def longPl : List Word := List.replicate 256 0
def msgBad (dst src op tag pseq addr n : Nat) : RemoteMsg :=
  { dst := dst, src := src, op := op, tag := tag, pseq := pseq, addr := addr, mask := 0, data := List.replicate n 0 }
def packetBad (e ring entry origin step attempt epoch n : Nat) : CollPacket :=
  { engine := e, ring := ring, entry := entry, origin := origin, step := step, ovf := false, clamp := false, exponents := false,
    attempt := attempt, epoch := epoch, offset := 0, elems := List.replicate n 0 }
def sampleBad (n k : Nat) : PowerSample := ⟨List.replicate n 0, List.replicate k 0, 0, 0, 0⟩

def illFormed1 : List Instr :=
  [.cbxAck 16 .full 0, .fence 96 false 0 0, .qtimeRead 0 32, .queueEnable 16384 .full 0, .regionValidate 4096 .full 0, .t0Reached 16,
   .nullAction 600, .nop 576 0, .portResume 20, .pcieLinkUp 16, .pseqGapSkip 1024, .promotionSwitch 4059136, .cboClean 0 (2 ^ 56),
   .hartLoad 0 0 (2 ^ 56) 8 false, .hartLoad 0 0 0 3 false, .hartStore 0 0 0 16, .lineWriteback 0 (0x1EF80000000 / 16), .lineWriteback 98 0,
   .versionHello 0 0 longPl, .tileRetire 0 (.go 0 longPl), .reset 16 (.urgent 0), .copy (.queue 16384), .copy (.stream 543),
   .copy (.stream 584), .directWriteDrain 18, .fncMismatchRead 0 0 18 .full, .rfComplete 2, .registerWrite 0 (.csr 4096 0 .read) 0,
   .registerWrite 0 (.csr 0 32 .read) 0, .registerWrite 0 (.mmio (2 ^ 56) true) 0]
def illFormed2 : List Instr :=
  [.coherentRead (.hart 96) 0 1 none, .coherentRead (.dray 40) 0 1 none, .coherentRead (.updatePort 576) 0 1 none,
   .coherentRead (.queueEngine 2) 0 1 none, .coherentRead (.collective 16) 0 1 none, .coherentRead (.caboose 2) 0 1 none,
   .coherentRead (.pcie 16 0) 0 1 none, .coherentRead (.pcie 0 65536) 0 1 none, .coherentRead (.remote 1024) 0 1 none,
   .coherentRead (.hart 0) 0 0 none, .coherentRead (.hart 0) 60 8 none, .coherentWrite (.hart 0) 0 [] none, .directRead (.hart 0) 63 2 false,
   .directWrite (.hart 0) 63 [0, 0]]
def illFormed3 : List Instr :=
  [.standbyTakeover { critical := some (0, 1, 0) }, .standbyTakeover { critical := some (15, 1, 0) }, .standbyTakeover { critical := some (1, 0, 0) },
   .standbyTakeover { critical := some (1, 16, 0) }, .standbyTakeover { bist := [576] }, .standbyTakeover { march := [576] },
   .standbyTakeover { lanes := [(82, 0)] }, .standbyTakeover { lanes := [(0, 68)] }, .standbyTakeover { bifPins := [0] },
   .standbyTakeover { bifPins := [0, 0, 0, 4] }, .standbyTakeover { revisions := [] }, .standbyTakeover { revisions := List.replicate 12 1 },
   .standbyTakeover { readOnly := [4] }]
def illFormed4 : List Instr :=
  [.holdNotice 0 ⟨8, 0, 0, 0, 0, 0, 0, 0⟩, .holdNotice 0 ⟨0, 1024, 0, 0, 0, 0, 0, 0⟩, .holdNotice 0 ⟨0, 0, 16, 0, 0, 0, 0, 0⟩,
   .holdNotice 0 ⟨0, 0, 0, 2 ^ 32, 0, 0, 0, 0⟩, .holdNotice 0 ⟨0, 0, 0, 0, 2 ^ 32, 0, 0, 0⟩, .holdNotice 0 ⟨0, 0, 0, 0, 0, 2 ^ 64, 0, 0⟩,
   .holdNotice 0 ⟨0, 0, 0, 0, 0, 0, 2 ^ 64, 0⟩, .holdNotice 0 ⟨0, 0, 0, 0, 0, 0, 0, 2 ^ 32⟩]
def illFormed5 : List Instr :=
  [.remoteRead (msgBad 1024 0 0 0 0 0 64), .remoteRead (msgBad 0 1024 0 0 0 0 64), .remoteRead (msgBad 0 0 16 0 0 0 64),
   .remoteRead (msgBad 0 0 0 4096 0 0 64), .remoteRead (msgBad 0 0 0 0 65536 0 64), .remoteRead (msgBad 0 0 0 0 0 (2 ^ 43) 64),
   .remoteRead (msgBad 0 0 0 0 0 0 63)]
def illFormed6 : List Instr :=
  [.collectivePacket (packetBad 16 0 0 0 0 0 0 0), .collectivePacket (packetBad 0 16 0 0 0 0 0 0), .collectivePacket (packetBad 0 0 (2 ^ 20) 0 0 0 0 0),
   .collectivePacket (packetBad 0 0 0 1024 0 0 0 0), .collectivePacket (packetBad 0 0 0 0 2048 0 0 0), .collectivePacket (packetBad 0 0 0 0 0 256 0 0),
   .collectivePacket (packetBad 0 0 0 0 0 0 (2 ^ 32) 0), .collectivePacket (packetBad 0 0 0 0 0 0 0 31)]
def illFormed7 : List Instr :=
  [.cubeOperation 544, .allReduce 583, .promote 543, .promote 584, .relocationWindow 575, .actionComplete 0 1048576, .gateVisible 0 4, .tileWatchdog 544,
   .unitWatchdog 543, .testStepStart 0 5, .testStepComplete 0 3 (.march false [(48, true, 0)]), .testStepComplete 0 4 (.march false [(8, true, 0)]),
   .patrolScrub (0x1EF80000000 / 16 + 4096 * 32768) .clean,  .channelFault 16 0, .channelFault 0 32, .cacheFill 4 0, .sectorRead (.hart 0) 0 512 .clean,
   .relocationStart 4 0, .relocationStart 0 131072, .flit 41 0 [], .flit 0 2 [], .flit 0 0 (List.replicate 273 0), .laneFailure 0 0 68,
   .frame 0 (List.replicate 545 0), .nguixLaneFailure 0 8, .portTraining 0 ⟨true, [8], 0, 0, 0, 0⟩, .portTraining 0 ⟨true, [], 0, 0, 20, 0⟩,
   .laserModuleReady 4, .remoteTimeout 0 4096, .pcieInboundMsi 0 0 0 (List.replicate 513 0), .pcieInboundRead 0 0 0 0, .pcieInboundRead 0 0 0 4097,
   .pcieInboundWrite 0 0 0 [], .controlInterval (sampleBad 27 10), .controlInterval (sampleBad 28 9), .pointChangeComplete 28, .thermalSample [] [],
   .thermalTrip 12, .guardbandRaise 12 (.raise 0), .guardbandRaise 0 (.lost 28 0), .guardbandRaise 0 (.lost 0 16), .clockStretch 24 0,
   .clockStretch 0 101, .tamperEvent 0 0, .tamperEvent 0 6, .bringupStepTimeout 0, .bringupStepTimeout 15, .i3cDynamicAddress 0 128 false,
   .i3cDynamicAddress 2 0 false, .pldmSensorRead 0 65536, .tapInstruction 256, .amo 0 .swap 0 0 0 16 false false, .amo 0 .cas 1 0 0 16 false false,
   .lr 0 0 0 2 false false, .sc 0 0 0 0 1 false false]
/-- One term for each check of `Instr.wellFormed`, the value just past the limit. -/
def illFormed : List Instr := illFormed1 ++ illFormed2 ++ illFormed3 ++ illFormed4 ++ illFormed5 ++ illFormed6 ++ illFormed7

theorem test_illFormed : illFormed.all (fun i => !i.wellFormed) = true := by decide +kernel

theorem test_illFormed_stop : illFormed.all (fun i => stops (exec i State.reset)) = true := by decide +kernel

/-! ### The block and the mailbox -/

/-- Channels 0 and 1 have generation 3; partition 0 belongs to channel 0, partition 1 to channel 1. -/
def base : State :=
  { State.reset with
    chans := [(0, { gen := 3 }), (1, { gen := 3 })],
    parts := [(0, { chan := 0, queues := (0, 4), regions := (0, 4) }), (1, { chan := 1, queues := (4, 4), regions := (4, 4), drayMask := 1, quotas := [1, 0, 0, 0], held := [[0], [], [], []], ranges := [(0, 4)] })] }

/-- A second of time has passed, so that times in the past exist. -/
def later : State := { base with quartz := { base.quartz with now := 1000000000 } }

theorem witness_StepRunsTheFrontCommand : State.reset.pending = [] ∧ State.reset.reqWait = [] ∧
    State.reset.remote.src.any (fun e => nextHere e.2) = false ∧ State.reset.harts.all (fun e => e.2.waiting.isEmpty) = true ∧
    State.reset.chans.all (fun e => e.2.turn.isNone) = true := by decide +kernel

/-- One term that is a command, and one that is none. -/
theorem witness_CommandsCompleteInEveryState : (Instr.qrefLock).wellFormed = true ∧ (Instr.qtimeRead 96 1).wellFormed = false := by decide +kernel

theorem witness_NoCommandTouchesTheQueue : exec .qrefLoss State.reset = .next (after (exec .qrefLoss State.reset)) := rfl

/-- Reset meets the invariant, and from it a step answers a next state. -/
theorem witness_EveryStepKeepsTheInvariant : State.reset.Inv ∧ step State.reset = .next (after (step State.reset)) :=
  ⟨⟨by decide +kernel, by decide +kernel, by decide +kernel, by decide +kernel,
    ⟨by decide +kernel, by decide +kernel, by decide +kernel, by decide +kernel, by decide +kernel, by decide +kernel⟩⟩, rfl⟩

theorem witness_FusesAndRecordNeverGoBack : State.reset.Inv ∧ step State.reset = .next (after (step State.reset)) :=
  witness_EveryStepKeepsTheInvariant

/-- A VERSION_HELLO of any seq, the next seq, the last seq with a stored reply, one that is neither, and a request behind an
earlier command on its partition. -/
theorem witness_SequenceNumberDecidesARequest :
    goRow {} 1 (hd 3 1 7 1) [word (3 * 2 ^ 56 + 2 ^ 48)] = some (.versionHello 1 (hd 3 1 7 1) [word (3 * 2 ^ 56 + 2 ^ 48)]) ∧
    goRow {} 1 (hd 3 0x51 1 0) [] = some (.clampReportRead 1 (hd 3 0x51 1 0) []) ∧ (Instr.clampReportRead 1 (hd 3 0x51 1 0) []).wellFormed = true ∧
    State.reset.active.isSome = true ∧ (chanOf base 1).busy = false ∧ wf (hd 3 0x51 1 0) 15 0 = 8 * ([] : List Word).length ∧
    wf (hd 3 0x51 1 0) 31 16 = ((chanOf base 1).lastSeq + 1) % 65536 ∧
    (let s : State := { base with chans := [(1, { gen := 3, lastSeq := 0xFFFF, stored := [0] })] }
     wf (hd 3 0x51 0xFFFF 0) 31 16 = (chanOf s 1).lastSeq ∧ (chanOf s 1).stored ≠ [] ∧ wf (hd 3 0x51 0 0) 31 16 = ((chanOf s 1).lastSeq + 1) % 65536 ∧
     wf (hd 3 0x51 5 0) 31 16 ≠ ((chanOf s 1).lastSeq + 1) % 65536 ∧ wf (hd 3 0x51 5 0) 31 16 ≠ (chanOf s 1).lastSeq) ∧
    (let s : State := { base with parts := [(2, { chan := 1 })], chans :=
       [(0, { gen := 3, busy := true, req := memWrite [] 0 (bytesOf [hd 3 0x11 1 1, word (2 * 2 ^ 60)]) }), (1, { gen := 3 })] }
     let pl := [word (2 * 2 ^ 60), 0]
     goRow {} 1 (hd 3 0x22 1 2) pl = some (.jobClose 1 (hd 3 0x22 1 2) pl) ∧ (chanOf s 1).busy = false ∧ wf (hd 3 0x22 1 2) 47 32 ≠ 1 ∧
     malformed s.lc.state (chanOf s 1).gen (hd 3 0x22 1 2).toNat pl = none ∧ (chanOf s 1).gen ≠ 0 ∧ admitted s 1 0x22 pl = true ∧
     behindOther s 1 0x22 pl = true ∧ wf (hd 3 0x22 1 2) 31 16 = ((chanOf s 1).lastSeq + 1) % 65536) := by decide +kernel

/-- A reserved field, a channel without a generation, a command of channel 0 alone on channel 1, a busy channel, and an urgent write
with ubusy 0 and 1, for each of the three commands. -/
theorem witness_RequestsAreRefusedDiscardedOrUrgent :
    (let pl := [word 1]
     goRow {} 1 (hd 3 0x11 1 1) pl = some (.partDissolve 1 (hd 3 0x11 1 1) pl) ∧ (chanOf base 1).busy = false ∧
     (malformed base.lc.state (chanOf base 1).gen (hd 3 0x11 1 1).toNat
       ((request (putRequest 1 (hd 3 0x11 1 1) pl base) 1).2.take (wf (hd 3 0x11 1 1) 15 0 / 8))).isSome = true) ∧
    (let pl : List Word := [word (1 * 2 ^ 60)]
     malformed State.reset.lc.state (chanOf State.reset 1).gen (hd 3 0x11 1 1).toNat pl = none ∧ (chanOf State.reset 1).gen = 0 ∧
     wf (hd 3 0x11 1 1) 15 0 = 8 * pl.length ∧ malformed base.lc.state (chanOf base 1).gen (hd 3 0x11 1 1).toNat pl = none ∧
     admitted base 1 (wf (hd 3 0x11 1 1) 47 32) pl = false) ∧
    (chanOf { base with chans := [(1, { busy := true })] } 1).busy = true ∧
    (let w := fun u : Nat => [word (u * 65536)]
     reservedAt 1 0x0040 (w (2 ^ 43)) = none ∧ admitted base 0 0x0040 (w (2 ^ 43)) = true ∧
     reservedAt 1 0x0081 (w 0) = none ∧ admitted base 0 0x0081 (w 0) = true ∧ (chanOf base 0).ubusy = false ∧
     reservedAt 1 0x0090 (w 0) = none ∧ admitted base 0 0x0090 (w 0) = true ∧ bit (0#48).toNat 43 = false ∧
     reservedAt 1 0x0090 (w (2 ^ 43)) = none ∧ admitted base 0 0x0090 (w (2 ^ 43)) = true ∧ bit (8796093022208#48).toNat 43 = true ∧
     (Instr.packageReset 0 (.urgent 8796093022208#48) {}).wellFormed = true ∧ (Instr.packageReset 0 (.urgent 0) {}).wellFormed = true ∧
     (reservedAt 1 0x0040 (w 1)).isSome = true ∧ (reservedAt 1 0x0081 (w 1)).isSome = true ∧ (reservedAt 1 0x0090 (w (2 ^ 43 + 1))).isSome = true ∧
     admitted base 1 0x0040 (w (2 ^ 43)) = false ∧ admitted base 1 0x0081 (w 0) = false ∧ admitted base 1 0x0090 (w 0) = false ∧
     admitted base 1 0x0090 (w (2 ^ 43)) = false ∧ State.reset.active.isSome = true ∧ base.active.isSome = true ∧
     (chanOf { base with chans := [(1, { ubusy := true })] } 1).ubusy = true) := by decide +kernel

/-- gen_max 3 and gen_min 1, the boundary gen_min = 3, and gen_min 4. -/
theorem witness_VersionHelloNegotiates :
    ready State.reset 0x0001 1 (hd 3 1 7 1) [word (3 * 2 ^ 56 + 2 ^ 48)] = true ∧
    (Instr.versionHello 1 (hd 3 1 7 1) [word (3 * 2 ^ 56 + 2 ^ 48)]).wellFormed = true ∧
    (let g := fun pl : List Word => min (wf (wd pl 0) 63 56) 3
     max (wf (wd [word (3 * 2 ^ 56 + 3 * 2 ^ 48)] 0) 55 48) 1 ≤ g [word (3 * 2 ^ 56 + 3 * 2 ^ 48)] ∧
     ¬ max (wf (wd [word (9 * 2 ^ 56 + 4 * 2 ^ 48)] 0) 55 48) 1 ≤ g [word (9 * 2 ^ 56 + 4 * 2 ^ 48)] ∧
     ready State.reset 0x0001 15 (hd 1 1 0 1) [word (9 * 2 ^ 56 + 4 * 2 ^ 48)] = true) := by decide +kernel

/-- A state whose first compute die has no frame left: each of its extents is on its way out of flash. -/
def fullDie : State :=
  { base with parts := [], freeFrames := [], exts := (List.range 97280).map (fun x => (x, { st := .promoting })) }

/-- PART_CREATE of partition 0 with a quota of one frame on die 0. -/
def quota1 : List Word := (List.range 20).map (fun i => if i = 12 then word (2 ^ 47) else 0)

theorem fullDie_get {x : Nat} (h : x < 97280) : tblGet? fullDie.exts x = some { st := .promoting } := by
  have key : ∀ n a, a ≤ x → x < a + n → tblGet? ((List.range' a n).map (fun x => (x, ({ st := .promoting } : Ext)))) x = some { st := .promoting } := by
    intro n
    induction n with
    | zero => intro a h1 h2; omega
    | succ n ih =>
      intro a h1 h2
      rw [List.range'_succ, List.map_cons, tblGet?]
      split
      · rfl
      · exact ih (a + 1) (by omega) (by omega)
  simpa [fullDie, List.range_eq_range'] using key 97280 0 (by omega) (by omega)

theorem fullDie_victim (s : State) (h : s.exts = fullDie.exts) : poolVictim s 0 = none := by
  have h1 : s.exts.filter (fun e => evictable s 0 e.1) = [] := by
    rw [List.filter_eq_nil_iff]
    intro e he
    have hx : e.1 < 97280 := by
      rw [h] at he; obtain ⟨x, hx, rfl⟩ := List.mem_map.mp he; exact List.mem_range.mp hx
    simp [evictable, extOf, h, fullDie_get hx]
  have h2 : ∀ f x, firstUntouched s 0 97280 f x = none := by
    intro f
    induction f with
    | zero => intro x; rfl
    | succ f ih =>
      intro x
      rw [firstUntouched]
      split
      · rfl
      · rw [h, fullDie_get (by omega)]; simpa using ih (x + 1)
  simp [poolVictim, h1, h2]

/-- Where a die has no frame and no victim, nothing is withdrawn from it. -/
theorem withdraw_none (p die n : Nat) (s : State) (h1 : takePoolFrame die s = none) (h2 : poolVictim s die = none) : withdraw p die n s = s := by
  cases n with
  | zero => rfl
  | succ n => rw [withdraw, h1, h2]

theorem owed_clamps (l : List (Word × Word)) (m : State) (d : Nat) : owedFrames (setClamps 0 1 l m) 0 d = owedFrames m 0 d := by
  cases l <;> simp [setClamps, owedFrames, partOf, setChan]

/-- The partition is made and holds no frame yet. -/
theorem fullDie_waits (l : List (Word × Word)) :
    framesHeld (setClamps 0 1 l (assign 0 (newPart fullDie 1 quota1) (putRequest 0 (hd 3 0x10 1 20) quota1 fullDie))) 0 = false := by
  let np := newPart fullDie 1 quota1
  let m := makeBuckets 0 np.rates np.bursts np.rdRates (setPart 0 np (putRequest 0 (hd 3 0x10 1 20) quota1 fullDie))
  have hp : partOf m 0 = np := by decide +kernel
  have hq : np.quotas = [1, 0, 0, 0] := by decide +kernel
  have he : m.exts = fullDie.exts := rfl
  have hf : m.freeFrames = [] := rfl
  have hx : ∀ d, (m.exts.filter (fun e => e.2.pin == some 0 && e.2.die == d)).length = 0 := by
    intro d
    rw [he, List.length_eq_zero_iff, List.filter_eq_nil_iff]
    intro e h
    obtain ⟨x, -, rfl⟩ := List.mem_map.mp h
    simp
  have ho : ∀ d, owedFrames m 0 d = np.quotas.getD d 0 - (np.held.getD d []).length := by
    intro d; rw [owedFrames, hx, hp]; simp
  have hw : withdrawAll 0 m = m := by
    have w0 : ∀ n, withdraw 0 0 n m = m := fun n => withdraw_none 0 0 n m (by simp [takePoolFrame, hf]) (fullDie_victim m he)
    have z : ∀ d, 0 < d → d < 4 → owedFrames m 0 d = 0 := by
      intro d h1 h2
      rw [ho, hq]
      match d, h1, h2 with
      | 1, _, _ => simp
      | 2, _, _ => simp
      | 3, _, _ => simp
    simp only [withdrawAll, show List.range 4 = [0, 1, 2, 3] from rfl, List.foldl_cons, List.foldl_nil, w0, z 1 (by omega) (by omega),
      z 2 (by omega) (by omega), z 3 (by omega) (by omega), withdraw]
  have ha : assign 0 np (putRequest 0 (hd 3 0x10 1 20) quota1 fullDie) = m := by
    have hr : np.ring = false := by decide +kernel
    have ht : np.tiles.2 = 0 := by decide +kernel
    have hz : makeBuckets 0 np.rates np.bursts np.rdRates (zeroTiles ((List.range np.tiles.2).map (· + np.tiles.1))
        (setPart 0 np (putRequest 0 (hd 3 0x10 1 20) quota1 fullDie))) = m := by rw [ht]; rfl
    simp only [assign, hz, hw, hr, Bool.false_eq_true, if_false]
  have hc : ∀ d, owedFrames (setClamps 0 1 l m) 0 d = owedFrames m 0 d := fun d => owed_clamps l m d
  show framesHeld (setClamps 0 1 l (assign 0 np _)) 0 = false
  rw [ha]
  simp [framesHeld, show List.range 4 = [0, 1, 2, 3] from rfl, hc, ho, hq, show np.held = [[], [], [], []] by decide +kernel]

def zeros20 : List Word := List.replicate 20 0

/-- The last tile, queue, region, Dray and reduction engine. -/
def edge20 : List Word := [word (2 ^ 54), word (543 * 2 ^ 54 + 2 ^ 44 + 16383 * 2 ^ 30 + 2 ^ 15), word (4095 * 2 ^ 52 + 2 ^ 39), word (2 ^ 63)] ++ List.replicate 16 0

/-- PART_CREATE of a new partition 0 with no quota, of one whose quota finds no frame, and of one that exists; PART_DISSOLVE of no
partition, of one with a job, of an idle one without queues, and of one whose queue holds a record back. -/
theorem witness_PartitionsAreCreatedAndDissolved :
    (let s : State := { base with parts := [] }
     let ok := fun s pl => ready s 0x0010 0 (hd 3 0x10 1 20) pl = true ∧ (Instr.partCreate 0 (hd 3 0x10 1 20) pl).wellFormed = true ∧
       partExists s 0 = false ∧ s.parts = [] ∧
       (wantedOf pl).tiles.2 = 0 ∧ (wantedOf pl).queues.2 = 0 ∧ (wantedOf pl).regions.2 = 0 ∧ (wantedOf pl).drays = 0 ∧ (wantedOf pl).red = 0 ∧ (∀ c ∈ createFields s 1 pl, c.none_ = false)
     ok s zeros20 ∧ framesHeld (setClamps 0 1 ((createFields s 1 zeros20).flatMap (·.entry)) (assign 0 (newPart s 1 zeros20) (putRequest 0 (hd 3 0x10 1 20) zeros20 s))) 0 = true ∧
     ok fullDie quota1 ∧
     (let x := wantedOf edge20; x.tiles = (543, 1) ∧ x.queues = (16383, 1) ∧ x.regions = (4095, 1) ∧ bit x.drays 39 = true ∧ bit x.red 15 = true ∧
       ready s 0x0010 0 (hd 3 0x10 1 20) edge20 = true ∧ (physOf s 543).isSome = true ∧ recordFailed s (drayUnit 39) = false ∧
       recordFailed s (redUnit 15) = false ∧ (∀ c ∈ createFields s 1 edge20, c.none_ = false)) ∧ (pick (createAll base 1 zeros20)).isSome = true ∧ partExists base 0 = true ∧ ready base 0x0010 0 (hd 3 0x10 1 20) zeros20 = true) ∧
    (let pl := [word (1 * 2 ^ 60)]
     let none_ := [word (15 * 2 ^ 60)]
     ready base 0x0011 0 (hd 3 0x11 1 1) pl = true ∧ ready base 0x0011 0 (hd 3 0x11 1 1) none_ = true ∧ partExists base 15 = false ∧
     (Instr.partDissolve 0 (hd 3 0x11 1 1) pl).wellFormed = true ∧
     partExists base 1 = true ∧ jobOf base 1 = none ∧ partQueues base 1 = [] ∧ queuesQuiet base 1 = true ∧
     (let s := setJob 1 { id := 1, t0 := 0 } base
      ready s 0x0011 0 (hd 3 0x11 1 1) pl = true ∧ partExists s 1 = true ∧ (jobOf s 1).isSome = true) ∧
     (let s : State := { base with queues := [(4, { cur := some [] })] }
      ready s 0x0011 0 (hd 3 0x11 1 1) pl = true ∧ jobOf s 1 = none ∧
      queuesQuiet ((partQueues (putRequest 0 (hd 3 0x11 1 1) pl s) 1).foldl (fun s q => performAll q (if (queueOf s q).enable then disableQueue q s else s))
        (putRequest 0 (hd 3 0x11 1 1) pl s)) 1 = false)) := by decide +kernel

/-- The smallest image of one package for partition 1, at address 0: header, empty stream directory, one epoch of 64 us of one segment. -/
def img : State :=
  { base with mem := [⟨0, 128⟩, ⟨1, 38⟩, ⟨6, 16⟩, ⟨7, 1⟩, ⟨17, 128⟩, ⟨18, 62⟩, ⟨20, 1⟩, ⟨25, 128⟩, ⟨26, 240⟩, ⟨27, 250⟩, ⟨28, 162⟩, ⟨29, 15⟩, ⟨30, 1⟩, ⟨48, 128⟩, ⟨57, 38⟩, ⟨9729, 128⟩, ⟨9730, 62⟩, ⟨9733, 232⟩, ⟨9734, 3⟩, ⟨9736, 16⟩, ⟨9737, 38⟩] }

/-- An installed image of one epoch, with the entries of its streams. -/
def image (streams : Tbl (List Entry)) : Image :=
  { addr := 0, len := 9856, service := false, members := 1, seed := 5, nEpochs := 1, holdQuantum := 4000, holdLimit := 2, holdLead := 500,
    recovery := 1000, epochs := [{ lenNom := 16000, lenDeg := 16000, segs := [{ startNom := 0, startDeg := 0, slackNom := 10, slackDeg := 10 }] }],
    streams := streams, utabs := [], digest := [], bufUse := [] }

/-- The partition 1 of `base`, with a record queue and an image. -/
def part1 : Part := { partOf base 1 with image := some (image []) }

/-- The stream directory of `img` is empty, so none of its checks fails. -/
theorem img_directory (s : State) (h : s.mem = img.mem) (st : Nat) (hst : st < 600) :
    (dirChecks s 0 9856 128 st).filter (fun c => c.1) = [] ∧ dirOf s 0 128 st = (0, 0) := by
  have hz : ∀ k, 128 ≤ k → k < 9729 → memGet s.mem k = 0#8 := by
    intro k h1 h2
    rw [h]; simp only [img, memGet, tblGet]
    repeat' (first | rfl | (rw [tblGet?, if_neg (by omega)]))
  have hw : ∀ k, k < 2 → iw s 0 (128 + 16 * st) k = 0#64 := by
    intro k hk
    have hb : ∀ a n, 128 ≤ a → a + n ≤ 9729 → leNat (memRead s.mem a n) = 0 := by
      intro a n
      induction n generalizing a with
      | zero => intros; rfl
      | succ n ih => intro h1 h2; rw [memRead, leNat, hz a h1 (by omega), ih (a + 1) (by omega) (by omega)]; rfl
    rw [iw, memLe, hb _ 8 (by omega) (by omega)]; rfl
  have e : iws s 0 (128 + 16 * st) 2 = [0#64, 0#64] := by
    show [iw s 0 (128 + 16 * st) 0, iw s 0 (128 + 16 * st) 1] = _
    rw [hw 0 (by omega), hw 1 (by omega)]
  simp only [dirChecks, dirOf, e]
  exact ⟨rfl, rfl⟩

theorem img_installs (s : State) (h : s.mem = img.mem) (hp : partExists s 1 = true) (h1 : pickLow (headerChecks 1 9856 (iws s 0 0 16)) = none)
    (h2 : (epochChecks s 0 9856 9728).filter (fun c => c.1) = [])
    (hh : (headerOf (iws s 0 0 16)).len = 9856 ∧ (headerOf (iws s 0 0 16)).nEpochs = 1 ∧ (headerOf (iws s 0 0 16)).epochOff = 9728 ∧
      (headerOf (iws s 0 0 16)).dirOff = 128)
    (hi : pick (imageChecks (planOf s 1 { imageOf s 0 (headerOf (iws s 0 0 16)) with streams := [], bufUse := bufUses [] } [])) = none) :
    installFails s 1 0 9856 = none := by
  have hd : ((List.range 600).flatMap (dirChecks s 0 9856 128)).filter (fun c => c.1) = [] := by
    rw [List.filter_eq_nil_iff]
    intro c hc
    obtain ⟨st, hst, hm⟩ := List.mem_flatMap.mp hc
    exact List.filter_eq_nil_iff.mp (img_directory s h st (List.mem_range.mp hst)).1 c hm
  obtain ⟨e1, e2, e3, e4⟩ := hh
  have hu : usedDirs s 0 (headerOf (iws s 0 0 16)) = [] := by
    rw [usedDirs, e4, List.filter_eq_nil_iff]
    intro st hst
    simp [(img_directory s h st (List.mem_range.mp hst)).2]
  have him : imageOf s 0 (headerOf (iws s 0 0 16)) = { imageOf s 0 (headerOf (iws s 0 0 16)) with streams := [], bufUse := bufUses [] } := by
    simp [imageOf, allEnts, hu]
  rw [← him] at hi
  simp only [installFails, Nat.zero_mod, ne_eq, not_true_eq_false, if_false, e1, h1, e2, e3, e4, hu, hp, allEnts, List.flatMap_nil, hi]
  simp [pickLow, List.filter_append, hd, h2]

/-- Consecutive lines of memory are the bytes from the first address. -/
theorem memRead_lines (m : Mem) (a k : Nat) : (List.range k).flatMap (fun i => memRead m (64 * (i + a)) 64) = memRead m (64 * a) (64 * k) := by
  induction k with
  | zero => simp [memRead]
  | succ k ih =>
    rw [List.range_succ, List.flatMap_append, ih, show 64 * (k + 1) = 64 * k + 64 by omega, memRead_split]
    simp [show 64 * (k + a) = 64 * a + 64 * k by omega]

/-- A state in which nothing is cached, buffered or in error: the Caboose reads what memory holds. -/
theorem quiet_read (d a n : Nat) (s : State) (h1 : s.dir = []) (h2 : s.homes = []) (h3 : s.lineErr = []) (h4 : s.exts = []) (h5 : now s < 64000)
    (h6 : s.poison = [] ∧ s.deadCh = []) (ha : a % 64 = 0) (hn : 0 < n) (hx : a + n ≤ 0x200000) :
    cohRead (.caboose d) a n none s = (memRead s.mem a n, s) := by
  have one : ∀ l, l * 64 < 0x200000 → cohReadLine (.caboose d) none l s = (memRead s.mem (64 * l) 64, s) := by
    intro l hl
    have he : extOf s (l / 32768) = { st := .hbm, dirty := BitVec.allOnes 512 } := by
      simp [extOf, h4, extReset, show l / 32768 = 0 by omega]
    have hin : inHbm s (l / 32768) = true := by simp [inHbm, he]
    have hl0 : lineOf s l = {} := lineOf_none (by rw [h1]; rfl)
    have ht : touchExt (l / 32768) s = s := by simp [touchExt, he, show now s / 1000 < 64 by omega]
    have hp : linePoisoned s l = false := by simp [linePoisoned, h6, h3, hin, setHas]
    have hb : homeLine s l = memRead s.mem (64 * l) 64 := by
      simp [homeLine, homeOf, h2, tblGet, peek, Nat.mul_comm]
    have ha : arrive (.caboose d) false false l s = s := by simp [arrive, settleLine, hl0]
    have hf : lineFetch l s = s := by simp [lineFetch, hin, ht, meetError, h3]
    simp [cohReadLine, ha, performReadLine, fetchFor, sectorPath, recallLine, hl0, hf, hp, hb]
  have fold : ∀ (ls : List Nat) acc, (∀ l ∈ ls, l * 64 < 0x200000) →
      ls.foldl (fun (x : List Byte × State) l => (x.1 ++ (cohReadLine (.caboose d) none l x.2).1, (cohReadLine (.caboose d) none l x.2).2)) (acc, s) =
        (acc ++ ls.flatMap (fun l => memRead s.mem (64 * l) 64), s) := by
    intro ls
    induction ls with
    | nil => intro acc _; simp
    | cons l ls ih =>
      intro acc h
      rw [List.foldl_cons, one l (h l (by simp))]
      rw [ih _ (fun x hx => h x (by simp [hx]))]
      simp
  have hm : ∀ l ∈ linesOf a n, l * 64 < 0x200000 := by
    intro l hl
    simp only [linesOf, show n ≠ 0 by omega, if_false, List.mem_map, List.mem_range] at hl
    omega
  have hr := fold (linesOf a n) [] hm
  simp only [cohRead, sectorPath, Bool.false_eq_true, if_false, readLines]
  rw [hr]
  simp only [linesOf, show n ≠ 0 by omega, if_false, List.nil_append, List.flatMap_map, ha, List.drop_zero]
  rw [memRead_lines, show 64 * (a / 64) = a by omega]
  congr 1
  obtain ⟨j, hj⟩ : ∃ j, 64 * ((a + n - 1) / 64 + 1 - a / 64) = n + j := ⟨64 * ((a + n - 1) / 64 + 1 - a / 64) - n, by omega⟩
  rw [hj, memRead_split, List.take_append_of_le_length (by simp), List.take_of_length_le (by simp)]

/-- A route table of zeros names nothing: one member, no port, ring or destination. -/
theorem zero_table (n : Nat) : rtBad (List.replicate n 0#8) = false := by
  have hl : ∀ k, leNat (List.replicate k 0#8) = 0 := by
    intro k; induction k with
    | zero => rfl
    | succ k ih => rw [List.replicate_succ, leNat, ih]; rfl
  have h : ∀ o k, rtAt (List.replicate n 0#8) o k = 0 := by intro o k; simp [rtAt, hl]
  simp [rtBad, rtReserved, rtIllegal, rtRingPorts, rtDestPorts, rtWord0, rtPortAt, rtRingAt, rtDestAt, rtUsed, h, fld, bit]
/-- Where nothing is written memory reads zero. -/
theorem memRead_zero (a n : Nat) : memRead [] a n = List.replicate n 0#8 := by
  induction n generalizing a with
  | zero => rfl
  | succ n ih => rw [memRead, ih, List.replicate_succ]; rfl

/-- The first bytes of a Caboose image without code, of svn 4. -/
def bootHead : List Byte := [1#8, 1#8, 0, 0, 4#8, 0, 0, 0] ++ List.replicate 56 0 ++ sha384 []
def bootImage : List Byte := bootHead ++ List.replicate 8080 0#8

/-- The image in memory. -/
def booted : State := { base with mem := memWrite [] 0 bootHead }

/-- Where its keys are the fused ones and its signatures verify, the image is valid. -/
theorem boot_valid (h1 : sha384 (cut bootImage 160 96) = Config.fusedHash 1) (h2 : sha384 (cut bootImage 256 1952) = Config.fusedHash 2)
    (h3 : Config.ecdsaVerify (cut bootImage 160 96) (cut bootImage 2208 96) (bootImage.take 2208) = true)
    (h4 : Config.mldsaVerify (cut bootImage 256 1952) (cut bootImage 2304 3309) (bootImage.take 2208) = true) :
    imageValid booted.lc 1 bootImage = true := by
  have hs : (bootImage.getD 0 0 == 1#8 && (bootImage.getD 1 0).toNat == 1 && zeros (cut bootImage 2 2) && zeros (cut bootImage 24 40) &&
    zeros (cut bootImage 112 48) && zeros (cut bootImage 5613 2579) && decide (8192 + leNat (cut bootImage 8 8) ≤ bootImage.length) &&
    decide (leNat (cut bootImage 8 8) ≤ 0x70000)) = true := by decide +kernel
  have hd : (sha384 (cut bootImage 8192 (leNat (cut bootImage 8 8))) == cut bootImage 64 48 &&
    decide (booted.lc.svnCab ≤ leNat (cut bootImage 4 4))) = true := by decide +kernel
  simp only [Bool.and_eq_true] at hs hd ⊢
  simp only [imageValid, h1, h2, h3, h4, Bool.and_eq_true, if_true, Nat.mul_one, Nat.reduceSub, beq_self_eq_true]
  simp only [hs, hd, and_self]

theorem boot_read (hdr : Word) (pl : List Word) : (cohRead (.caboose 0) 0 8192 none (putRequest 0 hdr pl booted)).1 = bootImage := by
  have hl : bootHead.length = 112 := by decide +kernel
  have h0 : memRead (memWrite [] 0 bootHead) 0 112 = bootHead := by rw [← hl]; exact memRead_write
  have h1 : memRead (memWrite [] 0 bootHead) 112 8080 = List.replicate 8080 0#8 := by
    rw [memRead_write_out (by omega), memRead_zero]
  rw [quiet_read 0 0 8192 _ rfl rfl rfl rfl (by change (0 : Nat) < 64000; omega) ⟨rfl, rfl⟩ rfl (by omega) (by omega),
    show (putRequest 0 hdr pl booted).mem = memWrite [] 0 bootHead from rfl, show 8192 = 112 + 8080 from rfl, memRead_split, h0, h1]
  rfl

theorem zero_route_read (hdr : Word) (pl : List Word) : (cohRead (.caboose 0) 0 4368 none (putRequest 0 hdr pl base)).1 = List.replicate 4368 0#8 := by
  rw [quiet_read 0 0 4368 _ rfl rfl rfl rfl (by change (0 : Nat) < 64000; omega) ⟨rfl, rfl⟩ rfl (by omega) (by omega)]
  exact memRead_zero 0 4368

/-- SLATE_INSTALL off a line boundary, past the backed UMR by its length and by its header, of an image with no header, and of the
smallest image. -/
theorem witness_SlatesAreInstalledAndJobsOpened :
    let pl := fun a : Nat => [word (2 ^ 60), word a, word 9856]
    (ready img 0x0020 1 (hd 3 0x20 1 3) (pl 0) = true ∧ (Instr.slateInstall 1 (hd 3 0x20 1 3) (pl 0)).wellFormed = true ∧
     ready img 0x0020 1 (hd 3 0x20 1 3) (pl 127) = true ∧ 127 % 128 ≠ 0 ∧
     ready img 0x0020 1 (hd 3 0x20 1 3) (pl (umrEnd - 9728)) = true ∧ (umrEnd - 9728) % 128 = 0 ∧ umrEnd < umrEnd - 9728 + 9856 ∧
     ready img 0x0020 1 (hd 3 0x20 1 3) (pl umrEnd) = true ∧ umrEnd % 128 = 0 ∧
     (installFails (settleRange 16384 9856 (putRequest 1 (hd 3 0x20 1 3) (pl 16384) img)) 1 16384 9856).isSome = true) ∧
    installFails (settleRange 0 9856 (putRequest 1 (hd 3 0x20 1 3) (pl 0) img)) 1 0 9856 = none :=
  ⟨by decide +kernel, by
    rw [show ∀ s : State, s.dir = [] → s.homes = [] → settleRange 0 9856 s = s from fun s h1 h2 => by simp [settleRange, h1, h2]]
    · exact img_installs _ rfl (by decide +kernel) (by decide +kernel) (by decide +kernel) (by decide +kernel) (by decide +kernel)
    · rfl
    · rfl⟩

/-- A consist of two members in which the other is 0 ns away, with an image of one slot each second. -/
def two : State :=
  { base with
    parts := [(1, { part1 with image := some { image [] with members := 2, service := true, svcQueue := 4 } })],
    queues := [(4, { enable := true, qtype := 1 })], degraded := true,
    quartz := { base.quartz with state := .consist, probes := [(1, 0)] },
    route := some { self := 0, members := 2, timeRoot := 0, torus := false, dims := (1, 1, 1), upstream := 0, alt1 := none, alt2 := none,
                    maxHop := 0, ports := [], rings := [], dests := [] } }

/-- JOB_OPEN with job 0, with T0 off the grid, 1 ms and 3,600 s ahead, with a seal, and of a session of two members. -/
theorem witness_JobOpen :
    (let s : State := { base with
       parts := [(1, { part1 with seals := [(2, { root := [], base := 0, len := 64 })] })], queues := [(4, { enable := true })],
       quartz := { base.quartz with state := .localRef } }
     let pl := fun j t0 : Nat => [word (2 ^ 60 + 4 * 2 ^ 45), word j, word t0]
     let sealed := [word (2 ^ 60 + 4 * 2 ^ 45 + 2 * 2 ^ 41 + 2 ^ 40), word 7, word 1000000]
     ready s 0x0021 1 (hd 3 0x21 1 3) (pl 7 1000000) = true ∧ (Instr.jobOpen 1 (hd 3 0x21 1 3) (pl 7 1000000)).wellFormed = true ∧
     ready s 0x0021 1 (hd 3 0x21 1 3) (pl 0 1000000) = true ∧ ready s 0x0021 1 (hd 3 0x21 1 3) (pl 7 1000002) = true ∧
     (partOf s 1).image = some (image []) ∧ (image []).service = false ∧ (partOf s 1).job = none ∧
     wf (wd (pl 7 1000000) 0) 58 45 = 4 ∧ queuePart s 4 = some 1 ∧ (queueOf s 4).enable = true ∧ bit (wd (pl 7 1000000) 0).toNat 40 = false ∧
     ready s 0x0021 1 (hd 3 0x21 1 3) sealed = true ∧ bit (wd sealed 0).toNat 40 = true ∧ wf (wd sealed 0) 44 41 = 2 ∧
     (tblGet? (partOf s 1).seals 2).isSome = true ∧
     now s + 1000000 ≤ 1000000 ∧ 3600000000000 ≤ now s + 3600000000000 ∧ (image []).members ≤ 1 ∧ quartzReady s 1 = true ∧
     receiptBlocked s = false ∧ namesUnbacked s (image []) = false) ∧
    (let pl := [word (2 ^ 60), word 7, word 1000000]
     let i : Image := { image [] with members := 2, service := true, svcQueue := 4 }
     ready two 0x0021 1 (hd 3 0x21 1 3) pl = true ∧ (Instr.jobOpen 1 (hd 3 0x21 1 3) pl).wellFormed = true ∧ (partOf two 1).image = some i ∧
     (partOf two 1).job = none ∧ bit (wd pl 0).toNat 59 = false ∧ wf (wd pl 0) 58 45 = 0 ∧ (queueOf two 4).enable = true ∧
     (queueOf two 4).qtype = 1 ∧ holdLeadOk two i = true ∧ (two.route.map (·.members)) = some 2 ∧ quartzReady two 2 = true ∧
     receiptBlocked two = false ∧ namesUnbacked two i = false) := by decide +kernel

/-- No job, another job's id, one running, one whose T0 is now, one whose T0 is 1 ns ahead, and a session between and in slots. -/
theorem witness_JobCloseWithdrawsOrEnds :
    let pl := [word (2 ^ 60), word 7]
    let job : Job := { id := 7, t0 := 1000000000 }
    let ok := fun s => ready s 0x0022 1 (hd 3 0x22 1 2) pl = true
    (Instr.jobClose 1 (hd 3 0x22 1 2) pl).wellFormed = true ∧ ok later ∧ jobOf later 1 = none ∧
    ok (setJob 1 { job with id := 8 } later) ∧ jobOf (setJob 1 { job with id := 8 } later) 1 = some { job with id := 8 } ∧
    ok (setJob 1 { job with running := true } later) ∧ ok (setJob 1 job later) ∧ job.t0 ≤ now later ∧
    now later < ({ job with t0 := 1000000001 } : Job).t0 ∧ ok (setJob 1 { job with t0 := 1000000001 } later) ∧
    ok (setJob 1 { job with service := true } later) ∧ ok (setJob 1 { job with service := true, running := true } later) ∧
    jobOf (setJob 1 { job with service := true, running := true } later) 1 = some { job with service := true, running := true } := by decide +kernel

/-- A seal of one line of extent 0 by Dray 0, of a poisoned one, its release with and without a job that named it; TILE_RETIRE of the last
physical and logical tile, of the one past it, of a tile of another partition and of a tile that is retired. -/
theorem witness_ModelsAreSealedAndTilesRetired :
    (let pl := [word (2 ^ 60), word 0, word 64]
     let rel := [word (2 ^ 60 + 2 ^ 55), word 0, word 0]
     let bad : State := { base with poison := [0] }
     ready base 0x0030 1 (hd 3 0x30 1 3) pl = true ∧ (Instr.sealModel 1 (hd 3 0x30 1 3) pl).wellFormed = true ∧ bit (wd pl 0).toNat 55 = false ∧
     inPart (partOf base 1) 0 64 = true ∧ 0 + 64 ≤ umrEnd ∧ bit (partOf base 1).drayMask 0 = true ∧ (partOf base 1).job = none ∧
     tblGet? (partOf base 1).seals 0 = none ∧ ringInRange base 0 64 = false ∧ rangePoisoned base 0 64 = false ∧
     ready bad 0x0030 1 (hd 3 0x30 1 3) pl = true ∧ ringInRange bad 0 64 = false ∧ rangePoisoned bad 0 64 = true ∧
     ready base 0x0030 1 (hd 3 0x30 1 3) rel = true ∧ bit (wd rel 0).toNat 55 = true ∧ partExists base 1 = true ∧
     (let s := setJob 1 { id := 1, t0 := 0, sealSlot := some 0 } base
      ready s 0x0030 1 (hd 3 0x30 1 3) rel = true ∧ ((partOf s 1).job.map (·.sealSlot)) = some (some (wf (wd rel 0) 59 56)))) ∧
    (let s : State := { base with parts := [(0, { chan := 0, tiles := (543, 1) }), (1, { chan := 1, tiles := (0, 8) })],
                                  record := { base.record with buffered := [{ kind := 0, a := 575, b := 7 }] } }
     let pl := fun phys t : Nat => [word (phys * 2 ^ 59 + t * 2 ^ 49)]
     let ok := fun phys t => ready s 0x0040 0 (hd 3 0x40 1 1) (pl phys t) = true
     (Instr.tileRetire 0 (.go (hd 3 0x40 1 1) (pl 1 575))).wellFormed = true ∧ ok 1 575 ∧ bit (wd (pl 1 575) 0).toNat 59 = true ∧
     wf (wd (pl 1 575) 0) 58 49 = 575 ∧ ok 1 576 ∧ wf (wd (pl 1 576) 0) 58 49 = 576 ∧ ok 0 544 ∧ wf (wd (pl 0 544) 0) 58 49 = 544 ∧
     ok 0 8 ∧ tilePart s 8 ≠ some 0 ∧ ok 0 543 ∧ tilePart s 543 = some 0 ∧ (physOf s 543).isSome = true ∧ retired s 575 = true) := by decide +kernel

/-- Every page and the one past the last, of a partition that exists, of one whose job a reset ended and of one that never was; a clamp
report; and each kind of receipt, in and out of the log. -/
theorem witness_ReadsReturnWhatTheyName :
    (let pl := fun p g : Nat => [word (2 ^ 60 * p + g * 2 ^ 52)]
     let s : State := { base with lastJobs := [(14, { id := 1, t0 := 0 })] }
     let ok := fun p g => ready s 0x0050 0 (hd 3 0x50 1 1) (pl p g) = true ∧ wf (wd (pl p g) 0) 59 52 = g ∧ wf (wd (pl p g) 0) 63 60 = p
     (Instr.telemetryRead 0 (hd 3 0x50 1 1) (pl 0 0)).wellFormed = true ∧ ok 0 0 ∧ partExists s 0 = true ∧ ok 0 1 ∧ ok 0 2 ∧ ok 0 3 ∧ ok 0 4 ∧ ok 0 5 ∧
     ok 14 0 ∧ (tblGet? s.lastJobs 14).isSome = true ∧ ok 15 0 ∧ partExists s 15 = false ∧ tblGet? s.lastJobs 15 = none) ∧
    (ready base 0x0051 1 (hd 3 0x51 1 0) [] = true ∧ (Instr.clampReportRead 1 (hd 3 0x51 1 0) []).wellFormed = true) ∧
    (let s : State := { base with rcpt := { log := [(9, [1#8, 1#8])], next := 10, batches := [{ num := 2, first := 0, openedAt := 0, record := [1#8] }] } }
     let pl := fun k i : Nat => [word (2 ^ 60 + k * 2 ^ 58), word i, word 0]
     let ok := fun k i => ready s 0x0060 1 (hd 3 0x60 1 3) (pl k i) = true ∧ wf (wd (pl k i) 0) 59 58 = k
     (Instr.receiptFetch 1 (hd 3 0x60 1 3) (pl 1 9)).wellFormed = true ∧ inSafe s = false ∧ ok 0 0 ∧ (findReceipt s 1 0).isSome = true ∧
     ok 0 1 ∧ findReceipt s 1 1 = none ∧ ok 1 9 ∧ tblGet? s.rcpt.log 9 = some [1#8, 1#8] ∧ receiptPart [1#8, 1#8] = 1 ∧
     ok 1 10 ∧ tblGet? s.rcpt.log 10 = none ∧ ok 2 2 ∧ (s.rcpt.batches.find? (fun b => b.num == 2 && !b.record.isEmpty)).isSome = true ∧
     ok 2 3 ∧ (s.rcpt.batches.find? (fun b => b.num == 3 && !b.record.isEmpty)).isNone = true ∧ ok 3 0) := by decide +kernel

/-- A route table of zeros at address 0, off its alignment, poisoned, past the backed UMR by a byte, and with an image installed; POWER_SET
below and above the bounds; POWER_DOWN. -/
theorem witness_RoutesCapsAndPowerDown :
    ((let pl := fun a : Nat => [word a]
      let ok := fun s a => ready s 0x0070 0 (hd 3 0x70 1 1) (pl a) = true
      let bad : State := { base with poison := [0] }
      let held : State := { base with parts := [(1, part1)] }
      ok base 0 ∧ (Instr.routeInstall 0 (hd 3 0x70 1 1) (pl 0)).wellFormed = true ∧ ok base 4 ∧ 4 % 8 ≠ 0 ∧
      ok base (umrEnd - 4360) ∧ (umrEnd - 4360) % 8 = 0 ∧ umrEnd < umrEnd - 4360 + 4368 ∧
      rangePoisoned (putRequest 0 (hd 3 0x70 1 1) (pl 0) base) 0 4368 = false ∧ base.parts.any (fun e => e.2.image.isSome) = false ∧
      ok bad 0 ∧ rangePoisoned (putRequest 0 (hd 3 0x70 1 1) (pl 0) bad) 0 4368 = true ∧
      ok held 0 ∧ held.parts.any (fun e => e.2.image.isSome) = true ∧ held.active = some 0) ∧
     rtBad (cohRead (.caboose 0) 0 4368 none (putRequest 0 (hd 3 0x70 1 1) [word 0] base)).1 = false) ∧
    (let pl := fun c : Nat => [word (c * 2 ^ 52)]
     ready base 0x0080 0 (hd 3 0x80 1 1) (pl 1599) = true ∧ (Instr.powerSet 0 (hd 3 0x80 1 1) (pl 1599)).wellFormed = true ∧
     ready base 0x0080 0 (hd 3 0x80 1 1) (pl 3601) = true) ∧
    (ready base 0x0081 0 (hd 3 0x81 1 1) [0] = true ∧ (Instr.powerDown 0 (.go (hd 3 0x81 1 1) [0])).wellFormed = true) :=
  ⟨⟨by decide +kernel, by rw [zero_route_read]; exact zero_table 4368⟩, by decide +kernel, by decide +kernel⟩

/-- A partition that exists and one that does not; the package at work, after POWER_DOWN, in both safe states, with a latch and with a fault. -/
theorem witness_ResetsOfPartitionAndPackage :
    let pl := fun p g : Nat => [word (p * 2 ^ 60 + g * 2 ^ 59)]
    let ok := fun s p g => ready s 0x0090 0 (hd 3 0x90 1 1) (pl p g) = true ∧ bit (wd (pl p g) 0).toNat 59 = decide (g = 1)
    let good := fun s : State => latched s = false ∧ s.power.fault = false ∧ s.power.islands = true
    let up := fun k d => ({ base with bu := { base.bu with state := k, down := d } } : State)
    (Instr.reset 0 (.go (hd 3 0x90 1 1) (pl 1 0))).wellFormed = true ∧ ok base 1 0 ∧ partExists base 1 = true ∧ ok base 15 0 ∧ partExists base 15 = false ∧
    (Instr.packageReset 0 (.go (hd 3 0x90 1 1) (pl 0 1)) {}).wellFormed = true ∧ (Instr.reset 0 (.go (hd 3 0x90 1 1) (pl 0 1))).wellFormed = true ∧
    (Instr.packageReset 0 (.go (hd 3 0x90 1 1) (pl 1 0)) {}).wellFormed = true ∧ ok base 0 1 ∧ good base ∧ base.bu.state = 1 ∧
    ok (up 2 true) 0 1 ∧ good (up 2 true) ∧ ok (up 2 false) 0 1 ∧ good (up 2 false) ∧ ok (up 3 false) 0 1 ∧ good (up 3 false) ∧
    (let s : State := { base with lc := { base.lc with tamper := true } }
     ok s 0 1 ∧ latched s = true) ∧
    (let s : State := { base with power := { base.power with fault := true } }
     ok s 0 1 ∧ s.power.fault = true) := by decide +kernel

/-- A transition outside Table 15-2, a latched one, one without its authorisation, a ninth RMA entry, PROVISIONED to DEPLOYED and
DEPLOYED to SCRAP; a stage past the UMR, inside it, too short and of no type; commits at seven and at eight. -/
theorem witness_LifecycleAdvancesStagesCommits :
    let life := fun st : Nat => ({ base with parts := [], lc := { base.lc with state := st, deviceId := 3 } } : State)
    let pl := fun t : Nat => word (2 ^ 56 + t * 2 ^ 52) :: List.replicate 25 0
    let ok := fun s t => ready s 0x00A0 0 (hd 3 0xA0 1 26) (pl t) = true ∧ wf (wd (pl t) 0) 55 52 = t
    ((Instr.lifecycleAdvance 0 (hd 3 0xA0 1 26) (pl 3) {}).wellFormed = true ∧ wf (wd (pl 3) 0) 63 56 = 1 ∧ ok (life 1) 3 ∧ transition 1 3 = false ∧
     ok { life 2 with lc := { (life 2).lc with tamper := true } } 3 ∧ ok (life 1) 2 ∧ needsAuth 1 2 = true ∧ authorised (life 1).lc 2 (pl 2) = false ∧
     ok { life 3 with lc := { (life 3).lc with rmaEntries := 8 } } 4 ∧ ok (life 2) 3 ∧ transition 2 3 = true ∧ needsAuth 2 3 = false ∧
     (life 2).lc.tamper = false ∧ (life 2).parts = [] ∧ ok (life 1) 5 ∧ ok (life 2) 5 ∧ ok (life 3) 5 ∧ ok (life 4) 5 ∧
     (Instr.lifecycleStage 0 (hd 3 0xA0 1 26) (pl 3)).wellFormed = true ∧ (Instr.lifecycleCommit 0 (hd 3 0xA0 1 26) (pl 3)).wellFormed = true) ∧
    (let st := fun a n : Nat => [word (2 * 2 ^ 56 + 2 ^ 48), word a, word n, 0]
     ready base 0x00A0 0 (hd 3 0xA0 1 4) (st (umrEnd - 8192) 8193) = true ∧ (Instr.lifecycleStage 0 (hd 3 0xA0 1 4) (st 0 8192)).wellFormed = true ∧
     wf (wd (st 0 8192) 0) 63 56 = 2 ∧ wf (wd (st 0 8192) 0) 55 48 = 1 ∧ umrEnd < umrEnd - 8192 + 8193 ∧
     ready base 0x00A0 0 (hd 3 0xA0 1 4) (st 0 8191) = true ∧ ready base 0x00A0 0 (hd 3 0xA0 1 4) [word (2 * 2 ^ 56 + 3 * 2 ^ 48), 0, word 8192, 0] = true ∧
     ready base 0x00A0 0 (hd 3 0xA0 1 4) (st (umrEnd - 8192) 8192) = true ∧ umrEnd - 8192 + 8192 ≤ umrEnd) ∧
    (let c := fun ty : Nat => [word (3 * 2 ^ 56 + ty * 2 ^ 48)]
     let s := fun n : Nat => ({ base with lc := { base.lc with commitsCab := n, commitsProc := n, slots := [(0, { svn := 4 }), (2, { svn := 4 })] } } : State)
     ready (s 7) 0x00A0 0 (hd 3 0xA0 1 1) (c 1) = true ∧ (Instr.lifecycleCommit 0 (hd 3 0xA0 1 1) (c 1)).wellFormed = true ∧
     ready (s 7) 0x00A0 0 (hd 3 0xA0 1 1) (c 2) = true ∧ ready (s 8) 0x00A0 0 (hd 3 0xA0 1 1) (c 1) = true ∧ (s 7).lc.svnCab ≠ 4 ∧ (s 7).lc.svnProc ≠ 4 ∧
     (s 7).lc.tamper = false ∧ (s 7).lc.state ≠ 5 ∧ ready (s 7) 0x00A0 0 (hd 3 0xA0 1 1) (c 3) = true ∧ wf (wd (c 3) 0) 55 48 = 3 ∧ ready (s 8) 0x00A0 0 (hd 3 0xA0 1 1) (c 2) = true ∧
     (let x : State := { s 7 with lc := { (s 7).lc with state := 5 } }
      ready x 0x00A0 0 (hd 3 0xA0 1 1) (c 1) = true) ∧ (Instr.lifecycleAdvance 0 (hd 3 0xA0 1 1) (c 1) {}).wellFormed = true ∧ wf (wd (c 1) 0) 63 56 = 3 ∧ wf (wd (c 2) 0) 55 48 = 2) := by decide +kernel

/-- A staged image that is valid where its keys are fused and its signatures verify; an enrolment that either Config answers, of a request
that is authorised where its signatures verify. -/
theorem witness_StageValid (h1 : sha384 (cut bootImage 160 96) = Config.fusedHash 1) (h2 : sha384 (cut bootImage 256 1952) = Config.fusedHash 2)
    (h3 : Config.ecdsaVerify (cut bootImage 160 96) (cut bootImage 2208 96) (bootImage.take 2208) = true)
    (h4 : Config.mldsaVerify (cut bootImage 256 1952) (cut bootImage 2304 3309) (bootImage.take 2208) = true) :
    let pl := [word (2 * 2 ^ 56 + 2 ^ 48), 0, word 8192, 0]
    let s1 := putRequest 0 (hd 3 0xA0 1 4) pl booted
    ready booted 0x00A0 0 (hd 3 0xA0 1 4) pl = true ∧ rangePoisoned s1 0 8192 = false ∧
    imageValid s1.lc 1 (cohRead (.caboose 0) 0 8192 none s1).1 = true :=
  ⟨by decide +kernel, by decide +kernel, by rw [boot_read]; exact boot_valid h1 h2 h3 h4⟩

/-! ### Device registers and queues -/

/-- ack = 1, ack = 0 and half a write; hart 96, file 9, and hart 95 with file 8. -/
theorem witness_ChannelAcknowledgeAndInterrupt :
    let m := fun v : Nat => mergeAcc .full (cbxIrq (chanOf base 15)) v
    bit (1#64).toNat 0 = true ∧ bit (0#64).toNat 0 = false ∧ (Acc.lo ≠ .full) ∧ 95 < fld (m (96 * 2 ^ 16)) 22 16 ∧ 8 < fld (m (9 * 2 ^ 12)) 15 12 ∧
    fld (m (95 * 2 ^ 16 + 8 * 2 ^ 12)) 22 16 ≤ 95 ∧ fld (m (95 * 2 ^ 16 + 8 * 2 ^ 12)) 15 12 ≤ 8 := by decide +kernel

/-- A member of a consist with an alternate port that is up; and a time root at a second, and 2 ms off it. -/
theorem witness_CountersFlagsAndTheQuartzFollowTheirRules :
    let q := fun st : QState => ({ base with quartz := { base.quartz with state := st } } : State)
    let r : Route := { self := 1, members := 2, timeRoot := 0, torus := false, dims := (1, 1, 1), upstream := 0, alt1 := some 19, alt2 := some 18,
                       maxHop := 0, ports := [], rings := [], dests := [] }
    let s : State := { q .holdover with route := some r, ports := [(18, { up := true }), (19, { up := true })] }
    let root := fun t : Nat => ({ base with route := some { r with self := 0 }, quartz := { base.quartz with now := t } } : State)
    base.bu.state = 1 ∧ anyJob base = false ∧ anyJob (setJob 1 { id := 1, t0 := 0 } base) = true ∧ now (tick base) = 4 ∧
    (q .free).quartz.state = .free ∧ (q .localRef).quartz.state = .localRef ∧ (q .consist).quartz.state = .consist ∧
    s.quartz.state = .holdover ∧ r.timeRoot ≠ r.self ∧ (portOf s 19).up = true ∧ (portOf s 18).up = true ∧
    ppsBad (root 1000000000) = false ∧ ppsBad (root 1002000000) = true := by decide +kernel

theorem witness_StandbyTakesOverOnce :
    (Instr.standbyTakeover {}).wellFormed = true ∧ base.active = some 0 ∧ base.bu.state = 1 ∧
    ({ base with active := some 1 } : State).active ≠ some 0 ∧ ({ base with active := none } : State).active ≠ some 0 := by decide +kernel

/-- A queue of 16 entries that may be enabled, one without a log size that may not, and one that is enabled, idle and with work. -/
theorem witness_QueuesAreEnabledAndDisabled :
    let s := fun x : QCtx => ({ base with queues := [(7, x)] } : State)
    let idle : QCtx := { sqLog := 4, cqLog := 4, qtype := 0, dray := 0 }
    let v := 2 ^ 63
    queuePart base 7 = some 1 ∧ bit (word v).toNat 63 = true ∧ bit (word 0).toNat 63 = false ∧
    enableOk (s idle) 1 (setCtrl v idle) = true ∧ enableOk (s {}) 1 (setCtrl v {}) = false ∧
    (queueOf (s { idle with enable := true }) 7).enable = true ∧ (queueOf (s idle) 7).enable = false ∧ (queueOf (s idle) 7).disabling = false ∧
    base.parts.all (fun e => e.2.job.isNone) = true := by decide +kernel

/-- An entry that may be validated, one of length 0 that may not, and a valid one. -/
theorem witness_RegionsAreValidatedAndInvalidated :
    let s := fun x : Region => ({ base with regions := [(7, x)] } : State)
    let x : Region := { lenPages := 1 }
    regionPart base 7 = some 1 ∧ validateOk (s x) 1 (setRgnCtrl (2 ^ 63) x) = true ∧ validateOk (s {}) 1 (setRgnCtrl (2 ^ 63) {}) = false ∧
    (regionOf (s { x with valid := true }) 7).valid = true ∧ (regionOf (s x) 7).valid = false ∧ bit (word (2 ^ 63)).toNat 63 = true := by decide +kernel

/-- A queue of 16 entries: a doorbell of no partition's queue, of a disabled one, past the last entry, with a wrong seq, with a
current one that adds fifteen descriptors, and one that adds none. -/
theorem witness_DoorbellIsTakenOrDiscarded :
    let s : State := { base with queues := [(4, { sqLog := 4, cqLog := 4, enable := true, state := .parked, dbSeq := 0xFFFF })] }
    let n := fun tail : Nat => (tail + 2 ^ 4 - (queueOf s 4).dbTail) % 2 ^ 4
    queuePart s 16383 = none ∧ (queuePart s 4).isSome = true ∧ (queueOf base 4).enable = false ∧ (queueOf s 4).enable = true ∧
    ¬ 16 < 2 ^ (queueOf s 4).sqLog ∧ fld 0 61 48 = 0 ∧ 15 < 2 ^ (queueOf s 4).sqLog ∧ 15 < 2 ^ (queueOf s 4).cqLog ∧
    14 = ((queueOf s 4).dbSeq + n 15) % 65536 ∧ n 0 = 0 ∧ 0xFFFF = (queueOf s 4).dbSeq ∧ 13 ≠ ((queueOf s 4).dbSeq + n 15) % 65536 ∧
    13 ≠ (queueOf s 4).dbSeq := by decide +kernel

/-- The first descriptor of a queue, of phase 1 and seq 0: a COPY, at the entry before the wrap; a stale one at the first, the
sixteenth and the last re-poll; and a re-poll that is due. -/
theorem witness_DescriptorsAreAcceptedRepolledOrParked :
    let x : QCtx := { sqLog := 4, cqLog := 4, enable := true, state := .running, reading := true, sqPhase := true, head := 15 }
    let s := fun x : QCtx => ({ base with queues := [(4, x)], mem := memWrite [] 960 (leBytes 8 (2 ^ 47 + 0x30)) } : State)
    let r := fun x => readDescriptor 4 (s x)
    (queueOf (s x) 4).reading = true ∧ (queueOf (s x) 4).state = .running ∧ bit (wd (r x).1 0).toNat 47 = (queueOf (r x).2 4).sqPhase ∧
    wf (wd (r x).1 0) 63 48 = (queueOf (r x).2 4).expSeq ∧ (queueOf (r x).2 4).qtype = 0 ∧ badOpcode (queueOf (r x).2 4) (r x).1 = false ∧
    (queueOf (r x).2 4).accepted.all (fun d => !badOpcode (queueOf (r x).2 4) d.1) = true ∧
    (let stale := fun k : Nat => ({ x with expSeq := 1, repollNo := k } : QCtx)
     wf (wd (r (stale 0)).1 0) 63 48 ≠ (queueOf (r (stale 0)).2 4).expSeq ∧ (queueOf (r (stale 0)).2 4).repollNo < 16 ∧
     (queueOf (r (stale 15)).2 4).repollNo < 16 ∧ 16 ≤ (queueOf (r (stale 16)).2 4).repollNo) ∧
    (let y : QCtx := { x with repoll := some (16, 4096) }
     (queueOf (s y) 4).reading = true ∧ (queueOf (s y) 4).state = .running ∧ (queueOf (s y) 4).repoll = some (16, 4096)) := by decide +kernel

/-! ### Harts and the coherent and direct paths -/

/-- A package of two: this is member 0, and port 0 leads to member 1. -/
def pair : State :=
  { base with
    ports := [(0, { up := true })]
    route := some { self := 0, members := 2, timeRoot := 0, torus := false, dims := (1, 1, 1), upstream := 0, alt1 := none, alt2 := none,
                    maxHop := 0, ports := [(0, { used := true, nbr := 1 })], rings := [], dests := [(1, { valid := true, port := 0 })] } }

/-- Every range, at the first or last access that lies in it and at one that leaves it. -/
theorem spaces :
    hartSpace (umrEnd - 8) 8 = .umr (umrEnd - 8) ∧ hartSpace (umrEnd - 4) 8 = .none ∧ hartSpace directBase 8 = .direct 0 ∧
    hartSpace (doorBase + 0x3FFFFF8) 8 = .door 16383 0xFF8 ∧ hartSpace doorBase 8 = .door 0 0 ∧ hartSpace (regBase + 8) 8 = .regs 8 ∧
    hartSpace (regBase + 12) 4 = .regs 12 ∧ hartSpace (regBase + 1) 1 = .regs 1 ∧ hartSpace (pcieBase + 2 ^ 44) 8 = .pcie 1 0 ∧
    hartSpace (2 ^ 55 + 2 ^ 43) 8 = .remote 1 0 ∧ hartSpace (2 ^ 55) 8 = .remote 0 0 ∧ hartSpace (2 ^ 55 + 2 * 2 ^ 43) 8 = .remote 2 0 ∧
    hartSpace (2 ^ 56 - 8) 8 = .none := by decide +kernel

/-- A load of each range by hart 95: poisoned and not, behind an own held write, with the PCIe link up and down, and of each package. -/
theorem witness_LoadsGoByAddressRange :
    (let i := fun a n : Nat => Instr.hartLoad 95 31 a n true
     (i (umrEnd - 8) 8).wellFormed = true ∧ (i (2 ^ 56 - 8) 8).wellFormed = true ∧ issues pair 95 (i (umrEnd - 8) 8) = true ∧
     issues pair 95 (i (2 ^ 55) 8) = true ∧ issues pair 95 (i (doorBase) 8) = true ∧ issues pair 95 (i (regBase + 8) 8) = true) ∧
    readWaits pair (.hart 95) false 0 8 = none ∧ (hartRead 95 0 8 false none pair).1.isSome = true ∧ (hartRead 95 0 8 true none pair).1.isSome = true ∧
    (let s : State := { pair with poison := [0] }
     readWaits s (.hart 95) true 0 8 = none ∧ (hartRead 95 0 8 true none s).1 = none ∧ (hartRead 95 0 8 false none s).1 = none) ∧
    (let s : State := { pair with exts := [(0, { st := .promoting, held := [.write (.hart 95) 0 [1#8] none, .directWrite (.hart 95) 0 [1#8] none] })] }
     readWaits s (.hart 95) false 0 8 = some 0 ∧ readWaits s (.hart 95) true 0 8 = some 0) ∧
    setHas ({ pair with pcie := { pair.pcie with link := [4] } } : State).pcie.link (subOf pair 1 0) = true ∧
    setHas pair.pcie.link (subOf pair 1 0) = false ∧ remoteReach pair 0 0 8 = .own 0 ∧ remoteReach pair 1 0 8 = .other 1 0 ∧
    remoteReach pair 2 0 8 = .nowhere := by decide +kernel

/-- A store of each range, of the UMR with and without an image in the extent. -/
theorem witness_StoresGoByAddressRange :
    (let i := fun a n : Nat => Instr.hartStore 95 31 a n
     (i (umrEnd - 8) 8).wellFormed = true ∧ (i (2 ^ 56 - 8) 8).wellFormed = true ∧ issues pair 95 (i (umrEnd - 8) 8) = true ∧
     issues pair 95 (i (2 ^ 55) 8) = true ∧ issues pair 95 (i (doorBase) 8) = true ∧ issues pair 95 (i (regBase + 8) 8) = true) ∧
    protectedRange pair 0 8 = false ∧ protectedRange { pair with parts := [(1, part1)] } 0 8 = true ∧
    remoteReach pair 0 0 8 = .own 0 ∧ remoteReach pair 1 0 8 = .other 1 0 ∧ remoteReach pair 2 0 8 = .nowhere ∧
    setHas ({ pair with pcie := { pair.pcie with link := [4] } } : State).pcie.link (subOf pair 1 0) = true ∧
    setHas pair.pcie.link (subOf pair 1 0) = false := by decide +kernel

/-- A whole line at the end of the UMR; a release behind the requester's held write; a protected extent; and one byte past the UMR. -/
theorem witness_DeviceWritesReachMemory :
    let d : List Byte := List.replicate 64 1#8
    (Instr.coherentWrite (.dray 39) (umrEnd - 64) d (some .consist)).wellFormed = true ∧ umrEnd - 64 + d.length ≤ umrEnd ∧
    protectedExt base ((umrEnd - 64) / extSize) = false ∧
    (let s : State := { base with exts := [((umrEnd - 64) / extSize, { st := .hbm })] }
     reqBlocked s (.write (.dray 39) (umrEnd - 64) d (some .consist)) = false ∧ writeHeld s ((umrEnd - 64) / extSize) = false) ∧
    tblGet? base.dir ((umrEnd - 64) / 64) = none ∧
    (homeOf base (homeNum base ((umrEnd - 64) / 64 * 64))).dbuf.any (fun w => decide (w.addr / 64 = (umrEnd - 64) / 64)) = false ∧
    (let s : State := { base with exts := [(0, { st := .promoting, held := [.write (.dray 39) 0 d none] })] }
     reqBlocked s (.write (.dray 39) (umrEnd - 64) d (some .consist)) = true) ∧
    protectedExt { base with parts := [(1, part1)] } 0 = true ∧ (Instr.coherentWrite (.dray 39) umrEnd [1#8] none).wellFormed = true := by decide +kernel

/-- A line that the hart owns, one that others share with a reservation, and one that no cache holds. -/
theorem witness_HartWritesOwnTheirLine :
    let d : List Byte := [1#8, 2#8]
    let ok := fun s : State => protectedExt s 0 = false ∧ writeHeld s 0 = false ∧ mustWait s 0 (.hart 95) true false = false ∧
      reqBlocked s (.write (.hart 95) 62 d (some .package)) = false ∧ (∀ e ∈ (lineOf s 0).copies, e.2.length = 64)
    let line : List Byte := List.replicate 64 0
    let owned : State := { base with dir := [(0, { owner := some 95, copies := [(95, line)], dirty := true })] }
    let shared : State := { base with dir := [(0, { copies := [(3, line), (95, line)] })], harts := [(3, { resv := some 0 })] }
    (Instr.coherentWrite (.hart 95) 62 d (some .package)).wellFormed = true ∧ ok base ∧ ok owned ∧ (lineOf owned 0).owner = some 95 ∧
    (lineOf owned 0).copies = [(95, line)] ∧ ok shared ∧ (lineOf shared 0).owner ≠ some 95 := by decide +kernel

def line0 : List Byte := List.replicate 64 0

/-- A holder that reads its own copy, a hart without one of a clean and of a poisoned line, a Dray, a requester whose held write the read
meets, and a read past the UMR. -/
theorem witness_HoldersReadTheirCopies :
    let s : State := { base with dir := [(0, { owner := some 95, copies := [(95, line0)], dirty := true })] }
    let ok := fun (s : State) r => reqBlocked s (.read r 60 4 none) = false ∧ readWaits s r false 60 4 = none ∧ mustWait s 0 r false false = false
    let bad : State := { base with poison := [0] }
    let held : State := { base with exts := [(0, { st := .promoting, held := [.write (.hart 95) 63 [1#8] none] })] }
    (Instr.coherentRead (.hart 95) 60 4 none).wellFormed = true ∧ (Instr.coherentRead (.dray 39) 60 4 none).wellFormed = true ∧ 60 + 4 ≤ umrEnd ∧
    ok s (.hart 95) ∧ hartPoison s 95 60 4 = none ∧ tblGet? (lineOf s (60 / 64)).copies 95 = some line0 ∧ (lineOf s (60 / 64)).waiting = [] ∧
    ok s (.dray 39) ∧ ok bad (.hart 0) ∧ hartPoison bad 0 60 4 = some 0 ∧ ok base (.hart 0) ∧ hartPoison base 0 60 4 = none ∧
    reqBlocked held (.read (.hart 95) 60 4 none) = false ∧ readWaits held (.hart 95) false 60 4 = some 0 ∧
    (Instr.coherentRead (.hart 95) umrEnd 1 none).wellFormed = true := by decide +kernel

/-- A direct write of the last line of the aperture with 63 writes before it, to a protected extent and outside the aperture; a drain of
a write and of none; a plain and an acquire read of a line with one pending, and one behind an own held write. -/
theorem witness_DirectWritesWaitInTheBuffer :
    let u := umrEnd - 64
    let a := directBase + u
    let w : DWrite := { addr := u, data := [1#8], at_ := 0 }
    let k := homeNum base (u / 64 * 64)
    let s : State := { base with homes := [(k, { dbuf := List.replicate 63 w })], exts := [(u / extSize, { st := .hbm })] }
    let held : State := { base with exts := [(u / extSize, { st := .promoting, held := [.directWrite (.hart 95) u [1#8] none] })] }
    (Instr.directWrite (.hart 95) a line0).wellFormed = true ∧ classify a = .direct u ∧ protectedExt s (u / extSize) = false ∧
    writeHeld s (u / extSize) = false ∧ (homeOf s k).dbuf.length < 64 ∧ protectedExt { base with parts := [(1, part1)] } 0 = true ∧
    classify directBase = .direct 0 ∧ (Instr.directWrite (.hart 95) (directBase + umrEnd) [1#8]).wellFormed = true ∧
    classify (directBase + umrEnd) = .none ∧ k < 18 ∧ (homeOf s k).dbuf = w :: List.replicate 62 w ∧ (homeOf base 17).dbuf = [] ∧
    (Instr.directRead (.hart 95) a 64 false).wellFormed = true ∧ (Instr.directRead (.hart 95) a 64 true).wellFormed = true ∧
    readWaits s (.hart 95) true u 64 = none ∧ (homeOf s k).dbuf.any (fun w => decide (w.addr / 64 = u / 64)) = true ∧
    readWaits held (.hart 95) true u 64 = some (u / extSize) := by decide +kernel

/-- A cache without a copy, the owner of a dirty line, a sharer; a line with no directory entry, and one on which a read waits whose snoop
has been forwarded and one whose has not. -/
theorem witness_LinesAreWrittenBackAndForwarded :
    let x : Line := { owner := some 95, copies := [(95, line0)], dirty := true }
    let s := fun x : Line => ({ base with dir := [(1, x)] } : State)
    let w : WaitReq := .read (.hart 0) 64 8 none
    (Instr.lineWriteback 95 1).wellFormed = true ∧ tblGet? (lineOf (s x) 1).copies 0 = none ∧ tblGet? (lineOf (s x) 1).copies 95 = some line0 ∧
    line0.length = 64 ∧ (lineOf (s x) 1).dirty = true ∧ (lineOf (s x) 1).owner = some 95 ∧ (lineOf (s x) 1).clash = false ∧
    (lineOf (s { copies := [(95, line0)] }) 1).owner ≠ some 95 ∧ tblGet? base.dir 1 = none ∧ (tblGet? (s x).dir 1).isSome = true ∧
    (lineOf (s { x with waiting := [w], snooped := true }) 1).snooped = true ∧
    (lineOf (s { x with waiting := [w], snooped := true }) 1).waiting = w :: [] ∧
    (lineOf (s { x with waiting := [w] }) 1).snooped = false := by decide +kernel

/-- An AMO of 8 and a CAS of 16 bytes, LR and SC at the last place of the UMR that takes them, in a protected extent, misaligned and past
the UMR, with and without the reservation. -/
theorem witness_AtomicsReadModifyWrite :
    let top := umrEnd - 16
    let s : State := { base with exts := [(top / extSize, { st := .hbm })] }
    let come := fun (s : State) (w : Bool) (n : Nat) => (linesOf top n).foldl (fun s l => arrive (.hart 95) w false l s) s
    (Instr.amo 95 .cas 30 28 top 16 true true).wellFormed = true ∧ issues s 95 (.amo 95 .cas 30 28 top 16 true true) = true ∧
    (Instr.amo 95 .add 31 30 top 8 true true).wellFormed = true ∧ issues s 95 (.amo 95 .add 31 30 top 8 true true) = true ∧
    hartSpace top 16 = .umr top ∧ top % 16 = 0 ∧ readWaits s (.hart 95) false top 16 = none ∧ protectedRange s top 16 = false ∧
    writeHeld (come s true 16) (top / extSize) = false ∧ (hartRead 95 top 16 false (relOf true) (come s true 16)).1.isSome = true ∧
    hartSpace (top + 4) 8 = .umr (top + 4) ∧ (top + 4) % 8 ≠ 0 ∧ hartSpace umrEnd 8 = .none ∧
    (Instr.lr 95 31 top 8 true true).wellFormed = true ∧ issues s 95 (.lr 95 31 top 8 true true) = true ∧
    (hartRead 95 top 8 false (relOf true) (come s false 8)).1.isSome = true ∧
    (Instr.sc 95 31 30 top 8 true true).wellFormed = true ∧ issues s 95 (.sc 95 31 30 top 8 true true) = true ∧
    (hartOf (come s true 8) 95).resv ≠ some (top / 64) ∧
    (let r : State := { s with harts := [(95, { resv := some (top / 64) })] }
     issues r 95 (.sc 95 31 30 top 8 true true) = true ∧ (hartOf (come r true 8) 95).resv = some (top / 64) ∧
     writeHeld (come r true 8) (top / extSize) = false) ∧
    (let p : State := { base with parts := [(1, part1)] }
     issues p 95 (.amo 95 .add 31 30 0 8 true true) = true ∧ issues p 95 (.sc 95 31 30 0 8 true true) = true ∧ hartSpace 0 8 = .umr 0 ∧
     protectedRange p 0 8 = true) := by decide +kernel

/-- An instruction word of the scoped kind: funct3, scope, width, rs2, rs1, rd. -/
def scIns (f3 scope w rs2 rs1 rd : Nat) : BitVec 32 :=
  BitVec.ofNat 32 (scope * 2 ^ 30 + w * 2 ^ 25 + rs2 * 2 ^ 20 + rs1 * 2 ^ 15 + f3 * 2 ^ 12 + rd * 2 ^ 7 + 0x0B)

/-- The scoped instructions of each code, on registers that hold an address of each range, off the width and off the ranges, and their
illegal forms; an instruction in reset, one behind an outstanding load of its register, and one behind another that waits. -/
theorem witness_ScopedInstructionsFollowTheirCodes :
    let s : State := { pair with harts := [(0, { x := [(1, 8), (2, word directBase), (3, word (2 ^ 55 + 2 ^ 43)), (4, 1), (5, word umrEnd), (6, word doorBase)] })] }
    let at_ := fun r : Nat => (rdX s 0 r).toNat
    isCustom (scIns 0 0 0 0 0 2).toNat 0 = true ∧ issues s 0 (.scfence 0 (scIns 0 0 0 0 0 2)) = true ∧ issues s 0 (.fence 0 true 15 15) = true ∧
    isCustom (scIns 0 0 0 0 0 3).toNat 0 = true ∧ fld (scIns 0 0 0 0 0 3).toNat 8 7 = 3 ∧ issues s 0 (.scfence 0 (scIns 0 0 0 0 0 3)) = true ∧
    isCustom (scIns 1 2 3 0 1 31).toNat 1 = true ∧ issues s 0 (.scld 0 (scIns 1 2 3 0 1 31)) = true ∧ scopeOf 2 = some .consist ∧
    isCustom (scIns 1 3 3 0 1 31).toNat 1 = true ∧ fld (scIns 1 3 3 0 1 31).toNat 31 30 = 3 ∧
    at_ 1 % 8 = 0 ∧ hartSpace (at_ 1) 8 = .umr 8 ∧ readWaits s (.hart 0) false 8 8 = none ∧ (hartRead 0 8 8 false (some .consist) s).1.isSome = true ∧
    at_ 2 % 8 = 0 ∧ hartSpace (at_ 2) 8 = .direct 0 ∧ readWaits s (.hart 0) true 0 8 = none ∧ (hartRead 0 0 8 true (some .consist) s).1.isSome = true ∧
    at_ 3 % 8 = 0 ∧ hartSpace (at_ 3) 8 = .remote 1 0 ∧ remoteReach s 1 0 8 = .other 1 0 ∧ scopedSpace (at_ 4) 8 = true ∧ at_ 4 % 8 ≠ 0 ∧
    scopedSpace (at_ 5) 8 = false ∧ isCustom (scIns 2 1 3 1 1 0).toNat 2 = true ∧ issues s 0 (.scst 0 (scIns 2 1 3 1 1 0)) = true ∧
    isCustom (scIns 2 1 3 1 1 1).toNat 2 = true ∧ protectedRange s 8 8 = false ∧ protectedRange s 0 8 = false ∧
    isCustom (scIns 3 0 0 1 6 0).toNat 3 = true ∧ issues s 0 (.qsubmit 0 (scIns 3 0 0 1 6 0)) = true ∧ classify (at_ 6) = .door 0 0 ∧
    isCustom (scIns 3 0 0 1 6 1).toNat 3 = true ∧ classify (at_ 5) = .none ∧
    (let down : State := { base with bu := { base.bu with state := 2 } }
     down.bu.state ≠ 1 ∧ (Instr.scfence 0 0).wellFormed = true) ∧
    (let i := Instr.hartLoad 0 31 0 8 true
     let t : State := { base with harts := [(0, { pcieLoads := [(31, pcieBase, 8, true)] })] }
     i.wellFormed = true ∧ t.bu.state = 1 ∧ (hartOf t 0).waiting = [] ∧ mayIssue t 0 i = false ∧
     (let t : State := { base with harts := [(0, { pcieLoads := [(31, pcieBase, 8, true)], waiting := [i] })] }
      (hartOf t 0).waiting = i :: [] ∧ mayIssue t 0 i = false) ∧ mayIssue base 0 i = true) := by decide +kernel

/-- In machine mode and in user mode with the operations enabled and not, on the last line of the UMR, past it, and in a protected extent. -/
theorem witness_CacheBlockOperations :
    let s := fun (md : Mode) (v : Nat) => ({ base with harts := [(95, { mode := md, menvcfg := v, senvcfg := v, henvcfg := v })] } : State)
    let is := [Instr.cboClean 95 (umrEnd - 1), .cboFlush 95 (umrEnd - 1), .cboInval 95 (umrEnd - 1), .cboZero 95 (umrEnd - 1)]
    is.all (fun i => issues (s .m 0) 95 i && issues (s .u 0xF0) 95 i && issues (s .u 0) 95 i && issues (s .vu 0) 95 i) = true ∧
    classify (umrEnd - 1) = .umr (umrEnd - 1) ∧ classify umrEnd = .none ∧ (hartOf (s .m 0) 95).mode = .m ∧
    [cbcfe, cbie, cbze].all (fun f => (cboTrap (hartOf (s .u 0xF0) 95) f).isNone && (cboTrap (hartOf (s .u 0) 95) f).isSome) = true ∧
    protectedRange { base with parts := [(1, part1)] } 0 64 = true := by decide +kernel

/-- A closed CSR, a full queue, a queue with a place, an empty one with a request of length zero, and the end of the oldest request. -/
theorem witness_RangeFlushTakesAndCompletesRequests :
    let r : RfReq := { hart := 95, ticket := 1, op := 2, base := 0, len := 64, notify := true }
    let s := fun (md : Mode) (n : Nat) (q : List RfReq) =>
      ({ base with harts := [(95, { mode := md, rflen := n })], rfs := [(1, { queue := q })] } : State)
    let is := [Instr.rfClean 95 1, .rfFlush 95 2, .rfInvalidate 95 3]
    is.all (fun i => issues (s .u 0 []) 95 i && issues (s .m 64 (List.replicate 4 r)) 95 i && issues (s .m 64 [r]) 95 i && issues (s .m 0 []) 95 i) = true ∧
    wf (1 : Word) 1 0 = 1 ∧ wf (2 : Word) 1 0 = 2 ∧ wf (3 : Word) 1 0 = 3 ∧ csrOpen (hartOf (s .u 0 []) 95) 0x5C2 = false ∧
    csrOpen (hartOf (s .m 0 []) 95) 0x5C2 = true ∧ 4 ≤ (rfOf (s .m 64 (List.replicate 4 r)) (95 / 48)).queue.length ∧
    (rfOf (s .m 64 (List.replicate 3 r)) (95 / 48)).queue.length < 4 ∧ (hartOf (s .m 64 []) 95).rflen ≠ 0 ∧
    (rfOf (s .m 0 []) (95 / 48)).queue = [] ∧ (hartOf (s .m 0 []) 95).rflen = 0 ∧ (rfOf (s .m 0 []) 0).queue = [] ∧
    (rfOf (s .m 0 [r, r]) 1).queue = r :: [r] ∧ r.hart < 96 := by decide +kernel

theorem witness_SoftwareInterruptsReachTheirFile :
    csrOpen (hartOf base 95) 0x5C4 = true ∧ issues base 95 (.sipiWrite 95 95) = true ∧ issues base 95 (.mipiWrite 95 (word (2 ^ 63 + 95))) = true ∧
    (hartOf base 95).mode = .m ∧ wf (word (2 ^ 63 + 95)) 6 0 = 95 ∧ bit (word (2 ^ 63 + 95)).toNat 63 = true ∧ bit (word 95).toNat 63 = false ∧
    95 < wf (word 96) 6 0 ∧ issues base 95 (.sipiWrite 95 96) = true ∧ issues base 95 (.mipiWrite 95 96) = true := by decide +kernel

/-- A read-only, a closed, an open and an absent CSR; each CSR whose width is stated; and registers on and off their width. -/
theorem witness_CsrAndRegisterWrites :
    let u : State := { base with harts := [(95, { mode := .vu })] }
    let csr := fun (n : Nat) (o : CsrOp) => Instr.registerWrite 95 (.csr n 31 o) 5
    [CsrOp.write, .set, .clear, .read].all (fun o => issues base 95 (csr 0x7C0 o) && issues base 95 (csr 0xCC0 o) && issues u 95 (csr 0x7C0 o) &&
      issues base 95 (csr 0x800 o)) = true ∧
    garouxCsr 0x7C0 = true ∧ csrReadOnly 0x7C0 = false ∧ csrReadOnly 0xCC0 = true ∧ garouxCsr 0xCC0 = true ∧ csrOpen (hartOf base 95) 0x7C0 = true ∧
    csrOpen (hartOf u 95) 0x7C0 = false ∧ absentCsr 0x800 = true ∧ garouxCsr 0x800 = false ∧ absentCsr 0x015 = true ∧
    [0x7C0, 0x5C0, 0x5C1, 0xCC1, 0xDC0, 0xDC1].all (csrOpen (hartOf base 95)) = true ∧ issues base 95 (csr 0xCC1 .read) = true ∧
    hartSpace regBase 8 = .regs 0 ∧ hartSpace (regBase + 4) 8 = .regs 4 ∧ hartSpace (regBase + 2) 4 = .regs 2 ∧
    issues base 95 (.registerWrite 95 (.mmio regBase true) 0) = true ∧ issues base 95 (.registerWrite 95 (.mmio (regBase + 4) false) 0) = true ∧
    csrOpen (hartOf u 95) 0x5C4 = false ∧ issues u 95 (.sipiWrite 95 0) = true ∧ (hartOf u 95).mode ≠ .m ∧
    issues u 95 (.mipiWrite 95 0) = true := by decide +kernel

/-- Compares that time has passed and not, at the largest value that time reaches, and qtime of an open and a closed hart in LOCAL. -/
theorem witness_TimersAndQtime :
    let s : State := { base with harts := [(95, { mqcmp := 2 ^ 62 - 1, stimecmp := 0, vstimecmp := 2 ^ 62 - 1, menvcfg := 2 ^ 63, henvcfg := 2 ^ 63 })],
                                 quartz := { base.quartz with state := .localRef } }
    let u : State := { base with harts := [(95, { mode := .u })] }
    s.bu.state = 1 ∧ 4 * (hartOf s 95).mqcmp < 2 ^ 64 ∧ 4 * (hartOf s 95).stimecmp ≤ now s ∧ 4 * (hartOf s 95).vstimecmp < 2 ^ 64 ∧
    stce (hartOf s 95) true = true ∧ stce (hartOf s 95) false = true ∧ issues s 95 (.qtimeRead 95 31) = true ∧ csrOpen (hartOf s 95) 0xCC0 = true ∧
    s.quartz.state = .localRef ∧ issues u 95 (.qtimeRead 95 31) = true ∧ csrOpen (hartOf u 95) 0xCC0 = false := by decide +kernel

/-- No record; one that meets a full ring for the first and the second time; one whose command has a held write; one of unpaid tokens; one
of a ring in flash; and one that is written at the last place of its ring. -/
theorem witness_CompletionRecordsAreWritten :
    let r : Rec := { kind := 0, seq := 0, tag := 0, status := 0, irq := true }
    let x : QCtx := { cqLog := 4, cqTail := 15, enable := true, recs := [r] }
    let s := fun x : QCtx => ({ base with queues := [(4, x)] } : State)
    (queueOf base 4).recs = [] ∧ (queueOf (s x) 4).recs = r :: [] ∧ (15 + 1) % 2 ^ 4 = (queueOf (s x) 4).cqHead ∧ r.counted = false ∧
    ({ r with counted := true } : Rec).counted = true ∧
    (let y : QCtx := { x with cqHead := 1 }
     (15 + 1) % 2 ^ 4 ≠ y.cqHead ∧ commandHeld (s y) y = false ∧ tokensPaid (s y) r.needs = true ∧ writeHeld (s y) ((0 + 32 * 15) / extSize) = false ∧
     (let h : State := { s { y with cur := some [] } with exts := [(1, { st := .promoting, held := [.write (.dray 0) extSize [1#8] none] })] }
      commandHeld h { y with cur := some [] } = true) ∧
     (let t : State := { s y with hbmBuckets := [(0, { rate := 1, burst := 64, tokens := 0, owed := 5, asked := 5 })] }
      tokensPaid t [(0, 5)] = false) ∧
     (let f : State := { s y with exts := [(0, { st := .flash })] }
      writeHeld f 0 = true ∧ (extOf f 0).st = .flash ∧ commandHeld f y = false ∧ (∀ w ∈ f.tierWait, w.ext ≠ 0))) := by decide +kernel

/-! ### Dray engines, Slate actions and vector engines -/

/-- An absolute operand of a descriptor. -/
def abs_ (a : Nat) : Word := word (2 ^ 62 + a)

/-- A descriptor of each Dray operation from address 0 to address 4096, or from `src`. -/
def drayCmd (op src : Nat) : List Word :=
  if op = 0x34 then [word (2 ^ 42 + 64 * 64 + op), abs_ src, 0, 0, abs_ 4096, 0, 0, 0]
  else if op = 0x35 then [word (64 * 64 + op), abs_ src, 0, 0, 0, 0, 0, 0]
  else if op = 0x33 then [word (4 * 64 + op), abs_ src, abs_ 4096, word (10 * 2 ^ 60 + 2 * 2 ^ 56), 0, 0, 0, 0]
  else if op = 0x30 then [word (64 * 64 + op), abs_ src, abs_ 4096, 0, 0, 0, 0, 0]
  else [word (4 * 64 + op), abs_ (if op = 0x31 then src else 64), abs_ 4096, 0, 0, abs_ (if op = 0x31 then 128 else src), 0, 0]

/-- Each Dray operation: one that runs, one that names what no region allows, one with a reserved bit, and one whose bytes are another
package's (an invalidation asks for none). -/
theorem witness_DrayCommandsRunOrAreRejected :
    let s := fun w : List Word => ({ pair with queues := [(4, { enable := true, state := .running, accepted := [(w, 0)] })] } : State)
    let m : Mover := { dray := 0, part := 1, slate := false, seed := 0 }
    let s1 := fun w => setQueue 4 { queueOf (s w) 4 with accepted := [], cur := some w } { s w with drayLast := tblSet 0 4 (s w).drayLast }
    let next := fun w => (queueOf (s w) 4).accepted = (w, 0) :: [] ∧ queuePart (s w) 4 = some 1 ∧ nextQueue (s w) 0 = some 4 ∧ drayBusy (s w) 0 = false ∧
      readsHeld (s w) m w = false
    let miss := fun w => missingLines (s1 w) m [] (drayDesc w) (operandsOf (s1 w) 1 false (drayDesc w))
    [0x30, 0x31, 0x32, 0x33, 0x34, 0x35].all (fun op =>
      let w := drayCmd op 0
      let outside := drayCmd op umrEnd
      let bad := word (2 ^ 40 + 64 * 64 + op) :: w.tail
      let far := drayCmd op (2 ^ 55 + 2 ^ 43)
      let s2 := { s1 w with drayWait := tblDel 0 (s1 w).drayWait }
      decide (next w) && wf (wd w 0) 5 0 == op && drayChecks (s1 w) m w == none && (miss w).isEmpty &&
      !indexOutside s2 m (drayDesc w) (operandsOf s2 1 false (drayDesc w)) && !meetsPoison s2 m (drayDesc w) (operandsOf s2 1 false (drayDesc w)) &&
      decide (next outside) && drayChecks (s1 outside) m outside == some stRegion &&
      decide (next bad) && drayChecks (s1 bad) m bad == some stFormat &&
      (op == 0x35 || (decide (next far) && drayChecks (s1 far) m far == none && !(miss far).dedup.isEmpty))) = true := by decide +kernel

/-- An entry of one action with its gates. -/
def entry (ty : Nat) (gates : List (Nat × Nat)) : Entry :=
  { launchNom := 10, launchDeg := 10, budgetNom := 1, budgetDeg := 1, segment := 0, epoch := 0, gates := gates, desc := [word ty] }

/-- Partition 1 holds every unit; its job runs, and the next entry of a stream is an action of type `ty`. -/
def slate (st ty : Nat) (gates : List (Nat × Nat)) : State :=
  { base with
    parts := [(1, { part1 with tiles := (0, 544), drayMask := 2 ^ 40 - 1, redMask := 2 ^ 16 - 1, image := some (image [(st, [entry ty gates])]),
                               job := some { id := 7, t0 := 0, running := true } })],
    seqs := [(st, { st := .wait, part := 1 })] }

/-- Every type of action on the first and the last stream that runs it, and each with a gate that is not met. -/
theorem witness_SlateActionsLaunchWhenTheirGatesAreMet :
    let rows : List (Nat × List Nat) := [(0, [0x21, 0x22, 0x23, 0x24]), (543, [0x21, 0x22, 0x23, 0x24]),
      (544, [0x30, 0x31, 0x32, 0x33, 0x34, 0x35, 0x38, 0x39, 0x3A, 0x3B, 0x3D]), (583, [0x30, 0x31, 0x32, 0x33, 0x34, 0x35, 0x38, 0x39, 0x3A, 0x3B, 0x3C, 0x3D]),
      (576, [0x3C]), (584, [0x10, 0x11, 0x12, 0x13, 0x14]), (599, [0x10, 0x11, 0x12, 0x13, 0x14])]
    rows.all (fun r => r.2.all (fun ty => (going (slate r.1 ty []) r.1 ty).isSome && (going (slate r.1 ty [(1, 1)]) r.1 ty).isNone &&
      (nextEntry (slate r.1 ty []) r.1).isSome)) = true ∧
    (∀ st ∈ [544, 583], readsHeld (slate st 0x30 []) { dray := st - 544, part := 1, slate := true, seed := 0 } (entry 0x30 []).desc = false) := by
  decide +kernel

/-- A null action that may launch and one that may not; an action in progress whose effects are done, and an update that is not. -/
theorem witness_CompletionsRaiseTheWatermark :
    let f : Flight := { idx := 0, at_ := 0, waits := 8 }
    let s := fun st : Nat => ({ slate st 0x01 [] with seqs := [(st, { st := .wait, part := 1, inflight := [f] })] } : State)
    (launchable (slate 599 0x01 []) 599 0x01).isSome = true ∧ launchable (slate 599 0x01 [(1, 1)]) 599 0x01 = none ∧
    (seqOf (s 0) 0).inflight.find? (fun f => f.idx == 0) = some f ∧ effectsDone (s 0) 0 0 = true ∧ tokensPaid (s 0) f.needs = true ∧
    effectsDone { s 0 with tiles := [(0, { upd := some { stream := 0, entry := 0, launched := 0, desc := [], tab := [], prog := [] } })] } 0 0 = false ∧
    inProgress (s 0) 0 1 = false := by decide +kernel

/-- A word of a vector program: opcode, type, vd, low bits. -/
def vword (op ty vd low : Nat) : Word := word (op * 2 ^ 56 + ty * 2 ^ 52 + vd * 2 ^ 47 + low)

/-- Every opcode of Table 04-4 with the types that it takes; a tile whose bank 0 the vector engine owns; and words that are none. -/
theorem witness_VectorInstructionsIssueOnTheirEngine :
    [(0x00, 0, 0, 0), (0x01, 0, 31, 0), (0x02, 1, 31, 0), (0x03, 2, 31, 0), (0x04, 0, 1, 0), (0x05, 0, 1, 0), (0x06, 3, 1, 0), (0x07, 0, 7, 3),
     (0x08, 0, 1, 0), (0x10, 0, 1, 0), (0x11, 0, 1, 0), (0x12, 0, 1, 0), (0x18, 0, 1, 2 * 2 ^ 15 + 2 ^ 11), (0x19, 0, 1, 3 * 2 ^ 15), (0x1A, 3, 1, 0),
     (0x1B, 3, 1, 0), (0x1C, 3, 1, 0), (0x1D, 0, 1, 0), (0x20, 0, 1, 0), (0x21, 3, 1, 0), (0x28, 0, 7, 2 ^ 27), (0x29, 0, 7, 2 ^ 27), (0x30, 0, 0, 255),
     (0x3F, 0, 0, 0)].all (fun e => vOp (vword e.1 e.2.1 e.2.2.1 e.2.2.2) == e.1 && vInsnOk (vword e.1 e.2.1 e.2.2.1 e.2.2.2)) = true ∧
    vInsnOk (vword 0x07 0 0 0) = false ∧ vInsnOk (vword 0x28 0 8 0) = false ∧ vOp (vword 0x09 0 0 0) ≠ 0x01 ∧
    (let s : State := { base with tiles := [(575, { owner := [(0, 2)] })] }
     vAddr (vword 0x20 0 1 0) (tileOf s 575).vec = 0 ∧ mismatch s 575 ownVector 0 256 = false ∧ (∀ b ∈ banksOf 0 256, (testOf s 575 b).startAt = none) ∧
     errWords s 575 0 256 = []) := by decide +kernel

/-- Every elementwise opcode in each type, VCMP and VA128RSUM. -/
theorem witness_VectorElementsFollowTheirMask :
    [(0, FpType.fp32), (1, .bf16), (2, .fp16)].all (fun t => [0x01, 0x02, 0x03, 0x04, 0x05, 0x06, 0x07, 0x08, 0x10, 0x11, 0x12].all (fun op =>
      let w := vword op t.1 7 0
      vInsnOk w && vOp w == op && vFp w == some t.2)) = true ∧
    vInsnOk (vword 0x1B 3 31 0) = true ∧ vOp (vword 0x1B 3 31 0) = 0x1B := by decide +kernel

/-- An idle port, one in phase 1 with its retain writes done and not, one whose write is held, and one in phase 2 at its last pair. -/
theorem witness_UpdatePortKeepsItsPhases :
    let u : UpdAct := { stream := 0, entry := 0, launched := 4, desc := [], tab := [], prog := [], kept := true }
    let s := fun u : UpdAct => ({ base with tiles := [(575, { upd := some u })] } : State)
    let held : State := { s u with exts := [(0, { st := .promoting, held := [.write (.updatePort 575) 0 [1#8] none] })] }
    (tileOf base 575).upd = none ∧ (tileOf (s u) 575).upd = some u ∧ u.kept = true ∧ u.markerWritten = false ∧ portHeld (s u) 575 = false ∧
    portHeld held 575 = true ∧ (tileOf held 575).upd = some u ∧ ({ u with kept := false } : UpdAct).kept = false ∧
    ({ u with markerWritten := true } : UpdAct).markerWritten = true ∧ ({ u with phase2 := true } : UpdAct).phase2 = true ∧ u.phase2 = false ∧
    updPairs u.desc ≤ u.next + 1 := by decide +kernel

/-! ### Jobs, epochs, holds and replays -/

/-- A session of partition 1 with a slot of 1 ms and a request buffer that is read. -/
def svcImage : Image := { image [] with service := true, slotNum := 1000000, slotDen := 1, svcQueue := 4, bindLead := 500, bufUse := [(true, false)] }
def session (j : Job) (q : List (List Word × Nat)) : State :=
  { base with parts := [(1, { part1 with image := some svcImage, job := some j })], queues := [(4, { enable := true, qtype := 1, accepted := q })] }

/-- A one-shot job before T0; sessions with no request, a late one, one that passes and one whose buffer names no region; one whose receipt
would overwrite an unsigned one; a slot that opens with and without a request, and one whose session closes; and an epoch that is finished,
of one member and of two, and not. -/
theorem witness_SlotsOpenOnTheirGridAndEpochsCommit :
    let j : Job := { id := 7, t0 := 1000000, service := true }
    let u := fun q => advance (1000000 - 4 * 500) (session j q)
    let bad : List Word := [0, 1]
    jobOf (setJob 1 { id := 7, t0 := 4 } base) 1 = some { id := 7, t0 := 4 } ∧ j.service = true ∧ j.nextBound = none ∧ j.closing = none ∧ j.running = false ∧
    (partOf (session j []) 1).image = some svcImage ∧ jobOf (session j []) 1 = some j ∧ receiptBlocked (u []) = false ∧
    (let s : State := { session j [] with lc := { base.lc with state := 3 }, rcpt := { next := 6291456, batches := [{ num := 0, first := 0, count := 1, openedAt := 0 }] } }
     receiptBlocked (advance (1000000 - 4 * 500) s) = true) ∧
    (queueOf (session j []) 4).accepted = [] ∧ j.t0 + 0 - 4 * 500 < 998001 ∧ 998000 ≤ j.t0 + 0 - 4 * 500 ∧
    (List.range 4).all (fun b => bufOk (u [([0], 0)]) 1 (svcImage.bufUse.getD b (false, false)) (bufOf [0] b)) = true ∧
    (List.range 4).all (fun b => bufOk (u [(bad, 0)]) 1 (svcImage.bufUse.getD b (false, false)) (bufOf bad b)) = false ∧
    (let b : Bound := { queue := 4, desc := [0], bufs := [] }
     jobOf (session { j with nextBound := some b } []) 1 = some { j with nextBound := some b }) ∧
    jobOf (endSlot 1 (advance 1000000 (session { j with closing := some (1, 2) } []))) 1 = none ∧
    (let k : Job := { id := 7, t0 := 0, running := true }
     epochFinished (setJob 1 k base) (image []) k = true ∧ k.localDone = false ∧ k.restartAt = none ∧ k.notices.any (abandonsEpoch k) = false ∧
     k.members ≤ 1 ∧ 1 < ({ k with members := 2 } : Job).members ∧ epochFinished (slate 0 0x01 []) (image [(0, [entry 0x01 []])]) k = false) := by
  decide +kernel

/-- Each kind of notice for a job of two members, new and held already, at its instant and after it; probes; a member in CONSIST, a time
root in LOCAL, and one that sends none. -/
theorem witness_NoticesAreKeptOnceAndFlooded :
    let j : Job := { id := 7, t0 := 0, members := 2, running := true, seen := [(1, 5)] }
    let s := setJob 1 j later
    let n := fun k serial t : Nat => (⟨k, 1, 0, serial, 0, 7, t, 1⟩ : Notice)
    [0, 1, 2, 3, 4, 5].all (fun k => okNotice (n k 5 0) && okNotice (n k 6 0) && noticePart s (n k 6 0) == some 1) = true ∧ jobOf s 1 = some j ∧
    (1, 5) ∈ j.seen ∧ (1, 6) ∉ j.seen ∧ now s ≤ (n 0 6 1000000000).instant ∧ (n 0 6 999999999).instant < now s ∧
    tblGet? s.quartz.probeSeen 1 = none ∧ tblGet? ({ s with quartz := { s.quartz with probeSeen := [(1, 6)] } } : State).quartz.probeSeen 1 = some 6 ∧
    two.quartz.state = .consist ∧ ¬ (s.quartz.state = .consist ∨ s.quartz.state = .localRef) ∧
    (two.route.map (fun r => r.timeRoot == r.self)) = some true := by decide +kernel

/-- A null action whose gate is not met: with a hold that stands pending, with the limit of holds reached, and below it; due notices of each
kind; a restart; and an action past its watchdog on a tile and on a unit. -/
theorem witness_LatenessIsHeldReplayedOrAborted :
    let i := image [(0, [entry 0x01 [(1, 1)]])]
    let s := slate 0 0x01 [(1, 1)]
    let j : Job := { id := 7, t0 := 0, running := true }
    let hn := fun k t : Nat => ({ n := ⟨k, 0, 0, 1, 0, 7, t, 1⟩ } : HeldNotice)
    (partOf s 1).image = some i ∧ jobOf s 1 = some j ∧ streamJob s 0 = some (1, i, j) ∧ nextReport s 1 i j 0 = some (80, (0, 0), entry 0x01 [(1, 1)]) ∧
    mayLaunch s 0 = false ∧ pendingHold s j = false ∧ tblGet 0 j.consec (entryKey 0 (0, 0)) < i.holdLimit ∧
    (let k : Job := { j with notices := [hn 0 1000] }
     pendingHold (advance 80 (setJob 1 k s)) k = true ∧ nextReport (setJob 1 k s) 1 i k 0 = some (80, (0, 0), entry 0x01 [(1, 1)])) ∧
    i.holdLimit ≤ tblGet 0 ({ j with consec := [(entryKey 0 (0, 0), 2)] } : Job).consec (entryKey 0 (0, 0)) ∧ mayLaunch (slate 0 0x01 []) 0 = true ∧
    dueNotice { j with notices := [hn 0 8] } 0 = some (hn 0 8) ∧ dueNotice { j with notices := [hn 1 8] } 1 = some (hn 1 8) ∧
    dueNotice { j with notices := [hn 1 8] } 0 = none ∧ dueNotice { j with notices := [hn 1 8, hn 0 8] } 0 = some (hn 0 8) ∧
    dueNotice { j with notices := [hn 2 8] } 2 = some (hn 2 8) ∧ (hn 1 8).n.epoch = j.epochBase + j.epoch ∧
    (⟨⟨1, 0, 0, 1, 0, 7, 8, 0⟩, false⟩ : HeldNotice).n.n = 0 ∧ ({ j with restartAt := some 100 } : Job).restartAt = some 100 ∧
    (let f : Flight := { idx := 0, at_ := 0 }
     let t := fun st : Nat => ({ slate st 0x01 [] with seqs := [(st, { st := .wait, part := 1, inflight := [f] })] } : State)
     (seqOf (t 543) 543).inflight = f :: [] ∧ (streamJob (t 543) 543).isSome = true ∧ (epochEntries (image [(543, [entry 0x01 []])]) 543 0)[0]?.isSome = true ∧
     (physOf (t 543) 543).isSome = true ∧ (streamJob (t 599) 599).isSome = true ∧ (epochEntries (image [(599, [entry 0x01 []])]) 599 0)[0]?.isSome = true) := by
  decide +kernel

/-! ### Tests of memory, tiers and media -/

/-- The last region of a tile's exchange SRAM: quiescent, with a step in progress whose memory is as it was saved and not, with an error of
one and of two bits in it, of another memory, of a retired tile; repairs below and at two; and a vault at rest, with an error and wiped. -/
theorem witness_BackgroundTestsKeepMemory :
    let s := fun (x : TestSt) (w : Nat) => ({ base with tiles := [(0, { walk := w, tests := [(4, x)] })] } : State)
    let saved : TestSt := { save := List.replicate 4096 0, startAt := some 0 }
    let off := 0x180000 + 15 * 4096
    min (399 / 96) 4 = 4 ∧ (testOf (s {} 399) 0 4).startAt = none ∧ retired (s {} 399) 0 = false ∧ quiescent (s {} 399) 0 4 = true ∧
    min (383 / 96) 4 ≠ 4 ∧ (testOf (s saved 399) 0 4).startAt.isSome = true ∧ (testOf (s saved 399) 0 4).save = memRead (s saved 399).tileMem off 4096 ∧
    (testOf (s { saved with save := [1#8] } 399) 0 4).save ≠ memRead (s saved 399).tileMem off 4096 ∧
    okOutcome 4 (.march true [(7, true, 0), (7, false, 1)]) = true ∧ okOutcome 4 .abandoned = true ∧
    (let e := fun n : Nat => ({ s saved 399 with tileErr := [(off / 16, n)] } : State)
     errWords (e 1) 0 off 4096 = [(off / 16, 1)] ∧ errWords (e 2) 0 off 4096 = [(off / 16, 2)]) ∧
    retired { base with record := { base.record with buffered := [{ kind := 0, a := 0, b := 7 }] } } 0 = true ∧
    ctrGet base 0x0200 4 ≤ max32 ∧ (base.repairs.filter (fun y => y.mem == 4 && y.sub == 7 && y.row == true)).length < 2 ∧
    (let r : Repair := { mem := 4, sub := 7, row := true, no := 0 }
     2 ≤ ([r, r].filter (fun y => y.mem == 4 && y.sub == 7 && y.row == true)).length) ∧
    (vaultOf base 1).wiping = none ∧ (vaultOf base 1).bad = false ∧ (vaultOf (setVault 1 { bad := true } base) 1).bad = true ∧
    (vaultOf (setVault 1 { wiping := some 2000 } base) 1).wiping = some 2000 := by decide +kernel

/-- Buckets with no debt; an extent that is promoted, one that is demoted with a clean and a dirty map, one at rest; sectors read and not read at
this instant; a block that a relocation moves, one that is queued, a bad one, and each where no work may start; lines of HBM and of flash; a
fill; and Tenders that serve, restart and are dead. -/
theorem witness_ExtentsSwitchAndBlocksMove :
    let s := fun e : Ext => ({ base with exts := [(400000, e)], hbmBuckets := [(0, { rate := 1, burst := 64, tokens := 64 })],
                                         flBuckets := [(0, { rate := 1, burst := 64, tokens := 0 })] } : State)
    let p : Ext := { st := .promoting, die := 3, frame := 5 }
    let d : Ext := { st := .demoting, die := 3, frame := 5 }
    let tender := fun t : Tender => ({ s p with tenders := [(0, t)] } : State)
    let stack := fun (x : Stack) => ({ base with flStacks := [(3, x)] } : State)
    400000 < 4059136 ∧ tblGet? (s p).hbmBuckets 0 = some { rate := 1, burst := 64, tokens := 64 } ∧
    tblGet? (s p).flBuckets 0 = some { rate := 1, burst := 64, tokens := 0 } ∧
    (extOf (s p) 400000).st = .promoting ∧ tenderServes (s p) 400000 = true ∧ tenderServes (tender { restarting := true }) 400000 = false ∧
    (extOf (s d) 400000).st = .demoting ∧ (extOf (s d) 400000).copying = 0 ∧ (extOf (drainExtent 400000 (s d)) 400000).dirty = 0 ∧
    (extOf (drainExtent 400000 (s { d with dirty := 1 })) 400000).dirty ≠ 0 ∧ stackReadOnly (s { d with copying := 1 }) 400000 = false ∧
    (let ro : State := { s { d with copying := 1 } with flStacks := [(0, { readOnly := true })] }
     (extOf ro 400000).copying ≠ 0 ∧ stackReadOnly ro 400000 = true) ∧
    (∀ e ∈ base.parts, e.2.creating = none) ∧
    okRequester (.dray 39) = true ∧ okSector (.dray 39) = true ∧ inHbm base 400000 = false ∧ tenderHolds base 400000 = false ∧
    ¬ (base.sectors.1 = now base ∧ setHas base.sectors.2 (400000 * 512 + 511) = true) ∧
    (let seen : State := { base with sectors := (0, [400000 * 512 + 511]) }
     seen.sectors.1 = now seen ∧ setHas seen.sectors.2 (400000 * 512 + 511) = true) ∧
    inHbm base 0 = true ∧ tenderHolds { base with tenders := [(0, { restarting := true })] } 400000 = true ∧
    (let m := stack { reloc := [(131071, 5)] }
     tblGet? (stackOf m 3).reloc 131071 = some 5 ∧ mayRelocate m 3 131071 = true ∧ (tblGet {} m.tenders 1).restarting = false) ∧
    (let q := stack { queued := [131071] }
     131071 ∈ (stackOf q 3).queued ∧ tblGet? (stackOf q 3).reloc 131071 = none ∧ mayRelocate q 3 131071 = true ∧ (tblGet {} q.tenders 1).dead = false ∧
     (stackOf q 3).bad.length + (stackOf q 3).reloc.length + (stackOf q 3).moved.length + (stackOf q 3).reads.length < 131071) ∧
    2 ^ 25 ≤ tblGet 0 (stackOf (stack { reads := [(7, 2 ^ 25)] }) 3).reads 7 ∧
    tblGet? (stackOf base 3).reloc 0 = none ∧ 0 ∉ (stackOf base 3).queued ∧ tblGet 0 (stackOf base 3).reads 0 < 2 ^ 25 ∧
    mayRelocate (setJob 1 { id := 1, t0 := 0 } base) 3 0 = false ∧ setHas (stackOf base 3).bad 0 = false ∧ setHas (stackOf (stack { bad := [0] }) 3).bad 0 = true ∧
    inHbm base ((0x1EF80000000 / 16 + 4096 * 32768 - 1) / 32768) = true ∧ inHbm base ((400000 * 32768) / 32768) = false ∧ tblGet? base.lineErr 0 = none ∧
    fillOf base 3 0 = none ∧
    (let f : WrcFill := { die := 3, line := 0, part := 1, mask := 1, prefetch := false }
     fillOf { base with wrc := { base.wrc with fills := [f] } } 3 0 = some f) ∧
    (tblGet {} base.tenders 1).dead = false ∧ (tblGet {} base.tenders 1).restarting = false ∧
    (tblGet {} (tender { restarting := true }).tenders 0).restarting = true ∧ (tblGet {} (tender { dead := true }).tenders 0).dead = true := by decide +kernel

/-! ### Coupling links, Nguix ports, remote requests and PCIe -/

/-- A good flit of a sequence and a bad one, at full width. -/
def flit (ty q : Nat) : List Byte := flitBytes 64 (flitHeader ty q 4095 0 0 0) []
def state1 (x : LinkDir) : State := { base with links := [(81, x)] }

/-- A good flit in order, one behind, one ahead with and without a nak that waits, one of another type, and a bad one; four and five failed
lanes, two groups that fail alike, a spare that is not used, a lost and a stopped direction. -/
theorem witness_CouplingLinksRetryAndNarrow :
    let x : LinkDir := { rxNext := 7 }
    let h := fun bs : List Byte => leNat (bs.take 4)
    let s1 := ((parityErrors (flit 1 7) x.width).filterMap (laneMap x)).foldl (countParity 40 1) (state1 x)
    carries x = true ∧ (flit 1 7).length = 256 ∧ linkOf (state1 x) 40 1 = x ∧ (crc32c ((flit 1 7).take 244)).toNat = leNat (((flit 1 7).drop 244).take 4) ∧
    ((crc32c ((1#8 :: (flit 1 7).tail).take 244)).toNat = leNat (((flit 1 7).drop 244).take 4)) = False ∧
    fld (h (flit 1 7)) 31 30 = 1 ∧ fld (h (flit 0 0)) 31 30 ≠ 1 ∧ fld (h (flit 1 7)) 29 18 = (linkOf s1 40 1).rxNext ∧ (linkOf s1 40 1).nakked = false ∧
    (fld (h (flit 1 8)) 29 18 + 4096 - 7) % 4096 < 2048 ∧ 2048 ≤ (fld (h (flit 1 6)) 29 18 + 4096 - 7) % 4096 ∧
    (linkOf (state1 { x with nakked := true }) 40 1).nakked = true ∧ (flit 1 7).tail.length ≠ 256 ∧ carries { x with stopUntil := some 5 } = false ∧
    setHas x.failed 67 = false ∧ x.width ≠ 0 ∧ setHas ({ x with failed := [67] } : LinkDir).failed 67 = true ∧
    (setIns 67 [0, 1, 34]).length ≤ 4 ∧ 4 < (setIns 67 [0, 1, 34, 35]).length ∧ x.width ≠ 32 ∧
    (let w := fun f : NatSet => dirWidth (setIns 67 f) none
     w [0, 1, 34] = (64, 0) ∧ (w [0, 1, 34]).1 = x.width ∧ w [0, 1, 34, 35] = (32, 0) ∧ (w [0, 1, 34, 35]).1 < x.width ∧ w [0, 1, 2, 34, 35, 36] = (0, 0)) ∧
    dirWidth (setIns 33 [0, 1, 34, 35]) (some 0) = (32, 1) := by decide +kernel

/-- A direction at half width that loses a third lane of its group moves to the other group. -/
theorem test_half_width_moves_to_the_other_group :
    (linkOf (after (exec (.laneFailure 0 0 33) { base with links := [(0, { width := 32, group := 0, failed := [0, 1, 34, 35, 66] })] })) 0 0).width = 0 ∧
    (linkOf (after (exec (.laneFailure 0 0 33) { base with links := [(0, { width := 32, group := 0, failed := [0, 1, 34, 35] })] })) 0 0).group = 1 := by
  decide +kernel

def frame (ty q : Nat) : List Byte := frameBytes (frameHeader ty q 16383 0 0 0) []
def port19 (x : Port) : State := { pair with ports := [(19, x)], quartz := { pair.quartz with state := .localRef } }
def trained (o : Bool) (f : List Nat) (d : Nat) : PortTrain := ⟨o, f, word (2 ^ 56 + 3), 5, 19, d⟩

/-- Frames as for a link; failures of the first lane, of a second in its half and of one in each; training that succeeds and fails; announced
neighbours; and symbols at a port that disciplines, before and after the first lock, and at one that does not. -/
theorem witness_NguixPortsTrainRetryAndMeasure :
    let x : Port := { up := true, rxNext := 7, lanes := 8 }
    let h := fun bs : List Byte => leNat (bs.take 8)
    let s := port19 x
    portOf s 19 = x ∧ x.up = true ∧ x.stopUntil = none ∧ (frame 1 7).length = 512 ∧ (crc64 ((frame 1 7).take 504)).toNat = leNat ((frame 1 7).drop 504) ∧
    ((crc64 ((1#8 :: (frame 1 7).tail).take 504)).toNat = leNat ((frame 1 7).drop 504)) = False ∧
    fld (h (frame 1 7)) 63 62 = 1 ∧ fld (h (frame 0 0)) 63 62 ≠ 1 ∧ fld (h (frame 1 7)) 61 48 = (portOf (takeFrameHeader 19 (h (frame 1 7)) s) 19).rxNext ∧
    (portOf (takeFrameHeader 19 (h (frame 1 8)) s) 19).nakked = false ∧ (fld (h (frame 1 8)) 61 48 + 16384 - 7) % 16384 < 8192 ∧
    8192 ≤ (fld (h (frame 1 6)) 61 48 + 16384 - 7) % 16384 ∧ (portOf (port19 { x with nakked := true }) 19).nakked = true ∧
    (portOf base 19).up = false ∧ (portOf (port19 { x with stopUntil := some 9 }) 19).stopUntil = some 9 ∧
    setHas x.failed 7 = false ∧ setHas ({ x with failed := [7] } : Port).failed 7 = true ∧ portLanes (setIns 7 [3]) = 0 ∧
    portLanes (setIns 7 []) = 4 ∧ portLanes (setIns 7 []) ≠ x.lanes ∧ portLanes (setIns 7 [4]) = ({ x with failed := [4], lanes := 4 } : Port).lanes ∧
    (trained true [7] 0).failed.all (fun l => decide (l < 8)) = true ∧ (trained true [7] 0).peerPort < 20 ∧
    (let u : State := { base with lasers := [(3, { ready := true, enabled := true })] }
     let ok := fun r : PortTrain => r.ok && decide (portLanes (r.failed.foldl (fun l n => setIns n l) []) ≠ 0) && featureOk r.feature && (laserOf u (19 / 5)).enabled
     (portOf u 19).up = false ∧ ok (trained true [7] 0) = true ∧ ok (trained false [7] 0) = false ∧ ok (trained true [3, 7] 0) = false ∧
     delayTooLong u 19 0 = false) ∧
    (∃ r, pair.route = some r ∧ (tblGet {} r.ports 0).used = true ∧ (tblGet {} r.ports 0).nbr = 1 ∧ (tblGet {} r.ports 0).nbrPort = 0 ∧
      (tblGet {} r.ports 0).nbr ≠ 2) ∧
    disciplines s 19 = false ∧
    (let far : State := { s with quartz := { s.quartz with timingPort := some 19 }, route := s.route.map (fun r => { r with timeRoot := 1 }) }
     disciplines far 19 = true ∧ (portOf far 19).up = true ∧ far.quartz.firstLocked = false ∧ anyJob far = false ∧
     (stampNow far : Int) ≤ (1000000 : Int) + ((stampNow far : Int) - 0 - 0) / 2 ∧ ¬ (stampNow { far with quartz := { far.quartz with now := 1000000 } } : Int) ≤ 0 ∧
     ({ far with quartz := { far.quartz with firstLocked := true } } : State).quartz.firstLocked = true) := by
  refine ⟨by decide +kernel, rfl, rfl, by decide +kernel, by decide +kernel, by decide +kernel, by decide +kernel, by decide +kernel, by decide +kernel,
    by decide +kernel, by decide +kernel, by decide +kernel, by decide +kernel, by decide +kernel, by decide +kernel, by decide +kernel, by decide +kernel,
    by decide +kernel, by decide +kernel, by decide +kernel, by decide +kernel, by decide +kernel, by decide +kernel, by decide +kernel,
    ⟨_, rfl, by decide +kernel⟩, by decide +kernel, by decide +kernel⟩

/-- A request of package 1 to package 0. -/
def msg (op pseq addr : Nat) : RemoteMsg := { dst := 0, src := 1, op := op, tag := 5, pseq := pseq, addr := addr, mask := 1, data := line0 }

/-- Requests without a route, for another member and for this one; in turn, behind a held write, early and late; and each answer: an address
beyond the UMR, a poisoned line, an image, an extent in flash, a reserved bit; and a gap. -/
theorem witness_RemoteRequestsArePerformedInOrder :
    let s : State := { pair with remote := { pair.remote with src := [(1, { next := 7 })] } }
    [0, 1, 2, 3, 4, 5].all (fun op => okMsg (msg op 7 0)) = true ∧ base.route = none ∧ srcOf s 1 = { next := 7 } ∧
    (∃ r, s.route = some r ∧ (msg 0 7 0).dst = r.self ∧ ({ msg 0 7 0 with dst := 1 } : RemoteMsg).dst ≠ r.self ∧ (routePort s r 1).isSome = true ∧
      (routePort s r 2).isSome = false) ∧
    writesWait s (.remote 1) = false ∧ writesWait (setExt 400000 { st := .promoting, held := [.remoteWrite (msg 2 6 0)] } s) (.remote 1) = true ∧
    (8 + 65536 - 7) % 65536 < 32768 ∧ 32768 ≤ (6 + 65536 - 7) % 65536 ∧ (srcOf s 1).early.length < 4096 ∧ (srcOf base 1).early = [] ∧
    ((msg 0 7 0).op ≤ 5 ∧ (msg 0 7 0).addr % 64 = 0 ∧ (msg 0 7 0).reserved = false) ∧ ¬ (msg 0 7 32).addr % 64 = 0 ∧
    umrEnd < (msg 0 7 (2 ^ 43 - 64)).addr + 64 ∧ (msg 0 7 (umrEnd - 64)).addr + 64 ≤ umrEnd ∧
    (let p : State := { s with poison := [0] }
     rangePoisoned (drainFor none p) 0 64 = true ∧ rangePoisoned (drainFor none s) 0 64 = false ∧ rangePoisoned (drainFor (some .consist) s) 0 64 = false) ∧
    (let p : State := { s with parts := [(1, { part1 with image := some (image []) })] }
     protectedRange p 0 64 = true ∧ protectedRange s 0 64 = false) ∧
    writeHeld s (400000 * extSize / extSize) = true ∧ writeHeld s 0 = false ∧
    (let g : State := { s with remote := { s.remote with src := [(1, { next := 7, early := [msg 2 9 0, msg 2 8 0], gapSince := some 4 })] } }
     (srcOf g 1).gapSince = some 4 ∧ msg 2 8 0 ∈ (srcOf g 1).early ∧ (srcOf g 1).early.any (fun e => e.pseq == (srcOf g 1).next) = false ∧
     (∀ y ∈ (srcOf g 1).early, y ≠ msg 2 8 0 → ((msg 2 8 0).pseq + 65536 - (srcOf g 1).next) % 65536 < (y.pseq + 65536 - (srcOf g 1).next) % 65536)) := by
  refine ⟨by decide +kernel, rfl, by decide +kernel, ⟨_, rfl, by decide +kernel⟩, by decide +kernel, by decide +kernel, by decide +kernel, by decide +kernel,
    by decide +kernel, by decide +kernel, by decide +kernel, by decide +kernel, by decide +kernel, by decide +kernel, by decide +kernel, by decide +kernel,
    by decide +kernel, by decide +kernel, by decide +kernel⟩

def response (op dst : Nat) : RemoteMsg := { msg op 0 0 with dst := dst }
def waits (op : Nat) (r : Requester) : Outstanding := ⟨1, 5, op, 64, r, some (31, 0, 8, false), 0⟩
def packet (epoch attempt entry : Nat) : CollPacket :=
  { engine := 15, ring := 0, entry := entry, origin := 1, step := 0, ovf := false, clamp := false, exponents := false, attempt := attempt, epoch := epoch,
    offset := 0, elems := [] }

/-- Responses here and elsewhere, with a hart's and a Dray's request outstanding, of every kind, and with none; and packets of an engine without
a partition, without a job, of another attempt, of an earlier, this and a later epoch, that the action waits for and that are early. -/
theorem witness_ResponsesCompleteTheirRequests :
    let s := fun o : Outstanding => ({ pair with remote := { pair.remote with out := [o] } } : State)
    let coll := fun (c : Tbl Coll) => ({ slate 599 0x10 [] with colls := c } : State)
    let c : Coll := { stream := 599, entry := 0, code := 0x10, ring := 0, attempt := 0, epoch := 0, own := [] }
    let j : Job := { id := 7, t0 := 0, running := true }
    [8, 9, 10].all (fun op => okMsg (response op 0)) = true ∧ okColl (packet 0 0 0) = true ∧ base.route = none ∧
    (∃ r, pair.route = some r ∧ (response 8 0).dst = r.self ∧ (response 8 1).dst ≠ r.self ∧ (routePort pair r 1).isSome = true) ∧
    outstanding pair 1 5 = none ∧ outstanding (s (waits 1 (.hart 95))) 1 5 = some (waits 1 (.hart 95)) ∧ (waits 1 (.hart 95)).op ≤ 1 ∧
    (hartOf (s (waits 1 (.hart 95))) 95).splits = [] ∧ outstanding (s (waits 0 (.dray 39))) 1 5 = some (waits 0 (.dray 39)) ∧
    2 ≤ (waits 4 (.hart 0)).op ∧ outstanding (s (waits 5 (.hart 0))) 1 5 = some (waits 5 (.hart 0)) ∧
    redPart base 15 = none ∧ redPart (coll []) 15 = some 1 ∧ jobOf (coll []) 1 = some j ∧
    jobOf { coll [] with parts := [(1, { partOf (coll []) 1 with job := none })] } 1 = none ∧
    (j.epochBase + j.epoch) % 2 ^ 32 = 0 ∧ (packet 0 1 0).attempt ≠ j.attempt % 256 ∧ (packet 0 0 0).attempt = j.attempt % 256 ∧
    tblGet? (coll [(15, c)]).colls 15 = some c ∧ packetFits c (packet 0 0 0) = true ∧ packetFits c (packet 0 0 1) = false ∧
    tblGet? (coll []).colls 15 = none ∧ (seqOf (coll []) 599).entry ≤ 0 ∧ setHas (seqOf (coll []) 599).done 0 = false ∧
    (packet 1 0 0).epoch ≠ 0 ∧ (({ j with epoch := 1 } : Job).epochBase + ({ j with epoch := 1 } : Job).epoch) % 2 ^ 32 = 1 := by
  refine ⟨by decide +kernel, by decide +kernel, rfl, ⟨_, rfl, by decide +kernel⟩, by decide +kernel⟩

/-- Sub-port 15 with entry 7 of memory and entry 8 of interrupts. -/
def bus (m : Region) : State :=
  { base with pcie := { base.pcie with link := [0, 15], bifs := [3, 3, 3, 3] }
              regions := [(7, { valid := true, inRd := true, inWr := true, port := 15, pcieBase := 0, target := 0, lenPages := 1 }), (8, m)] }
def msiEntry : Region := { valid := true, inWr := true, msi := true, port := 15, pcieBase := msiBase, lenPages := 2048 }

/-- Links up and down, MSI writes that are legal and not, memory of this and of another sub-port, requests that resolve and that do not, an image,
and a hart with and without a load that waits. -/
theorem witness_InboundPcieResolvesByRegionEntry :
    let s := bus msiEntry
    let entry := fun (a len : Nat) (write : Bool) (e : Nat × Region) => e.2.valid && e.2.port == 15 && ((9 ^^^ e.2.rid) &&& e.2.ridMask) == 0 &&
      inside a len e.2.pcieBase (e.2.lenPages * 4096) && (if write then e.2.inWr else e.2.inRd)
    let door := msiBase + 95 * 65536 + 8 * 4096
    setHas s.pcie.link 15 = true ∧ pcieBehind s 15 = false ∧ setHas base.pcie.link 15 = false ∧ inMsi door 1 = true ∧ inMsi 0 1 = false ∧
    s.regions.find? (entry door 4 true) = some (8, msiEntry) ∧ irqLegal (fld door 22 16) (fld door 15 12) (fld (leNat [255#8, 7, 0, 0]) 10 0) = true ∧
    irqLegal (fld door 22 16) (fld door 15 12) (fld (leNat [63#8, 0, 0, 0]) 10 0) = false ∧ (bus {}).regions.find? (entry door 4 true) = none ∧
    (bus { msiEntry with msi := false }).regions.find? (entry door 4 true) = some (8, { msiEntry with msi := false }) ∧
    memSpaceSub s 0 = none ∧ memSpaceSub s (pcieBase + 2 ^ 40) = some 0 ∧
    (let p : State := { s with pcie := { s.pcie with p2p := [(15, 1)] } }
     bit (tblGet 0 p.pcie.p2p 15) 0 = true ∧ setHas p.pcie.link 0 = true ∧ bit (tblGet 0 s.pcie.p2p 15) 0 = false) ∧
    (s.regions.find? (entry 4095 1 false)).isSome = true ∧ (s.regions.find? (entry 4095 1 true)).isSome = true ∧ s.regions.find? (entry 4095 2 false) = none ∧
    s.regions.find? (entry 4095 2 true) = none ∧ protectedRange s 0 1 = false ∧
    (let p : State := { s with parts := [(1, part1)] }
     protectedRange p 0 1 = true) ∧ subExists s 15 = true ∧ subExists base 15 = false ∧ s.bu.state = 1 ∧
    (hartOf s 95).pcieLoads = [] ∧ (hartOf (setHart 95 { pcieLoads := [(1, 0, 8, false)] } s) 95).pcieLoads = [(1, 0, 8, false)] := by decide +kernel

/-! ### Power, supply, bring-up and management -/

def sample (ms : Nat) : PowerSample := ⟨List.replicate 28 100, List.replicate 10 100, 3000, ms, 48000⟩

/-- Samples below and above the maximum; a package that is up and one in the safe state; a domain whose pending target is below the floor while a
job is open; guardbands that stand and rise, and points that are lost and are not. -/
theorem witness_PointsAllowancesAndThrottling :
    let dom := fun d : Dom => ({ setJob 1 { id := 7, t0 := 0 } base with power := { base.power with doms := [(0, d)], guard := [(11, 45)] } } : State)
    (sample 3600).domains.length = 28 ∧ (sample 3600).shares.length = 10 ∧ (List.replicate 12 (1050 : Int)).length = 12 ∧
    (List.replicate 16 (951 : Int)).length = 16 ∧ base.bu.state = 1 ∧ (enterSafe 1 0 base).bu.state ≠ 1 ∧ 250000 ∣ base.power.lastInterval ∧
    (sample 3600).inputMs ≤ 3600 ∧ 3600 < (sample 3601).inputMs ∧ anyJob base = false ∧ anyJob (dom { point := 9 }) = true ∧
    (let p := (domOf (dom { point := 9, target := some 8 }) 0).target.getD 9
     p = 8 ∧ p ≤ 9) ∧ coolWhole base 0 250000 = false ∧ (domOf (dom { point := 9, throttled := true }) 0).throttled = true ∧
    ({ dom { point := 9 } with power := { base.power with floored := true } } : State).power.floored = true ∧
    (1050 : Int) ≤ (List.replicate 12 (1050 : Int)).getD 11 0 ∧ setHas base.thermal.hot 11 = false ∧ (950 : Int) < (List.replicate 16 (951 : Int)).getD 15 0 ∧
    setHas base.thermal.over95 15 = false ∧ ¬ (950 : Int) < (List.replicate 16 (950 : Int)).getD 15 0 ∧
    (Instr.guardbandRaise 11 (.raise 16)).wellFormed = true ∧ min 45 (roundUp 15 5) ≤ tblGet 15 base.power.guard 11 ∧
    tblGet 15 base.power.guard 11 < min 45 (roundUp 16 5) ∧ 45 ≤ tblGet 15 (dom { point := 9 }).power.guard 11 ∧ tblGet 15 base.power.guard 0 < 45 ∧
    domDie 27 = 5 ∧ 15 ≤ (domOf base 27).highest := by decide +kernel

/-- Supply voltages at and beyond each limit, islands with and without supply, a recovery with a latch held and with none, and tampering that is
armed and that is not. -/
theorem witness_SupplyTripAndTamperCutThePower :
    let dark : State := { base with power := { base.power with islands := false } }
    let fault := fun u : State => ({ u with power := { u.power with fault := true } } : State)
    okTest {} = true ∧ dark.power.islands = false ∧ base.power.islands = true ∧ base.power.armed = true ∧
    ({ base with power := { base.power with armed := false } } : State).power.armed = false ∧ (fault base).power.fault = true ∧ base.power.fault = false ∧
    (base.lc.tamper = true ∨ base.power.trip.isSome = true ∨ base.lc.state = 5) = False ∧
    (fault { base with lc := { base.lc with tamper := true } }).lc.tamper = true ∧ base.power.trip = none ∧
    ({ base with power := { base.power with trip := some (11, 0) } } : State).power.trip.isSome = true ∧
    base.lc.state ≠ 5 ∧ base.lc.state ≠ 2 ∧ base.lc.state ≠ 3 ∧ ({ base with lc := { base.lc with state := 3 } } : State).lc.state = 3 := by decide +kernel

/-- Step lists that end, wait for PWR_GOOD_IN and RESET_IN_N, fail and go on; pins at both levels, with bring-up waiting and up, alive and latched; a
dead Tender; and batches that are open, wait for their record, and none; vaults at rest, failing and being wiped. -/
theorem witness_BringUpPinsRecordAndBatches :
    let low : State := { base with pins := { base.pins with pwrGood := false, resetN := false } }
    let wait := fun l : List Nat => ({ low with bu := { low.bu with state := 0, todo := l } } : State)
    let z : SelfTest := { critical := some (3, 15, 0) }
    let b : Batch := { num := 0, first := 0, count := 1, openedAt := 0 }
    okTest {} = true ∧ okTest z = true ∧ low.pins.pwrGood = false ∧ low.pins.resetN = false ∧ base.pins.pwrGood = true ∧ base.pins.resetN = true ∧
    z.critical = some (3, 15, 0) ∧ ({} : SelfTest).critical.map (·.1) ≠ some 14 ∧ (wait [14]).bu.state = 0 ∧
    (base.power.islands = true ∧ base.power.fault = false ∧ base.lc.tamper = false ∧ base.power.trip.isSome = false ∧ base.lc.state ≠ 5) ∧
    (wait [3]).bu.todo = 3 :: [] ∧ low.bu.todo = [] ∧ base.bu.state = 1 ∧ base.tenders.all (fun e => !e.2.dead) = true ∧
    ({ base with tenders := [(1, { dead := true })] } : State).tenders.find? (fun e => e.2.dead) = some (1, { dead := true }) ∧
    (enterSafe 1 0 low).bu.state = 2 ∧ (enterSafe 1 0 low).bu.todo = [] ∧ (wait [6]).bu.todo.head? = some 6 ∧ (wait [14]).bu.todo.head? = some 14 ∧
    base.rcpt.batches.find? (fun b => b.closedAt.isNone) = none ∧ [b].find? (fun b => b.closedAt.isNone) = some b ∧
    (let d := { b with closedAt := some 5 }
     [d].find? (fun b => b.closedAt.isSome && b.record.isEmpty && !b.stopped) = some d) ∧
    (vaultOf base 1).wiping = none ∧ (vaultOf base 1).bad = false ∧ (vaultOf (setVault 1 { bad := true } base) 1).bad = true ∧
    (vaultOf (setVault 1 { wiping := some 5 } base) 1).wiping = some 5 ∧ canSign { base with lc := { base.lc with state := 1 }, active := some 0 } = true ∧
    canSign { base with active := none } = false := by decide +kernel

/-- A port without and with an address, on the active Caboose and not, each SPDM stage, a deployed package with its keys and a BLANK one, sessions in
each state, and TAP instructions. -/
theorem witness_ManagementPortsServeTheirRequests :
    let s := fun (stage ses lc : Nat) => ({ base with active := some 1, lc := { base.lc with state := lc }, vaults := [(1, { keys := true })],
                                                        mgmt := [(1, { addr := some 127, spdm := stage, session := ses })] } : State)
    let up := fun u : State => u.power.islands = true ∧ (mgmtOf u 1).addr.isSome = true ∧ u.active = some 1 ∧ u.bu.state ≠ 3
    up (s 0 0 3) ∧ ¬ (mgmtOf base 1).addr.isSome = true ∧ (mgmtOf (s 0 0 3) 1).spdm < 1 ∧ 1 ≤ (mgmtOf (s 1 0 3) 1).spdm ∧ (mgmtOf (s 1 0 3) 1).spdm < 2 ∧
    2 ≤ (mgmtOf (s 2 0 3) 1).spdm ∧ (mgmtOf (s 2 0 3) 1).spdm < 3 ∧ 3 ≤ (mgmtOf (s 3 0 3) 1).spdm ∧ up (readVault 1 (s 3 0 3)) ∧
    (mgmtOf (readVault 1 (s 3 0 3)) 1).session = 0 ∧ (mgmtOf (readVault 1 (s 3 1 3)) 1).session ≠ 0 ∧ (vaultOf (readVault 1 (s 3 0 3)) 1).keys = true ∧
    (readVault 1 (s 3 0 3)).lc.state = 3 ∧ (s 3 0 1).lc.state = 1 ∧ (vaultOf (s 3 0 3) 1).wiping = none ∧ (vaultOf (s 3 0 3) 1).bad = false ∧
    (mgmtOf (s 3 1 3) 1).session = 1 ∧ (mgmtOf (s 3 2 3) 1).session = 2 ∧ (0xFE : Nat) ≠ 0xFF := by decide +kernel

/-! ### The manual's worked examples -/

/-- Chapter 7: a full set of CD0 with no plru bit set and ways 4 to 7 allowed gives way 4, then way 6. -/
theorem test_victim_of_the_example :
    let x : WrcSet := { ways := (List.range 16).map (fun w => (w, { tag := w, data := [] })) }
    victim x 0x00F0 = 4 ∧ victim (touchWay x 4) 0x00F0 = 6 := by decide +kernel

/-- Chapter 6: the openings of a service at 30 fps. -/
theorem test_openings_of_the_example :
    let i : Image := { image [] with slotNum := 1000000000, slotDen := 30 }
    (List.range 4).map (slotOpening i 0 0) = [0, 33333332, 66666664, 100000000] := by decide +kernel

/-- Chapter 2: the BF16 products at anchor 83, rounded on ties to even. -/
theorem test_bf16_products_of_the_example :
    let v := spBf16.decode
    termOf (FVal.mul (v 0x3F81) (v 0x3F81)) 83 = (8320, false) ∧ termOf (FVal.mul (v 0x3F83) (v 0x3F83)) 83 = (8580, false) ∧
    drainPlain .fp32 127 16900 83 .rne = 0x40040800 := by decide +kernel

/-- Chapter 2: a product at the product limit saturates with the flag, and the sum drains to 2^79. -/
theorem test_saturation_of_the_example :
    let v := spBf16.decode
    termOf (FVal.mul (v 0x5380) (v 0x5380)) 83 = (2 ^ 93 - 1, true) ∧ termOf (FVal.mul (v 0xD300) (v 0x5380)) 83 = (-2 ^ 92, false) ∧
    drainPlain .bf16 127 (2 ^ 92 - 1) 83 .rne = 0x6700 := by decide +kernel

/-- Chapter 11: lanes 5, 40, 41 and 60 of a direction have failed; lane 12 puts it on group L, whose logical lanes map to 0 to 4, 6 to 11 and
13 to 33. -/
theorem test_link_of_the_example :
    let x := linkOf (after (exec (.laneFailure 8 0 12) { base with links := [(16, { failed := [5, 40, 41, 60] })] })) 8 0
    x.width = 32 ∧ x.group = 0 ∧ (List.range 32).filterMap (laneMap x) = (List.range 34).filter (fun l => l ≠ 5 && l ≠ 12) := by decide +kernel

/-- Chapter 19: logical tile 150 before the retirement. -/
theorem test_map_of_the_example : sltMap State.reset 150 = 0x800000000000009E := by decide +kernel

/-- Chapter 15: the path lengths of receipts 2 and 4 of a batch of five. -/
theorem test_paths_of_the_example : (treePath 64 2 (List.replicate 5 [])).length = 3 ∧ (treePath 64 4 (List.replicate 5 [])).length = 1 := by decide +kernel

/-- Chapter 16: a cap of 1,500 W is clamped to 1,600 W, with its entry in the clamp report. -/
theorem test_power_set_of_the_example :
    let s : State := { base with chans := [(0, { gen := 3, lastSeq := 8, stored := [0] })] }
    let t := after (exec (.powerSet 0 (hd 3 0x80 9 1) [word 0x5DC0000000000000]) s)
    t.power.newCap = some 1600 ∧ (chanOf t 0).clamps = [(word 0x0300340C00090000, word 0x000005DC00000640)] := by decide +kernel

/-- Chapter 10: the encodings of scst.d and qsubmit are instructions of those rows. -/
theorem test_words_of_the_example :
    (hartOf (after (exec (.scst 12 0x8665200B#32) { base with harts := [(12, { x := [(10, word 0x4000001000), (6, 1)] })] })) 12).trap = none ∧
    isNext (exec (.qsubmit 12 0x00B5300B#32) { base with harts := [(12, { x := [(10, word 0x100100800000)] })] }) = true := by decide +kernel

/-- Chapter 14: a request that waits behind a PART_DISSOLVE in progress is executed at the idle tick after it. -/
theorem test_waiting_request_is_served :
    let s : State := { base with parts := [(2, { chan := 1 })], chans :=
      [(0, { gen := 3, busy := true, req := memWrite [] 0 (bytesOf [hd 3 0x11 1 1, word (2 * 2 ^ 60)]) }), (1, { gen := 3 })] }
    let t := after (exec (.jobClose 1 (hd 3 0x22 1 2) [word (2 * 2 ^ 60), 0]) s)
    let u := after (step (finishDeferred 0 0x11 1 ok t))
    (chanOf t 1).busy = true ∧ (chanOf (after (step t)) 1).busy = true ∧ (chanOf u 1).busy = false ∧ (chanOf u 1).lastSeq = 1 := by decide +kernel

/-- Chapter 18: lane 13 of root port 2, sub-port 9, and the names of columns 11, 41 and 116. -/
theorem test_lands_of_the_example :
    landAt 11 65 = some (.receive 2 13 true) ∧ landAt 12 65 = some (.receive 2 13 false) ∧ landAt 8 65 = some (.transmit 2 13 true) ∧
    landAt 9 70 = some (.perst 9) ∧ columnName 11 = ['L'] ∧ columnName 41 = ['B', 'C'] ∧ columnName 116 = ['F', 'B'] ∧
    fibreAt 1 20 = some (.receive 5) := by decide +kernel

end Sys2Proof.Tests
end

section
/-! The software interrupts of sipi and mipi (R296): what making an identity pending reads back as and leaves alone, what a write that
issues does, and obligation O37. -/

namespace Sys2Proof.Machine

/-! ### Making an identity pending -/

/-- The harts are the only part of the state that a pending identity changes. -/
theorem pend_eq_harts (k file id : Nat) (s : State) : pend k file id s = { s with harts := (pend k file id s).harts } := by
  unfold pend; split <;> rfl

/-- Out of reset the identity joins the pending set of its own file and hart, and every other set stays. -/
theorem tblGet_files_pend {s : State} (hb : s.bu.state = 1) (k file id j f : Nat) :
    tblGet [] (hartOf (pend k file id s) j).files f =
      if j = k ∧ f = file then setIns id (tblGet [] (hartOf s k).files file) else tblGet [] (hartOf s j).files f := by
  rw [pend, if_pos hb, modHart]
  by_cases hj : j = k
  · subst hj
    rw [hartOf_setHart, tblGet_set]
    simp only [true_and]
  · rw [hartOf_setHart_ne hj, if_neg (fun e => hj e.1)]

theorem setHas_files_pend_same {s : State} (hb : s.bu.state = 1) (k file id : Nat) :
    setHas (tblGet [] (hartOf (pend k file id s) k).files file) id = true := by
  simp [tblGet_files_pend hb, setHas_ins]

theorem setHas_files_pend_ne {s : State} (hb : s.bu.state = 1) {k file id j f i : Nat} (hne : j ≠ k ∨ f ≠ file ∨ i ≠ id) :
    setHas (tblGet [] (hartOf (pend k file id s) j).files f) i = setHas (tblGet [] (hartOf s j).files f) i := by
  rw [tblGet_files_pend hb]
  split
  next e =>
    obtain ⟨rfl, rfl⟩ := e
    have hi : i ≠ id := by simpa using hne
    rw [setHas_ins, decide_eq_false hi, Bool.false_or]
  next => rfl

/-! ### A write of sipi or mipi that issues -/

/-- An instruction issues only while the harts are out of reset. -/
theorem issues_out_of_reset {s : State} {h : Nat} {i : Instr} (hi : issues s h i = true) : s.bu.state = 1 := by
  simp only [issues, Bool.and_eq_true, beq_iff_eq] at hi
  exact hi.1.1

theorem csrOpen_machine {x : Hart} (hm : x.mode = .m) (num : Nat) : csrOpen x num = true := by simp [csrOpen, hm]

theorem exec_sipiWrite_of_issues {s : State} {h : Nat} {v : Word} (hh : h < 96) (ho : csrOpen (hartOf s h) 0x5C4 = true)
    (hi : issues s h (.sipiWrite h v) = true) :
    exec (.sipiWrite h v) s = .next (if wf v 6 0 ≤ 95 then pend (wf v 6 0) 1 33 s else s) := by
  rw [exec_sipiWrite (decide_eq_true hh), issueIns_go hi]
  exact congrArg Host.Outcome.next (if_pos ho)

theorem exec_mipiWrite_of_issues {s : State} {h : Nat} {v : Word} (hh : h < 96) (ho : csrOpen (hartOf s h) 0x7C4 = true)
    (hi : issues s h (.mipiWrite h v) = true) :
    exec (.mipiWrite h v) s = .next (if wf v 6 0 ≤ 95 then pend (wf v 6 0) (if bit v.toNat 63 then 0 else 1) 33 s else s) := by
  rw [exec_mipiWrite (decide_eq_true hh), issueIns_go hi]
  exact congrArg Host.Outcome.next (if_pos ho)

/-- A command that only makes an identity pending meets what R296 says of the target and of everything else. -/
theorem exec_raises_of_pend {s : State} {i : Instr} {k file id : Nat} (hb : s.bu.state = 1) (he : exec i s = .next (pend k file id s)) :
    ∃ t, exec i s = .next t ∧ setHas (tblGet [] (hartOf t k).files file) id = true ∧
      (∀ j f n, j ≠ k ∨ f ≠ file ∨ n ≠ id →
        setHas (tblGet [] (hartOf t j).files f) n = setHas (tblGet [] (hartOf s j).files f) n) ∧ t = { s with harts := t.harts } :=
  ⟨pend k file id s, he, setHas_files_pend_same hb k file id, fun _ _ _ => setHas_files_pend_ne hb, pend_eq_harts k file id s⟩

/-- Settles O37: a write that issues makes identity 33 pending in the file it names, or does nothing where the hart number is above 95. -/
theorem softwareInterruptsReachTheirFile : Obligations.SoftwareInterruptsReachTheirFile := by
  intro h v s hh k raises
  constructor
  · intro ho hi
    have he := exec_sipiWrite_of_issues hh ho hi
    have hb := issues_out_of_reset hi
    constructor
    · intro hk
      exact exec_raises_of_pend hb (by rw [he, if_pos hk])
    · intro hk
      rw [he, if_neg (Nat.not_le.mpr hk)]
  · intro hm hi
    have he := exec_mipiWrite_of_issues hh (csrOpen_machine hm _) hi
    have hb := issues_out_of_reset hi
    refine ⟨?machineFile, ?supervisorFile, ?ignored⟩
    case machineFile =>
      intro hk h63
      exact exec_raises_of_pend hb (by rw [he, if_pos hk, if_pos h63])
    case supervisorFile =>
      intro hk h63
      exact exec_raises_of_pend hb (by rw [he, if_pos hk, if_neg (by simp [h63])])
    case ignored =>
      intro hk
      rw [he, if_neg (Nat.not_le.mpr hk)]

end Sys2Proof.Machine
end

section
/-! The sequence number of a mailbox request (R379): which words the command reads, when the request waits for an earlier one, what each
outcome of the sequence number leaves in last_seq, and obligation O8. -/

namespace Sys2Proof.Machine

/-! ### What an executed request answers -/

/-- Executing a request asks its command for one answer alone: that on the words that the header counts. -/
theorem execute_congr {f g : Nat → Cmd} {ch hdr : Nat} {w : List Word} {s : State}
    (h : f (fld hdr 47 32) ch (fld hdr 31 16) (w.take (fld hdr 15 0 / 8)) s =
      g (fld hdr 47 32) ch (fld hdr 31 16) (w.take (fld hdr 15 0 / 8)) s) :
    execute f ch hdr w s = execute g ch hdr w s := by
  simp only [execute, answer, h]

theorem cmdVersionHello_not_fresh (ch seq : Nat) (w : List Word) (s : State) : (cmdVersionHello ch seq w s).1.fresh = false := by
  unfold cmdVersionHello
  dsimp only
  split <;> rfl

/-- Neither a malformed VERSION_HELLO nor one that is negotiated resets its own channel. -/
theorem answer_hello_not_fresh {t : SelfTest} {ch hdr : Nat} {w : List Word} {s : State} (hc : fld hdr 47 32 = 1) :
    (answer (runCommand t) ch hdr w s).1.fresh = false := by
  unfold answer
  simp only [hc]
  split
  next => rfl
  next => exact cmdVersionHello_not_fresh ch (fld hdr 31 16) (w.take (fld hdr 15 0 / 8)) s

/-- VERSION_HELLO sets last_seq to its seq (R379). -/
theorem lastSeq_execute_hello {t : SelfTest} {ch hdr : Nat} {w : List Word} {s : State} (hc : fld hdr 47 32 = 1) :
    (chanOf (execute (runCommand t) ch hdr w s) ch).lastSeq = fld hdr 31 16 :=
  conclude_seq ch hdr _ _ (answer_hello_not_fresh hc)

/-! ### A request that was just put on an idle channel -/

/-- VERSION_HELLO stands in no partition's order, so that it is behind no other request (R382). -/
theorem behindOther_hello {s : State} {ch : Nat} {w : List Word} : behindOther s ch 1 w = false := rfl

section Put
variable {t : SelfTest} {ch : Nat} {hdr : Word} {pl : List Word} {i : Instr} {s : State}

/-- The words that the header counts are the payload that was put (R378). -/
theorem take_request_put (hb : (chanOf s ch).busy = false) (hl : pl.length ≤ 255) (hlen : wf hdr 15 0 = 8 * pl.length) :
    (request (putRequest ch hdr pl s) ch).2.take (fld hdr.toNat 15 0 / 8) = pl := by
  have hn : fld hdr.toNat 15 0 / 8 = pl.length := by
    rw [show fld hdr.toNat 15 0 = 8 * pl.length from hlen]
    omega
  rw [hn]
  exact (request_put hb hl).2

theorem lastSeq_putRequest : (chanOf (putRequest ch hdr pl s) ch).lastSeq = (chanOf s ch).lastSeq := chanOf_putRequest.2.1

/-- A request waits where nothing stands against it and an earlier command on its partition is in progress (R382). -/
theorem mustWaitTurn_put_iff (hb : (chanOf s ch).busy = false) (hl : pl.length ≤ 255) (hlen : wf hdr 15 0 = 8 * pl.length) :
    mustWaitTurn (putRequest ch hdr pl s) ch hdr.toNat (request (putRequest ch hdr pl s) ch).2 = true ↔
      wf hdr 47 32 ≠ 1 ∧ malformed s.lc.state (chanOf s ch).gen hdr.toNat pl = none ∧ (chanOf s ch).gen ≠ 0 ∧
        admitted s ch (wf hdr 47 32) pl = true ∧ behindOther s ch (wf hdr 47 32) pl = true := by
  have hello : behindOther s ch (wf hdr 47 32) pl = true → wf hdr 47 32 ≠ 1 := by
    intro h hc
    rw [hc, behindOther_hello] at h
    cases h
  rw [mustWaitTurn_put hb hl hlen]
  simp only [Bool.and_eq_true, Option.isNone_iff_eq_none, decide_eq_true_eq, and_assoc]
  constructor
  · rintro ⟨hm, hg, hadm, hbeh⟩
    exact ⟨hello hbeh, hm, hg, hadm, hbeh⟩
  · rintro ⟨-, hrest⟩
    exact hrest

/-! ### The outcomes of the sequence number (R379) -/

section Outcomes
variable (hrow : goRow t ch hdr pl = some i) (hw : i.wellFormed = true) (ha : s.active.isSome = true) (hb : (chanOf s ch).busy = false)
include hrow hw ha hb

/-- A VERSION_HELLO and the next seq are executed, unless the request waits for its turn. -/
theorem exec_go_executes (hlen : wf hdr 15 0 = 8 * pl.length)
    (hseq : wf hdr 47 32 = 1 ∨ wf hdr 31 16 = ((chanOf s ch).lastSeq + 1) % 65536)
    (hturn : ¬ mustWaitTurn (putRequest ch hdr pl s) ch hdr.toNat (request (putRequest ch hdr pl s) ch).2 = true) :
    exec i s = .next (execute (runCommand t) ch hdr.toNat (request (putRequest ch hdr pl s) ch).2 (putRequest ch hdr pl s)) := by
  have hl := (wf_len hrow hw).1
  obtain ⟨t', he, hrun⟩ := exec_go (s := s) hrow hw
  rw [he, go_idle ha hb hl]
  dsimp only
  rw [if_pos (by simpa using hseq), if_neg hturn]
  refine congrArg Host.Outcome.next (execute_congr ?_)
  rw [take_request_put hb hl hlen]
  exact hrun _ _ _

/-- The next seq of a request that waits makes the channel busy and gives the request the last place in the order. -/
theorem exec_go_waits (hseq : wf hdr 31 16 = ((chanOf s ch).lastSeq + 1) % 65536)
    (hturn : mustWaitTurn (putRequest ch hdr pl s) ch hdr.toNat (request (putRequest ch hdr pl s) ch).2 = true) :
    exec i s = .next (setChan ch { chanOf (putRequest ch hdr pl s) ch with busy := true, turn := some (nextTurn (putRequest ch hdr pl s)) }
      (putRequest ch hdr pl s)) := by
  obtain ⟨t', he, -⟩ := exec_go (s := s) hrow hw
  rw [he, go_idle ha hb (wf_len hrow hw).1]
  dsimp only
  rw [if_pos (by simp [hseq]), if_pos hturn]

/-- The last seq again has the stored reply written. -/
theorem exec_go_repeats (hc : wf hdr 47 32 ≠ 1) (hseq : wf hdr 31 16 = (chanOf s ch).lastSeq) (hst : (chanOf s ch).stored ≠ []) :
    exec i s = .next (putReply ch (chanOf s ch).stored (putRequest ch hdr pl s)) := by
  have hne : wf hdr 31 16 ≠ ((chanOf s ch).lastSeq + 1) % 65536 := by omega
  obtain ⟨t', he, -⟩ := exec_go (s := s) hrow hw
  rw [he, go_idle ha hb (wf_len hrow hw).1]
  dsimp only
  rw [if_neg (by simp [hc, hne]), if_pos hseq, if_neg (by simpa using hst)]

/-- Any other seq is answered REJECTED_FORMAT. -/
theorem exec_go_rejects (hc : wf hdr 47 32 ≠ 1) (hnext : wf hdr 31 16 ≠ ((chanOf s ch).lastSeq + 1) % 65536)
    (hlast : wf hdr 31 16 ≠ (chanOf s ch).lastSeq) :
    exec i s = .next (putReply ch (replyWords (chanOf s ch).gen (wf hdr 47 32) (wf hdr 31 16) (rejected stFormat))
      (putRequest ch hdr pl s)) := by
  obtain ⟨t', he, -⟩ := exec_go (s := s) hrow hw
  rw [he, go_idle ha hb (wf_len hrow hw).1]
  dsimp only
  rw [if_neg (by simp [hc, hnext]), if_neg hlast]

end Outcomes
end Put

/-- Settles O8: one outcome for each relation of the request's seq to last_seq. -/
theorem sequenceNumberDecidesARequest : Obligations.SequenceNumberDecidesARequest := by
  intro t ch hdr pl i s hrow hw ha hb hlen s1 code seq c a waits
  have hturn := mustWaitTurn_put_iff hb (wf_len hrow hw).1 hlen
  refine ⟨?executed, ?waiting, ?hello, ?repeated, ?rejected⟩
  case executed =>
    intro hseq hgo
    exact exec_go_executes hrow hw ha hb hlen hseq (mt hturn.mp hgo)
  case waiting =>
    intro hseq hwait
    refine ⟨_, exec_go_waits hrow hw ha hb hseq (hturn.mpr hwait), rfl, ?_⟩
    rw [chanOf_setChan]
    exact lastSeq_putRequest
  case hello =>
    intro hc
    have hgo : ¬ waits := fun h => h.1 hc
    exact ⟨_, exec_go_executes hrow hw ha hb hlen (.inl hc) (mt hturn.mp hgo), lastSeq_execute_hello hc⟩
  case repeated =>
    intro hc hseq hst
    exact exec_go_repeats hrow hw ha hb hc hseq hst
  case rejected =>
    intro hc hnext hlast
    refine ⟨_, exec_go_rejects hrow hw ha hb hc hnext hlast, rfl, ?_⟩
    rw [chanOf_putReply]
    exact lastSeq_putRequest

end Sys2Proof.Machine
end

section
/-! Every command completes, keeps the queue and what holds in every state, and takes back no fuse: obligations O2 to O5. -/

namespace Sys2Proof.Machine

variable {s t : State} {i : Instr}

/-! ### Completion (R2) -/

/-- Whatever the state, a command's effect follows where its term is a command, and the fault noSuchUnit where it is not. -/
theorem exec_eq_onWf (i : Instr) (s : State) : ∃ t, exec i s = onWf i t := by
  cases i <;> exact ⟨_, rfl⟩

theorem onWf_fault (h : i.wellFormed = false) : onWf i t = .fault .noSuchUnit := if_neg (by simp [h])

/-- Settles O2: every arm of exec is guarded by the term's well-formedness, and by nothing of the state. -/
theorem commandsCompleteInEveryState : Obligations.CommandsCompleteInEveryState := by
  intro c s
  obtain ⟨t, ht⟩ := exec_eq_onWf c s
  exact ⟨fun h => ⟨t, ht.trans (onWf_next h)⟩, fun h => ht.trans (onWf_fault h)⟩

/-! ### What every command and every step keeps -/

/-- Every command keeps the queue, the invariant and the fuses: one case for each row of the opcode table. -/
theorem exec_keeps {b : State} (e : exec i s = .next t) (hk : Keeps b s) : Keeps b t := by
  cases i with
  | versionHello => exact execVersionHello_keeps e hk
  | partCreate => exact execPartCreate_keeps e hk
  | partDissolve => exact execPartDissolve_keeps e hk
  | slateInstall => exact execSlateInstall_keeps e hk
  | jobOpen => exact execJobOpen_keeps e hk
  | jobClose => exact execJobClose_keeps e hk
  | sealModel => exact execSealModel_keeps e hk
  | tileRetire => exact execTileRetire_keeps e hk
  | telemetryRead => exact execTelemetryRead_keeps e hk
  | clampReportRead => exact execClampReportRead_keeps e hk
  | receiptFetch => exact execReceiptFetch_keeps e hk
  | routeInstall => exact execRouteInstall_keeps e hk
  | powerSet => exact execPowerSet_keeps e hk
  | powerDown => exact execPowerDown_keeps e hk
  | reset => exact execReset_keeps e hk
  | packageReset => exact execPackageReset_keeps e hk
  | lifecycleAdvance => exact execLifecycleAdvance_keeps e hk
  | lifecycleStage => exact execLifecycleStage_keeps e hk
  | lifecycleCommit => exact execLifecycleCommit_keeps e hk
  | cbxAck => exact execCbxAck_keeps e hk
  | cbxIrqWrite => exact execCbxIrqWrite_keeps e hk
  | cbxDiscardsRead => exact execCbxDiscardsRead_keeps e hk
  | standbyTakeover => exact execStandbyTakeover_keeps e hk
  | registerWrite => exact execRegisterWrite_keeps e hk
  | queueEnable => exact execQueueEnable_keeps e hk
  | queueDisable => exact execQueueDisable_keeps e hk
  | regionValidate => exact execRegionValidate_keeps e hk
  | regionInvalidate => exact execRegionInvalidate_keeps e hk
  | qtzLoad => exact execQtzLoad_keeps e hk
  | qtzStateWrite => exact execQtzStateWrite_keeps e hk
  | dblAheadCountRead => exact execDblAheadCountRead_keeps e hk
  | dblDiscardsRead => exact execDblDiscardsRead_keeps e hk
  | fncMismatchRead => exact execFncMismatchRead_keeps e hk
  | pwrFlagsWrite => exact execPwrFlagsWrite_keeps e hk
  | thmFlagsWrite => exact execThmFlagsWrite_keeps e hk
  | hartLoad => exact execHartLoad_keeps e hk
  | hartStore => exact execHartStore_keeps e hk
  | scld => exact execScld_keeps e hk
  | scst => exact execScst_keeps e hk
  | scfence => exact execScfence_keeps e hk
  | fence => exact execFence_keeps e hk
  | qsubmit => exact execQsubmit_keeps e hk
  | cboClean => exact execCboClean_keeps e hk
  | cboFlush => exact execCboFlush_keeps e hk
  | cboInval => exact execCboInval_keeps e hk
  | cboZero => exact execCboZero_keeps e hk
  | qtimeRead => exact execQtimeRead_keeps e hk
  | sipiWrite => exact execSipiWrite_keeps e hk
  | mipiWrite => exact execMipiWrite_keeps e hk
  | machineTimer => exact execMachineTimer_keeps e hk
  | rfClean => exact execRfClean_keeps e hk
  | rfFlush => exact execRfFlush_keeps e hk
  | rfInvalidate => exact execRfInvalidate_keeps e hk
  | rfComplete => exact execRfComplete_keeps e hk
  | coherentRead => exact execCoherentRead_keeps e hk
  | coherentWrite => exact execCoherentWrite_keeps e hk
  | directRead => exact execDirectRead_keeps e hk
  | directWrite => exact execDirectWrite_keeps e hk
  | directWriteDrain => exact execDirectWriteDrain_keeps e hk
  | lineWriteback => exact execLineWriteback_keeps e hk
  | grantHoldExpiry => exact execGrantHoldExpiry_keeps e hk
  | snoopAnswer => exact execSnoopAnswer_keeps e hk
  | doorbell => exact execDoorbell_keeps e hk
  | descriptorReadReturn => exact execDescriptorReadReturn_keeps e hk
  | descriptorRepoll => exact execDescriptorRepoll_keeps e hk
  | completionRecord => exact execCompletionRecord_keeps e hk
  | copy => exact execCopy_keeps e hk
  | gather => exact execGather_keeps e hk
  | scatter => exact execScatter_keeps e hk
  | convert => exact execConvert_keeps e hk
  | digest => exact execDigest_keeps e hk
  | invalidate => exact execInvalidate_keeps e hk
  | cubeOperation => exact execCubeOperation_keeps e hk
  | vectorProgram => exact execVectorProgram_keeps e hk
  | updateProgram => exact execUpdateProgram_keeps e hk
  | bankGrant => exact execBankGrant_keeps e hk
  | nullAction => exact execNullAction_keeps e hk
  | allReduce => exact execAllReduce_keeps e hk
  | reduceScatter => exact execReduceScatter_keeps e hk
  | allGather => exact execAllGather_keeps e hk
  | gradientAllReduce => exact execGradientAllReduce_keeps e hk
  | barrier => exact execBarrier_keeps e hk
  | promote => exact execPromote_keeps e hk
  | demote => exact execDemote_keeps e hk
  | writeBack => exact execWriteBack_keeps e hk
  | discard => exact execDiscard_keeps e hk
  | relocationWindow => exact execRelocationWindow_keeps e hk
  | expire => exact execExpire_keeps e hk
  | actionComplete => exact execActionComplete_keeps e hk
  | gateVisible => exact execGateVisible_keeps e hk
  | nop => exact execNop_keeps e hk
  | vadd => exact execVadd_keeps e hk
  | vmul => exact execVmul_keeps e hk
  | vfma => exact execVfma_keeps e hk
  | vmax => exact execVmax_keeps e hk
  | vmin => exact execVmin_keeps e hk
  | vsel => exact execVsel_keeps e hk
  | vcmp => exact execVcmp_keeps e hk
  | vsign => exact execVsign_keeps e hk
  | vexp => exact execVexp_keeps e hk
  | vlog => exact execVlog_keeps e hk
  | vrsqrt => exact execVrsqrt_keeps e hk
  | vcvt => exact execVcvt_keeps e hk
  | vcvta => exact execVcvta_keeps e hk
  | va128add => exact execVa128add_keeps e hk
  | va128rsum => exact execVa128rsum_keeps e hk
  | vreanchor => exact execVreanchor_keeps e hk
  | va128drain => exact execVa128drain_keeps e hk
  | vld => exact execVld_keeps e hk
  | vst => exact execVst_keeps e hk
  | aset => exact execAset_keeps e hk
  | aadd => exact execAadd_keeps e hk
  | loop => exact execLoop_keeps e hk
  | endProg => exact execEndProg_keeps e hk
  | updateMarkerWrite => exact execUpdateMarkerWrite_keeps e hk
  | updatePhase2 => exact execUpdatePhase2_keeps e hk
  | updateWriteback => exact execUpdateWriteback_keeps e hk
  | t0Reached => exact execT0Reached_keeps e hk
  | slotBind => exact execSlotBind_keeps e hk
  | slotOpen => exact execSlotOpen_keeps e hk
  | epochLocalComplete => exact execEpochLocalComplete_keeps e hk
  | latenessReport => exact execLatenessReport_keeps e hk
  | holdNotice => exact execHoldNotice_keeps e hk
  | replayNotice => exact execReplayNotice_keeps e hk
  | abortNotice => exact execAbortNotice_keeps e hk
  | degradeNotice => exact execDegradeNotice_keeps e hk
  | commitNotice => exact execCommitNotice_keeps e hk
  | probeNotice => exact execProbeNotice_keeps e hk
  | probeSend => exact execProbeSend_keeps e hk
  | holdInstant => exact execHoldInstant_keeps e hk
  | replayInstant => exact execReplayInstant_keeps e hk
  | restartInstant => exact execRestartInstant_keeps e hk
  | abortInstant => exact execAbortInstant_keeps e hk
  | tileWatchdog => exact execTileWatchdog_keeps e hk
  | unitWatchdog => exact execUnitWatchdog_keeps e hk
  | testStepStart => exact execTestStepStart_keeps e hk
  | testStepComplete => exact execTestStepComplete_keeps e hk
  | vaultTestStep => exact execVaultTestStep_keeps e hk
  | vaultWipeComplete => exact execVaultWipeComplete_keeps e hk
  | hbmBucketRefill => exact execHbmBucketRefill_keeps e hk
  | flashBucketRefill => exact execFlashBucketRefill_keeps e hk
  | patrolScrub => exact execPatrolScrub_keeps e hk
  | channelFault => exact execChannelFault_keeps e hk
  | cacheFill => exact execCacheFill_keeps e hk
  | sectorRead => exact execSectorRead_keeps e hk
  | promotionSwitch => exact execPromotionSwitch_keeps e hk
  | demotionPass => exact execDemotionPass_keeps e hk
  | relocationStart => exact execRelocationStart_keeps e hk
  | relocationSwitch => exact execRelocationSwitch_keeps e hk
  | blockFailure => exact execBlockFailure_keeps e hk
  | tenderRestart => exact execTenderRestart_keeps e hk
  | tenderRestartDone => exact execTenderRestartDone_keeps e hk
  | flit => exact execFlit_keeps e hk
  | laneFailure => exact execLaneFailure_keeps e hk
  | directionResume => exact execDirectionResume_keeps e hk
  | frame => exact execFrame_keeps e hk
  | nguixLaneFailure => exact execNguixLaneFailure_keeps e hk
  | portResume => exact execPortResume_keeps e hk
  | portTraining => exact execPortTraining_keeps e hk
  | routeAnnounce => exact execRouteAnnounce_keeps e hk
  | laserModuleReady => exact execLaserModuleReady_keeps e hk
  | laserModuleFault => exact execLaserModuleFault_keeps e hk
  | timingSymbol => exact execTimingSymbol_keeps e hk
  | timingSymbolSend => exact execTimingSymbolSend_keeps e hk
  | remoteRead => exact execRemoteRead_keeps e hk
  | remoteReadAcquire => exact execRemoteReadAcquire_keeps e hk
  | remoteWrite => exact execRemoteWrite_keeps e hk
  | remoteWriteRelease => exact execRemoteWriteRelease_keeps e hk
  | remoteWriteAcked => exact execRemoteWriteAcked_keeps e hk
  | remoteWriteReleaseAcked => exact execRemoteWriteReleaseAcked_keeps e hk
  | remoteReadData => exact execRemoteReadData_keeps e hk
  | remoteWriteAck => exact execRemoteWriteAck_keeps e hk
  | remoteError => exact execRemoteError_keeps e hk
  | pseqGapSkip => exact execPseqGapSkip_keeps e hk
  | remoteTimeout => exact execRemoteTimeout_keeps e hk
  | collectivePacket => exact execCollectivePacket_keeps e hk
  | pcieInboundMsi => exact execPcieInboundMsi_keeps e hk
  | pcieInboundP2p => exact execPcieInboundP2p_keeps e hk
  | pcieInboundRead => exact execPcieInboundRead_keeps e hk
  | pcieInboundWrite => exact execPcieInboundWrite_keeps e hk
  | pcieLinkUp => exact execPcieLinkUp_keeps e hk
  | pcieLinkDown => exact execPcieLinkDown_keeps e hk
  | qrefLock => exact execQrefLock_keeps e hk
  | qrefLoss => exact execQrefLoss_keeps e hk
  | upstreamLoss => exact execUpstreamLoss_keeps e hk
  | alternateLock => exact execAlternateLock_keeps e hk
  | ppsEdge => exact execPpsEdge_keeps e hk
  | controlInterval => exact execControlInterval_keeps e hk
  | pointChangeComplete => exact execPointChangeComplete_keeps e hk
  | thermalSample => exact execThermalSample_keeps e hk
  | thermalTrip => exact execThermalTrip_keeps e hk
  | guardbandRaise => exact execGuardbandRaise_keeps e hk
  | clockStretch => exact execClockStretch_keeps e hk
  | supplyWarn => exact execSupplyWarn_keeps e hk
  | supplyFault => exact execSupplyFault_keeps e hk
  | supplyRecovery => exact execSupplyRecovery_keeps e hk
  | islandSupplyLoss => exact execIslandSupplyLoss_keeps e hk
  | wakeFromOff => exact execWakeFromOff_keeps e hk
  | tamperEvent => exact execTamperEvent_keeps e hk
  | pwrGoodInRise => exact execPwrGoodInRise_keeps e hk
  | pwrGoodInFall => exact execPwrGoodInFall_keeps e hk
  | resetInNAssert => exact execResetInNAssert_keeps e hk
  | resetInNRelease => exact execResetInNRelease_keeps e hk
  | bringupStepTimeout => exact execBringupStepTimeout_keeps e hk
  | recordCommit => exact execRecordCommit_keeps e hk
  | batchTimeout => exact execBatchTimeout_keeps e hk
  | batchRecord => exact execBatchRecord_keeps e hk
  | i3cDynamicAddress => exact execI3cDynamicAddress_keeps e hk
  | mctpControl => exact execMctpControl_keeps e hk
  | pldmSensorRead => exact execPldmSensorRead_keeps e hk
  | getVersion => exact execGetVersion_keeps e hk
  | getCapabilities => exact execGetCapabilities_keeps e hk
  | negotiateAlgorithms => exact execNegotiateAlgorithms_keeps e hk
  | getDigests => exact execGetDigests_keeps e hk
  | getCertificate => exact execGetCertificate_keeps e hk
  | challenge => exact execChallenge_keeps e hk
  | getMeasurements => exact execGetMeasurements_keeps e hk
  | keyExchange => exact execKeyExchange_keeps e hk
  | finish => exact execFinish_keeps e hk
  | endSession => exact execEndSession_keeps e hk
  | uartReceive => exact execUartReceive_keeps e hk
  | amo => exact execAmo_keeps e hk
  | lr => exact execLr_keeps e hk
  | sc => exact execSc_keeps e hk
  | pcieCompletion => exact execPcieCompletion_keeps e hk
  | tapInstruction => exact execTapInstruction_keeps e hk
  | stimecmp => exact execStimecmp_keeps e hk
  | supplyWarnRearm => exact execSupplyWarnRearm_keeps e hk

/-- An idle tick keeps them too. -/
theorem step_idle_keeps : Keeps s (serveWaiting (runCommand {}) 16 (idle s)) :=
  serveWaiting_keeps _ _ (fun _ _ _ _ _ => runCommand_keeps _ _ _ _ _) (idle_keeps .refl)

/-- Taking the front command off the queue changes no fuse and no memory. -/
theorem popped_inv (h : s.Inv) : s.popped.Inv := ⟨h.mem, h.flash, h.tileMem, h.events, h.fuses⟩

theorem popped_fusesKept : FusesKept s s.popped :=
  ⟨rfl, rfl, List.prefix_rfl, Nat.le_refl _, Nat.le_refl _, Nat.le_refl _, Nat.le_refl _, Nat.le_refl _, Nat.le_refl _, id, id, id⟩

/-- A step is an idle tick on an empty queue, or its front command on the state without it. -/
theorem step_cases (h : step s = .next t) :
    (s.pending = [] ∧ t = serveWaiting (runCommand {}) 16 (idle s)) ∨ (∃ c q, s.pending = c :: q ∧ exec c s.popped = .next t) := by
  unfold step at h
  split at h
  next hq => exact .inl ⟨hq, by injection h with h; exact h.symm⟩
  next c q hq => exact .inr ⟨c, q, hq, h⟩

/-- A step takes the front command off the queue, and keeps the invariant and the fuses. -/
theorem step_keeps (h : step s = .next t) :
    t.pending = s.pending.tail ∧ (s.Inv → t.Inv ∧ FusesKept s t) := by
  obtain ⟨hq, rfl⟩ | ⟨c, q, -, he⟩ := step_cases h
  · obtain ⟨hp, hi⟩ := step_idle_keeps (s := s)
    exact ⟨by rw [hp, hq]; rfl, hi⟩
  · obtain ⟨hp, hi⟩ := exec_keeps he .refl
    refine ⟨hp, fun h => ?_⟩
    obtain ⟨hinv, hfuses⟩ := hi (popped_inv h)
    exact ⟨hinv, popped_fusesKept.trans hfuses⟩

/-- Settles O4: the invariant is a part of what every step keeps. -/
theorem everyStepKeepsTheInvariant : Obligations.EveryStepKeepsTheInvariant :=
  fun _ _ hi h => ((step_keeps h).2 hi).1

/-- Settles O5: no command and no idle tick takes back a fuse or a committed entry. -/
theorem fusesAndRecordNeverGoBack : Obligations.FusesAndRecordNeverGoBack :=
  fun _ _ hi h => ((step_keeps h).2 hi).2

/-- Settles O3: no command writes the queue, and a step takes its front alone. -/
theorem noCommandTouchesTheQueue : Obligations.NoCommandTouchesTheQueue :=
  ⟨fun _ _ _ h => (exec_keeps h .refl).1, fun _ _ h => (step_keeps h).1⟩

end Sys2Proof.Machine
end

section
/-! What a mailbox channel turns away and what it takes urgently (R377, R380, R381, R384, R393, R394): what executing a request answers
where something stands against it, what a write of CBX_URGENT does, and obligation O9. -/

namespace Sys2Proof.Machine

variable {f : Nat → Cmd} {ch hdr : Nat} {w : List Word} {s : State}

/-! ### What stands against a request -/

/-- A malformed request is answered REJECTED_FORMAT (R380). -/
theorem execute_malformed {d : Nat} (h : malformed s.lc.state (chanOf s ch).gen hdr (w.take (fld hdr 15 0 / 8)) = some d) :
    execute f ch hdr w s = conclude ch hdr (rejected stFormat d) s := by
  simp [execute, answer, h]

/-- Without a generation the command is answered REJECTED_STATE, or with its own lower status (R8, R381). -/
theorem execute_no_generation (hm : malformed s.lc.state (chanOf s ch).gen hdr (w.take (fld hdr 15 0 / 8)) = none)
    (hc : fld hdr 47 32 ≠ 1) (hg : (chanOf s ch).gen = 0) :
    execute f ch hdr w s = conclude ch hdr
      (turnedAway (f (fld hdr 47 32) ch (fld hdr 31 16) (w.take (fld hdr 15 0 / 8)) s).1 noField) s := by
  simp only [execute, answer, hm]
  rw [if_pos (by simp [hc, hg])]

/-- A command that the channel may not carry is answered REJECTED_STATE, or with its own lower status (R8, R384, R393). -/
theorem execute_not_admitted (hm : malformed s.lc.state (chanOf s ch).gen hdr (w.take (fld hdr 15 0 / 8)) = none)
    (hc : fld hdr 47 32 ≠ 1) (hg : (chanOf s ch).gen ≠ 0) (ha : admitted s ch (fld hdr 47 32) (w.take (fld hdr 15 0 / 8)) = false) :
    execute f ch hdr w s = conclude ch hdr
      (turnedAway (f (fld hdr 47 32) ch (fld hdr 31 16) (w.take (fld hdr 15 0 / 8)) s).1
        (admitField s ch (fld hdr 47 32) (w.take (fld hdr 15 0 / 8)))) s := by
  simp only [execute, answer, hm]
  rw [if_neg (by simp [hg]), if_pos (by simp [hc, ha])]

/-- The command's own answer stands where its status is lower than REJECTED_STATE (R8). -/
theorem turnedAway_eq (own : Reply) (d : Nat) :
    turnedAway own d = if stFormat ≤ own.status ∧ own.status < stState then own else rejected stState d := by
  simp [turnedAway]

theorem admitted_putRequest {hdr : Word} {pl : List Word} (code : Nat) (w : List Word) :
    admitted (putRequest ch hdr pl s) ch code w = admitted s ch code w := by
  obtain ⟨c, hc⟩ := put_facts ch hdr pl s
  rw [hc]; rfl

theorem admitField_putRequest {hdr : Word} {pl : List Word} (code : Nat) (w : List Word) :
    admitField (putRequest ch hdr pl s) ch code w = admitField s ch code w := by
  obtain ⟨c, hc⟩ := put_facts ch hdr pl s
  rw [hc]; rfl

theorem lc_putRequest {hdr : Word} {pl : List Word} : (putRequest ch hdr pl s).lc = s.lc := by
  obtain ⟨c, hc⟩ := put_facts ch hdr pl s
  rw [hc]

/-! ### A request that is put -/

section Put
variable {t : SelfTest} {hdr : Word} {pl : List Word} {i : Instr}
variable (hrow : goRow t ch hdr pl = some i) (hw : i.wellFormed = true)
include hrow hw

/-- A structurally malformed request that the sequence number lets in is rejected, whatever its length (R380). -/
theorem exec_go_malformed {d : Nat} (ha : s.active.isSome = true) (hb : (chanOf s ch).busy = false)
    (hseq : wf hdr 47 32 = 1 ∨ wf hdr 31 16 = ((chanOf s ch).lastSeq + 1) % 65536)
    (hm : malformed s.lc.state (chanOf s ch).gen hdr.toNat ((request (putRequest ch hdr pl s) ch).2.take (wf hdr 15 0 / 8)) = some d) :
    exec i s = .next (conclude ch hdr.toNat (rejected stFormat d) (putRequest ch hdr pl s)) := by
  have hm' : malformed (putRequest ch hdr pl s).lc.state (chanOf (putRequest ch hdr pl s) ch).gen hdr.toNat
      ((request (putRequest ch hdr pl s) ch).2.take (fld hdr.toNat 15 0 / 8)) = some d := by
    rw [lc_putRequest, chanOf_putRequest.2.2]; exact hm
  obtain ⟨t', he, -⟩ := exec_go (s := s) hrow hw
  rw [he, go_idle ha hb (wf_len hrow hw).1]
  dsimp only
  rw [if_pos (by simpa using hseq), if_neg (by simp [mustWaitTurn_malformed hm']), execute_malformed hm']

/-- Writing go on a busy channel is counted and does nothing else (R377). -/
theorem exec_go_busy (hb : (chanOf s ch).busy = true) : exec i s = .next (discardWrite ch s) := by
  obtain ⟨t', he, -⟩ := exec_go (s := s) hrow hw
  rw [he, putRequest, if_pos hb, goWith]
  simp [hb]

section Refused
variable (ha : s.active.isSome = true) (hb : (chanOf s ch).busy = false) (hlen : wf hdr 15 0 = 8 * pl.length)
  (hseq : wf hdr 31 16 = ((chanOf s ch).lastSeq + 1) % 65536)
include ha hb hlen hseq

/-- A request that stands against the channel waits for no other: it is executed, on the words that its header counts. -/
theorem exec_go_refused (hr : (chanOf s ch).gen = 0 ∨ admitted s ch (wf hdr 47 32) pl = false) :
    exec i s = .next (execute (runCommand t) ch hdr.toNat (request (putRequest ch hdr pl s) ch).2 (putRequest ch hdr pl s)) := by
  refine exec_go_executes hrow hw ha hb hlen (.inr hseq) fun hturn => ?_
  obtain ⟨-, -, hgen, hadm, -⟩ := (mustWaitTurn_put_iff hb (wf_len hrow hw).1 hlen).mp hturn
  rcases hr with hr | hr
  · exact hgen hr
  · rw [hr] at hadm; cases hadm

variable (hc : wf hdr 47 32 ≠ 1) (hm : malformed s.lc.state (chanOf s ch).gen hdr.toNat pl = none)
include hc hm

theorem exec_go_no_generation (hg : (chanOf s ch).gen = 0) :
    exec i s = .next (conclude ch hdr.toNat
      (turnedAway (runCommand t (wf hdr 47 32) ch (wf hdr 31 16) pl (putRequest ch hdr pl s)).1 noField) (putRequest ch hdr pl s)) := by
  have hpl := take_request_put hb (wf_len hrow hw).1 hlen
  rw [exec_go_refused hrow hw ha hb hlen hseq (.inl hg), execute_no_generation _ hc (chanOf_putRequest.2.2.trans hg), hpl]
  · rfl
  · rw [hpl, lc_putRequest, chanOf_putRequest.2.2]; exact hm

theorem exec_go_not_admitted (hg : (chanOf s ch).gen ≠ 0) (hadm : admitted s ch (wf hdr 47 32) pl = false) :
    exec i s = .next (conclude ch hdr.toNat
      (turnedAway (runCommand t (wf hdr 47 32) ch (wf hdr 31 16) pl (putRequest ch hdr pl s)).1 (admitField s ch (wf hdr 47 32) pl))
      (putRequest ch hdr pl s)) := by
  have hpl := take_request_put hb (wf_len hrow hw).1 hlen
  rw [exec_go_refused hrow hw ha hb hlen hseq (.inr hadm), execute_not_admitted _ hc, hpl, admitField_putRequest]
  · rfl
  · rw [chanOf_putRequest.2.2]; exact hg
  · rw [hpl, admitted_putRequest]; exact hadm
  · rw [hpl, lc_putRequest, chanOf_putRequest.2.2]; exact hm

end Refused
end Put

/-! ### A write of CBX_URGENT (R394) -/

/-- The three commands that CBX_URGENT takes. -/
def urgentCode (code : Nat) : Bool := code == 0x40 || code == 0x81 || code == 0x90

/-- ustatus takes the result of an urgent command, and the channel's interrupt follows. -/
def urgentDone (ch code : Nat) (r : Reply × State) : State :=
  replyIrq ch (setChan ch { chanOf r.2 ch with ucmd := code, ustatus := r.1.status * 256 + r.1.flags } r.2)

theorem urgentWith_busy {code arg : Nat} (hu : (chanOf s ch).ubusy = true) : urgentWith f ch code arg s = discardWrite ch s := by
  simp [urgentWith, hu]

section Free
variable {code arg : Nat} (hcode : urgentCode code = true) (ha : s.active.isSome = true) (hu : (chanOf s ch).ubusy = false)
include hcode ha hu

/-- A free urgent register of an active Caboose takes one of the three commands. -/
theorem urgentWith_free : urgentWith f ch code arg s = urgentDone ch code
    (match reservedAt s.lc.state code [word (arg * 65536)] with
      | some d => (rejected stFormat d, s)
      | none => if admitted s ch code [word (arg * 65536)] then f code ch 0 [word (arg * 65536)] s
        else (turnedAway (f code ch 0 [word (arg * 65536)] s).1 noField, s)) := by
  unfold urgentCode at hcode
  unfold urgentWith
  simp only [hcode, hu, served, ha, Bool.not_true, Bool.or_self, Bool.false_eq_true, if_false]
  rfl

theorem urgentWith_reserved {d : Nat} (hr : reservedAt s.lc.state code [word (arg * 65536)] = some d) :
    urgentWith f ch code arg s = urgentDone ch code (rejected stFormat d, s) := by
  rw [urgentWith_free hcode ha hu, hr]

theorem urgentWith_runs (hr : reservedAt s.lc.state code [word (arg * 65536)] = none)
    (hadm : admitted s ch code [word (arg * 65536)] = true) :
    urgentWith f ch code arg s = urgentDone ch code (f code ch 0 [word (arg * 65536)] s) := by
  rw [urgentWith_free hcode ha hu, hr]
  simp only [hadm, if_true]

theorem urgentWith_turned_away (hr : reservedAt s.lc.state code [word (arg * 65536)] = none)
    (hadm : admitted s ch code [word (arg * 65536)] = false) :
    urgentWith f ch code arg s = urgentDone ch code (turnedAway (f code ch 0 [word (arg * 65536)] s).1 noField, s) := by
  rw [urgentWith_free hcode ha hu, hr]
  simp only [hadm, Bool.false_eq_true, if_false]

end Free

/-- What O9 says of an urgent row, of any row that is the write of one of the three commands. -/
theorem urgent_row {code arg : Nat} {g : Cmd} {i : Instr} (hcode : urgentCode code = true) (ha : s.active.isSome = true) (hg : f code = g)
    (he : exec i s = .next (urgentWith f ch code arg s)) :
    let w := [word (arg * 65536)]
    ((chanOf s ch).ubusy = true → exec i s = .next (discardWrite ch s)) ∧
    ((chanOf s ch).ubusy = false →
      (∀ d, reservedAt s.lc.state code w = some d → exec i s = .next (urgentDone ch code (rejected stFormat d, s))) ∧
      (reservedAt s.lc.state code w = none → admitted s ch code w = true → exec i s = .next (urgentDone ch code (g ch 0 w s))) ∧
      (reservedAt s.lc.state code w = none → admitted s ch code w = false →
        let own := (g ch 0 w s).1
        exec i s = .next (urgentDone ch code (if stFormat ≤ own.status ∧ own.status < stState then own else rejected stState, s)))) := by
  subst hg
  intro w
  refine ⟨fun hu => by rw [he, urgentWith_busy hu], fun hu => ⟨fun d hr => ?_, fun hr hadm => ?_, fun hr hadm => ?_⟩⟩
  · rw [he, urgentWith_reserved hcode ha hu hr]
  · rw [he, urgentWith_runs hcode ha hu hr hadm]
  · rw [he, urgentWith_turned_away hcode ha hu hr hadm, turnedAway_eq]

/-- A RESET row of the scope that bit 43 of the write names is the write; the other does nothing (R390). -/
theorem resetRow_urgent {t : SelfTest} {package : Bool} {u : BitVec 48} : resetRow t package ch (.urgent u) s =
    if bit u.toNat 43 = package then urgentWith (runCommand t) ch 0x90 u.toNat s else s := by
  simp only [resetRow, resetScope, beq_iff_eq]
  rfl

/-- Settles O9: a refused request is answered by the rejection that stands against it, an urgent one by the row it names. -/
theorem requestsAreRefusedDiscardedOrUrgent : Obligations.RequestsAreRefusedDiscardedOrUrgent := by
  refine ⟨?malformed, ?refused, ?busy, ?urgent⟩
  case malformed =>
    intro t ch hdr pl i s d hrow hw ha hb hseq hm
    exact exec_go_malformed hrow hw ha hb hseq hm
  case refused =>
    intro t ch hdr pl i s hrow hw ha hb hlen hc hseq hm s1 own lower
    constructor
    · intro hg
      rw [exec_go_no_generation hrow hw ha hb hlen hseq hc hm hg, turnedAway_eq]
    · intro hg hadm
      rw [exec_go_not_admitted hrow hw ha hb hlen hseq hc hm hg hadm, turnedAway_eq]
  case busy =>
    intro t ch hdr pl i s hrow hw hb
    rw [exec_go_busy hrow hw hb]
    simp [discardWrite, satAdd, max32]
  case urgent =>
    intro ch u t s hch ha hw w done row
    have hs : okSubmission (.urgent u) = true := rfl
    have hret : (Instr.tileRetire ch (.urgent u)).wellFormed = true := by simp [Instr.wellFormed, okChan, hch, hs]
    have hdown : (Instr.powerDown ch (.urgent u)).wellFormed = true := by simp [Instr.wellFormed, okChan, hch, hs]
    have hres : (Instr.reset ch (.urgent u)).wellFormed = true := by simp [Instr.wellFormed, okChan, hch, hs]
    refine ⟨urgent_row (f := runCommand {}) rfl ha rfl (exec_tileRetire hret), urgent_row (f := runCommand {}) rfl ha rfl (exec_powerDown hdown), fun hb => ⟨?_, ?_⟩, fun hb => ⟨?_, ?_⟩⟩
    · exact urgent_row (f := runCommand {}) rfl ha rfl (by rw [exec_reset hres, resetRow_urgent, if_pos hb])
    · rw [exec_packageReset hw, resetRow_urgent, if_neg (by simp [hb])]
    · exact urgent_row (f := runCommand t) rfl ha rfl (by rw [exec_packageReset hw, resetRow_urgent, if_pos hb])
    · rw [exec_reset hres, resetRow_urgent, if_neg (by simp [hb])]

end Sys2Proof.Machine
end

section
/-! Mailbox commands that nothing stands against: the command's own answer, and obligations O10, O13, O15, O16 and O17. -/

namespace Sys2Proof.Machine

variable {ch seq : Nat} {w : List Word} {s : State}

/-! ### From a command's answer to its row -/

/-- A request that nothing stands against answers what its command answers on the state with the request put. -/
theorem exec_ready {i : Instr} {f : Nat → Cmd} {code : Nat} {hdr : Word} {pl : List Word} {s1 t : State} {r : Reply}
    (hw : i.wellFormed = true) (hr : ready s code ch hdr pl = true) (he : exec i s = onWf i (submit f code ch (.go hdr pl) s))
    (hp : putRequest ch hdr pl s = s1) (h : f code ch (wf hdr 31 16) pl s1 = (r, t)) : exec i s = .next (conclude ch hdr.toNat r t) := by
  rw [sub_exec hw hr he, hp, h]

/-! ### Checks (R8) -/

theorem checked_run {cs : List Check} {run : State → Reply × State} (h : ∀ c ∈ cs, c.1 = false) : checked cs run s = run s := by
  rw [checked, pick_none.mpr h]

theorem checked_reject {cs : List Check} {run : State → Reply × State} {st d : Nat} (h : pick cs = some (st, d)) :
    checked cs run s = (rejected st d, s) := by
  rw [checked, h]

/-- A check that failed, and below whose status none of the others lies, gives the status. -/
theorem pick_of_lowest {cs : List Check} {st d : Nat} (h : (true, st, d) ∈ cs) (hl : ∀ c ∈ cs, st ≤ c.2.1) : ∃ d', pick cs = some (st, d') := by
  cases hp : pick cs with
  | none => exact absurd (pick_none.mp hp _ h) (by simp)
  | some x =>
    obtain ⟨hm, hx⟩ := pick_some (st := x.1) (d := x.2) hp
    have : x.1 = st := Nat.le_antisymm (hx _ h rfl) (hl _ hm)
    exact ⟨x.2, by rw [← this]⟩

/-! ### VERSION_HELLO (R381) -/

theorem negotiated_some {v : Word} (h : max (wf v 55 48) 1 ≤ min (wf v 63 56) 3) : negotiated v = some (min (wf v 63 56) 3) := if_pos h

theorem negotiated_none {v : Word} (h : ¬ max (wf v 55 48) 1 ≤ min (wf v 63 56) 3) : negotiated v = none := if_neg h

theorem cmdVersionHello_some {g : Nat} (h : negotiated (wd w 0) = some g) : cmdVersionHello ch seq w s =
    (ok [word (g * 2 ^ 56 + 3 * 2 ^ 48 + 2 ^ 40 + ch * 2 ^ 36 + (chanPart s ch).getD 0 * 2 ^ 32 + (if (chanPart s ch).isSome then 2 ^ 31 else 0)),
      word s.lc.deviceId], setChan ch { chanOf s ch with gen := g } s) := by
  rw [cmdVersionHello]; simp only [h]

theorem cmdVersionHello_none (h : negotiated (wd w 0) = none) :
    cmdVersionHello ch seq w s = (rejected stState, setChan ch { chanOf s ch with gen := 0 } s) := by
  rw [cmdVersionHello]; simp only [h]

/-- Settles O10: the two outcomes of the negotiation. -/
theorem versionHelloNegotiates : Obligations.VersionHelloNegotiates := by
  intro ch hdr pl s hr hw s1 g
  obtain ⟨c, hc⟩ : ∃ c, s1 = { s with chans := c } := put_facts ch hdr pl s
  have hp : putRequest ch hdr pl s = s1 := rfl
  clear_value s1
  subst hc
  constructor
  · intro hg
    exact exec_ready hw hr rfl hp (cmdVersionHello_some (seq := wf hdr 31 16) (negotiated_some hg))
  · intro hg
    exact exec_ready hw hr rfl hp (cmdVersionHello_none (seq := wf hdr 31 16) (negotiated_none hg))

/-! ### JOB_CLOSE (R366, R388) -/

theorem cmdJobClose_none (h : jobOf s (wf (wd w 0) 63 60) = none) : cmdJobClose ch seq w s = (rejected stState 8, s) := by
  rw [cmdJobClose]; simp only [h]

/-- What the end of a session between slots flushes: the requests that wait in its queue. -/
def flushedWaiting (p : Nat) (s : State) : State :=
  match sessionQueue s p with
  | some q => flushSession p q stState s
  | none => s

section Job
variable {j : Job} (hj : jobOf s (wf (wd w 0) 63 60) = some j)
include hj

theorem cmdJobClose_other (hid : j.id ≠ (wd w 1).toNat) : cmdJobClose ch seq w s = (rejected stState 8, s) := by
  rw [cmdJobClose]; simp only [hj]; rw [if_pos hid]

variable (hid : j.id = (wd w 1).toNat)
include hid

theorem cmdJobClose_begun (hs : j.service = false) (hb : j.running = true ∨ j.t0 ≤ now s) :
    cmdJobClose ch seq w s = (rejected stState, s) := by
  rw [cmdJobClose]; simp only [hj]
  rw [if_neg (by simp [hid]), if_neg (by simp [hs]), if_pos (by simpa using hb)]

theorem cmdJobClose_withdraws (hs : j.service = false) (hr : j.running = false) (ht : now s < j.t0) :
    cmdJobClose ch seq w s = (ok, closeJob (wf (wd w 0) 63 60) stDone s) := by
  rw [cmdJobClose]; simp only [hj]
  rw [if_neg (by simp [hid]), if_neg (by simp [hs]), if_neg (by simpa [hr] using ht)]

theorem cmdJobClose_between (hs : j.service = true) (hi : inSlot s (wf (wd w 0) 63 60) j = false) :
    cmdJobClose ch seq w s = (ok, closeJob (wf (wd w 0) 63 60) stDone (flushedWaiting (wf (wd w 0) 63 60) s)) := by
  rw [cmdJobClose]; simp only [hj]
  rw [if_neg (by simp [hid]), if_pos hs, if_neg (by simp [hi])]
  rfl

theorem cmdJobClose_in_slot (hs : j.service = true) (hi : inSlot s (wf (wd w 0) 63 60) j = true) :
    cmdJobClose ch seq w s = ({ status := stDone, later := true }, setJob (wf (wd w 0) 63 60) { j with closing := some (ch, seq) } s) := by
  rw [cmdJobClose]; simp only [hj]
  rw [if_neg (by simp [hid]), if_pos hs, if_pos hi]

end Job

/-- Settles O13: one outcome for each relation of the request to the open job. -/
theorem jobCloseWithdrawsOrEnds : Obligations.JobCloseWithdrawsOrEnds := by
  intro ch hdr pl s hr hw s1 p
  obtain ⟨c, hc⟩ : ∃ c, s1 = { s with chans := c } := put_facts ch hdr pl s
  have hp : putRequest ch hdr pl s = s1 := rfl
  clear_value s1
  subst hc
  refine ⟨fun hj => exec_ready hw hr rfl hp (cmdJobClose_none hj), fun j hj => ⟨?other, ?begun, ?withdraws, ?between, ?inSlot⟩⟩
  case other => exact fun hid => exec_ready hw hr rfl hp (cmdJobClose_other hj hid)
  case begun => exact fun hid hs hb => exec_ready hw hr rfl hp (cmdJobClose_begun hj hid hs hb)
  case withdraws => exact fun hid hs hn ht => exec_ready hw hr rfl hp (cmdJobClose_withdraws hj hid hs hn ht)
  case between => exact fun hid hs hi => exec_ready hw hr rfl hp (cmdJobClose_between hj hid hs hi)
  case inSlot => exact fun hid hs hi => exec_ready hw hr rfl hp (cmdJobClose_in_slot hj hid hs hi)

/-! ### The reads (R187, R392, R395, R396, R421) -/

/-- The checks of TELEMETRY_READ pass for a page that its channel may read. -/
theorem telemetry_passes {page : Nat} {held last : Bool} (hp : page ≤ 4) (hc : page = 0 ∨ ch = 0) (h0 : page = 0 → held = true ∨ last = false) :
    ∀ c ∈ [(decide (4 < page), stFormat, 6), (decide (page ≠ 0) && decide (ch ≠ 0), stState, noField),
      (decide (page = 0) && !held && last, stState, 7)], c.1 = false := by
  have hstate : (decide (page ≠ 0) && decide (ch ≠ 0)) = false := by rcases hc with hc | hc <;> simp [hc]
  have hpart : (decide (page = 0) && !held && last) = false := by
    by_cases hz : page = 0
    · rcases h0 hz with h | h <;> simp [h]
    · simp [hz]
  simp only [List.forall_mem_cons, hstate, hpart]
  simpa using hp

/-- Page 0x00 of a partition that exists or has had a job. -/
theorem cmdTelemetryRead_own (hp : wf (wd w 0) 59 52 = 0)
    (he : partExists s (wf (wd w 0) 63 60) = true ∨ (tblGet? s.lastJobs (wf (wd w 0) 63 60)).isSome = true) :
    cmdTelemetryRead ch seq w s = (ok (teleReply (wf (wd w 0) 51 36) (page0 s (wf (wd w 0) 63 60))), s) := by
  unfold cmdTelemetryRead
  dsimp only
  rw [checked_run (telemetry_passes (by omega) (.inl hp) fun _ => he.imp_right fun h => by simpa using h)]
  simp only [hp]

/-- Another page, on channel 0. -/
theorem cmdTelemetryRead_page (hc : ch = 0) (hp : wf (wd w 0) 59 52 ≤ 4) (h0 : wf (wd w 0) 59 52 ≠ 0) :
    cmdTelemetryRead ch seq w s =
      if wf (wd w 0) 59 52 = 1 then (ok (teleReply (wf (wd w 0) 51 36) (page1 (draw s).1.toNat s)), (draw s).2)
      else if wf (wd w 0) 59 52 = 2 then (ok (teleReply (wf (wd w 0) 51 36) (page2 s)), s)
      else if wf (wd w 0) 59 52 = 3 then (ok (teleReply (wf (wd w 0) 51 36) (page3 s)), s)
      else (ok (teleReply (wf (wd w 0) 51 36) (page4 s)), s) := by
  unfold cmdTelemetryRead
  dsimp only
  rw [checked_run (telemetry_passes hp (.inr hc) fun h => absurd h h0)]
  have hn : wf (wd w 0) 59 52 = 1 ∨ wf (wd w 0) 59 52 = 2 ∨ wf (wd w 0) 59 52 = 3 ∨ wf (wd w 0) 59 52 = 4 := by omega
  rcases hn with hn | hn | hn | hn <;> rw [hn] <;> rfl

theorem cmdTelemetryRead_no_page (hp : 4 < wf (wd w 0) 59 52) : cmdTelemetryRead ch seq w s = (rejected stFormat 6, s) := by
  unfold cmdTelemetryRead
  refine checked_reject ?_
  have hz : ¬ wf (wd w 0) 59 52 = 0 := by omega
  by_cases hc : ch = 0 <;> simp [hp, hz, hc, pick, lowest, stFormat, stState]

theorem cmdTelemetryRead_no_part (hp : wf (wd w 0) 59 52 = 0) (he : partExists s (wf (wd w 0) 63 60) = false)
    (hl : tblGet? s.lastJobs (wf (wd w 0) 63 60) = none) : cmdTelemetryRead ch seq w s = (rejected stState 7, s) := by
  unfold cmdTelemetryRead
  refine checked_reject ?_
  simp [hp, he, hl, pick, lowest]

section Fetch
variable (hs : inSafe s = false)
include hs

section Latest
variable (hk : wf (wd w 0) 59 58 = 0)
include hk

theorem cmdReceiptFetch_latest {i : Nat} {r : List Byte} (hf : findReceipt s (wf (wd w 0) 63 60) (wd w 1).toNat = some (i, r)) :
    cmdReceiptFetch ch seq w s = (ok (receiptReply s i r), s) := by
  unfold cmdReceiptFetch
  simp only [hs, hk, hf, Bool.false_eq_true, if_false]

theorem cmdReceiptFetch_no_latest (hf : findReceipt s (wf (wd w 0) 63 60) (wd w 1).toNat = none) :
    cmdReceiptFetch ch seq w s = (rejected stState, s) := by
  unfold cmdReceiptFetch
  simp only [hs, hk, hf, Bool.false_eq_true, if_false]

end Latest

section Index
variable (hk : wf (wd w 0) 59 58 = 1)
include hk

theorem cmdReceiptFetch_index {r : List Byte} (hf : tblGet? s.rcpt.log (wd w 1).toNat = some r) : cmdReceiptFetch ch seq w s =
    if ch = 0 ∨ receiptPart r = wf (wd w 0) 63 60 then (ok (receiptReply s (wd w 1).toNat r), s) else (rejected stState, s) := by
  unfold cmdReceiptFetch
  simp only [hs, hk, hf, Bool.false_eq_true, if_false, Bool.or_eq_true, decide_eq_true_eq, beq_iff_eq]

theorem cmdReceiptFetch_no_index (hf : tblGet? s.rcpt.log (wd w 1).toNat = none) : cmdReceiptFetch ch seq w s = (rejected stState, s) := by
  unfold cmdReceiptFetch
  simp only [hs, hk, hf, Bool.false_eq_true, if_false]

end Index

section Record
variable (hk : wf (wd w 0) 59 58 = 2)
include hk

theorem cmdReceiptFetch_batch {b : Batch} (hf : s.rcpt.batches.find? (fun b => b.num == (wd w 1).toNat && !b.record.isEmpty) = some b) :
    cmdReceiptFetch ch seq w s = (ok (word (b.record.length * 2 ^ 32 + ((b.record.drop (wf (wd w 2) 31 0)).take 2024).length) ::
      wordsOf (padTo (roundUp ((b.record.drop (wf (wd w 2) 31 0)).take 2024).length 8) 0 ((b.record.drop (wf (wd w 2) 31 0)).take 2024))), s) := by
  unfold cmdReceiptFetch
  simp only [hs, hk, hf, Bool.false_eq_true, if_false]

theorem cmdReceiptFetch_no_batch (hf : s.rcpt.batches.find? (fun b => b.num == (wd w 1).toNat && !b.record.isEmpty) = none) :
    cmdReceiptFetch ch seq w s = (rejected stState, s) := by
  unfold cmdReceiptFetch
  simp only [hs, hk, hf, Bool.false_eq_true, if_false]

end Record

theorem cmdReceiptFetch_no_kind (hk : wf (wd w 0) 59 58 = 3) : cmdReceiptFetch ch seq w s = (rejected stFormat 7, s) := by
  unfold cmdReceiptFetch
  simp only [hs, hk, Bool.false_eq_true, if_false]

end Fetch

/-- Settles O15: each read's answer, page by page and kind by kind. -/
theorem readsReturnWhatTheyName : Obligations.ReadsReturnWhatTheyName := by
  intro ch hdr pl s s1 w0 p first
  obtain ⟨c, hc⟩ : ∃ c, s1 = { s with chans := c } := put_facts ch hdr pl s
  have hp : putRequest ch hdr pl s = s1 := rfl
  clear_value s1
  subst hc
  refine ⟨fun hr hw => ?telemetry, fun hr hw => exec_ready hw hr rfl hp rfl, fun hr hw hs => ?receipts⟩
  case telemetry =>
    have page (r : Reply) (t : State) (h : cmdTelemetryRead ch (wf hdr 31 16) pl { s with chans := c } = (r, t)) :
        exec (.telemetryRead ch hdr pl) s = .next (conclude ch hdr.toNat r t) := exec_ready hw hr rfl hp h
    have other (hch : ch = 0) (hp : wf w0 59 52 ≤ 4) (h0 : wf w0 59 52 ≠ 0) :=
      cmdTelemetryRead_page (seq := wf hdr 31 16) (w := pl) (s := { s with chans := c }) hch hp h0
    refine ⟨fun h0 he => ?_, fun h0 he hl => ?_, fun h1 hch => ?_, fun h2 hch => ?_, fun h3 hch => ?_, fun h4 hch => ?_, fun h5 => ?_⟩
    · exact page _ _ (cmdTelemetryRead_own (s := { s with chans := c }) h0 he)
    · exact page _ _ (cmdTelemetryRead_no_part h0 he hl)
    · exact ⟨(draw { s with chans := c }).1.toNat, page _ _ ((other hch (by omega) (by omega)).trans (if_pos h1))⟩
    · refine page _ _ ((other hch (by omega) (by omega)).trans ?_)
      rw [show wf (wd pl 0) 59 52 = 2 from h2]; rfl
    · refine page _ _ ((other hch (by omega) (by omega)).trans ?_)
      rw [show wf (wd pl 0) 59 52 = 3 from h3]; rfl
    · refine page _ _ ((other hch (by omega) (by omega)).trans ?_)
      rw [show wf (wd pl 0) 59 52 = 4 from h4]; rfl
    · exact page _ _ (cmdTelemetryRead_no_page h5)
  case receipts =>
    intro key sends refuses
    have fetch (r : Reply) (h : cmdReceiptFetch ch (wf hdr 31 16) pl { s with chans := c } = (r, { s with chans := c })) :
        exec (.receiptFetch ch hdr pl) s = .next (conclude ch hdr.toNat r { s with chans := c }) := exec_ready hw hr rfl hp h
    have hs' : inSafe { s with chans := c } = false := hs
    refine ⟨fun hk => ?_, fun hk => ?_, fun hk => ?_, fun hk => fetch _ (cmdReceiptFetch_no_kind hs' hk)⟩
    · cases hf : findReceipt s p key with
      | some x => exact fetch _ (cmdReceiptFetch_latest hs' hk hf)
      | none => exact fetch _ (cmdReceiptFetch_no_latest hs' hk hf)
    · cases hf : tblGet? s.rcpt.log key with
      | some r =>
        have h := cmdReceiptFetch_index (ch := ch) (seq := wf hdr 31 16) hs' hk hf
        dsimp only
        by_cases hm : ch = 0 ∨ receiptPart r = p
        · rw [if_pos hm]; exact fetch _ (h.trans (if_pos hm))
        · rw [if_neg hm]; exact fetch _ (h.trans (if_neg hm))
      | none => exact fetch _ (cmdReceiptFetch_no_index hs' hk hf)
    · cases hf : s.rcpt.batches.find? (fun b => b.num == key && !b.record.isEmpty) with
      | some b => exact fetch _ (cmdReceiptFetch_batch hs' hk hf)
      | none => exact fetch _ (cmdReceiptFetch_no_batch hs' hk hf)

/-! ### ROUTE_INSTALL, POWER_SET and POWER_DOWN (R326, R390, R430, R451) -/

theorem cmdRouteInstall_unaligned (ha : wf (wd w 0) 55 0 % 8 ≠ 0) : cmdRouteInstall ch seq w s = (rejected stFormat 0, s) := by
  unfold cmdRouteInstall
  exact if_pos ha

theorem cmdRouteInstall_outside (ha : wf (wd w 0) 55 0 % 8 = 0) (hu : umrEnd < wf (wd w 0) 55 0 + 4368) :
    cmdRouteInstall ch seq w s = (rejected stRegion 0, s) := by
  unfold cmdRouteInstall routeLen
  dsimp only
  rw [if_neg (by simp [ha]), if_pos hu]

/-- What the table read at an aligned address of the UMR gives. -/
theorem cmdRouteInstall_read (ha : wf (wd w 0) 55 0 % 8 = 0) (hu : wf (wd w 0) 55 0 + 4368 ≤ umrEnd) : cmdRouteInstall ch seq w s =
    let r := cohRead (.caboose (s.active.getD 0)) (wf (wd w 0) 55 0) 4368 none s
    if rangePoisoned s (wf (wd w 0) 55 0) 4368 = true ∨ rtBad r.1 = true then (rejected stFormat, r.2)
    else if s.parts.any (fun e => e.2.image.isSome) = true then (rejected stState, r.2)
    else (ok, installRoute (rtParse r.1) r.2) := by
  unfold cmdRouteInstall routeLen
  dsimp only
  rw [if_neg (by simp [ha]), if_neg (Nat.not_lt.mpr hu)]
  simp only [Bool.or_eq_true]

/-- Settles O16: the checks of a route table in order, the clamped cap, and the rails. -/
theorem routesCapsAndPowerDown : Obligations.RoutesCapsAndPowerDown := by
  intro ch hdr pl s s1
  obtain ⟨c, hc⟩ : ∃ c, s1 = { s with chans := c } := put_facts ch hdr pl s
  have hp : putRequest ch hdr pl s = s1 := rfl
  clear_value s1
  subst hc
  refine ⟨fun hr hw => ?route, fun hr hw => ?cap, fun hr hw => exec_ready hw hr rfl hp rfl⟩
  case route =>
    intro a r
    have route (x : Reply) (t : State) (h : cmdRouteInstall ch (wf hdr 31 16) pl { s with chans := c } = (x, t)) :
        exec (.routeInstall ch hdr pl) s = .next (conclude ch hdr.toNat x t) := exec_ready hw hr rfl hp h
    refine ⟨fun ha => ?_, fun ha hu hbad => ?_, fun ha hu hp hb hi => ?_, fun ha hu => ?_, fun ha hu hp hb hi => ?_⟩
    · exact route _ _ (cmdRouteInstall_unaligned ha)
    · exact route _ _ ((cmdRouteInstall_read ha hu).trans (if_pos hbad))
    · exact route _ _ ((cmdRouteInstall_read ha hu).trans ((if_neg (by rw [hp, hb]; simp)).trans (if_pos hi)))
    · exact route _ _ (cmdRouteInstall_outside ha hu)
    · exact route _ _ ((cmdRouteInstall_read ha hu).trans ((if_neg (by rw [hp, hb]; simp)).trans (if_neg (by rw [hi]; simp))))
  case cap =>
    intro cap used u
    exact exec_ready hw hr rfl hp rfl

/-! ### RESET (R390, R400, R408, R447) -/

/-- A RESET row of the scope that payload bit 59 names is the request; the other does nothing. -/
theorem resetRow_go {t : SelfTest} {package : Bool} {hdr : Word} {pl : List Word} : resetRow t package ch (.go hdr pl) s =
    if bit (wd pl 0).toNat 59 = package then submit (runCommand t) 0x90 ch (.go hdr pl) s else s := by
  simp only [resetRow, resetScope, beq_iff_eq]

theorem cmdReset_part {t : SelfTest} (hb : bit (wd w 0).toNat 59 = false) : cmdReset t ch seq w s =
    if partExists s (wf (wd w 0) 63 60) = true then (ok, partReset (wf (wd w 0) 63 60) s) else (rejected stState 7, s) := by
  unfold cmdReset
  simp only [hb]
  cases partExists s (wf (wd w 0) 63 60) <;> rfl

theorem cmdReset_package {t : SelfTest} (hb : bit (wd w 0).toNat 59 = true) : cmdReset t 0 seq w s =
    match resetPackage t s with
    | some s1 => ({ status := stDone, fresh := true }, s1)
    | none => (rejected stState, s) := by
  unfold cmdReset
  simp only [hb]
  rfl

theorem resetPackage_refused {t : SelfTest} (h : latched s = true ∨ s.power.fault = true) : resetPackage t s = none := by
  unfold resetPackage
  rw [if_pos (by rcases h with h | h <;> simp [h])]

section Free
variable {t : SelfTest} (hl : latched s = false) (hf : s.power.fault = false) (hi : s.power.islands = true)
include hl hf hi

theorem resetPackage_free : resetPackage t s =
    if s.bu.state = 1 then some (packageReset t s) else if s.bu.down = true then some (powerRestart t s)
    else if s.bu.state = 0 then none else some (powerOn t 3 false s) := by
  unfold resetPackage
  rw [if_neg (by simp [hl, hf, hi])]

theorem resetPackage_up (hb : s.bu.state = 1) : resetPackage t s = some (packageReset t s) := by
  rw [resetPackage_free hl hf hi, if_pos hb]

theorem resetPackage_down (hb : s.bu.state ≠ 1) (hd : s.bu.down = true) : resetPackage t s = some (powerRestart t s) := by
  rw [resetPackage_free hl hf hi, if_neg hb, if_pos hd]

theorem resetPackage_safe (hb : s.bu.state = 2 ∨ s.bu.state = 3) (hd : s.bu.down = false) :
    resetPackage t s = some (powerOn t 3 false s) := by
  rw [resetPackage_free hl hf hi, if_neg (by omega), if_neg (by simp [hd]), if_neg (by omega)]

end Free

/-- Settles O17: the two scopes, and the package's condition. -/
theorem resetsOfPartitionAndPackage : Obligations.ResetsOfPartitionAndPackage := by
  intro ch hdr pl t s hr s1 p
  obtain ⟨c, hc⟩ : ∃ c, s1 = { s with chans := c } := put_facts ch hdr pl s
  have hp : putRequest ch hdr pl s = s1 := rfl
  clear_value s1
  subst hc
  refine ⟨fun hw hb => ?part, fun hw hb => ?_, fun hw hb => ?_, fun hw hb hch => ?package⟩
  case part =>
    have he : exec (.reset ch (.go hdr pl)) s = onWf (.reset ch (.go hdr pl)) (submit (runCommand {}) 0x90 ch (.go hdr pl) s) := by
      rw [exec_reset hw, onWf_next hw, resetRow_go, if_pos hb]
    constructor
    · intro hx
      exact exec_ready hw hr he hp ((cmdReset_part (seq := wf hdr 31 16) hb).trans (if_pos hx))
    · intro hx
      exact exec_ready hw hr he hp ((cmdReset_part (seq := wf hdr 31 16) hb).trans (if_neg (by intro h; cases hx.symm.trans h)))
  · rw [exec_reset hw, resetRow_go, if_neg (by simp [hb])]
  · rw [exec_packageReset hw, resetRow_go, if_neg (by simp [hb])]
  case package =>
    subst hch
    have he : exec (.packageReset 0 (.go hdr pl) t) s = onWf (.packageReset 0 (.go hdr pl) t) (submit (runCommand t) 0x90 0 (.go hdr pl) s) := by
      rw [exec_packageReset hw, onWf_next hw, resetRow_go, if_pos hb]
    have done (u : State) (h : resetPackage t { s with chans := c } = some u) :
        exec (.packageReset 0 (.go hdr pl) t) s = .next (conclude 0 hdr.toNat { status := stDone, fresh := true } u) :=
      exec_ready hw hr he hp ((cmdReset_package (seq := wf hdr 31 16) hb).trans (by rw [h]))
    refine ⟨fun hl hf hi hs hd => ?_, fun hl hf hi hs hd => ?_, fun hl hf hi hs => ?_, fun h => ?_⟩
    · exact done _ (resetPackage_down hl hf hi hs hd)
    · exact done _ (resetPackage_safe hl hf hi hs hd)
    · exact done _ (resetPackage_up hl hf hi hs)
    · exact exec_ready hw hr he hp ((cmdReset_package (seq := wf hdr 31 16) hb).trans (by rw [resetPackage_refused (s := { s with chans := c }) h]))

end Sys2Proof.Machine
end

section
/-! PROOF. PART_CREATE and PART_DISSOLVE: the command's own answer (O11). -/

namespace Sys2Proof.Machine

variable {ch seq : Nat} {w : List Word} {s : State}

/-! ### PART_CREATE (R8, R27, R237, R385, R392) -/

/-- What PART_CREATE may be granted: the checks of Table 14-4 in positive form. -/
structure Grantable (s : State) (x : Wanted) (ranges : List (Nat × Nat)) (fields : List Clamped) : Prop where
  tiles : x.tiles.1 + x.tiles.2 ≤ 544
  queues : x.queues.1 + x.queues.2 ≤ 16384
  regions : x.regions.1 + x.regions.2 ≤ 4096
  fresh : partExists s x.part = false
  apart : ∀ e ∈ s.parts, (x.chan ≠ 0 → e.2.chan ≠ x.chan) ∧ meets e.2.tiles x.tiles = false ∧ meets e.2.queues x.queues = false ∧
    meets e.2.regions x.regions = false ∧ e.2.redMask &&& x.red = 0 ∧ e.2.drayMask &&& x.drays = 0 ∧ e.2.portMask &&& x.ports = 0 ∧
    ∀ r ∈ ranges, ∀ t ∈ e.2.ranges, meets t r = false
  backed : ∀ l, l < x.tiles.2 → (physOf s (x.tiles.1 + l)).isSome = true
  drays : ∀ d, d < 40 → bit x.drays d = true → recordFailed s (drayUnit d) = false
  reds : ∀ e, e < 16 → bit x.red e = true → recordFailed s (redUnit e) = false
  left : ∀ c ∈ fields, c.none_ = false

/-- What is grantable fails no check. -/
theorem createChecks_of_grantable {x : Wanted} {ranges : List (Nat × Nat)} {fields : List Clamped} (h : Grantable s x ranges fields) :
    ∀ c ∈ createChecks s x ranges fields, c.1 = false := by
  have htiles : ((List.range x.tiles.2).map (· + x.tiles.1)).any (fun l => decide (l < 544) && (physOf s l).isNone) = false := by
    simp only [List.any_eq_false, List.mem_map, List.mem_range]
    rintro _ ⟨l, hl, rfl⟩
    have := h.backed l hl
    rw [Nat.add_comm] at this
    simp [Option.isSome_iff_ne_none.mp this]
  have hdrays : (bitsOf 40 x.drays).any (fun d => recordFailed s (drayUnit d)) = false := by
    simp only [List.any_eq_false, mem_bitsOf]
    intro d ⟨hd, hb⟩
    simp [h.drays d hd hb]
  have hreds : (bitsOf 16 x.red).any (fun e => recordFailed s (redUnit e)) = false := by
    simp only [List.any_eq_false, mem_bitsOf]
    intro d ⟨hd, hb⟩
    simp [h.reds d hd hb]
  have other {q : Part → Bool} (hq : ∀ e ∈ s.parts, q e.2 = false) : (s.parts.map (·.2)).any q = false := by
    simpa [List.any_eq_false] using hq
  unfold createChecks
  simp only [List.forall_mem_append, List.forall_mem_cons]
  refine ⟨⟨⟨?_, ?_, ?_, h.fresh, ?_, other ?_, other ?_, other ?_, other ?_, other ?_, other ?_, htiles, hdrays, hreds, by simp⟩, ?_⟩, ?_⟩
  · simpa using h.tiles
  · simpa using h.queues
  · simpa using h.regions
  · by_cases hc : x.chan = 0
    · simp [hc]
    · simpa [hc, List.any_eq_false] using fun a e he => (h.apart (a, e) he).1 hc
  · intro e he; obtain ⟨-, -, -, -, hred, -⟩ := h.apart e he; simp [hred]
  · intro e he; obtain ⟨-, ht, -⟩ := h.apart e he; exact ht
  · intro e he; obtain ⟨-, -, hq, -⟩ := h.apart e he; exact hq
  · intro e he; obtain ⟨-, -, -, hr, -⟩ := h.apart e he; exact hr
  · intro e he; obtain ⟨-, -, -, -, -, hd, -⟩ := h.apart e he; simp [hd]
  · intro e he; obtain ⟨-, -, -, -, -, -, hp, -⟩ := h.apart e he; simp [hp]
  · intro c hc
    obtain ⟨j, hj, rfl⟩ := List.mem_mapIdx.mp hc
    refine other fun e he => ?_
    obtain ⟨-, -, -, -, -, -, -, hr⟩ := h.apart e he
    simpa [List.any_eq_false] using fun a b => hr ranges[j] (List.getElem_mem hj) (a, b)
  · intro c hc
    obtain ⟨f, hf, rfl⟩ := List.mem_map.mp hc
    exact h.left f hf

theorem cmdPartCreate_reject {st d : Nat} (h : pick (createAll s seq w) = some (st, d)) : cmdPartCreate ch seq w s = (rejected st d, s) := by
  unfold cmdPartCreate
  exact checked_reject h

/-- PART_CREATE of a partition that exists fails a check. -/
theorem createAll_exists (h : partExists s (wf (wd w 0) 63 60) = true) : ∃ st d, pick (createAll s seq w) = some (st, d) := by
  have hm : (true, stState, 7) ∈ createAll s seq w := by
    rw [← h]
    simp [createAll, createChecks, wantedOf]
  cases hp : pick (createAll s seq w) with
  | none => exact absurd (pick_none.mp hp _ hm) (by simp)
  | some x => exact ⟨x.1, x.2, rfl⟩

/-- The state that PART_CREATE makes. -/
def createdState (ch seq : Nat) (w : List Word) (s : State) : State :=
  setClamps ch seq ((createFields s seq w).flatMap (·.entry)) (assign (wf (wd w 0) 63 60) (newPart s seq w) s)

theorem created_length {α : Type} {l : List α} : created l.length = { status := stDone, flags := if l = [] then 0 else 2, clamps := l.length } := by
  simp [created]

section Create
variable (hn : ∀ c ∈ createAll s seq w, c.1 = false)
include hn

theorem cmdPartCreate_held (h : framesHeld (createdState ch seq w s) (wf (wd w 0) 63 60) = true) : cmdPartCreate ch seq w s =
    (created ((createFields s seq w).flatMap (·.entry)).length, createdState ch seq w s) := by
  unfold cmdPartCreate
  dsimp only
  rw [checked_run hn]
  exact if_pos h

theorem cmdPartCreate_waits (h : framesHeld (createdState ch seq w s) (wf (wd w 0) 63 60) = false) : cmdPartCreate ch seq w s =
    ({ created ((createFields s seq w).flatMap (·.entry)).length with later := true },
      setPart (wf (wd w 0) 63 60) { partOf (createdState ch seq w s) (wf (wd w 0) 63 60) with
        creating := some (ch, seq, ((createFields s seq w).flatMap (·.entry)).length) } (createdState ch seq w s)) := by
  unfold cmdPartCreate
  dsimp only
  rw [checked_run hn]
  exact if_neg (ne_true_of_eq_false h)

end Create

/-! ### PART_DISSOLVE (R385) -/

/-- The queues of a partition disabled, each with the records performed that it can. -/
def quieted (p : Nat) (s : State) : State :=
  (partQueues s p).foldl (fun s q => performAll q (if (queueOf s q).enable then disableQueue q s else s)) s

theorem quieted_none {p : Nat} (h : partQueues s p = []) : quieted p s = s := by rw [quieted, h]; rfl

theorem queuesQuiet_none {p : Nat} (h : partQueues s p = []) : queuesQuiet s p = true := by rw [queuesQuiet, h]; rfl

theorem cmdPartDissolve_absent (h : partExists s (wf (wd w 0) 63 60) = false) : cmdPartDissolve ch seq w s = (rejected stState 7, s) := by
  unfold cmdPartDissolve
  simp only [h]
  rfl

section Dissolve
variable (hx : partExists s (wf (wd w 0) 63 60) = true)
include hx

theorem cmdPartDissolve_job (h : (jobOf s (wf (wd w 0) 63 60)).isSome = true) : cmdPartDissolve ch seq w s = (rejected stState, s) := by
  unfold cmdPartDissolve
  simp only [hx, h]
  rfl

variable (hj : jobOf s (wf (wd w 0) 63 60) = none)
include hj

theorem cmdPartDissolve_quiet (h : queuesQuiet (quieted (wf (wd w 0) 63 60) s) (wf (wd w 0) 63 60) = true) :
    cmdPartDissolve ch seq w s = (ok, tierRetry (dissolve (wf (wd w 0) 63 60) (quieted (wf (wd w 0) 63 60) s))) := by
  unfold cmdPartDissolve
  simp only [hx, hj]
  exact if_pos h

theorem cmdPartDissolve_waits (h : queuesQuiet (quieted (wf (wd w 0) 63 60) s) (wf (wd w 0) 63 60) = false) :
    cmdPartDissolve ch seq w s = ({ status := stDone, later := true },
      setPart (wf (wd w 0) 63 60) { partOf (quieted (wf (wd w 0) 63 60) s) (wf (wd w 0) 63 60) with dissolving := some (ch, seq) }
        (quieted (wf (wd w 0) 63 60) s)) := by
  unfold cmdPartDissolve
  simp only [hx, hj]
  exact if_neg (ne_true_of_eq_false h)

end Dissolve

/-- Two states have the same table of partitions. -/
def SameParts (s t : State) : Prop := t.parts = s.parts

theorem SameParts.foldl {α : Type} {f : State → α → State} (hf : ∀ s x, SameParts s (f s x)) {l : List α} : SameParts s (l.foldl f s) := by
  induction l generalizing s with
  | nil => exact rfl
  | cons a l ih => exact (ih (s := f s a)).trans (hf s a)

theorem wrcInvalidate_parts {die a n : Nat} : SameParts s (wrcInvalidate die a n s) := by
  unfold wrcInvalidate; split <;> exact rfl

/-- The dissolved partition is gone from the table, and no other. -/
theorem dissolve_parts {p : Nat} : (dissolve p s).parts = tblDel p s.parts := by
  unfold dissolve
  exact congrArg (tblDel p) (SameParts.foldl fun _ _ => SameParts.foldl fun _ _ => wrcInvalidate_parts)

theorem partExists_dissolve_same {p : Nat} : partExists (dissolve p s) p = false := by
  rw [partExists, dissolve_parts, tblGet?_del_same]; rfl

theorem partExists_dissolve_ne {p k : Nat} (h : k ≠ p) : partExists (dissolve p s) k = partExists s k := by
  rw [partExists, dissolve_parts, tblGet?_del_ne h]; rfl

/-- Settles O11: a creation's checks and what it makes, and a dissolution with and without records that wait. -/
theorem partitionsAreCreatedAndDissolved : Obligations.PartitionsAreCreatedAndDissolved := by
  intro ch hdr pl s s1 seq p fields clamps x free
  obtain ⟨c, hc⟩ : ∃ c, s1 = { s with chans := c } := put_facts ch hdr pl s
  have hp : putRequest ch hdr pl s = s1 := rfl
  clear_value s1
  subst hc
  refine ⟨fun hr hw => ⟨fun st d hk => ?_, fun hx => createAll_exists hx, fun hfree => ?created⟩, fun hr hw => ?dissolve⟩
  · exact exec_ready hw hr rfl hp (cmdPartCreate_reject (s := { s with chans := c }) hk)
  case created =>
    intro t r
    obtain ⟨htiles, hqueues, hregions, hfresh, hapart, hbacked, hdrays, hreds, hleft⟩ := hfree
    have grant : Grantable { s with chans := c } x ((List.range 4).map (fun j => ((rangeOf seq pl j).1, (rangeOf seq pl j).2.used))) fields := by
      refine ⟨htiles, hqueues, hregions, hfresh, fun e he => ?_, hbacked, hdrays, hreds, hleft⟩
      obtain ⟨h1, h2, h3, h4, h5, h6, h7, h8⟩ := hapart e he
      refine ⟨h1, h2, h3, h4, h5, h6, h7, fun r hr t ht => ?_⟩
      obtain ⟨j, hj, rfl⟩ := List.mem_map.mp hr
      exact h8 j (List.mem_range.mp hj) t ht
    have hn : ∀ c' ∈ createAll { s with chans := c } seq pl, c'.1 = false := createChecks_of_grantable grant
    have hlen : created clamps.length = r := created_length
    constructor
    · intro hf
      exact exec_ready hw hr rfl hp ((cmdPartCreate_held (ch := ch) hn hf).trans (congrArg (·, t) hlen))
    · intro hf
      rw [← hlen]
      exact exec_ready hw hr rfl hp (cmdPartCreate_waits (ch := ch) hn hf)
  case dissolve =>
    refine ⟨fun hx => exec_ready hw hr rfl hp (cmdPartDissolve_absent (s := { s with chans := c }) hx),
      fun hx hj => exec_ready hw hr rfl hp (cmdPartDissolve_job (s := { s with chans := c }) hx hj), fun hx hj => ?_⟩
    intro u
    refine ⟨fun hq => ?_, fun hq => ?_, fun hq => ?_, partExists_dissolve_same, fun k hk => partExists_dissolve_ne (s := { s with chans := c }) hk⟩
    · exact exec_ready hw hr rfl hp (cmdPartDissolve_quiet (s := { s with chans := c }) hx hj hq)
    · exact exec_ready hw hr rfl hp (cmdPartDissolve_waits (s := { s with chans := c }) hx hj hq)
    · have hn : quieted p { s with chans := c } = { s with chans := c } := quieted_none hq
      refine exec_ready hw hr rfl hp ((cmdPartDissolve_quiet (s := { s with chans := c }) hx hj ?_).trans ?_)
      · exact hn.symm ▸ queuesQuiet_none hq
      · exact congrArg (fun u => ((ok : Reply), tierRetry (dissolve p u))) hn

end Sys2Proof.Machine
end

section
/-! Mailbox commands on images, jobs, seals and tiles: the command's own answer, and obligations O12 and O14. -/

namespace Sys2Proof.Machine

variable {ch seq : Nat} {w : List Word} {s : State}

/-! ### SLATE_INSTALL (R8, R154, R155, R233) -/

theorem cmdSlateInstall_unaligned (ha : wf (wd w 1) 55 0 % 128 ≠ 0) : cmdSlateInstall ch seq w s = (rejected stFormat 8, s) := by
  unfold cmdSlateInstall
  exact if_pos ha

section Aligned
variable (ha : wf (wd w 1) 55 0 % 128 = 0)
include ha

theorem cmdSlateInstall_outside (hu : umrEnd < wf (wd w 1) 55 0 + wf (wd w 2) 39 0) : cmdSlateInstall ch seq w s =
    (outsideUmr (wf (wd w 0) 63 60) (wf (wd w 1) 55 0) (wf (wd w 2) 39 0) (settleRange (wf (wd w 1) 55 0) 128 s), s) := by
  unfold cmdSlateInstall
  dsimp only
  rw [if_neg (not_not.mpr ha), if_pos hu]

variable (hu : wf (wd w 1) 55 0 + wf (wd w 2) 39 0 ≤ umrEnd)
include hu

theorem cmdSlateInstall_fails {st d : Nat} (hf : installFails (settleRange (wf (wd w 1) 55 0) (wf (wd w 2) 39 0) s) (wf (wd w 0) 63 60)
      (wf (wd w 1) 55 0) (wf (wd w 2) 39 0) = some (st, d)) :
    cmdSlateInstall ch seq w s = (rejected st d, settleRange (wf (wd w 1) 55 0) (wf (wd w 2) 39 0) s) := by
  unfold cmdSlateInstall
  dsimp only
  rw [if_neg (not_not.mpr ha), if_neg (Nat.not_lt.mpr hu)]
  simp only [hf]

theorem cmdSlateInstall_installs (hf : installFails (settleRange (wf (wd w 1) 55 0) (wf (wd w 2) 39 0) s) (wf (wd w 0) 63 60)
      (wf (wd w 1) 55 0) (wf (wd w 2) 39 0) = none) :
    cmdSlateInstall ch seq w s =
      (ok (wordsOf (sha384 (peek (settleRange (wf (wd w 1) 55 0) (wf (wd w 2) 39 0) s) (wf (wd w 1) 55 0) (wf (wd w 2) 39 0)))),
        installImage (wf (wd w 0) 63 60) (wf (wd w 1) 55 0) (wf (wd w 2) 39 0) (settleRange (wf (wd w 1) 55 0) (wf (wd w 2) 39 0) s)) := by
  unfold cmdSlateInstall
  dsimp only
  rw [if_neg (not_not.mpr ha), if_neg (Nat.not_lt.mpr hu)]
  simp only [hf]

end Aligned

/-- Not even the header lies in the backed UMR. -/
theorem outsideUmr_header {p a len : Nat} (h : umrEnd < a + 128) : outsideUmr p a len s = rejected stRegion 8 := if_pos h

/-! ### JOB_OPEN (R153, R164, R387, R433) -/

/-- A check that failed, and below whose status none of the others lies, gives the status of the rejection. -/
theorem checked_of_lowest {cs : List Check} {run : State → Reply × State} {st d : Nat} (h : (true, st, d) ∈ cs)
    (hl : ∀ c ∈ cs, st ≤ c.2.1) : ∃ d', checked cs run s = (rejected st d', s) :=
  (pick_of_lowest h hl).imp fun _ => checked_reject

/-- A job without identity, or that begins off the grid of the Quartz, is of no form. -/
theorem cmdJobOpen_form (h : (wd w 1).toNat = 0 ∨ (wd w 2).toNat % 4 ≠ 0) : ∃ d, cmdJobOpen ch seq w s = (rejected stFormat d, s) := by
  unfold cmdJobOpen
  have hst : stFormat ≤ stQuota ∧ stFormat ≤ stState := by decide
  rcases h with h | h
  · refine checked_of_lowest (d := 8) (by simp [h]) ?_
    simp [hst]
  · refine checked_of_lowest (d := 16) (by simp [h]) ?_
    simp [hst]

/-- The job that JOB_OPEN of an image opens. -/
def openedJob (s : State) (w : List Word) (i : Image) : Job :=
  { id := (wd w 1).toNat, t0 := (wd w 2).toNat, recQueue := wf (wd w 0) 58 45, irq := bit (wd w 0).toNat 59,
    sealSlot := if bit (wd w 0).toNat 40 = true then some (wf (wd w 0) 44 41) else none, service := i.service, members := i.members,
    degFrom := if s.degraded then some 0 else none, degraded := decide (s.level < 0x1F) }

/-- The state with the job opened: the sequencers are armed for its first epoch and every compute die is at point 9 or above. -/
def openedState (s : State) (w : List Word) (i : Image) : State :=
  let p := wf (wd w 0) 63 60
  let opened := setPart p { partOf s p with job := some (openedJob s w i), offset := 0 } s
  raiseFloor (setSeqs p (fun q => { q with st := .armed, epoch := 0, entry := 0 })
    (if s.degraded = true ∧ 1 < i.members then issue p 3 5 0 0 0 opened else opened))

section Open
variable {i : Image} (hi : (partOf s (wf (wd w 0) 63 60)).image = some i)
include hi

theorem serviceImage_of_image : serviceImage s (wf (wd w 0) 63 60) = i.service := by rw [serviceImage, hi]

/-- The conditions of the state under which an image's job opens. -/
structure Openable (s : State) (w : List Word) (i : Image) : Prop where
  free : (partOf s (wf (wd w 0) 63 60)).job = none
  id : (wd w 1).toNat ≠ 0
  grid : (wd w 2).toNat % 4 = 0
  records : if i.service = true then bit (wd w 0).toNat 59 = false ∧ wf (wd w 0) 58 45 = 0 ∧ (queueOf s i.svcQueue).enable = true ∧
      (queueOf s i.svcQueue).qtype = 1
    else queuePart s (wf (wd w 0) 58 45) = some (wf (wd w 0) 63 60) ∧ (queueOf s (wf (wd w 0) 58 45)).enable = true
  sealed : bit (wd w 0).toNat 40 = true → (tblGet? (partOf s (wf (wd w 0) 63 60)).seals (wf (wd w 0) 44 41)).isSome = true
  notSoon : now s + 1000000 ≤ (wd w 2).toNat
  notLate : (wd w 2).toNat ≤ now s + 3600000000000
  consist : 1 < i.members → ∃ r, s.route = some r ∧ r.members = i.members ∧ holdLeadOk s i = true
  quartz : quartzReady s i.members = true
  receipts : receiptBlocked s = false
  backed : namesUnbacked s i = false

/-- No condition of the state stands against an openable job. -/
theorem jobOpenState_of_openable (h : Openable s w i) :
    ∀ c ∈ jobOpenState s (wf (wd w 0) 63 60) (wf (wd w 0) 58 45) (bit (wd w 0).toNat 40) (wf (wd w 0) 44 41) (wd w 2).toNat, c.1 = false := by
  have hrec := h.records
  have hsoon := h.notSoon
  have hlate := h.notLate
  have hseal : (bit (wd w 0).toNat 40 && (tblGet? (partOf s (wf (wd w 0) 63 60)).seals (wf (wd w 0) 44 41)).isNone) = false := by
    cases hb : bit (wd w 0).toNat 40 with
    | false => rfl
    | true => simpa using h.sealed hb
  have hsvc : i.service = true → (queueOf s i.svcQueue).enable = true ∧ (queueOf s i.svcQueue).qtype = 1 := by
    intro hs
    rw [if_pos hs] at hrec
    exact hrec.2.2
  unfold jobOpenState
  simp only [hi, Option.any_some, List.forall_mem_cons]
  refine ⟨hseal, ?queue, ?time, ?image, by simp⟩
  case queue =>
    cases hs : i.service with
    | true => rfl
    | false => rw [hs] at hrec; simp [hrec.2]
  case time => simp; omega
  case image =>
    by_cases hm : 1 < i.members
    · obtain ⟨r, hr, hrm, hl⟩ := h.consist hm
      simpa [h.free, h.quartz, h.receipts, h.backed, hr, hrm, hl] using hsvc
    · simpa [h.free, h.quartz, h.receipts, h.backed, hm] using hsvc

/-- An openable job is opened. -/
theorem cmdJobOpen_opens (h : Openable s w i) : cmdJobOpen ch seq w s = (ok, openedState s w i) := by
  have hsv := serviceImage_of_image hi
  have hrec := h.records
  unfold cmdJobOpen
  dsimp only
  rw [checked_run]
  · simp only [hi, openedState, openedJob, Bool.and_eq_true, decide_eq_true_eq]
  · rw [hsv]
    simp only [List.forall_mem_append, List.forall_mem_cons, List.forall_mem_map]
    refine ⟨⟨?irq, ?queue, ?id, ?grid, ?mine, by simp⟩, jobOpenState_of_openable hi h⟩
    case irq => cases hs : i.service with
      | true => rw [hs] at hrec; simp [hrec.1]
      | false => rfl
    case queue => cases hs : i.service with
      | true => rw [hs] at hrec; simp [hrec.2.1]
      | false => rfl
    case id => simpa using h.id
    case grid => simpa using h.grid
    case mine => cases hs : i.service with
      | true => rfl
      | false => rw [hs] at hrec; simp [hrec.1]

end Open

/-- Settles O12: the stages of an installation, and the job that an openable image's JOB_OPEN arms. -/
theorem slatesAreInstalledAndJobsOpened : Obligations.SlatesAreInstalledAndJobsOpened := by
  intro ch hdr pl s s1 p a len
  obtain ⟨c, hc⟩ : ∃ c, s1 = { s with chans := c } := put_facts ch hdr pl s
  have hp : putRequest ch hdr pl s = s1 := rfl
  clear_value s1
  subst hc
  refine ⟨fun hr hw => ⟨fun ha => ?_, fun ha hu => ⟨?_, fun hh => outsideUmr_header hh⟩, fun ha hu st d hf => ?_, fun ha hu hf => ?_⟩,
    fun hr hw i hi hj => ?job⟩
  · exact exec_ready hw hr rfl hp (cmdSlateInstall_unaligned (ch := ch) (seq := wf hdr 31 16) ha)
  · exact exec_ready hw hr rfl hp (cmdSlateInstall_outside (ch := ch) (seq := wf hdr 31 16) ha hu)
  · exact exec_ready hw hr rfl hp (cmdSlateInstall_fails (ch := ch) (seq := wf hdr 31 16) ha hu hf)
  · exact exec_ready hw hr rfl hp (cmdSlateInstall_installs (ch := ch) (seq := wf hdr 31 16) ha hu hf)
  case job =>
    intro rq irq t0 sealed slot job opened
    refine ⟨fun h => ?_, fun hid hgrid hrec hseal hsoon hlate hcons hq hb hn => ?_⟩
    · obtain ⟨d, hd⟩ := cmdJobOpen_form (ch := ch) (seq := wf hdr 31 16) (s := { s with chans := c }) h
      exact ⟨d, exec_ready hw hr rfl hp hd⟩
    · have open_ : Openable { s with chans := c } pl i := ⟨hj, hid, hgrid, hrec, hseal, hsoon, hlate, hcons, hq, hb, hn⟩
      exact exec_ready hw hr rfl hp (cmdJobOpen_opens (ch := ch) (seq := wf hdr 31 16) hi open_)

/-! ### SEAL_MODEL (R389, R416) -/

theorem cmdSealModel_held (hrel : bit (wd w 0).toNat 55 = true)
    (hj : ∃ j, (partOf s (wf (wd w 0) 63 60)).job = some j ∧ j.sealSlot = some (wf (wd w 0) 59 56)) :
    cmdSealModel ch seq w s = (rejected stState, s) := by
  obtain ⟨j, hj, hslot⟩ := hj
  unfold cmdSealModel
  dsimp only
  rw [if_pos hrel]
  refine checked_reject ?_
  simp [hj, hslot, pick, lowest]

theorem cmdSealModel_releases (hrel : bit (wd w 0).toNat 55 = true) (hx : partExists s (wf (wd w 0) 63 60) = true)
    (hj : ∀ j, (partOf s (wf (wd w 0) 63 60)).job = some j → j.sealSlot ≠ some (wf (wd w 0) 59 56)) :
    cmdSealModel ch seq w s = (ok, setPart (wf (wd w 0) 63 60) { partOf s (wf (wd w 0) 63 60) with
      seals := tblDel (wf (wd w 0) 59 56) (partOf s (wf (wd w 0) 63 60)).seals } s) := by
  unfold cmdSealModel
  dsimp only
  rw [if_pos hrel, checked_run]
  · rw [if_pos hx]
  · cases hq : (partOf s (wf (wd w 0) 63 60)).job with
    | none => simp
    | some j => simpa using hj j hq

section Seal
variable (hrel : bit (wd w 0).toNat 55 = false) (hb : wf (wd w 1) 42 0 % extSize = 0) (hn : wf (wd w 2) 39 0 ≠ 0)
  (hin : inPart (partOf s (wf (wd w 0) 63 60)) (wf (wd w 1) 42 0) (wf (wd w 2) 39 0) = true) (hu : wf (wd w 1) 42 0 + wf (wd w 2) 39 0 ≤ umrEnd)
  (hd : bit (partOf s (wf (wd w 0) 63 60)).drayMask (wf (wd w 0) 54 49) = true) (hj : (partOf s (wf (wd w 0) 63 60)).job = none)
  (hs : tblGet? (partOf s (wf (wd w 0) 63 60)).seals (wf (wd w 0) 59 56) = none)
  (hr : ringInRange s (wf (wd w 1) 42 0) (wf (wd w 2) 39 0) = false)
include hrel hb hn hin hu hd hj hs hr

/-- A sealing that no check stands against reads its range, unless a line of it is poisoned. -/
theorem cmdSealModel_seals : cmdSealModel ch seq w s =
    if rangePoisoned s (wf (wd w 1) 42 0) (wf (wd w 2) 39 0) = true then (rejected stReset, partReset (wf (wd w 0) 63 60) s)
    else
      let r := cohRead (.dray (wf (wd w 0) 54 49)) (wf (wd w 1) 42 0) (wf (wd w 2) 39 0) none s
      (ok (wordsOf (sealRoot r.1)), setPart (wf (wd w 0) 63 60) { partOf r.2 (wf (wd w 0) 63 60) with
        seals := tblSet (wf (wd w 0) 59 56) { root := sealRoot r.1, base := wf (wd w 1) 42 0, len := wf (wd w 2) 39 0 }
          (partOf r.2 (wf (wd w 0) 63 60)).seals } r.2) := by
  unfold cmdSealModel
  dsimp only
  rw [if_neg (ne_true_of_eq_false hrel), checked_run]
  simp [hb, hn, hin, hu, hd, hj, hs, hr]

end Seal

/-! ### TILE_RETIRE (R383, R391) -/

theorem cmdTileRetire_physical (hb : bit (wd w 0).toNat 59 = true) (ht : wf (wd w 0) 58 49 ≤ 575) (hc : ch = 0) :
    cmdTileRetire ch seq w s = (ok, retireNow (wf (wd w 0) 58 49) s) := by
  unfold cmdTileRetire
  dsimp only
  rw [if_pos hb, checked_run]
  simp [hc]
  omega

theorem cmdTileRetire_no_physical (hb : bit (wd w 0).toNat 59 = true) (ht : 575 < wf (wd w 0) 58 49) :
    cmdTileRetire ch seq w s = (rejected stFormat 6, s) := by
  unfold cmdTileRetire
  dsimp only
  rw [if_pos hb]
  refine checked_reject ?_
  by_cases hc : ch = 0 <;> simp [ht, hc, pick, lowest, stFormat, stState]

section Logical
variable (hb : bit (wd w 0).toNat 59 = false)
include hb

theorem cmdTileRetire_no_logical (ht : 543 < wf (wd w 0) 58 49) : cmdTileRetire ch seq w s = (rejected stFormat 6, s) := by
  unfold cmdTileRetire
  dsimp only
  rw [if_neg (ne_true_of_eq_false hb)]
  refine checked_reject ?_
  by_cases hp : tilePart s (wf (wd w 0) 58 49) = some (wf (wd w 0) 63 60) <;> simp [ht, hp, pick, lowest, stFormat, stQuota]

variable (ht : wf (wd w 0) 58 49 ≤ 543)
include ht

theorem cmdTileRetire_foreign (hp : tilePart s (wf (wd w 0) 58 49) ≠ some (wf (wd w 0) 63 60)) :
    cmdTileRetire ch seq w s = (rejected stQuota 6, s) := by
  unfold cmdTileRetire
  dsimp only
  rw [if_neg (ne_true_of_eq_false hb)]
  refine checked_reject ?_
  simp [Nat.not_lt.mpr ht, hp, pick, lowest]

theorem cmdTileRetire_logical {x : Nat} (hp : tilePart s (wf (wd w 0) 58 49) = some (wf (wd w 0) 63 60))
    (hx : physOf s (wf (wd w 0) 58 49) = some x) : cmdTileRetire ch seq w s = (ok, retireNow x s) := by
  unfold cmdTileRetire
  dsimp only
  rw [if_neg (ne_true_of_eq_false hb), checked_run]
  · simp only [hx]
  · simp [ht, hp]

end Logical

/-- Settles O14: the outcomes of a sealing, of a release and of a retirement. -/
theorem modelsAreSealedAndTilesRetired : Obligations.ModelsAreSealedAndTilesRetired := by
  intro ch hdr pl s s1 w0 p
  obtain ⟨c, hc⟩ : ∃ c, s1 = { s with chans := c } := put_facts ch hdr pl s
  have hp : putRequest ch hdr pl s = s1 := rfl
  clear_value s1
  subst hc
  refine ⟨fun hr hw => ?sealing, fun hr hw => ?retire⟩
  case sealing =>
    intro slot d base len q
    refine ⟨fun hrel hb hn hin hu hd hj hs hring => ?_, fun hrel hj => ?_, fun hrel hx hj => ?_⟩
    · have hsealed := cmdSealModel_seals (ch := ch) (seq := wf hdr 31 16) (s := { s with chans := c }) hrel hb hn hin hu hd hj hs hring
      exact ⟨fun hpo => exec_ready hw hr rfl hp (hsealed.trans (if_pos hpo)),
        fun hpo => exec_ready hw hr rfl hp (hsealed.trans (if_neg (ne_true_of_eq_false hpo)))⟩
    · exact exec_ready hw hr rfl hp (cmdSealModel_held (ch := ch) (seq := wf hdr 31 16) (s := { s with chans := c }) hrel hj)
    · exact exec_ready hw hr rfl hp (cmdSealModel_releases (ch := ch) (seq := wf hdr 31 16) (s := { s with chans := c }) hrel hx hj)
  case retire =>
    intro t after
    refine ⟨fun hb ht hch => ?_, fun hb ht => ?_, fun hb ht => ?_, fun hb ht hpart => ?_, fun x hb ht hpart hx => ?_⟩
    · exact exec_ready hw hr rfl hp (cmdTileRetire_physical (ch := ch) (seq := wf hdr 31 16) hb ht hch)
    · exact exec_ready hw hr rfl hp (cmdTileRetire_no_physical (ch := ch) (seq := wf hdr 31 16) hb ht)
    · exact exec_ready hw hr rfl hp (cmdTileRetire_no_logical (ch := ch) (seq := wf hdr 31 16) hb ht)
    · exact exec_ready hw hr rfl hp (cmdTileRetire_foreign (ch := ch) (seq := wf hdr 31 16) (s := { s with chans := c }) hb ht hpart)
    · exact exec_ready hw hr rfl hp (cmdTileRetire_logical (ch := ch) (seq := wf hdr 31 16) (s := { s with chans := c }) hb ht hpart hx)

end Sys2Proof.Machine
end

