-- ==== Sys2Proof/Proofs/Registers.lean ====
section
/-! PROOF. A step of the block, the state after reset, the acting registers, the Quartz's references and the standby takeover
(O1, O6, O7, O19, O20, O21). -/

namespace Sys2Proof.Machine

variable {s : State}

/-! ### A step, and reset -/

/-- No channel has a request whose turn could come. -/
theorem nextServed_none (h : s.chans.all (fun e => e.2.turn.isNone) = true) : nextServed s = none := by
  have hr : s.chans.filter (fun e => e.2.turn.isSome && !behindOther s e.1 (fld (memLe e.2.req 0 8) 47 32) (request s e.1).2) = [] :=
    List.filter_eq_nil_iff.mpr fun e he => by simp [Option.isNone_iff_eq_none.mp (List.all_eq_true.mp h e he)]
  rw [nextServed, hr]; rfl

theorem serveWaiting_none {f : Nat → Cmd} {n : Nat} (h : s.chans.all (fun e => e.2.turn.isNone) = true) : serveWaiting f n s = s := by
  cases n with
  | zero => rfl
  | succ n => simp [serveWaiting, nextServed_none h]

/-- Where nothing waits, an idle tick is a tick of the Quartz alone. -/
theorem idle_nothing (hr : s.reqWait = []) (hs : s.remote.src.any (fun e => nextHere e.2) = false)
    (hh : s.harts.all (fun e => e.2.waiting.isEmpty) = true) : idle s = tick s := by
  have hretry : retryReq (tick s) = tick s := by simp [retryReq, tick, hr]
  have hsrc : s.remote.src.filter (fun e => nextHere e.2) = [] :=
    List.filter_eq_nil_iff.mpr fun e he => by simpa using List.any_eq_false.mp hs e he
  have hharts : s.harts.filter (fun e => !e.2.waiting.isEmpty) = [] :=
    List.filter_eq_nil_iff.mpr fun e he => by simp [List.isEmpty_iff.mp (List.all_eq_true.mp hh e he)]
  simp [idle, hretry, hsrc, hharts]

/-- A tick adds the rate word to the count with its fraction. -/
theorem tick_adds : (tick s).quartz.now * 2 ^ 32 + (tick s).quartz.frac = s.quartz.now * 2 ^ 32 + s.quartz.frac + s.quartz.rate ∧
    (tick s).quartz.frac < 2 ^ 32 := by
  refine ⟨?_, Nat.mod_lt _ (by decide)⟩
  have hm := Nat.div_add_mod (s.quartz.frac + s.quartz.rate) (2 ^ 32)
  show (s.quartz.now + (s.quartz.frac + s.quartz.rate) / 2 ^ 32) * 2 ^ 32 + (s.quartz.frac + s.quartz.rate) % 2 ^ 32 = _
  rw [Nat.add_mul]
  omega

/-- Settles O1: a step runs the front command; an idle step with nothing waiting is one tick. -/
theorem stepRunsTheFrontCommand : Obligations.StepRunsTheFrontCommand := by
  have hidle : ∀ s : State, s.pending = [] → step s = .next (serveWaiting (runCommand {}) 16 (idle s)) := by
    intro s hp
    simp [step, hp]
  refine ⟨fun c q s => rfl, hidle, fun s hp hr hs hh hc => ?_⟩
  have hstep : step s = .next (tick s) := by
    rw [hidle s hp, idle_nothing hr hs hh, serveWaiting_none (s := tick s) hc]
  exact ⟨tick s, hstep, rfl, tick_adds⟩

/-- Settles O6: in the reset state the memories and the event log are empty and the fuses are those of BLANK. -/
theorem resetStateIsReachable : Obligations.ResetStateIsReachable :=
  ⟨⟨rfl, rfl, rfl, rfl, ⟨by decide, by decide, by decide, by decide, by decide, by decide⟩⟩, rfl⟩

/-- Settles O7: every table of the reset state is empty, so each unit has its default. -/
theorem resetStateAsTheManualGivesIt : Obligations.ResetStateAsTheManualGivesIt :=
  ⟨rfl, rfl, rfl, rfl, rfl, fun _ => ⟨rfl, rfl, rfl, rfl⟩, fun _ => rfl, rfl, rfl, rfl, rfl, fun _ => rfl, fun _ => rfl, fun _ => rfl⟩

/-! ### Mailbox registers (R377, R478) -/

theorem ackWrite_clears {ch v : Nat} {acc : Acc} (ha : acc = .full) (hv : bit v 0 = true) :
    ackWrite ch acc v s = setChan ch { chanOf s ch with replyValid := false } s := by
  simp [ha, ackWrite, hv]

theorem ackWrite_nothing {ch v : Nat} {acc : Acc} (h : acc ≠ .full ∨ bit v 0 = false) : ackWrite ch acc v s = s := by
  cases acc with
  | full => simp [ackWrite, h.resolve_left (fun hn => hn rfl)]
  | lo => rfl
  | hi => rfl

/-- Settles O19, by the cases of the two register writes. -/
theorem channelAcknowledgeAndInterrupt : Obligations.ChannelAcknowledgeAndInterrupt := by
  intro ch acc v s hch c m
  have hack : exec (.cbxAck ch acc v) s = .next (ackWrite ch acc v.toNat s) := exec_cbxAck (decide_eq_true hch)
  have hirq : exec (.cbxIrqWrite ch acc v) s = .next (irqWrite ch acc v.toNat s) := exec_cbxIrqWrite (decide_eq_true hch)
  refine ⟨fun ha hv => ?_, fun h => ?_, fun h => ?_, fun hh hf => ?_⟩
  · rw [hack, ackWrite_clears ha hv]
  · rw [hack, ackWrite_nothing h]
  · rw [hirq, irqWrite, if_pos (by simpa using h)]; rfl
  · rw [hirq, irqWrite, if_neg (by simpa using And.intro hh hf)]

/-! ### RC registers (Table 00-5, R475) -/

theorem rcRead_running {h rd off : Nat} {acc : Acc} (hb : s.bu.state = 1) :
    rcRead h rd off acc s = rcClear off acc (wrX h rd (readAcc acc (regRead s off)) s) := if_pos hb

/-- The upper half of an RC register covers none of its fields. -/
theorem rcRead_upper {h rd off n : Nat} (hb : s.bu.state = 1) (hn : regRead s off = n) :
    rcRead h rd off .hi s = wrX h rd (readAcc .hi n) s := by
  rw [rcRead_running hb, hn]; rfl

theorem covers_low {acc : Acc} (h : acc = .full ∨ acc = .lo) : covers acc 0 = true := by
  rcases h with rfl | rfl <;> rfl

theorem regRead_cbxDiscards {ch : Nat} (hch : ch < 16) : regRead s (0x2000 * ch + 0x1030) = (chanOf s ch).discards := by
  have h1 : (0x2000 * ch + 0x1030) / 0x1000000 = 0 := by omega
  have h2 : (0x2000 * ch + 0x1030) % 0x1000000 = 0x2000 * ch + 0x1030 := by omega
  have h3 : (0x2000 * ch + 0x1030) / 0x2000 = ch := by omega
  have h4 : (0x2000 * ch + 0x1030) % 0x2000 = 0x1030 := by omega
  have h5 : 0x2000 * ch + 0x1030 < 0x20000 := by omega
  simp [regRead, h1, h2, h3, h4, h5, cbxRead]

theorem rcClear_cbxDiscards {ch : Nat} {acc : Acc} (hch : ch < 16) (ha : covers acc 0 = true) :
    rcClear (0x2000 * ch + 0x1030) acc s = setChan ch { chanOf s ch with discards := 0 } s := by
  have h1 : (0x2000 * ch + 0x1030) / 0x1000000 = 0 := by omega
  have h2 : (0x2000 * ch + 0x1030) % 0x1000000 = 0x2000 * ch + 0x1030 := by omega
  have h3 : (0x2000 * ch + 0x1030) / 0x2000 = ch := by omega
  have h4 : (0x2000 * ch + 0x1030) % 0x2000 = 0x1030 := by omega
  have h5 : 0x2000 * ch + 0x1030 < 0x20000 := by omega
  simp [rcClear, ha, h1, h2, h3, h4, h5]

theorem regRead_fncMismatch {u : Nat} (hu : u < 18) : regRead s (0x6000000 + 8 * u) = (homeOf s u).mismatch := by
  have h1 : (0x6000000 + 8 * u) / 0x1000000 = 6 := by omega
  have h2 : (0x6000000 + 8 * u) % 0x1000000 = 8 * u := by omega
  have h3 : 8 * u / 8 = u := by omega
  have h4 : 8 * u < 0x90 := by omega
  simp [regRead, h1, h2, fncRead, h4]

theorem rcClear_fncMismatch {u : Nat} {acc : Acc} (hu : u < 18) (ha : covers acc 0 = true) :
    rcClear (0x6000000 + 8 * u) acc s = setHome u { homeOf s u with mismatch := 0 } s := by
  have h1 : (0x6000000 + 8 * u) / 0x1000000 = 6 := by omega
  have h2 : (0x6000000 + 8 * u) % 0x1000000 = 8 * u := by omega
  have h4 : 8 * u < 0x90 := by omega
  simp [rcClear, ha, h1, h2, h4]

theorem rcClear_aheadCount {acc : Acc} (ha : covers acc 0 = true) :
    rcClear 0x3000808 acc s = { s with dbl := { s.dbl with aheadCount := 0 } } := by simp [rcClear, ha]

theorem rcClear_dblDiscards {acc : Acc} (ha : covers acc 0 = true) :
    rcClear 0x3000810 acc s = { s with dbl := { s.dbl with discards := 0 } } := by simp [rcClear, ha]

/-- The first part of O20: RC registers return their count, and a read that covers it clears it. -/
theorem rcRegisters_follow {h rd ch u : Nat} (hh : h < 96) (hrd : rd < 32) (hch : ch < 16) (hu : u < 18) (hb : s.bu.state = 1) :
    (∀ acc, acc = .full ∨ acc = .lo →
      exec (.cbxDiscardsRead h rd ch acc) s =
        .next (let t := wrX h rd (readAcc acc (chanOf s ch).discards) s; setChan ch { chanOf t ch with discards := 0 } t) ∧
      exec (.dblAheadCountRead h rd acc) s =
        .next (let t := wrX h rd (readAcc acc s.dbl.aheadCount) s; { t with dbl := { t.dbl with aheadCount := 0 } }) ∧
      exec (.dblDiscardsRead h rd acc) s =
        .next (let t := wrX h rd (readAcc acc s.dbl.discards) s; { t with dbl := { t.dbl with discards := 0 } }) ∧
      exec (.fncMismatchRead h rd u acc) s =
        .next (let t := wrX h rd (readAcc acc (homeOf s u).mismatch) s; setHome u { homeOf t u with mismatch := 0 } t)) ∧
    exec (.cbxDiscardsRead h rd ch .hi) s = .next (wrX h rd (readAcc .hi (chanOf s ch).discards) s) ∧
    exec (.dblAheadCountRead h rd .hi) s = .next (wrX h rd (readAcc .hi s.dbl.aheadCount) s) ∧
    exec (.dblDiscardsRead h rd .hi) s = .next (wrX h rd (readAcc .hi s.dbl.discards) s) ∧
    exec (.fncMismatchRead h rd u .hi) s = .next (wrX h rd (readAcc .hi (homeOf s u).mismatch) s) := by
  have hcbx : ∀ acc, exec (.cbxDiscardsRead h rd ch acc) s = .next (rcRead h rd (0x2000 * ch + 0x1030) acc s) := fun acc =>
    exec_cbxDiscardsRead (by simp [Instr.wellFormed, okHart, okReg, okChan, hh, hrd, hch])
  have hahead : ∀ acc, exec (.dblAheadCountRead h rd acc) s = .next (rcRead h rd 0x3000808 acc s) := fun acc =>
    exec_dblAheadCountRead (by simp [Instr.wellFormed, okHart, okReg, hh, hrd])
  have hdbl : ∀ acc, exec (.dblDiscardsRead h rd acc) s = .next (rcRead h rd 0x3000810 acc s) := fun acc =>
    exec_dblDiscardsRead (by simp [Instr.wellFormed, okHart, okReg, hh, hrd])
  have hfnc : ∀ acc, exec (.fncMismatchRead h rd u acc) s = .next (rcRead h rd (0x6000000 + 8 * u) acc s) := fun acc =>
    exec_fncMismatchRead (by simp [Instr.wellFormed, okHart, okReg, hh, hrd, hu])
  refine ⟨fun acc ha => ⟨?_, ?_, ?_, ?_⟩, ?_, ?_, ?_, ?_⟩
  · rw [hcbx, rcRead_running hb, regRead_cbxDiscards hch, rcClear_cbxDiscards hch (covers_low ha)]
  · rw [hahead, rcRead_running hb, rcClear_aheadCount (covers_low ha)]; rfl
  · rw [hdbl, rcRead_running hb, rcClear_dblDiscards (covers_low ha)]; rfl
  · rw [hfnc, rcRead_running hb, regRead_fncMismatch hu, rcClear_fncMismatch hu (covers_low ha)]
  · rw [hcbx, rcRead_upper hb (regRead_cbxDiscards hch)]
  · rw [hahead, rcRead_upper (n := s.dbl.aheadCount) hb rfl]
  · rw [hdbl, rcRead_upper (n := s.dbl.discards) hb rfl]
  · rw [hfnc, rcRead_upper hb (regRead_fncMismatch hu)]

/-! ### QTZ_LOAD, QTZ_STATE and the W1C flags (R475, R480, R485, R486) -/

theorem qtzLoadEffect_open {v : Nat} (h : anyJob s = true) :
    qtzLoadEffect .full v s = { s with quartz := { s.quartz with loadRefused := true } } := by simp [qtzLoadEffect, h, modQuartz]

theorem qtzLoadEffect_below {v : Nat} (h : anyJob s = false) (hv : v < now (tick s)) :
    qtzLoadEffect .full v s = { tick s with quartz := { (tick s).quartz with loadRefused := true } } := by
  simp [qtzLoadEffect, h, hv, modQuartz]

theorem qtzLoadEffect_loads {v : Nat} (h : anyJob s = false) (hv : now (tick s) ≤ v) :
    qtzLoadEffect .full v s = { tick s with quartz := { (tick s).quartz with now := v, frac := 0 } } := by
  simp [qtzLoadEffect, h, hv, modQuartz]

theorem qtzLoadEffect_half {acc : Acc} {v : Nat} (h : acc ≠ .full) : qtzLoadEffect acc v s = s := by
  cases acc with
  | full => exact absurd rfl h
  | lo => rfl
  | hi => rfl

theorem qtzStateEffect_full {v : Nat} :
    qtzStateEffect .full v s = { s with quartz := { s.quartz with loadRefused := s.quartz.loadRefused && !bit v 9 } } := by
  cases hb : bit v 9 <;> simp [qtzStateEffect, hb, modQuartz]

theorem qtzStateEffect_half {acc : Acc} {v : Nat} (h : acc ≠ .full) : qtzStateEffect acc v s = s := by
  cases acc with
  | full => exact absurd rfl h
  | lo => rfl
  | hi => rfl

theorem pwrFlagsEffect_half {acc : Acc} {v : Nat} (h : acc ≠ .full) : pwrFlagsEffect acc v s = s := by
  cases acc with
  | full => exact absurd rfl h
  | lo => rfl
  | hi => rfl

theorem thmFlagsEffect_half {acc : Acc} {v : Nat} (h : acc ≠ .full) : thmFlagsEffect acc v s = s := by
  cases acc with
  | full => exact absurd rfl h
  | lo => rfl
  | hi => rfl

/-- The second part of O20: QTZ_LOAD and QTZ_STATE. -/
theorem quartzRegisters_follow (v : Word) :
    (anyJob s = true → exec (.qtzLoad .full v) s = .next { s with quartz := { s.quartz with loadRefused := true } }) ∧
    (anyJob s = false → ∃ t, exec (.qtzLoad .full v) s = .next t ∧ t = { s with quartz := t.quartz } ∧ now (tick s) ≤ now t ∧
      (now (tick s) ≤ v.toNat → now t = v.toNat ∧ t.quartz.loadRefused = s.quartz.loadRefused) ∧
      (v.toNat < now (tick s) → t.quartz = { (tick s).quartz with loadRefused := true })) ∧
    exec (.qtzStateWrite .full v) s = .next { s with quartz := { s.quartz with loadRefused := s.quartz.loadRefused && !bit v.toNat 9 } } ∧
    (∀ acc, acc ≠ .full → exec (.qtzLoad acc v) s = .next s ∧ exec (.qtzStateWrite acc v) s = .next s) := by
  have hload : ∀ acc, exec (.qtzLoad acc v) s = .next (qtzLoadEffect acc v.toNat s) := fun _ => exec_qtzLoad rfl
  have hstate : ∀ acc, exec (.qtzStateWrite acc v) s = .next (qtzStateEffect acc v.toNat s) := fun _ => exec_qtzStateWrite rfl
  refine ⟨fun h => ?_, fun h => ⟨_, hload .full, ?_⟩, ?_, fun acc ha => ⟨?_, ?_⟩⟩
  · rw [hload, qtzLoadEffect_open h]
  · by_cases hv : v.toNat < now (tick s)
    · rw [qtzLoadEffect_below h hv]
      exact ⟨rfl, Nat.le_refl _, fun hle => absurd hv (Nat.not_lt.mpr hle), fun _ => rfl⟩
    · rw [qtzLoadEffect_loads h (Nat.not_lt.mp hv)]
      exact ⟨rfl, Nat.not_lt.mp hv, fun _ => ⟨rfl, rfl⟩, fun hlt => absurd hlt hv⟩
  · rw [hstate, qtzStateEffect_full]
  · rw [hload, qtzLoadEffect_half ha]
  · rw [hstate, qtzStateEffect_half ha]

/-- The third part of O20: PWR_FLAGS and THM_FLAGS. -/
theorem flagRegisters_follow (v : Word) :
    exec (.pwrFlagsWrite .full v) s = .next { s with power := { s.power with
      maxInput := s.power.maxInput && !bit v.toNat 2, capFloor := s.power.capFloor && !bit v.toNat 1,
      supplyWarn := s.power.supplyWarn && !bit v.toNat 0 } } ∧
    exec (.thmFlagsWrite .full v) s = .next { s with thermal := { s.thermal with flag := s.thermal.flag && !bit v.toNat 0 } } ∧
    (∀ acc, acc ≠ .full → exec (.pwrFlagsWrite acc v) s = .next s ∧ exec (.thmFlagsWrite acc v) s = .next s) := by
  have hp : ∀ acc, exec (.pwrFlagsWrite acc v) s = .next (pwrFlagsEffect acc v.toNat s) := fun _ => exec_pwrFlagsWrite rfl
  have ht : ∀ acc, exec (.thmFlagsWrite acc v) s = .next (thmFlagsEffect acc v.toNat s) := fun _ => exec_thmFlagsWrite rfl
  exact ⟨hp .full, ht .full, fun acc ha => ⟨by rw [hp, pwrFlagsEffect_half ha], by rw [ht, thmFlagsEffect_half ha]⟩⟩

/-! ### The Quartz's references (Table 06-1, R150, R152) -/

/-- What ends a holdover writes the Quartz alone, and not its count. -/
theorem endHoldover_quartz : ∃ q, endHoldover s = { s with quartz := q } ∧ q.now = s.quartz.now ∧ q.qref = s.quartz.qref := by
  unfold endHoldover
  split
  next => exact ⟨_, rfl, rfl, rfl⟩
  next => exact ⟨_, rfl, rfl, rfl⟩

theorem qrefLockEffect_free (h : s.quartz.state = .free) : ∃ q, qrefLockEffect s = { s with quartz := q } ∧ q.state = .localRef ∧
    q.qref = true ∧ q.now = s.quartz.now := by
  obtain ⟨q, hq, hn, hr⟩ := endHoldover_quartz (s := modQuartz (fun q => { q with qref := true }) s)
  refine ⟨{ q with state := .localRef }, ?_, rfl, hr, hn⟩
  rw [qrefLockEffect, if_pos (by simp [h]), hq]
  rfl

theorem toHoldover_begins (h : s.quartz.state = .localRef ∨ s.quartz.state = .consist) : toHoldover s =
    { s with quartz := { s.quartz with state := .holdover, holdoverSince := some s.quartz.now, consistSince := none } } := by
  rw [toHoldover, if_pos (by simpa using h)]; rfl

/-- Steering leaves the count and the state, and keeps the rate word within 50 ppm of nominal. -/
theorem steer_quartz : (steer s).quartz.state = s.quartz.state ∧ (steer s).quartz.timingPort = s.quartz.timingPort ∧
    (steer s).quartz.now = s.quartz.now ∧ (steer s).quartz.ppsPresent = s.quartz.ppsPresent ∧
    (steer s).quartz.ppsStamp = s.quartz.ppsStamp ∧ 0x400000000 - 858993 ≤ (steer s).quartz.rate ∧
    (steer s).quartz.rate ≤ 0x400000000 + 858993 := by
  have hr : (steer s).quartz.rate = 0x400000000 - 858993 + (Config.free64 s.freeCtr).toNat % 1717987 := rfl
  have hm := Nat.mod_lt (Config.free64 s.freeCtr).toNat (show 1717987 > 0 by decide)
  rw [hr]
  exact ⟨rfl, rfl, rfl, rfl, rfl, Nat.le_add_right _ _, by omega⟩

theorem toConsist_quartz {p : Nat} : (toConsist p s).quartz.state = .consist ∧ (toConsist p s).quartz.timingPort = some p ∧
    (toConsist p s).quartz.now = s.quartz.now := by
  obtain ⟨q, hq, hn, -⟩ := endHoldover_quartz (s := s)
  rw [toConsist, hq]
  exact ⟨rfl, rfl, hn⟩

theorem ownTime_route {r : Route} (h : s.route = some r) : ownTime s = (r.timeRoot == r.self) := by simp [ownTime, h]

theorem alternateLockEffect_locks {p : Nat} {r : Route} (hq : s.quartz.state = .holdover) (hr : s.route = some r) (ht : r.timeRoot ≠ r.self)
    (ha : r.alt1 = some p ∨ r.alt2 = some p) (hu : (portOf s p).up = true) : alternateLockEffect p s = steer (toConsist p s) := by
  have hown : ownTime s = false := by simpa [ownTime_route hr] using ht
  simp [alternateLockEffect, hr, hq, hown, hu, ha]

theorem ppsEffect_taken {w : Nat} {r : Route} (hw : 10 ≤ w) (hr : s.route = some r) (ht : r.timeRoot = r.self) (hb : ppsBad s = false) :
    ppsEffect w s = steer (modQuartz (fun q => { q with ppsPresent := true, ppsStamp := q.now, ppsIgnored := 0 }) s) := by
  simp [ppsEffect, Nat.not_lt.mpr hw, hr, ht, hb]

theorem ppsEffect_ignored {w : Nat} {r : Route} (hw : 10 ≤ w) (hr : s.route = some r) (ht : r.timeRoot = r.self) (hb : ppsBad s = true) :
    ppsEffect w s = ignoreEdge s := by
  simp [ppsEffect, Nat.not_lt.mpr hw, hr, ht, hb]

/-- The fourth part of O20: the references of the Quartz. -/
theorem quartzReferences_follow :
    (s.quartz.state = .free → ∃ t, exec .qrefLock s = .next t ∧ t = { s with quartz := t.quartz } ∧ t.quartz.state = .localRef ∧
      t.quartz.qref = true ∧ now t = now s) ∧
    (s.quartz.state = .localRef ∨ s.quartz.state = .consist → exec .qrefLoss s = .next { s with quartz := { s.quartz with
      qref := false, state := .holdover, holdoverSince := some s.quartz.now, consistSince := none } }) ∧
    (s.quartz.state = .consist → exec .upstreamLoss s = .next { s with quartz := { s.quartz with
      timingPort := none, state := .holdover, holdoverSince := some s.quartz.now, consistSince := none } }) ∧
    (∀ p r, p < 20 → s.quartz.state = .holdover → s.route = some r → r.timeRoot ≠ r.self → r.alt1 = some p ∨ r.alt2 = some p →
      (portOf s p).up = true → ∃ t, exec (.alternateLock p) s = .next t ∧ t.quartz.state = .consist ∧ t.quartz.timingPort = some p ∧
        now t = now s ∧ 0x400000000 - 858993 ≤ t.quartz.rate ∧ t.quartz.rate ≤ 0x400000000 + 858993) ∧
    (∀ w r, 10 ≤ w → s.route = some r → r.timeRoot = r.self →
      (ppsBad s = false → ∃ t, exec (.ppsEdge w) s = .next t ∧ t.quartz.ppsPresent = true ∧ t.quartz.ppsStamp = now s ∧ now t = now s) ∧
      (ppsBad s = true → ∃ t, exec (.ppsEdge w) s = .next t ∧ t.quartz.ppsIgnored = s.quartz.ppsIgnored + 1 ∧
        t.quartz.ppsStamp = s.quartz.ppsStamp ∧ now t = now s)) := by
  refine ⟨fun h => ?_, fun h => ?_, fun h => ?_, fun p r hp hq hr ht ha hu => ?_, fun w r hw hr ht => ⟨fun hb => ?_, fun hb => ?_⟩⟩
  · obtain ⟨q, hq, hst, href, hn⟩ := qrefLockEffect_free h
    exact ⟨_, (exec_qrefLock rfl).trans (congrArg _ hq), rfl, hst, href, hn⟩
  · exact (exec_qrefLoss rfl).trans (congrArg _ (toHoldover_begins h))
  · have hcut : upstreamLossEffect s = toHoldover (modQuartz (fun q => { q with timingPort := none }) s) := if_pos (by simp [h])
    exact (exec_upstreamLoss rfl).trans (congrArg _ (hcut.trans (toHoldover_begins (.inr h))))
  · obtain ⟨hst, hport, hn, -, -, hlo, hhi⟩ := steer_quartz (s := toConsist p s)
    obtain ⟨hst', hport', hn'⟩ := toConsist_quartz (s := s) (p := p)
    exact ⟨_, (exec_alternateLock (decide_eq_true hp)).trans (congrArg _ (alternateLockEffect_locks hq hr ht ha hu)),
      hst.trans hst', hport.trans hport', hn.trans hn', hlo, hhi⟩
  · obtain ⟨-, -, hn, hpres, hstamp, -, -⟩ :=
      steer_quartz (s := modQuartz (fun q => { q with ppsPresent := true, ppsStamp := q.now, ppsIgnored := 0 }) s)
    exact ⟨_, (exec_ppsEdge rfl).trans (congrArg _ (ppsEffect_taken hw hr ht hb)), hpres, hstamp, hn⟩
  · exact ⟨_, (exec_ppsEdge rfl).trans (congrArg _ (ppsEffect_ignored hw hr ht hb)), rfl, rfl, rfl⟩

/-- Settles O20: RC registers, the Quartz's and the flag registers, and the references. -/
theorem countersFlagsAndTheQuartzFollowTheirRules : Obligations.CountersFlagsAndTheQuartzFollowTheirRules :=
  ⟨fun _ _ _ _ _ hh hrd hch hu hb => rcRegisters_follow hh hrd hch hu hb, fun v _ => quartzRegisters_follow v,
    fun v _ => flagRegisters_follow v, fun _ => quartzReferences_follow⟩

/-! ### The standby takeover (R375) -/

/-- Settles O21: the takeover runs once, while HD0's Caboose is active. -/
theorem standbyTakesOverOnce : Obligations.StandbyTakesOverOnce := by
  intro t s hw
  refine ⟨fun ha hb => ?_, fun ha => ?_⟩
  · have hup : takeoverEffect t s = takeChans s.chans (packageReset t { s with active := some 1, standby := true }) := by
      simp [takeoverEffect, ha, hb]
    rw [exec_standbyTakeover hw, hup]
  · rw [exec_standbyTakeover hw, takeoverEffect, if_pos ha]

end Sys2Proof.Machine
end

section
/-! PROOF. Queue contexts, region entries, doorbells and descriptors (O22 to O25). -/

namespace Sys2Proof.Machine

variable {s : State} {q p : Nat} {v : Nat} {x : QCtx}

/-! ### Enabling and disabling a queue (R347) -/

theorem queueEnable_ctrl (hv : bit v 63 = true) : queueEnableEffect q .full v s = ctxWrite q 0x10 .full v s := if_pos (by simp [covers, mergeAcc, hv])

theorem queueDisable_ctrl (hv : bit v 63 = false) : queueDisableEffect q .full v s = ctxWrite q 0x10 .full v s := if_pos (by simp [covers, mergeAcc, hv])

/-- A write of enable = 1 to a disabled queue takes effect where the conditions hold. -/
theorem ctrlWrite_enables (hp : queuePart s q = some p) (he : (queueOf s q).enable = false) (hd : (queueOf s q).disabling = false)
    (hv : bit v 63 = true) (hok : enableOk s p (setCtrl v (queueOf s q)) = true) :
    ctxWrite q 0x10 .full v s = setQueue q (enabled (setCtrl v (queueOf s q))) s := by
  simp [ctxWrite, hp, he, hd, covers, mergeAcc, hv, hok]

theorem ctrlWrite_refused (hp : queuePart s q = some p) (he : (queueOf s q).enable = false) (hd : (queueOf s q).disabling = false)
    (hv : bit v 63 = true) (hok : enableOk s p (setCtrl v (queueOf s q)) = false) :
    ctxWrite q 0x10 .full v s = setQueue q { setCtrl v (queueOf s q) with cfgErr := true } s := by
  simp [ctxWrite, hp, he, hd, covers, mergeAcc, hv, hok]

theorem ctrlWrite_running (hp : queuePart s q = some p) (he : (queueOf s q).enable = true) (hv : bit v 63 = true) :
    ctxWrite q 0x10 .full v s = s := by
  simp [ctxWrite, hp, he, mergeAcc, hv]

theorem ctrlWrite_disables (hp : queuePart s q = some p) (he : (queueOf s q).enable = true) (hv : bit v 63 = false) :
    ctxWrite q 0x10 .full v s = disableQueue q s := by
  simp [ctxWrite, hp, he, covers, mergeAcc, hv]

/-- Settling a queue changes its state and the mark that it is being disabled alone. -/
theorem settleDisabled_put : ∃ d st, settleDisabled q (setQueue q x s) = setQueue q { x with disabling := d, state := st } s := by
  unfold settleDisabled
  simp only [queueOf_setQueue]
  split
  next => exact ⟨false, .disabled, setQueue_setQueue⟩
  next => exact ⟨x.disabling, x.state, rfl⟩

/-- With no record, no command and no job left the queue reads disabled. -/
theorem settleDisabled_settles (hd : x.disabling = true) (hr : x.recs = []) (hc : x.cur = none)
    (hj : s.parts.all (fun e => e.2.job.isNone) = true) :
    settleDisabled q (setQueue q x s) = setQueue q { x with disabling := false, state := .disabled } s := by
  have hjob : ∀ e ∈ s.parts, e.2.job = none := fun e he => Option.isNone_iff_eq_none.mp (List.all_eq_true.mp hj e he)
  rw [settleDisabled, if_pos, queueOf_setQueue, setQueue_setQueue]
  simp only [queueOf_setQueue, hd, hr, hc, Bool.and_eq_true, Bool.not_eq_true', List.isEmpty_nil, Option.isNone_none, true_and]
  refine List.any_eq_false.mpr fun e he => ?_
  rw [hjob e he]
  exact Bool.false_ne_true

/-- The context as a disable leaves it before the last record. -/
def disabling (x : QCtx) : QCtx :=
  { x with enable := false, disabling := true, reading := false, repoll := none, repollNo := 0, accepted := [],
           recs := x.recs ++ x.accepted.map (fun d => descRec d.1 stState), state := if x.state == .parked then .running else x.state }

theorem disableQueue_eq : disableQueue q s = settleDisabled q (setQueue q (disabling (queueOf s q)) s) := rfl

/-- Settles O22, by the cases of a write to QUE_CTX_CTRL. -/
theorem queuesAreEnabledAndDisabled : Obligations.QueuesAreEnabledAndDisabled := by
  intro q p v s hq hp x x1
  have hen : exec (.queueEnable q .full v) s = .next (queueEnableEffect q .full v.toNat s) := exec_queueEnable (decide_eq_true hq)
  have hdis : exec (.queueDisable q .full v) s = .next (queueDisableEffect q .full v.toNat s) := exec_queueDisable (decide_eq_true hq)
  refine ⟨fun hv he hd => ⟨fun hok => ?_, fun hok => ?_⟩, fun hv he => ?_, fun hv he => ?_⟩
  · rw [hen, queueEnable_ctrl hv, ctrlWrite_refused hp he hd hv hok]
  · rw [hen, queueEnable_ctrl hv, ctrlWrite_enables hp he hd hv hok]; rfl
  · rw [hen, queueEnable_ctrl hv, ctrlWrite_running hp he hv]
  · obtain ⟨d, st, hs⟩ := settleDisabled_put (q := q) (x := disabling x) (s := s)
    refine ⟨_, by rw [hdis, queueDisable_ctrl hv, ctrlWrite_disables hp he hv, disableQueue_eq, hs], ?_⟩
    simp only [queueOf_setQueue]
    refine ⟨rfl, rfl, rfl, rfl, fun k hk => queueOf_setQueue_ne hk, rfl, fun hr ha hc hj => ?_⟩
    have hrec : (disabling x).recs = [] := by
      show x.recs ++ x.accepted.map (fun d => descRec d.1 stState) = []
      simp [hr, ha]
    have hset := settleDisabled_settles (s := s) (q := q) (x := disabling x) rfl hrec hc hj
    have hy := congrArg (fun t => (queueOf t q).state) (hs.symm.trans hset)
    simpa using hy

/-! ### Region entries (R369, R370) -/

theorem regionValidate_ctrl {r : Nat} (hv : bit v 63 = true) : regionValidateEffect r .full v s = rgnWrite r 0 .full v s := if_pos (by simp [covers, mergeAcc, hv])

theorem regionInvalidate_ctrl {r : Nat} (hv : bit v 63 = false) : regionInvalidateEffect r .full v s = rgnWrite r 0 .full v s :=
  if_pos (by simp [covers, mergeAcc, hv])

theorem rgnWrite_validates {r : Nat} (hp : regionPart s r = some p) (hx : (regionOf s r).valid = false) (hv : bit v 63 = true)
    (hok : validateOk s p (setRgnCtrl v (regionOf s r)) = true) :
    rgnWrite r 0 .full v s = setRegion r { setRgnCtrl v (regionOf s r) with valid := true, err := false } s := by
  simp [rgnWrite, hp, hx, covers, mergeAcc, hv, hok]

theorem rgnWrite_refused {r : Nat} (hp : regionPart s r = some p) (hx : (regionOf s r).valid = false) (hv : bit v 63 = true)
    (hok : validateOk s p (setRgnCtrl v (regionOf s r)) = false) :
    rgnWrite r 0 .full v s = setRegion r { setRgnCtrl v (regionOf s r) with err := true } s := by
  simp [rgnWrite, hp, hx, covers, mergeAcc, hv, hok]

theorem rgnWrite_valid {r : Nat} (hp : regionPart s r = some p) (hx : (regionOf s r).valid = true) (hv : bit v 63 = true) :
    rgnWrite r 0 .full v s = s := by
  simp [rgnWrite, hp, hx, mergeAcc, hv]

theorem rgnWrite_invalidates {r : Nat} (hp : regionPart s r = some p) (hx : (regionOf s r).valid = true) (hv : bit v 63 = false) :
    rgnWrite r 0 .full v s = setRegion r { setRgnCtrl v (regionOf s r) with valid := false } s := by
  simp [rgnWrite, hp, hx, covers, mergeAcc, hv]

theorem rgnWrite_fields {r : Nat} (hp : regionPart s r = some p) (hx : (regionOf s r).valid = false) (hv : bit v 63 = false) :
    rgnWrite r 0 .full v s = setRegion r (setRgnCtrl v (regionOf s r)) s := by
  simp [rgnWrite, hp, hx, mergeAcc, hv]

/-- Settles O23, by the cases of a write to the control word of an entry. -/
theorem regionsAreValidatedAndInvalidated : Obligations.RegionsAreValidatedAndInvalidated := by
  intro r p v s hr hp x x1
  have hval : exec (.regionValidate r .full v) s = .next (regionValidateEffect r .full v.toNat s) := exec_regionValidate (decide_eq_true hr)
  have hinv : exec (.regionInvalidate r .full v) s = .next (regionInvalidateEffect r .full v.toNat s) :=
    exec_regionInvalidate (decide_eq_true hr)
  refine ⟨fun hv => ⟨fun hx hok => ?_, fun hx hok => ?_, fun hx => ?_⟩, fun hv => ⟨fun hx => ?_, fun hx => ?_⟩⟩
  · rw [hval, regionValidate_ctrl hv, rgnWrite_validates hp hx hv hok]
  · rw [hval, regionValidate_ctrl hv, rgnWrite_refused hp hx hv hok]
  · rw [hval, regionValidate_ctrl hv, rgnWrite_valid hp hx hv]
  · rw [hinv, regionInvalidate_ctrl hv, rgnWrite_invalidates hp hx hv]
  · rw [hinv, regionInvalidate_ctrl hv, rgnWrite_fields hp hx hv]

/-! ### Doorbells (R347 to R349) -/

/-- Starting a read changes that mark and the re-poll count alone. -/
@[simp] theorem startRead_fields : (startRead x).dbTail = x.dbTail ∧ (startRead x).dbSeq = x.dbSeq ∧ (startRead x).cqHead = x.cqHead ∧
    (startRead x).state = x.state ∧ (startRead x).head = x.head ∧ (startRead x).accepted = x.accepted ∧
    (startRead x).expSeq = x.expSeq ∧ (startRead x).sqPhase = x.sqPhase ∧ (startRead x).qtype = x.qtype := by
  unfold startRead
  split
  next => exact ⟨rfl, rfl, rfl, rfl, rfl, rfl, rfl, rfl, rfl⟩
  next => exact ⟨rfl, rfl, rfl, rfl, rfl, rfl, rfl, rfl, rfl⟩

/-- What an accepted doorbell makes of the context. -/
theorem acceptDoorbell_fields {tail seq : Nat} :
    (acceptDoorbell x v tail seq).dbTail = tail ∧ (acceptDoorbell x v tail seq).dbSeq = seq ∧
    (acceptDoorbell x v tail seq).cqHead = (if bit v 63 then fld v 47 32 else x.cqHead) ∧
    (acceptDoorbell x v tail seq).state = (if bit v 62 ∧ x.state = .parked then .running else x.state) ∧
    (acceptDoorbell x v tail seq).head = x.head ∧ (acceptDoorbell x v tail seq).accepted = x.accepted := by
  cases hc : bit v 63 <;> by_cases hp : bit v 62 = true ∧ x.state = .parked <;> simp [acceptDoorbell, hc, hp]

theorem ringDoorbell_unheld {w : Word} (hp : queuePart s q = none) :
    ringDoorbell q w s = raiseEvent evRegionFault q (causeOf evRegionFault 5) (discardDoorbell q s) := by
  simp [ringDoorbell, hp]

theorem ringDoorbell_discarded {w : Word} (hp : queuePart s q = some p) (h : (queueOf s q).enable = false ∨
    ¬ (fld w.toNat 61 48 = 0 ∧ fld w.toNat 15 0 < 2 ^ (queueOf s q).sqLog ∧ fld w.toNat 47 32 < 2 ^ (queueOf s q).cqLog)) :
    ringDoorbell q w s = discardDoorbell q s := by
  cases he : (queueOf s q).enable with
  | false => simp [ringDoorbell, hp, he]
  | true =>
    have hl := h.resolve_left (by simp [he])
    have hbad : (decide (fld w.toNat 61 48 ≠ 0) || decide (2 ^ (queueOf s q).sqLog ≤ fld w.toNat 15 0) ||
        decide (2 ^ (queueOf s q).cqLog ≤ fld w.toNat 47 32)) = true := by
      simp only [Bool.or_eq_true, decide_eq_true_eq]
      omega
    simp only [ringDoorbell, hp, he, hbad, Bool.not_true, Bool.false_eq_true, if_false, if_true]

theorem ringDoorbell_legal {w : Word} (hp : queuePart s q = some p) (he : (queueOf s q).enable = true)
    (hl : fld w.toNat 61 48 = 0 ∧ fld w.toNat 15 0 < 2 ^ (queueOf s q).sqLog ∧ fld w.toNat 47 32 < 2 ^ (queueOf s q).cqLog) {n : Nat}
    (hn : (fld w.toNat 15 0 + 2 ^ (queueOf s q).sqLog - (queueOf s q).dbTail) % 2 ^ (queueOf s q).sqLog = n) :
    ringDoorbell q w s = if (n = 0 ∧ fld w.toNat 31 16 = (queueOf s q).dbSeq) ∨ fld w.toNat 31 16 = ((queueOf s q).dbSeq + n) % 65536
      then setQueue q (acceptDoorbell (queueOf s q) w.toNat (fld w.toNat 15 0) (fld w.toNat 31 16)) s else bump 0x0261 q 1 s := by
  obtain ⟨h1, h2, h3⟩ := hl
  simp [ringDoorbell, hp, he, h1, Nat.not_le.mpr h2, Nat.not_le.mpr h3, hn]

/-- Settles O24, by the cases of a doorbell value at its queue. -/
theorem doorbellIsTakenOrDiscarded : Obligations.DoorbellIsTakenOrDiscarded := by
  intro q v s hq x w tail seq n discarded legal current
  have hex : exec (.doorbell q v) s = .next (ringDoorbell q v s) := exec_doorbell (decide_eq_true hq)
  refine ⟨fun hp => ?_, fun hp h => ?_, fun hp he hl hc => ?_, fun hp he hl hc => ⟨acceptDoorbell x w tail seq, ?_, acceptDoorbell_fields⟩⟩
  · rw [hex, ringDoorbell_unheld hp]; rfl
  · obtain ⟨p, hp⟩ := Option.isSome_iff_exists.mp hp
    rw [hex, ringDoorbell_discarded hp h]; rfl
  · obtain ⟨p, hp⟩ := Option.isSome_iff_exists.mp hp
    rw [hex, ringDoorbell_legal hp he hl rfl, if_neg hc]
  · obtain ⟨p, hp⟩ := Option.isSome_iff_exists.mp hp
    rw [hex, ringDoorbell_legal hp he hl rfl, if_pos hc]

/-! ### Descriptors (R350 to R352) -/

/-- The context of a queue whose head has advanced. -/
theorem advanceHead_fields : (advanceHead x).head = (x.head + 1) % 2 ^ x.sqLog ∧ (advanceHead x).expSeq = (x.expSeq + 1) % 65536 ∧
    (advanceHead x).sqPhase = (if (x.head + 1) % 2 ^ x.sqLog = 0 then !x.sqPhase else x.sqPhase) ∧
    (advanceHead x).qtype = x.qtype ∧ (advanceHead x).accepted = x.accepted := by
  simp [advanceHead]

theorem badOpcode_qtype {y : QCtx} {d : List Word} (h : y.qtype = x.qtype) : badOpcode y d = badOpcode x d := by simp [badOpcode, h]

/-- Rejecting a bad opcode takes the oldest descriptor of the queue alone, and none where all are good. -/
theorem rejectOpcodes_put : ∃ a r, rejectOpcodes q (setQueue q x s) = setQueue q { x with accepted := a, recs := r } s ∧
    (x.accepted.all (fun d => !badOpcode x d.1) = true → a = x.accepted) := by
  unfold rejectOpcodes
  simp only [queueOf_setQueue]
  split
  next d t rest ha =>
    split
    next hb =>
      refine ⟨rest, _, setQueue_setQueue, fun hall => ?_⟩
      simp [ha] at hall hb
      simp [hall.1] at hb
    next => exact ⟨x.accepted, x.recs, rfl, fun _ => rfl⟩
  next => exact ⟨x.accepted, x.recs, rfl, fun _ => rfl⟩

/-- A current descriptor of a command queue is accepted behind those that wait. -/
theorem acceptDescriptor_command {d : List Word} (ht : (queueOf s q).qtype = 0) (hd : badOpcode (queueOf s q) d = false) :
    ∃ a r, acceptDescriptor q d s = setQueue q { advanceHead (queueOf s q) with accepted := a, recs := r } s ∧
      ((queueOf s q).accepted.all (fun e => !badOpcode (queueOf s q) e.1) = true → a = (queueOf s q).accepted ++ [(d, now s)]) := by
  obtain ⟨-, -, -, hqt, hacc⟩ := advanceHead_fields (x := queueOf s q)
  have hgo : acceptDescriptor q d s = rejectOpcodes q (setQueue q { advanceHead (queueOf s q) with
      accepted := (advanceHead (queueOf s q)).accepted ++ [(d, now s)] } s) := by simp [acceptDescriptor, hqt, ht]
  obtain ⟨a, r, hr, ha⟩ := rejectOpcodes_put (q := q) (s := s)
    (x := { advanceHead (queueOf s q) with accepted := (advanceHead (queueOf s q)).accepted ++ [(d, now s)] })
  refine ⟨a, r, hgo.trans hr, fun hall => (ha ?_).trans (by rw [hacc])⟩
  rw [hacc, List.all_append, Bool.and_eq_true]
  refine ⟨List.all_eq_true.mpr fun e he => ?_, ?_⟩
  · exact (congrArg not (badOpcode_qtype hqt)).trans (List.all_eq_true.mp hall e he)
  · rw [List.all_cons, List.all_nil, Bool.and_true]
    exact (congrArg not (badOpcode_qtype hqt)).trans (congrArg not hd)

section
variable (hr : (queueOf s q).reading = true) (hs : (queueOf s q).state = .running)
include hr hs

theorem descriptorReturn_current (h : bit (wd (readDescriptor q s).1 0).toNat 47 = (queueOf (readDescriptor q s).2 q).sqPhase)
    (h' : wf (wd (readDescriptor q s).1 0) 63 48 = (queueOf (readDescriptor q s).2 q).expSeq) :
    descriptorReturnEffect q s = acceptDescriptor q (readDescriptor q s).1 (readDescriptor q s).2 := by
  simp [descriptorReturnEffect, hr, hs, h, h']

theorem descriptorReturn_stale (h : bit (wd (readDescriptor q s).1 0).toNat 47 ≠ (queueOf (readDescriptor q s).2 q).sqPhase ∨
      wf (wd (readDescriptor q s).1 0) 63 48 ≠ (queueOf (readDescriptor q s).2 q).expSeq) :
    descriptorReturnEffect q s = if 16 ≤ (queueOf (readDescriptor q s).2 q).repollNo then parkAhead q (readDescriptor q s).2
      else setQueue q { queueOf (readDescriptor q s).2 q with
        reading := false, repoll := some ((queueOf (readDescriptor q s).2 q).repollNo + 1,
          now (readDescriptor q s).2 + 64 * 2 ^ min (queueOf (readDescriptor q s).2 q).repollNo 6) } (readDescriptor q s).2 := by
  have hn : ¬ (bit (wd (readDescriptor q s).1 0).toNat 47 = (queueOf (readDescriptor q s).2 q).sqPhase ∧
      wf (wd (readDescriptor q s).1 0) 63 48 = (queueOf (readDescriptor q s).2 q).expSeq) := fun ⟨h1, h2⟩ => h.elim (· h1) (· h2)
  simp [descriptorReturnEffect, hr, hs, hn]

end

/-- Settles O25: a descriptor that is read is current, or stale for the n-th time; a wait that ends reads it again. -/
theorem descriptorsAreAcceptedRepolledOrParked : Obligations.DescriptorsAreAcceptedRepolledOrParked := by
  intro q s hq hr hs r x phase seq
  have hex : exec (.descriptorReadReturn q) s = .next (descriptorReturnEffect q s) := exec_descriptorReadReturn (decide_eq_true hq)
  refine ⟨fun hphase hseq ht hb => ?_, fun hst hn => ?_, fun hst hn => ?_, fun i t hi => ?_⟩
  · obtain ⟨a, rs, ha, hall⟩ := acceptDescriptor_command (s := r.2) (q := q) (d := r.1) ht hb
    obtain ⟨hhead, hseq', hph, -, -⟩ := advanceHead_fields (x := x)
    have hgo : exec (.descriptorReadReturn q) s = .next (setQueue q { advanceHead x with accepted := a, recs := rs } r.2) := by
      rw [hex, descriptorReturn_current hr hs hphase hseq, ha]
    exact ⟨_, hgo, hhead, hseq', hph, hall⟩
  · rw [hex, descriptorReturn_stale hr hs hst, if_neg (Nat.not_le.mpr hn)]
  · rw [hex, descriptorReturn_stale hr hs hst, if_pos hn]
  · rw [exec_descriptorRepoll (decide_eq_true hq)]
    simp [repollEffect, hi, hs]

end Sys2Proof.Machine
end

section
/-! PROOF. Loads and stores of the harts by their address range (O26, O27). -/

namespace Sys2Proof.Machine

variable {s : State} {h a n u rd : Nat} {d sg : Bool} {i : Instr}

/-- An instruction that issues has its effect. -/
theorem exec_issued (hex : exec i s = .next (issueIns h i s)) (hi : issues s h i = true) : exec i s = .next (insRun i s) :=
  hex.trans (congrArg _ (issueIns_go hi))

/-! ### Accesses of a hart to the UMR -/

/-- The lines of a hart's access, each behind the requests that wait for it. -/
def comes (h u n : Nat) (write : Bool) (s : State) : State := (linesOf u n).foldl (fun s l => arrive (.hart h) write false l s) s

/-- The state in which a hart's read is performed, by its path. -/
def readFrom (h u n : Nat) (direct : Bool) (s : State) : State := if direct then s else comes h u n false s

/-- A load of the UMR whose bytes are read. -/
theorem hartAccess_load {acq : Option Scope} {v : List Byte} (hw : readWaits s (.hart h) d u n = none)
    (hv : (hartRead h u n d acq (readFrom h u n d s)).1 = some v) :
    hartAccess h u d (.load rd n sg acq) s = wrX h rd (loadValue v n sg) (hartRead h u n d acq (readFrom h u n d s)).2 := by
  have hgo : hartAccess h u d (.load rd n sg acq) s = performHart h u d (.load rd n sg acq) (readFrom h u n d s) := by
    simp only [hartAccess, hw]; rfl
  rw [hgo]
  cases hr : hartRead h u n d acq (readFrom h u n d s) with
  | mk o t =>
    rw [hr] at hv
    subst hv
    simp [performHart, hr]

/-- A load of a poisoned line raises the load access fault (R196). -/
theorem hartAccess_load_poisoned {acq : Option Scope} (hw : readWaits s (.hart h) d u n = none)
    (hv : (hartRead h u n d acq (readFrom h u n d s)).1 = none) :
    hartAccess h u d (.load rd n sg acq) s =
      raiseTrap h .loadFault (if d then directBase + u else u) (hartRead h u n d acq (readFrom h u n d s)).2 := by
  have hgo : hartAccess h u d (.load rd n sg acq) s = performHart h u d (.load rd n sg acq) (readFrom h u n d s) := by
    simp only [hartAccess, hw]; rfl
  rw [hgo]
  cases hr : hartRead h u n d acq (readFrom h u n d s) with
  | mk o t =>
    rw [hr] at hv
    subst hv
    simp [performHart, hr]

theorem hartAccess_load_held {acq : Option Scope} {x : Nat} (hw : readWaits s (.hart h) d u n = some x) :
    hartAccess h u d (.load rd n sg acq) s = holdRead x (.hartOp h u d (.load rd n sg acq)) s := by
  simp [hartAccess, hw]

/-- The outcomes of a load of the UMR, by one path or the other. -/
theorem hartAccess_load_cases {gives : State → Prop} (hg : gives (hartAccess h u d (.load rd n sg none) s)) :
    (readWaits s (.hart h) d u n = none →
      (∀ v, (hartRead h u n d none (readFrom h u n d s)).1 = some v →
        gives (wrX h rd (loadValue v n sg) (hartRead h u n d none (readFrom h u n d s)).2)) ∧
      ((hartRead h u n d none (readFrom h u n d s)).1 = none →
        gives (raiseTrap h .loadFault (if d then directBase + u else u) (hartRead h u n d none (readFrom h u n d s)).2))) ∧
    (∀ x, readWaits s (.hart h) d u n = some x → gives (holdRead x (.hartOp h u d (.load rd n sg none)) s)) :=
  ⟨fun hw => ⟨fun _ hv => hartAccess_load hw hv ▸ hg, fun hv => hartAccess_load_poisoned hw hv ▸ hg⟩,
    fun _ hw => hartAccess_load_held hw ▸ hg⟩

/-! ### Loads by range (R22 to R26, R278, R474) -/

/-- An 8-byte number read as bytes, signed or not, is itself. -/
theorem loadValue_word {v : Nat} : loadValue (leBytes 8 v) 8 sg = word v := by
  have hm : leNat (leBytes 8 v) = v % 2 ^ 64 := leNat_leBytes
  have hsext : toCode 64 (sext (8 * 8) (v % 2 ^ 64)) = v % 2 ^ 64 := by
    unfold toCode sext
    split <;> omega
  unfold loadValue
  rw [hm, hsext]
  cases sg <;> exact BitVec.eq_of_toNat_eq (by simp [word])

theorem accOf_full {o : Nat} : accOf o 8 = .full := rfl

theorem accOf_half {o : Nat} : accOf o 4 = if o % 8 = 0 then .lo else .hi := rfl

theorem regsLoad_word {o : Nat} (ho : o % 8 = 0) : regsLoad h rd o 8 sg s = rcClear o .full (wrX h rd (word (regRead s o)) s) := by
  have h8 : o / 8 * 8 = o := by omega
  simp [regsLoad, accOf_full, h8, loadValue_word]

theorem regsLoad_half {o : Nat} : regsLoad h rd o 4 sg s = rcClear (o / 8 * 8) (if o % 8 = 0 then .lo else .hi)
    (wrX h rd (loadValue (leBytes 4 (if o % 8 = 0 then regRead s (o / 8 * 8) % 2 ^ 32 else regRead s (o / 8 * 8) / 2 ^ 32)) 4 sg) s) := by
  by_cases h8 : o % 8 = 0
  · simp [regsLoad, accOf_half, h8]
  · simp [regsLoad, accOf_half, h8]

theorem loadEffect_regs {o : Nat} (hs : hartSpace a n = .regs o) (hn : n = 4 ∨ n = 8) (ho : o % n = 0) :
    loadEffect h rd a n sg s = regsLoad h rd o n sg s := by
  simp [loadEffect, hs, hn, ho]

theorem loadEffect_regs_fault {o : Nat} (hs : hartSpace a n = .regs o) (hb : (n ≠ 4 ∧ n ≠ 8) ∨ o % n ≠ 0) :
    loadEffect h rd a n sg s = raiseTrap h .loadFault a s := by
  have hno : ¬ (((n = 4 || n = 8) && decide (o % n = 0)) = true) := by
    simp only [Bool.and_eq_true, Bool.or_eq_true, decide_eq_true_eq]
    omega
  simp only [loadEffect, hs]
  exact if_neg hno

theorem pcieLoad_up {p o : Nat} (hl : setHas s.pcie.link (subOf s p o) = true) : pcieLoad h rd p o n sg s =
    send (.pcieRead (subOf s p o) (pcieBase + p * 2 ^ 44 + o) n)
      (modHart h (fun x => { x with pcieLoads := x.pcieLoads ++ [(rd, pcieBase + p * 2 ^ 44 + o, n, sg)] }) s) := by
  simp [pcieLoad, hl]

theorem pcieLoad_down {p o : Nat} (hl : setHas s.pcie.link (subOf s p o) = false) : pcieLoad h rd p o n sg s =
    wrX h rd (loadValue (List.replicate n 255#8) n sg) { s with pcie := { s.pcie with downs := satAdd max32 s.pcie.downs 1 } } := by
  simp [pcieLoad, hl]

/-- A load that leaves no line of another package asks for that line alone (R276). -/
theorem remoteLoad_line {p f op : Nat} (hn : n ≤ 64 - f % 64) :
    remoteLoad h rd p f n op sg s = sendReq p op (f / 64 * 64) 0 [] (.hart h) (some (rd, f % 64, n, sg)) s := by
  simp [remoteLoad, hn]

/-- Settles O26: by the range of the address, each load's effect is that of its path. -/
theorem loadsGoByAddressRange : Obligations.LoadsGoByAddressRange := by
  intro h rd a n sg s hw hi gives faults umr
  have hex : exec (.hartLoad h rd a n sg) s = .next (loadEffect h rd a n sg s) := exec_issued (exec_hartLoad hw) hi
  have hgives : ∀ t, loadEffect h rd a n sg s = t → gives t := fun t ht => hex.trans (congrArg _ ht)
  refine ⟨fun u hs => ?_, fun u hs => ?_, fun q o hs => ?_, fun o hs => ⟨fun hn ho => ?_, fun hn ho => ?_, fun hb => ?_⟩,
    fun p o hs => ⟨fun hl => ?_, fun hl => ?_⟩, fun k o hs => ⟨fun u hr => ?_, fun p f hr hn => ?_, fun hr => ?_⟩, fun hs => ?_⟩
  · exact hartAccess_load_cases (hgives _ (by simp [loadEffect, hs]))
  · exact hartAccess_load_cases (hgives _ (by simp [loadEffect, hs]))
  · exact hgives _ (by simp [loadEffect, hs])
  · subst hn
    exact hgives _ ((loadEffect_regs hs (.inr rfl) ho).trans (regsLoad_word ho))
  · subst hn
    exact hgives _ ((loadEffect_regs hs (.inl rfl) ho).trans regsLoad_half)
  · exact hgives _ (loadEffect_regs_fault hs hb)
  · exact hgives _ (Eq.trans (by simp [loadEffect, hs]) (pcieLoad_up hl))
  · exact hgives _ (Eq.trans (by simp [loadEffect, hs]) (pcieLoad_down hl))
  · exact hartAccess_load_cases (hgives _ (by simp [loadEffect, hs, hr]))
  · exact hgives _ (Eq.trans (by simp [loadEffect, hs, hr]) (remoteLoad_line hn))
  · exact hgives _ (by simp [loadEffect, hs, hr])
  · exact hgives _ (by simp [loadEffect, hs])

/-! ### Stores by range (R24 to R26, R154, R278, R474) -/

theorem umrStore_open {b : List Byte} {rel : Option Scope} (hp : protectedRange s u b.length = false) :
    umrStore h a u d b rel s = if d then dirWrite (.hart h) u b rel s else cohWrite (.hart h) u b rel s := by
  simp [umrStore, hp]

theorem umrStore_protected {b : List Byte} {rel : Option Scope} (hp : protectedRange s u b.length = true) :
    umrStore h a u d b rel s = raiseTrap h .storeFault a (raiseEvent evRegionFault h (causeOf evRegionFault 1) s) := by
  simp [umrStore, hp]

/-- The outcomes of a store to the UMR, by one path or the other. -/
theorem umrStore_cases {gives : State → Prop} {v : Nat} (hg : gives (umrStore h a u d (leBytes n v) none s)) :
    (protectedRange s u n = false →
      gives (if d then dirWrite (.hart h) u (leBytes n v) none s else cohWrite (.hart h) u (leBytes n v) none s)) ∧
    (protectedRange s u n = true → gives (raiseTrap h .storeFault a (raiseEvent evRegionFault h (causeOf evRegionFault 1) s))) :=
  ⟨fun hp => umrStore_open (a := a) (b := leBytes n v) (by rwa [leBytes_length]) ▸ hg,
    fun hp => umrStore_protected (a := a) (b := leBytes n v) (by rwa [leBytes_length]) ▸ hg⟩

theorem storeEffect_regs {o : Nat} {v : Word} (hs : hartSpace a n = .regs o) (hn : n = 4 ∨ n = 8) (ho : o % n = 0) :
    storeEffect h a n v s = regStore o n v s := by
  simp [storeEffect, hs, hn, ho]

theorem storeEffect_regs_fault {o : Nat} {v : Word} (hs : hartSpace a n = .regs o) (hb : (n ≠ 4 ∧ n ≠ 8) ∨ o % n ≠ 0) :
    storeEffect h a n v s = raiseTrap h .storeFault a s := by
  have hno : ¬ (((n = 4 || n = 8) && decide (o % n = 0)) = true) := by
    simp only [Bool.and_eq_true, Bool.or_eq_true, decide_eq_true_eq]
    omega
  simp only [storeEffect, hs]
  exact if_neg hno

theorem regStore_word {o : Nat} {v : Word} (ho : o % 8 = 0) : regStore o 8 v s = regWrite o .full v.toNat s := by
  have h8 : o / 8 * 8 = o := by omega
  rw [regStore, h8, accOf_full]

theorem doorStore_rings {q o : Nat} {v : Word} (hn : n = 8) (ho : o = 0) : doorStore h a q o n v s = ringDoorbell q v s := by
  simp [doorStore, hn, ho]

theorem doorStore_ignored {q o : Nat} {v : Word} (hn : n = 8) (ho : o ≠ 0) : doorStore h a q o n v s = discardDoorbell q s := by
  simp [doorStore, hn, ho]

theorem doorStore_fault {q o : Nat} {v : Word} (hn : n ≠ 8) : doorStore h a q o n v s = raiseTrap h .storeFault a s := if_pos hn

theorem pcieStore_up {p o : Nat} {b : List Byte} (hl : setHas s.pcie.link (subOf s p o) = true) :
    pcieStore p o b s = send (.pcieWrite (subOf s p o) (pcieBase + p * 2 ^ 44 + o) b) s := by
  simp [pcieStore, hl]

theorem pcieStore_down {p o : Nat} {b : List Byte} (hl : setHas s.pcie.link (subOf s p o) = false) :
    pcieStore p o b s = { s with pcie := { s.pcie with downs := satAdd max32 s.pcie.downs 1 } } := by
  simp [pcieStore, hl]

/-- Settles O27: by the range of the address, each store's effect is that of its path. -/
theorem storesGoByAddressRange : Obligations.StoresGoByAddressRange := by
  intro h rs a n s hw hi v d gives faults umr
  have hex : exec (.hartStore h rs a n) s = .next (storeEffect h a n v s) := exec_issued (exec_hartStore hw) hi
  have hgives : ∀ t, storeEffect h a n v s = t → gives t := fun t ht => hex.trans (congrArg _ ht)
  refine ⟨fun u hs => ?_, fun u hs => ?_, fun q o hs => ⟨fun hn ho => ?_, fun hn ho => ?_, fun hn => ?_⟩,
    fun o hs => ⟨fun hn ho => ?_, fun hn ho => ?_, fun hb => ?_⟩, fun p o hs => ⟨fun hl => ?_, fun hl => ?_⟩,
    fun k o hs => ⟨fun u hr => ?_, fun p f hr => ?_, fun hr => ?_⟩, fun hs => ?_⟩
  · exact umrStore_cases (hgives _ (by simp [storeEffect, hs]))
  · exact umrStore_cases (hgives _ (by simp [storeEffect, hs]))
  · exact hgives _ (Eq.trans (b := doorStore h a q o n v s) (by simp [storeEffect, hs]) (doorStore_rings hn ho))
  · exact hgives _ (Eq.trans (b := doorStore h a q o n v s) (by simp [storeEffect, hs]) (doorStore_ignored hn ho))
  · exact hgives _ (Eq.trans (b := doorStore h a q o n v s) (by simp [storeEffect, hs]) (doorStore_fault hn))
  · subst hn
    exact hgives _ ((storeEffect_regs hs (.inr rfl) ho).trans (regStore_word ho))
  · subst hn
    exact hgives _ (storeEffect_regs hs (.inl rfl) ho)
  · exact hgives _ (storeEffect_regs_fault hs hb)
  · exact hgives _ (Eq.trans (b := pcieStore p o d s) (by simp [storeEffect, hs, d]) (pcieStore_up hl))
  · exact hgives _ (Eq.trans (b := pcieStore p o d s) (by simp [storeEffect, hs, d]) (pcieStore_down hl))
  · exact umrStore_cases (hgives _ (by simp [storeEffect, hs, remoteStore, hr]))
  · exact hgives _ (by simp [storeEffect, hs, remoteStore, hr, d])
  · exact hgives _ (by simp [storeEffect, hs, remoteStore, hr])
  · exact hgives _ (by simp [storeEffect, hs])

end Sys2Proof.Machine
end

section
/-! PROOF. Atomics, scoped instructions, cache-block operations, the range-flush engine, CSRs and time at the harts
(O33 to O36, O38, O39). -/

namespace Sys2Proof.Machine

variable {s t : State} {h a n u rd rs : Nat} {d sg aq rl : Bool} {i : Instr}

/-! ### Atomics (R275, R276, R285) -/

/-- An AMO whose old bytes are read writes the new ones, but for a compare-and-swap that fails. -/
theorem performHart_amo {op : AmoOp} {src cmp : Nat} {v : List Byte} (hw : writeHeld t (u / extSize) = false)
    (hv : (hartRead h u n false (relOf aq) t).1 = some v) :
    performHart h u false (.amo op rd src cmp n aq rl) t = wrLoaded h rd n v
      (if op = .cas ∧ leNat v ≠ cmp % 2 ^ (8 * n) then (hartRead h u n false (relOf aq) t).2
       else writeOwned h (u / 64) (u % 64) (leBytes n (amoResult op n (leNat v) src cmp)) (relOf rl) (hartRead h u n false (relOf aq) t).2) := by
  cases hr : hartRead h u n false (relOf aq) t with
  | mk o t1 =>
    rw [hr] at hv
    subst hv
    simp [performHart, hw, hr]

theorem performHart_lr {v : List Byte} (hv : (hartRead h u n false (relOf aq) t).1 = some v) :
    performHart h u false (.lr rd n aq) t = wrX h rd (loadValue v n true)
      (modHart h (fun x => { x with resv := some (u / 64) }) (hartRead h u n false (relOf aq) t).2) := by
  cases hr : hartRead h u n false (relOf aq) t with
  | mk o t1 =>
    rw [hr] at hv
    subst hv
    simp [performHart, hr]

theorem performHart_sc {v : Nat} (hr : (hartOf t h).resv = some (u / 64)) (hw : writeHeld t (u / extSize) = false) :
    performHart h u false (.sc rd v n aq rl) t = wrX h rd 0 (modHart h (fun x => { x with resv := none })
      (writeOwned h (u / 64) (u % 64) (leBytes n v) (relOf rl) t)) := by
  simp [performHart, hr, hw]

theorem performHart_sc_fails {v : Nat} (hr : (hartOf t h).resv ≠ some (u / 64)) :
    performHart h u false (.sc rd v n aq rl) t = wrX h rd 1 (modHart h (fun x => { x with resv := none }) t) := by
  simp [performHart, hr]

section
variable {op : State → HartOp} {store : Bool}

theorem atomicRow_misaligned (hs : hartSpace a n = .umr u) (ha : a % n ≠ 0) :
    atomicRow h a n store op s = raiseTrap h (if store then .storeMisaligned else .loadMisaligned) a s := by
  simp [atomicRow, hs, ha]

theorem atomicRow_fault (hs : ∀ x, hartSpace a n ≠ .umr x) :
    atomicRow h a n store op s = raiseTrap h (if store then .storeFault else .loadFault) a s := by
  unfold atomicRow
  split
  next u hu => exact absurd hu (hs u)
  next => rfl

theorem atomicRow_protected (hs : hartSpace a n = .umr u) (ha : a % n = 0) (hp : protectedRange s u n = true) :
    atomicRow h a n true op s = raiseTrap h .storeFault a (raiseEvent evRegionFault h (causeOf evRegionFault 1) s) := by
  simp [atomicRow, hs, ha, hp]

theorem atomicRow_store (hs : hartSpace a n = .umr u) (ha : a % n = 0) (hp : protectedRange s u n = false) :
    atomicRow h a n true op s = hartAccess h u false (op s) s := by
  simp [atomicRow, hs, ha, hp]

theorem atomicRow_load (hs : hartSpace a n = .umr u) (ha : a % n = 0) :
    atomicRow h a n false op s = hartAccess h u false (op s) s := by
  simp [atomicRow, hs, ha]

end

/-- An atomic access is performed behind the requests that wait for its line. -/
theorem hartAccess_amo {op : AmoOp} {src cmp : Nat} (hw : readWaits s (.hart h) false u n = none) :
    hartAccess h u false (.amo op rd src cmp n aq rl) s = performHart h u false (.amo op rd src cmp n aq rl) (comes h u n true s) := by
  simp [hartAccess, hw, comes]

theorem hartAccess_lr (hw : readWaits s (.hart h) false u n = none) :
    hartAccess h u false (.lr rd n aq) s = performHart h u false (.lr rd n aq) (comes h u n false s) := by
  simp [hartAccess, hw, comes]

theorem hartAccess_sc {v : Nat} (hw : readWaits s (.hart h) false u n = none) :
    hartAccess h u false (.sc rd v n aq rl) s = performHart h u false (.sc rd v n aq rl) (comes h u n true s) := by
  simp [hartAccess, hw, comes]

/-- Settles O33, by the range and the alignment of the address, then by what the read finds. -/
theorem atomicsReadModifyWrite : Obligations.AtomicsReadModifyWrite := by
  intro h rd rs a n u aq rl op s come ready stops refuses
  refine ⟨fun hw hi => ?_, fun hw hi => ?_, fun hw hi => ?_⟩
  · have hex : exec (.amo h op rd rs a n aq rl) s = .next (amoEffect h op rd rs a n aq rl s) := exec_issued (exec_amo hw) hi
    refine ⟨fun v hr hp hwr hv => ?_, ⟨fun hs ha => ?_, fun hs => ?_⟩, fun hs ha hp => ?_⟩
    · obtain ⟨hs, ha, hwait⟩ := hr
      exact hex.trans (congrArg _ ((atomicRow_store hs ha hp).trans ((hartAccess_amo hwait).trans (performHart_amo hwr hv))))
    · exact hex.trans (congrArg _ (atomicRow_misaligned hs ha))
    · exact hex.trans (congrArg _ (atomicRow_fault hs))
    · exact hex.trans (congrArg _ (atomicRow_protected hs ha hp))
  · have hex : exec (.lr h rd a n aq rl) s = .next (lrEffect h rd a n aq s) := exec_issued (exec_lr hw) hi
    refine ⟨fun v hr hv => ?_, fun hs ha => ?_, fun hs => ?_⟩
    · obtain ⟨hs, ha, hwait⟩ := hr
      exact hex.trans (congrArg _ ((atomicRow_load hs ha).trans ((hartAccess_lr hwait).trans (performHart_lr hv))))
    · exact hex.trans (congrArg _ (atomicRow_misaligned hs ha))
    · exact hex.trans (congrArg _ (atomicRow_fault hs))
  · have hex : exec (.sc h rd rs a n aq rl) s = .next (scEffect h rd rs a n aq rl s) := exec_issued (exec_sc hw) hi
    refine ⟨fun hr hp => ?_, ⟨fun hs ha => ?_, fun hs => ?_⟩, fun hs ha hp => ?_⟩
    · obtain ⟨hs, ha, hwait⟩ := hr
      have hgo := hex.trans (congrArg _ ((atomicRow_store hs ha hp).trans (hartAccess_sc hwait)))
      exact ⟨fun hres hwr => hgo.trans (congrArg _ (performHart_sc hres hwr)), fun hres => hgo.trans (congrArg _ (performHart_sc_fails hres))⟩
    · exact hex.trans (congrArg _ (atomicRow_misaligned hs ha))
    · exact hex.trans (congrArg _ (atomicRow_fault hs))
    · exact hex.trans (congrArg _ (atomicRow_protected hs ha hp))

/-! ### Scoped instructions (Table 10-5, R284 to R286, R290, R291) -/

/-- Scope code 3 names no scope. -/
theorem scopeOf_three {c : Nat} (hc : c = 3) : scopeOf c = none := by rw [hc]; rfl

theorem scopeOf_isSome {c : Nat} (hc : c ≤ 3) (hn : c ≠ 3) : (scopeOf c).isNone = false := by
  have h3 : c = 0 ∨ c = 1 ∨ c = 2 := by omega
  rcases h3 with rfl | rfl | rfl <;> rfl

section
variable {insn : BitVec 32} {sc : Scope}

theorem scfenceEffect_illegal (hc : isCustom insn.toNat 0 = true)
    (hb : fld insn.toNat 8 7 = 3 ∨ fld insn.toNat 31 28 ≠ 0 ∨ fld insn.toNat 19 15 ≠ 0 ∨ fld insn.toNat 11 9 ≠ 0) :
    scfenceEffect h insn s = raiseTrap h .illegal insn.toNat s := by
  have hbad : ((scopeOf (fld insn.toNat 8 7)).isNone || decide (fld insn.toNat 31 28 ≠ 0) || decide (fld insn.toNat 19 15 ≠ 0) ||
      decide (fld insn.toNat 11 9 ≠ 0)) = true := by
    rcases hb with hb | hb | hb | hb
    · simp [scopeOf_three hb]
    all_goals simp [hb]
  rw [scfenceEffect, if_neg (by simp [hc]), if_pos hbad]

theorem scfenceEffect_legal (hc : isCustom insn.toNat 0 = true) (h1 : fld insn.toNat 8 7 ≠ 3) (h2 : fld insn.toNat 31 28 = 0)
    (h3 : fld insn.toNat 19 15 = 0) (h4 : fld insn.toNat 11 9 = 0) : scfenceEffect h insn s = s := by
  have hle : fld insn.toNat 8 7 ≤ 3 := Nat.le_of_lt_succ (Nat.mod_lt _ (by decide))
  simp [scfenceEffect, hc, scopeOf_isSome hle h1, h2, h3, h4]

theorem scldEffect_illegal (hc : isCustom insn.toNat 1 = true)
    (hb : fld insn.toNat 31 30 = 3 ∨ fld insn.toNat 29 27 ≠ 0 ∨ fld insn.toNat 24 20 ≠ 0) :
    scldEffect h insn s = raiseTrap h .illegal insn.toNat s := by
  simp only [scldEffect, hc]
  rcases hb with hb | hb | hb
  · simp [scopeOf_three hb]
  all_goals
    cases scopeOf (fld insn.toNat 31 30) with
    | none => rfl
    | some sc => simp [hb]

theorem scldEffect_legal (hc : isCustom insn.toNat 1 = true) (hs : scopeOf (fld insn.toNat 31 30) = some sc) (h1 : fld insn.toNat 29 27 = 0)
    (h2 : fld insn.toNat 24 20 = 0) : scldEffect h insn s =
      scopedLoad h (fld insn.toNat 11 7) (rdX s h (fld insn.toNat 19 15)).toNat (2 ^ fld insn.toNat 26 25) sc s := by
  simp [scldEffect, hc, hs, h1, h2]

theorem scstEffect_illegal (hc : isCustom insn.toNat 2 = true)
    (hb : fld insn.toNat 31 30 = 3 ∨ fld insn.toNat 29 27 ≠ 0 ∨ fld insn.toNat 11 7 ≠ 0) :
    scstEffect h insn s = raiseTrap h .illegal insn.toNat s := by
  simp only [scstEffect, hc]
  rcases hb with hb | hb | hb
  · simp [scopeOf_three hb]
  all_goals
    cases scopeOf (fld insn.toNat 31 30) with
    | none => rfl
    | some sc => simp [hb]

theorem scstEffect_legal (hc : isCustom insn.toNat 2 = true) (hs : scopeOf (fld insn.toNat 31 30) = some sc) (h1 : fld insn.toNat 29 27 = 0)
    (h2 : fld insn.toNat 11 7 = 0) : scstEffect h insn s =
      scopedStore h (rdX s h (fld insn.toNat 19 15)).toNat (2 ^ fld insn.toNat 26 25) (rdX s h (fld insn.toNat 24 20)) sc s := by
  simp [scstEffect, hc, hs, h1, h2]

theorem qsubmitEffect_illegal (hc : isCustom insn.toNat 3 = true) (hb : fld insn.toNat 31 25 ≠ 0 ∨ fld insn.toNat 11 7 ≠ 0) :
    qsubmitEffect h insn s = raiseTrap h .illegal insn.toNat s := by
  rw [qsubmitEffect, if_neg (by simp [hc]), if_pos (by simpa using hb)]

theorem qsubmitEffect_rings {q : Nat} (hc : isCustom insn.toNat 3 = true) (h1 : fld insn.toNat 31 25 = 0) (h2 : fld insn.toNat 11 7 = 0)
    (hq : classify (rdX s h (fld insn.toNat 19 15)).toNat = .door q 0) :
    qsubmitEffect h insn s = ringDoorbell q (rdX s h (fld insn.toNat 24 20)) s := by
  simp [qsubmitEffect, hc, h1, h2, hq]

theorem qsubmitEffect_fault (hc : isCustom insn.toNat 3 = true) (h1 : fld insn.toNat 31 25 = 0) (h2 : fld insn.toNat 11 7 = 0)
    (hq : ∀ q, classify (rdX s h (fld insn.toNat 19 15)).toNat ≠ .door q 0) :
    qsubmitEffect h insn s = raiseTrap h .storeFault (rdX s h (fld insn.toNat 19 15)).toNat s := by
  rw [qsubmitEffect, if_neg (by simp [hc]), if_neg (by simp [h1, h2])]
  dsimp only
  split
  next q hq' => exact absurd hq' (hq q)
  next => rfl

end

section
variable {sc : Scope}

theorem scopedSpace_umr (hs : hartSpace a n = .umr u) : scopedSpace a n = true := by simp [scopedSpace, hs]

theorem scopedSpace_direct (hs : hartSpace a n = .direct u) : scopedSpace a n = true := by simp [scopedSpace, hs]

theorem scopedSpace_remote {k o : Nat} (hs : hartSpace a n = .remote k o) : scopedSpace a n = true := by simp [scopedSpace, hs]

theorem scopedLoad_fault (hs : scopedSpace a n = false) : scopedLoad h rd a n sc s = raiseTrap h .loadFault a s := by
  simp [scopedLoad, hs]

theorem scopedLoad_misaligned (hs : scopedSpace a n = true) (ha : a % n ≠ 0) : scopedLoad h rd a n sc s = raiseTrap h .loadMisaligned a s := by
  simp [scopedLoad, hs, ha]

theorem scopedLoad_access (ha : a % n = 0) (hs : hartSpace a n = (if d then .direct u else .umr u)) :
    scopedLoad h rd a n sc s = hartAccess h u d (.load rd n true (some sc)) s := by
  cases d with
  | false =>
    have hs : hartSpace a n = .umr u := hs
    simp [scopedLoad, scopedSpace_umr hs, ha, hs]
  | true =>
    have hs : hartSpace a n = .direct u := hs
    simp [scopedLoad, scopedSpace_direct hs, ha, hs]

theorem scopedLoad_remote {k o p f : Nat} (ha : a % n = 0) (hs : hartSpace a n = .remote k o) (hr : remoteReach s k o n = .other p f) :
    scopedLoad h rd a n sc s = remoteLoad h rd p f n (if sc = .consist then 1 else 0) true s := by
  simp [scopedLoad, scopedSpace_remote hs, ha, hs, hr]

theorem scopedStore_fault {v : Word} (hs : scopedSpace a n = false) : scopedStore h a n v sc s = raiseTrap h .storeFault a s := by
  simp [scopedStore, hs]

theorem scopedStore_misaligned {v : Word} (hs : scopedSpace a n = true) (ha : a % n ≠ 0) :
    scopedStore h a n v sc s = raiseTrap h .storeMisaligned a s := by
  simp [scopedStore, hs, ha]

theorem scopedStore_umr {v : Word} (ha : a % n = 0) (hs : hartSpace a n = .umr u) (hp : protectedRange s u n = false) :
    scopedStore h a n v sc s = cohWrite (.hart h) u (leBytes n v.toNat) (some sc) s := by
  simp [scopedStore, scopedSpace_umr hs, ha, hs, umrStore, hp]

theorem scopedStore_direct {v : Word} (ha : a % n = 0) (hs : hartSpace a n = .direct u) (hp : protectedRange s u n = false) :
    scopedStore h a n v sc s = dirWrite (.hart h) u (leBytes n v.toNat) (some sc) s := by
  simp [scopedStore, scopedSpace_direct hs, ha, hs, umrStore, hp]

theorem scopedStore_remote {v : Word} {k o p f : Nat} (ha : a % n = 0) (hs : hartSpace a n = .remote k o)
    (hr : remoteReach s k o n = .other p f) :
    scopedStore h a n v sc s = remoteWrite p (if sc = .consist then 3 else 2) f (leBytes n v.toNat) (.hart h) s := by
  simp [scopedStore, scopedSpace_remote hs, ha, hs, remoteStore, hr]

end

/-- Each instruction of a hart issues through its row. -/
theorem exec_issueIns {tso : Bool} {op : AmoOp} {tgt : RegTarget} {v : Word} {w : BitVec 32} {pred succ : BitVec 4}
    (hm : i ∈ [.hartLoad h rd a n sg, .hartStore h rs a n, .scld h w, .scst h w, .scfence h w, .fence h tso pred succ, .qsubmit h w,
      .cboClean h a, .cboFlush h a, .cboInval h a, .cboZero h a, .amo h op rd rs a n aq rl, .lr h rd a n aq rl, .sc h rd rs a n aq rl,
      .qtimeRead h rd, .sipiWrite h v, .mipiWrite h v, .rfClean h v, .rfFlush h v, .rfInvalidate h v, .registerWrite h tgt v])
    (hw : i.wellFormed = true) : exec i s = .next (issueIns h i s) := by
  simp only [List.mem_cons, List.not_mem_nil, or_false] at hm
  rcases hm with rfl | rfl | rfl | rfl | rfl | rfl | rfl | rfl | rfl | rfl | rfl | rfl | rfl | rfl | rfl | rfl | rfl | rfl | rfl | rfl | rfl
  · exact exec_hartLoad hw
  · exact exec_hartStore hw
  · exact exec_scld hw
  · exact exec_scst hw
  · exact exec_scfence hw
  · exact exec_fence hw
  · exact exec_qsubmit hw
  · exact exec_cboClean hw
  · exact exec_cboFlush hw
  · exact exec_cboInval hw
  · exact exec_cboZero hw
  · exact exec_amo hw
  · exact exec_lr hw
  · exact exec_sc hw
  · exact exec_qtimeRead hw
  · exact exec_sipiWrite hw
  · exact exec_mipiWrite hw
  · exact exec_rfClean hw
  · exact exec_rfFlush hw
  · exact exec_rfInvalidate hw
  · exact exec_registerWrite hw

theorem mayIssue_needs (hm : mayIssue s h i = true) : (insRegs i).all (fun r => !regBusy s h r) = true ∧ acquireBehind s h = false := by
  simp only [mayIssue, Bool.and_eq_true, Bool.not_eq_true'] at hm
  obtain ⟨⟨⟨hregs, hacq⟩, -⟩, -⟩ := hm
  exact ⟨hregs, hacq⟩

/-- The first part of O34: what each scoped instruction does when it issues. -/
theorem scopedInstructions_issued {insn : BitVec 32} {tso : Bool} {pred succ : BitVec 4} (hh : h < 96) :
    let i := insn.toNat
    let rd := fld i 11 7
    let rs1 := fld i 19 15
    let rs2 := fld i 24 20
    let a := (rdX s h rs1).toNat
    let n := 2 ^ fld i 26 25
    (issues s h (.fence h tso pred succ) = true → exec (.fence h tso pred succ) s = .next s) ∧
    (isCustom i 0 = true → issues s h (.scfence h insn) = true →
      (fld i 8 7 = 3 ∨ fld i 31 28 ≠ 0 ∨ rs1 ≠ 0 ∨ fld i 11 9 ≠ 0 → exec (.scfence h insn) s = .next (raiseTrap h .illegal i s)) ∧
      (fld i 8 7 ≠ 3 → fld i 31 28 = 0 → rs1 = 0 → fld i 11 9 = 0 → exec (.scfence h insn) s = .next s)) ∧
    (isCustom i 1 = true → issues s h (.scld h insn) = true →
      (fld i 31 30 = 3 ∨ fld i 29 27 ≠ 0 ∨ rs2 ≠ 0 → exec (.scld h insn) s = .next (raiseTrap h .illegal i s)) ∧
      (∀ sc, scopeOf (fld i 31 30) = some sc → fld i 29 27 = 0 → rs2 = 0 →
        (scopedSpace a n = false → exec (.scld h insn) s = .next (raiseTrap h .loadFault a s)) ∧
        (scopedSpace a n = true → a % n ≠ 0 → exec (.scld h insn) s = .next (raiseTrap h .loadMisaligned a s)) ∧
        (∀ u dir v, a % n = 0 → hartSpace a n = (if dir then .direct u else .umr u) → readWaits s (.hart h) dir u n = none →
          let o := hartRead h u n dir (some sc) (if dir then s else (linesOf u n).foldl (fun s l => arrive (.hart h) false false l s) s)
          o.1 = some v → exec (.scld h insn) s = .next (wrX h rd (loadValue v n true) o.2)) ∧
        (∀ k o p f, a % n = 0 → hartSpace a n = .remote k o → remoteReach s k o n = .other p f → n ≤ 64 - f % 64 → exec (.scld h insn) s =
          .next (sendReq p (if sc = .consist then 1 else 0) (f / 64 * 64) 0 [] (.hart h) (some (rd, f % 64, n, true)) s)))) ∧
    (isCustom i 2 = true → issues s h (.scst h insn) = true →
      (fld i 31 30 = 3 ∨ fld i 29 27 ≠ 0 ∨ rd ≠ 0 → exec (.scst h insn) s = .next (raiseTrap h .illegal i s)) ∧
      (∀ sc, scopeOf (fld i 31 30) = some sc → fld i 29 27 = 0 → rd = 0 →
        let d := leBytes n (rdX s h rs2).toNat
        (scopedSpace a n = false → exec (.scst h insn) s = .next (raiseTrap h .storeFault a s)) ∧
        (scopedSpace a n = true → a % n ≠ 0 → exec (.scst h insn) s = .next (raiseTrap h .storeMisaligned a s)) ∧
        (∀ u, a % n = 0 → hartSpace a n = .umr u → protectedRange s u n = false →
          exec (.scst h insn) s = .next (cohWrite (.hart h) u d (some sc) s)) ∧
        (∀ u, a % n = 0 → hartSpace a n = .direct u → protectedRange s u n = false →
          exec (.scst h insn) s = .next (dirWrite (.hart h) u d (some sc) s)) ∧
        (∀ k o p f, a % n = 0 → hartSpace a n = .remote k o → remoteReach s k o n = .other p f →
          exec (.scst h insn) s = .next (remoteWrite p (if sc = .consist then 3 else 2) f d (.hart h) s)))) ∧
    (isCustom i 3 = true → issues s h (.qsubmit h insn) = true →
      (fld i 31 25 ≠ 0 ∨ rd ≠ 0 → exec (.qsubmit h insn) s = .next (raiseTrap h .illegal i s)) ∧
      (fld i 31 25 = 0 → rd = 0 →
        (∀ q, classify a = .door q 0 → exec (.qsubmit h insn) s = .next (ringDoorbell q (rdX s h rs2) s)) ∧
        ((∀ q, classify a ≠ .door q 0) → exec (.qsubmit h insn) s = .next (raiseTrap h .storeFault a s)))) := by
  intro i rd rs1 rs2 a n
  have hwf : okHart h = true := decide_eq_true hh
  refine ⟨fun hi => exec_issued (exec_fence hwf) hi, fun hc hi => ?_, fun hc hi => ?_, fun hc hi => ?_, fun hc hi => ?_⟩
  · have hex : exec (.scfence h insn) s = .next (scfenceEffect h insn s) := exec_issued (exec_scfence hwf) hi
    exact ⟨fun hb => hex.trans (congrArg _ (scfenceEffect_illegal hc hb)),
      fun h1 h2 h3 h4 => hex.trans (congrArg _ (scfenceEffect_legal hc h1 h2 h3 h4))⟩
  · have hex : exec (.scld h insn) s = .next (scldEffect h insn s) := exec_issued (exec_scld hwf) hi
    refine ⟨fun hb => hex.trans (congrArg _ (scldEffect_illegal hc hb)), fun sc hsc h1 h2 => ?_⟩
    have hgo : exec (.scld h insn) s = .next (scopedLoad h rd a n sc s) := hex.trans (congrArg _ (scldEffect_legal hc hsc h1 h2))
    exact ⟨fun hs => hgo.trans (congrArg _ (scopedLoad_fault hs)), fun hs ha => hgo.trans (congrArg _ (scopedLoad_misaligned hs ha)),
      fun u dir v ha hs hr hv => hgo.trans (congrArg _ ((scopedLoad_access ha hs).trans (hartAccess_load hr hv))),
      fun k o p f ha hs hr hn => hgo.trans (congrArg _ ((scopedLoad_remote ha hs hr).trans (remoteLoad_line hn)))⟩
  · have hex : exec (.scst h insn) s = .next (scstEffect h insn s) := exec_issued (exec_scst hwf) hi
    refine ⟨fun hb => hex.trans (congrArg _ (scstEffect_illegal hc hb)), fun sc hsc h1 h2 => ?_⟩
    have hgo : exec (.scst h insn) s = .next (scopedStore h a n (rdX s h rs2) sc s) := hex.trans (congrArg _ (scstEffect_legal hc hsc h1 h2))
    exact ⟨fun hs => hgo.trans (congrArg _ (scopedStore_fault hs)), fun hs ha => hgo.trans (congrArg _ (scopedStore_misaligned hs ha)),
      fun u ha hs hp => hgo.trans (congrArg _ (scopedStore_umr ha hs hp)),
      fun u ha hs hp => hgo.trans (congrArg _ (scopedStore_direct ha hs hp)),
      fun k o p f ha hs hr => hgo.trans (congrArg _ (scopedStore_remote ha hs hr))⟩
  · have hex : exec (.qsubmit h insn) s = .next (qsubmitEffect h insn s) := exec_issued (exec_qsubmit hwf) hi
    exact ⟨fun hb => hex.trans (congrArg _ (qsubmitEffect_illegal hc hb)), fun h1 h2 =>
      ⟨fun q hq => hex.trans (congrArg _ (qsubmitEffect_rings hc h1 h2 hq)), fun hq => hex.trans (congrArg _ (qsubmitEffect_fault hc h1 h2 hq))⟩⟩

/-- Settles O34: what a scoped instruction does, and when an instruction of a hart issues. -/
theorem scopedInstructionsFollowTheirCodes : Obligations.ScopedInstructionsFollowTheirCodes := by
  refine ⟨fun h insn tso pred succ s hh => scopedInstructions_issued hh, fun h rd rs a n sg aq rl tso op tgt v w pred succ s i hm hw => ?_⟩
  have hex : exec i s = .next (issueIns h i s) := exec_issueIns hm hw
  exact ⟨fun hb => hex.trans (congrArg _ (issueIns_reset hb)), fun hb hq hn => hex.trans (congrArg _ (issueIns_waits hb hq hn)),
    fun j rest hb hq hn => hex.trans (congrArg _ (issueIns_behind hb hq hn)), mayIssue_needs⟩

/-! ### Cache-block operations (R260, R279) -/

section
variable {on : Nat → Bool} {run : Nat → State → State}

theorem cboRow_runs (ht : cboTrap (hartOf s h) on = none) (ha : classify a = .umr u) :
    cboRow h a on run s = run (u / 64) (settleLine (u / 64) s) := by
  simp [cboRow, ht, ha]

theorem cboRow_fault (ht : cboTrap (hartOf s h) on = none) (ha : ∀ u, classify a ≠ .umr u) :
    cboRow h a on run s = raiseTrap h .storeFault a s := by
  cases hc : classify a with
  | umr u => exact absurd hc (ha u)
  | _ => simp [cboRow, ht, hc]

theorem cboRow_trap {x : Trap} (ht : cboTrap (hartOf s h) on = some x) : cboRow h a on run s = raiseTrap h x a s := by
  simp [cboRow, ht]

/-- The outcomes of a cache-block operation that issues. -/
theorem cboRow_outcomes (hex : exec i s = .next (cboRow h a on run s)) {r : Nat → State}
    (hr : ∀ u, run (u / 64) (settleLine (u / 64) s) = r u) :
    (cboTrap (hartOf s h) on = none →
      (∀ u, classify a = .umr u → exec i s = .next (r u)) ∧
      ((∀ u, classify a ≠ .umr u) → exec i s = .next (raiseTrap h .storeFault a s))) ∧
    (∀ t, cboTrap (hartOf s h) on = some t → exec i s = .next (raiseTrap h t a s)) :=
  ⟨fun ht => ⟨fun u hu => hex.trans (congrArg _ ((cboRow_runs ht hu).trans (hr u))), fun hu => hex.trans (congrArg _ (cboRow_fault ht hu))⟩,
    fun _ ht => hex.trans (congrArg _ (cboRow_trap ht))⟩

end

theorem cboTrap_machine {x : Hart} {on : Nat → Bool} (hm : x.mode = .m) : cboTrap x on = none := by simp [cboTrap, hm]

/-- Settles O35, by the exception, then by the block's address. -/
theorem cacheBlockOperations : Obligations.CacheBlockOperations := by
  intro h a s hh ha x s1 row
  have hwf : (okHart h && okAddr a) = true := Bool.and_eq_true_iff.mpr ⟨decide_eq_true hh, decide_eq_true ha⟩
  refine ⟨fun hi => ?_, fun hi => ?_, fun hi => ?_, fun hi => ?_, fun hm => ⟨cboTrap_machine hm, cboTrap_machine hm, cboTrap_machine hm⟩⟩
  · exact cboRow_outcomes (exec_issued (exec_cboClean hwf) hi) (fun _ => rfl)
  · exact cboRow_outcomes (exec_issued (exec_cboFlush hwf) hi) (fun _ => rfl)
  · exact cboRow_outcomes (exec_issued (exec_cboInval hwf) hi) (fun _ => rfl)
  · exact cboRow_outcomes (exec_issued (exec_cboZero hwf) hi) (fun _ => rfl)

/-! ### The range-flush engine (R261, R287 to R289) -/

/-- Nothing but the engines' requests is compared. -/
def SameRfs (s t : State) : Prop := t.rfs = s.rfs

theorem SameRfs.trans {u : State} (h : SameRfs s t) (k : SameRfs t u) : SameRfs s u := Eq.trans k h

theorem SameRfs.engine (e : SameRfs s t) (d : Nat) : rfOf t d = rfOf s d := by
  unfold rfOf
  rw [show t.rfs = s.rfs from e]

theorem SameRfs.ite {c : Prop} [Decidable c] {a b : State} (ha : SameRfs s a) (hb : SameRfs s b) : SameRfs s (if c then a else b) := by
  split
  next => exact ha
  next => exact hb

theorem SameRfs.foldl {α : Type} {f : State → α → State} (hf : ∀ s x, SameRfs s (f s x)) {l : List α} : SameRfs s (l.foldl f s) := by
  induction l generalizing s with
  | nil => rfl
  | cons x l ih => exact (hf s x).trans ih

theorem poke_sameRfs {b : List Byte} : SameRfs s (poke a b s) := by
  obtain ⟨e, he⟩ := poke_eq (s := s) (a := a) (bs := b)
  rw [he]; rfl

theorem forgetRelease_sameRfs {l : Nat} : SameRfs s (forgetRelease l s) := by
  obtain ⟨x, hx⟩ := forgetRelease_eq (s := s) (l := l)
  rw [hx]; rfl

theorem recordRelease_sameRfs {l : Nat} {sc : Scope} {r : Requester} : SameRfs s (recordRelease l sc r d s) := rfl

theorem waitHold_sameRfs {l : Nat} : SameRfs s (waitHold l s) := SameRfs.ite rfl rfl

/-- The owner's data merge with those of its home. -/
theorem merge_sameRfs {b : List Byte} {k : Nat} {x : Home} {c : Prop} [Decidable c] (e : SameRfs s t) :
    SameRfs s (if c then poke a b (setHome k x t) else t) := SameRfs.ite (SameRfs.trans (t := setHome k x t) e poke_sameRfs) e

theorem writeBackLine_sameRfs {l : Nat} : SameRfs s (writeBackLine l s) := by
  unfold writeBackLine
  dsimp only
  split
  next =>
    split
    next =>
      refine SameRfs.ite (SameRfs.trans ?_ recordRelease_sameRfs) ?_
      · exact merge_sameRfs (SameRfs.ite rfl rfl)
      · exact merge_sameRfs (SameRfs.ite rfl rfl)
    next =>
      refine SameRfs.ite (SameRfs.trans ?_ forgetRelease_sameRfs) ?_
      · exact merge_sameRfs (SameRfs.ite rfl rfl)
      · exact merge_sameRfs (SameRfs.ite rfl rfl)
  next => rfl

theorem recallLine_sameRfs {l : Nat} : SameRfs s (recallLine l s) :=
  SameRfs.ite (waitHold_sameRfs.trans writeBackLine_sameRfs) rfl

theorem loseReservations_sameRfs {l : Nat} {k : Option Nat} : SameRfs s (loseReservations l k s) := SameRfs.ite rfl rfl

theorem invalidateLine_sameRfs {l : Nat} : SameRfs s (invalidateLine l s) := by
  refine SameRfs.ite (SameRfs.trans ?_ loseReservations_sameRfs) rfl
  refine SameRfs.trans (waitHold_sameRfs (l := l)) (SameRfs.trans (writeBackLine_sameRfs (l := l)) ?_)
  exact SameRfs.ite rfl rfl

theorem dropLine_sameRfs {l : Nat} : SameRfs s (dropLine l s) := by
  refine SameRfs.ite (SameRfs.trans ?_ loseReservations_sameRfs) rfl
  exact SameRfs.ite rfl rfl

/-- What the engine does to lines leaves its requests. -/
theorem rfRange_sameRfs {op base len : Nat} : SameRfs s (rfRange op base len s) := by
  exact SameRfs.foldl fun _ _ =>
    SameRfs.ite recallLine_sameRfs (SameRfs.ite invalidateLine_sameRfs (waitHold_sameRfs.trans dropLine_sameRfs))

/-- A notice in a hart's file leaves the engines and its rfskip and rfgo. -/
theorem pend_rf {k f id : Nat} : SameRfs s (pend k f id s) ∧ (hartOf (pend k f id s) k).rfskip = (hartOf s k).rfskip ∧
    (hartOf (pend k f id s) k).rfgo = (hartOf s k).rfgo := by
  unfold pend
  split
  next => exact ⟨rfl, by simp [modHart], by simp [modHart]⟩
  next => exact ⟨rfl, rfl, rfl⟩

/-- A request that completes, before its notice. -/
def rfDone (pd : Nat) (q : RfReq) (s : State) : State :=
  modHart q.hart (fun x => { x with rfskip := q.ticket * 2 ^ 32 + min max32 (rangeLines q.base q.len - backedLines q.base q.len) })
    (setRf pd { rfOf (rfRange q.op q.base q.len s) pd with done := q.ticket } (rfRange q.op q.base q.len s))

theorem rfFinish_eq {pd : Nat} {q : RfReq} : rfFinish pd q s = if q.notify then pend q.hart 1 32 (rfDone pd q s) else rfDone pd q s := rfl

theorem rfDone_rf {pd : Nat} {q : RfReq} : rfOf (rfDone pd q s) pd = { rfOf s pd with done := q.ticket } := by
  have hr : rfOf (rfRange q.op q.base q.len s) pd = rfOf s pd := rfRange_sameRfs.engine pd
  rw [← hr]
  exact rfOf_setRf

/-- The notice leaves the engines and the hart's rfskip and rfgo. -/
theorem rfFinish_rf {pd : Nat} {q : RfReq} : rfOf (rfFinish pd q s) pd = { rfOf s pd with done := q.ticket } ∧
    (hartOf (rfFinish pd q s) q.hart).rfskip = (hartOf (rfDone pd q s) q.hart).rfskip ∧
    (hartOf (rfFinish pd q s) q.hart).rfgo = (hartOf (rfDone pd q s) q.hart).rfgo := by
  rw [rfFinish_eq]
  split
  next =>
    obtain ⟨hrf, hskip, hgo⟩ := pend_rf (s := rfDone pd q s) (k := q.hart) (f := 1) (id := 32)
    exact ⟨(hrf.engine pd).trans rfDone_rf, hskip, hgo⟩
  next => exact ⟨rfDone_rf, rfl, rfl⟩

/-- A request that completes: done is its ticket, its queue stays, and the hart's rfskip tells the lines that were skipped. -/
theorem rfFinish_done {pd : Nat} {q : RfReq} : (rfOf (rfFinish pd q s) pd).done = q.ticket ∧
    (rfOf (rfFinish pd q s) pd).queue = (rfOf s pd).queue ∧ (rfOf (rfFinish pd q s) pd).ctr = (rfOf s pd).ctr ∧
    (hartOf (rfFinish pd q s) q.hart).rfskip =
      q.ticket * 2 ^ 32 + min (2 ^ 32 - 1) (rangeLines q.base q.len - backedLines q.base q.len) := by
  obtain ⟨hrf, hskip, -⟩ := rfFinish_rf (s := s) (pd := pd) (q := q)
  rw [hrf, hskip]
  exact ⟨rfl, rfl, rfl, by rw [rfDone, modHart, hartOf_setHart]; rfl⟩

/-- A range of length zero names no line. -/
theorem rfRange_empty {op base : Nat} : rfRange op base 0 s = s := by
  have hno : s.dir.filter (fun e => overlap (e.1 * 64) 64 base 0 && decide (e.1 < umrEnd / 64)) = [] :=
    List.filter_eq_nil_iff.mpr fun e _ => by simp [overlap]
  rw [rfRange, hno]; rfl

/-- A request of length zero leaves the hart's rfgo. -/
theorem rfFinish_empty_rfgo {pd : Nat} {q : RfReq} (hl : q.len = 0) : (hartOf (rfFinish pd q s) q.hart).rfgo = (hartOf s q.hart).rfgo := by
  obtain ⟨-, -, hgo⟩ := rfFinish_rf (s := s) (pd := pd) (q := q)
  rw [hgo, rfDone, modHart, hartOf_setHart, hl, rfRange_empty]
  rfl

theorem nextTicket_ne_zero {c : Nat} : nextTicket c ≠ 0 := by
  unfold nextTicket
  split <;> omega

theorem nextTicket_succ {c : Nat} (hc : c < 2 ^ 32 - 1) : nextTicket c = c + 1 := by
  unfold nextTicket
  split <;> omega

/-- The request that a hart's rfbase and rflen give. -/
def rfRequest (s : State) (h op : Nat) (notify : Bool) : RfReq :=
  { hart := h, ticket := nextTicket (rfOf s (h / 48)).ctr, op := if op = 3 && !bit (hartOf s h).mgxcfg 3 then 2 else op,
    base := (hartOf s h).rfbase, len := (hartOf s h).rflen, notify := notify }

section
variable {op : Nat} {nt : Bool}

theorem rfSubmit_full (hq : 4 ≤ (rfOf s (h / 48)).queue.length) : rfSubmit h op nt s = setHart h { hartOf s h with rfgo := 2 ^ 63 } s := by
  simp [rfSubmit, hq]

theorem rfSubmit_queued (hq : (rfOf s (h / 48)).queue.length < 4) (hn : (hartOf s h).rflen ≠ 0 ∨ (rfOf s (h / 48)).queue ≠ []) :
    rfSubmit h op nt s = setRf (h / 48) { rfOf s (h / 48) with
      ctr := nextTicket (rfOf s (h / 48)).ctr, queue := (rfOf s (h / 48)).queue ++ [rfRequest s h op nt] }
      (setHart h { hartOf s h with rfgo := nextTicket (rfOf s (h / 48)).ctr } s) := by
  have hno : ¬ (((hartOf s h).rflen = 0 && (rfOf s (h / 48)).queue.isEmpty) = true) := by
    simp only [Bool.and_eq_true, decide_eq_true_eq, List.isEmpty_iff, not_and]
    exact fun h0 h1 => hn.elim (· h0) (· h1)
  rw [rfSubmit, if_neg (Nat.not_le.mpr hq)]
  exact if_neg hno

theorem rfSubmit_empty (hq : (rfOf s (h / 48)).queue = []) (hn : (hartOf s h).rflen = 0) :
    rfSubmit h op nt s = rfFinish (h / 48) (rfRequest s h op nt) (setRf (h / 48) { rfOf s (h / 48) with
      ctr := nextTicket (rfOf s (h / 48)).ctr } (setHart h { hartOf s h with rfgo := nextTicket (rfOf s (h / 48)).ctr } s)) := by
  simp [rfSubmit, hq, hn, rfRequest]

end

theorem rfRow_open {op : Nat} {v : Word} (hv : wf v 1 0 = op) (h0 : op ≠ 0) (ho : csrOpen (hartOf s h) 0x5C2 = true) :
    rfRow h op v s = rfSubmit h op (bit v.toNat 2) s := by
  have hf : fld v.toNat 1 0 = op := hv
  simp [rfRow, hf, ho, rfgoWrite, h0]

theorem rfRow_closed {op : Nat} {v : Word} (hv : wf v 1 0 = op) (ho : csrOpen (hartOf s h) 0x5C2 = false) :
    rfRow h op v s = raiseTrap h (if virtual (hartOf s h).mode then .virtualInstr else .illegal) 0x5C2 s := by
  have hf : fld v.toNat 1 0 = op := hv
  simp [rfRow, hf, ho, csrRefuse]

/-- The outcomes of a write of rfgo that issues. -/
theorem rfRow_outcomes {op : Nat} {v : Word} (hex : exec i s = .next (rfRow h op v s)) (hv : wf v 1 0 = op) (h0 : op ≠ 0) :
    let y := hartOf s h
    let x := rfOf s (h / 48)
    (csrOpen y 0x5C2 = false → exec i s = .next (raiseTrap h (if virtual y.mode then .virtualInstr else .illegal) 0x5C2 s)) ∧
    (csrOpen y 0x5C2 = true → 4 ≤ x.queue.length → exec i s = .next (setHart h { y with rfgo := 2 ^ 63 } s)) ∧
    (csrOpen y 0x5C2 = true → x.queue.length < 4 → y.rflen ≠ 0 ∨ x.queue ≠ [] → ∃ t q, exec i s = .next (setRf (h / 48)
      { x with ctr := t, queue := x.queue ++ [q] } (setHart h { y with rfgo := t } s)) ∧ t ≠ 0 ∧ (x.ctr < 2 ^ 32 - 1 → t = x.ctr + 1) ∧
      q.hart = h ∧ q.ticket = t ∧ q.base = y.rfbase ∧ q.len = y.rflen ∧ q.notify = bit v.toNat 2 ∧
      q.op = (if op = 3 ∧ bit y.mgxcfg 3 = false then 2 else op)) ∧
    (csrOpen y 0x5C2 = true → x.queue = [] → y.rflen = 0 → ∃ t, exec i s = .next t ∧ (rfOf t (h / 48)).queue = [] ∧
      (hartOf t h).rfgo = (rfOf t (h / 48)).ctr ∧ (rfOf t (h / 48)).done = (rfOf t (h / 48)).ctr ∧ (rfOf t (h / 48)).ctr ≠ 0) := by
  intro y x
  refine ⟨fun ho => hex.trans (congrArg _ (rfRow_closed hv ho)), fun ho hq => ?_, fun ho hq hn => ?_, fun ho hq hn => ?_⟩
  · exact hex.trans (congrArg _ ((rfRow_open hv h0 ho).trans (rfSubmit_full hq)))
  · exact ⟨nextTicket x.ctr, rfRequest s h op (bit v.toNat 2), hex.trans (congrArg _ ((rfRow_open hv h0 ho).trans (rfSubmit_queued hq hn))),
      nextTicket_ne_zero, nextTicket_succ, rfl, rfl, rfl, rfl, rfl, by simp [rfRequest, y]⟩
  · refine ⟨_, hex.trans (congrArg _ ((rfRow_open hv h0 ho).trans (rfSubmit_empty hq hn))), ?_⟩
    obtain ⟨hd, hqueue, hctr, -⟩ := rfFinish_done (pd := h / 48) (q := rfRequest s h op (bit v.toNat 2)) (s := setRf (h / 48)
      { x with ctr := nextTicket x.ctr } (setHart h { y with rfgo := nextTicket x.ctr } s))
    have hgo := rfFinish_empty_rfgo (pd := h / 48) (q := rfRequest s h op (bit v.toNat 2)) (s := setRf (h / 48)
      { x with ctr := nextTicket x.ctr } (setHart h { y with rfgo := nextTicket x.ctr } s)) hn
    rw [rfOf_setRf] at hqueue hctr
    refine ⟨hqueue.trans hq, (hgo.trans ?_).trans hctr.symm, hd.trans hctr.symm, fun hz => nextTicket_ne_zero (hctr.symm.trans hz)⟩
    exact congrArg Hart.rfgo (hartOf_setHart (s := s) (h := h) (x := { y with rfgo := nextTicket x.ctr }))

/-- Settles O36: a write of rfgo queues, refuses or completes its request, and RF_COMPLETE ends the oldest. -/
theorem rangeFlushTakesAndCompletesRequests : Obligations.RangeFlushTakesAndCompletesRequests := by
  refine ⟨fun h v s hh => ?rows, fun d s hd => ⟨fun hq => ?none, fun q rest hq hhart => ?some⟩⟩
  case rows =>
    intro y x row
    have hwf : okHart h = true := decide_eq_true hh
    exact ⟨fun hi hv => rfRow_outcomes (exec_issued (exec_rfClean hwf) hi) hv (by decide),
      fun hi hv => rfRow_outcomes (exec_issued (exec_rfFlush hwf) hi) hv (by decide),
      fun hi hv => rfRow_outcomes (exec_issued (exec_rfInvalidate hwf) hi) hv (by decide)⟩
  case none =>
    rw [exec_rfComplete (decide_eq_true hd)]
    simp [rfCompleteEffect, hq]
  case some =>
    have hgo : rfCompleteEffect d s = rfFinish d q (setRf d { rfOf s d with queue := rest } s) := by simp [rfCompleteEffect, hq]
    obtain ⟨hdone, hqueue, -, hskip⟩ := rfFinish_done (pd := d) (q := q) (s := setRf d { rfOf s d with queue := rest } s)
    rw [rfOf_setRf] at hqueue
    exact ⟨_, (exec_rfComplete (decide_eq_true hd)).trans (congrArg _ hgo), hdone, hqueue, hskip⟩

/-! ### CSR and register writes (R281, R282, R288, R474, R475) -/

section
variable {num v : Nat} {op : CsrOp}

theorem csrAccess_readonly (hg : garouxCsr num = true) (hr : csrReadOnly num = true) (ho : op ≠ .read) :
    csrAccess h num rd op v s = raiseTrap h .illegal num s := by
  simp [csrAccess, hg, hr, ho]

theorem csrAccess_closed (hg : garouxCsr num = true) (hr : csrReadOnly num = false ∨ op = .read) (ho : csrOpen (hartOf s h) num = false) :
    csrAccess h num rd op v s = raiseTrap h (if virtual (hartOf s h).mode then .virtualInstr else .illegal) num s := by
  rcases hr with hr | hr <;> simp [csrAccess, hg, hr, ho, csrRefuse]

theorem csrAccess_open (hg : garouxCsr num = true) (hr : csrReadOnly num = false ∨ op = .read) (ho : csrOpen (hartOf s h) num = true) :
    csrAccess h num rd op v s = csrDo h rd op v (garouxOld h num s) (fun w s => csrPut h num w s) := by
  rcases hr with hr | hr <;> simp [csrAccess, hg, hr, ho]

theorem csrAccess_absent (hg : garouxCsr num = false) (ha : absentCsr num = true) :
    csrAccess h num rd op v s = raiseTrap h .illegal num s := by
  simp [csrAccess, hg, ha]

end

/-- Settles O38: a CSR instruction by its number and its privilege, a register write by its address. -/
theorem csrAndRegisterWrites : Obligations.CsrAndRegisterWrites := by
  intro h num rd op v s hh hnum hrd
  have hwf : ∀ o, (Instr.registerWrite h (.csr num rd o) v).wellFormed = true := fun o => by
    simp [Instr.wellFormed, okHart, okReg, hh, hnum, hrd]
  have hcsr : ∀ o, issues s h (.registerWrite h (.csr num rd o) v) = true →
      exec (.registerWrite h (.csr num rd o) v) s = .next (csrAccess h num rd o v.toNat s) := fun o hi =>
    exec_issued (exec_registerWrite (hwf o)) hi
  refine ⟨fun hi => ⟨fun hg => ⟨fun hr ho => ?_, fun hr ho => ?_, fun hr ho => ?_⟩, fun ha hg => ?_⟩, fun hi ho => ⟨fun hn => ?_, fun hn => ?_, fun hn => ?_⟩,
    fun hi ho => ⟨fun hn => ?_, fun hn => ?_, fun hn => ?_⟩, fun a o wide hs ha hi => ⟨fun hal => ?_, fun hal => ?_⟩, fun ho hi => ?_, fun hm hi => ?_⟩
  · exact (hcsr op hi).trans (congrArg _ (csrAccess_readonly hg hr ho))
  · exact (hcsr op hi).trans (congrArg _ (csrAccess_closed hg hr ho))
  · refine (hcsr op hi).trans (congrArg _ ((csrAccess_open hg hr ho).trans ?_))
    cases op <;> rfl
  · exact (hcsr op hi).trans (congrArg _ (csrAccess_absent hg ha))
  · subst hn
    exact (hcsr .write hi).trans (congrArg _ (csrAccess_open (by decide) (.inl (by decide)) ho))
  · subst hn
    exact (hcsr .write hi).trans (congrArg _ (csrAccess_open (by decide) (.inl (by decide)) ho))
  · subst hn
    exact (hcsr .write hi).trans (congrArg _ (csrAccess_open (by decide) (.inl (by decide)) ho))
  · subst hn
    exact (hcsr .read hi).trans (congrArg _ (csrAccess_open (by decide) (.inr rfl) ho))
  · subst hn
    exact (hcsr .read hi).trans (congrArg _ (csrAccess_open (by decide) (.inr rfl) ho))
  · subst hn
    exact (hcsr .read hi).trans (congrArg _ (csrAccess_open (by decide) (.inr rfl) ho))
  · have hw : (Instr.registerWrite h (.mmio a wide) v).wellFormed = true := Bool.and_eq_true_iff.mpr ⟨decide_eq_true hh, decide_eq_true ha⟩
    refine (exec_issued (exec_registerWrite hw) hi).trans (congrArg _ ?_)
    simp [insRun, registerWriteEffect, hs, hal]
  · have hw : (Instr.registerWrite h (.mmio a wide) v).wellFormed = true := Bool.and_eq_true_iff.mpr ⟨decide_eq_true hh, decide_eq_true ha⟩
    refine (exec_issued (exec_registerWrite hw) hi).trans (congrArg _ ?_)
    simp [insRun, registerWriteEffect, hs, hal]
  · exact (exec_issued (exec_sipiWrite (decide_eq_true hh)) hi).trans (congrArg _ (if_neg (ne_true_of_eq_false ho)))
  · have hcl : csrOpen (hartOf s h) 0x7C4 = false := by simp [csrOpen, hm]
    exact (exec_issued (exec_mipiWrite (decide_eq_true hh)) hi).trans (congrArg _ (if_neg (ne_true_of_eq_false hcl)))

/-! ### Time at the harts (R147, R280, R283) -/

/-- Time goes on to an instant, and never back. -/
theorem now_advance {x : Nat} : x ≤ now (advance x s) ∧ now s ≤ now (advance x s) ∧ (x ≤ now s → now (advance x s) = now s) :=
  ⟨Nat.le_max_right _ _, Nat.le_max_left _ _, fun hx => Nat.max_eq_left hx⟩

/-- What a die reads of the Quartz: no less than it read last, and within 1 ns of the counter where it is disciplined. -/
theorem dieTime_bounds {k : Nat} : tblGet 0 (dieTime k s).2.quartz.dieRead k = (dieTime k s).1 ∧ tblGet 0 s.quartz.dieRead k ≤ (dieTime k s).1 ∧
    now (dieTime k s).2 = now s ∧
    (s.quartz.state = .localRef ∨ s.quartz.state = .consist → (dieTime k s).1 = tblGet 0 s.quartz.dieRead k ∨
      (now s - 1 ≤ (dieTime k s).1 ∧ (dieTime k s).1 ≤ now s + 1)) ∧
    (dieTime k s).2 = { s with quartz := (dieTime k s).2.quartz, freeCtr := s.freeCtr + 1 } := by
  refine ⟨tblGet_set_same, Nat.le_max_left _ _, rfl, fun hq => ?_, rfl⟩
  have hm : (draw s).1.toNat % 3 < 3 := Nat.mod_lt _ (by decide)
  have ht : (dieTime k s).1 = max (tblGet 0 s.quartz.dieRead k) (now s + (draw s).1.toNat % 3 - 1) := by
    rcases hq with hq | hq <;> simp [dieTime, hq]
  rw [ht]
  omega

theorem qtimeEffect_open (ho : csrOpen (hartOf s h) 0xCC0 = true) :
    qtimeEffect h rd s = wrX h rd (word (dieTime (hartDie h) s).1) (dieTime (hartDie h) s).2 := if_pos ho

theorem qtimeEffect_closed (ho : csrOpen (hartOf s h) 0xCC0 = false) :
    qtimeEffect h rd s = raiseTrap h (if virtual (hartOf s h).mode then .virtualInstr else .illegal) 0xCC0 s := if_neg (ne_true_of_eq_false ho)

theorem machineTimerEffect_due (hb : s.bu.state = 1) (ht : 4 * (hartOf s h).mqcmp < 2 ^ 64) :
    machineTimerEffect h s = modHart h (fun x => { x with mtip := true }) (advance (4 * (hartOf s h).mqcmp) s) := by
  rw [machineTimerEffect, if_pos (by simp only [hb, ht, decide_true, Bool.and_self])]

theorem stimecmpEffect_due {virt : Bool} (hb : s.bu.state = 1)
    (ht : 4 * (if virt then (hartOf s h).vstimecmp else (hartOf s h).stimecmp) < 2 ^ 64) (hs : stce (hartOf s h) virt = true) :
    stimecmpEffect h virt s = modHart h (fun x => if virt then { x with vstip := true } else { x with stip := true })
      (advance (4 * (if virt then (hartOf s h).vstimecmp else (hartOf s h).stimecmp)) s) := by
  rw [stimecmpEffect, if_pos (by simp only [hb, ht, hs, decide_true, Bool.and_self])]

/-- Settles O39: the timers take time to their compare values, and qtime is what the hart's die reads. -/
theorem timersAndQtime : Obligations.TimersAndQtime := by
  intro h rd virt s hh hrd x c
  refine ⟨fun hb ht => ?_, fun hb ht hs => ?_, fun hi => ?_⟩
  · obtain ⟨hle, hge, heq⟩ := now_advance (s := s) (x := 4 * x.mqcmp)
    exact ⟨_, (exec_machineTimer (decide_eq_true hh)).trans (congrArg _ (machineTimerEffect_due hb ht)), by simp [modHart], hle, hge, heq, rfl⟩
  · obtain ⟨hle, hge, heq⟩ := now_advance (s := s) (x := 4 * c)
    refine ⟨_, (exec_stimecmp (decide_eq_true hh)).trans (congrArg _ (stimecmpEffect_due hb ht hs)), ?_, hle, hge, heq⟩
    cases virt <;> simp [modHart]
  · have hw : (Instr.qtimeRead h rd).wellFormed = true := Bool.and_eq_true_iff.mpr ⟨decide_eq_true hh, decide_eq_true hrd⟩
    have hex : exec (.qtimeRead h rd) s = .next (qtimeEffect h rd s) := exec_issued (exec_qtimeRead hw) hi
    refine ⟨fun ho => ?_, fun ho => hex.trans (congrArg _ (qtimeEffect_closed ho))⟩
    obtain ⟨hlast, hge, hn, hnear, hst⟩ := dieTime_bounds (s := s) (k := hartDie h)
    exact ⟨_, _, hex.trans (congrArg _ (qtimeEffect_open ho)), hlast, hge, hn, hnear, hst⟩

end Sys2Proof.Machine
end

section
/-! PROOF. The coherent and the direct path: writes, reads, the direct buffers, write-back and snoops (O28 to O32). -/

namespace Sys2Proof.Machine

variable {s t : State} {r : Requester} {a n l h u : Nat} {d : List Byte} {rel acq : Option Scope}

/-! ### A coherent write that need not wait (R246) -/

theorem coherentWriteEffect_serves (hu : a + d.length ≤ umrEnd) (hp : protectedExt s (a / extSize) = false)
    (hb : reqBlocked s (.write r a d rel) = false) (hm : mustWait s (a / 64) r true (rel == some .consist) = false) :
    coherentWriteEffect r a d rel s = cohWrite r a d rel s := by
  simp [coherentWriteEffect, hu, hp, orWait, hb, queueOrServe, hm, performHeld]

theorem coherentWriteEffect_blocked (hu : a + d.length ≤ umrEnd) (hp : protectedExt s (a / extSize) = false)
    (hb : reqBlocked s (.write r a d rel) = true) :
    coherentWriteEffect r a d rel s = { s with reqWait := s.reqWait ++ [.write r a d rel] } := by
  simp [coherentWriteEffect, hu, hp, orWait, hb]

theorem coherentWriteEffect_protected (hu : a + d.length ≤ umrEnd) (hp : protectedExt s (a / extSize) = true) :
    coherentWriteEffect r a d rel s = refuseProtected r a s := by
  simp [coherentWriteEffect, hu, hp]

theorem coherentWriteEffect_beyond (hu : umrEnd < a + d.length) : coherentWriteEffect r a d rel s = refuseAccess r true a s :=
  if_neg (Nat.not_le.mpr hu)

/-- A line of an extent. -/
theorem line_ext : a / 64 / 32768 = a / extSize := by
  rw [Nat.div_div_eq_div_mul]; rfl

/-- A write within one line that need not wait is performed at once. -/
theorem cohWrite_one (h0 : 0 < d.length) (h1 : a / 64 = (a + d.length - 1) / 64)
    (hm : mustWait s (a / 64) r true (rel == some .consist) = false) : cohWrite r a d rel s = performWriteLine r a d rel (a / 64) s := by
  rw [cohWrite, linesOf_one h0 h1, List.foldl_cons, List.foldl_nil, cohWriteLine, arrive_free hm]

/-- A requester that does not cache writes at the line's home. -/
theorem performWriteLine_device (hr : ∀ h, r ≠ .hart h) (h0 : 0 < d.length) (h1 : a / 64 = (a + d.length - 1) / 64)
    (hw : writeHeld s (a / extSize) = false) : performWriteLine r a d rel (a / 64) s = homeWrite r (a / 64) (a % 64) d rel s := by
  simp only [performWriteLine, linePart_one h0 h1, line_ext, hw]
  cases r with
  | hart h => exact absurd rfl (hr h)
  | _ => rfl

/-- A hart writes in its cache, but for a release of consist scope. -/
theorem performWriteLine_hart (hrel : rel ≠ some .consist) (h0 : 0 < d.length) (h1 : a / 64 = (a + d.length - 1) / 64)
    (hw : writeHeld s (a / extSize) = false) : performWriteLine (.hart h) a d rel (a / 64) s = writeOwned h (a / 64) (a % 64) d rel s := by
  simp [performWriteLine, linePart_one h0 h1, line_ext, hw, hrel]

/-- Nothing waits for a line that has no entry. -/
theorem mustWait_none {w k : Bool} (hd : tblGet? s.dir l = none) : mustWait s l r w k = false := by
  simp [mustWait, lineOf_none hd]

/-- What a write of memory bytes does to the extents, when they lie in one line. -/
theorem poke_ext (h0 : 0 < d.length) (h1 : a / 64 = (a + d.length - 1) / 64) :
    (extOf (poke a d s) (a / extSize)).dirty = (extOf s (a / extSize)).dirty ||| dirtyMask (a / extSize) a d.length ∧
    ∀ x, x ≠ a / extSize → extOf (poke a d s) x = extOf s x := by
  have hp : poke a d s = touchExt (a / extSize) (clearPoison a d.length (markDirty a d.length { s with mem := memWrite s.mem a d })) := by
    rw [poke, touch, extsOf_one h0 h1]; rfl
  have hm : markDirty a d.length { s with mem := memWrite s.mem a d } = setExt (a / extSize)
      { extOf s (a / extSize) with dirty := (extOf s (a / extSize)).dirty ||| dirtyMask (a / extSize) a d.length }
      { s with mem := memWrite s.mem a d } := by
    rw [markDirty, extsOf_one h0 h1]; rfl
  rw [hp, hm]
  refine ⟨touchExt_ext.1.trans ?_, fun x hx => (touchExt_ext.2 hx).trans ?_⟩
  · exact congrArg Ext.dirty extOf_setExt
  · exact extOf_setExt_ne hx

theorem poke_poison : setHas (poke a d s).poison l = (setHas s.poison l && !overlap (l * 64) 64 a d.length) := by
  obtain ⟨e, he⟩ := poke_eq (s := s) (a := a) (bs := d)
  rw [he]
  rw [Bool.eq_iff_iff]
  simp [setHas, List.mem_filter]

theorem poke_lineErr {e : Nat × Nat} : e ∈ (poke a d s).lineErr ↔ e ∈ s.lineErr ∧ overlap (e.1 * 64) 64 a d.length = false := by
  obtain ⟨x, hx⟩ := poke_eq (s := s) (a := a) (bs := d)
  rw [hx]
  simp [List.mem_filter]

/-- Settles O28: the write is performed at the home of its line, where nothing waits. -/
theorem deviceWritesReachMemory : Obligations.DeviceWritesReachMemory := by
  intro r a d rel s hw hr
  have hex : exec (.coherentWrite r a d rel) s = .next (coherentWriteEffect r a d rel s) := exec_coherentWrite hw
  simp only [Instr.wellFormed, Bool.and_eq_true, decide_eq_true_eq] at hw
  obtain ⟨⟨-, h0⟩, h1⟩ := hw
  refine ⟨fun hu hp => ⟨fun hb hh hd hbuf => ?_, fun hb => ?_⟩, fun hu hp => ?_, fun hu => ?_⟩
  · obtain ⟨hs, hhome⟩ := homeWrite_free (r := r) (off := a % 64) (d := d) (rel := rel) hd hbuf
    have haddr : a / 64 * 64 + a % 64 = a := Nat.div_add_mod' a 64
    rw [haddr] at hhome
    have hgo : coherentWriteEffect r a d rel s = { poke a d s with homes := hs } := by
      rw [coherentWriteEffect_serves hu hp hb (mustWait_none hd), cohWrite_one h0 h1 (mustWait_none hd),
        performWriteLine_device hr h0 h1 hh, hhome]
    obtain ⟨e, he⟩ := poke_eq (s := s) (a := a) (bs := d)
    obtain ⟨hdirty, hext⟩ := poke_ext (s := s) h0 h1
    refine ⟨_, hex.trans (congrArg _ hgo), peek_poke, fun b n hout => peek_poke_out hout, hdirty, hext, fun l => poke_poison,
      fun e => poke_lineErr, ?_⟩
    rw [he]
  · exact hex.trans (congrArg _ (coherentWriteEffect_blocked hu hp hb))
  · refine hex.trans (congrArg _ ((coherentWriteEffect_protected hu hp).trans ?_))
    cases r with
    | hart h => exact absurd rfl (hr h)
    | _ => rfl
  · exact hex.trans (congrArg _ (coherentWriteEffect_beyond hu))

/-! ### A hart's coherent write (R246, R252, R255) -/

/-- The granted line, as the one copy of the hart, with the old bytes in it. -/
theorem grantWrite_copy (hc : ∀ e ∈ (lineOf s l).copies, e.2.length = 64)
    (ho : (lineOf s l).owner = some h → ∃ v, (lineOf s l).copies = [(h, v)]) : (tblGet [] (lineOf (grantWrite h l s) l).copies h).length = 64 := by
  obtain ⟨-, hlen, hnew⟩ := grantWrite_line (h := h) hc
  have hone : ∃ v, (lineOf (grantWrite h l s) l).copies = [(h, v)] := by
    by_cases hown : (lineOf s l).owner = some h
    · have hsame : grantWrite h l s = s := if_pos (by simp [hown])
      rw [hsame]
      exact ho hown
    · exact (hnew hown).1
  obtain ⟨v, hv⟩ := hone
  have hget : tblGet? (lineOf (grantWrite h l s) l).copies h = some v := by rw [hv]; simp [tblGet?]
  rw [tblGet, hget]
  exact hlen v hget

/-- Settles O29: the granted line takes the written bytes. -/
theorem hartWritesOwnTheirLine : Obligations.HartWritesOwnTheirLine := by
  intro h a d rel s hw hrel hu hp hh hm hb hc ho
  have hex : exec (.coherentWrite (.hart h) a d rel) s = .next (coherentWriteEffect (.hart h) a d rel s) := exec_coherentWrite hw
  simp only [Instr.wellFormed, Bool.and_eq_true, decide_eq_true_eq] at hw
  obtain ⟨⟨-, h0⟩, h1⟩ := hw
  have hk : (rel == some .consist) = false := by simpa using hrel
  have hgo : coherentWriteEffect (.hart h) a d rel s = writeOwned h (a / 64) (a % 64) d rel s := by
    rw [coherentWriteEffect_serves hu hp hb (by rwa [hk]), cohWrite_one h0 h1 (by rwa [hk]), performWriteLine_hart hrel h0 h1 hh]
  obtain ⟨howner, -, hnew⟩ := grantWrite_line (h := h) hc
  have hlen := grantWrite_copy hc ho
  have hfit : a % 64 + d.length ≤ (tblGet [] (lineOf (grantWrite h (a / 64) s) (a / 64)).copies h).length := by
    rw [hlen]
    omega
  have hline : lineOf (writeOwned h (a / 64) (a % 64) d rel s) (a / 64) = { lineOf (grantWrite h (a / 64) s) (a / 64) with
      copies := [(h, patch (tblGet [] (lineOf (grantWrite h (a / 64) s) (a / 64)).copies h) (a % 64) d)], dirty := true,
      tag := rel.map (fun sc => (sc, h)) } := lineOf_setLine
  refine ⟨_, patch (tblGet [] (lineOf (grantWrite h (a / 64) s) (a / 64)).copies h) (a % 64) d, hex.trans (congrArg _ hgo), ?_⟩
  rw [hline]
  exact ⟨howner, rfl, rfl, (patch_length hfit).trans hlen, patch_part hfit, rfl, fun hn k hk => (hnew hn).2 k hk⟩

/-! ### Coherent reads (R246, R256, R458) -/

theorem coherentReadEffect_beyond (hu : umrEnd < a + n) : coherentReadEffect r a n acq s = refuseAccess r false a s :=
  if_neg (Nat.not_le.mpr hu)

theorem coherentReadEffect_held {x : Nat} (hu : a + n ≤ umrEnd) (hb : reqBlocked s (.read r a n acq) = false)
    (hw : readWaits s r false a n = some x) : coherentReadEffect r a n acq s = holdRead x (.read r a n acq) s := by
  simp [coherentReadEffect, hu, orWait, hb, hw]

theorem coherentReadEffect_serves (hu : a + n ≤ umrEnd) (hb : reqBlocked s (.read r a n acq) = false)
    (hw : readWaits s r false a n = none) (hm : mustWait s (a / 64) r false false = false) :
    coherentReadEffect r a n acq s = serveRead r a n acq s := by
  simp [coherentReadEffect, hu, orWait, hb, hw, queueOrServe, hm, performHeld, readOrHold]

/-- A device's read is served by the home of its lines. -/
theorem serveRead_device (hr : ∀ h, r ≠ .hart h) :
    serveRead r a n acq s = returnData r a (cohRead r a n acq s).1 (rangePoisoned s a n) (cohRead r a n acq s).2 := by
  cases r with
  | hart h => exact absurd rfl (hr h)
  | _ => rfl

/-- A hart's read of lines that are not poisoned, or that it holds. -/
theorem serveRead_hart (hp : hartPoison s h a n = none) :
    serveRead (.hart h) a n acq s = returnData (.hart h) a (cohRead (.hart h) a n acq s).1 false (cohRead (.hart h) a n acq s).2 := by
  simp only [serveRead, serveWith, hp]
  rfl

theorem serveRead_poisoned (hp : hartPoison s h a n = some l) :
    serveRead (.hart h) a n acq s = returnData (.hart h) a (peek s a n) true (countPoison l s) := by
  simp only [serveRead, serveWith, hp]

/-- A hart that holds the line reads its own copy. -/
theorem cohRead_holder {v : List Byte} (h0 : 0 < n) (h1 : a / 64 = (a + n - 1) / 64) (hv : tblGet? (lineOf s (a / 64)).copies h = some v)
    (hw : (lineOf s (a / 64)).waiting = []) : cohRead (.hart h) a n none s = ((v.drop (a % 64)).take n, s) := by
  have hgrant : grantRead h (a / 64) s = s := if_pos (by simp [hv])
  simp [cohRead, sectorPath, readLines, linesOf_one h0 h1, cohReadLine, arrive_idle hw, performReadLine, hgrant, tblGet, hv]

theorem hartPoison_holder {v : List Byte} (h0 : 0 < n) (h1 : a / 64 = (a + n - 1) / 64) (hv : tblGet? (lineOf s (a / 64)).copies h = some v) :
    hartPoison s h a n = none := by
  simp [hartPoison, linesOf_one h0 h1, hv]

/-- Settles O30: a read that need not wait is served by the reader's own copy or by the home. -/
theorem holdersReadTheirCopies : Obligations.HoldersReadTheirCopies := by
  intro r a n s hw gives o
  have hex : exec (.coherentRead r a n none) s = .next (coherentReadEffect r a n none s) := exec_coherentRead hw
  simp only [Instr.wellFormed, Bool.and_eq_true, decide_eq_true_eq] at hw
  obtain ⟨⟨-, h0⟩, h1⟩ := hw
  refine ⟨fun hu hb => ⟨fun hq hm => ?_, fun x hq => ?_⟩, fun hu => ?_⟩
  · have hgo := hex.trans (congrArg _ (coherentReadEffect_serves hu hb hq hm))
    refine ⟨fun hr => hgo.trans (congrArg _ (serveRead_device hr)), fun h hr => ?_⟩
    subst hr
    refine ⟨fun hp => hgo.trans (congrArg _ (serveRead_hart hp)), fun l hp => hgo.trans (congrArg _ (serveRead_poisoned hp)),
      fun v hv hwait => ⟨hartPoison_holder h0 h1 hv, ?_, ?_⟩⟩
    · exact congrArg Prod.fst (cohRead_holder h0 h1 hv hwait)
    · exact congrArg Prod.snd (cohRead_holder h0 h1 hv hwait)
  · exact hex.trans (congrArg _ (coherentReadEffect_held hu hb hq))
  · exact hex.trans (congrArg _ (coherentReadEffect_beyond hu))

/-! ### The direct path (R247, R254) -/

/-- Discarding a read-ahead copy leaves the buffer of the home. -/
theorem dropAhead_home : (homeOf (dropAhead l s) (homeNum s (l * 64))).dbuf = (homeOf s (homeNum s (l * 64))).dbuf ∧
    tblGet? (homeOf (dropAhead l s) (homeNum s (l * 64))).readAhead l = none := by
  cases hg : tblGet? (homeOf s (homeNum s (l * 64))).readAhead l with
  | none => simp [dropAhead, hg]
  | some v => simp [dropAhead, hg]

/-- Forgetting a release leaves the buffer and the read-ahead copies of the home. -/
theorem forgetRelease_home : (homeOf (forgetRelease l s) (homeNum s (l * 64))).dbuf = (homeOf s (homeNum s (l * 64))).dbuf ∧
    (homeOf (forgetRelease l s) (homeNum s (l * 64))).readAhead = (homeOf s (homeNum s (l * 64))).readAhead := by
  unfold forgetRelease
  dsimp only
  split
  next => simp
  next => exact ⟨rfl, rfl⟩

/-- The copies of a line against which a direct write was accepted are stale. -/
def markStale (l : Nat) (s : State) : State :=
  if (lineOf s l).copies.isEmpty then s
  else setLine l { lineOf s l with clash := (lineOf s l).clash || (lineOf s l).dirty, stale := (lineOf s l).copies.map (·.1) } s

theorem markStale_eq : ∃ x, markStale l s = { s with dir := x } := by
  unfold markStale
  split
  next => exact ⟨s.dir, rfl⟩
  next => exact ⟨_, rfl⟩

/-- A write put behind those that a home has accepted. -/
def bufferWrite (l u : Nat) (w : DWrite) (s : State) : State := markStale l (setHome u { homeOf s u with dbuf := (homeOf s u).dbuf ++ [w] } s)

/-- The home of an address is the extents' alone. -/
theorem homeNum_exts (e : t.exts = s.exts) : homeNum t a = homeNum s a := by
  simp only [homeNum, extOf, e]

theorem acceptDirect_room {off : Nat} (hfull : (homeOf s (homeNum s (l * 64))).dbuf.length < 64) :
    acceptDirect r l off d none s = forgetRelease l
      (bufferWrite l (homeNum s (l * 64)) { addr := l * 64 + off, data := d, at_ := now s } (dropAhead l s)) := by
  obtain ⟨hbuf, -⟩ := dropAhead_home (s := s) (l := l)
  have hroom : ¬ 64 ≤ (homeOf (dropAhead l s) (homeNum s (l * 64))).dbuf.length := by rw [hbuf]; exact Nat.not_le.mpr hfull
  have hnow : now (dropAhead l s) = now s := by
    obtain ⟨x, hx⟩ := dropAhead_eq (s := s) (l := l)
    rw [hx]; rfl
  unfold acceptDirect
  dsimp only
  cases hb : (homeOf (dropAhead l s) (homeNum s (l * 64))).dbuf with
  | nil => simp [bufferWrite, markStale, hb, hnow]
  | cons w rest =>
    rw [hb, List.length_cons] at hroom
    have hroom : ¬ 63 ≤ rest.length := by omega
    simp [bufferWrite, markStale, hb, hnow, hroom]

/-- What the home of a line holds after a write is buffered. -/
theorem bufferWrite_home {w : DWrite} : homeOf (bufferWrite l u w s) u = { homeOf s u with dbuf := (homeOf s u).dbuf ++ [w] } := by
  obtain ⟨x, hx⟩ := markStale_eq (l := l) (s := setHome u { homeOf s u with dbuf := (homeOf s u).dbuf ++ [w] } s)
  rw [bufferWrite, hx]
  exact homeOf_setHome

/-- A write accepted by a buffer that is not full waits behind those accepted before; homes and the directory alone change. -/
theorem acceptDirect_buffers {off : Nat} (hfull : (homeOf s (homeNum s (l * 64))).dbuf.length < 64) :
    (homeOf (acceptDirect r l off d none s) (homeNum s (l * 64))).dbuf =
      (homeOf s (homeNum s (l * 64))).dbuf ++ [{ addr := l * 64 + off, data := d, at_ := now s }] ∧
    tblGet? (homeOf (acceptDirect r l off d none s) (homeNum s (l * 64))).readAhead l = none ∧
    ∃ hs ds, acceptDirect r l off d none s = { s with homes := hs, dir := ds } := by
  rw [acceptDirect_room hfull]
  generalize hw : ({ addr := l * 64 + off, data := d, at_ := now s } : DWrite) = w
  obtain ⟨hbuf, hahead⟩ := dropAhead_home (s := s) (l := l)
  obtain ⟨x, hx⟩ := dropAhead_eq (s := s) (l := l)
  obtain ⟨ds, hds⟩ := markStale_eq (l := l) (s := setHome (homeNum s (l * 64)) { homeOf (dropAhead l s) (homeNum s (l * 64)) with
    dbuf := (homeOf (dropAhead l s) (homeNum s (l * 64))).dbuf ++ [w] } (dropAhead l s))
  have hexts : (bufferWrite l (homeNum s (l * 64)) w (dropAhead l s)).exts = s.exts := by
    rw [bufferWrite, hds, hx]; rfl
  obtain ⟨hdb, hra⟩ := forgetRelease_home (l := l) (s := bufferWrite l (homeNum s (l * 64)) w (dropAhead l s))
  rw [homeNum_exts hexts, bufferWrite_home] at hdb hra
  refine ⟨hdb.trans (by rw [hbuf]), hra ▸ hahead, ?_⟩
  obtain ⟨hs, hhs⟩ := forgetRelease_eq (l := l) (s := bufferWrite l (homeNum s (l * 64)) w (dropAhead l s))
  rw [hhs, bufferWrite, hds, hx]
  exact ⟨_, _, rfl⟩

/-- A read of the line finds the bytes of a write that is last in the buffer over what it found before. -/
theorem homeLine_buffered {w : DWrite} (hm : t.mem = s.mem) (he : t.exts = s.exts) (hw : w.addr / 64 = l)
    (hb : (homeOf t (homeNum s (l * 64))).dbuf = (homeOf s (homeNum s (l * 64))).dbuf ++ [w]) :
    homeLine t l = overlayWrite l (homeLine s l) w := by
  have hpeek : peek t (l * 64) 64 = peek s (l * 64) 64 := by rw [peek, hm]; rfl
  rw [homeLine, homeNum_exts he, hb, hpeek, List.filter_append]
  simp only [hw, decide_true, List.filter_cons_of_pos, List.filter_nil]
  exact overlay_foldl

theorem directWriteEffect_open (hc : classify a = .direct u) (hp : protectedExt s (u / extSize) = false) :
    directWriteEffect r a d s = dirWrite r u d none s := by
  simp [directWriteEffect, hc, hp]

theorem directWriteEffect_protected (hc : classify a = .direct u) (hp : protectedExt s (u / extSize) = true) :
    directWriteEffect r a d s = refuseProtected r a s := by
  simp [directWriteEffect, hc, hp]

theorem directWriteEffect_outside (hc : ∀ u, classify a ≠ .direct u) : directWriteEffect r a d s = refuseAccess r true a s := by
  cases hq : classify a with
  | direct u => exact absurd hq (hc u)
  | _ => simp [directWriteEffect, hq]

theorem directReadEffect_outside {b : Bool} (hc : ∀ u, classify a ≠ .direct u) : directReadEffect r a n b s = refuseAccess r false a s := by
  cases hq : classify a with
  | direct u => exact absurd hq (hc u)
  | _ => simp [directReadEffect, hq]

theorem directReadEffect_held {b : Bool} {x : Nat} (hc : classify a = .direct u) (hw : readWaits s r true u n = some x) :
    directReadEffect r a n b s = holdRead x (.directRead r u n b) s := by
  simp [directReadEffect, hc, hw]

theorem directReadEffect_serves {b : Bool} (hc : classify a = .direct u) (hw : readWaits s r true u n = none) :
    directReadEffect r a n b s = serveDirect r u n b s := by
  simp [directReadEffect, hc, hw]

/-- The drain of an acquire comes first. -/
theorem drainFor_if {b : Bool} : drainFor (consistIf b) s = if b then drainAll s else s := by
  cases b <;> rfl

/-- A direct write within one line goes to its buffer where its extent takes writes. -/
theorem dirWrite_one (h0 : 0 < d.length) (h1 : u / 64 = (u + d.length - 1) / 64) (hw : writeHeld s (u / extSize) = false) :
    dirWrite r u d none s = acceptDirect r (u / 64) (u % 64) d none s := by
  simp [dirWrite, linesOf_one h0 h1, directWriteLine, linePart_one h0 h1, line_ext, hw]

/-- A direct read of a line with a write pending returns the bytes of the buffer. -/
theorem dirRead_pending (h0 : 0 < n) (h1 : u / 64 = (u + n - 1) / 64)
    (hb : (homeOf s (homeNum s (u / 64 * 64))).dbuf.any (fun w => decide (w.addr / 64 = u / 64)) = true) :
    (dirRead r u n none s).1 = ((homeLine s (u / 64)).drop (u % 64)).take n := by
  have hv : (dirReadLine r none (u / 64) s).1 = homeLine s (u / 64) := if_pos hb
  simp [dirRead, readLines, linesOf_one h0 h1, hv]

/-- A range of the aperture is in one line as its UMR range is. -/
theorem direct_one_line (ha : a = directBase + u) (h0 : 0 < n) (h1 : a / 64 = (a + n - 1) / 64) : u / 64 = (u + n - 1) / 64 := by
  have hb : directBase = 64 * (directBase / 64) := by decide
  generalize directBase / 64 = k at hb
  omega

/-- Settles O31: a direct write is buffered behind those before it, a drain performs the oldest, a read finds them. -/
theorem directWritesWaitInTheBuffer : Obligations.DirectWritesWaitInTheBuffer := by
  refine ⟨fun r a u d s hw hc => ?_, fun r a d s hw hc => ?_, fun j s hj => ⟨fun w rest hb => ?_, fun hb => ?_⟩,
    fun r a n acq s hw => ⟨fun u hc => ?_, fun hc => ?_⟩⟩
  · have hex : exec (.directWrite r a d) s = .next (directWriteEffect r a d s) := exec_directWrite hw
    simp only [Instr.wellFormed, Bool.and_eq_true, decide_eq_true_eq] at hw
    obtain ⟨⟨-, h0⟩, h1⟩ := hw
    have h1 := direct_one_line (classify_direct hc).1 h0 h1
    intro l k
    refine ⟨fun hp hh hfull => ?_, fun hp => hex.trans (congrArg _ (directWriteEffect_protected hc hp))⟩
    have haddr : u / 64 * 64 + u % 64 = u := Nat.div_add_mod' u 64
    obtain ⟨hbuf, hahead, hs, ds, heq⟩ := acceptDirect_buffers (r := r) (d := d) (off := u % 64) hfull
    rw [haddr] at hbuf
    refine ⟨acceptDirect r l (u % 64) d none s, hex.trans (congrArg _ ((directWriteEffect_open hc hp).trans (dirWrite_one h0 h1 hh))), ?_, hbuf,
      homeLine_buffered ?_ ?_ rfl hbuf, hahead, ?_⟩
    all_goals rw [heq]
  · exact (exec_directWrite hw).trans (congrArg _ (directWriteEffect_outside hc))
  · rw [exec_directWriteDrain (decide_eq_true hj)]
    simp [directWriteDrainEffect, hb]
  · rw [exec_directWriteDrain (decide_eq_true hj)]
    simp [directWriteDrainEffect, hb]
  · have hex : exec (.directRead r a n acq) s = .next (directReadEffect r a n acq s) := exec_directRead hw
    simp only [Instr.wellFormed, Bool.and_eq_true, decide_eq_true_eq] at hw
    obtain ⟨⟨-, h0⟩, h1⟩ := hw
    have h1 := direct_one_line (classify_direct hc).1 h0 h1
    intro l k s0 o
    refine ⟨fun hq => ?_, fun x hq => hex.trans (congrArg _ (directReadEffect_held hc hq)), fun hacq hb => ?_⟩
    · refine hex.trans (congrArg _ ((directReadEffect_serves hc hq).trans ?_))
      rw [serveDirect, drainFor_if]
      rfl
    · subst hacq
      exact dirRead_pending h0 h1 hb
  · exact (exec_directRead hw).trans (congrArg _ (directReadEffect_outside hc))

/-! ### Write-back, and the snoop of a held line (R255, R259, R264, R265) -/

/-- The write-back of the owner's dirty line puts its bytes in memory. -/
theorem writeBackLine_owner {c : Nat} {v : List Byte} (hv : tblGet? (lineOf s l).copies c = some v) (hd : (lineOf s l).dirty = true)
    (ho : (lineOf s l).owner = some c) (hc : (lineOf s l).clash = false) :
    (writeBackLine l s).mem = memWrite s.mem (l * 64) v := by
  have hforget : ∀ t : State, (forgetRelease l t).mem = t.mem := fun t => by
    obtain ⟨x, hx⟩ := forgetRelease_eq (s := t) (l := l)
    rw [hx]
  have hrecord : ∀ (t : State) (sc : Scope) (k : Requester), (recordRelease l sc k false t).mem = t.mem := fun _ _ _ => rfl
  cases ht : (lineOf s l).tag with
  | none => simp [writeBackLine, hd, ho, hc, ht, tblGet, hv, hforget]
  | some x => simp [writeBackLine, hd, ho, hc, ht, tblGet, hv, hrecord]

/-- The entry of a line that a cache has evicted. -/
def putEvicted (l : Nat) (x : Line) (s : State) : State :=
  if x.copies.isEmpty && x.waiting.isEmpty then { s with dir := tblDel l s.dir }
  else setLine l { x with overflow := x.overflow && !x.copies.isEmpty } s

/-- The hart of an L2 loses its reservation with the line. -/
def dropResv (c l : Nat) (s : State) : State :=
  if c < 96 && (hartOf s c).resv == some l then modHart c (fun h => { h with resv := none }) s else s

/-- A line without the copy of a cache. -/
def withoutCopy (c : Nat) (x : Line) : Line :=
  { x with copies := tblDel c x.copies, owner := if x.owner == some c then none else x.owner, stale := setDel c x.stale }

theorem lineWritebackEffect_evicts {c : Nat} (hc : (tblGet? (lineOf s l).copies c).isSome = true)
    (ht : (if (lineOf s l).owner == some c then writeBackLine l s else s) = t) :
    lineWritebackEffect c l s = dropResv c l (putEvicted l (intoL3 c (lineOf t l) (withoutCopy c (lineOf t l)) t).1
      (intoL3 c (lineOf t l) (withoutCopy c (lineOf t l)) t).2) := by
  rw [lineWritebackEffect, if_pos hc]
  dsimp only
  rw [ht]
  rfl

/-- The L3 of a die is no L2. -/
theorem l3Of_ne {c : Nat} (hc : c < 96) : c ≠ l3Of c := by
  unfold l3Of
  omega

/-- What an L2 leaves in the L3 is the die's copy alone. -/
theorem intoL3_copy {c : Nat} {old x : Line} (hx : tblGet? x.copies c = none) : tblGet? (intoL3 c old x s).1.copies c = none ∧
    (intoL3 c old x s).2.mem = s.mem := by
  unfold intoL3
  split
  next hc =>
    simp only [Bool.and_eq_true, decide_eq_true_eq] at hc
    dsimp only
    split
    next => exact ⟨(tblGet?_set_ne (l3Of_ne hc.1)).trans hx, rfl⟩
    next => exact ⟨hx, rfl⟩
  next => exact ⟨hx, rfl⟩

theorem putEvicted_line {c : Nat} {x : Line} (hx : tblGet? x.copies c = none) : tblGet? (lineOf (putEvicted l x s) l).copies c = none ∧
    (putEvicted l x s).mem = s.mem := by
  unfold putEvicted
  split
  next =>
    refine ⟨?_, rfl⟩
    rw [lineOf_none (s := { s with dir := tblDel l s.dir }) tblGet?_del_same]
    rfl
  next =>
    refine ⟨?_, rfl⟩
    rw [lineOf_setLine]
    exact hx

theorem dropResv_hart {c : Nat} : (c < 96 → (hartOf (dropResv c l s) c).resv ≠ some l) ∧ lineOf (dropResv c l s) l = lineOf s l ∧
    (dropResv c l s).mem = s.mem := by
  unfold dropResv
  split
  next => exact ⟨fun _ => by simp [modHart], rfl, rfl⟩
  next hn => exact ⟨fun hc hr => hn (by simp [hc, hr]), rfl, rfl⟩

/-- An eviction after the write-back: memory stays, and the cache has no copy and its hart no reservation. -/
theorem lineWritebackEffect_drops {c : Nat} (hc : (tblGet? (lineOf s l).copies c).isSome = true)
    (ht : (if (lineOf s l).owner == some c then writeBackLine l s else s) = t) :
    (lineWritebackEffect c l s).mem = t.mem ∧ tblGet? (lineOf (lineWritebackEffect c l s) l).copies c = none ∧
    (c < 96 → (hartOf (lineWritebackEffect c l s) c).resv ≠ some l) := by
  rw [lineWritebackEffect_evicts hc ht]
  obtain ⟨hcopy, hmem⟩ := intoL3_copy (s := t) (old := lineOf t l) (x := withoutCopy c (lineOf t l)) tblGet?_del_same
  obtain ⟨hput, hmem'⟩ := putEvicted_line (l := l) (s := (intoL3 c (lineOf t l) (withoutCopy c (lineOf t l)) t).2) hcopy
  obtain ⟨hres, hline, hmem''⟩ := dropResv_hart (c := c) (l := l)
    (s := putEvicted l (intoL3 c (lineOf t l) (withoutCopy c (lineOf t l)) t).1 (intoL3 c (lineOf t l) (withoutCopy c (lineOf t l)) t).2)
  exact ⟨hmem''.trans (hmem'.trans hmem), hline ▸ hput, hres⟩

theorem grantHoldExpiryEffect_entry (hd : (tblGet? s.dir l).isSome = true) : grantHoldExpiryEffect l s =
    if (lineOf s l).waiting.isEmpty then advance (lineOf s l).hold s
    else setLine l { lineOf s l with snooped := true } (advance (lineOf s l).hold s) := if_pos hd

theorem snoopAnswerEffect_performs {w : WaitReq} {rest : List WaitReq} (hs : (lineOf s l).snooped = true) (hw : (lineOf s l).waiting = w :: rest)
    (ht : performWaiting (setLine l { lineOf s l with waiting := rest, snooped := false } s) w = t) :
    snoopAnswerEffect l s = retryReq (if decide ((lineOf t l).hold ≤ now t) && !(lineOf t l).waiting.isEmpty
      then setLine l { lineOf t l with snooped := true } t else t) := by
  simp [snoopAnswerEffect, hs, hw, ← ht]

theorem snoopAnswerEffect_nothing (h : (lineOf s l).snooped = false ∨ (lineOf s l).waiting = []) : snoopAnswerEffect l s = s := by
  rcases h with h | h <;> simp [snoopAnswerEffect, h]

/-- Settles O32: an eviction writes a dirty line back; an answered snoop performs the oldest waiting request. -/
theorem linesAreWrittenBackAndForwarded : Obligations.LinesAreWrittenBackAndForwarded := by
  intro c l s hw x
  have hl : okLine l = true := (Bool.and_eq_true_iff.mp hw).2
  have hback : exec (.lineWriteback c l) s = .next (lineWritebackEffect c l s) := exec_lineWriteback hw
  have hgrant : exec (.grantHoldExpiry l) s = .next (grantHoldExpiryEffect l s) := exec_grantHoldExpiry hl
  have hsnoop : exec (.snoopAnswer l) s = .next (snoopAnswerEffect l s) := exec_snoopAnswer hl
  refine ⟨fun hn => ?_, fun v hv hlen hd ho hc => ⟨_, hback, ?_⟩, fun v hv ho => ⟨_, hback, ?_⟩, fun hn => ?_, fun he => ?_,
    fun w rest hs hwait => hsnoop.trans (congrArg _ (snoopAnswerEffect_performs hs hwait rfl)),
    fun hs => hsnoop.trans (congrArg _ (snoopAnswerEffect_nothing hs))⟩
  · exact hback.trans (congrArg _ (if_neg (by simp [x, hn])))
  · obtain ⟨hmem, hcopy, hres⟩ := lineWritebackEffect_drops (s := s) (l := l) (c := c) (by rw [hv]; rfl) (if_pos (by simpa using ho))
    rw [writeBackLine_owner hv hd ho hc] at hmem
    refine ⟨?_, fun b n hout => ?_, hcopy, hres⟩
    · rw [peek, hmem, ← hlen]
      exact memRead_write
    · rw [peek, hmem]
      exact memRead_write_out (by omega)
  · obtain ⟨hmem, hcopy, -⟩ := lineWritebackEffect_drops (s := s) (l := l) (c := c) (by rw [hv]; rfl) (if_neg (by simpa using ho))
    exact ⟨hmem, hcopy⟩
  · exact hgrant.trans (congrArg _ (if_neg (by simp [hn])))
  · exact hgrant.trans (congrArg _ (grantHoldExpiryEffect_entry he))

end Sys2Proof.Machine
end

section
/-! PROOF. Completion records, Dray commands, Slate actions and their completion (O40 to O43). -/

namespace Sys2Proof.Machine

variable {s : State}

/-! ### Completion records (R353, R354) -/

section
variable {q : Nat} {r : Rec} {rest : List Rec}

theorem performRec_none (hr : (queueOf s q).recs = []) : performRec q s = s := by simp [performRec, hr]

theorem performRec_full (hr : (queueOf s q).recs = r :: rest)
    (hf : ((queueOf s q).cqTail + 1) % 2 ^ (queueOf s q).cqLog = (queueOf s q).cqHead) :
    performRec q s = if r.counted then s
      else bump 0x0263 q 1 (setQueue q { queueOf s q with recs := { r with counted := true } :: rest } s) := by
  simp [performRec, hr, hf]

section
variable (hr : (queueOf s q).recs = r :: rest)
  (hf : ¬ ((queueOf s q).cqTail + 1) % 2 ^ (queueOf s q).cqLog = (queueOf s q).cqHead)
include hr hf

theorem performRec_waits (hc : commandHeld s (queueOf s q) = true ∨ tokensPaid s r.needs = false) : performRec q s = s := by
  have hw : (commandHeld s (queueOf s q) || !tokensPaid s r.needs) = true := by simpa using hc
  simp only [performRec, hr, if_neg hf, if_pos hw]

variable (hc : commandHeld s (queueOf s q) = false) (ht : tokensPaid s r.needs = true)
include hc ht

theorem performRec_promotes {x : Nat} (hx : ((queueOf s q).cqBase + 32 * (queueOf s q).cqTail) / extSize = x) (hw : writeHeld s x = true)
    (he : (extOf s x).st = .flash) (hn : ∀ w ∈ s.tierWait, w.ext ≠ x) :
    performRec q s = tierStart { ext := x, kind := .demandPromote (x % 4) } s := by
  have hany : s.tierWait.any (fun r => r.ext == x) = false := List.any_eq_false.mpr fun w hm => by simpa using hn w hm
  simp [performRec, hr, hf, hc, ht, hx, hw, he, hany]

theorem performRec_writes (hw : writeHeld s (((queueOf s q).cqBase + 32 * (queueOf s q).cqTail) / extSize) = false) :
    let x := queueOf s q
    let s1 := cohWrite (.queueEngine (queueHub q)) (x.cqBase + 32 * x.cqTail) (recBytes r x.cqPhase (now s)) (some .consist) s
    let t := (x.cqTail + 1) % 2 ^ x.cqLog
    let s2 := setQueue q { x with recs := rest, cur := none, cqTail := t, cqPhase := if t = 0 then !x.cqPhase else x.cqPhase } s1
    performRec q s = rejectOpcodes q (settleDisabled q (if x.irqEn ∧ (r.irq ∨ r.kind = 1) then pend x.irqHart x.irqFile x.irqId s2 else s2)) := by
  simp [performRec, hr, hf, hc, ht, hw]

end

end

/-- Settles O40, by what stands against the oldest record. -/
theorem completionRecordsAreWritten : Obligations.CompletionRecordsAreWritten := by
  intro q s hq x full a
  have hex : exec (.completionRecord q) s = .next (settleDissolve (performRec q s)) := exec_completionRecord (decide_eq_true hq)
  have hgo : ∀ {t}, performRec q s = t → exec (.completionRecord q) s = .next (settleDissolve t) := fun ht =>
    hex.trans (congrArg (fun t => Host.Outcome.next (settleDissolve t)) ht)
  refine ⟨fun hr => hgo (performRec_none hr), fun r rest hr => ⟨fun hf hc => hgo ?_, fun hf hc => hgo ?_, fun hf hc => hgo (performRec_waits hr hf hc),
    fun hf hc ht hw he hn => hgo (performRec_promotes hr hf hc ht rfl hw he hn), fun hf hc ht hw => hgo (performRec_writes hr hf hc ht hw)⟩⟩
  · exact (performRec_full hr hf).trans (if_neg (ne_true_of_eq_false hc))
  · exact (performRec_full hr hf).trans (if_pos hc)

/-! ### Dray commands (R355, R357 to R359) -/

section
variable {q p op t : Nat} {w : List Word} {rest : List (List Word × Nat)}

/-- The state in which a command has started on its Dray. -/
def commandStarted (q : Nat) (w : List Word) (rest : List (List Word × Nat)) (s : State) : State :=
  setQueue q { queueOf s q with accepted := rest, cur := some w } { s with drayLast := tblSet (queueOf s q).dray q s.drayLast }

/-- The Dray that serves a queue, for its partition. -/
def commandMover (s : State) (q p : Nat) : Mover := { dray := (queueOf s q).dray, part := p, slate := false, seed := 0 }

section
variable (ha : (queueOf s q).accepted = (w, t) :: rest) (hp : queuePart s q = some p)
include ha hp

theorem drayEffect_command (hr : readsHeld s (commandMover s q p) w = false) : drayEffect op (.queue q) s = drayCommand op q s := by
  have hr : readsHeld s { dray := (queueOf s q).dray, part := p, slate := false, seed := 0 } w = false := hr
  simp [drayEffect, ha, hp, hr]

omit hp in
theorem drayCommand_other (ho : wf (wd w 0) 5 0 ≠ op) : drayCommand op q s = s := by
  simp [drayCommand, ha, ho]

variable (ho : wf (wd w 0) 5 0 = op) (hn : nextQueue s (queueOf s q).dray = some q) (hb : drayBusy s (queueOf s q).dray = false)
include ho hn hb

theorem drayCommand_rejected {st : Nat} (hc : drayChecks (commandStarted q w rest s) (commandMover s q p) w = some st) :
    drayCommand op q s = if st = stRegion
      then raiseEvent evRegionFault (queueOf s q).dray (causeOf evRegionFault 4) (pushRec q (descRec w st) (commandStarted q w rest s))
      else pushRec q (descRec w st) (commandStarted q w rest s) := by
  have hc : drayChecks (setQueue q { queueOf s q with accepted := rest, cur := some w } { s with drayLast := tblSet (queueOf s q).dray q s.drayLast })
    { dray := (queueOf s q).dray, part := p, slate := false, seed := 0 } w = some st := hc
  simp [drayCommand, ha, ho, hn, hb, hp, hc, commandStarted]

theorem drayCommand_runs (hc : drayChecks (commandStarted q w rest s) (commandMover s q p) w = none) :
    drayCommand op q s = runCommandOn (commandMover s q p) q w { queue := q } (commandStarted q w rest s) := by
  have hc : drayChecks (setQueue q { queueOf s q with accepted := rest, cur := some w } { s with drayLast := tblSet (queueOf s q).dray q s.drayLast })
    { dray := (queueOf s q).dray, part := p, slate := false, seed := 0 } w = none := hc
  simp [drayCommand, ha, ho, hn, hb, hp, hc, commandStarted, commandMover]

end

section
variable {m : Mover}

theorem runCommandOn_asks (hl : (missingLines s m [] (drayDesc w) (operandsOf s m.part false (drayDesc w))).dedup ≠ []) (hg : m.got = []) :
    runCommandOn m q w { queue := q } s = requestLines m.dray (drayDesc w).acquire
      (missingLines s m [] (drayDesc w) (operandsOf s m.part false (drayDesc w))).dedup
      { s with drayWait := tblSet m.dray { queue := q } s.drayWait } := by
  have hm : { m with got := [] } = m := by rw [← hg]
  simp only [runCommandOn, hm]
  rw [if_neg (by simpa using hl)]
  simp

/-- A command that waits for no line and meets no poison moves its bytes. -/
theorem runCommandOn_moves (hg : m.got = []) (hl : missingLines s m [] (drayDesc w) (operandsOf s m.part false (drayDesc w)) = []) {s2 : State}
    (hs : { s with drayWait := tblDel m.dray s.drayWait } = s2)
    (hi : indexOutside s2 m (drayDesc w) (operandsOf s m.part false (drayDesc w)) = false)
    (hp : meetsPoison s2 m (drayDesc w) (operandsOf s2 m.part false (drayDesc w)) = false) :
    runCommandOn m q w { queue := q } s = pushRec q
      { drayRec w (moveAll m (drayDesc w) (operandsOf s2 m.part false (drayDesc w)) s2).1 with
        needs := tokenNeeds (moveAll m (drayDesc w) (operandsOf s2 m.part false (drayDesc w)) s2).2.2 m.part }
      (moveAll m (drayDesc w) (operandsOf s2 m.part false (drayDesc w)) s2).2.2 := by
  have hm : { m with got := [] } = m := by rw [← hg]
  simp only [runCommandOn, hm]
  rw [if_pos (by simp [hl]), hs, if_neg (ne_true_of_eq_false hi), finishCommand]
  exact if_neg (ne_true_of_eq_false hp)

end

end

/-- Settles O41: a command that is the Dray's next is rejected, waits for lines, or runs. -/
theorem drayCommandsRunOrAreRejected : Obligations.DrayCommandsRunOrAreRejected := by
  intro q p w t rest s hq ha hp hn hb x m s1 o s2 r hreads row
  have hok : okWork (.queue q) = true := decide_eq_true hq
  have hrow : ∀ op i, exec i s = .next (drayEffect op (.queue q) s) → row op i := by
    intro op i hi
    have hex : exec i s = .next (drayCommand op q s) := hi.trans (congrArg _ (drayEffect_command ha hp hreads))
    refine ⟨fun ho => ⟨fun st hc => hex.trans (congrArg _ (drayCommand_rejected ha hp ho hn hb hc)), fun hc hl hidx hpois => ?_, fun hc hl => ?_⟩,
      fun ho => hex.trans (congrArg _ (drayCommand_other ha ho))⟩
    · exact hex.trans (congrArg _ ((drayCommand_runs ha hp ho hn hb hc).trans (runCommandOn_moves rfl hl rfl hidx hpois)))
    · exact hex.trans (congrArg _ ((drayCommand_runs ha hp ho hn hb hc).trans (runCommandOn_asks hl rfl)))
  exact ⟨hrow _ _ (exec_copy hok), hrow _ _ (exec_gather hok), hrow _ _ (exec_scatter hok), hrow _ _ (exec_convert hok), hrow _ _ (exec_digest hok),
    hrow _ _ (exec_invalidate hok)⟩

/-! ### Slate actions (R84, R115, R125, R158, R165, R172) -/

section
variable {st ty : Nat} {g : Going}

theorem slateRow_going {run : Going → State → State} (hg : going s st ty = some g) :
    slateRow st ty run s = noteNeeds g.part st g.idx (run g (launch st 0 s)) := by simp [slateRow, hg]

theorem slateRow_none {run : Going → State → State} (hg : going s st ty = none) : slateRow st ty run s = s := by simp [slateRow, hg]

/-- What launches has its next entry launchable, its implicit gates met and its unit free. -/
theorem going_launchable (hg : going s st ty = some g) : ∃ p i j x, launchable s st ty = some (p, i, j, x) ∧
    g = { part := p, img := i, job := j, idx := (seqOf s st).entry, desc := x.desc } ∧
    implicitOk s i j st (seqOf s st).entry x = true ∧ unitFree s st ty = true ∧
    (ty = 0x21 → cubeGates s i j st (launchAt s p i j x) x = true) := by
  unfold going at hg
  split at hg
  next p i j x hl =>
    dsimp only at hg
    split at hg
    next hc =>
      obtain ⟨⟨himp, hunit⟩, hcube⟩ : (implicitOk s i j st (seqOf s st).entry x = true ∧ unitFree s st ty = true) ∧
          (ty ≠ 0x21 ∨ cubeGates s i j st (launchAt s p i j x) x = true) := by simpa using hc
      injection hg with hg
      exact ⟨p, i, j, x, hl, hg.symm, himp, hunit, fun ht => hcube.resolve_left (not_not.mpr ht)⟩
    next => cases hg
  next => cases hg

theorem launchable_entry {y : Nat × Image × Job × Entry} (hl : launchable s st ty = some y) : nextEntry s st = some y ∧
    actionType y.2.2.2 = ty ∧ y.2.2.1.running = true ∧ y.2.2.2.epoch = y.2.2.1.epoch ∧ y.2.2.1.localDone = false ∧
    ∀ k ∈ y.2.2.2.gates, gateMet s st k = true := by
  unfold launchable at hl
  split at hl
  next p i j x hn =>
    split at hl
    next hc =>
      injection hl with hl
      subst hl
      simp only [Bool.and_eq_true, beq_iff_eq, Bool.not_eq_true', List.all_eq_true] at hc
      obtain ⟨⟨⟨⟨⟨⟨⟨htype, hrun⟩, hepoch⟩, -⟩, hdone⟩, -⟩, hgates⟩, -⟩ := hc
      exact ⟨hn, htype, hrun, hepoch, hdone, hgates⟩
    next => cases hl
  next => cases hl

theorem going_nextEntry (hg : going s st ty = some g) : ∃ y, nextEntry s st = some y := by
  obtain ⟨p, i, j, x, hl, -⟩ := going_launchable hg
  exact ⟨_, (launchable_entry hl).1⟩

theorem drayEffect_stream (hr : ∀ p i j x, nextEntry s st = some (p, i, j, x) →
    readsHeld s { dray := st - 544, part := p, slate := true, seed := 0 } x.desc = false) {op : Nat} :
    drayEffect op (.stream st) s = slateRow st op (fun g s => drayAction g.part st g.idx g.img.seed g.desc s) s := by
  cases hn : nextEntry s st with
  | none =>
    have hg : going s st op = none := by
      cases hg : going s st op with
      | none => rfl
      | some g =>
        obtain ⟨y, hy⟩ := going_nextEntry hg
        rw [hn] at hy
        cases hy
    rw [slateRow_none hg]
    simp [drayEffect, hn]
  | some y =>
    obtain ⟨p, i, j, x⟩ := y
    simp [drayEffect, hn, hr p i j x hn]

/-- A launch leaves the map of tiles. -/
theorem launch_map {w : Nat} : (launch st w s).map = s.map ∧ (launch st w s).spares = s.spares := by
  have hmod : ∀ p f (t : State), (modJob p f t).map = t.map ∧ (modJob p f t).spares = t.spares := by
    intro p f t
    unfold modJob
    split
    next => exact ⟨rfl, rfl⟩
    next => exact ⟨rfl, rfl⟩
  unfold launch
  split
  next => exact hmod _ _ _
  next => exact ⟨rfl, rfl⟩

theorem physOf_launch {w l : Nat} : physOf (launch st w s) l = physOf s l := by
  obtain ⟨hmap, hspares⟩ := launch_map (s := s) (st := st) (w := w)
  simp only [physOf, hmap, hspares]

/-- A tile action that goes runs on the tile that carries the stream's logical tile. -/
theorem tileRow_going {run : Nat → Going → State → State} (hg : going s st ty = some g) {t : Nat} (ht : physOf s st = some t) :
    tileRow st ty run s = noteNeeds g.part st g.idx (run t g (launch st 0 s)) := by
  rw [tileRow, slateRow_going hg, physOf_launch, ht]

theorem tileRow_unmapped {run : Nat → Going → State → State} (hg : going s st ty = some g) (ht : physOf s st = none) :
    tileRow st ty run s = noteNeeds g.part st g.idx (launch st 0 s) := by
  rw [tileRow, slateRow_going hg, physOf_launch, ht]

theorem windowEffect_none (hg : going s st 0x3C = none) : windowEffect st s = s := by simp [windowEffect, hg]

theorem windowEffect_opens {p : Nat} {i : Image} {j : Job} {x : Entry} (hg : going s st 0x3C = some g) (hn : nextEntry s st = some (p, i, j, x)) :
    let t := max (now s) (plannedTime i j (partOf s p).offset x)
    let u := launch st (t + 4 * wf (wd g.desc 0) 63 36) s
    windowEffect st s = { u with windows := u.windows.filter (fun w => decide (t < w.until_)) ++ windowsOf g.desc t } := by
  simp only [windowEffect, hg, hn]

end

/-- Settles O42: each row is `slateRow` of its type, whose entry goes or not. -/
theorem slateActionsLaunchWhenTheirGatesAreMet : Obligations.SlateActionsLaunchWhenTheirGatesAreMet := by
  intro st s hst row tile tier dray coll
  have hrow : ∀ ty i run, exec i s = .next (slateRow st ty run s) → row ty i run := fun ty i run hi =>
    ⟨fun g hg => hi.trans (congrArg _ (slateRow_going hg)), fun hg => hi.trans (congrArg _ (slateRow_none hg))⟩
  refine ⟨fun ht => ?_, fun hlo hhi hr => ?_, fun hlo hhi => ?_, fun hlo hhi => ⟨fun hg => ?_, fun g p i j x hg hn => ?_⟩, fun hc => ?_,
    fun ty g hg => ?_, fun p i j x w hn => launch_facts hn⟩
  · have hok := decide_eq_true ht
    have htile : ∀ ty i run, exec i s = .next (tileRow st ty run s) → row ty i (tile run) := by
      refine fun ty i run hi => ⟨fun g hg => hi.trans (congrArg _ ?_), fun hg => hi.trans (congrArg _ (slateRow_none hg))⟩
      show _ = noteNeeds g.part st g.idx (tile run g (launch st 0 s))
      cases hp : physOf s st with
      | none => simp only [tile, hp]; exact tileRow_unmapped hg hp
      | some t => simp only [tile, hp]; exact tileRow_going hg hp
    exact ⟨htile _ _ _ (exec_cubeOperation hok), htile _ _ _ (exec_vectorProgram hok), htile _ _ _ (exec_updateProgram hok),
      htile _ _ _ (exec_bankGrant hok)⟩
  · have hok : okWork (.stream st) = true := by simp [okWork, hlo, hhi]
    have heff : ∀ op, drayEffect op (.stream st) s = slateRow st op dray s := fun op => drayEffect_stream hr
    exact ⟨hrow _ _ _ ((exec_copy (w := .stream st) hok).trans (congrArg _ (heff _))), hrow _ _ _ ((exec_gather (w := .stream st) hok).trans (congrArg _ (heff _))),
      hrow _ _ _ ((exec_scatter (w := .stream st) hok).trans (congrArg _ (heff _))), hrow _ _ _ ((exec_convert (w := .stream st) hok).trans (congrArg _ (heff _))),
      hrow _ _ _ ((exec_digest (w := .stream st) hok).trans (congrArg _ (heff _))), hrow _ _ _ ((exec_invalidate (w := .stream st) hok).trans (congrArg _ (heff _)))⟩
  · have hok : (decide (544 ≤ st) && decide (st < 584)) = true := by simp [hlo, hhi]
    exact ⟨hrow _ _ _ (exec_promote hok), hrow _ _ _ (exec_demote hok), hrow _ _ _ (exec_writeBack hok), hrow _ _ _ (exec_discard hok),
      hrow _ _ _ (exec_expire hok)⟩
  · exact (exec_relocationWindow (by simp [Instr.wellFormed, hlo, hhi])).trans (congrArg _ (windowEffect_none hg))
  · exact (exec_relocationWindow (by simp [Instr.wellFormed, hlo, hhi])).trans (congrArg _ (windowEffect_opens hg hn))
  · have hok : (decide (584 ≤ st) && okStream st) = true := by simp [okStream, hc, hst]
    exact ⟨hrow _ _ _ (exec_allReduce hok), hrow _ _ _ (exec_reduceScatter hok), hrow _ _ _ (exec_allGather hok),
      hrow _ _ _ (exec_gradientAllReduce hok), hrow _ _ _ (exec_barrier hok)⟩
  · obtain ⟨p, i, j, x, hl, rfl, himp, hunit, hcube⟩ := going_launchable hg
    obtain ⟨hn, htype, hrun, hepoch, hdone, hgates⟩ := launchable_entry hl
    exact ⟨p, i, j, x, hn, rfl, rfl, htype, hrun, hepoch, hdone, hgates, himp, hunit, hcube⟩

/-! ### Completion and the watermark (R159, R160, R166) -/

theorem nullEffect_launches {st : Nat} {y : Nat × Image × Job × Entry} (hl : launchable s st 0x01 = some y) :
    nullEffect st s = complete st (seqOf s st).entry (launch st 0 s) := by simp [nullEffect, hl]

theorem nullEffect_none {st : Nat} (hl : launchable s st 0x01 = none) : nullEffect st s = s := by simp [nullEffect, hl]

/-- A completed entry is done and no longer in progress. -/
theorem complete_facts {st e : Nat} : setHas (seqOf (complete st e s) st).done e = true ∧ inProgress (complete st e s) st e = false := by
  refine ⟨by simp [complete, setHas_ins], ?_⟩
  simp only [inProgress, complete, seqOf_setSeq]
  exact List.any_eq_false.mpr fun f hf => by simpa using (List.mem_filter.mp hf).2

theorem actionCompleteEffect_completes {st e : Nat} {f : Flight} (hf : (seqOf s st).inflight.find? (fun f => f.idx == e) = some f)
    (hd : effectsDone s st e = true) (ht : tokensPaid s f.needs = true) : actionCompleteEffect st e s = complete st e (advance f.waits s) := by
  simp [actionCompleteEffect, hf, hd, ht]

theorem actionCompleteEffect_waits {st e : Nat} (h : effectsDone s st e = false ∨ inProgress s st e = false) : actionCompleteEffect st e s = s := by
  cases hf : (seqOf s st).inflight.find? (fun f => f.idx == e) with
  | none => simp [actionCompleteEffect, hf]
  | some f =>
    have hin : inProgress s st e = true := List.any_eq_true.mpr ⟨f, List.mem_of_find?_eq_some hf, List.find?_some (p := fun f : Flight => f.idx == e) hf⟩
    have hd : effectsDone s st e = false := h.resolve_right (by simp [hin])
    simp [actionCompleteEffect, hf, hd]

/-- Not every number up to the size of a set is in it. -/
theorem exists_not_mem (l : NatSet) : ∃ i, i < l.length + 1 ∧ setHas l i = false := by
  by_contra hall
  have hsub : List.range (l.length + 1) ⊆ l := fun i hi => by
    by_contra hn
    exact hall ⟨i, List.mem_range.mp hi, by simpa [setHas] using hn⟩
  have hle := (List.nodup_range.subperm hsub).length_le
  rw [List.length_range] at hle
  omega

/-- The watermark is the first number that is not done. -/
theorem watermark_facts (l : NatSet) : (∀ k, k < watermark l → setHas l k = true) ∧ setHas l (watermark l) = false := by
  obtain ⟨i, hi, hn⟩ := exists_not_mem l
  cases hf : (List.range (l.length + 1)).find? (fun i => !setHas l i) with
  | none => exact absurd (List.find?_eq_none.mp hf i (List.mem_range.mpr hi)) (by simp [hn])
  | some w =>
    have hw : watermark l = w := by simp [watermark, hf]
    obtain ⟨hnot, -, hbefore⟩ := List.find?_range_eq_some.mp hf
    rw [hw]
    exact ⟨fun k hk => by simpa using hbefore k hk, by simpa using hnot⟩

/-- Settles O43: a completion is kept in the stream's set, and the watermark is the first entry that is not in it. -/
theorem completionsRaiseTheWatermark : Obligations.CompletionsRaiseTheWatermark := by
  intro st e c s hst he hc
  have hnull : exec (.nullAction st) s = .next (nullEffect st s) := exec_nullAction (decide_eq_true hst)
  have hcomp : exec (.actionComplete st e) s = .next (actionCompleteEffect st e s) := exec_actionComplete (by simp [Instr.wellFormed, okStream, hst, he])
  have hvis : exec (.gateVisible st c) s = .next (makeVisible st c s) := exec_gateVisible (by simp [Instr.wellFormed, okStream, hst, hc])
  refine ⟨fun g hg => hnull.trans (congrArg _ (nullEffect_launches hg)), fun hg => hnull.trans (congrArg _ (nullEffect_none hg)),
    fun f hf hd ht => ⟨_, hcomp.trans (congrArg _ (actionCompleteEffect_completes hf hd ht)), ?_⟩,
    fun h => hcomp.trans (congrArg _ (actionCompleteEffect_waits h)), ⟨_, hvis, ?_⟩⟩
  · obtain ⟨hdone, hout⟩ := complete_facts (s := advance f.waits s) (st := st) (e := e)
    exact ⟨hdone, hout, Nat.le_max_right _ _⟩
  · have hseq : seqOf (makeVisible st c s) st = { seqOf s st with vis := tblSet c (watermark (seqOf s st).done) (seqOf s st).vis } := seqOf_setSeq
    rw [hseq]
    obtain ⟨hbelow, hat⟩ := watermark_facts (seqOf s st).done
    refine ⟨rfl, ?_⟩
    dsimp only
    rw [tblGet_set_same]
    exact ⟨hbelow, hat, fun d hd => tblGet_set_ne hd⟩

end Sys2Proof.Machine
end

section
/-! PROOF. The vector engine's instructions, their masks, and the phases of the update port (O44 to O46). -/

namespace Sys2Proof.Machine

variable {s : State} {t : Nat} {w : Word}

/-! ### A row issues (R98, R101) -/

/-- The engine of a tile changed by `f` and stepped on. -/
def vecStep (t : Nat) (f : Vec → Vec) (s : State) : State :=
  setTile t { tileOf s t with vec := vecNext (f (tileOf s t).vec) } s

theorem vecIssue_modVec {f : Vec → Vec} (h : vecEffect t w s = modVec t f s) : vecIssue t w s = vecStep t f s := by
  rw [vecIssue, h, modVec_modVec]; rfl

theorem vecStep_vec {f : Vec → Vec} : (tileOf (vecStep t f s) t).vec = vecNext (f (tileOf s t).vec) := by simp [vecStep]

section
variable {op : Nat} {i : Instr} {f : Vec → Vec}

theorem row_misses (hex : exec i s = .next (vecRow op t w s)) (h : vOp w ≠ op ∨ vInsnOk w = false) : exec i s = .next s :=
  hex.trans (congrArg _ (vecRow_miss h))

theorem row_hits (hex : exec i s = .next (vecRow op t w s)) (h : vOp w = op) (hok : vInsnOk w = true) :
    exec i s = .next (vecIssue t w s) := hex.trans (congrArg _ (vecRow_hit h hok))

theorem row_steps (hex : exec i s = .next (vecRow op t w s)) (heff : vOp w = op → vecEffect t w s = modVec t f s) (h : vOp w = op)
    (hok : vInsnOk w = true) : exec i s = .next (vecStep t f s) :=
  (row_hits hex h hok).trans (congrArg _ (vecIssue_modVec (heff h)))

theorem row_steps_or_misses (hex : exec i s = .next (vecRow op t w s)) (heff : vOp w = op → vecEffect t w s = modVec t f s) :
    (vOp w = op → vInsnOk w = true → exec i s = .next (vecStep t f s)) ∧
    (vOp w ≠ op ∨ vInsnOk w = false → exec i s = .next s) := ⟨row_steps hex heff, row_misses hex⟩

end

/-! ### What each opcode does to the engine (Table 04-4) -/

theorem vecEffect_vadd (h : vOp w = 0x01) : vecEffect t w s = modVec t (opVadd w) s := by simp [vecEffect, h]
theorem vecEffect_vmul (h : vOp w = 0x02) : vecEffect t w s = modVec t (opVmul w) s := by simp [vecEffect, h]
theorem vecEffect_vfma (h : vOp w = 0x03) : vecEffect t w s = modVec t (opVfma w) s := by simp [vecEffect, h]
theorem vecEffect_vmax (h : vOp w = 0x04) : vecEffect t w s = modVec t (opVmax w) s := by simp [vecEffect, h]
theorem vecEffect_vmin (h : vOp w = 0x05) : vecEffect t w s = modVec t (opVmin w) s := by simp [vecEffect, h]
theorem vecEffect_vsel (h : vOp w = 0x06) : vecEffect t w s = modVec t (opVsel w) s := by simp [vecEffect, h]
theorem vecEffect_vcmp (h : vOp w = 0x07) : vecEffect t w s = modVec t (opVcmp w) s := by simp [vecEffect, h]
theorem vecEffect_vsign (h : vOp w = 0x08) : vecEffect t w s = modVec t (opVsign w) s := by simp [vecEffect, h]
theorem vecEffect_vexp (h : vOp w = 0x10) : vecEffect t w s = modVec t (opVexp w) s := by simp [vecEffect, h]
theorem vecEffect_vlog (h : vOp w = 0x11) : vecEffect t w s = modVec t (opVlog w) s := by simp [vecEffect, h]
theorem vecEffect_vrsqrt (h : vOp w = 0x12) : vecEffect t w s = modVec t (opVrsqrt w) s := by simp [vecEffect, h]
theorem vecEffect_va128add (h : vOp w = 0x1A) : vecEffect t w s = modVec t (opVa128add w) s := by simp [vecEffect, h]
theorem vecEffect_va128rsum (h : vOp w = 0x1B) : vecEffect t w s = modVec t (opVa128rsum w) s := by simp [vecEffect, h]
theorem vecEffect_vreanchor (h : vOp w = 0x1C) : vecEffect t w s = modVec t (opVreanchor w) s := by simp [vecEffect, h]
theorem vecEffect_va128drain (h : vOp w = 0x1D) : vecEffect t w s = modVec t (opVa128drain w) s := by simp [vecEffect, h]
theorem vecEffect_aset (h : vOp w = 0x28) : vecEffect t w s = modVec t (opAset w) s := by simp [vecEffect, h]
theorem vecEffect_aadd (h : vOp w = 0x29) : vecEffect t w s = modVec t (opAadd w) s := by simp [vecEffect, h]
theorem vecEffect_loop (h : vOp w = 0x30) : vecEffect t w s = modVec t (opLoop w) s := by simp [vecEffect, h]
theorem vecEffect_endProg (h : vOp w = 0x3F) : vecEffect t w s = modVec t (fun v => { v with running := false }) s := by
  simp [vecEffect, h]

theorem vecIssue_nop (h : vOp w = 0x00) : vecIssue t w s = vecStep t id s := by
  have he : vecEffect t w s = s := by simp [vecEffect, h]
  rw [vecIssue, he]; rfl

theorem vecIssue_vcvt (h : vOp w = 0x18) : vecIssue t w s = modVec t vecNext (effCount t (opVcvt w (tileOf s t).vec) true s) := by
  simp [vecIssue, vecEffect, h]
theorem vecIssue_vcvta (h : vOp w = 0x19) : vecIssue t w s = modVec t vecNext (effCount t (opVcvta w (tileOf s t).vec) false s) := by
  simp [vecIssue, vecEffect, h]
theorem vecIssue_vld (h : vOp w = 0x20) : vecIssue t w s = modVec t vecNext (effVld t w s) := by simp [vecIssue, vecEffect, h]
theorem vecIssue_vst (h : vOp w = 0x21) : vecIssue t w s = modVec t vecNext (effVst t w s) := by simp [vecIssue, vecEffect, h]

/-! ### Loads and stores of tile memory (R100, R127, R134, R138) -/

theorem tileOf_modVec {f : Vec → Vec} : tileOf (modVec t f s) t = { tileOf s t with vec := f (tileOf s t).vec } := by simp [modVec]

section
variable {who a n : Nat} {f : Vec → Vec} (hm : mismatch s t who a n = false) (hc : ∀ m ∈ banksOf a n, (testOf s t m).startAt = none)
include hm hc

theorem checkReach_modVec : checkReach t who a n (modVec t f s) = modVec t f s := by
  refine checkReach_ok ?_ fun m hmem => ?_
  · exact (mismatch_congr (by rw [tileOf_modVec])).trans hm
  · have ht : testOf (modVec t f s) t m = testOf s t m := by simp [testOf, tileOf_modVec]
    rw [ht, hc m hmem]

theorem readReach_modVec (he : errWords s t a n = []) : readReach t who a n (modVec t f s) = modVec t f s := by
  rw [readReach, checkReach_modVec hm hc]
  exact eccRead_clean he

end

/-- The bytes that a VLD puts in vd. -/
def vldVec (t : Nat) (w : Word) (s : State) : Vec :=
  vPut (vVd w) (vSize w) ((vLanes (tileOf s t).vec w (vCount w)).map (fun i => (i,
    leNat (((tileRead s t ownVector (vAddr w (tileOf s t).vec) 256).drop (vSize w * i)).take (vSize w))))) (tileOf s t).vec

/-- The memory after the writes of a VST. -/
def vstMem (t : Nat) (w : Word) (s : State) : State :=
  (vLanes (tileOf s t).vec w (vCount w)).foldl (fun s' i =>
    tileWrite t ownVector (vAddr w (tileOf s t).vec + vSize w * i) (leBytes (vSize w) (vGet (tileOf s t).vec (vVd w) (vSize w) i)) s') s

theorem vstMem_tileOf : tileOf (vstMem t w s) t = tileOf s t := by
  unfold tileOf vstMem; rw [foldTile_tiles]

theorem effVld_eq : effVld t w s = readReach t ownVector (vAddr w (tileOf s t).vec) 256 (modVec t (fun _ => vPost w (vldVec t w s)) s) := rfl

theorem effVst_eq : effVst t w s = checkReach t ownVector (vAddr w (tileOf s t).vec) 256 (modVec t (vPost w) (vstMem t w s)) := rfl

section
variable (hm : mismatch s t ownVector (vAddr w (tileOf s t).vec) 256 = false)
  (hc : ∀ m ∈ banksOf (vAddr w (tileOf s t).vec) 256, (testOf s t m).startAt = none)
include hm hc

theorem vld_issues (h : vOp w = 0x20) (he : errWords s t (vAddr w (tileOf s t).vec) 256 = []) :
    vecIssue t w s = vecStep t (fun _ => vPost w (vldVec t w s)) s := by
  rw [vecIssue_vld h, effVld_eq, readReach_modVec hm hc he, modVec_modVec]; rfl

theorem vst_issues (h : vOp w = 0x21) : vecIssue t w s =
    setTile t { tileOf (vstMem t w s) t with vec := vecNext (vPost w (tileOf s t).vec) } (vstMem t w s) := by
  have hm' : mismatch (vstMem t w s) t ownVector (vAddr w (tileOf s t).vec) 256 = false :=
    (mismatch_congr (by rw [vstMem_tileOf])).trans hm
  have hc' : ∀ m ∈ banksOf (vAddr w (tileOf s t).vec) 256, (testOf (vstMem t w s) t m).startAt = none := by
    intro m hmem
    unfold testOf; rw [vstMem_tileOf]
    exact hc m hmem
  rw [vecIssue_vst h, effVst_eq, checkReach_modVec hm' hc', modVec_modVec, modVec, vstMem_tileOf]; rfl

end

/-! ### Counts of the conversions (R104, R106) -/

theorem vcvt_counts (h : vOp w = 0x18) : let r := opVcvt w (tileOf s t).vec
    (tileOf (vecIssue t w s) t).vec = vecNext { r.1 with clamp := r.1.clamp || decide (0 < r.2) } ∧
    vecIssue t w s = setTile t { tileOf (tileFlags t false false 0 r.2 s) t with vec := (tileOf (vecIssue t w s) t).vec }
      (tileFlags t false false 0 r.2 s) := by
  rw [vecIssue_vcvt h]
  simp [effCount, modVec, tileFlags]

theorem vcvta_counts (h : vOp w = 0x19) : let r := opVcvta w (tileOf s t).vec
    (tileOf (vecIssue t w s) t).vec = vecNext r.1 ∧
    vecIssue t w s = setTile t { tileOf (tileFlags t false false r.2 0 s) t with vec := (tileOf (vecIssue t w s) t).vec }
      (tileFlags t false false r.2 0 s) := by
  rw [vecIssue_vcvta h]
  simp [effCount, modVec, tileFlags]

/-- Settles O44: a row that hits has its opcode's effect and steps on, one that misses changes nothing. -/
theorem vectorInstructionsIssueOnTheirEngine : Obligations.VectorInstructionsIssueOnTheirEngine := by
  unfold Obligations.VectorInstructionsIssueOnTheirEngine
  intro t w s ht
  have ok : okTile t = true := decide_eq_true ht
  refine ⟨⟨fun h hok => (row_hits (exec_nop ok) h hok).trans (congrArg _ (vecIssue_nop h)), row_misses (exec_nop ok)⟩,
    row_steps_or_misses (exec_vadd ok) vecEffect_vadd, row_steps_or_misses (exec_vmul ok) vecEffect_vmul,
    row_steps_or_misses (exec_vfma ok) vecEffect_vfma, row_steps_or_misses (exec_vmax ok) vecEffect_vmax,
    row_steps_or_misses (exec_vmin ok) vecEffect_vmin, row_steps_or_misses (exec_vsel ok) vecEffect_vsel,
    row_steps_or_misses (exec_vcmp ok) vecEffect_vcmp, row_steps_or_misses (exec_vsign ok) vecEffect_vsign,
    row_steps_or_misses (exec_vexp ok) vecEffect_vexp, row_steps_or_misses (exec_vlog ok) vecEffect_vlog,
    row_steps_or_misses (exec_vrsqrt ok) vecEffect_vrsqrt, row_steps_or_misses (exec_va128add ok) vecEffect_va128add,
    row_steps_or_misses (exec_va128rsum ok) vecEffect_va128rsum, row_steps_or_misses (exec_vreanchor ok) vecEffect_vreanchor,
    row_steps_or_misses (exec_va128drain ok) vecEffect_va128drain, row_steps_or_misses (exec_aset ok) vecEffect_aset,
    row_steps_or_misses (exec_aadd ok) vecEffect_aadd, row_steps_or_misses (exec_loop ok) vecEffect_loop,
    row_steps_or_misses (exec_endProg ok) vecEffect_endProg,
    fun h hok => ⟨_, row_hits (exec_vcvt ok) h hok, vcvt_counts h⟩,
    fun h hok => ⟨_, row_hits (exec_vcvta ok) h hok, vcvta_counts h⟩,
    fun h hok hm hc he => (row_hits (exec_vld ok) h hok).trans (congrArg _ (vld_issues hm hc h he)),
    fun h hok hm hc => (row_hits (exec_vst ok) h hok).trans (congrArg _ (vst_issues hm hc h)),
    row_misses (exec_vcvt ok), row_misses (exec_vcvta ok), row_misses (exec_vld ok), row_misses (exec_vst ok)⟩

/-! ### Masked elements (R96, R102) -/

theorem vecNext_vGet {v : Vec} {r sz i : Nat} : vGet (vecNext v) r sz i = vGet v r sz i := by
  unfold vGet; rw [vecNext_rest.1]

theorem vecNext_vMask {v : Vec} {k : Nat} : vMask (vecNext v) k = vMask v k := by
  unfold vMask; rw [vecNext_rest.2.1]

theorem lane_fits (ty : FpType) {i : Nat} (h : i < 256 / ty.size) : ty.size * i + ty.size ≤ 256 := by
  cases ty <;> simp only [FpType.size] at h ⊢ <;> omega

theorem mem_vLanes {v : Vec} {n i : Nat} : i ∈ vLanes v w n ↔ i < n ∧ bit (vMask v (vKm w)) i = true := mem_bitsOf

/-- Each element of vd takes its rounded result where the mask names it. -/
theorem vMap_elem {v : Vec} {sz n i : Nat} {f : Nat → Nat} (hi : i < n) :
    vGet (vMap v w sz n f) (vVd w) sz i = if bit (vMask v (vKm w)) i then f i % 256 ^ sz else vGet v (vVd w) sz i := by
  unfold vMap
  rw [vPut_vGet (show (vLanes v w n).Nodup from nodup_bitsOf)]
  simp only [mem_vLanes, hi, true_and]

theorem vMap_other {v : Vec} {n r sz i : Nat} {ty : FpType} {f : Nat → Nat} (hn : n ≤ 256 / ty.size) (hr : r ≠ vVd w)
    (hi : sz * i + sz ≤ 256) : vGet (vMap v w ty.size n f) r sz i = vGet v r sz i := by
  refine vPut_vGet_other (fun e he => ?_) hr hi
  obtain ⟨j, hj, rfl⟩ := List.mem_map.mp he
  exact lane_fits ty (Nat.lt_of_lt_of_le (mem_vLanes.mp hj).1 hn)

section
variable {op : Nat} {i : Instr} {ty : FpType} {g : Vec → Vec} {f : Nat → FVal}

/-- The element-wise FP instructions in one: the code of the rounded result where the mask names the element, the rest kept. -/
theorem fpRow_elems (hok : vInsnOk w = true) (hex : exec i s = .next (vecRow op t w s))
    (heff : vOp w = op → vecEffect t w s = modVec t g s)
    (hg : vFp w = some ty → g (tileOf s t).vec = vMap (tileOf s t).vec w ty.size (256 / ty.size) (fun i => fpRound ty (f i)))
    (hty : vFp w = some ty) (hop : vOp w = op) : ∃ u, exec i s = .next u ∧
      (∀ i, i < 256 / ty.size → vGet (tileOf u t).vec (vVd w) ty.size i =
        if bit (vMask (tileOf s t).vec (vKm w)) i then fpRound ty (f i) % 256 ^ ty.size else vGet (tileOf s t).vec (vVd w) ty.size i) ∧
      (∀ r sz i, r ≠ vVd w → sz * i + sz ≤ 256 → vGet (tileOf u t).vec r sz i = vGet (tileOf s t).vec r sz i) ∧
      (tileOf u t).vec.k = (tileOf s t).vec.k ∧ (tileOf u t).vec.a = (tileOf s t).vec.a ∧
      (tileOf u t).vec.ovf = (tileOf s t).vec.ovf ∧ (tileOf u t).vec.clamp = (tileOf s t).vec.clamp := by
  obtain ⟨_, hk, ha, ho, hc⟩ := @vecNext_rest (vMap (tileOf s t).vec w ty.size (256 / ty.size) (fun i => fpRound ty (f i)))
  refine ⟨_, row_steps hex heff hop hok, ?_⟩
  rw [vecStep_vec, hg hty]
  exact ⟨fun i hi => vecNext_vGet.trans (vMap_elem hi), fun r sz i hr hi => vecNext_vGet.trans (vMap_other (Nat.le_refl _) hr hi),
    hk, ha, ho, hc⟩

theorem vFpMap_eq {v : Vec} {f : FpType → Nat → FVal} (hty : vFp w = some ty) :
    vFpMap v w f = vMap v w ty.size (256 / ty.size) (fun i => fpRound ty (f ty i)) := by simp [vFpMap, hty]

theorem opVsel_eq {v : Vec} (hty : vFp w = some ty) : opVsel w v = vMap v w ty.size (256 / ty.size)
    (fun i => fpRound ty (if bit (vMask v (vVc w)) i then vSrc v ty (vVa w) i else vSrcB v w ty i)) := by
  simp [opVsel, vFpMap, hty]

end

/-! ### VCMP and VA128RSUM (R96, R104) -/

/-- The bits of a VCMP's mask register after it, as a number. -/
def vcmpBits (ty : FpType) (w : Word) (v : Vec) : Nat :=
  (vLanes v w (256 / ty.size)).foldl (fun m i =>
    setFld m i i (b2n (vCond (wf w 2 0) (vSrc v ty (vVa w) i) (vSrcB v w ty i)))) (vMask v (vVd w))

theorem opVcmp_eq {v : Vec} {ty : FpType} (hty : vFp w = some ty) :
    opVcmp w v = { v with k := tblSet (vVd w) (BitVec.ofNat 128 (vcmpBits ty w v)) v.k } := by
  simp [opVcmp, vcmpBits, hty]

/-- A VCMP never names k0 (R99). -/
theorem vcmp_vd_ne_zero (hok : vInsnOk w = true) (h : vOp w = 0x07) : vVd w ≠ 0 := by
  have hc : vCodesOk w = true := (Bool.and_eq_true_iff.mp hok).2
  simp only [vCodesOk, h, if_true, Bool.and_eq_true, decide_eq_true_eq] at hc
  omega

theorem vcmp_mask {v : Vec} {ty : FpType} (hty : vFp w = some ty) (hd : vVd w ≠ 0) {i : Nat} (hi : i < 128) :
    bit (vMask (opVcmp w v) (vVd w)) i =
      if bit (vMask v (vKm w)) i && decide (i < 256 / ty.size) then vCond (wf w 2 0) (vSrc v ty (vVa w) i) (vSrcB v w ty i)
      else bit (vMask v (vVd w)) i := by
  have hm : vMask (opVcmp w v) (vVd w) = vcmpBits ty w v % 2 ^ 128 := by
    simp [opVcmp_eq hty, vMask, hd]
  rw [hm, bit_eq, Nat.testBit_mod_two_pow, ← bit_eq, vcmpBits, bit_foldFld]
  simp only [mem_vLanes, hi, decide_true, Bool.true_and, Bool.and_eq_true, decide_eq_true_eq, and_comm]

theorem vcmp_other {v : Vec} {ty : FpType} (hty : vFp w = some ty) {k : Nat} (hk : k ≠ vVd w) : vMask (opVcmp w v) k = vMask v k := by
  simp [opVcmp_eq hty, vMask, tblGet_set_ne hk]

/-- The elements that a VA128RSUM writes. -/
def rsumElem (w : Word) (v : Vec) (i : Nat) : Nat := if i = 0 then toCode 128 (a128Sum ((vLanes v w 16).map (vGetA v (vVa w)))).1 else 0

theorem opVa128rsum_vGet {v : Vec} {r sz i : Nat} : vGet (opVa128rsum w v) r sz i =
    vGet (vPut (vVd w) 16 ((List.range 16).map (fun i => (i, rsumElem w v i))) v) r sz i := rfl

theorem rsum_elem {v : Vec} {i : Nat} (hi : i < 16) : vGet (opVa128rsum w v) (vVd w) 16 i =
    if i = 0 then toCode 128 (a128Sum (((List.range 16).filter (fun i => bit (vMask v (vKm w)) i)).map (vGetA v (vVa w)))).1 % 256 ^ 16
    else 0 := by
  rw [opVa128rsum_vGet, vPut_vGet List.nodup_range, if_pos (List.mem_range.mpr hi), rsumElem, vLanes, bitsOf_eq]
  split <;> simp

theorem rsum_other {v : Vec} {r sz i : Nat} (hr : r ≠ vVd w) (hi : sz * i + sz ≤ 256) :
    vGet (opVa128rsum w v) r sz i = vGet v r sz i := by
  rw [opVa128rsum_vGet]
  refine vPut_vGet_other (fun e he => ?_) hr hi
  obtain ⟨j, hj, rfl⟩ := List.mem_map.mp he
  have := List.mem_range.mp hj
  show 16 * j + 16 ≤ 256
  omega

/-- Settles O45: every element-wise row is one masked map over the sources as they were before. -/
theorem vectorElementsFollowTheirMask : Obligations.VectorElementsFollowTheirMask := by
  unfold Obligations.VectorElementsFollowTheirMask
  intro t w ty s ht hok
  have ok : okTile t = true := decide_eq_true ht
  refine ⟨fpRow_elems hok (exec_vadd ok) vecEffect_vadd vFpMap_eq, fpRow_elems hok (exec_vmul ok) vecEffect_vmul vFpMap_eq,
    fpRow_elems hok (exec_vfma ok) vecEffect_vfma vFpMap_eq, fpRow_elems hok (exec_vmax ok) vecEffect_vmax vFpMap_eq,
    fpRow_elems hok (exec_vmin ok) vecEffect_vmin vFpMap_eq, fpRow_elems hok (exec_vsel ok) vecEffect_vsel opVsel_eq,
    fpRow_elems hok (exec_vsign ok) vecEffect_vsign vFpMap_eq, fpRow_elems hok (exec_vexp ok) vecEffect_vexp vFpMap_eq,
    fpRow_elems hok (exec_vlog ok) vecEffect_vlog vFpMap_eq, fpRow_elems hok (exec_vrsqrt ok) vecEffect_vrsqrt vFpMap_eq,
    fun hty hop => ⟨_, row_steps (exec_vcmp ok) vecEffect_vcmp hop hok, ?_⟩,
    fun hop => ⟨_, row_steps (exec_va128rsum ok) vecEffect_va128rsum hop hok, ?_⟩⟩
  · rw [vecStep_vec]
    refine ⟨?_, fun i hi => ?_, fun k hk => vecNext_vMask.trans (vcmp_other hty hk)⟩
    · rw [vecNext_rest.1, opVcmp_eq hty]
    · exact (congrArg (bit · i) vecNext_vMask).trans (vcmp_mask hty (vcmp_vd_ne_zero hok hop) hi)
  · rw [vecStep_vec]
    exact ⟨fun i hi => vecNext_vGet.trans (rsum_elem hi), fun r sz i hr hi => vecNext_vGet.trans (rsum_other hr hi)⟩

/-! ### The update port (R109, R114 to R116, R230) -/

theorem markerEffect_none (h : (tileOf s t).upd = none) : markerEffect t s = s := by simp [markerEffect, h]
theorem writebackEffect_none (h : (tileOf s t).upd = none) : writebackEffect t s = s := by simp [writebackEffect, h]
theorem phase2Effect_none (h : (tileOf s t).upd = none) : phase2Effect t s = s := by simp [phase2Effect, modUpd, h]

section
variable {u : UpdAct} (hu : (tileOf s t).upd = some u)
include hu

theorem markerEffect_writes (hk : u.kept = true) (hm : u.markerWritten = false) (hh : portHeld s t = false) :
    markerEffect t s = modUpd t (fun u => some { u with markerWritten := true })
      (portWrite t (updMarker u.desc) (leBytes 8 u.launched) s) := by simp [markerEffect, hu, hk, hm, hh]

theorem markerEffect_waits (h : u.kept = false ∨ u.markerWritten = true ∨ portHeld s t = true) : markerEffect t s = s := by
  have hn : (u.kept && !u.markerWritten && !portHeld s t) = false := by rcases h with h | h | h <;> simp [h]
  simp [markerEffect, hu, hn]

theorem phase2Effect_begins (hh : portHeld s t = false) :
    phase2Effect t s = setTile t { tileOf s t with upd := some (if u.markerWritten then { u with phase2 := true } else u) } s := by
  simp [phase2Effect, modUpd, hu, hh]

theorem writebackEffect_early (h : u.phase2 = false) : writebackEffect t s = s := by simp [writebackEffect, hu, h]

/-- The blocks of the next pair that the bitmap named. -/
theorem writebackEffect_pair (h : u.phase2 = true) :
    writebackEffect t s = noteNeeds (seqOf s u.stream).part u.stream u.entry
      (modUpd t (fun u => if updPairs u.desc ≤ u.next + 1 then none else some { u with next := u.next + 1 })
        (([2 * u.next, 2 * u.next + 1].filter (fun i => u.map.elem i)).foldl (fun s' i =>
          updateBlock t (seqOf s u.stream).part u (((partOf s (seqOf s u.stream).part).image.map (·.seed)).getD 0) (updFirst u.desc + i) s') s)) := by
  simp only [writebackEffect, hu, h, if_true, List.foldl_map, Nat.add_comm (updFirst u.desc)]
  cases (partOf s (seqOf s u.stream).part).image <;> rfl

end

theorem phase2Effect_waits (h : portHeld s t = true) : phase2Effect t s = s := by simp [phase2Effect, h]

/-- Settles O46: marker, phase 2 and write-back each go on only from the phase before. -/
theorem updatePortKeepsItsPhases : Obligations.UpdatePortKeepsItsPhases := by
  unfold Obligations.UpdatePortKeepsItsPhases
  intro t s ht
  have ok : okTile t = true := decide_eq_true ht
  have hm : exec (.updateMarkerWrite t) s = .next (markerEffect t s) := exec_updateMarkerWrite ok
  have hp : exec (.updatePhase2 t) s = .next (phase2Effect t s) := exec_updatePhase2 ok
  have hw : exec (.updateWriteback t) s = .next (writebackEffect t s) := exec_updateWriteback ok
  refine ⟨fun hu => ⟨hm.trans (congrArg _ (markerEffect_none hu)), hp.trans (congrArg _ (phase2Effect_none hu)),
    hw.trans (congrArg _ (writebackEffect_none hu))⟩, fun u hu => ⟨fun hk hn hh => hm.trans (congrArg _ (markerEffect_writes hu hk hn hh)),
    fun h => hm.trans (congrArg _ (markerEffect_waits hu h)), fun h => hp.trans (congrArg _ (phase2Effect_waits h)),
    fun hh hk => ?_, fun hh hk => ⟨_, hp, ?_⟩, fun h => hw.trans (congrArg _ (writebackEffect_early hu h)),
    fun h => hw.trans (congrArg _ (writebackEffect_pair hu h))⟩⟩
  · rw [hp, phase2Effect_begins hu hh, if_pos hk]
  · rw [phase2Effect_begins hu hh, hk, if_neg Bool.false_ne_true, ← hu]
    exact tileOf_setTile

end Sys2Proof.Machine
end

section
/-! PROOF. Jobs and slots, notices, and lateness with its recovery (O47 to O49). -/

namespace Sys2Proof.Machine

variable {s : State} {p : Nat} {i : Image} {j : Job}

theorem modJob_advance {t : Nat} {f : Job → Job} (hj : jobOf s p = some j) : modJob p f (advance t s) = setJob p (f j) (advance t s) :=
  setJob_some (jobOf_advance.trans hj)

theorem setJob_modJob {k : Job} {f : Job → Job} : modJob p f (setJob p k s) = setJob p (f k) s := by
  rw [setJob_some jobOf_setJob, setJob_setJob]

/-! ### The start of a job (R169) -/

section
variable (hj : jobOf s p = some j)
include hj

theorem t0Effect_begins (hs : j.service = false) (hr : j.running = false) : t0Effect p s = beginJob p j.t0 (advance j.t0 s) := by
  simp [t0Effect, hj, hs, hr]

theorem t0Effect_other (h : j.service = true ∨ j.running = true) : t0Effect p s = s := by
  have hc : (j.service || j.running) = true := by simpa using h
  simp [t0Effect, hj, hc]

end

/-! ### The binding of a request (R185, R365, R421) -/

/-- The instant at which the next slot binds its request. -/
def bindDeadline (s : State) (p : Nat) (i : Image) (j : Job) : Nat :=
  slotOpening i j.t0 (partOf s p).offset (nextSlot j) - 4 * i.bindLead

/-- A request passes the checks of R365. -/
def requestOk (s : State) (p : Nat) (use : List (Bool × Bool)) (d : List Word) : Bool :=
  (List.range 4).all (fun b => bufOk s p (use.getD b (false, false)) (bufOf d b))

theorem setQueue_accepted {q : Nat} {l : List (List Word × Nat)} (h : (queueOf s q).accepted = l) :
    setQueue q { queueOf s q with accepted := l } s = setQueue q (queueOf s q) s := by
  subst h; rfl

section
variable {q dl t : Nat} {use : List (Bool × Bool)} {d : List Word} {rest : List (List Word × Nat)}

theorem bindScan_late (h : dl < t) :
    bindScan p q dl use [] ((d, t) :: rest) s = setQueue q { queueOf s q with accepted := (d, t) :: rest } s := by
  simp [bindScan, h]

theorem bindScan_binds (h : t ≤ dl) (hok : requestOk s p use d = true) : bindScan p q dl use [] ((d, t) :: rest) s =
    modJob p (fun j => { j with nextBound := some { queue := q, desc := d, bufs := (List.range 4).map (fun b => bufExtent s (bufOf d b)) } })
      (setQueue q { queueOf s q with accepted := rest } s) := by
  rw [bindScan, if_neg (Nat.not_lt.mpr h)]
  exact if_pos hok

theorem bindScan_rejects (h : t ≤ dl) (hok : requestOk s p use d = false) : bindScan p q dl use [] ((d, t) :: rest) s =
    bindScan p q dl use [] rest (raiseEvent evRegionFault q (causeOf evRegionFault 0) (pushRec q (descRec d stRegion) s)) := by
  rw [bindScan, if_neg (Nat.not_lt.mpr h)]
  exact if_neg (ne_true_of_eq_false hok)

end

section
variable (hi : (partOf s p).image = some i) (hj : jobOf s p = some j)
include hi hj

theorem slotBindEffect_idle (h : j.service = false ∨ j.nextBound.isSome = true ∨ j.closing.isSome = true) : slotBindEffect p s = s := by
  have hc : (j.service && j.nextBound.isNone && j.closing.isNone) = false := by
    rcases h with h | h | h
    · simp [h]
    · rw [Option.isNone_eq_false_iff.mpr h]; simp
    · rw [Option.isNone_eq_false_iff.mpr h]; simp
  simp [slotBindEffect, hi, hj, hc]

section
variable (hs : j.service = true) (hb : j.nextBound = none) (hc : j.closing = none)
include hs hb hc

theorem slotBindEffect_blocked (h : receiptBlocked (advance (bindDeadline s p i j) s) = true) :
    slotBindEffect p s = setJob p { j with skipped := j.skipped + 1 } (advance (bindDeadline s p i j) s) := by
  rw [bindDeadline] at h ⊢
  simp [slotBindEffect, hi, hj, hs, hb, hc, h, modJob_advance hj]

theorem slotBindEffect_scans (h : receiptBlocked (advance (bindDeadline s p i j) s) = false) : slotBindEffect p s =
    bindScan p i.svcQueue (bindDeadline s p i j) i.bufUse [] (queueOf s i.svcQueue).accepted (advance (bindDeadline s p i j) s) := by
  rw [bindDeadline] at h ⊢
  simp only [slotBindEffect, hi, hj, hs, hb, hc, h]
  rfl

end

/-! ### The opening of a slot (R169, R184, R186) -/

theorem slotOpenEffect_idle (h : j.service = false ∨ j.running = true) : slotOpenEffect p s = s := by
  have hc : (j.service && !j.running) = false := by rcases h with h | h <;> simp [h]
  simp [slotOpenEffect, hi, hj, hc]

end

/-- A slot without a session to close ends with its sequencers armed. -/
def slotEnded (p t : Nat) (s : State) : State :=
  setSeqs p (fun q => if q.st == .done then { q with st := .armed } else q) (advance t s)

theorem endSlot_armed {t : Nat} (hj : jobOf s p = some j) (hc : j.closing = none) : endSlot p (advance t s) = slotEnded p t s := by
  unfold endSlot
  rw [jobOf_advance, hj, Option.any_some, hc]
  rfl

theorem setSeqs_same {f : Seq → Seq} : (setSeqs p f s).parts = s.parts ∧ (setSeqs p f s).level = s.level := by
  unfold setSeqs
  generalize partSeqs s p = l
  induction l generalizing s with
  | nil => exact ⟨rfl, rfl⟩
  | cons a l ih => exact @ih (setSeq a (f (seqOf s a)) s)

theorem slotEnded_jobOf {t : Nat} (hj : jobOf s p = some j) : jobOf (slotEnded p t s) p = some j :=
  (jobOf_congr setSeqs_same.1).trans hj

section
variable (hi : (partOf s p).image = some i) (hj : jobOf s p = some j) (hs : j.service = true) (hr : j.running = false)
include hi hj hs hr

theorem slotOpenEffect_skips (hb : j.nextBound = none) (hc : j.closing = none) : slotOpenEffect p s =
    setJob p { j with slot := j.slot + 1, epochBase := (j.slot + 1) * i.nEpochs }
      (slotEnded p (slotOpening i j.t0 (partOf s p).offset j.slot) s) := by
  simp [slotOpenEffect, hi, hj, hs, hr, endSlot_armed hj hc, slotEnded_jobOf hj, hb, modJob]

theorem slotOpenEffect_begins {b : Bound} (hb : j.nextBound = some b) (hc : j.closing = none) : slotOpenEffect p s =
    beginJob p (slotOpening i j.t0 (partOf s p).offset j.slot)
      (setJob p { freshSlot j with epochBase := j.slot * i.nEpochs, degraded := decide (s.level < 0x1F) }
        (slotEnded p (slotOpening i j.t0 (partOf s p).offset j.slot) s)) := by
  have hl : (slotEnded p (slotOpening i j.t0 (partOf s p).offset j.slot) s).level = s.level := setSeqs_same.2
  simp only [slotOpenEffect, hi, hj, hs, hr, endSlot_armed hj hc, slotEnded_jobOf hj, hb, hl, Option.bind_some]
  rfl

theorem slotOpenEffect_closes (h : jobOf (endSlot p (advance (slotOpening i j.t0 (partOf s p).offset j.slot) s)) p = none) :
    slotOpenEffect p s = endSlot p (advance (slotOpening i j.t0 (partOf s p).offset j.slot) s) := by
  simp [slotOpenEffect, hi, hj, hs, hr, h, modJob]

end

/-! ### The completion and commit of an epoch (R171, R172) -/

/-- The job with its epoch `e` complete on member `m`, whose own commit notice is held. -/
def doneHere (e m : Nat) (j : Job) : Job := { j with localDone := true, commits := setIns (e * 1024 + m) j.commits }

section
variable (hi : (partOf s p).image = some i) (hj : jobOf s p = some j)
include hi hj

theorem epochLocalCompleteEffect_waits (h : j.running = false ∨ j.localDone = true ∨ j.restartAt.isSome = true ∨
    j.notices.any (abandonsEpoch j) = true ∨ epochFinished s i j = false) : epochLocalCompleteEffect p s = s := by
  have hc : (j.running && !j.localDone && j.restartAt.isNone && !j.notices.any (abandonsEpoch j) && epochFinished s i j) = false := by
    rcases h with h | h | h | h | h
    · rw [h]; rfl
    · rw [h]; simp
    · rw [Option.isNone_eq_false_iff.mpr h]; simp
    · rw [h]; simp
    · rw [h]; simp
  simp [epochLocalCompleteEffect, hi, hj, hc]

section
variable (hr : j.running = true) (hl : j.localDone = false) (hs : j.restartAt = none) (ha : j.notices.any (abandonsEpoch j) = false)
  (hf : epochFinished s i j = true)
include hr hl hs ha hf

theorem epochLocalCompleteEffect_eq : epochLocalCompleteEffect p s =
    tryCommit p (modJob p (doneHere (j.epochBase + j.epoch) (selfNo s)) (if 1 < j.members
      then issue p 4 2 (j.epochBase + j.epoch) 0 0 (advance (plannedStart i j (partOf s p).offset j.epoch) s)
      else advance (plannedStart i j (partOf s p).offset j.epoch) s)) := by
  simp only [epochLocalCompleteEffect, hi, hj, hr, hl, hs, ha, hf]
  rfl

theorem epochLocalCompleteEffect_tries (hm : 1 < j.members) : epochLocalCompleteEffect p s =
    tryCommit p (modJob p (doneHere (j.epochBase + j.epoch) (selfNo s))
      (issue p 4 2 (j.epochBase + j.epoch) 0 0 (advance (plannedStart i j (partOf s p).offset j.epoch) s))) := by
  rw [epochLocalCompleteEffect_eq hi hj hr hl hs ha hf, if_pos hm]

theorem epochLocalCompleteEffect_commits (hm : j.members ≤ 1) : epochLocalCompleteEffect p s =
    commitEpoch p (modJob p (doneHere (j.epochBase + j.epoch) (selfNo s)) (advance (plannedStart i j (partOf s p).offset j.epoch) s)) := by
  have hn : (doneHere (j.epochBase + j.epoch) (selfNo s) j).notices.any (abandonsEpoch (doneHere (j.epochBase + j.epoch) (selfNo s) j)) = false := ha
  have hc : ((doneHere (j.epochBase + j.epoch) (selfNo s) j).members ≤ 1) = True := eq_true hm
  rw [epochLocalCompleteEffect_eq hi hj hr hl hs ha hf, if_neg (Nat.not_lt.mpr hm), modJob_advance hj]
  simp [tryCommit, jobOf_setJob, hn, hc, show (doneHere (j.epochBase + j.epoch) (selfNo s) j).localDone = true from rfl]

end
end

/-- Settles O47: each row of a slot or an epoch acts in its one case and else leaves the state. -/
theorem slotsOpenOnTheirGridAndEpochsCommit : Obligations.SlotsOpenOnTheirGridAndEpochsCommit := by
  unfold Obligations.SlotsOpenOnTheirGridAndEpochsCommit
  intro p i j s hp hi hj
  have ok : okPart p = true := decide_eq_true hp
  have ht : exec (.t0Reached p) s = .next (t0Effect p s) := exec_t0Reached ok
  have hb : exec (.slotBind p) s = .next (slotBindEffect p s) := exec_slotBind ok
  have ho : exec (.slotOpen p) s = .next (slotOpenEffect p s) := exec_slotOpen ok
  have hl : exec (.epochLocalComplete p) s = .next (epochLocalCompleteEffect p s) := exec_epochLocalComplete ok
  refine ⟨fun hs hr => ht.trans (congrArg _ (t0Effect_begins hj hs hr)), fun h => ht.trans (congrArg _ (t0Effect_other hj h)),
    fun hs hn hc h => hb.trans (congrArg _ (slotBindEffect_blocked hi hj hs hn hc h)),
    fun h => hb.trans (congrArg _ (slotBindEffect_idle hi hj h)), fun hs hn hc h => ?_,
    fun hs hr hn hc => ho.trans (congrArg _ (slotOpenEffect_skips hi hj hs hr hn hc)),
    fun b hs hr hn hc => ho.trans (congrArg _ (slotOpenEffect_begins hi hj hs hr hn hc)),
    fun hs hr _ h => ho.trans (congrArg _ (slotOpenEffect_closes hi hj hs hr h)),
    fun h => ho.trans (congrArg _ (slotOpenEffect_idle hi hj h)),
    fun hr hd hs ha hf => ⟨fun hm => hl.trans (congrArg _ (epochLocalCompleteEffect_commits hi hj hr hd hs ha hf hm)),
      fun hm => hl.trans (congrArg _ (epochLocalCompleteEffect_tries hi hj hr hd hs ha hf hm))⟩,
    fun h => hl.trans (congrArg _ (epochLocalCompleteEffect_waits hi hj h))⟩
  have hscan := hb.trans (congrArg _ (slotBindEffect_scans hi hj hs hn hc h))
  refine ⟨fun hq => ?_, fun d t rest hq => ⟨fun hd => ?_, fun hd hok => ?_, fun hd hok => ?_⟩⟩
  · rw [hq] at hscan
    exact hscan.trans (congrArg _ (setQueue_accepted hq))
  · rw [hq] at hscan
    exact hscan.trans (congrArg _ ((bindScan_late hd).trans (setQueue_accepted hq)))
  · rw [hq] at hscan
    exact hscan.trans (congrArg _ (bindScan_binds hd hok))
  · rw [hq] at hscan
    exact hscan.trans (congrArg _ (bindScan_rejects hd hok))

/-! ### Notices that arrive (R178, R180, R332) -/

section
variable {pt : Nat} {n : Notice} {f : Nat → State → State} (hp : noticePart s n = some p) (hj : jobOf s p = some j)
include hp hj

theorem receive_seen (h : (n.origin, n.serial) ∈ j.seen) : receive pt n f s = s := by
  simp [receive, hp, hj, h]

theorem receive_new (h : (n.origin, n.serial) ∉ j.seen) :
    receive pt n f s = f p (flood n (some pt) (setJob p { j with seen := j.seen ++ [(n.origin, n.serial)] } s)) := by
  simp [receive, hp, hj, h]

/-- A row for notices of kind `k`: a copy is discarded, a new one is kept and goes on, another kind is none of the row's. -/
theorem noticeRow {k : Nat} {x : Instr} (hex : exec x s = .next (if n.kind = k then receive pt n f s else s)) :
    (n.kind = k → (n.origin, n.serial) ∈ j.seen → exec x s = .next s) ∧
    (n.kind = k → (n.origin, n.serial) ∉ j.seen →
      exec x s = .next (f p (flood n (some pt) (setJob p { j with seen := j.seen ++ [(n.origin, n.serial)] } s)))) ∧
    (n.kind ≠ k → exec x s = .next s) :=
  ⟨fun hk h => hex.trans (congrArg _ ((if_pos hk).trans (receive_seen hp hj h))),
    fun hk h => hex.trans (congrArg _ ((if_pos hk).trans (receive_new hp hj h))), fun hk => hex.trans (congrArg _ (if_neg hk))⟩

end

theorem flood_now {n : Notice} {sk : Option Nat} : now (flood n sk s) = now s := by
  obtain ⟨o, h⟩ := @flood_eq n sk s; rw [h]; rfl

theorem jobOf_flood {n : Notice} {sk : Option Nat} : jobOf (flood n sk s) p = jobOf s p := by
  obtain ⟨o, h⟩ := @flood_eq n sk s; rw [h]; rfl

section
variable {n : Notice} {f : Nat → HeldNotice → State → State} (hj : jobOf s p = some j)
include hj

/-- A notice whose instant lies ahead is held. -/
theorem keepUntil_holds (h : now s ≤ n.instant) :
    keepUntil n f p s = setJob p { j with notices := j.notices ++ [({ n := n } : HeldNotice)] } s := by
  simp only [keepUntil, if_neg (Nat.not_lt.mpr h)]
  exact setJob_some hj

/-- One whose instant has passed is applied on receipt, and counted. -/
theorem keepUntil_applies (h : n.instant < now s) : keepUntil n f p s = f p { n := n } (setJob p { j with
    notices := j.notices ++ [({ n := n } : HeldNotice)], lateNotices := satAdd max32 j.lateNotices 1 } s) := by
  simp only [keepUntil, if_pos h, setJob_some hj, setJob_modJob]

end

/-! ### Probes (R332, R333) -/

/-- The delay of a probe's origin is updated, and the probe goes on. -/
def probeKept (pt : Nat) (n : Notice) (s : State) : State :=
  flood n (some pt) { s with quartz := { s.quartz with probes := tblSet n.origin (now s - n.instant) s.quartz.probes,
                                                       probeSeen := tblSet n.origin n.serial s.quartz.probeSeen } }

section
variable {pt : Nat} {n : Notice}

theorem probeNoticeEffect_new (hk : n.kind = 5) (h : ∀ k, tblGet? s.quartz.probeSeen n.origin = some k → k < n.serial) :
    probeNoticeEffect pt n s = probeKept pt n s := by
  cases hq : tblGet? s.quartz.probeSeen n.origin with
  | none => simp [probeNoticeEffect, hk, hq, probeKept]
  | some k => simp [probeNoticeEffect, hk, hq, probeKept, Nat.not_le.mpr (h k hq)]

theorem probeNoticeEffect_seen {k : Nat} (hk : n.kind = 5) (hq : tblGet? s.quartz.probeSeen n.origin = some k) (h : n.serial ≤ k) :
    probeNoticeEffect pt n s = s := by simp [probeNoticeEffect, hk, hq, h]

theorem probeNoticeEffect_other (hk : n.kind ≠ 5) : probeNoticeEffect pt n s = s := if_neg hk

end

/-- The package is the time root of its route table. -/
def isTimeRoot (s : State) : Bool := match s.route with | some r => r.timeRoot == r.self | none => false

/-- The present time of a probe: not before 10 s after the last. -/
def probeTime (s : State) : State := match s.quartz.lastProbe with | some t => advance (t + 10000000000) s | none => s

/-- The member's own probe. -/
def ownProbe (s : State) : Notice := ⟨5, selfNo s, 0, s.quartz.probeSerial, 0, 0, now (probeTime s), 0⟩

theorem probeSendEffect_eq : probeSendEffect s = if s.quartz.state == .consist || (isTimeRoot s && s.quartz.state == .localRef)
    then flood (ownProbe s) none { probeTime s with quartz := { (probeTime s).quartz with
      lastProbe := some (now (probeTime s)), probeSerial := (s.quartz.probeSerial + 1) % 2 ^ 32 } } else s := rfl

theorem sendsProbes_iff : (s.quartz.state == .consist || (isTimeRoot s && s.quartz.state == .localRef)) = true ↔
    s.quartz.state = .consist ∨ (isTimeRoot s = true ∧ s.quartz.state = .localRef) := by simp

theorem probeSendEffect_waits (h : ¬ (s.quartz.state = .consist ∨ (isTimeRoot s = true ∧ s.quartz.state = .localRef))) :
    probeSendEffect s = s := probeSendEffect_eq.trans (if_neg (mt sendsProbes_iff.mp h))

theorem probeSendEffect_sends (h : s.quartz.state = .consist ∨ (isTimeRoot s = true ∧ s.quartz.state = .localRef)) :
    probeSendEffect s = flood (ownProbe s) none { probeTime s with quartz := { (probeTime s).quartz with
      lastProbe := some (now (probeTime s)), probeSerial := (s.quartz.probeSerial + 1) % 2 ^ 32 } } :=
  probeSendEffect_eq.trans (if_pos (sendsProbes_iff.mpr h))

/-- Settles O48: every notice row is `receive` with what its kind does. -/
theorem noticesAreKeptOnceAndFlooded : Obligations.NoticesAreKeptOnceAndFlooded := by
  unfold Obligations.NoticesAreKeptOnceAndFlooded
  intro pt p n j s hpt hn hp hj
  have ok : (okNport pt && okNotice n) = true := Bool.and_eq_true_iff.mpr ⟨decide_eq_true hpt, hn⟩
  have hprobe : exec (.probeNotice pt n) s = .next (probeNoticeEffect pt n s) := exec_probeNotice ok
  have hsend : exec .probeSend s = .next (probeSendEffect s) := exec_probeSend rfl
  have hheld : jobOf (flood n (some pt) (setJob p { j with seen := j.seen ++ [(n.origin, n.serial)] } s)) p =
      some { j with seen := j.seen ++ [(n.origin, n.serial)] } := jobOf_flood.trans jobOf_setJob
  have hnow : now (flood n (some pt) (setJob p { j with seen := j.seen ++ [(n.origin, n.serial)] } s)) = now s := flood_now
  refine ⟨noticeRow hp hj (exec_holdNotice ok), noticeRow hp hj (exec_replayNotice ok), noticeRow hp hj (exec_abortNotice ok),
    noticeRow hp hj (exec_degradeNotice ok), noticeRow hp hj (exec_commitNotice ok),
    fun f => ⟨fun h => keepUntil_holds hheld (hnow.trans_le h), fun h => keepUntil_applies hheld (h.trans_eq hnow.symm)⟩,
    fun hk h => hprobe.trans (congrArg _ (probeNoticeEffect_new hk h)),
    fun k hk hq h => hprobe.trans (congrArg _ (probeNoticeEffect_seen hk hq h)),
    fun hk => hprobe.trans (congrArg _ (probeNoticeEffect_other hk)),
    fun h => hsend.trans (congrArg _ (probeSendEffect_waits h)), fun h => hsend.trans (congrArg _ (probeSendEffect_sends h))⟩

/-! ### Lateness (R177, R179, R181) -/

section
variable {st t : Nat} {e : Nat × Nat} {x : Entry}

/-- The entry `e` of a stream is reported late at `t`. -/
def reportLate (st t : Nat) (e : Nat × Nat) (s : State) : State :=
  let s1 := advance t s
  let q := seqOf s1 st
  setSeq st { q with reported := q.reported ++ [e], st := if q.st == .wait && e == (q.epoch, q.entry) then .late else q.st } s1

/-- The cause that a hold notice names (log 68). -/
def holdCause (s : State) (st : Nat) (i : Image) (j : Job) (e : Nat × Nat) (x : Entry) : Nat :=
  if x.epoch ≠ j.epoch then 2
  else if actionType x = 0x01 ∨ (e = ((seqOf s st).epoch, (seqOf s st).entry) ∧ mayGate s st i j e.2 x = true) then 1 else 0

theorem latenessEffect_launchable (h : mayLaunch s st = true) : latenessEffect st s = s := by
  cases hj : streamJob s st with
  | none => simp [latenessEffect, hj]
  | some y =>
    obtain ⟨p, i, j⟩ := y
    cases hr : nextReport s p i j st with
    | none => simp [latenessEffect, hj, hr]
    | some r => simp [latenessEffect, hj, hr, h]

theorem latenessEffect_eq (hsj : streamJob s st = some (p, i, j)) (hn : nextReport s p i j st = some (t, e, x)) (hr : j.running = true)
    (hs : j.restartAt = none) (hm : mayLaunch s st = false) : latenessEffect st s =
      if pendingHold (reportLate st t e s) j then reportLate st t e s
      else if i.holdLimit ≤ tblGet 0 j.consec (entryKey st e) then issueAbort p 4 (reportLate st t e s)
      else issue p 0 (holdCause s st i j e x) (j.epochBase + x.epoch) (noticeInstant i (reportLate st t e s)) 1 (reportLate st t e s) := by
  have hc : (if x.epoch ≠ j.epoch then 2
      else if decide (actionType x = 0x01) || (e == ((seqOf s st).epoch, (seqOf s st).entry) && mayGate s st i j e.2 x) then 1 else 0) =
      holdCause s st i j e x := by simp [holdCause]
  rw [← hc]
  simp only [latenessEffect, hsj, hn, hr, hs, hm]
  rfl

section
variable (hi : (partOf s p).image = some i) (hj : jobOf s p = some j)
  (hsj : streamJob s st = some (p, i, j)) (hn : nextReport s p i j st = some (t, e, x)) (hr : j.running = true)
  (hs : j.restartAt = none) (hm : mayLaunch s st = false)
include hsj hn hr hs hm

theorem latenessEffect_pending (hp : pendingHold (reportLate st t e s) j = true) : latenessEffect st s = reportLate st t e s := by
  rw [latenessEffect_eq hsj hn hr hs hm, if_pos hp]

theorem latenessEffect_holds (hp : pendingHold (reportLate st t e s) j = false)
    (hl : tblGet 0 j.consec (entryKey st e) < i.holdLimit) : latenessEffect st s =
      issue p 0 (holdCause s st i j e x) (j.epochBase + x.epoch) (noticeInstant i (reportLate st t e s)) 1 (reportLate st t e s) := by
  rw [latenessEffect_eq hsj hn hr hs hm, if_neg (ne_true_of_eq_false hp), if_neg (Nat.not_le.mpr hl)]

include hi hj

theorem latenessEffect_aborts (hp : pendingHold (reportLate st t e s) j = false)
    (hl : i.holdLimit ≤ tblGet 0 j.consec (entryKey st e)) : latenessEffect st s =
      issue p 2 4 (j.epochBase + j.epoch) (noticeInstant i (reportLate st t e s)) 0 (reportLate st t e s) := by
  have hi' : (partOf (reportLate st t e s) p).image = some i := hi
  have hj' : jobOf (reportLate st t e s) p = some j := hj
  rw [latenessEffect_eq hsj hn hr hs hm, if_neg (ne_true_of_eq_false hp), if_pos hl]
  simp [issueAbort, hi', hj']

end
end

/-! ### The instants of holds, replays and aborts (R174, R175, R180) -/

section
variable {h g : HeldNotice} (hj : jobOf s p = some j)
include hj

theorem holdInstantEffect_due (hd : dueNotice j 0 = some h) : holdInstantEffect p s = applyHold p h (advance h.n.instant s) := by
  simp [holdInstantEffect, hj, hd]

theorem replayInstantEffect_due (hd : dueNotice j 1 = some h) (hn : dueNotice j 0 = none) :
    replayInstantEffect p s = applyReplay p h (advance h.n.instant s) := by simp [replayInstantEffect, hj, hd, hn]

theorem replayInstantEffect_hold (hd : dueNotice j 1 = some h) (hn : dueNotice j 0 = some g) : replayInstantEffect p s =
    if g.n.instant ≤ h.n.instant then applyHold p g (advance g.n.instant s) else applyReplay p h (advance h.n.instant s) := by
  simp [replayInstantEffect, hj, hd, hn]

theorem abortInstantEffect_due (hd : dueNotice j 2 = some h) : abortInstantEffect p s =
    if h.n.cause = 3 then abortJob p stRetire true (advance h.n.instant s) else partReset p (advance h.n.instant s) := by
  simp [abortInstantEffect, hj, hd, applyAbort]

theorem restartEffect_at {r : Nat} (hr : j.restartAt = some r) : restartEffect p s = noteDegraded p (rewind p
    (modJob p (fun j => { j with upds := [], restartAt := none }) (remapPending p (j.upds.foldl (restoreAction p) (advance r s))))) := by
  simp [restartEffect, hj, hr]

end

/-- What an abandoned epoch drops of its job (R58). -/
def dropEpoch (j : Job) : Job :=
  { j with epTrunc := false, epOvf := false, epClamp := false, epOvfN := 0, epClampN := 0, epDigIn := [], epDigOut := [] }

theorem foldTileFlags_parts {l : List Nat} : (l.foldl (fun s t => setTile t (clearTileFlags (tileOf s t)) s) s).parts = s.parts :=
  foldTile_parts (f := fun s t => clearTileFlags (tileOf s t))

theorem modJob_parts {f : Job → Job} {u : State} (h : u.parts = s.parts) : (modJob p f u).parts = (modJob p f s).parts := by
  unfold modJob setJob setPart
  rw [jobOf_congr h, partOf_congr h, h]
  split <;> simp [h]

theorem stopped_parts : (stopActions p (dropFlags p s)).parts = (modJob p dropEpoch s).parts := by
  rw [stop_parts]
  exact modJob_parts foldTileFlags_parts

/-- The job whose epoch a replay stops (R174). -/
def replayedJob (i : Image) (h : HeldNotice) (j : Job) : Job :=
  { j with replayed := true, replays := satAdd 0xFFFF j.replays 1, attempt := j.attempt + 1, localDone := false,
           restartAt := some (h.n.instant + 4 * i.recovery) }

/-- A replay stops the epoch that it names, which launches again recovery later (R174). -/
theorem applyReplay_facts {h : HeldNotice} (hi : (partOf s p).image = some i) (hj : jobOf s p = some j) (hr : j.running = true)
    (he : h.n.epoch = j.epochBase + j.epoch) (hn : h.n.n = 0) : ∃ k, jobOf (applyReplay p h s) p = some k ∧ k.replayed = true ∧
      k.replays = satAdd 0xFFFF j.replays 1 ∧ k.restartAt = some (h.n.instant + 4 * i.recovery) ∧ k.localDone = false ∧
      (partOf (applyReplay p h s) p).offset = (partOf s p).offset := by
  have hs : (stopActions p (dropFlags p (setJob p (markApplied h j) s))).parts =
      (setJob p (dropEpoch (markApplied h j)) s).parts := by rw [stopped_parts, setJob_modJob]
  have hp : applyReplay p h s = setSeqs p (fun q => { q with st := .replay, epoch := j.epoch, entry := 0, inflight := [], done := [], vis := [], reported := [] })
      (modJob p (replayedJob i h)
        (stopActions p (dropFlags p (setJob p (markApplied h j) s)))) := by
    simp [applyReplay, hi, hj, hr, he, hn]
    rfl
  have hparts : (applyReplay p h s).parts = (setJob p (replayedJob i h (dropEpoch (markApplied h j))) s).parts := by
    rw [hp, setSeqs_same.1, modJob_parts hs, setJob_modJob]
  refine ⟨_, (jobOf_congr hparts).trans jobOf_setJob, rfl, rfl, rfl, rfl, ?_⟩
  rw [partOf_congr hparts, setJob, partOf_setPart]

/-! ### Watchdogs (R453, R456) -/

section
variable {st : Nat} {f : Flight} {rest : List Flight} {x : Entry} (hf : (seqOf s st).inflight = f :: rest)
  (hsj : streamJob s st = some (p, i, j)) (hx : (epochEntries i st j.epoch)[f.idx]? = some x)
include hf hsj hx

theorem tileWatchdogEffect_fails {t : Nat} (ht : physOf s st = some t) :
    tileWatchdogEffect st s = retireTile t 4 (advance (f.at_ + budgetOf j x + 100000000) s) := by
  simp [tileWatchdogEffect, hf, hsj, ht, hx]

theorem unitWatchdogEffect_fails : unitWatchdogEffect st s = issueAbort p 4 (recordEntry
    { kind := 1, a := if st < 584 then st - 544 else 64 + (st - 584) } (advance (f.at_ + budgetOf j x + 100000000) s)) := by
  simp [unitWatchdogEffect, hf, hsj, hx]

end

/-- Settles O49: a report is answered by one notice or none, and each instant applies the notice that is due. -/
theorem latenessIsHeldReplayedOrAborted : Obligations.LatenessIsHeldReplayedOrAborted := by
  unfold Obligations.LatenessIsHeldReplayedOrAborted
  intro p st i j s hp hst hi hj
  have ok : okPart p = true := decide_eq_true hp
  have hlate : exec (.latenessReport st) s = .next (latenessEffect st s) := exec_latenessReport (decide_eq_true hst)
  have hhold : exec (.holdInstant p) s = .next (holdInstantEffect p s) := exec_holdInstant ok
  have hreplay : exec (.replayInstant p) s = .next (replayInstantEffect p s) := exec_replayInstant ok
  have hrestart : exec (.restartInstant p) s = .next (restartEffect p s) := exec_restartInstant ok
  have habort : exec (.abortInstant p) s = .next (abortInstantEffect p s) := exec_abortInstant ok
  refine ⟨fun t e x hsj hn hr hs hm => ⟨fun h => hlate.trans (congrArg _ (latenessEffect_pending hsj hn hr hs hm h)),
      fun h hl => hlate.trans (congrArg _ (latenessEffect_aborts hi hj hsj hn hr hs hm h hl)),
      fun h hl => hlate.trans (congrArg _ (latenessEffect_holds hsj hn hr hs hm h hl))⟩,
    fun h => hlate.trans (congrArg _ (latenessEffect_launchable h)), fun h hd => ⟨_, hhold, ?_⟩,
    fun h hd hn => hreplay.trans (congrArg _ (replayInstantEffect_due hj hd hn)),
    fun g h hd hn => hreplay.trans (congrArg _ (replayInstantEffect_hold hj hd hn)),
    fun h hr he hn => applyReplay_facts hi hj hr he hn, fun r hr => hrestart.trans (congrArg _ (restartEffect_at hj hr)),
    fun h hd => habort.trans (congrArg _ (abortInstantEffect_due hj hd)),
    fun f rest x hf hsj hx => ⟨fun t h ht => ?_, fun h => ?_⟩⟩
  · obtain ⟨ho, hnow, hk⟩ := @applyHold_facts p i j h (advance h.n.instant s) hi hj
    rw [holdInstantEffect_due hj hd]
    exact ⟨(Nat.le_max_right _ _).trans_eq hnow.symm, ho, hk⟩
  · exact (exec_tileWatchdog (decide_eq_true h)).trans (congrArg _ (tileWatchdogEffect_fails hf hsj hx ht))
  · exact (exec_unitWatchdog (Bool.and_eq_true_iff.mpr ⟨decide_eq_true h, decide_eq_true hst⟩)).trans
      (congrArg _ (unitWatchdogEffect_fails hf hsj hx))

end Sys2Proof.Machine
end

section
/-! PROOF. The background test of tile memory and of the vault (O50). -/

namespace Sys2Proof.Machine

variable {s u : State} {t m : Nat}

/-! ### What a step's repairs and counts leave -/

/-- The tiles, their memory and the time are as they were. -/
def SameTiles (s u : State) : Prop := u.tiles = s.tiles ∧ now u = now s ∧ u.tileMem = s.tileMem

theorem countCorrected_same {n : Nat} : SameTiles s (countCorrected t m n s) := ⟨rfl, rfl, rfl⟩

theorem softRepair_same {acc : Bool × State} {f : Nat × Bool × Nat} (h : SameTiles s acc.2) : SameTiles s (softRepair t m acc f).2 := by
  unfold softRepair
  dsimp only
  split
  · exact h
  · exact h

theorem softRepairs_same {fails : List (Nat × Bool × Nat)} {acc : Bool × State} (h : SameTiles s acc.2) :
    SameTiles s (fails.foldl (softRepair t m) acc).2 := by
  induction fails generalizing acc with
  | nil => exact h
  | cons f fails ih => exact ih (softRepair_same h)

/-- The number of corrected words stops at the counter's end (R134). -/
theorem ctrGet_countCorrected {n : Nat} (h : ctrGet s 0x0200 (8 * t + m) ≤ max32) :
    ctrGet (countCorrected t m n s) 0x0200 (8 * t + m) = min max32 (ctrGet s 0x0200 (8 * t + m) + n) := by
  have hb : ctrGet (countCorrected t m n s) 0x0200 (8 * t + m) =
      min (2 ^ 64 - 1) (ctrGet s 0x0200 (8 * t + m) + min n (max32 - ctrGet s 0x0200 (8 * t + m))) := tblGet_set_same
  rw [hb]
  unfold max32 at *
  omega

/-- The repairs that a sub-array's rows, or its columns, have had. -/
def repairsOf (s : State) (t m sub : Nat) (row : Bool) : Nat :=
  (s.repairs.filter (fun y => y.mem == 8 * t + m && y.sub == sub && y.row == row)).length

theorem softRepair_spare {sub no : Nat} {row : Bool} (h : repairsOf s t m sub row < 2) :
    softRepair t m (true, s) (sub, row, no) = (true, recordEntry (repairEntry { mem := 8 * t + m, sub := sub, row := row, no := no })
      { s with repairs := s.repairs ++ [{ mem := 8 * t + m, sub := sub, row := row, no := no }] }) := if_neg (Nat.not_le.mpr h)

theorem softRepair_none {sub no : Nat} {row : Bool} (h : 2 ≤ repairsOf s t m sub row) :
    softRepair t m (true, s) (sub, row, no) = (false, s) := if_pos h

/-! ### The walk (R137, R141) -/

theorem regionLast_iff {r : Nat} : regionLast r = true ↔ r % 96 = 95 ∧ r < 384 ∨ r = 399 := by
  unfold regionLast
  split
  · simp only [beq_iff_eq]; omega
  · simp only [beq_iff_eq]; omega

/-- The walk of `s` moved on over the memory of `u`, whose region is rewritten. -/
def walkNext (t m : Nat) (s u : State) : State :=
  let r := (tileOf s t).walk
  setTile t { tileOf s t with
    walk := (r + 1) % 400, tests := tblSet m { testOf s t m with save := [], startAt := none, lastWalk := if r % 96 = 95 ∧ r < 384 ∨ r = 399 then now s else (testOf s t m).lastWalk } (tileOf s t).tests } (eccWrite t (regionAddr r) 4096 u)

theorem walkOn_eq (h : SameTiles s u) : walkOn t m (eccWrite t (regionAddr (tileOf s t).walk) 4096 u) = walkNext t m s u := by
  obtain ⟨ht, hn, _⟩ := h
  have htile : ∀ a, tileOf (eccWrite t a 4096 u) t = tileOf s t := fun a => by
    unfold tileOf; exact congrArg (tblGet {} · t) ht
  have hnow : ∀ a, now (eccWrite t a 4096 u) = now s := fun a => hn
  simp only [walkOn, walkNext, htile, hnow, regionLast_iff]
  rfl

/-! ### The start of a step (R137) -/

theorem testStartEffect_starts (hr : regionMem (tileOf s t).walk = m) (hx : (testOf s t m).startAt = none) (ht : retired s t = false)
    (hq : quiescent s t m = true) : testStartEffect t m s = setTest t m { testOf s t m with
      save := memRead s.tileMem (t * 0x200000 + regionAddr (tileOf s t).walk) 4096, startAt := some (now s) } s := by
  simp [testStartEffect, hr, hx, ht, hq]

theorem testStartEffect_waits (h : regionMem (tileOf s t).walk ≠ m ∨ (testOf s t m).startAt.isSome ∨ retired s t = true ∨
    quiescent s t m = false) : testStartEffect t m s = s := by
  refine if_neg fun hc => ?_
  simp only [Bool.and_eq_true, decide_eq_true_eq, Option.isNone_iff_eq_none] at hc
  obtain ⟨⟨⟨hr, hx⟩, ht⟩, hq⟩ := hc
  rcases h with h | h | h | h
  · exact h hr
  · simp [hx] at h
  · simp [h] at ht
  · simp [h] at hq

/-! ### The end of a step (R134, R138, R139) -/

theorem testDoneEffect_none {o : TestOutcome} (h : regionMem (tileOf s t).walk ≠ m ∨ (testOf s t m).startAt = none) :
    testDoneEffect t m o s = s := by
  refine if_pos ?_
  rcases h with h | h <;> simp [h]

section
variable {o : TestOutcome} (hr : regionMem (tileOf s t).walk = m) (hx : (testOf s t m).startAt.isSome)
include hr hx

theorem testDoneEffect_cut (hs : (testOf s t m).save ≠ memRead s.tileMem (t * 0x200000 + regionAddr (tileOf s t).walk) 4096) :
    testDoneEffect t m o s = abandonStep t m s := by
  simp [testDoneEffect, hr, Option.isSome_iff_ne_none.mp hx, hs]

section
variable (hs : (testOf s t m).save = memRead s.tileMem (t * 0x200000 + regionAddr (tileOf s t).walk) 4096)
include hs

theorem testDoneEffect_abandoned : testDoneEffect t m .abandoned s = abandonStep t m s := by simp [testDoneEffect, hr, Option.isSome_iff_ne_none.mp hx, hs]
theorem testDoneEffect_doubleBit : testDoneEffect t m .doubleBit s = loseRegion t m s := by simp [testDoneEffect, hr, Option.isSome_iff_ne_none.mp hx, hs]
theorem testDoneEffect_pass : testDoneEffect t m .pass s = restoreStep t m 0 [] s := by simp [testDoneEffect, hr, Option.isSome_iff_ne_none.mp hx, hs]
theorem testDoneEffect_singleBit {w : Nat} : testDoneEffect t m (.singleBit w) s = restoreStep t m 1 [] s := by
  simp [testDoneEffect, hr, Option.isSome_iff_ne_none.mp hx, hs]
theorem testDoneEffect_march {c : Bool} {fails : List (Nat × Bool × Nat)} :
    testDoneEffect t m (.march c fails) s = restoreStep t m (b2n c) fails s := by simp [testDoneEffect, hr, Option.isSome_iff_ne_none.mp hx, hs]

end
end

section
variable {n : Nat} {fails : List (Nat × Bool × Nat)}

theorem restoreStep_lost (h : ∃ e ∈ errWords s t (regionAddr (tileOf s t).walk) 4096, 1 < e.2) :
    restoreStep t m n fails s = loseRegion t m s := by
  obtain ⟨e, he, hb⟩ := h
  exact if_pos (List.any_eq_true.mpr ⟨e, he, decide_eq_true hb⟩)

theorem restoreStep_kept (h : ∀ e ∈ errWords s t (regionAddr (tileOf s t).walk) 4096, e.2 ≤ 1) : restoreStep t m n fails s =
    let f := fails.foldl (softRepair t m) (true, countCorrected t m (n + (errWords s t (regionAddr (tileOf s t).walk) 4096).length) s)
    if f.1 then walkNext t m s f.2 else retireTile t 3 (walkNext t m s f.2) := by
  have hn : ¬ ((errWords s t (regionAddr (tileOf s t).walk) 4096).any (fun e => decide (1 < e.2)) = true) := by
    intro hc
    obtain ⟨e, he, hb⟩ := List.any_eq_true.mp hc
    exact Nat.not_lt.mpr (h e he) (of_decide_eq_true hb)
  refine (if_neg hn).trans ?_
  dsimp only
  rw [walkOn_eq (softRepairs_same (countCorrected_same (s := s)))]

theorem testDoneEffect_lost {o : TestOutcome} (hr : regionMem (tileOf s t).walk = m) (hx : (testOf s t m).startAt.isSome)
    (hs : (testOf s t m).save = memRead s.tileMem (t * 0x200000 + regionAddr (tileOf s t).walk) 4096)
    (h : ∃ e ∈ errWords s t (regionAddr (tileOf s t).walk) 4096, 1 < e.2) (ho : o ≠ .abandoned) :
    testDoneEffect t m o s = loseRegion t m s := by
  cases o with
  | abandoned => exact absurd rfl ho
  | pass => rw [testDoneEffect_pass hr hx hs, restoreStep_lost h]
  | singleBit w => rw [testDoneEffect_singleBit hr hx hs, restoreStep_lost h]
  | march c fails => rw [testDoneEffect_march hr hx hs, restoreStep_lost h]
  | doubleBit => exact testDoneEffect_doubleBit hr hx hs

end

/-! ### The vault (R144 to R146) -/

section
variable {hd : Nat}

theorem vaultTestEffect_passes (hw : (vaultOf s hd).wiping = none) (hb : (vaultOf s hd).bad = false) {o : EccOutcome}
    (ho : o ≠ .uncorrectable) :
    vaultTestEffect hd o s = setVault hd { vaultOf s hd with region := ((vaultOf s hd).region + 1) % 2048 } s := by
  cases o with
  | uncorrectable => exact absurd rfl ho
  | clean => simp [vaultTestEffect, hw, hb]
  | corrected => simp [vaultTestEffect, hw, hb]

theorem vaultTestEffect_fails (hw : (vaultOf s hd).wiping = none) {o : EccOutcome}
    (h : (vaultOf s hd).bad = true ∨ o = .uncorrectable) : vaultTestEffect hd o s = enterSafe 0x06 (dieHD hd) (wipeVault hd s) := by
  rcases h with h | h <;> simp [vaultTestEffect, hw, h]

theorem vaultTestEffect_wiping {w : Nat} (hw : (vaultOf s hd).wiping = some w) {o : EccOutcome} : vaultTestEffect hd o s = s := by
  simp [vaultTestEffect, hw]

theorem vaultWipeEffect_ends {w : Nat} (hw : (vaultOf s hd).wiping = some w) :
    vaultWipeEffect hd s = setVault hd { vaultOf s hd with wiping := none } (advance w s) := by
  simp only [vaultWipeEffect, hw]
  rfl

theorem vaultWipeEffect_none (hw : (vaultOf s hd).wiping = none) : vaultWipeEffect hd s = s := by simp [vaultWipeEffect, hw]

end

/-- Settles O50: a step that was not cut short restores what it saved, with its counts and repairs, or loses the tile. -/
theorem backgroundTestsKeepMemory : Obligations.BackgroundTestsKeepMemory := by
  unfold Obligations.BackgroundTestsKeepMemory
  intro t m s ht hm
  have ok : (okTile t && decide (m < 5)) = true := Bool.and_eq_true_iff.mpr ⟨decide_eq_true ht, decide_eq_true hm⟩
  have hstart : exec (.testStepStart t m) s = .next (testStartEffect t m s) := exec_testStepStart ok
  have hdone : ∀ o, okOutcome m o = true → exec (.testStepComplete t m o) s = .next (testDoneEffect t m o s) :=
    fun o ho => exec_testStepComplete (Bool.and_eq_true_iff.mpr ⟨ok, ho⟩)
  refine ⟨fun hr hx hn hq => hstart.trans (congrArg _ (testStartEffect_starts hr hx hn hq)),
    fun h => hstart.trans (congrArg _ (testStartEffect_waits h)),
    fun o ho h => (hdone o ho).trans (congrArg _ (testDoneEffect_none h)),
    fun o ho hr hx => ⟨fun hs => (hdone o ho).trans (congrArg _ (testDoneEffect_cut hr hx hs)), fun hs =>
      ⟨(hdone _ rfl).trans (congrArg _ (testDoneEffect_abandoned hr hx hs)),
        (hdone _ rfl).trans (congrArg _ (testDoneEffect_doubleBit hr hx hs)),
        fun he hne => (hdone o ho).trans (congrArg _ (testDoneEffect_lost hr hx hs he hne)), fun he => ⟨?_, fun w => ?_, fun c fails hf => ⟨?_, ?_⟩⟩⟩⟩,
    fun n h => ctrGet_countCorrected h, fun sub row no => ⟨fun h => softRepair_spare h, fun h => softRepair_none h⟩, fun hd hhd => ?_⟩
  · rw [hdone _ rfl, testDoneEffect_pass hr hx hs, restoreStep_kept he, Nat.zero_add]
    rfl
  · rw [hdone _ rfl, testDoneEffect_singleBit hr hx hs, restoreStep_kept he]
    rfl
  · rw [hdone _ hf, testDoneEffect_march hr hx hs, restoreStep_kept he]
    rfl
  · exact (softRepairs_same (fails := fails) (acc := (true, countCorrected t m _ s)) countCorrected_same).2.2
  · have okh : okHub hd = true := decide_eq_true hhd
    have hstep : ∀ o, exec (.vaultTestStep hd o) s = .next (vaultTestEffect hd o s) := fun o => exec_vaultTestStep okh
    have hwipe : exec (.vaultWipeComplete hd) s = .next (vaultWipeEffect hd s) := exec_vaultWipeComplete okh
    exact ⟨fun hw hb o ho => (hstep o).trans (congrArg _ (vaultTestEffect_passes hw hb ho)),
      fun hw o h => (hstep o).trans (congrArg _ (vaultTestEffect_fails hw h)),
      fun w hw => ⟨fun o => (hstep o).trans (congrArg _ (vaultTestEffect_wiping hw)),
        hwipe.trans (congrArg _ (vaultWipeEffect_ends hw))⟩,
      fun hw => hwipe.trans (congrArg _ (vaultWipeEffect_none hw))⟩

end Sys2Proof.Machine
end

section
/-! PROOF. Buckets, switches of extents, sectors, blocks, scrubs and the Tender's restart (O51). -/

namespace Sys2Proof.Machine

variable {s u : State} {x : Nat}

/-! ### Refills (R198, R219) -/

theorem refillBucket_unowed {b : Bucket} (h : b.owed = 0) : refillBucket b = { b with tokens := min b.burst (b.tokens + b.rate) } := by
  obtain ⟨⟩ := b
  subst h
  simp [refillBucket, payBucket]

theorem tblGet?_refilled {t : Tbl Bucket} {k : Nat} {b : Bucket} (hb : tblGet? t k = some b) (ho : b.owed = 0) :
    tblGet? (t.map (fun e => (e.1, refillBucket e.2))) k = some { b with tokens := min b.burst (b.tokens + b.rate) } := by
  rw [tblGet?_map (f := fun e => (e.1, refillBucket e.2)) (fun _ => rfl), hb, Option.map_some, refillBucket_unowed ho]

/-! ### What charges leave (R198, R219) -/

theorem chargeHbm_eq {k c : Nat} : ∃ b, chargeHbm k c s = { s with hbmBuckets := b } := by
  unfold chargeHbm
  split
  · exact ⟨_, rfl⟩
  · exact ⟨s.hbmBuckets, rfl⟩

theorem chargeFrame_eq {die p n : Nat} : ∃ b, chargeFrame die p n s = { s with hbmBuckets := b } := by
  unfold chargeFrame
  generalize List.range 4 = l
  induction l generalizing s with
  | nil => exact ⟨s.hbmBuckets, rfl⟩
  | cons k l ih =>
    obtain ⟨b, hb⟩ := @chargeHbm_eq s ((4 * die + k) * 16 + p) (16 * n)
    obtain ⟨b', hb'⟩ := @ih (chargeHbm ((4 * die + k) * 16 + p) (16 * n) s)
    exact ⟨b', by rw [List.foldl_cons, hb', hb]⟩

theorem noteTransition_eq {r : Option TierReq} {p : Nat} : ∃ q, noteTransition r p s = { s with seqs := q } := by
  unfold noteTransition
  split
  · unfold noteNeeds
    dsimp only
    split
    · exact ⟨s.seqs, rfl⟩
    · exact ⟨_, rfl⟩
  · exact ⟨s.seqs, rfl⟩

theorem chargePass_eq {n : Nat} : ∃ b q, chargePass x n s = { s with hbmBuckets := b, seqs := q } := by
  unfold chargePass
  dsimp only
  split
  · next p _ =>
    obtain ⟨b, hb⟩ := @chargeFrame_eq s (extOf s x).die p n
    obtain ⟨q, hq⟩ := @noteTransition_eq (chargeFrame (extOf s x).die p n s) (extOf s x).doing p
    exact ⟨b, q, by rw [hq, hb]⟩
  · exact ⟨s.hbmBuckets, s.seqs, rfl⟩

/-! ### The switch of a promotion (R216, R229) -/

/-- Memory, flash and the extents are as they were. -/
def SameTier (s u : State) : Prop := u.mem = s.mem ∧ u.flash = s.flash ∧ u.exts = s.exts

theorem extOf_congr (h : u.exts = s.exts) : extOf u x = extOf s x := by unfold extOf; rw [h]

/-- What a promotion's sectors cost: their array reads, and the tokens at both ends. -/
def promotionCharged (x : Nat) (s : State) : State :=
  let s1 := (List.range 512).foldl (fun s k => arrayRead x k s) s
  match (extOf s x).doing.bind promotePart with
  | some p => noteTransition (extOf s x).doing p (chargeFlash (flashStack x * 16 + p) 512 (chargeFrame (extOf s x).die p 512 s1))
  | none => s1

theorem promotionCharged_same : SameTier s (promotionCharged x s) := by
  obtain ⟨st, c, hr⟩ := @arrayReads_eq x (List.range 512) s
  unfold promotionCharged
  dsimp only
  rw [hr]
  split
  · next p _ =>
    obtain ⟨b, hb⟩ := @chargeFrame_eq { s with flStacks := st, ctr := c } (extOf s x).die p 512
    obtain ⟨b', hb'⟩ := @chargeFlash_eq (flashStack x * 16 + p) 512 (chargeFrame (extOf s x).die p 512 { s with flStacks := st, ctr := c })
    obtain ⟨q, hq⟩ := @noteTransition_eq
      (chargeFlash (flashStack x * 16 + p) 512 (chargeFrame (extOf s x).die p 512 { s with flStacks := st, ctr := c })) (extOf s x).doing p
    rw [hq, hb', hb]
    exact ⟨rfl, rfl, rfl⟩
  · exact ⟨rfl, rfl, rfl⟩

theorem promotionSwitchEffect_switches (hp : (extOf s x).st = .promoting) (ht : tenderServes s x = true) :
    promotionSwitchEffect x s = afterSwitch x (promoteSwitch x (promotionCharged x s)) := by
  simp only [promotionSwitchEffect, hp, ht]
  rfl

theorem promotionSwitchEffect_waits (h : (extOf s x).st ≠ .promoting ∨ tenderServes s x = false) : promotionSwitchEffect x s = s := by
  refine if_neg fun hc => ?_
  obtain ⟨hp, ht⟩ := Bool.and_eq_true_iff.mp hc
  rcases h with h | h
  · exact h (eq_of_beq hp)
  · rw [h] at ht; cases ht

/-- After the switch the extent is in HBM, clean, with a retained copy, and its bytes are unchanged. -/
theorem promoteSwitch_facts (h : SameTier s u) : (promoteSwitch x u).mem = s.mem ∧ (promoteSwitch x u).flash = s.flash ∧
    (extOf (promoteSwitch x u) x).st = .hbm ∧ (extOf (promoteSwitch x u) x).dirty = 0 ∧ (extOf (promoteSwitch x u) x).retained = true ∧
    (extOf (promoteSwitch x u) x).frame = (extOf s x).frame ∧ (extOf (promoteSwitch x u) x).die = (extOf s x).die := by
  obtain ⟨hm, hf, he⟩ := h
  simp only [promoteSwitch, extOf_setExt, extOf_congr he]
  exact ⟨hm, hf, trivial, trivial, trivial, trivial, trivial⟩

/-- A package without a PART_CREATE that waits has none to settle. -/
theorem settleCreate_none (h : ∀ e ∈ u.parts, e.2.creating = none) : settleCreate u = u := by
  have hf : u.parts.filter (fun e => e.2.creating.isSome) = [] :=
    List.filter_eq_nil_iff.mpr fun e he => by rw [h e he]; exact Bool.false_ne_true
  unfold settleCreate
  rw [hf]
  rfl

/-! ### Passes of a demotion (R228, R230) -/

theorem pokes_flash {l : List DWrite} : (l.foldl (fun s w => poke w.addr w.data s) s).flash = s.flash := by
  induction l generalizing s with
  | nil => rfl
  | cons w l ih =>
    obtain ⟨e, he⟩ := @poke_eq s w.addr w.data
    rw [List.foldl_cons, ih, he]

theorem drainHome_flash {n : Nat} {p : DWrite → Bool} : (drainHome n p s).flash = s.flash := pokes_flash

theorem drainExtent_flash : (drainExtent x s).flash = s.flash := by
  unfold drainExtent
  generalize (s.homes.filter _).map (·.1) = l
  induction l generalizing s with
  | nil => rfl
  | cons n l ih => rw [List.foldl_cons, ih, drainHome_flash]

theorem hbmCorrected_flash {l : Nat} : (hbmCorrected l s).flash = s.flash := by
  unfold hbmCorrected
  dsimp only
  split <;> split <;> rfl

theorem drawnBytes_flash {l : Nat} {is : List Nat} :
    (is.foldl (fun (s : State) i => { (draw s).2 with mem := memWrite (draw s).2.mem (l * 64 + 8 * i) (leBytes 8 (draw s).1.toNat) }) s).flash =
      s.flash := by
  induction is generalizing s with
  | nil => rfl
  | cons i is ih => rw [List.foldl_cons, ih]; rfl

theorem actOnError_flash {l : Nat} {o : EccOutcome} : (actOnError l o s).flash = s.flash := by
  cases o with
  | clean =>
    unfold actOnError
    dsimp only
    split
    · rfl
    · exact drawnBytes_flash (s := { s with lineErr := tblDel l s.lineErr })
  | corrected => exact hbmCorrected_flash (s := { s with lineErr := tblDel l s.lineErr })
  | uncorrectable => rfl

theorem meetError_flash {l : Nat} : (meetError l s).flash = s.flash := by
  unfold meetError
  split
  · exact actOnError_flash
  · rfl

theorem meetErrors_flash {ls : List Nat} : (ls.foldl (fun s l => meetError l s) s).flash = s.flash := by
  induction ls generalizing s with
  | nil => rfl
  | cons l ls ih => rw [List.foldl_cons, ih, meetError_flash]

theorem carryErrors_flash : (carryErrors x s).flash = s.flash := by
  unfold carryErrors
  split
  · rfl
  · dsimp only
    exact meetErrors_flash

theorem carryErrors_mem (h : s.lineErr = []) : (carryErrors x s).mem = s.mem := by
  unfold carryErrors
  rw [h]
  split
  · rfl
  · dsimp only [List.filter_nil, List.map_nil]
    rfl

/-- Bytes of memory and of flash are as they were. -/
theorem releaseFrame_mem {e : Ext} : (releaseFrame e s).mem = s.mem := by
  unfold releaseFrame
  split
  · unfold giveHeldFrame
    dsimp only
    split <;> rfl
  · rfl

theorem toFlash_bytes : (toFlash x s).mem = s.mem ∧ (toFlash x s).flash = s.flash := ⟨releaseFrame_mem, releaseFrame_flash⟩

theorem demoteSwitch_bytes : (demoteSwitch x s).mem = (commitFlash x s).mem ∧ (demoteSwitch x s).flash = (commitFlash x s).flash := by
  unfold demoteSwitch
  dsimp only
  split
  · exact ⟨rfl, rfl⟩
  · exact toFlash_bytes

/-- The switch commits the present bytes of the extent. -/
theorem demoteSwitch_commits :
    (demoteSwitch x s).flash = memCopyRange (x * extSize) extSize (demoteSwitch x s).mem s.flash := by
  obtain ⟨hm, hf⟩ := @demoteSwitch_bytes s x
  have hc : (commitFlash x s).flash = memCopyRange (x * extSize) extSize (commitFlash x s).mem (carryErrors x s).flash := rfl
  rw [hm, hf, hc, carryErrors_flash]

theorem demoteSwitch_mem (h : s.lineErr = []) : (demoteSwitch x s).mem = s.mem :=
  demoteSwitch_bytes.1.trans (carryErrors_mem h)

theorem demoteSwitch_st : (extOf (demoteSwitch x s) x).st = if (extOf s x).why = .writeBack then .hbm else .flash := by
  unfold demoteSwitch
  dsimp only
  split
  · next h => rw [if_pos (eq_of_beq h), extOf_setExt]
  · next h => rw [if_neg (fun e => h (beq_iff_eq.mpr e))]; simp [toFlash]

/-- What the first pass of a demotion that switches costs. -/
def passCharged (x : Nat) (s u : State) : State :=
  if (extOf s x).passes = 0 then chargePass x (popcount 512 (extOf s x).copying.toNat) u else u

theorem passCharged_same : SameTier u (passCharged x s u) ∧ (passCharged x s u).lineErr = u.lineErr := by
  unfold passCharged
  split
  · obtain ⟨b, q, h⟩ := @chargePass_eq u x (popcount 512 (extOf s x).copying.toNat)
    rw [h]
    exact ⟨⟨rfl, rfl, rfl⟩, rfl⟩
  · exact ⟨⟨rfl, rfl, rfl⟩, rfl⟩

section
variable (hd : (extOf s x).st = .demoting) (ht : tenderServes s x = true) (hr : (extOf s x).copying = 0 ∨ stackReadOnly s x = false)
include hd ht hr

theorem demotionPassEffect_eq : demotionPassEffect x s =
    if (extOf (drainExtent x s) x).dirty == 0 then afterSwitch x (demoteSwitch x (passCharged x s (drainExtent x s)))
    else
      let s2 := settleExtent x (drainExtent x s)
      let e2 := extOf s2 x
      setExt x { e2 with copying := e2.copying ||| e2.dirty, dirty := 0, passes := e2.passes + 1 }
        (chargePass x (popcount 512 e2.dirty.toNat + if (extOf s x).passes = 0 then popcount 512 (extOf s x).copying.toNat else 0) s2) := by
  have hc : ((extOf s x).copying == 0 || !stackReadOnly s x) = true := by rcases hr with h | h <;> simp [h]
  unfold demotionPassEffect
  dsimp only
  rw [hd, ht, hc]
  rfl

theorem demotionPassEffect_switches (hz : (extOf (drainExtent x s) x).dirty = 0) :
    demotionPassEffect x s = afterSwitch x (demoteSwitch x (passCharged x s (drainExtent x s))) :=
  (demotionPassEffect_eq hd ht hr).trans (if_pos (beq_iff_eq.mpr hz))

theorem demotionPassEffect_again (hz : (extOf (drainExtent x s) x).dirty ≠ 0) : demotionPassEffect x s =
    (let s2 := settleExtent x (drainExtent x s)
     let e2 := extOf s2 x
     setExt x { e2 with copying := e2.copying ||| e2.dirty, dirty := 0, passes := e2.passes + 1 }
      (chargePass x (popcount 512 e2.dirty.toNat + if (extOf s x).passes = 0 then popcount 512 (extOf s x).copying.toNat else 0) s2)) :=
  (demotionPassEffect_eq hd ht hr).trans (if_neg fun h => hz (eq_of_beq h))

end

theorem demotionPassEffect_waits (h : (extOf s x).st ≠ .demoting ∨ tenderServes s x = false ∨
    ((extOf s x).copying ≠ 0 ∧ stackReadOnly s x = true)) : demotionPassEffect x s = s := by
  refine if_neg fun hc => ?_
  simp only [Bool.and_eq_true, Bool.or_eq_true, beq_iff_eq, Bool.not_eq_true'] at hc
  obtain ⟨⟨hd, ht⟩, hr⟩ := hc
  rcases h with h | h | ⟨h1, h2⟩
  · exact h hd
  · rw [h] at ht; cases ht
  · rcases hr with hr | hr
    · exact h1 hr
    · rw [h2] at hr; cases hr

/-! ### Sector reads (R218, R224) -/

section
variable {k : Nat}

/-- The sector has been read from its array at this instant (log 60). -/
def sectorSeen (s : State) (x k : Nat) : Prop := s.sectors.1 = now s ∧ setHas s.sectors.2 (x * 512 + k) = true

/-- The reads that the block of a sector has had; the block as `s` has it. -/
def sectorReads (s u : State) (x k : Nat) : Nat := tblGet 0 (stackOf u (flashStack x)).reads (sectorBlock s x k)

theorem arrayRead_reads : sectorReads s (arrayRead x k s) x k = sectorReads s s x k + 1 := by
  have hst : stackOf (arrayRead x k s) (flashStack x) = { stackOf s (flashStack x) with
      reads := tblSet (sectorBlock s x k) (sectorReads s s x k + 1) (stackOf s (flashStack x)).reads,
      queued := if sectorReads s s x k + 1 = 2 ^ 24 then (stackOf s (flashStack x)).queued ++ [sectorBlock s x k] else (stackOf s (flashStack x)).queued } := by
    unfold arrayRead
    dsimp only
    split <;> exact tblGet_set_same
  unfold sectorReads
  rw [hst]
  exact tblGet_set_same

theorem sectorArray_eq : ∃ st c sec, sectorArray (x * 512 + k) s = { s with flStacks := st, ctr := c, sectors := sec } := by
  unfold sectorArray
  dsimp only
  generalize (if s.sectors.1 = now s then s.sectors.2 else []) = seen
  split
  · exact ⟨s.flStacks, s.ctr, s.sectors, rfl⟩
  · generalize setIns _ _ = sec
    obtain ⟨st, c, h⟩ := @arrayRead_eq ((x * 512 + k) / 512) ((x * 512 + k) % 512) { s with sectors := (now s, sec) }
    exact ⟨st, c, _, h⟩

theorem sectorArray_seen (h : sectorSeen s x k) : sectorArray (x * 512 + k) s = s := by
  obtain ⟨hn, hs⟩ := h
  simp [sectorArray, hn, hs]

theorem sectorArray_unseen (hk : k < 512) (h : ¬ sectorSeen s x k) :
    sectorReads s (sectorArray (x * 512 + k) s) x k = sectorReads s s x k + 1 := by
  have hn : ¬ setHas (if s.sectors.1 = now s then s.sectors.2 else []) (x * 512 + k) = true := by
    split
    · next hn => exact fun hs => h ⟨hn, hs⟩
    · exact Bool.false_ne_true
  have hx : (x * 512 + k) / 512 = x := by omega
  have hk' : (x * 512 + k) % 512 = k := by omega
  unfold sectorArray
  dsimp only
  rw [if_neg hn, hx, hk']
  exact arrayRead_reads (s := { s with sectors := (now s, setIns (x * 512 + k) (if s.sectors.1 = now s then s.sectors.2 else [])) })

/-- The state after a clean sector read, but for what it returns. -/
def sectorCharged (r : Requester) (x k : Nat) (s : State) : State :=
  match requesterPart s r with
  | some p => chargeFlash (flashStack x * 16 + p) 1 (sectorArray (x * 512 + k) s)
  | none => sectorArray (x * 512 + k) s

variable {r : Requester}

theorem sectorCharged_eq : ∃ b, sectorCharged r x k s = { sectorArray (x * 512 + k) s with flBuckets := b } := by
  unfold sectorCharged
  split
  · exact chargeFlash_eq
  · exact ⟨(sectorArray (x * 512 + k) s).flBuckets, rfl⟩

theorem sectorReads_charged : sectorReads s (sectorCharged r x k s) x k = sectorReads s (sectorArray (x * 512 + k) s) x k := by
  obtain ⟨b, h⟩ := @sectorCharged_eq s x k r
  rw [h]; rfl

theorem sectorCharged_frame : (sectorCharged r x k s).mem = s.mem ∧
    ∀ a n, rangePoisoned (sectorCharged r x k s) a n = rangePoisoned s a n := by
  obtain ⟨b, hb⟩ := @sectorCharged_eq s x k r
  obtain ⟨st, c, sec, hs⟩ := @sectorArray_eq s x k
  rw [hb, hs]
  exact ⟨rfl, fun _ _ => rfl⟩

/-- What a sector read returns. -/
def sectorGot (r : Requester) (x k : Nat) (s : State) : ReadRet :=
  { req := r, addr := x * extSize + k * 4096, data := peek s (x * extSize + k * 4096) 4096,
    poison := rangePoisoned s (x * extSize + k * 4096) 4096 }

theorem sectorReadEffect_clean (hb : inHbm s x = false) (ht : tenderHolds s x = false) :
    sectorReadEffect r x k .clean s = { sectorCharged r x k s with ret := some (sectorGot r x k s) } := by
  obtain ⟨hm, hp⟩ := @sectorCharged_frame s x k r
  have hg : sectorGot r x k (sectorCharged r x k s) = sectorGot r x k s := by unfold sectorGot; rw [hp, peek, hm]; rfl
  rw [← hg]
  unfold sectorReadEffect
  rw [hb, ht]
  rfl

theorem sectorReadEffect_other {o : EccOutcome} (h : inHbm s x = true ∨ tenderHolds s x = true) : sectorReadEffect r x k o s = s :=
  if_pos (by simpa using h)

end

/-! ### Fresh blocks (R223) -/

section
variable {t : Stack} {b : Nat}

/-- The blocks that a stack may not take as fresh for block `b`. -/
def takenBlocks (t : Stack) (b : Nat) : List Nat := b :: (t.bad ++ t.reloc.map (·.2) ++ t.moved.map (·.2) ++ t.reads.map (·.1))

theorem takenBlocks_length : (takenBlocks t b).length = t.bad.length + t.reloc.length + t.moved.length + t.reads.length + 1 := by
  simp [takenBlocks, Nat.add_assoc]

theorem mem_of_tblGet?_isSome {α : Type} {m : Tbl α} {k : Nat} (h : (tblGet? m k).isSome = true) : k ∈ m.map (·.1) := by
  induction m with
  | nil => cases h
  | cons e m ih =>
    unfold tblGet? at h
    by_cases hk : e.1 = k
    · exact List.mem_cons.mpr (.inl hk.symm)
    · exact List.mem_cons.mpr (.inr (ih (by simpa [hk] using h)))

theorem mem_takenBlocks {n : Nat} (h : blockFree t b n = false) : n ∈ takenBlocks t b := by
  unfold blockFree at h
  simp only [Bool.not_eq_false', Bool.or_eq_true, decide_eq_true_eq, List.any_eq_true, beq_iff_eq, setHas, List.elem_eq_mem] at h
  simp only [takenBlocks, List.mem_cons, List.mem_append]
  rcases h with (((h | h) | ⟨e, he, h⟩) | ⟨e, he, h⟩) | h
  · exact .inl h
  · exact .inr (.inl (.inl (.inl h)))
  · exact .inr (.inl (.inl (.inr (List.mem_map.mpr ⟨e, he, h⟩))))
  · exact .inr (.inl (.inr (List.mem_map.mpr ⟨e, he, h⟩)))
  · exact .inr (.inr (mem_of_tblGet?_isSome h))

/-- A search that ends at a block that is not free has met none. -/
theorem freeFrom_none {f n : Nat} (h : blockFree t b (freeFrom t b f n) = false) : ∀ i ≤ f, blockFree t b ((n + i) % 131072) = false := by
  induction f generalizing n with
  | zero =>
    intro i hi
    obtain rfl : i = 0 := by omega
    exact h
  | succ f ih =>
    by_cases hn : blockFree t b (n % 131072) = true
    · rw [freeFrom, if_pos hn, hn] at h
      cases h
    · rw [freeFrom, if_neg hn] at h
      intro i hi
      cases i with
      | zero => exact Bool.eq_false_iff.mpr hn
      | succ i =>
        have := ih h i (by omega)
        rwa [show n + 1 + i = n + (i + 1) by omega] at this

theorem freeFrom_lt {f n : Nat} : freeFrom t b f n < 131072 := by
  induction f generalizing n with
  | zero => exact Nat.mod_lt _ (by decide)
  | succ f ih =>
    unfold freeFrom
    split
    · exact Nat.mod_lt _ (by decide)
    · exact ih

/-- More blocks than are taken cannot all be taken. -/
theorem freshBlock_free {v : Nat} (h : t.bad.length + t.reloc.length + t.moved.length + t.reads.length < 131071) :
    blockFree t b (freshBlock t b v) = true := by
  by_contra hc
  have hall := freeFrom_none (Bool.eq_false_iff.mpr hc)
  have hsub : ((List.range ((takenBlocks t b).length + 1)).map (fun i => (v + i) % 131072)).toFinset ⊆ (takenBlocks t b).toFinset := by
    intro n hn
    obtain ⟨i, hi, rfl⟩ := List.mem_map.mp (List.mem_toFinset.mp hn)
    rw [List.mem_range, takenBlocks_length] at hi
    exact List.mem_toFinset.mpr (mem_takenBlocks (hall i (by omega)))
  have hnd : ((List.range ((takenBlocks t b).length + 1)).map (fun i => (v + i) % 131072)).Nodup := by
    refine List.Nodup.map_on (fun i hi j hj he => ?_) List.nodup_range
    rw [List.mem_range, takenBlocks_length] at hi hj
    omega
  have hcard := Finset.card_le_card hsub
  rw [List.toFinset_card_of_nodup hnd, List.length_map, List.length_range] at hcard
  have := List.toFinset_card_le (takenBlocks t b)
  omega

end

/-! ### Relocation and worn blocks (R224 to R228) -/

section
variable {f b : Nat}

/-- The Tender of a stack serves. -/
def serves (s : State) (f : Nat) : Prop := (tblGet {} s.tenders (f / 2)).restarting = false ∧ (tblGet {} s.tenders (f / 2)).dead = false

theorem relocationSwitchEffect_switches {n : Nat} (hr : tblGet? (stackOf s f).reloc b = some n) (hm : mayRelocate s f b = true)
    (ht : (tblGet {} s.tenders (f / 2)).restarting = false) : relocationSwitchEffect f b s = switchBlock f b n s := by
  simp [relocationSwitchEffect, hr, hm, ht]

theorem relocationSwitchEffect_waits (h : tblGet? (stackOf s f).reloc b = none ∨ mayRelocate s f b = false ∨
    (tblGet {} s.tenders (f / 2)).restarting = true) : relocationSwitchEffect f b s = s := by
  cases hr : tblGet? (stackOf s f).reloc b with
  | none => simp [relocationSwitchEffect, hr]
  | some n =>
    rcases h with h | h | h
    · rw [hr] at h; cases h
    · simp [relocationSwitchEffect, hr, h]
    · simp [relocationSwitchEffect, hr, h]

/-- The stack while a fresh block takes the sectors of block `b`. -/
def relocating (t : Stack) (b n m : Nat) : Stack := { t with reloc := tblSet b n t.reloc, reads := tblSet b m t.reads }

theorem relocationStartEffect_starts (hq : b ∈ (stackOf s f).queued ∨ 2 ^ 25 ≤ tblGet 0 (stackOf s f).reads b)
    (hr : tblGet? (stackOf s f).reloc b = none) (hm : mayRelocate s f b = true) (ht : serves s f) :
    ∃ v m c, tblGet 0 (stackOf s f).reads b ≤ m ∧ relocationStartEffect f b s =
      setStack f (relocating (stackOf s f) b (freshBlock (stackOf s f) b v) m) { s with freeCtr := s.freeCtr + 2, ctr := c } := by
  obtain ⟨ht1, ht2⟩ := ht
  have hc : ((stackOf s f).queued.elem b || decide (2 ^ 25 ≤ tblGet 0 (stackOf s f).reads b)) = true := by simpa using hq
  unfold relocationStartEffect
  dsimp only
  rw [hc, hr, hm, ht1, ht2]
  refine ⟨(draw s).1.toNat, tblGet 0 (stackOf s f).reads b + (draw (draw s).2).1.toNat % 4097, ?_⟩
  simp only [Option.isNone_none, Bool.not_false, Bool.and_self, if_true]
  split
  · exact ⟨_, Nat.le_add_right _ _, rfl⟩
  · exact ⟨s.ctr, Nat.le_add_right _ _, rfl⟩

theorem relocationStartEffect_waits (h : (b ∉ (stackOf s f).queued ∧ tblGet 0 (stackOf s f).reads b < 2 ^ 25) ∨
    (tblGet? (stackOf s f).reloc b).isSome = true ∨ mayRelocate s f b = false ∨ ¬ serves s f) : relocationStartEffect f b s = s := by
  refine if_neg fun hc => ?_
  simp only [Bool.and_eq_true, Bool.or_eq_true, decide_eq_true_eq, Option.isNone_iff_eq_none, Bool.not_eq_true', List.elem_eq_mem] at hc
  obtain ⟨⟨⟨⟨hq, hr⟩, hm⟩, ht1⟩, ht2⟩ := hc
  rcases h with ⟨h1, h2⟩ | h | h | h
  · rcases hq with hq | hq
    · exact h1 hq
    · exact Nat.not_le.mpr h2 hq
  · rw [hr] at h; cases h
  · rw [hm] at h; cases h
  · exact h ⟨ht1, ht2⟩

/-- The stack after block `b` has failed and its sectors went to block `n`. -/
def blockRetired (t : Stack) (b n : Nat) : Stack :=
  { t with bad := setIns b t.bad, spareBlocks := t.spareBlocks - 1, readOnly := t.readOnly || decide (t.spareBlocks - 1 < 1024),
           reloc := tblDel b t.reloc, queued := t.queued.filter (fun x => decide (x ≠ b)), moved := moveBlock b n t.moved }

theorem blockFailureEffect_retires (h : setHas (stackOf s f).bad b = false) : blockFailureEffect f b s =
    setStack f (blockRetired (stackOf s f) b (freshBlock (stackOf s f) b (draw s).1.toNat)) (draw s).2 :=
  if_neg (ne_true_of_eq_false h)

theorem blockFailureEffect_again (h : setHas (stackOf s f).bad b = true) : blockFailureEffect f b s = s := if_pos h

end

/-! ### Scrubs, fills and the Tender's restart (R195 to R197, R458, R459) -/

section
variable {l : Nat}

theorem scrubEffect_flash (h : inHbm s (l / 32768) = false) {o : EccOutcome} : scrubEffect l o s = s := by simp [scrubEffect, h]

section
variable (h : inHbm s (l / 32768) = true)
include h

theorem scrubEffect_clean (he : tblGet? s.lineErr l = none) : scrubEffect l .clean s = s := by simp [scrubEffect, h, meetError, he]

theorem scrubEffect_uncorrectable :
    scrubEffect l .uncorrectable s = { s with lineErr := tblDel l s.lineErr, poison := setIns l s.poison } := by
  simp [scrubEffect, h, actOnError]

theorem scrubEffect_corrected : scrubEffect l .corrected s = hbmCorrected l { s with lineErr := tblDel l s.lineErr } := by
  simp [scrubEffect, h, actOnError]

end
end

theorem cacheFillEffect_none {die l : Nat} (h : fillOf s die l = none) : cacheFillEffect die l s = s := by simp [cacheFillEffect, h]
theorem cacheFillEffect_fills {die l : Nat} {f : WrcFill} (h : fillOf s die l = some f) : cacheFillEffect die l s = finishFill f s := by
  simp [cacheFillEffect, h]

section
variable {hd : Nat}

theorem tenderRestartEffect_dead (h : (tblGet {} s.tenders hd).dead = true) : tenderRestartEffect hd s = s := if_pos h
theorem tenderRestartDoneEffect_none (h : (tblGet {} s.tenders hd).restarting = false) : tenderRestartDoneEffect hd s = s :=
  if_neg (ne_true_of_eq_false h)

end

/-- A refill time of the HBM buckets (R198). -/
theorem hbmRefillEffect_facts {k : Nat} {b : Bucket} (hb : tblGet? s.hbmBuckets k = some b) (ho : b.owed = 0) :
    ∃ t, exec .hbmBucketRefill s = .next t ∧ now t = max (now s) ((now s / 32 + 1) * 32) ∧
      tblGet? t.hbmBuckets k = some { b with tokens := min b.burst (b.tokens + b.rate) } ∧
      t = { s with quartz := t.quartz, hbmBuckets := t.hbmBuckets } :=
  ⟨hbmRefillEffect s, exec_hbmBucketRefill rfl, rfl, tblGet?_refilled hb ho, rfl⟩

/-- A refill time of the flash read buckets (R219). -/
theorem flashRefillEffect_facts {k : Nat} {b : Bucket} (hb : tblGet? s.flBuckets k = some b) (ho : b.owed = 0) :
    ∃ t, exec .flashBucketRefill s = .next t ∧ now t = max (now s) ((now s / 4096 + 1) * 4096) ∧
      tblGet? t.flBuckets k = some { b with tokens := min b.burst (b.tokens + b.rate) } ∧
      t = { s with quartz := t.quartz, flBuckets := t.flBuckets } :=
  ⟨flashRefillEffect s, exec_flashBucketRefill rfl, rfl, tblGet?_refilled hb ho, rfl⟩

/-- Settles O51: each row of the tier acts where its condition holds, by the lemmas above, and leaves the state where it does not. -/
theorem extentsSwitchAndBlocksMove : Obligations.ExtentsSwitchAndBlocksMove := by
  unfold Obligations.ExtentsSwitchAndBlocksMove
  intro x s hx
  have ok : okExt x = true := decide_eq_true hx
  have hprom : exec (.promotionSwitch x) s = .next (settleCreate (promotionSwitchEffect x s)) := exec_promotionSwitch ok
  have hdem : exec (.demotionPass x) s = .next (settleCreate (demotionPassEffect x s)) := exec_demotionPass ok
  have hread : ∀ r k o, okRequester r = true → okSector r = true → k < 512 →
      exec (.sectorRead r x k o) s = .next (sectorReadEffect r x k o s) := fun r k o h1 h2 hk =>
    exec_sectorRead (by simp [Instr.wellFormed, h1, h2, ok, hk])
  refine ⟨fun k b hb ho => hbmRefillEffect_facts hb ho, fun k b hb ho => flashRefillEffect_facts hb ho, fun hp ht => ?_,
    fun h => hprom.trans (congrArg _ (congrArg settleCreate (promotionSwitchEffect_waits h))), fun u h => settleCreate_none h,
    fun hd ht hr => ⟨fun hz => ⟨hdem.trans (congrArg _ (congrArg settleCreate (demotionPassEffect_switches hd ht hr hz))), ?_, fun he => ?_, ?_⟩,
      fun hz => hdem.trans (congrArg _ (congrArg settleCreate (demotionPassEffect_again hd ht hr hz)))⟩,
    fun h => hdem.trans (congrArg _ (congrArg settleCreate (demotionPassEffect_waits h))), fun r k h1 h2 hk hb ht => ?_,
    fun r k o h h1 h2 hk => (hread r k o h1 h2 hk).trans (congrArg _ (sectorReadEffect_other h)), fun f b hf hb => ?_, fun l hl => ?_,
    fun st c hst hc => exec_channelFault (by simp [Instr.wellFormed, hst, hc]), fun die l hdie => ?_, fun hd hhd => ?_⟩
  · obtain ⟨hm, hf, hfacts⟩ := promoteSwitch_facts (@promotionCharged_same s x)
    exact ⟨promoteSwitch x (promotionCharged x s), hm, hf, hfacts.1, hfacts.2.1, hfacts.2.2.1, hfacts.2.2.2.1, hfacts.2.2.2.2,
      hprom.trans (congrArg _ (congrArg settleCreate (promotionSwitchEffect_switches hp ht)))⟩
  · obtain ⟨⟨_, hf, _⟩, _⟩ := @passCharged_same s (drainExtent x s) x
    exact demoteSwitch_commits.trans (congrArg _ (hf.trans drainExtent_flash))
  · obtain ⟨⟨hm, _, _⟩, hl⟩ := @passCharged_same s (drainExtent x s) x
    exact (demoteSwitch_mem (hl.trans he)).trans hm
  · obtain ⟨⟨_, _, he⟩, _⟩ := @passCharged_same s (drainExtent x s) x
    rw [← extOf_congr he]
    exact demoteSwitch_st
  · refine ⟨sectorCharged r x k s, (hread r k .clean h1 h2 hk).trans (congrArg _ (sectorReadEffect_clean hb ht)), sectorCharged_frame.1,
      fun hs => sectorReads_charged.trans (sectorArray_unseen hk hs), fun hs => ?_⟩
    exact sectorReads_charged.trans (congrArg (sectorReads s · x k) (sectorArray_seen hs))
  · have okb : (decide (f < 4) && decide (b < 131072)) = true := Bool.and_eq_true_iff.mpr ⟨decide_eq_true hf, decide_eq_true hb⟩
    have hsw : exec (.relocationSwitch f b) s = .next (relocationSwitchEffect f b s) := exec_relocationSwitch okb
    have hst : exec (.relocationStart f b) s = .next (relocationStartEffect f b s) := exec_relocationStart okb
    have hbf : exec (.blockFailure f b) s = .next (blockFailureEffect f b s) := exec_blockFailure okb
    refine ⟨fun n hr hm ht => ⟨_, hsw.trans (congrArg _ (relocationSwitchEffect_switches hr hm ht)), tblGet_del_same, tblGet_set_same,
        tblGet?_del_same, rfl⟩, fun h => hsw.trans (congrArg _ (relocationSwitchEffect_waits h)), fun hq hr hm ht => ?_,
      fun h => hst.trans (congrArg _ (relocationStartEffect_waits h)), fun h => ?_, fun h => hbf.trans (congrArg _ (blockFailureEffect_again h))⟩
    · obtain ⟨v, m, c, hle, he⟩ := relocationStartEffect_starts hq hr hm ht
      refine ⟨_, freshBlock (stackOf s f) b v, m, hst.trans (congrArg _ he), freeFrom_lt, hle, freshBlock_free, ?_, ?_, rfl, rfl⟩
      · rw [stackOf_setStack]; rfl
      · rw [stackOf_setStack]; rfl
    · refine ⟨_, hbf.trans (congrArg _ (blockFailureEffect_retires h)), ?_, rfl, rfl, ?_, ?_⟩
      · rw [stackOf_setStack]; exact setHas_ins.trans (by simp)
      · rw [stackOf_setStack]; rfl
      · rw [stackOf_setStack]; rfl
  · have hscrub : ∀ o, exec (.patrolScrub l o) s = .next (scrubEffect l o s) := fun o => exec_patrolScrub (decide_eq_true hl)
    exact ⟨fun h o => (hscrub o).trans (congrArg _ (scrubEffect_flash h)),
      fun h => ⟨fun he => (hscrub _).trans (congrArg _ (scrubEffect_clean h he)), (hscrub _).trans (congrArg _ (scrubEffect_uncorrectable h)),
        (hscrub _).trans (congrArg _ (scrubEffect_corrected h))⟩⟩
  · have hfill : exec (.cacheFill die l) s = .next (cacheFillEffect die l s) := exec_cacheFill (decide_eq_true hdie)
    exact ⟨fun h => hfill.trans (congrArg _ (cacheFillEffect_none h)), fun f h => hfill.trans (congrArg _ (cacheFillEffect_fills h))⟩
  · have hre : exec (.tenderRestart hd) s = .next (tenderRestartEffect hd s) := exec_tenderRestart (decide_eq_true hhd)
    have hdone : exec (.tenderRestartDone hd) s = .next (tenderRestartDoneEffect hd s) := exec_tenderRestartDone (decide_eq_true hhd)
    exact ⟨fun h => hre.trans (congrArg _ (if_neg (ne_true_of_eq_false h))), fun h => hre.trans (congrArg _ (tenderRestartEffect_dead h)),
      fun h => hdone.trans (congrArg _ (tenderRestartDoneEffect_none h)), fun h => hdone.trans (congrArg _ (if_pos h))⟩

end Sys2Proof.Machine
end

section
/-! PROOF. Flits, lanes and the resumption of coupling links (O52). -/

namespace Sys2Proof.Machine

variable {s : State} {l d n : Nat}

/-! ### Flits that are sent (R300 to R303, Tables 11-3 and 11-4) -/

/-- The body of a flit before its check bytes. -/
def flitBody (header : Nat) (slots : List Byte) : List Byte := leBytes 4 header ++ padTo 240 0 slots

theorem flitBody_length {header : Nat} {slots : List Byte} : (flitBody header slots).length = 244 := by
  simp [flitBody, padTo_length]

theorem flitBytes_eq {width header : Nat} {slots : List Byte} : ∃ rest, flitBytes width header slots =
    flitBody header slots ++ (leBytes 4 (crc32c (flitBody header slots)).toNat ++ rest) :=
  ⟨_, List.append_assoc _ _ _⟩

/-- The receiver finds the CRC of a flit good, and its slots where they were put. -/
theorem flitBytes_checked {width header : Nat} {slots : List Byte} : let bs := flitBytes width header slots
    (crc32c (bs.take 244)).toNat = leNat ((bs.drop 244).take 4) ∧ (bs.drop 4).take 240 = padTo 240 0 slots ∧
    leNat (bs.take 4) = header % 2 ^ 32 := by
  obtain ⟨rest, h⟩ := @flitBytes_eq width header slots
  have hcrc : (crc32c (flitBody header slots)).toNat < 2 ^ 32 := (crc32c (flitBody header slots)).isLt
  dsimp only
  rw [h]
  refine ⟨?_, ?_, ?_⟩
  · rw [List.take_left' flitBody_length, List.drop_left' flitBody_length, List.take_left' leBytes_length, leNat_leBytes]
    exact (Nat.mod_eq_of_lt hcrc).symm
  · rw [flitBody, List.append_assoc, List.drop_left' leBytes_length, List.take_left' padTo_length]
  · rw [flitBody, List.append_assoc, List.take_left' leBytes_length, leNat_leBytes]
    rfl

theorem b2n_lt (b : Bool) : b2n b < 2 := by cases b <;> decide

/-- The fields of a flit's header. -/
theorem flitHeader_fields {ty q ack v c : Nat} {nak : Bool} (ht : ty < 4) (hq : q < 4096) (ha : ack < 4096) (hv : v < 4) (hc : c < 8) :
    let h := flitHeader ty q ack (b2n nak) v c % 2 ^ 32
    fld h 31 30 = ty ∧ fld h 29 18 = q ∧ fld h 17 6 = ack ∧ bit h 5 = nak := by
  have hb := b2n_lt nak
  have hn : bit (flitHeader ty q ack (b2n nak) v c % 2 ^ 32) 5 = (b2n nak == 1) := by
    unfold bit flitHeader
    rw [Nat.shiftRight_eq_div_pow]
    congr 1
    omega
  refine ⟨?_, ?_, ?_, ?_⟩
  · unfold fld flitHeader
    rw [Nat.shiftRight_eq_div_pow]
    omega
  · unfold fld flitHeader
    rw [Nat.shiftRight_eq_div_pow]
    omega
  · unfold fld flitHeader
    rw [Nat.shiftRight_eq_div_pow]
    omega
  · rw [hn]; cases nak <;> rfl

/-- A flit returns credits of one channel, at most seven units. -/
theorem returnable_lt {x : LinkDir} : ((returnable x).getD (0, 0)).1 < 4 ∧ ((returnable x).getD (0, 0)).2 < 8 := by
  unfold returnable
  cases h : (List.range 4).find? (fun v => decide (32 ≤ tblGet 0 x.freed v)) with
  | none => exact ⟨Nat.zero_lt_succ 3, Nat.zero_lt_succ 7⟩
  | some v =>
    have hv := List.mem_range.mp (List.mem_of_find?_eq_some h)
    exact ⟨hv, Nat.lt_of_le_of_lt (Nat.min_le_left _ _) (by decide)⟩

theorem sendFlit_out {ty q : Nat} {slots : List Byte} (hc : carries (linkOf s l d) = true) :
    (sendFlit l d ty q slots s).out = s.out ++ [.flit l d (flitBytes (linkOf s l d).width
      (flitHeader ty q (((linkOf s l (back d)).rxNext + 4095) % 4096) (b2n (linkOf s l (back d)).nakDue)
        ((returnable (linkOf s l (back d))).getD (0, 0)).1 ((returnable (linkOf s l (back d))).getD (0, 0)).2) slots)] := by
  unfold sendFlit
  dsimp only
  rw [hc]
  rfl

/-! ### Flits that arrive (R300 to R305) -/

/-- The parity errors of a flit, counted on their lanes. -/
def parityCounted (l d : Nat) (bs : List Byte) (s : State) : State :=
  ((parityErrors bs (linkOf s l d).width).filterMap (laneMap (linkOf s l d))).foldl (countParity l d) s

/-- The CRC of a flit is good. -/
def flitGood (bs : List Byte) : Prop := (crc32c (bs.take 244)).toNat = leNat ((bs.drop 244).take 4)

theorem flitEffect_none {bs : List Byte} (h : bs.length ≠ 256 ∨ carries (linkOf s l d) = false) : flitEffect l d bs s = s := by
  refine if_pos ?_
  rcases h with h | h <;> simp [h]

section
variable {bs : List Byte} (hl : bs.length = 256) (hc : carries (linkOf s l d) = true)
include hl hc

theorem flitEffect_bad (hg : ¬ flitGood bs) : flitEffect l d bs s = nakFlit l d (parityCounted l d bs s) := by
  have hn : (bs.length ≠ 256 || !carries (linkOf s l d)) = false := by simp [hl, hc]
  exact (if_neg (ne_true_of_eq_false hn)).trans (if_pos hg)

section
variable (hg : flitGood bs)
include hg

theorem flitEffect_good : flitEffect l d bs s =
    let s2 := takeHeader l d (leNat (bs.take 4)) (parityCounted l d bs s)
    if fld (leNat (bs.take 4)) 31 30 = 1 then
      if fld (leNat (bs.take 4)) 29 18 = (linkOf s2 l d).rxNext then deliverFlit l d bs s2
      else if seqAhead (linkOf s2 l d) (fld (leNat (bs.take 4)) 29 18) && !(linkOf s2 l d).nakked then nakFlit l d s2 else s2
    else s2 := by
  have hn : (bs.length ≠ 256 || !carries (linkOf s l d)) = false := by simp [hl, hc]
  exact (if_neg (ne_true_of_eq_false hn)).trans (if_neg (not_not.mpr hg))

theorem flitEffect_control (ht : fld (leNat (bs.take 4)) 31 30 ≠ 1) :
    flitEffect l d bs s = takeHeader l d (leNat (bs.take 4)) (parityCounted l d bs s) :=
  (flitEffect_good hl hc hg).trans (if_neg ht)

section
variable (ht : fld (leNat (bs.take 4)) 31 30 = 1)
include ht

theorem flitEffect_inOrder
    (hq : fld (leNat (bs.take 4)) 29 18 = (linkOf (takeHeader l d (leNat (bs.take 4)) (parityCounted l d bs s)) l d).rxNext) :
    flitEffect l d bs s = deliverFlit l d bs (takeHeader l d (leNat (bs.take 4)) (parityCounted l d bs s)) :=
  (flitEffect_good hl hc hg).trans ((if_pos ht).trans (if_pos hq))

theorem flitEffect_gap
    (hq : fld (leNat (bs.take 4)) 29 18 ≠ (linkOf (takeHeader l d (leNat (bs.take 4)) (parityCounted l d bs s)) l d).rxNext)
    (ha : seqAhead (linkOf (takeHeader l d (leNat (bs.take 4)) (parityCounted l d bs s)) l d) (fld (leNat (bs.take 4)) 29 18) = true)
    (hk : (linkOf (takeHeader l d (leNat (bs.take 4)) (parityCounted l d bs s)) l d).nakked = false) :
    flitEffect l d bs s = nakFlit l d (takeHeader l d (leNat (bs.take 4)) (parityCounted l d bs s)) :=
  (flitEffect_good hl hc hg).trans ((if_pos ht).trans ((if_neg hq).trans (if_pos (by rw [ha, hk]; rfl))))

theorem flitEffect_discards
    (hq : fld (leNat (bs.take 4)) 29 18 ≠ (linkOf (takeHeader l d (leNat (bs.take 4)) (parityCounted l d bs s)) l d).rxNext)
    (h : seqAhead (linkOf (takeHeader l d (leNat (bs.take 4)) (parityCounted l d bs s)) l d) (fld (leNat (bs.take 4)) 29 18) = false ∨
      (linkOf (takeHeader l d (leNat (bs.take 4)) (parityCounted l d bs s)) l d).nakked = true) :
    flitEffect l d bs s = takeHeader l d (leNat (bs.take 4)) (parityCounted l d bs s) := by
  refine (flitEffect_good hl hc hg).trans ((if_pos ht).trans ((if_neg hq).trans (if_neg ?_)))
  rcases h with h | h <;> simp [h]

end
end
end

/-! ### Lane failures (R305 to R309) -/

theorem dirWidth_spares {f : NatSet} {g : Option Nat} (h : f.length ≤ 4) : dirWidth f g = (64, 0) := if_pos h

/-- The group with fewer failures, group 0 where they have as many. -/
def betterGroup (f : NatSet) : Nat := if groupFails f 1 < groupFails f 0 then 1 else 0

theorem dirWidth_halves {f : NatSet} (h : 4 < f.length) :
    dirWidth f none = (if groupFails f (betterGroup f) ≤ 2 then 32 else 0, betterGroup f) := by
  have he : dirWidth f none = if groupFails f (betterGroup f) ≤ 2 then (32, betterGroup f) else (0, betterGroup f) :=
    if_neg (Nat.not_le.mpr h)
  rw [he]
  split <;> rfl

theorem betterGroup_facts {f : NatSet} : (betterGroup f = 0 ∨ betterGroup f = 1) ∧
    groupFails f (betterGroup f) ≤ groupFails f (1 - betterGroup f) ∧
    (groupFails f (betterGroup f) = groupFails f (1 - betterGroup f) → betterGroup f = 0) := by
  unfold betterGroup
  split
  · next h => exact ⟨.inr rfl, Nat.le_of_lt h, fun e => absurd e (Nat.ne_of_lt h)⟩
  · next h => exact ⟨.inl rfl, Nat.not_lt.mp h, fun _ => rfl⟩

/-- The width and the group of a direction after lane `n` fails. -/
def failedWidth (x : LinkDir) (n : Nat) : Nat × Nat := dirWidth (setIns n x.failed) (if x.width = 32 then some x.group else none)

/-- The failure of a lane, recorded on its direction. -/
def laneRecorded (l d n : Nat) (s : State) : State :=
  let x := linkOf s l d
  recordEntry { kind := recLane, a := 2 * l + d, b := n } (setLink l d { x with
    failed := setIns n x.failed, width := (failedWidth x n).1, group := (failedWidth x n).2,
    stopUntil := if laneUsed x n then some (now s + 4000) else x.stopUntil, laneCheck := false } s)

/-- The packets of a lost link move, and the ports of link dies that no compute die reaches are lost. -/
def linkCut (l w : Nat) (u : State) : State :=
  if u.bu.state = 1 then
    (cutLinkDies u).foldl (fun s k => (List.range 5).foldl (fun s i => losePort (5 * k + i) s) s) (if w = 0 then moveLink l u else u)
  else u

theorem failLane_none (h : setHas (linkOf s l d).failed n = true ∨ (linkOf s l d).width = 0) : failLane l d n s = s :=
  if_pos (by simpa using h)

section
variable (hf : setHas (linkOf s l d).failed n = false) (hw : (linkOf s l d).width ≠ 0)
include hf hw

theorem failLane_eq : failLane l d n s =
    let wg := failedWidth (linkOf s l d) n
    if wg.1 = (linkOf s l d).width && (wg.1 = 64 || wg.2 = (linkOf s l d).group) then laneRecorded l d n s
    else linkCut l wg.1 (if wg.1 < (linkOf s l d).width then afterWidth l d (laneRecorded l d n s) else enterDegraded (laneRecorded l d n s)) := by
  have hn : ¬ ((setHas (linkOf s l d).failed n || decide ((linkOf s l d).width = 0)) = true) := by simp [hf, hw]
  exact if_neg hn

theorem failLane_spare (h1 : (failedWidth (linkOf s l d) n).1 = (linkOf s l d).width)
    (h2 : (failedWidth (linkOf s l d) n).1 = 64 ∨ (failedWidth (linkOf s l d) n).2 = (linkOf s l d).group) :
    failLane l d n s = laneRecorded l d n s :=
  (failLane_eq hf hw).trans (if_pos (by simpa using ⟨h1, h2⟩))

theorem failLane_regroups (h1 : (failedWidth (linkOf s l d) n).1 = (linkOf s l d).width) (h2 : (failedWidth (linkOf s l d) n).1 ≠ 64)
    (h3 : (failedWidth (linkOf s l d) n).2 ≠ (linkOf s l d).group) :
    failLane l d n s = linkCut l (failedWidth (linkOf s l d) n).1 (enterDegraded (laneRecorded l d n s)) := by
  refine (failLane_eq hf hw).trans ((if_neg (by simp [h2, h3])).trans ?_)
  rw [if_neg (Nat.not_lt.mpr (Nat.le_of_eq h1.symm))]

theorem failLane_narrows (h1 : (failedWidth (linkOf s l d) n).1 < (linkOf s l d).width) :
    failLane l d n s = linkCut l (failedWidth (linkOf s l d) n).1 (afterWidth l d (laneRecorded l d n s)) := by
  refine (failLane_eq hf hw).trans ((if_neg (by simp [Nat.ne_of_lt h1])).trans ?_)
  rw [if_pos h1]

end

/-! ### Resumption (R303, R308) -/

theorem resumeEffect_none (h : (linkOf s l d).stopUntil = none) : resumeEffect l d s = s := by simp [resumeEffect, h]

theorem resumeEffect_resumes {t : Nat} (h : (linkOf s l d).stopUntil = some t) : resumeEffect l d s =
    pump l d (replayFlits l d (setLink l d { linkOf s l d with stopUntil := none } (advance t s))) := by simp [resumeEffect, h]

/-- What the receiver of a direction keeps when a header is taken. -/
theorem takeHeader_receiver {h : Nat} {u : State} (hd : d < 2) : (linkOf (takeHeader l d h u) l d).rxNext = (linkOf u l d).rxNext ∧
    (linkOf (takeHeader l d h u) l d).nakked = (linkOf u l d).nakked ∧
    (linkOf (takeHeader l d h u) l d).partialPkt = (linkOf u l d).partialPkt ∧
    (linkOf (takeHeader l d h u) l d).delivered = (linkOf u l d).delivered := by
  have hr : ReceiverSame (linkOf u l d) (linkOf (takeHeader l d h u) l d) := takeHeader_other hd
  rw [hr]
  exact ⟨rfl, rfl, rfl, rfl⟩

/-- Settles O52: a flit is counted, checked and then delivered, refused or discarded by its sequence; a lane's failure acts by the
width that is left. -/
theorem couplingLinksRetryAndNarrow : Obligations.CouplingLinksRetryAndNarrow := by
  unfold Obligations.CouplingLinksRetryAndNarrow
  intro l d n s hl hd hn
  have okd : (decide (l < 41) && decide (d < 2)) = true := Bool.and_eq_true_iff.mpr ⟨decide_eq_true hl, decide_eq_true hd⟩
  have hflit : ∀ bs : List Byte, bs.length ≤ 272 → exec (.flit l d bs) s = .next (flitEffect l d bs s) :=
    fun bs h => exec_flit (Bool.and_eq_true_iff.mpr ⟨okd, decide_eq_true h⟩)
  have hlane : exec (.laneFailure l d n) s = .next (failLane l d n s) := exec_laneFailure (Bool.and_eq_true_iff.mpr ⟨okd, decide_eq_true hn⟩)
  have hres : exec (.directionResume l d) s = .next (resumeEffect l d s) := exec_directionResume okd
  refine ⟨fun bs hlen hc => ?_, fun bs hle h => (hflit bs hle).trans (congrArg _ (flitEffect_none h)), fun ty q slots ht hq hc => ?_,
    fun h => hlane.trans (congrArg _ (failLane_none h)),
    fun hf hw => ⟨dirWidth_spares, fun h4 h32 => ?_, fun h1 h2 => hlane.trans (congrArg _ (failLane_spare hf hw h1 h2)),
      fun h1 h2 h3 => hlane.trans (congrArg _ (failLane_regroups hf hw h1 h2 h3)),
      fun h1 => hlane.trans (congrArg _ (failLane_narrows hf hw h1))⟩,
    fun h => hres.trans (congrArg _ (resumeEffect_none h)), fun t h => hres.trans (congrArg _ (resumeEffect_resumes h))⟩
  · obtain ⟨hrx, hnak, hpart, hdel⟩ := @takeHeader_receiver l d (leNat (bs.take 4)) (parityCounted l d bs s) hd
    have hex := hflit bs (by omega)
    refine ⟨takeHeader_other hd, fun hg => hex.trans (congrArg _ (flitEffect_bad hlen hc hg)),
      fun hg ht => hex.trans (congrArg _ (flitEffect_control hlen hc hg ht)), fun hg ht hq => ?_, fun hg ht hq ha hk => ?_, fun hg ht hq h => ?_⟩
    · refine hex.trans (congrArg _ ((flitEffect_inOrder hlen hc hg ht (hq.trans hrx.symm)).trans ?_))
      unfold deliverFlit packetsOf
      dsimp only
      rw [hrx, hpart, hdel]
      rfl
    · refine hex.trans (congrArg _ (flitEffect_gap hlen hc hg ht (hrx ▸ hq) ?_ (hnak.trans hk)))
      exact decide_eq_true (hrx ▸ ha)
    · refine hex.trans (congrArg _ (flitEffect_discards hlen hc hg ht (hrx ▸ hq) (h.imp (fun ha => ?_) hnak.trans)))
      exact decide_eq_false (Nat.not_lt.mpr (hrx ▸ ha))
  · obtain ⟨hv, hcr⟩ := @returnable_lt (linkOf s l (back d))
    refine ⟨_, sendFlit_out hc, flitBytes_checked.1, flitBytes_checked.2.1, ?_⟩
    dsimp only
    rw [flitBytes_checked.2.2]
    exact flitHeader_fields ht hq (Nat.mod_lt _ (by decide)) hv hcr
  · obtain ⟨hg, hle, heq⟩ := @betterGroup_facts (setIns n (linkOf s l d).failed)
    have hw : failedWidth (linkOf s l d) n = _ := (congrArg (dirWidth _) (if_neg h32)).trans (dirWidth_halves h4)
    exact ⟨_, congrArg Prod.snd hw, hg, hle, heq, congrArg Prod.fst hw⟩

end Sys2Proof.Machine
end

section
/-! PROOF. Frames, lanes, lasers, training and timing symbols of the Nguix ports (O53). -/

namespace Sys2Proof.Machine

variable {s : State} {p n : Nat}

/-! ### Frames that are sent (R319 to R321, Table 12-3) -/

/-- The body of a frame before its CRC. -/
def frameBody (header : Nat) (slots : List Byte) : List Byte := leBytes 8 header ++ padTo 496 0 slots

theorem frameBody_length {header : Nat} {slots : List Byte} : (frameBody header slots).length = 504 := by
  simp [frameBody, padTo_length]

theorem frameBytes_eq {header : Nat} {slots : List Byte} :
    frameBytes header slots = frameBody header slots ++ leBytes 8 (crc64 (frameBody header slots)).toNat := rfl

/-- The receiver finds the CRC of a frame good, and its slots where they were put. -/
theorem frameBytes_checked {header : Nat} {slots : List Byte} : let bs := frameBytes header slots
    (crc64 (bs.take 504)).toNat = leNat (bs.drop 504) ∧ (bs.drop 8).take 496 = padTo 496 0 slots ∧ leNat (bs.take 8) = header % 2 ^ 64 := by
  have hcrc : (crc64 (frameBody header slots)).toNat < 2 ^ 64 := (crc64 (frameBody header slots)).isLt
  dsimp only
  rw [frameBytes_eq]
  refine ⟨?_, ?_, ?_⟩
  · rw [List.take_left' frameBody_length, List.drop_left' frameBody_length, leNat_leBytes]
    exact (Nat.mod_eq_of_lt hcrc).symm
  · rw [frameBody, List.append_assoc, List.drop_left' leBytes_length, List.take_left' padTo_length]
  · rw [frameBody, List.append_assoc, List.take_left' leBytes_length, leNat_leBytes]
    rfl

/-- The fields of a frame's header. -/
theorem frameHeader_fields {ty q ack v c : Nat} {nak : Bool} (ht : ty < 4) (hq : q < 16384) (ha : ack < 16384) (hv : v < 4) (hc : c < 256) :
    let h := frameHeader ty q ack (b2n nak) v c % 2 ^ 64
    fld h 63 62 = ty ∧ fld h 61 48 = q ∧ fld h 47 34 = ack ∧ bit h 33 = nak := by
  have hb : b2n nak < 2 := by cases nak <;> decide
  have hn : bit (frameHeader ty q ack (b2n nak) v c % 2 ^ 64) 33 = (b2n nak == 1) := by
    unfold bit frameHeader
    rw [Nat.shiftRight_eq_div_pow]
    congr 1
    omega
  refine ⟨?_, ?_, ?_, ?_⟩
  · unfold fld frameHeader
    rw [Nat.shiftRight_eq_div_pow]
    omega
  · unfold fld frameHeader
    rw [Nat.shiftRight_eq_div_pow]
    omega
  · unfold fld frameHeader
    rw [Nat.shiftRight_eq_div_pow]
    omega
  · rw [hn]; cases nak <;> rfl

theorem sendFrame_out {ty q : Nat} {slots : List Byte} (hu : (portOf s p).up = true) (hs : (portOf s p).stopUntil = none) :
    (sendFrame p ty q slots s).out = s.out ++ [.frame p (frameBytes (frameHeader ty q (((portOf s p).rxNext + 16383) % 16384)
      (b2n (portOf s p).nakDue) ((draw s).1.toNat % 4) ((draw s).1.toNat / 4 % 256)) slots)] := by
  unfold sendFrame
  dsimp only
  rw [hu, hs]
  rfl

/-! ### Frames that arrive (R321) -/

/-- The CRC of a frame is good. -/
def frameGood (bs : List Byte) : Prop := (crc64 (bs.take 504)).toNat = leNat (bs.drop 504)

theorem frameEffect_none {bs : List Byte} (h : bs.length ≠ 512 ∨ (portOf s p).up = false ∨ (portOf s p).stopUntil.isSome = true) :
    frameEffect p bs s = s := by
  refine if_pos ?_
  rcases h with h | h | h <;> simp [h]

section
variable {bs : List Byte} (hl : bs.length = 512) (hu : (portOf s p).up = true) (hs : (portOf s p).stopUntil = none)
include hl hu hs

theorem takesFrame : ¬ ((bs.length ≠ 512 || !(portOf s p).up || (portOf s p).stopUntil.isSome) = true) := by simp [hl, hu, hs]

theorem frameEffect_bad (hg : ¬ frameGood bs) : frameEffect p bs s = nakFrame p (badCodewords p s) :=
  (if_neg (takesFrame hl hu hs)).trans (if_pos hg)

section
variable (hg : frameGood bs)
include hg

theorem frameEffect_good : frameEffect p bs s =
    let s1 := takeFrameHeader p (leNat (bs.take 8)) s
    let y := portOf s1 p
    if fld (leNat (bs.take 8)) 63 62 = 1 then
      if fld (leNat (bs.take 8)) 61 48 = y.rxNext then
        sendFrame p 0 0 [] (setPort p { y with
          rxNext := (y.rxNext + 1) % 16384, replays := 0, nakked := false, delivered := y.delivered ++ [(bs.drop 8).take 496] } s1)
      else if (fld (leNat (bs.take 8)) 61 48 + 16384 - y.rxNext) % 16384 < 8192 && !y.nakked then nakFrame p s1 else s1
    else s1 := (if_neg (takesFrame hl hu hs)).trans (if_neg (not_not.mpr hg))

theorem frameEffect_control (ht : fld (leNat (bs.take 8)) 63 62 ≠ 1) : frameEffect p bs s = takeFrameHeader p (leNat (bs.take 8)) s :=
  (frameEffect_good hl hu hs hg).trans (if_neg ht)

section
variable (ht : fld (leNat (bs.take 8)) 63 62 = 1)
include ht

theorem frameEffect_inOrder (hq : fld (leNat (bs.take 8)) 61 48 = (portOf (takeFrameHeader p (leNat (bs.take 8)) s) p).rxNext) :
    frameEffect p bs s =
      let s1 := takeFrameHeader p (leNat (bs.take 8)) s
      let y := portOf s1 p
      sendFrame p 0 0 [] (setPort p { y with
        rxNext := (y.rxNext + 1) % 16384, replays := 0, nakked := false, delivered := y.delivered ++ [(bs.drop 8).take 496] } s1) :=
  (frameEffect_good hl hu hs hg).trans ((if_pos ht).trans (if_pos hq))

variable (hq : fld (leNat (bs.take 8)) 61 48 ≠ (portOf (takeFrameHeader p (leNat (bs.take 8)) s) p).rxNext)
include hq

theorem frameEffect_gap
    (ha : (fld (leNat (bs.take 8)) 61 48 + 16384 - (portOf (takeFrameHeader p (leNat (bs.take 8)) s) p).rxNext) % 16384 < 8192)
    (hk : (portOf (takeFrameHeader p (leNat (bs.take 8)) s) p).nakked = false) :
    frameEffect p bs s = nakFrame p (takeFrameHeader p (leNat (bs.take 8)) s) :=
  (frameEffect_good hl hu hs hg).trans ((if_pos ht).trans ((if_neg hq).trans (if_pos (by rw [decide_eq_true ha, hk]; rfl))))

theorem frameEffect_discards
    (h : 8192 ≤ (fld (leNat (bs.take 8)) 61 48 + 16384 - (portOf (takeFrameHeader p (leNat (bs.take 8)) s) p).rxNext) % 16384 ∨
      (portOf (takeFrameHeader p (leNat (bs.take 8)) s) p).nakked = true) :
    frameEffect p bs s = takeFrameHeader p (leNat (bs.take 8)) s := by
  refine (frameEffect_good hl hu hs hg).trans ((if_pos ht).trans ((if_neg hq).trans (if_neg ?_)))
  rcases h with h | h
  · rw [decide_eq_false (Nat.not_lt.mpr h)]
    exact Bool.false_ne_true
  · rw [h, Bool.not_true, Bool.and_false]
    exact Bool.false_ne_true

end
end
end

/-! ### Lanes (R325) -/

theorem portLanes_zero_iff {f : NatSet} (h : f ≠ []) : portLanes f = 0 ↔ (∃ i ∈ f, i < 4) ∧ ∃ i ∈ f, 4 ≤ i := by
  have he : f.isEmpty = false := List.isEmpty_eq_false_iff.mpr h
  unfold portLanes
  rw [he]
  simp only [Bool.false_eq_true, if_false, Bool.and_eq_true, List.any_eq_true, decide_eq_true_eq]
  split
  · next hc => exact iff_of_true rfl hc
  · next hc => exact iff_of_false (by decide) hc

theorem portLanes_half {f : NatSet} (h : f ≠ []) (hz : portLanes f ≠ 0) : portLanes f = 4 := by
  have he : f.isEmpty = false := List.isEmpty_eq_false_iff.mpr h
  unfold portLanes at hz ⊢
  rw [he] at hz ⊢
  simp only [Bool.false_eq_true, if_false] at hz ⊢
  split at hz
  · exact absurd rfl hz
  · next hc => exact if_neg hc

theorem nguixLaneEffect_none (h : (portOf s p).up = false ∨ setHas (portOf s p).failed n = true) : nguixLaneEffect p n s = s := by
  refine if_pos ?_
  rcases h with h | h <;> simp [h]

section
variable (hu : (portOf s p).up = true) (hf : setHas (portOf s p).failed n = false)
include hu hf

theorem nguixLaneEffect_eq : nguixLaneEffect p n s =
    let f := setIns n (portOf s p).failed
    if portLanes f = 0 then setPort p { portOf (losePort p s) p with failed := f } (losePort p s)
    else if portLanes f = (portOf s p).lanes then setPort p { portOf s p with failed := f } s
    else
      let s1 := raiseEvent evLaneDegrade (41 + p) (causeOf evLaneDegrade 2) (setPort p
        { portOf s p with failed := f, lanes := portLanes f, stopUntil := some (now s + 20000), laneCheck := false } s)
      if routeUses s p then enterDegraded s1 else s1 :=
  if_neg (by simp [hu, hf])

end

/-! ### Resumption, training and announcements (R321 to R323, R327) -/

theorem portResumeEffect_resumes {t : Nat} (h : (portOf s p).stopUntil = some t) : portResumeEffect p s =
    pumpFrames p (replayFrames p (setPort p { portOf s p with stopUntil := none } (advance t s))) := by simp [portResumeEffect, h]

theorem portResumeEffect_none (h : (portOf s p).stopUntil = none) : portResumeEffect p s = s := by simp [portResumeEffect, h]

section
variable {r : PortTrain}

/-- The failed lanes that a training finds. -/
def trainedFails (r : PortTrain) : NatSet := r.failed.foldl (fun l n => setIns n l) []

/-- Training, lanes, the peer's feature word and the lasers allow the port to come up. -/
def trainingOk (s : State) (p : Nat) (r : PortTrain) : Bool :=
  r.ok && decide (portLanes (trainedFails r) ≠ 0) && featureOk r.feature && (laserOf s (p / 5)).enabled

/-- The port as it comes up. -/
def trainedPort (r : PortTrain) : Port :=
  { up := true, failed := trainedFails r, lanes := portLanes (trainedFails r), generation := min 2 (wf r.feature 63 56),
    features := wf r.feature 4 0, peerDevice := r.peerDevice.toNat, peerPort := r.peerPort, delay := r.delay }

/-- The state with the port up, which announces itself where the route table uses it. -/
def trainedState (p : Nat) (r : PortTrain) (s : State) : State :=
  if routeUses s p then send (.announce p p (selfNo s)) (setPort p (trainedPort r) s) else setPort p (trainedPort r) s

theorem trainEffect_up (hu : (portOf s p).up = true) : trainEffect p r s = s := if_pos hu

theorem trainingFails_iff : (!r.ok || decide (portLanes (trainedFails r) = 0) || !featureOk r.feature || !(laserOf s (p / 5)).enabled) =
    !trainingOk s p r := by
  simp [trainingOk]

section
variable (hu : (portOf s p).up = false)
include hu

theorem trainEffect_fails (ho : trainingOk s p r = false) :
    trainEffect p r s = setPort p { portOf s p with failed := trainedFails r, lanes := 0 } s := by
  have h := @trainingFails_iff s p r
  rw [ho] at h
  exact (if_neg (ne_true_of_eq_false hu)).trans (if_pos h)

theorem trainEffect_comesUp (ho : trainingOk s p r = true) (hd : delayTooLong s p r.delay = false) :
    portOf (trainEffect p r s) p = trainedPort r := by
  have h := @trainingFails_iff s p r
  rw [ho] at h
  have he : trainEffect p r s = if delayTooLong (trainedState p r s) p r.delay then excludePort p (trainedState p r s) else trainedState p r s :=
    (if_neg (ne_true_of_eq_false hu)).trans (if_neg (ne_true_of_eq_false h))
  have hd' : delayTooLong (trainedState p r s) p r.delay = false := by
    unfold trainedState
    split <;> exact hd
  rw [he, hd', if_neg Bool.false_ne_true, trainedState]
  split
  · exact tblGet_set_same
  · exact portOf_setPort

end
end

section
variable {r : Route} {nbr nbrPort : Nat} (hr : s.route = some r)
include hr

theorem announceEffect_agrees (h1 : (tblGet {} r.ports p).nbr = nbr) (h2 : (tblGet {} r.ports p).nbrPort = nbrPort) :
    announceEffect p nbr nbrPort s = s := by simp [announceEffect, hr, h1, h2]

theorem announceEffect_differs (hu : (tblGet {} r.ports p).used = true)
    (h : (tblGet {} r.ports p).nbr ≠ nbr ∨ (tblGet {} r.ports p).nbrPort ≠ nbrPort) : announceEffect p nbr nbrPort s = excludePort p s := by
  rcases h with h | h <;> simp [announceEffect, hr, hu, h]

end

/-! ### Timing symbols (R147, R151, R330) -/

/-- The state when the next symbol of a port is due: 2,048 ns after its last. -/
def symbolDue (p : Nat) (s : State) : State := match (portOf s p).lastSent with | some t => advance (t + 2048) s | none => s

theorem symbolSendEffect_sends (hu : (portOf s p).up = true) : symbolSendEffect p s =
    send (.symbol p (stampNow (symbolDue p s)) (portOf s p).tE1 (portOf s p).tE2 (stampNow (symbolDue p s) - (portOf s p).tE2))
      (setPort p { portOf s p with lastSent := some (now (symbolDue p s)) } (symbolDue p s)) := if_pos hu

theorem symbolSendEffect_none (hu : (portOf s p).up = false) : symbolSendEffect p s = s := if_neg (ne_true_of_eq_false hu)

/-- CONSIST is reached: the port it follows, and nothing of the time or of the ports changes. -/
theorem toConsist_facts {u : State} : (toConsist p u).quartz.state = .consist ∧ (toConsist p u).quartz.timingPort = some p ∧
    (toConsist p u).quartz.firstLocked = u.quartz.firstLocked ∧ now (toConsist p u) = now u ∧ (toConsist p u).ports = u.ports := by
  unfold toConsist endHoldover
  split <;> exact ⟨rfl, rfl, rfl, rfl, rfl⟩

section
variable {tTx tE1 tHold : Nat}

/-- The link delay that a symbol measures. -/
def symbolDelay (s : State) (tE1 tHold : Nat) : Int := (((stampNow s : Nat) : Int) - tE1 - tHold) / 2

/-- The port after a symbol. -/
def symbolTaken (p tTx tE1 tHold : Nat) (s : State) : State :=
  setPort p { portOf s p with tE1 := tTx, tE2 := stampNow s, symDelay := symbolDelay s tE1 tHold } s

/-- The counter as the first lock steps it to the neighbour's time. -/
def steppedTo (up : Int) (s : State) : State :=
  modQuartz (fun q => { q with firstLocked := true, now := (up / 256).toNat, frac := (up % 256).toNat * 2 ^ 24 }) s

theorem timingSymbolEffect_down (hu : (portOf s p).up = false) : timingSymbolEffect p tTx tE1 tHold s = s :=
  if_neg (ne_true_of_eq_false hu)

section
variable (hu : (portOf s p).up = true)
include hu

theorem timingSymbolEffect_measures (hd : disciplines s p = false) :
    timingSymbolEffect p tTx tE1 tHold s = symbolTaken p tTx tE1 tHold s := (if_pos hu).trans (if_neg (ne_true_of_eq_false hd))

theorem timingSymbolEffect_disciplines (hd : disciplines s p = true) : timingSymbolEffect p tTx tE1 tHold s =
    if !s.quartz.firstLocked && !anyJob s && decide ((stampNow s : Int) ≤ (tTx : Int) + symbolDelay s tE1 tHold)
    then toConsist p (steppedTo ((tTx : Int) + symbolDelay s tE1 tHold) (symbolTaken p tTx tE1 tHold s))
    else steer (toConsist p (modQuartz (fun q => { q with firstLocked := true }) (symbolTaken p tTx tE1 tHold s))) :=
  (if_pos hu).trans (if_pos hd)

/-- A symbol of the port that disciplines locks the Quartz, and steps it on the first lock alone. -/
theorem timingSymbolEffect_locks (hd : disciplines s p = true) : let u := timingSymbolEffect p tTx tE1 tHold s
    let there : Int := (tTx : Int) + symbolDelay s tE1 tHold
    u.quartz.firstLocked = true ∧ u.quartz.state = .consist ∧ u.quartz.timingPort = some p ∧
    (portOf u p).symDelay = symbolDelay s tE1 tHold ∧ now s ≤ now u ∧
    (s.quartz.firstLocked = true ∨ anyJob s = true ∨ there < stampNow s → now u = now s) ∧
    (s.quartz.firstLocked = false → anyJob s = false → (stampNow s : Int) ≤ there → now u = (there / 256).toNat) := by
  have hport : (portOf (symbolTaken p tTx tE1 tHold s) p).symDelay = symbolDelay s tE1 tHold := by
    unfold symbolTaken; rw [portOf_setPort]
  dsimp only
  rw [timingSymbolEffect_disciplines hu hd]
  split
  · next hc =>
    obtain ⟨hst, htp, hfl, hnow, hpo⟩ := @toConsist_facts p (steppedTo ((tTx : Int) + symbolDelay s tE1 tHold) (symbolTaken p tTx tE1 tHold s))
    simp only [Bool.and_eq_true, Bool.not_eq_true', decide_eq_true_eq] at hc
    obtain ⟨⟨hl, hj⟩, hle⟩ := hc
    have hnow' : now (toConsist p (steppedTo ((tTx : Int) + symbolDelay s tE1 tHold) (symbolTaken p tTx tE1 tHold s))) =
      (((tTx : Int) + symbolDelay s tE1 tHold) / 256).toNat := hnow
    refine ⟨hfl, hst, htp, (congrArg (fun t => (tblGet {} t p).symDelay) hpo).trans hport, ?_, fun h => ?_, fun _ _ _ => hnow'⟩
    · rw [hnow']
      unfold stampNow at hle
      unfold now
      omega
    · rcases h with h | h | h
      · rw [hl] at h; cases h
      · rw [hj] at h; cases h
      · omega
  · next hc =>
    obtain ⟨hst, htp, hfl, hnow, hpo⟩ := @toConsist_facts p (modQuartz (fun q => { q with firstLocked := true }) (symbolTaken p tTx tE1 tHold s))
    refine ⟨hfl, hst, htp, (congrArg (fun t => (tblGet {} t p).symDelay) hpo).trans hport, Nat.le_of_eq hnow.symm, fun _ => hnow, fun hl hj hle => ?_⟩
    rw [hl, hj, decide_eq_true hle] at hc
    exact absurd rfl hc

end
end

/-- Settles O53: a frame is checked, then delivered, refused or discarded by its sequence; the other rows act by their port. -/
theorem nguixPortsTrainRetryAndMeasure : Obligations.NguixPortsTrainRetryAndMeasure := by
  unfold Obligations.NguixPortsTrainRetryAndMeasure
  intro p s hp
  have ok : okNport p = true := decide_eq_true hp
  have hframe : ∀ bs : List Byte, bs.length ≤ 544 → exec (.frame p bs) s = .next (frameEffect p bs s) :=
    fun bs h => exec_frame (Bool.and_eq_true_iff.mpr ⟨ok, decide_eq_true h⟩)
  have hres : exec (.portResume p) s = .next (portResumeEffect p s) := exec_portResume ok
  have hsend : exec (.timingSymbolSend p) s = .next (symbolSendEffect p s) := exec_timingSymbolSend ok
  refine ⟨fun bs hl hu hs => ⟨fun hg => ?_, fun hg ht => ?_, fun hg ht hq => ?_, fun hg ht hq ha hk => ?_, fun hg ht hq h => ?_⟩,
    fun bs hle h => (hframe bs hle).trans (congrArg _ (frameEffect_none h)), fun ty q slots ht hq hu hs => ⟨_, sendFrame_out hu hs,
      frameBytes_checked.1, frameBytes_checked.2.1, ?_⟩, fun n hn => ?_,
    ⟨rfl, fun f hf => ⟨portLanes_zero_iff hf, portLanes_half hf⟩⟩,
    fun t h => hres.trans (congrArg _ (portResumeEffect_resumes h)), fun h => hres.trans (congrArg _ (portResumeEffect_none h)),
    fun k hk => ⟨exec_laserModuleReady (decide_eq_true hk), exec_laserModuleFault (decide_eq_true hk)⟩, fun r hr hpp => ?_,
    fun r nbr nbrPort hr hused hn hnp => ?_, fun hu => hsend.trans (congrArg _ (symbolSendEffect_sends hu)), fun tTx tE1 tE2 tHold => ?_⟩
  · exact (hframe bs (by omega)).trans (congrArg _ (frameEffect_bad hl hu hs hg))
  · exact (hframe bs (by omega)).trans (congrArg _ (frameEffect_control hl hu hs hg ht))
  · exact (hframe bs (by omega)).trans (congrArg _ (frameEffect_inOrder hl hu hs hg ht hq))
  · exact (hframe bs (by omega)).trans (congrArg _ (frameEffect_gap hl hu hs hg ht hq ha hk))
  · exact (hframe bs (by omega)).trans (congrArg _ (frameEffect_discards hl hu hs hg ht hq h))
  · dsimp only
    rw [frameBytes_checked.2.2]
    exact frameHeader_fields ht hq (Nat.mod_lt _ (by decide)) (Nat.mod_lt _ (by decide)) (Nat.mod_lt _ (by decide))
  · have hlane : exec (.nguixLaneFailure p n) s = .next (nguixLaneEffect p n s) :=
      exec_nguixLaneFailure (Bool.and_eq_true_iff.mpr ⟨ok, decide_eq_true hn⟩)
    refine ⟨fun h => hlane.trans (congrArg _ (nguixLaneEffect_none h)), fun hu hf => ⟨fun hw => ⟨_, hlane.trans (congrArg _
        ((nguixLaneEffect_eq hu hf).trans (if_pos hw))), ?_, ?_⟩,
      fun hw he => hlane.trans (congrArg _ ((nguixLaneEffect_eq hu hf).trans ((if_neg hw).trans (if_pos he)))),
      fun hw he => hlane.trans (congrArg _ ((nguixLaneEffect_eq hu hf).trans ((if_neg hw).trans (if_neg he))))⟩⟩
    · rw [portOf_setPort]
    · rw [portOf_setPort]
  · have htrain : exec (.portTraining p r) s = .next (trainEffect p r s) :=
      exec_portTraining (Bool.and_eq_true_iff.mpr ⟨Bool.and_eq_true_iff.mpr ⟨ok, hr⟩, decide_eq_true hpp⟩)
    refine ⟨fun hu => htrain.trans (congrArg _ (trainEffect_up hu)), fun hu ho => htrain.trans (congrArg _ (trainEffect_fails hu ho)),
      fun hu ho hd => ⟨_, htrain, ?_⟩⟩
    rw [trainEffect_comesUp hu ho hd]
    exact ⟨rfl, rfl, rfl, rfl, rfl, rfl⟩
  · have hann : exec (.routeAnnounce p nbr nbrPort) s = .next (announceEffect p nbr nbrPort s) :=
      exec_routeAnnounce (Bool.and_eq_true_iff.mpr ⟨Bool.and_eq_true_iff.mpr ⟨ok, decide_eq_true hn⟩, decide_eq_true hnp⟩)
    exact ⟨fun h1 h2 => hann.trans (congrArg _ (announceEffect_agrees hr h1 h2)),
      fun h => hann.trans (congrArg _ (announceEffect_differs hr hused h))⟩
  · have hsym : exec (.timingSymbol p tTx tE1 tE2 tHold) s = .next (timingSymbolEffect p tTx tE1 tHold s) := exec_timingSymbol ok
    exact ⟨fun hu => ⟨hsym.trans (congrArg _ (timingSymbolEffect_down hu)), hsend.trans (congrArg _ (symbolSendEffect_none hu))⟩,
      fun hu hd => hsym.trans (congrArg _ (timingSymbolEffect_measures hu hd)), fun hu hd => ⟨_, hsym, timingSymbolEffect_locks hu hd⟩⟩

end Sys2Proof.Machine
end

section
/-! PROOF. Remote requests at their destination, responses at their requester, and collective packets (O54, O55). -/

namespace Sys2Proof.Machine

variable {s : State} {m : RemoteMsg}

/-! ### Refusals (R26, R328, R336) -/

theorem wantsReply_iff {op : Nat} : wantsReply op = true ↔ op = 0 ∨ op = 1 ∨ op = 4 ∨ op = 5 := by
  simp [wantsReply, or_assoc]

/-- A request that is answered fails with an error response; another is dropped. -/
def remoteFails (m : RemoteMsg) (s : State) : State :=
  if m.op = 0 ∨ m.op = 1 ∨ m.op = 4 ∨ m.op = 5 then sendReply m 0xA [] s else s

theorem replyOr_eq {t u : State} : (if wantsReply m.op then t else u) = if m.op = 0 ∨ m.op = 1 ∨ m.op = 4 ∨ m.op = 5 then t else u := by
  simp only [wantsReply_iff]

theorem remoteRefuse_eq : remoteRefuse m s = remoteFails m (raiseEvent evRegionFault m.src (causeOf evRegionFault 3) s) := replyOr_eq

/-! ### Arrival, in the order of the source's pseq (R326, R328, R335) -/

/-- The requests of a source that wait, with one more. -/
def keptEarly (m : RemoteMsg) (x : Source) : List RemoteMsg := x.early.filter (fun e => !(e.pseq == m.pseq)) ++ [m]

/-- How far a request is ahead of the one that is expected. -/
def aheadOf (m : RemoteMsg) (x : Source) : Nat := (m.pseq + 65536 - x.next) % 65536

theorem takeRequest_next (hq : m.pseq = (srcOf s m.src).next) (hw : writesWait s (.remote m.src) = false) :
    takeRequest m s = drainSource m.src ((srcOf s m.src).early.length + 1)
      (remotePerform m (setSrc m.src { srcOf s m.src with next := ((srcOf s m.src).next + 1) % 65536, gapSince := none } s)) := by
  simp only [takeRequest, hw, Bool.and_false, Bool.false_eq_true, if_false]
  exact if_pos hq

theorem takeRequest_held (hq : m.pseq = (srcOf s m.src).next) (hw : writesWait s (.remote m.src) = true) :
    takeRequest m s = setSrc m.src { srcOf s m.src with early := keptEarly m (srcOf s m.src), gapSince := none } s :=
  if_pos (by simp [hq, hw])

section
variable (hq : m.pseq ≠ (srcOf s m.src).next)
include hq

theorem takeRequest_eq : takeRequest m s =
    if aheadOf m (srcOf s m.src) < 32768 && decide ((srcOf s m.src).early.length < 4096) then
      setSrc m.src { srcOf s m.src with
        early := keptEarly m (srcOf s m.src),
        gapSince := if nextHere (srcOf s m.src) then none else some ((srcOf s m.src).gapSince.getD (now s)) } s
    else s := (if_neg (by simp [hq])).trans (if_neg hq)

theorem takeRequest_early (hf : aheadOf m (srcOf s m.src) < 32768) (hl : (srcOf s m.src).early.length < 4096) : takeRequest m s =
    setSrc m.src { srcOf s m.src with
      early := keptEarly m (srcOf s m.src),
      gapSince := if nextHere (srcOf s m.src) then none else some ((srcOf s m.src).gapSince.getD (now s)) } s :=
  (takeRequest_eq hq).trans (if_pos (by simp [hf, hl]))

theorem takeRequest_drops (h : 32768 ≤ aheadOf m (srcOf s m.src) ∨ 4096 ≤ (srcOf s m.src).early.length) : takeRequest m s = s := by
  refine (takeRequest_eq hq).trans (if_neg ?_)
  rcases h with h | h
  · rw [decide_eq_false (Nat.not_lt.mpr h)]
    exact Bool.false_ne_true
  · rw [decide_eq_false (Nat.not_lt.mpr h), Bool.and_false]
    exact Bool.false_ne_true

end

section
variable {op : Nat}

theorem requestRow_other (h : m.op ≠ op) : requestRow op m s = s := if_pos h

section
variable (h : m.op = op)
include h

theorem requestRow_noRoute (hr : s.route = none) : requestRow op m s = remoteFails m s := by
  subst h
  simp only [requestRow, hr, ne_eq, not_true_eq_false, if_false]
  exact replyOr_eq

theorem requestRow_forwards {r : Route} (hr : s.route = some r) (hd : m.dst ≠ r.self) :
    requestRow op m s = if (routePort s r m.dst).isSome then send (.remote m) s else remoteFails m s := by
  subst h
  simp only [requestRow, hr, ne_eq, not_true_eq_false, if_false, hd]
  rw [replyOr_eq]
  rfl

theorem requestRow_takes {r : Route} (hr : s.route = some r) (hd : m.dst = r.self) : requestRow op m s = takeRequest m s := by
  subst h
  simp only [requestRow, hr, ne_eq, not_true_eq_false, if_false, hd, if_true]

end

/-- A row of requests: what it does by its operation, the route and the order of its source. -/
theorem requestRow_cases {i : Instr} (hex : exec i s = .next (requestRow op m s)) :
    (m.op ≠ op → exec i s = .next s) ∧
    (m.op = op → s.route = none → exec i s = .next (remoteFails m s)) ∧
    (∀ r, m.op = op → s.route = some r → m.dst ≠ r.self →
      exec i s = .next (if (routePort s r m.dst).isSome then send (.remote m) s else remoteFails m s)) ∧
    (∀ r, m.op = op → s.route = some r → m.dst = r.self →
      (m.pseq = (srcOf s m.src).next → writesWait s (.remote m.src) = false → exec i s =
        .next (drainSource m.src ((srcOf s m.src).early.length + 1)
          (remotePerform m (setSrc m.src { srcOf s m.src with next := ((srcOf s m.src).next + 1) % 65536, gapSince := none } s)))) ∧
      (m.pseq = (srcOf s m.src).next → writesWait s (.remote m.src) = true → exec i s =
        .next (setSrc m.src { srcOf s m.src with early := keptEarly m (srcOf s m.src), gapSince := none } s)) ∧
      (m.pseq ≠ (srcOf s m.src).next → aheadOf m (srcOf s m.src) < 32768 → (srcOf s m.src).early.length < 4096 → exec i s =
        .next (setSrc m.src { srcOf s m.src with
          early := keptEarly m (srcOf s m.src),
          gapSince := if nextHere (srcOf s m.src) then none else some ((srcOf s m.src).gapSince.getD (now s)) } s)) ∧
      (m.pseq ≠ (srcOf s m.src).next → 32768 ≤ aheadOf m (srcOf s m.src) ∨ 4096 ≤ (srcOf s m.src).early.length → exec i s = .next s)) :=
  ⟨fun h => hex.trans (congrArg _ (requestRow_other h)), fun h hr => hex.trans (congrArg _ (requestRow_noRoute h hr)),
    fun _ h hr hd => hex.trans (congrArg _ (requestRow_forwards h hr hd)),
    fun _ h hr hd => ⟨fun hq hw => hex.trans (congrArg _ ((requestRow_takes h hr hd).trans (takeRequest_next hq hw))),
      fun hq hw => hex.trans (congrArg _ ((requestRow_takes h hr hd).trans (takeRequest_held hq hw))),
      fun hq hf hl => hex.trans (congrArg _ ((requestRow_takes h hr hd).trans (takeRequest_early hq hf hl))),
      fun hq hf => hex.trans (congrArg _ ((requestRow_takes h hr hd).trans (takeRequest_drops hq hf)))⟩⟩

end

/-! ### Performance (R334, R336) -/

/-- The request names an operation, an aligned address and no reserved bit. -/
def requestFits (m : RemoteMsg) : Prop := m.op ≤ 5 ∧ m.addr % 64 = 0 ∧ m.reserved = false

theorem remoteBad_iff : remoteBad m = true ↔ ¬ requestFits m := by
  unfold remoteBad requestFits
  cases m.reserved
  · simp; omega
  · simp

theorem remotePerform_bad (h : ¬ requestFits m) :
    remotePerform m s = { s with remote := { s.remote with discarded := s.remote.discarded + 1 } } := if_pos (remoteBad_iff.mpr h)

section
variable (hf : requestFits m)
include hf

theorem remotePerform_beyond (ha : umrEnd < m.addr + 64) : remotePerform m s = remoteRefuse m s :=
  (if_neg (fun h => remoteBad_iff.mp h hf)).trans (if_pos ha)

variable (ha : m.addr + 64 ≤ umrEnd)
include ha

theorem remotePerform_read (ho : m.op ≤ 1) : remotePerform m s = remotePerformRead m s :=
  (if_neg (fun h => remoteBad_iff.mp h hf)).trans ((if_neg (Nat.not_lt.mpr ha)).trans (if_pos ho))

section
variable (ho : m.op ≤ 1) {sc : Option Scope} (hs : sc = if m.op = 1 then some .consist else none)
include ho hs

omit hf ha ho in
theorem consistIf_eq : consistIf (decide (m.op = 1)) = sc := by
  rw [hs, consistIf]
  simp only [decide_eq_true_eq]

theorem remotePerform_poisoned (hp : rangePoisoned (drainFor sc s) m.addr 64 = true) :
    remotePerform m s = remoteRefuse m (countPoison (m.addr / 64) (drainFor sc s)) := by
  rw [remotePerform_read hf ha ho]
  unfold remotePerformRead remoteData
  dsimp only
  rw [consistIf_eq hs, hp]
  rfl

theorem remotePerform_answers (hp : rangePoisoned (drainFor sc s) m.addr 64 = false) :
    remotePerform m s = sendReply m 8 (dirRead (.remote m.src) m.addr 64 sc (drainFor sc s)).1
      (dirRead (.remote m.src) m.addr 64 sc (drainFor sc s)).2 := by
  rw [remotePerform_read hf ha ho]
  unfold remotePerformRead remoteData
  dsimp only
  rw [consistIf_eq hs, hp]
  rfl

end

section
variable (ho : 2 ≤ m.op)
include ho

theorem remotePerform_protected (hp : protectedRange s m.addr 64 = true) : remotePerform m s = remoteRefuse m s :=
  (if_neg (fun h => remoteBad_iff.mp h hf)).trans ((if_neg (Nat.not_lt.mpr ha)).trans ((if_neg (by omega)).trans (if_pos hp)))

variable (hp : protectedRange s m.addr 64 = false)
include hp

theorem remotePerform_write : remotePerform m s = remotePerformWrite m s :=
  (if_neg (fun h => remoteBad_iff.mp h hf)).trans ((if_neg (Nat.not_lt.mpr ha)).trans ((if_neg (by omega)).trans
    (if_neg (ne_true_of_eq_false hp))))

theorem remotePerform_heldWrite (hw : writeHeld s (m.addr / extSize) = true) :
    remotePerform m s = holdWrite (m.addr / extSize) (.remoteWrite m) s := (remotePerform_write hf ha ho hp).trans (if_pos hw)

/-- The enabled bytes of a write go to memory on the direct path. -/
def remoteWritten (m : RemoteMsg) (s : State) : State :=
  (maskRuns m.mask.toNat m.data).foldl (fun s r =>
    directWriteLine (.remote m.src) (m.addr + r.1) r.2 (if m.op = 3 ∨ m.op = 5 then some .consist else none) (m.addr / 64) s) s

omit hf ha ho hp in
theorem remotePerformWrite_now (hw : writeHeld s (m.addr / extSize) = false) :
    remotePerformWrite m s = if wantsReply m.op then sendReply m 9 [] (remoteWritten m s) else remoteWritten m s := by
  simp only [remotePerformWrite, hw, Bool.false_eq_true, if_false, remoteWritten, Bool.or_eq_true, decide_eq_true_eq]

theorem remotePerform_writes (hw : writeHeld s (m.addr / extSize) = false) : remotePerform m s =
    if m.op = 0 ∨ m.op = 1 ∨ m.op = 4 ∨ m.op = 5 then sendReply m 9 [] (remoteWritten m s) else remoteWritten m s :=
  (remotePerform_write hf ha ho hp).trans ((remotePerformWrite_now hw).trans replyOr_eq)

end
end

/-! ### Gaps (R335) -/

/-- The first of the elements with the least key. -/
def leastBy {α : Type} (f : α → Nat) (b : α) (l : List α) : α := l.foldl (fun b a => if f a < f b then a else b) b

theorem leastBy_spec {α : Type} {f : α → Nat} {l : List α} {b : α} :
    leastBy f b l ∈ b :: l ∧ ∀ a ∈ b :: l, f (leastBy f b l) ≤ f a := by
  induction l generalizing b with
  | nil => exact ⟨List.mem_cons_self .., fun a ha => by rw [List.mem_singleton.mp ha]; exact Nat.le_refl _⟩
  | cons c l ih =>
    obtain ⟨hmem, hle⟩ := @ih (if f c < f b then c else b)
    have hmin : f (if f c < f b then c else b) ≤ f b ∧ f (if f c < f b then c else b) ≤ f c := by split <;> omega
    have hcb : (if f c < f b then c else b) = c ∨ (if f c < f b then c else b) = b := by
      by_cases h : f c < f b
      · exact .inl (if_pos h)
      · exact .inr (if_neg h)
    have hfirst := hle _ (List.mem_cons_self ..)
    refine ⟨?_, fun a ha => ?_⟩
    · rcases List.mem_cons.mp hmem with h | h
      · rcases hcb with hc | hc
        · exact List.mem_cons_of_mem _ (List.mem_cons.mpr (.inl (h.trans hc)))
        · exact List.mem_cons.mpr (.inl (h.trans hc))
      · exact List.mem_cons_of_mem _ (List.mem_cons_of_mem _ h)
    · rcases List.mem_cons.mp ha with rfl | ha
      · exact hfirst.trans hmin.1
      · rcases List.mem_cons.mp ha with rfl | ha
        · exact hfirst.trans hmin.2
        · exact hle a (List.mem_cons_of_mem _ ha)

/-- An element whose key is below every other's is the least. -/
theorem leastBy_eq {α : Type} {f : α → Nat} {l : List α} {b e : α} (he : e ∈ b :: l) (h : ∀ y ∈ b :: l, y ≠ e → f e < f y) :
    leastBy f b l = e := by
  obtain ⟨hmem, hle⟩ := @leastBy_spec α f l b
  by_contra hne
  exact Nat.not_lt.mpr (hle e he) (h _ hmem hne)

section
variable {src : Nat}

theorem gapEffect_none (h : (srcOf s src).gapSince = none ∨ nextHere (srcOf s src) = true ∨ (srcOf s src).early = []) :
    gapEffect src s = s := by
  cases hg : (srcOf s src).gapSince with
  | none => simp [gapEffect, hg]
  | some t =>
    cases he : (srcOf s src).early with
    | nil => simp [gapEffect, hg, he]
    | cons e rest =>
      have hn : nextHere (srcOf s src) = true := by
        rcases h with h | h | h
        · rw [hg] at h; cases h
        · exact h
        · rw [he] at h; cases h
      simp [gapEffect, hg, he, hn]

/-- A gap is skipped to the least request that waits, and counted. -/
theorem gapEffect_skips {t : Nat} {e : RemoteMsg} (hg : (srcOf s src).gapSince = some t) (he : e ∈ (srcOf s src).early)
    (hn : nextHere (srcOf s src) = false)
    (hl : ∀ y ∈ (srcOf s src).early, y ≠ e → aheadOf e (srcOf s src) < aheadOf y (srcOf s src)) :
    gapEffect src s = drainSource src ((srcOf s src).early.length + 1)
      (setSrc src { srcOf s src with next := e.pseq, gapSince := none } { advance (t + 100000) s with
        remote := { (advance (t + 100000) s).remote with gapSkips := (advance (t + 100000) s).remote.gapSkips + 1 } }) := by
  cases hx : (srcOf s src).early with
  | nil => rw [hx] at he; cases he
  | cons b rest =>
    rw [hx] at he hl
    have hm : leastBy (fun m => aheadOf m (srcOf s src)) b rest = e := leastBy_eq he hl
    rw [← hm, ← hx]
    simp only [gapEffect, hg, hx, hn, Bool.false_eq_true, if_false]
    rfl

end

/-- What a source's waiting requests do once one has been performed. -/
theorem drainSource_held {k src : Nat} (h : writesWait s (.remote src) = true) : drainSource src (k + 1) s = s := if_pos h

/-- Settles O54: a request's row follows its operation, its route and its source's order, and its performance its address and its kind. -/
theorem remoteRequestsArePerformedInOrder : Obligations.RemoteRequestsArePerformedInOrder := by
  unfold Obligations.RemoteRequestsArePerformedInOrder
  intro m s ok
  have hsrc : m.src < 1024 := by
    simp only [okMsg, okPkg, Bool.and_eq_true, decide_eq_true_eq] at ok
    exact ok.1.1.1.1.1.2
  have hgap : ∀ src, src < 1024 → exec (.pseqGapSkip src) s = .next (gapEffect src s) := fun src h => exec_pseqGapSkip (decide_eq_true h)
  refine ⟨requestRow_cases (exec_remoteRead ok), requestRow_cases (exec_remoteReadAcquire ok), requestRow_cases (exec_remoteWrite ok),
    requestRow_cases (exec_remoteWriteRelease ok), requestRow_cases (exec_remoteWriteAcked ok),
    requestRow_cases (exec_remoteWriteReleaseAcked ok),
    fun k src s => ⟨fun h => drainSource_held h, fun h => if_neg (ne_true_of_eq_false h)⟩,
    fun h => remotePerform_bad h, fun hf ha => (remotePerform_beyond hf ha).trans remoteRefuse_eq,
    fun hf ha => ⟨fun sc ho hs => ⟨fun hp => (remotePerform_poisoned hf ha ho hs hp).trans remoteRefuse_eq,
        fun hp => remotePerform_answers hf ha ho hs hp⟩,
      fun ho hp => (remotePerform_protected hf ha ho hp).trans remoteRefuse_eq, fun ho hp hw => remotePerform_heldWrite hf ha ho hp hw,
      fun ho hp hw => remotePerform_writes hf ha ho hp hw⟩,
    fun src h hc => (hgap src h).trans (congrArg _ (gapEffect_none hc)),
    fun t e hg he hn hl => (hgap m.src hsrc).trans (congrArg _ (gapEffect_skips hg he hn hl))⟩

/-! ### Responses (R22, R328, R335) -/

section
variable {op : Nat} {run : RemoteMsg → State → State}

theorem responseRow_none (h : m.op ≠ op ∨ s.route = none) : responseRow op m run s = s := by
  unfold responseRow
  split
  · rfl
  · next hop =>
    rw [h.resolve_left hop]

section
variable {r : Route} (hr : s.route = some r)
include hr

theorem responseRow_forwards (ho : m.op = op) (hd : m.dst ≠ r.self) :
    responseRow op m run s = if (routePort s r m.dst).isSome then send (.remote m) s else s := by
  simp [responseRow, ho, hr, hd]

theorem responseRow_here (ho : m.op = op) (hd : m.dst = r.self) : responseRow op m run s = run m s := by
  simp [responseRow, ho, hr, hd]

theorem responseRow_unasked (hd : m.dst = r.self) (hrun : run m s = s) : responseRow op m run s = s := by
  by_cases ho : m.op = op
  · rw [responseRow_here hr ho hd, hrun]
  · exact responseRow_none (.inl ho)

end

/-- A row of responses: none of the row's or without a route, for another member, and one that was not asked for. -/
theorem responseRow_cases {i : Instr} (hex : exec i s = .next (responseRow op m run s))
    (hrun : outstanding s m.src m.tag = none → run m s = s) :
    (m.op ≠ op ∨ s.route = none → exec i s = .next s) ∧
    (∀ r, m.op = op → s.route = some r → m.dst ≠ r.self → exec i s = .next (if (routePort s r m.dst).isSome then send (.remote m) s else s)) ∧
    (∀ r : Route, s.route = some r ∧ m.dst = r.self → outstanding s m.src m.tag = none → exec i s = .next s) :=
  ⟨fun h => hex.trans (congrArg _ (responseRow_none h)), fun _ ho hr hd => hex.trans (congrArg _ (responseRow_forwards hr ho hd)),
    fun _ ⟨hr, hd⟩ hn => hex.trans (congrArg _ (responseRow_unasked hr hd (hrun hn)))⟩

end

theorem readDataEffect_unasked (h : outstanding s m.src m.tag = none) : readDataEffect m s = s := by simp [readDataEffect, h]
theorem writeAckEffect_unasked (h : outstanding s m.src m.tag = none) : writeAckEffect m s = s := by simp [writeAckEffect, h]
theorem remoteErrorEffect_unasked (h : outstanding s m.src m.tag = none) : remoteErrorEffect m s = s := by simp [remoteErrorEffect, h]

section
variable {o : Outstanding}

section
variable (ho : outstanding s m.src m.tag = some o)
include ho

theorem readDataEffect_write (h : 2 ≤ o.op) : readDataEffect m s = s := by
  simp [readDataEffect, ho, Nat.not_le.mpr h]

theorem readDataEffect_hart (h : o.op ≤ 1) {k rd off n : Nat} {sg : Bool} (hq : o.req = .hart k) (hl : o.load = some (rd, off, n, sg)) :
    readDataEffect m s = hartArrive k m.src m.tag rd off n sg m.data (settleRemote o false m.data s) := by
  simp [readDataEffect, ho, h, hq, hl]

theorem readDataEffect_dray (h : o.op ≤ 1) {d : Nat} (hq : o.req = .dray d) :
    readDataEffect m s = drayArrive d m.src (o.addr / 64) (some m.data) (settleRemote o false m.data s) := by
  simp [readDataEffect, ho, h, hq]

theorem writeAckEffect_asked : writeAckEffect m s = if 4 ≤ o.op then settleRemote o false [] s else s := by
  simp [writeAckEffect, ho]

theorem remoteErrorEffect_asked : remoteErrorEffect m s = failRemote o s := by simp [remoteErrorEffect, ho]

end

theorem failRemote_hart {k : Nat} (hq : o.req = .hart k) (h : o.load.isSome ∨ 2 ≤ o.op) (hs : (hartOf s k).splits = []) : failRemote o s =
    raiseTrap k (if o.op ≤ 1 then .loadFault else .storeFault) (2 ^ 55 + o.dst * 2 ^ 43 + o.addr) (settleRemote o true [] s) := by
  have hc : (decide (o.op ≤ 1) && o.load.isNone) = false := by
    rcases h with h | h
    · rw [Option.isNone_eq_false_iff.mpr h, Bool.and_false]
    · rw [decide_eq_false (Nat.not_le.mpr h), Bool.false_and]
  have hsplit : hartSplitFails k o.dst o.tag (settleRemote o true [] s) = settleRemote o true [] s :=
    hartSplitFails_none ((congrArg Hart.splits hartOf_settle).trans hs)
  unfold failRemote
  dsimp only
  rw [hq]
  dsimp only
  rw [hc, hsplit, if_neg Bool.false_ne_true]

theorem failRemote_dray {d : Nat} (hq : o.req = .dray d) : failRemote o s =
    if o.op ≤ 1 then drayArrive d o.dst (o.addr / 64) none (settleRemote o true [] s) else rejectWrite d (settleRemote o true [] s) := by
  unfold failRemote
  dsimp only
  rw [hq]

theorem timeoutEffect_none {dst tag : Nat} (h : outstanding s dst tag = none) : timeoutEffect dst tag s = s := by simp [timeoutEffect, h]

theorem timeoutEffect_fails {dst tag : Nat} (h : outstanding s dst tag = some o) :
    timeoutEffect dst tag s = failRemote o (advance (o.at_ + 200000) s) := by simp [timeoutEffect, h]

end

/-! ### Collective packets (R340) -/

section
variable {k : CollPacket}

/-- A packet that came early is kept. -/
def packetKept (k : CollPacket) (s : State) : State :=
  { s with collEarly := tblSet k.engine (tblGet [] s.collEarly k.engine ++ [k]) s.collEarly }

theorem packetEffect_noPart (h : redPart s k.engine = none) : packetEffect k s = s := by simp [packetEffect, h]

section
variable {p : Nat} (hp : redPart s k.engine = some p)
include hp

theorem packetEffect_noJob (hj : jobOf s p = none) : packetEffect k s = s := by simp [packetEffect, hp, hj]

variable {j : Job} (hj : jobOf s p = some j)
include hj

/-- The epoch that the job's packets carry. -/
def packetEpoch (j : Job) : Nat := (j.epochBase + j.epoch) % 2 ^ 32

theorem packetEffect_otherAttempt (he : k.epoch = packetEpoch j) (ha : k.attempt ≠ j.attempt % 256) : packetEffect k s = s := by
  have hc : (decide (k.epoch = (j.epochBase + j.epoch) % 2 ^ 32) && decide (k.attempt ≠ j.attempt % 256)) = true :=
    Bool.and_eq_true_iff.mpr ⟨decide_eq_true he, decide_eq_true ha⟩
  simp only [packetEffect, hp, hj]
  exact if_pos hc

section
variable (ha : ¬ (k.epoch = packetEpoch j ∧ k.attempt ≠ j.attempt % 256))
include ha

theorem packetEffect_running {c : Coll} (hc : tblGet? s.colls k.engine = some c) : packetEffect k s =
    if packetFits c k then drainEarly k.engine ((tblGet [] s.collEarly k.engine).length + 1) (takePacket k.engine c k s)
    else if packetEpoch j < k.epoch || (decide (k.epoch = packetEpoch j) && decide (c.entry ≤ k.entry)) then packetKept k s else s := by
  have hn : ¬ ((decide (k.epoch = (j.epochBase + j.epoch) % 2 ^ 32) && decide (k.attempt ≠ j.attempt % 256)) = true) := by
    simpa [packetEpoch] using ha
  simp only [packetEffect, hp, hj, hc]
  exact if_neg hn

theorem packetEffect_idle (hc : tblGet? s.colls k.engine = none) : packetEffect k s =
    if packetEpoch j < k.epoch || (decide (k.epoch = packetEpoch j) && decide ((seqOf s (584 + k.engine)).entry ≤ k.entry) &&
      !setHas (seqOf s (584 + k.engine)).done k.entry) then packetKept k s else s := by
  have hn : ¬ ((decide (k.epoch = (j.epochBase + j.epoch) % 2 ^ 32) && decide (k.attempt ≠ j.attempt % 256)) = true) := by
    simpa [packetEpoch] using ha
  simp only [packetEffect, hp, hj, hc]
  exact if_neg hn

end

section
variable (he : k.epoch = packetEpoch j) (ha : k.attempt = j.attempt % 256)
include he ha

omit he in
theorem packetEffect_fits {c : Coll} (hc : tblGet? s.colls k.engine = some c) (hf : packetFits c k = true) : packetEffect k s =
    drainEarly k.engine ((tblGet [] s.collEarly k.engine).length + 1) (takePacket k.engine c k s) :=
  (packetEffect_running hp hj (fun h => h.2 ha) hc).trans (if_pos hf)

theorem packetEffect_unfit {c : Coll} (hc : tblGet? s.colls k.engine = some c) (hf : packetFits c k = false) :
    packetEffect k s = if c.entry ≤ k.entry then packetKept k s else s := by
  rw [packetEffect_running hp hj (fun h => h.2 ha) hc, if_neg (ne_true_of_eq_false hf)]
  simp [he]

theorem packetEffect_waits (hc : tblGet? s.colls k.engine = none) : packetEffect k s =
    if (seqOf s (584 + k.engine)).entry ≤ k.entry ∧ setHas (seqOf s (584 + k.engine)).done k.entry = false then packetKept k s else s := by
  rw [packetEffect_idle hp hj (fun h => h.2 ha) hc]
  simp [he]

end

theorem packetEffect_later (he : packetEpoch j < k.epoch) (hc : tblGet? s.colls k.engine = none) : packetEffect k s = packetKept k s := by
  rw [packetEffect_idle hp hj (fun h => Nat.ne_of_gt he h.1) hc]
  simp [he]

theorem packetEffect_past (he : k.epoch < packetEpoch j) (hc : tblGet? s.colls k.engine = none) : packetEffect k s = s := by
  rw [packetEffect_idle hp hj (fun h => Nat.ne_of_lt he h.1) hc]
  simp [Nat.ne_of_lt he, Nat.le_of_lt he]

end
end

/-- Settles O55: a response completes the request that is outstanding under its tag, and a packet goes by its epoch, attempt and entry. -/
theorem responsesCompleteTheirRequests : Obligations.ResponsesCompleteTheirRequests := by
  unfold Obligations.ResponsesCompleteTheirRequests
  intro m k s ok okk
  have hdata : exec (.remoteReadData m) s = .next (responseRow 8 m readDataEffect s) := exec_remoteReadData ok
  have hack : exec (.remoteWriteAck m) s = .next (responseRow 9 m writeAckEffect s) := exec_remoteWriteAck ok
  have herr : exec (.remoteError m) s = .next (responseRow 0xA m remoteErrorEffect s) := exec_remoteError ok
  have hpkt : exec (.collectivePacket k) s = .next (packetEffect k s) := exec_collectivePacket okk
  refine ⟨responseRow_cases hdata readDataEffect_unasked, responseRow_cases hack writeAckEffect_unasked,
    responseRow_cases herr remoteErrorEffect_unasked, fun r o ⟨hr, hd⟩ ho =>
      ⟨fun h8 h => hdata.trans (congrArg _ ((responseRow_here hr h8 hd).trans (readDataEffect_write ho h))),
        fun h8 h hk rd off n sg hq hl => ⟨hdata.trans (congrArg _ ((responseRow_here hr h8 hd).trans (readDataEffect_hart ho h hq hl))),
          fun hs => hdata.trans (congrArg _ ((responseRow_here hr h8 hd).trans ((readDataEffect_hart ho h hq hl).trans
            (hartArrive_none ((congrArg Hart.splits hartOf_settle).trans hs)))))⟩,
        fun h8 h d hq => hdata.trans (congrArg _ ((responseRow_here hr h8 hd).trans (readDataEffect_dray ho h hq))),
        fun h9 => hack.trans (congrArg _ ((responseRow_here hr h9 hd).trans (writeAckEffect_asked ho))),
        fun h10 => herr.trans (congrArg _ ((responseRow_here hr h10 hd).trans (remoteErrorEffect_asked ho))),
        fun hk hq h hs => failRemote_hart hq h hs, fun d hq => failRemote_dray hq⟩,
    fun dst tag hdst htag => ?_, fun h => hpkt.trans (congrArg _ (packetEffect_noPart h)),
    fun p hp hj => hpkt.trans (congrArg _ (packetEffect_noJob hp hj)), fun p j hp hj =>
      ⟨fun he ha => hpkt.trans (congrArg _ (packetEffect_otherAttempt hp hj he ha)),
        fun he ha => ⟨fun c hc => ⟨fun hf => hpkt.trans (congrArg _ (packetEffect_fits hp hj ha hc hf)),
            fun hf => hpkt.trans (congrArg _ (packetEffect_unfit hp hj he ha hc hf))⟩,
          fun hc => hpkt.trans (congrArg _ (packetEffect_waits hp hj he ha hc))⟩,
        fun he hc => hpkt.trans (congrArg _ (packetEffect_later hp hj he hc)),
        fun he hc => hpkt.trans (congrArg _ (packetEffect_past hp hj he hc))⟩⟩
  have ht : exec (.remoteTimeout dst tag) s = .next (timeoutEffect dst tag s) :=
    exec_remoteTimeout (Bool.and_eq_true_iff.mpr ⟨decide_eq_true hdst, decide_eq_true htag⟩)
  exact ⟨fun h => ht.trans (congrArg _ (timeoutEffect_none h)), fun o h => ht.trans (congrArg _ (timeoutEffect_fails h))⟩

end Sys2Proof.Machine
end

section
/-! PROOF. Inbound PCIe requests, the links of the sub-ports, and the loads of harts from PCIe windows (O56). -/

namespace Sys2Proof.Machine

variable {s : State} {sub rid a n : Nat} {d : List Byte} {w : Bool} {e : Nat × Region}

/-! ### Requests that a row takes -/

/-- The sub-port's link is up, and no write of it is held. -/
def subLive (s : State) (sub : Nat) : Prop := setHas s.pcie.link sub = true ∧ pcieBehind s sub = false

/-- The address leads into no other sub-port's memory space. -/
def subHere (s : State) (sub a : Nat) : Prop := memSpaceSub s a = none ∨ memSpaceSub s a = some sub

theorem inboundNow_iff : inboundNow s sub = true ↔ subLive s sub := by
  simp [inboundNow, subLive]

theorem inboundNow_false (h : ¬ subLive s sub) : inboundNow s sub = false :=
  eq_false_of_ne_true (fun hn => h (inboundNow_iff.mp hn))

theorem plainInbound_iff : plainInbound s sub a = true ↔ subLive s sub ∧ subHere s sub a := by
  unfold plainInbound subHere
  cases hm : memSpaceSub s a <;> simp [inboundNow_iff]

theorem plainInbound_false (h : ¬ (subLive s sub ∧ subHere s sub a)) : plainInbound s sub a = false :=
  eq_false_of_ne_true (fun hn => h (plainInbound_iff.mp hn))

/-! ### PCIE_INBOUND_MSI (R371) -/

theorem msiEffect_notLive (h : ¬ subLive s sub) : msiEffect sub rid a d s = s := by
  simp [msiEffect, inboundNow_false h]

theorem msiEffect_elsewhere (h : inMsi a 1 = false) : msiEffect sub rid a d s = s := by
  simp [msiEffect, msiAddr, h]

section
variable (hl : subLive s sub) (ha : inMsi a 1 = true)
include hl ha

theorem msiEffect_none (h : resolveEntry s sub rid a 4 true = none) : msiEffect sub rid a d s = unsupported sub rid false s := by
  simp [msiEffect, msiAddr, ha, inboundNow_iff.mpr hl, h]

theorem msiEffect_some (h : resolveEntry s sub rid a 4 true = some e) : msiEffect sub rid a d s =
    if e.2.msi && msiOk a d then pend (fld a 22 16) (fld a 15 12) (fld (leNat d) 10 0) s else unsupported sub rid false s := by
  simp [msiEffect, msiAddr, ha, inboundNow_iff.mpr hl, h]

theorem msiEffect_pends (h : resolveEntry s sub rid a 4 true = some e) (hm : e.2.msi = true) (hd : d.length = 4)
    (hi : irqLegal (fld a 22 16) (fld a 15 12) (fld (leNat d) 10 0) = true) :
    msiEffect sub rid a d s = pend (fld a 22 16) (fld a 15 12) (fld (leNat d) 10 0) s :=
  (msiEffect_some hl ha h).trans (if_pos (by simp [msiOk, hm, hd, hi]))

theorem msiEffect_illegal (h : resolveEntry s sub rid a 4 true = some e)
    (hm : e.2.msi = false ∨ d.length ≠ 4 ∨ irqLegal (fld a 22 16) (fld a 15 12) (fld (leNat d) 10 0) = false) :
    msiEffect sub rid a d s = unsupported sub rid false s := by
  refine (msiEffect_some hl ha h).trans (if_neg (fun hc => ?_))
  simp only [msiOk, Bool.and_eq_true, beq_iff_eq] at hc
  obtain ⟨hmsi, hlen, hlegal⟩ := hc
  rcases hm with hm | hm | hm
  · exact ne_true_of_eq_false hm hmsi
  · exact hm hlen
  · exact ne_true_of_eq_false hm hlegal

end

/-! ### PCIE_INBOUND_P2P (R370, R371) -/

theorem p2pEffect_here (h : subHere s sub a) : p2pEffect sub rid a w d s = s := by
  rcases h with h | h <;> simp [p2pEffect, h]

theorem p2pEffect_notLive (h : ¬ subLive s sub) : p2pEffect sub rid a w d s = s := by
  unfold p2pEffect
  cases hm : memSpaceSub s a <;> simp [inboundNow_false h]

section
variable {j : Nat} (hl : subLive s sub) (hm : memSpaceSub s a = some j) (hj : j ≠ sub)
include hl hm hj

theorem p2pEffect_forwards (hp : bit (tblGet 0 s.pcie.p2p sub) j = true) (hu : setHas s.pcie.link j = true) :
    p2pEffect sub rid a w d s = send (.pcieForward j rid a w d) s := by
  simp [p2pEffect, hm, hj, inboundNow_iff.mpr hl, hp, hu]

theorem p2pEffect_unsupported (h : bit (tblGet 0 s.pcie.p2p sub) j = false ∨ setHas s.pcie.link j = false) :
    p2pEffect sub rid a w d s = unsupported sub rid (!w) s := by
  rcases h with h | h <;> simp [p2pEffect, hm, hj, inboundNow_iff.mpr hl, h]

end

/-! ### PCIE_INBOUND_READ and PCIE_INBOUND_WRITE (R371) -/

theorem inboundReadEffect_notPlain (h : ¬ (subLive s sub ∧ subHere s sub a)) : inboundReadEffect sub rid a n s = s := by
  simp [inboundReadEffect, plainInbound_false h]

theorem inboundWriteEffect_notPlain (h : ¬ (subLive s sub ∧ subHere s sub a)) : inboundWriteEffect sub rid a d s = s := by
  simp [inboundWriteEffect, plainInbound_false h]

theorem inboundWriteEffect_msi (ha : inMsi a 1 = true) : inboundWriteEffect sub rid a d s = s := by
  simp [inboundWriteEffect, msiAddr, ha]

/-- The translated address of a request that a region entry covers. -/
def entryTarget (x : Region) (a : Nat) : Nat := x.target + (a - x.pcieBase)

/-- A read that a region entry covers, on the path of its translated address. -/
def entryRead (sub rid a n : Nat) (e : Nat × Region) (s : State) : State :=
  inboundReadAt (.pcie sub rid) (entryTarget e.2 a) n
    (charge ((regionPart s e.1).getD 0) ((umrOf (entryTarget e.2 a)).getD 0) n false s)

/-- A write that a region entry covers, on the path of its translated address. -/
def entryWrite (sub rid a : Nat) (d : List Byte) (e : Nat × Region) (s : State) : State :=
  inboundWriteAt (.pcie sub rid) (entryTarget e.2 a) d
    (charge ((regionPart s e.1).getD 0) ((umrOf (entryTarget e.2 a)).getD 0) d.length false s)

section
variable (hp : subLive s sub ∧ subHere s sub a)
include hp

theorem inboundReadEffect_msi (ha : inMsi a 1 = true) : inboundReadEffect sub rid a n s = unsupported sub rid true s := by
  simp [inboundReadEffect, plainInbound_iff.mpr hp, msiAddr, ha]

variable (ha : inMsi a 1 = false)
include ha

theorem inboundReadEffect_none (h : resolveEntry s sub rid a n false = none) :
    inboundReadEffect sub rid a n s = unsupported sub rid true s := by
  simp [inboundReadEffect, plainInbound_iff.mpr hp, msiAddr, ha, h]

theorem inboundReadEffect_some (h : resolveEntry s sub rid a n false = some e) :
    inboundReadEffect sub rid a n s = entryRead sub rid a n e s := by
  simp [inboundReadEffect, plainInbound_iff.mpr hp, msiAddr, ha, h, entryRead, entryTarget]

theorem inboundWriteEffect_none (h : resolveEntry s sub rid a d.length true = none) :
    inboundWriteEffect sub rid a d s = unsupported sub rid false s := by
  simp [inboundWriteEffect, plainInbound_iff.mpr hp, msiAddr, ha, h]

theorem inboundWriteEffect_protected (h : resolveEntry s sub rid a d.length true = some e)
    (hw : protectedRange s ((umrOf (entryTarget e.2 a)).getD 0) d.length = true) :
    inboundWriteEffect sub rid a d s = refuseProtected (.pcie sub rid) ((umrOf (entryTarget e.2 a)).getD 0) s := by
  rw [entryTarget] at hw
  simp [inboundWriteEffect, plainInbound_iff.mpr hp, msiAddr, ha, h, hw, entryTarget]

theorem inboundWriteEffect_some (h : resolveEntry s sub rid a d.length true = some e)
    (hw : protectedRange s ((umrOf (entryTarget e.2 a)).getD 0) d.length = false) :
    inboundWriteEffect sub rid a d s = entryWrite sub rid a d e s := by
  rw [entryTarget] at hw
  simp [inboundWriteEffect, plainInbound_iff.mpr hp, msiAddr, ha, h, hw, entryWrite, entryTarget]

end

/-! ### Links, and loads from a PCIe window (R25, R368) -/

theorem linkUpEffect_eq : linkUpEffect sub s =
    if subExists s sub = true ∧ s.bu.state = 1 then { s with pcie := { s.pcie with link := setIns sub s.pcie.link } } else s := by
  simp [linkUpEffect]

theorem pcieCompletionEffect_none {h : Nat} {ok : Bool} {v : Word} (hn : (hartOf s h).pcieLoads = []) :
    pcieCompletionEffect h ok v s = s := by
  simp [pcieCompletionEffect, hn]

theorem pcieCompletionEffect_oldest {h rd x k : Nat} {ok sg : Bool} {v : Word} {rest : List (Nat × Nat × Nat × Bool)}
    (hn : (hartOf s h).pcieLoads = (rd, x, k, sg) :: rest) :
    pcieCompletionEffect h ok v s = wrX h rd (loadValue (if ok then leBytes k v.toNat else List.replicate k 255#8) k sg)
      (setHart h { hartOf s h with pcieLoads := rest } s) := by
  simp [pcieCompletionEffect, hn, modHart]

/-- Settles O56: a request that its row takes resolves by the first entry that covers it, and every other leaves the state as it is. -/
theorem inboundPcieResolvesByRegionEntry : Obligations.InboundPcieResolvesByRegionEntry := by
  unfold Obligations.InboundPcieResolvesByRegionEntry
  intro sub rid a n d w s hsub hrid hn hn4 hd hd5
  have hmsi : exec (.pcieInboundMsi sub rid a d) s = .next (msiEffect sub rid a d s) :=
    exec_pcieInboundMsi (by simp [Instr.wellFormed, okSub, hsub, hrid, hd5])
  have hp2p : exec (.pcieInboundP2p sub rid a w d) s = .next (p2pEffect sub rid a w d s) :=
    exec_pcieInboundP2p (by simp [Instr.wellFormed, okSub, hsub, hrid, hd5.trans (by decide : 512 ≤ 4096)])
  have hrd : exec (.pcieInboundRead sub rid a n) s = .next (inboundReadEffect sub rid a n s) :=
    exec_pcieInboundRead (by simp [Instr.wellFormed, okSub, hsub, hrid, hn, hn4])
  have hwr : exec (.pcieInboundWrite sub rid a d) s = .next (inboundWriteEffect sub rid a d s) :=
    exec_pcieInboundWrite (by simp [Instr.wellFormed, okSub, hsub, hrid, hd, hd5])
  have hup : exec (.pcieLinkUp sub) s = .next (linkUpEffect sub s) := exec_pcieLinkUp (decide_eq_true hsub)
  have hdown : exec (.pcieLinkDown sub) s = .next (linkDownEffect sub s) := exec_pcieLinkDown (decide_eq_true hsub)
  refine ⟨fun hl => ⟨hmsi.trans (congrArg _ (msiEffect_notLive hl)), hp2p.trans (congrArg _ (p2pEffect_notLive hl)),
      hrd.trans (congrArg _ (inboundReadEffect_notPlain (fun h => hl h.1))),
      hwr.trans (congrArg _ (inboundWriteEffect_notPlain (fun h => hl h.1)))⟩,
    fun ha => hmsi.trans (congrArg _ (msiEffect_elsewhere ha)),
    fun hh => hp2p.trans (congrArg _ (p2pEffect_here hh)),
    fun hh => ⟨hrd.trans (congrArg _ (inboundReadEffect_notPlain (fun h => hh h.2))),
      hwr.trans (congrArg _ (inboundWriteEffect_notPlain (fun h => hh h.2)))⟩,
    fun hl ha => ⟨fun h => hmsi.trans (congrArg _ (msiEffect_none hl ha h)), fun e h =>
      ⟨fun hm hlen hi => hmsi.trans (congrArg _ (msiEffect_pends hl ha h hm hlen hi)),
        fun hm => hmsi.trans (congrArg _ (msiEffect_illegal hl ha h hm))⟩⟩,
    fun j hl hm hj => ⟨fun hp hu => hp2p.trans (congrArg _ (p2pEffect_forwards hl hm hj hp hu)),
      fun h => hp2p.trans (congrArg _ (p2pEffect_unsupported hl hm hj h))⟩,
    fun hl hh ha => ⟨hrd.trans (congrArg _ (inboundReadEffect_msi ⟨hl, hh⟩ ha)), hwr.trans (congrArg _ (inboundWriteEffect_msi ha))⟩,
    fun hl hh ha => ⟨fun h => hrd.trans (congrArg _ (inboundReadEffect_none ⟨hl, hh⟩ ha h)),
      fun e h => hrd.trans (congrArg _ (inboundReadEffect_some ⟨hl, hh⟩ ha h)),
      fun h => hwr.trans (congrArg _ (inboundWriteEffect_none ⟨hl, hh⟩ ha h)),
      fun e h => ⟨fun hw => hwr.trans (congrArg _ (inboundWriteEffect_protected ⟨hl, hh⟩ ha h hw)),
        fun hw => hwr.trans (congrArg _ (inboundWriteEffect_some ⟨hl, hh⟩ ha h hw))⟩⟩,
    hup.trans (congrArg _ linkUpEffect_eq), hdown, fun h ok v hh => ?_⟩
  have hpc : exec (.pcieCompletion h ok v) s = .next (pcieCompletionEffect h ok v s) := exec_pcieCompletion (decide_eq_true hh)
  exact ⟨fun hn => hpc.trans (congrArg _ (pcieCompletionEffect_none hn)),
    fun rd x k sg rest hn => hpc.trans (congrArg _ (pcieCompletionEffect_oldest hn))⟩

end Sys2Proof.Machine
end

section
/-! PROOF. Control intervals, thermal samples, points, clock stretch and guardbands (O57). -/

namespace Sys2Proof.Machine

variable {s : State} {m : PowerSample} {a b die mv p : Nat} {runs : Bool}

/-! ### The next boundary (R431) -/

theorem boundary_cases (s : State) : s.power.lastInterval < roundUp (now s) 250000 ∧ boundary s = roundUp (now s) 250000 ∨
    roundUp (now s) 250000 ≤ s.power.lastInterval ∧ boundary s = s.power.lastInterval + 250000 := by
  unfold boundary
  dsimp only
  split
  · rename_i h
    exact .inr ⟨h, rfl⟩
  · rename_i h
    exact .inl ⟨Nat.lt_of_not_le h, rfl⟩

theorem now_le_roundUp : now s ≤ roundUp (now s) 250000 := (roundUp_facts (now s) 250000 (by decide)).2.1

theorem now_le_boundary : now s ≤ boundary s := by
  have := now_le_roundUp (s := s)
  rcases boundary_cases s with ⟨_, hb⟩ | ⟨_, hb⟩ <;> omega

theorem lastInterval_lt_boundary : s.power.lastInterval < boundary s := by
  rcases boundary_cases s with ⟨_, hb⟩ | ⟨_, hb⟩ <;> omega

theorem dvd_boundary (h : 250000 ∣ s.power.lastInterval) : 250000 ∣ boundary s := by
  rcases boundary_cases s with ⟨_, hb⟩ | ⟨_, hb⟩ <;> rw [hb]
  · exact (roundUp_facts (now s) 250000 (by decide)).1
  · exact Nat.dvd_add h (Nat.dvd_refl _)

theorem boundary_le {c : Nat} (h : 250000 ∣ s.power.lastInterval) (hc : 250000 ∣ c) (hn : now s ≤ c) (hl : s.power.lastInterval < c) :
    boundary s ≤ c := by
  obtain ⟨hd, _, hlt⟩ := roundUp_facts (now s) 250000 (by decide)
  obtain ⟨i, hi⟩ := h
  obtain ⟨j, hj⟩ := hc
  obtain ⟨k, hk⟩ := hd
  rcases boundary_cases s with ⟨_, hb⟩ | ⟨_, hb⟩ <;> omega

/-! ### A domain at the boundary (R432 to R434, R436) -/

/-- The point that a domain has once the change that it was making is complete. -/
def pointNow (d : Dom) : Nat := d.target.getD d.point

section
variable (m : PowerSample) (runs cool : Bool) (share a : Nat) (d : Dom)

/-- The thermal limit of a domain at the boundary, after an interval that was cool as a whole or not. -/
def limitAt : Nat :=
  if cool then min 15 (d.limit + 1)
  else if d.throttled then (if (a < 4 ∧ runs = true) ∧ pointNow d ≤ 9 then 9 else pointNow d - 1)
  else d.limit

/-- The point that the mean of the interval asks for, against the domain's allowance. -/
def pointWanted : Nat :=
  if share < m.domains.getD a 0 * 1000 then pointNow d - 1
  else if m.domains.getD a 0 * 100000 < 95 * share then pointNow d + 1 else pointNow d

/-- The point that the domain moves towards: the floor of a compute die held, the clamps applied. -/
def pointGoal : Nat :=
  min 15 (if a < 4 ∧ runs = true then max (min (min (pointWanted m share a d) d.highest) (limitAt runs cool a d)) 9
    else min (min (pointWanted m share a d) d.highest) (limitAt runs cool a d))

/-- The domain after the boundary, with the step that is due. -/
def steppedDom : Dom :=
  let goal := pointGoal m runs cool share a d
  { d with
    point := pointNow d
    limit := limitAt runs cool a d
    throttled := d.throttled && !cool
    target := if goal < pointNow d then some (pointNow d - 1) else if pointNow d < goal then some (pointNow d + 1) else none }

end

theorem nextLimit_fst {d : Dom} : (nextLimit s a b runs (settlePoint d)).1 =
    { settlePoint d with
      limit := limitAt runs (coolWhole s (domDie a) b) a d
      throttled := d.throttled && !coolWhole s (domDie a) b } := by
  have hp : (settlePoint d).point = pointNow d := rfl
  have ht : (settlePoint d).throttled = d.throttled := rfl
  unfold nextLimit limitAt
  rw [hp, ht]
  by_cases hc : coolWhole s (domDie a) b = true
  · simp [hc, settlePoint]
    rfl
  · by_cases hq : d.throttled = true
    · by_cases hf : (a < 4 ∧ runs = true) ∧ pointNow d ≤ 9 <;> simp [hc, hq, hf, settlePoint] <;> rfl
    · simp [hc, hq, settlePoint]

theorem nextLimit_snd {d : Dom} : (nextLimit s a b runs (settlePoint d)).2 =
    (!coolWhole s (domDie a) b && d.throttled && decide ((a < 4 ∧ runs = true) ∧ pointNow d ≤ 9)) := by
  have hp : (settlePoint d).point = pointNow d := rfl
  have ht : (settlePoint d).throttled = d.throttled := rfl
  unfold nextLimit
  rw [hp, ht]
  by_cases hc : coolWhole s (domDie a) b = true
  · simp [hc]
  · by_cases hq : d.throttled = true
    · by_cases hf : (a < 4 ∧ runs = true) ∧ pointNow d ≤ 9 <;> simp [hc, hq, hf]
    · simp [hc, hq]

/-- One step towards a goal is due exactly where the point is not the goal. -/
theorem stepDue_eq (p t : Nat) : (if oneStep p t = p then none else some (oneStep p t)) =
    if t < p then some (p - 1) else if p < t then some (p + 1) else none := by
  unfold oneStep
  rcases Nat.lt_trichotomy t p with h | h | h
  · simp [h, show p - 1 ≠ p by omega]
  · simp [h]
  · simp [h, Nat.not_lt.mpr (Nat.le_of_lt h)]

theorem stepDom_fst : (stepDom s m b runs a).1 =
    steppedDom m runs (coolWhole s (domDie a) b) (domAllowance s.power.cap s.power.excess a) a (domOf s a) := by
  have h : (stepDom s m b runs a).1 =
      { (nextLimit s a b runs (settlePoint (domOf s a))).1 with
        target := if oneStep (nextLimit s a b runs (settlePoint (domOf s a))).1.point
            (targetPoint (decide (a < 4)) runs (nextLimit s a b runs (settlePoint (domOf s a))).1 (m.domains.getD a 0)
              (domAllowance s.power.cap s.power.excess a)) = (nextLimit s a b runs (settlePoint (domOf s a))).1.point then none
          else some (oneStep (nextLimit s a b runs (settlePoint (domOf s a))).1.point
            (targetPoint (decide (a < 4)) runs (nextLimit s a b runs (settlePoint (domOf s a))).1 (m.domains.getD a 0)
              (domAllowance s.power.cap s.power.excess a))) } := rfl
  rw [h, stepDue_eq, nextLimit_fst]
  simp [steppedDom, pointGoal, pointWanted, targetPoint, freeTarget, settlePoint, pointNow]

theorem stepDom_capFlag : (stepDom s m b runs a).2.1 =
    decide (((a < 4 ∧ runs = true) ∧ domAllowance s.power.cap s.power.excess a < m.domains.getD a 0 * 1000) ∧ pointNow (domOf s a) ≤ 9) := by
  have h : (stepDom s m b runs a).2.1 = (decide (a < 4) && runs && decide (domAllowance s.power.cap s.power.excess a < m.domains.getD a 0 * 1000) &&
      decide ((nextLimit s a b runs (settlePoint (domOf s a))).1.point ≤ 9)) := rfl
  have hp : (nextLimit s a b runs (settlePoint (domOf s a))).1.point = pointNow (domOf s a) := congrArg Dom.point nextLimit_fst
  rw [h, hp, Bool.eq_iff_iff]
  simp

/-- A floor that the cap or the thermal limit presses on is held. -/
theorem floor_held (ha : a < 4) (hr : runs = true) (hp : pointNow (domOf s a) ≤ 9)
    (h : domAllowance s.power.cap s.power.excess a < m.domains.getD a 0 * 1000 ∨ coolWhole s (domDie a) b = false ∧ (domOf s a).throttled = true) :
    (List.range 28).any (fun a => (stepDom s m b runs a).2.1 || (stepDom s m b runs a).2.2) = true := by
  refine List.any_eq_true.mpr ⟨a, List.mem_range.mpr (Nat.lt_of_lt_of_le ha (by decide)), ?_⟩
  rw [stepDom_capFlag, show (stepDom s m b runs a).2.2 = _ from nextLimit_snd]
  simpa [ha, hr, hp] using h

theorem no_floor : (List.range 28).any (fun a => (stepDom s m b false a).2.1 || (stepDom s m b false a).2.2) = false :=
  List.any_eq_false.mpr (fun _ _ => ne_true_of_eq_false flags_off)

/-! ### CONTROL_INTERVAL (R430 to R436) -/

/-- The state at the boundary, with a new cap in effect. -/
def capApplied (s : State) : State := applyCap (advance (boundary s) s)

/-- The state at the boundary once every domain has taken its step. -/
def domsStepped (m : PowerSample) (s : State) : State := stepDoms m (boundary s) (anyJob (capApplied s)) (capApplied s)

/-- The figures of the interval that has ended, taken over a state `u`. -/
def intervalClosed (m : PowerSample) (s u : State) : State :=
  let al := (List.range 10).map (shareAllowance (capApplied s).power.cap (capApplied s).power.excess)
  let v := coolDown (boundary s) u
  { v with
    power := { v.power with
      allow := al.map (· / 1000)
      mean := m.shares
      input := m.inputMean
      vin := m.millivolts
      excess := (m.shares.getD 6 0 + m.shares.getD 7 0 + m.shares.getD 8 0) * 1000 - (al.getD 6 0 + al.getD 7 0 + al.getD 8 0 + al.getD 9 0)
      lastInterval := boundary s } }

theorem intervalEffect_down (h : s.bu.state ≠ 1) : intervalEffect m s = s := if_pos h

theorem intervalEffect_up (h : s.bu.state = 1) : intervalEffect m s = intervalClosed m s (maxInputStop m (domsStepped m s)) :=
  if_neg (not_not.mpr h)

theorem capApplied_parts : (capApplied s).parts = s.parts := (applyCap_facts _).1
theorem capApplied_thermal : (capApplied s).thermal = s.thermal := (applyCap_facts _).2.1
theorem capApplied_power : (capApplied s).power = { s.power with cap := s.power.newCap.getD s.power.cap, newCap := none, capReply := none } :=
  (applyCap_facts _).2.2.2

theorem capApplied_now : now (capApplied s) = boundary s := by
  have h : (capApplied s).quartz = (advance (boundary s) s).quartz := (applyCap_facts _).2.2.1
  exact (congrArg Quartz.now h).trans (Nat.max_eq_right now_le_boundary)

theorem anyJob_capApplied : anyJob (capApplied s) = anyJob s := by
  unfold anyJob
  rw [capApplied_parts]

theorem domOf_capApplied : domOf (capApplied s) a = domOf s a := by
  unfold domOf
  rw [capApplied_power]

theorem coolWhole_capApplied : coolWhole (capApplied s) die b = coolWhole s die b := by
  unfold coolWhole
  rw [capApplied_thermal]

/-- The shares that have no actuator, and the reserve, have together 320 thousandths of the cap. -/
theorem room_eq (cap e : Nat) : ((List.range 10).map (shareAllowance cap e)).getD 6 0 + ((List.range 10).map (shareAllowance cap e)).getD 7 0 +
    ((List.range 10).map (shareAllowance cap e)).getD 8 0 + ((List.range 10).map (shareAllowance cap e)).getD 9 0 = cap * 320 := by
  show cap * 140 + cap * 80 + cap * 50 + cap * 50 = cap * 320
  omega

theorem intervalClosed_excess {u : State} : (intervalClosed m s u).power.excess =
    (m.shares.getD 6 0 + m.shares.getD 7 0 + m.shares.getD 8 0) * 1000 - s.power.newCap.getD s.power.cap * 320 := by
  show _ * 1000 - _ = _
  rw [room_eq, capApplied_power]

theorem intervalClosed_cap {u : State} : (intervalClosed m s u).power.cap = u.power.cap := rfl
theorem intervalClosed_newCap {u : State} : (intervalClosed m s u).power.newCap = u.power.newCap := rfl
theorem intervalClosed_now {u : State} : now (intervalClosed m s u) = now u := rfl
theorem domOf_intervalClosed {u : State} : domOf (intervalClosed m s u) a = domOf u a := rfl
theorem intervalClosed_flags {u : State} : (intervalClosed m s u).power.capFloor = u.power.capFloor ∧
    (intervalClosed m s u).power.floored = u.power.floored := ⟨rfl, rfl⟩

/-- At or below the maximum input, or with no job open, no job is ended. -/
theorem maxInputStop_none (h : m.inputMs ≤ 3600 ∨ anyJob s = false) : maxInputStop m (domsStepped m s) = domsStepped m s := by
  refine if_neg (fun hc => ?_)
  simp only [Bool.and_eq_true, decide_eq_true_eq] at hc
  obtain ⟨⟨hf, hm⟩, -⟩ := hc
  rcases h with h | h
  · omega
  · have hF : (domsStepped m s).power.floored = _ := (stepDoms_facts m (boundary s) (anyJob (capApplied s)) (capApplied s)).1
    rw [anyJob_capApplied, h, no_floor] at hF
    exact ne_true_of_eq_false hF hf

theorem maxInputStop_ends (hf : s.power.floored = true) (hm : 3600 < m.inputMs) (hj : anyJob s = true) : maxInputStop m s =
    capFloorEvent 0 1 { haltJobs stPower true s with power := { (haltJobs stPower true s).power with maxInput := true } } :=
  if_pos (by simp [hf, hm, hj])

theorem domsStepped_power : (domsStepped m s).power = { (capApplied s).power with
    doms := (domsStepped m s).power.doms
    capFloor := (domsStepped m s).power.capFloor
    floored := (domsStepped m s).power.floored } := by
  have h := stepDoms_facts m (boundary s) (anyJob (capApplied s)) (capApplied s)
  obtain ⟨hF, -, -, hp, -, -⟩ := h
  rw [← hF] at hp
  exact hp

theorem domsStepped_now : now (domsStepped m s) = boundary s := by
  have h : (domsStepped m s).quartz = (capApplied s).quartz := (stepDoms_facts m (boundary s) (anyJob (capApplied s)) (capApplied s)).2.1
  exact (congrArg Quartz.now h).trans capApplied_now

/-- A domain's allowance in mW (Table 16-3), less the part of the excess that it bears. -/
def domShare (cap e a : Nat) : Nat := if a < 4 then cap * 145 - e * 145 / 680 else (cap * 50 - e * 50 / 680) / 12

theorem domsStepped_dom (ha : a < 28) :
    domOf (domsStepped m s) a = steppedDom m (anyJob s) (coolWhole s (domDie a) (boundary s))
      (domShare (s.power.newCap.getD s.power.cap) s.power.excess a) a (domOf s a) := by
  have h := stepDoms_facts m (boundary s) (anyJob (capApplied s)) (capApplied s)
  obtain ⟨-, -, -, -, -, hd⟩ := h
  refine (hd a ha).trans (stepDom_fst.trans ?_)
  rw [coolWhole_capApplied, domOf_capApplied, anyJob_capApplied, allow_eq ha, capApplied_power]
  rfl

theorem domsStepped_held (ha : a < 4) (hr : anyJob s = true) (hp : pointNow (domOf s a) ≤ 9)
    (h : domShare (s.power.newCap.getD s.power.cap) s.power.excess a < m.domains.getD a 0 * 1000 ∨
      coolWhole s (domDie a) (boundary s) = false ∧ (domOf s a).throttled = true) :
    (domsStepped m s).power.capFloor = true ∧ (domsStepped m s).power.floored = true := by
  have hfacts := stepDoms_facts m (boundary s) (anyJob (capApplied s)) (capApplied s)
  obtain ⟨hF, -, hcap, -, -, -⟩ := hfacts
  have hany := floor_held (s := capApplied s) (m := m) (b := boundary s) ha (anyJob_capApplied.trans hr)
    (by rwa [domOf_capApplied]) (by
    rw [allow_eq (Nat.lt_of_lt_of_le ha (by decide)), coolWhole_capApplied, domOf_capApplied, capApplied_power]
    exact h)
  exact ⟨hcap hany, hF.trans hany⟩

/-! ### THERMAL_SAMPLE (R436) -/

/-- A die has newly reached 105 degrees, or drives a stack that has newly passed 95. -/
def newlyHot (s : State) (tj ts : List Int) (die : Nat) : Prop :=
  (1050 ≤ tj.getD die 0 ∧ setHas s.thermal.hot die = false) ∨
    (∃ i, i < 16 ∧ i / 4 = die ∧ 950 < ts.getD i 0 ∧ setHas s.thermal.over95 i = false)

/-- The dies on which a sample starts throttling. -/
def freshDies (s : State) (tj ts : List Int) : List Nat :=
  ((List.range 12).filter (fun d => decide (1050 ≤ tj.getD d 0))).filter (fun d => !setHas s.thermal.hot d) ++
    (((List.range 16).filter (fun m => decide (950 < ts.getD m 0))).filter (fun m => !setHas s.thermal.over95 m)).map (· / 4)

theorem mem_freshDies {tj ts : List Int} (h : die < 12) : die ∈ freshDies s tj ts ↔ newlyHot s tj ts die := by
  simp only [freshDies, newlyHot, List.mem_append, List.mem_map, List.mem_filter, List.mem_range, decide_eq_true_eq, Bool.not_eq_true']
  refine or_congr ⟨fun ⟨⟨_, h1⟩, h2⟩ => ⟨h1, h2⟩, fun ⟨h1, h2⟩ => ⟨⟨h, h1⟩, h2⟩⟩ (exists_congr fun i => ?_)
  constructor
  · rintro ⟨⟨⟨h1, h2⟩, h3⟩, h4⟩
    exact ⟨h1, h4, h2, h3⟩
  · rintro ⟨h1, h4, h2, h3⟩
    exact ⟨⟨⟨h1, h2⟩, h3⟩, h4⟩

/-- The readings of a sample, taken at its instant. -/
def sampleTaken (tj ts : List Int) (s : State) : State :=
  let s1 := advance (roundUp (now s + 1) 10000) s
  { s1 with
    thermal := { s1.thermal with
      tj := tj
      temps := ts
      peak := (List.range 12).map (fun d => max (tj.getD d 0) (s1.thermal.peak.getD d (tj.getD d 0)))
      hot := ((List.range 12).filter (fun d => decide (1050 ≤ tj.getD d 0))).foldl (fun l d => setIns d l) s1.thermal.hot
      over95 := (List.range 16).filter (fun m => decide (950 < ts.getD m 0))
      over85 := (List.range 16).filter (fun m => decide (850 < ts.getD m 0))
      coolSince := trackCool 1020 (now s1) tj s1.thermal.coolSince
      stackCool := trackCool 920 (now s1) ts s1.thermal.stackCool } }

theorem thermalEffect_down {tj ts : List Int} (h : s.bu.state ≠ 1) : thermalEffect tj ts s = s := if_pos h

theorem thermalEffect_up {tj ts : List Int} (h : s.bu.state = 1) :
    thermalEffect tj ts s = (freshDies s tj ts).dedup.foldl throttleDie (sampleTaken tj ts s) :=
  if_neg (not_not.mpr h)

theorem domDie_lt (h : a < 28) : domDie a < 12 := by
  unfold domDie
  split <;> omega

theorem thermalEffect_dom {tj ts : List Int} (h : s.bu.state = 1) (ha : a < 28) :
    (newlyHot s tj ts (domDie a) → domOf (thermalEffect tj ts s) a = { domOf s a with throttled := true }) ∧
    (¬ newlyHot s tj ts (domDie a) → domOf (thermalEffect tj ts s) a = domOf s a) := by
  have hd := (throttle_all (freshDies s tj ts).dedup (sampleTaken tj ts s)).1 a ha
  rw [← thermalEffect_up h] at hd
  have hmem : domDie a ∈ (freshDies s tj ts).dedup ↔ newlyHot s tj ts (domDie a) := List.mem_dedup.trans (mem_freshDies (domDie_lt ha))
  exact ⟨fun hn => hd.trans (if_pos (hmem.mpr hn)), fun hn => hd.trans (if_neg (mt hmem.mp hn))⟩

theorem thermalEffect_readings {tj ts : List Int} (h : s.bu.state = 1) :
    (thermalEffect tj ts s).thermal.tj = tj ∧ (thermalEffect tj ts s).thermal.temps = ts ∧
      now (thermalEffect tj ts s) = roundUp (now s + 1) 10000 := by
  have hfold := throttle_all (freshDies s tj ts).dedup (sampleTaken tj ts s)
  rw [← thermalEffect_up h] at hfold
  obtain ⟨-, ⟨f, ht⟩, hq⟩ := hfold
  have hle : now s ≤ roundUp (now s + 1) 10000 := Nat.le_of_succ_le (roundUp_facts (now s + 1) 10000 (by decide)).2.1
  exact ⟨congrArg Thermal.tj ht, congrArg Thermal.temps ht, (congrArg Quartz.now hq).trans (Nat.max_eq_right hle)⟩

/-! ### Points, clock stretch and guardbands (R424, R429, R438, R439) -/

theorem pointEffect_due (h : (domOf s a).target = some p) : pointEffect a s = setDom a { domOf s a with point := p, target := none } s := by
  simp [pointEffect, settlePoint, h]

theorem pointEffect_none (h : (domOf s a).target = none) : pointEffect a s = s := by
  simp [pointEffect, h]

theorem stretchEffect_eq {c pc : Nat} : stretchEffect c pc s = if s.bu.state ≠ 1 ∨ 8 < pc then s
    else { s with power := { s.power with stretch := if pc = 0 then tblDel c s.power.stretch else tblSet c pc s.power.stretch } } := by
  simp [stretchEffect]

theorem guardEffect_down {g : Margin} (h : s.bu.state ≠ 1) : guardEffect die g s = s := if_pos h

theorem guardEffect_raise (h : s.bu.state = 1) : guardEffect die (.raise mv) s = raiseGuard die mv s := if_neg (not_not.mpr h)

theorem guardEffect_lost (h : s.bu.state = 1) : guardEffect die (.lost a p) s = losePoint die a p s := if_neg (not_not.mpr h)

theorem raiseGuard_kept (h : min 45 (roundUp mv 5) ≤ guardOf s die) : raiseGuard die mv s = s := if_pos h

theorem raiseGuard_raised (h : guardOf s die < min 45 (roundUp mv 5)) : raiseGuard die mv s =
    recordEntry { kind := recGuardband, a := die, b := min 45 (roundUp mv 5) }
      { s with power := { s.power with guard := tblSet die (min 45 (roundUp mv 5)) s.power.guard } } :=
  if_neg (Nat.not_le.mpr h)

theorem losePoint_kept (h : guardOf s die < 45 ∨ domDie a ≠ die ∨ (domOf s a).highest < p) : losePoint die a p s = s :=
  if_pos (by simpa [or_assoc] using h)

/-- A point that is lost, and those above it. -/
def pointLost (a p : Nat) (s : State) : State :=
  recordEntry { kind := recPoint, a := a, b := p - 1 } (setDom a { domOf s a with highest := p - 1 } s)

theorem losePoint_lost (hg : 45 ≤ guardOf s die) (hd : domDie a = die) (hp : p ≤ (domOf s a).highest) : losePoint die a p s =
    if a < 4 ∧ p < 10 then recordEntry { kind := recDie, a := die } (pointLost a p s) else pointLost a p s := by
  have hc : (guardOf s die < 45 || domDie a ≠ die || (domOf s a).highest < p) = false := by
    simp [Nat.not_lt.mpr hg, hd, Nat.not_lt.mpr hp]
  refine (if_neg (ne_true_of_eq_false hc)).trans ?_
  by_cases h : a < 4 ∧ p < 10
  · rw [if_pos h]
    exact if_pos (by simp [h.1]; omega)
  · rw [if_neg h]
    exact if_neg (by simp; omega)

/-- Settles O57: the boundary's step is the steps of its domains, and each figure is that of the interval that has ended. -/
theorem pointsAllowancesAndThrottling : Obligations.PointsAllowancesAndThrottling := by
  unfold Obligations.PointsAllowancesAndThrottling
  intro m tj ts s hd hs htj hts
  have hint : exec (.controlInterval m) s = .next (intervalEffect m s) :=
    exec_controlInterval (Bool.and_eq_true_iff.mpr ⟨decide_eq_true hd, decide_eq_true hs⟩)
  have htherm : exec (.thermalSample tj ts) s = .next (thermalEffect tj ts s) :=
    exec_thermalSample (Bool.and_eq_true_iff.mpr ⟨decide_eq_true htj, decide_eq_true hts⟩)
  refine ⟨fun h => ⟨hint.trans (congrArg _ (intervalEffect_down h)), htherm.trans (congrArg _ (thermalEffect_down h))⟩,
    fun h hdvd hm => ?_, fun h => ?_, fun u hf hu hj => maxInputStop_ends hf hu hj, fun h => ?_, fun a ha => ?_, fun c pc hc hpc => ?_,
    fun die g hw h => (exec_guardbandRaise hw).trans (congrArg _ (guardEffect_down h)), fun die mv hdie h => ?_⟩
  · have ht : intervalEffect m s = intervalClosed m s (domsStepped m s) := by rw [intervalEffect_up h, maxInputStop_none hm]
    have hcap : (intervalClosed m s (domsStepped m s)).power.cap = s.power.newCap.getD s.power.cap :=
      intervalClosed_cap.trans <| (congrArg Power.cap domsStepped_power).trans (congrArg Power.cap capApplied_power)
    have hnew : (intervalClosed m s (domsStepped m s)).power.newCap = none :=
      intervalClosed_newCap.trans <| (congrArg Power.newCap domsStepped_power).trans (congrArg Power.newCap capApplied_power)
    refine ⟨_, boundary s, hint.trans (congrArg _ ht), dvd_boundary hdvd, now_le_boundary, lastInterval_lt_boundary,
      fun c => boundary_le hdvd, intervalClosed_now.trans domsStepped_now, rfl, hcap, hnew, ?_, fun a ha => ?_⟩
    · rw [hcap]
      exact intervalClosed_excess
    · rw [hcap]
      exact ⟨domOf_intervalClosed.trans (domsStepped_dom ha), fun ⟨h4, hj⟩ hp hx => by
        rw [intervalClosed_flags.1, intervalClosed_flags.2]
        exact domsStepped_held h4 hj hp hx⟩
  · exact ⟨_, hint.trans (congrArg _ (intervalEffect_up h)), lastInterval_lt_boundary, now_le_boundary, intervalClosed_excess, rfl, rfl, rfl⟩
  · obtain ⟨h1, h2, h3⟩ := thermalEffect_readings (tj := tj) (ts := ts) h
    exact ⟨_, htherm, h1, h2, (roundUp_facts (now s + 1) 10000 (by decide)).1, h3, fun a ha => thermalEffect_dom h ha⟩
  · have hpt : exec (.pointChangeComplete a) s = .next (pointEffect a s) := exec_pointChangeComplete (decide_eq_true ha)
    cases hq : (domOf s a).target with
    | some p => exact hpt.trans (congrArg _ (pointEffect_due hq))
    | none => exact hpt.trans (congrArg _ (pointEffect_none hq))
  · exact (exec_clockStretch (Bool.and_eq_true_iff.mpr ⟨decide_eq_true hc, decide_eq_true hpc⟩)).trans (congrArg _ stretchEffect_eq)
  · have hraise : exec (.guardbandRaise die (.raise mv)) s = .next (raiseGuard die mv s) :=
      (exec_guardbandRaise (by simp [Instr.wellFormed, hdie])).trans (congrArg _ (guardEffect_raise h))
    have hlost : ∀ a p, a < 28 → p < 16 → exec (.guardbandRaise die (.lost a p)) s = .next (losePoint die a p s) := fun a p ha hp =>
      (exec_guardbandRaise (by simp [Instr.wellFormed, hdie, ha, hp])).trans (congrArg _ (guardEffect_lost h))
    exact ⟨fun hg => hraise.trans (congrArg _ (raiseGuard_kept hg)), fun hg => hraise.trans (congrArg _ (raiseGuard_raised hg)),
      fun a p ha hp hg hdd hh => (hlost a p ha hp).trans (congrArg _ (losePoint_lost hg hdd hh)),
      fun a p ha hp hk => (hlost a p ha hp).trans (congrArg _ (losePoint_kept hk))⟩

end Sys2Proof.Machine
end

section
/-! PROOF. Supply warnings and faults, the loss of the islands' supply, the thermal trip, tampering and the wake (O58). -/

namespace Sys2Proof.Machine

variable {s t : State} {mv die hd src : Nat} {z : SelfTest}

/-! ### A package whose rails are off -/

/-- Every rail but the islands' is off, and the package is not up. -/
def PoweredDown (t : State) : Prop := t.power.rails = false ∧ t.parts = [] ∧ t.seqs = [] ∧ t.queues = [] ∧ t.tileMem = [] ∧ t.cubes = [] ∧
  t.harts = [] ∧ t.dir = [] ∧ t.ports = [] ∧ t.pins.safeOut = true ∧ t.pins.peRst = false ∧ t.bu.state ≠ 1

theorem RailsOff.down (h : RailsOff t) (hb : t.bu.state ≠ 1) : PoweredDown t := by
  obtain ⟨h1, h2, h3, h4, h5, h6, h7, h8, h9, h10, h11⟩ := h
  exact ⟨h1, h2, h3, h4, h5, h6, h7, h8, h9, h10, h11, hb⟩

/-! ### Warnings, faults and recovery (R425, R426) -/

section
variable (hi : s.power.islands = false)
include hi

theorem supplyWarnEffect_dark : supplyWarnEffect mv s = s := if_neg (by simp [hi])
theorem supplyRearmEffect_dark : supplyRearmEffect mv s = s := if_neg (by simp [hi])
theorem supplyFaultEffect_dark : supplyFaultEffect mv s = s := if_neg (by simp [hi])
theorem supplyRecoveryEffect_dark : supplyRecoveryEffect z s = s := if_neg (by simp [hi])
theorem islandLossEffect_dark : islandLossEffect mv s = s := if_neg (by simp [hi])
theorem tripEffect_dark : tripEffect die s = s := if_pos (by simp [hi])
theorem tamperEffect_dark : tamperEffect hd src s = s := if_neg (by simp [hi])

end

section
variable (hi : s.power.islands = true)

theorem supplyWarnEffect_high (h : 42000 ≤ mv) : supplyWarnEffect mv s = s := if_neg (by simp [Nat.not_lt.mpr h])

include hi in
theorem supplyWarnEffect_low (h : mv < 42000) : supplyWarnEffect mv s =
    if s.power.armed then raiseEvent evSupplyWarn 0 (causeOf evSupplyWarn 0)
      { s with power := { s.power with vin := mv, armed := false, supplyWarn := true } } else { s with power := { s.power with vin := mv } } :=
  if_pos (by simp [hi, h])

include hi in
theorem supplyRearmEffect_eq : supplyRearmEffect mv s =
    if 43000 < mv then { s with power := { s.power with armed := true, vin := mv } } else s := by
  simp [supplyRearmEffect, hi]

theorem supplyFaultEffect_within (hl : 38000 ≤ mv) (hh : mv ≤ 62000) : supplyFaultEffect mv s = s :=
  if_neg (by simp [Nat.not_lt.mpr hl, Nat.not_lt.mpr hh])

/-- The state that a supply fault leaves. -/
def supplyFaulted (mv : Nat) (s : State) : State := { supplyDown s with power := { (supplyDown s).power with fault := true, vin := mv } }

include hi in
theorem supplyFaultEffect_outside (h : mv < 38000 ∨ 62000 < mv) : supplyFaultEffect mv s = supplyFaulted mv s :=
  if_pos (by simpa [hi] using h)

theorem supplyFaulted_eq : (supplyFaulted mv s).power.fault = true ∧ (supplyFaulted mv s).power.vin = mv ∧ supplyFaulted mv s =
    { losePower s with
      bu := { (losePower s).bu with state := if s.bu.state = 1 then 0 else s.bu.state, todo := [], down := false }
      power := { (losePower s).power with fault := true, vin := mv } } := by
  unfold supplyFaulted supplyDown
  generalize losePower s = u
  exact ⟨rfl, rfl, rfl⟩

/-- A supply fault, or PWR_GOOD_IN falling, leaves the package off. -/
theorem supplyDown_off : RailsOff (supplyDown s) ∧ (supplyDown s).bu.state ≠ 1 := by
  have h := losePower_off s
  unfold supplyDown
  generalize losePower s = u at h
  refine ⟨h, ?_⟩
  show (if s.bu.state = 1 then 0 else s.bu.state) ≠ 1
  split
  · decide
  · assumption

theorem supplyFaulted_off : PoweredDown (supplyFaulted mv s) := by
  have h := supplyDown_off (s := s)
  unfold supplyFaulted
  generalize supplyDown s = u at h
  exact RailsOff.down (t := { u with power := { u.power with fault := true, vin := mv } }) h.1 h.2

/-- The input after a recovery, once the fault is over: above 44 V. -/
def inputRisen (s : State) : State :=
  { s with power := { s.power with fault := false, vin := 44001 + (Config.free64 s.freeCtr).toNat % 16000 }, freeCtr := s.freeCtr + 1 }

theorem latched_iff : latched s = true ↔ s.lc.tamper = true ∨ s.power.trip.isSome = true ∨ s.lc.state = 5 := by
  simp [latched, or_assoc]

include hi in
theorem supplyRecoveryEffect_eq : supplyRecoveryEffect z s =
    if s.power.fault = true then
      (if s.lc.tamper = true ∨ s.power.trip.isSome = true ∨ s.lc.state = 5 then inputRisen s else powerRestart z (inputRisen s))
    else s := by
  have h : supplyRecoveryEffect z s = if (s.power.fault && s.power.islands) = true then
      (if latched (inputRisen s) = true then inputRisen s else powerRestart z (inputRisen s)) else s := rfl
  rw [h, hi, Bool.and_true]
  refine if_congr Iff.rfl (if_congr latched_iff rfl rfl) rfl

/-! ### The islands lose their supply, and wake (R425) -/

theorem islandLossEffect_held (h : 34000 ≤ mv) : islandLossEffect mv s = s := if_neg (by simp [Nat.not_lt.mpr h])

/-- What the islands lose with their supply, beyond what the package has lost. -/
def islandsLost (mv : Nat) (u : State) : State :=
  let v := setVault 1 {} (setVault 0 {} u)
  { v with
    power := { v.power with islands := false, fault := false, vin := mv }
    active := none, chans := [], mgmt := [], events := [], ctr := [], rcpt := {}
    record := { v.record with buffered := [] }
    bu := { v.bu with state := 0, step := 0, todo := [], done := [], down := false }
    pins := { v.pins with safeOut := false, tamperOutN := true, thermTripN := true } }

include hi in
theorem islandLossEffect_lost (h : mv < 34000) : islandLossEffect mv s = islandsLost mv (losePower s) := if_pos (by simp [hi, h])

theorem vaultOf_islandsLost : vaultOf (islandsLost mv t) 0 = {} ∧ vaultOf (islandsLost mv t) 1 = {} := by
  have h0 : vaultOf (setVault 1 {} (setVault 0 {} t)) 0 = {} := (vaultOf_setVault_ne (by decide)).trans vaultOf_setVault
  exact ⟨h0, vaultOf_setVault (s := setVault 0 {} t)⟩

theorem islandsLost_facts (hr : t.power.rails = false) (hp : t.parts = []) (hh : t.harts = []) (hm : t.tileMem = []) :
    let u := islandsLost mv t
    u.power.rails = false ∧ u.power.islands = false ∧ u.parts = [] ∧ u.harts = [] ∧ u.tileMem = [] ∧ u.events = [] ∧ u.ctr = [] ∧ u.chans = [] ∧
      u.active = none ∧ u.record.buffered = [] ∧ u.pins.safeOut = false ∧ vaultOf u 0 = {} ∧ vaultOf u 1 = {} :=
  ⟨hr, rfl, hp, hh, hm, rfl, rfl, rfl, rfl, rfl, rfl, vaultOf_islandsLost⟩

theorem wakeEffect_lit (h : s.power.islands = true) : wakeEffect z s = s := if_pos h

theorem wakeEffect_dark (h : s.power.islands = false) : wakeEffect z s =
    powerOn z 1 true (wakeIslands { s with
      freeCtr := s.freeCtr + 1
      power := { s.power with vin := 44001 + (Config.free64 s.freeCtr).toNat % 16000 } }) :=
  if_neg (ne_true_of_eq_false h)

/-! ### The thermal trip (R437) -/

/-- A trip: the safe state with cause 2, the trip latched and its pin low. -/
def tripped (die : Nat) (s : State) : State :=
  let u := bump 0x030D 0 1 (enterSafe 2 die s)
  { u with
    power := { u.power with trip := some (die, now s) }
    pins := { u.pins with thermTripN := false } }

include hi in
theorem tripEffect_eq : tripEffect die s = if s.power.trip.isSome then s else tripped die s := by
  have h : tripEffect die s = if (!s.power.islands || s.power.trip.isSome) = true then s else tripped die s := rfl
  rw [h, hi, Bool.not_true, Bool.false_or]

theorem tripped_off : PoweredDown (tripped die s) ∧ (tripped die s).bu.state = 2 ∧ (tripped die s).bu.cause = 2 ∧ (tripped die s).bu.unit = die := by
  have h := enterSafe_facts 2 die s
  unfold tripped
  generalize enterSafe 2 die s = u at h
  obtain ⟨hoff, hst, hc, hu⟩ := h
  have hst2 : u.bu.state = 2 := hst
  refine ⟨?_, hst2, hc, hu⟩
  exact RailsOff.down (t := { bump 0x030D 0 1 u with
    power := { (bump 0x030D 0 1 u).power with trip := some (die, now s) }
    pins := { (bump 0x030D 0 1 u).pins with thermTripN := false } }) hoff (by show u.bu.state ≠ 1; rw [hst2]; decide)

/-! ### Tampering (R407, R408) -/

theorem armed_iff {k : Nat} (h1 : 1 ≤ src) (h5 : src ≤ 5) : armed k src = true ↔ k ≠ 5 ∧ (2 ≤ src ∧ src ≤ 4 ∨ k = 2 ∨ k = 3) := by
  unfold armed
  by_cases hk : k = 5
  · simp [hk]
  · by_cases h23 : k = 2 ∨ k = 3
    · rcases h23 with rfl | rfl <;> simp [h1, h5]
    · obtain ⟨h2, h3⟩ := not_or.mp h23
      simp [hk, h2, h3]
      omega

theorem tamperEffect_unarmed (h : armed s.lc.state src = false) : tamperEffect hd src s = s := if_neg (by simp [h])

/-- The lid detector opens the lid pin. -/
def lidTouched (src : Nat) (s : State) : State := if src = 5 then { s with pins := { s.pins with lidB := false } } else s

theorem lidTouched_facts : (lidTouched src s).lc = s.lc ∧ now (lidTouched src s) = now s := by
  unfold lidTouched
  split <;> exact ⟨rfl, rfl⟩

/-- The life-cycle registers latch the first source. -/
def tamperLatched (s : State) (src : Nat) (y : State) : State :=
  { y with lc := if s.lc.tamper then y.lc else { y.lc with tamper := true, tamperCause := src } }

/-- The safe state that an armed event of a source leads to, from the state in which the vaults are being wiped. -/
def tamperSafe (hd src : Nat) (s x : State) : State :=
  enterSafe 1 (if s.lc.tamper then s.lc.tamperCause else src) (tamperLatched s src (raiseEvent evTamper hd src x))

/-- TAMPER_OUT_N falls. -/
def tamperOutLow (u : State) : State := { u with pins := { u.pins with tamperOutN := false } }

theorem tamper_eq : tamper hd src s = tamperOutLow (tamperSafe hd src s (wipeVaults s)) := by
  have h : tamper hd src s = tamperOutLow (enterSafe 1 (tamperLatched s src (raiseEvent evTamper hd src (wipeVaults s))).lc.tamperCause
    (tamperLatched s src (raiseEvent evTamper hd src (wipeVaults s)))) := by
    unfold tamper tamperOutLow tamperLatched
    rfl
  have hcause : (tamperLatched s src (raiseEvent evTamper hd src (wipeVaults s))).lc.tamperCause = if s.lc.tamper then s.lc.tamperCause else src := by
    by_cases ht : s.lc.tamper = true
    · have hlc : (raiseEvent evTamper hd src (wipeVaults s)).lc = s.lc := raise_lc.trans wipe_lc
      simp [tamperLatched, ht, hlc]
    · simp [tamperLatched, ht]
  rw [h, hcause]
  rfl

include hi in
theorem tamperEffect_armed (h : armed s.lc.state src = true) : tamperEffect hd src s =
    tamperOutLow (tamperSafe hd src s (wipeVaults (lidTouched src s))) := by
  have he : tamperEffect hd src s = tamper hd src (lidTouched src s) := if_pos (by simp [hi, h])
  have hs : ∀ x, tamperSafe hd src (lidTouched src s) x = tamperSafe hd src s x := fun x => by
    unfold tamperSafe tamperLatched
    rw [lidTouched_facts.1]
  rw [he, tamper_eq, hs]

theorem tamperSafe_off : PoweredDown (tamperSafe hd src s t) ∧ (tamperSafe hd src s t).bu.state = 2 ∧ (tamperSafe hd src s t).bu.cause = 1 := by
  obtain ⟨hoff, hst, hc, -⟩ := enterSafe_facts 1 (if s.lc.tamper then s.lc.tamperCause else src) (tamperLatched s src (raiseEvent evTamper hd src t))
  have hst2 : (tamperSafe hd src s t).bu.state = 2 := hst
  exact ⟨RailsOff.down hoff (by rw [hst2]; decide), hst2, hc⟩

/-- Both vaults are being wiped, and hold nothing. -/
theorem wipeVaults_vault {d : Nat} (h : d < 2) : (vaultOf (wipeVaults s) d).data = [] ∧ (vaultOf (wipeVaults s) d).keys = false ∧
    (vaultOf (wipeVaults s) d).wiping = some (now s + 2000) := by
  have h1 : d = 0 ∨ d = 1 := by omega
  unfold wipeVaults
  rcases h1 with rfl | rfl
  · rw [show vaultOf (wipeVault 1 (wipeVault 0 s)) 0 = vaultOf (wipeVault 0 s) 0 from vaultOf_setVault_ne (by decide)]
    unfold wipeVault
    rw [vaultOf_setVault]
    exact ⟨rfl, rfl, rfl⟩
  · rw [show vaultOf (wipeVault 1 (wipeVault 0 s)) 1 = { vaultOf (wipeVault 0 s) 1 with
      wiping := some (now s + 2000), keys := false, data := [], bad := false, save := [] } from vaultOf_setVault]
    exact ⟨rfl, rfl, rfl⟩

end

/-- Settles O58: each loss of power leaves the package off, whatever else it leaves, and each threshold has its own case. -/
theorem supplyTripAndTamperCutThePower : Obligations.SupplyTripAndTamperCutThePower := by
  unfold Obligations.SupplyTripAndTamperCutThePower
  intro mv die hd src z s hz hdie hhd hsrc hsrc5
  have hwarn : exec (.supplyWarn mv) s = .next (supplyWarnEffect mv s) := exec_supplyWarn rfl
  have hrearm : exec (.supplyWarnRearm mv) s = .next (supplyRearmEffect mv s) := exec_supplyWarnRearm rfl
  have hfault : exec (.supplyFault mv) s = .next (supplyFaultEffect mv s) := exec_supplyFault rfl
  have hrec : exec (.supplyRecovery z) s = .next (supplyRecoveryEffect z s) := exec_supplyRecovery hz
  have hloss : exec (.islandSupplyLoss mv) s = .next (islandLossEffect mv s) := exec_islandSupplyLoss rfl
  have htrip : exec (.thermalTrip die) s = .next (tripEffect die s) := exec_thermalTrip (decide_eq_true hdie)
  have htam : exec (.tamperEvent hd src) s = .next (tamperEffect hd src s) :=
    exec_tamperEvent (by simp [Instr.wellFormed, okHub, hhd, hsrc, hsrc5])
  have hwake : exec (.wakeFromOff z) s = .next (wakeEffect z s) := exec_wakeFromOff hz
  refine ⟨fun hi => ⟨hwarn.trans (congrArg _ (supplyWarnEffect_dark hi)), hrearm.trans (congrArg _ (supplyRearmEffect_dark hi)),
      hfault.trans (congrArg _ (supplyFaultEffect_dark hi)), hrec.trans (congrArg _ (supplyRecoveryEffect_dark hi)),
      hloss.trans (congrArg _ (islandLossEffect_dark hi)), htrip.trans (congrArg _ (tripEffect_dark hi)),
      htam.trans (congrArg _ (tamperEffect_dark hi))⟩,
    fun hi => ⟨fun h => hwarn.trans (congrArg _ (supplyWarnEffect_high h)), fun h => hwarn.trans (congrArg _ (supplyWarnEffect_low hi h)),
      hrearm.trans (congrArg _ (supplyRearmEffect_eq hi)), fun hl hh => hfault.trans (congrArg _ (supplyFaultEffect_within hl hh)),
      fun h => ⟨_, hfault.trans (congrArg _ (supplyFaultEffect_outside hi h)), supplyFaulted_off, supplyFaulted_eq⟩,
      hrec.trans (congrArg _ (supplyRecoveryEffect_eq hi)), fun h => hloss.trans (congrArg _ (islandLossEffect_held h)),
      fun h => ⟨_, hloss.trans (congrArg _ (islandLossEffect_lost hi h)), ?_⟩,
      htrip.trans (congrArg _ (tripEffect_eq hi)),
      fun h => ⟨_, htrip.trans (congrArg _ ((tripEffect_eq hi).trans (if_neg (by simp [h])))), tripped_off⟩,
      fun h => htam.trans (congrArg _ (tamperEffect_unarmed (eq_false_of_ne_true (mt (armed_iff hsrc hsrc5).mp h)))),
      fun h => ?_⟩,
    fun hi => hwake.trans (congrArg _ (wakeEffect_lit hi)), fun hi => hwake.trans (congrArg _ (wakeEffect_dark hi))⟩
  · obtain ⟨hrails, hparts, -, -, htile, -, hharts, -, -, -, -⟩ := losePower_off s
    generalize losePower s = u at hrails hparts htile hharts
    exact islandsLost_facts hrails hparts hharts htile
  · intro x y w
    have hx : x = wipeVaults (lidTouched src s) := rfl
    have hw : w = tamperSafe hd src s x := rfl
    clear_value w
    clear y
    clear_value x
    subst hw hx
    obtain ⟨hoff, hst, hc⟩ := tamperSafe_off (hd := hd) (src := src) (s := s) (t := wipeVaults (lidTouched src s))
    refine ⟨fun d hd => ?_, hoff, hst, hc, htam.trans (congrArg _ (tamperEffect_armed hi ((armed_iff hsrc hsrc5).mpr h)))⟩
    rw [← lidTouched_facts (src := src).2]
    exact wipeVaults_vault hd

end Sys2Proof.Machine
end

section
/-! PROOF. The steps of bring-up, the pins that start and hold them, the persistent record and the receipt batches (O59). -/

namespace Sys2Proof.Machine

variable {s u : State} {z : SelfTest} {k : Nat}

/-! ### The steps (R443 to R445) -/

section
variable {full wake : Bool} {l : List Nat}

theorem stepWaits_false (h3 : k = 3 → s.pins.pwrGood = true) (h4 : k = 4 → s.pins.resetN = true) : stepWaits k s = false := by
  refine eq_false_of_ne_true (fun h => ?_)
  rcases waits_iff.mp h with ⟨hk, hp⟩ | ⟨hk, hp⟩
  · exact ne_true_of_eq_false hp (h3 hk)
  · exact ne_true_of_eq_false hp (h4 hk)

theorem runSteps_waits (h : stepWaits k u = true) : runSteps z full wake (k :: l) u = { u with bu := { u.bu with todo := k :: l } } := by
  simp [runSteps, h]

/-- The safe state that a critical failure ends the steps in. -/
def stepsFailed (c n : Nat) (u : State) : State := { enterSafe c n u with bu := { (enterSafe c n u).bu with todo := [] } }

theorem enterSafe_state {c n : Nat} : (enterSafe c n u).bu.state ≠ 0 ∧ (enterSafe c n u).bu.state ≠ 1 := by
  rw [(enterSafe_facts c n u).2.1]
  split <;> decide

theorem runSteps_critical {c n : Nat} (hw : stepWaits k u = false) (hz : z.critical = some (k, c, n)) (hc : c ≠ 1) :
    runSteps z full wake (k :: l) u = stepsFailed c n u := by
  have h0 : (enterSafe c n u).bu.state ≠ 0 := enterSafe_state.1
  simp [runSteps, hw, hz, failStep, hc, h0, stepsFailed]

theorem stepsFailed_facts {c n : Nat} : (stepsFailed c n u).bu.state ≠ 0 ∧ (stepsFailed c n u).bu.state ≠ 1 ∧ (stepsFailed c n u).bu.cause = c ∧
    (stepsFailed c n u).bu.unit = n ∧ (stepsFailed c n u).bu.todo = [] ∧ (stepsFailed c n u).power.rails = false := by
  obtain ⟨hoff, -, hcause, hunit⟩ := enterSafe_facts c n u
  obtain ⟨h0, h1⟩ := enterSafe_state (u := u) (c := c) (n := n)
  unfold stepsFailed
  generalize enterSafe c n u = v at hoff hcause hunit h0 h1
  exact ⟨h0, h1, hcause, hunit, rfl, hoff.1⟩

theorem runSteps_runs (hw : stepWaits k u = false) (hz : z.critical.map (·.1) ≠ some k) (hu : u.bu.state = 0) :
    runSteps z full wake (k :: l) u = if (stepAction k z full u).bu.state = 0 then runSteps z full wake l (markStep k wake (stepAction k z full u))
      else { stepAction k z full u with bu := { (stepAction k z full u).bu with todo := [] } } := by
  cases hc : z.critical with
  | none => simp [runSteps, hw, hc, hu]
  | some x =>
    obtain ⟨n, c, i⟩ := x
    have hn : n ≠ k := fun e => hz (by simp [hc, e])
    simp [runSteps, hw, hc, hu, hn]

end

/-! ### PWR_GOOD_IN (R451, R468) -/

/-- PWR_GOOD_IN is high. -/
def pwrGoodHigh (s : State) : State := { s with pins := { s.pins with pwrGood := true } }

/-- No latch is held, the state is not SCRAP, and the supply is good. -/
def supplyAlive (s : State) : Prop := s.power.islands = true ∧ s.power.fault = false ∧
  ¬ (s.lc.tamper = true ∨ s.power.trip.isSome = true ∨ s.lc.state = 5)

theorem pwrFallEffect_low (h : s.pins.pwrGood = false) : pwrFallEffect s = s := if_neg (ne_true_of_eq_false h)

theorem pwrFallEffect_high (h : s.pins.pwrGood = true) : pwrFallEffect s =
    if s.power.islands then { supplyDown s with pins := { (supplyDown s).pins with pwrGood := false } }
    else { s with pins := { s.pins with pwrGood := false } } := by
  by_cases hi : s.power.islands = true <;> simp [pwrFallEffect, h, hi]

theorem pwrRiseEffect_high (h : s.pins.pwrGood = true) : pwrRiseEffect z s = s := if_pos h

theorem supplyDead_iff : (!s.power.islands || s.power.fault || latched s) = true ↔ ¬ supplyAlive s := by
  rw [supplyAlive, ← latched_iff]
  cases s.power.islands <;> cases s.power.fault <;> simp

section
variable (h : s.pins.pwrGood = false)
include h

theorem pwrRiseEffect_dead (ha : ¬ supplyAlive s) : pwrRiseEffect z s = pwrGoodHigh s := by
  simp only [pwrRiseEffect, h, supplyDead_iff.mpr ha]
  simp [pwrGoodHigh]

theorem pwrRiseEffect_waiting (ha : supplyAlive s) {j : Nat} {l : List Nat} (ht : s.bu.todo = j :: l) :
    pwrRiseEffect z s = passBringUp 45000000 (runSteps z true false (j :: l) (pwrGoodHigh s)) := by
  have hd : (!s.power.islands || s.power.fault || latched s) = false := eq_false_of_ne_true (fun hx => supplyDead_iff.mp hx ha)
  simp only [pwrRiseEffect, h, hd, ht]
  simp [pwrGoodHigh]

theorem pwrRiseEffect_idle (ha : supplyAlive s) (ht : s.bu.todo = []) :
    pwrRiseEffect z s = if s.bu.state = 1 then pwrGoodHigh s else powerRestart z (pwrGoodHigh s) := by
  have hd : (!s.power.islands || s.power.fault || latched s) = false := eq_false_of_ne_true (fun hx => supplyDead_iff.mp hx ha)
  simp only [pwrRiseEffect, h, hd, ht]
  simp [pwrGoodHigh]

end

/-! ### RESET_IN_N (R447, R451, R468) -/

/-- RESET_IN_N is low, or high. -/
def resetAt (b : Bool) (s : State) : State := { s with pins := { s.pins with resetN := b } }

theorem resetAssertEffect_low (h : s.pins.resetN = false) : resetAssertEffect s = s := if_pos (by simp [h])

section
variable (h : s.pins.resetN = true)
include h

theorem resetAssertEffect_ignored (hx : (s.lc.tamper = true ∨ s.power.trip.isSome = true ∨ s.lc.state = 5) ∨ s.power.islands = false ∨ s.bu.state ≠ 1) :
    resetAssertEffect s = resetAt false s := by
  rw [← latched_iff] at hx
  by_cases hd : (latched s || !s.power.islands) = true
  · simp only [resetAssertEffect, h, hd]
    simp [resetAt]
  · have hs : s.bu.state ≠ 1 := by
      rcases hx with hx | hx | hx
      · exact absurd (by simp [hx]) hd
      · exact absurd (by simp [hx]) hd
      · exact hx
    simp only [resetAssertEffect, h, hd, hs]
    simp [resetAt]

variable (hn : ¬ (s.lc.tamper = true ∨ s.power.trip.isSome = true ∨ s.lc.state = 5)) (hi : s.power.islands = true) (hs : s.bu.state = 1)
include hn hi hs

theorem resetAssertEffect_dead {e : Nat × Tender} (he : s.tenders.find? (fun e => e.2.dead) = some e) :
    resetAssertEffect s = enterSafe 0x0E (dieHD e.1) (packageDown (resetAt false s)) := by
  have hd : (latched s || !s.power.islands) = false := by
    rw [eq_false_of_ne_true (mt latched_iff.mp hn), hi]
    rfl
  simp only [resetAssertEffect, h, hd, hs, he]
  simp [resetAt]

theorem resetAssertEffect_resets (he : s.tenders.find? (fun e => e.2.dead) = none) : resetAssertEffect s =
    { packageDown (resetAt false s) with bu := { (packageDown (resetAt false s)).bu with todo := [4, 5, 6, 7, 8, 13, 14] } } := by
  have hd : (latched s || !s.power.islands) = false := by
    rw [eq_false_of_ne_true (mt latched_iff.mp hn), hi]
    rfl
  simp only [resetAssertEffect, h, hd, hs, he]
  simp [resetAt, packageSteps]

end

theorem resetReleaseEffect_high (h : s.pins.resetN = true) : resetReleaseEffect z s = s := if_pos h

theorem resetReleaseEffect_waiting (h : s.pins.resetN = false) {j : Nat} {l : List Nat} (ht : s.bu.todo = j :: l) :
    resetReleaseEffect z s = passBringUp 15000000 (runSteps z ((j :: l).elem 9) false (j :: l) (resetAt true s)) := by
  simp only [resetReleaseEffect, h, ht]
  simp [resetAt]

theorem resetReleaseEffect_idle (h : s.pins.resetN = false) (ht : s.bu.todo = []) : resetReleaseEffect z s =
    if s.bu.state = 2 ∨ s.bu.state = 3 then (resetPackage z (resetAt true s)).getD (resetAt true s) else resetAt true s := by
  simp only [resetReleaseEffect, h, ht]
  simp [resetAt]

/-! ### Overruns (R445, R451) and the record (R449) -/

theorem overrunEffect_none (h : s.bu.state ≠ 0 ∨ s.bu.todo.head? ≠ some k ∨ k = 3 ∨ k = 12) : overrunEffect k s = s :=
  if_pos (by simpa [or_assoc] using h)

section
variable (h0 : s.bu.state = 0) (ht : s.bu.todo.head? = some k) (h3 : k ≠ 3) (h12 : k ≠ 12)
include h0 ht h3 h12

omit h3 h12 in
theorem overrunEffect_standby (h6 : k = 6) : overrunEffect k s = { s with active := some 1, standby := true } := by
  simp [overrunEffect, h0, ht, h6]

theorem overrunEffect_fails (h6 : k ≠ 6) : overrunEffect k s = enterSafe (overrunCause k) 0 { s with bu := { s.bu with todo := [] } } := by
  simp [overrunEffect, h0, ht, h3, h12, h6]

end

/-- No overrun stands for a missing Caboose image, the failure after which the ROM alone serves. -/
theorem overrunCause_ne (h : k ≤ 14) : overrunCause k ≠ 3 :=
  (by decide : ∀ i ≤ 14, overrunCause i ≠ 3) k h

theorem recordCommitEffect_eq : recordCommitEffect s =
    if s.power.islands then { s with record := ⟨s.record.committed ++ s.record.buffered, []⟩ } else s := rfl

/-! ### The vault and the batches (R145, R146, R419) -/

section
variable {hd : Nat}

theorem readVault_clean (hw : (vaultOf s hd).wiping = none) (hb : (vaultOf s hd).bad = false) : readVault hd s = s := by
  simp [readVault, vaultWipeEffect_none hw, hb]

theorem readVault_bad (hw : (vaultOf s hd).wiping = none) (hb : (vaultOf s hd).bad = true) :
    readVault hd s = enterSafe 0x06 (6 + hd) (wipeVault hd s) := by
  simp [readVault, vaultWipeEffect_none hw, hb, dieHD]

theorem readVault_wiping {t : Nat} (hw : (vaultOf s hd).wiping = some t) (hb : (vaultOf s hd).bad = false) :
    readVault hd s = setVault hd { vaultOf s hd with wiping := none } (advance t s) := by
  simp [readVault, vaultWipeEffect_ends hw, hb]

end

/-- The state in which the record of a batch is written: outside BLANK the Caboose has read its vault. -/
def batchKeysRead (s : State) : State :=
  match s.active with
  | some hd => if s.lc.state = 1 then s else readVault hd s
  | none => s

variable {b : Batch}

theorem batchTimeoutEffect_none (h : s.rcpt.batches.find? (fun b => b.closedAt.isNone) = none) : batchTimeoutEffect s = s := by
  simp [batchTimeoutEffect, h]

theorem batchTimeoutEffect_open (h : s.rcpt.batches.find? (fun b => b.closedAt.isNone) = some b) :
    batchTimeoutEffect s = closeBatch (advance (b.openedAt + 1000000000) s) := by
  simp [batchTimeoutEffect, h]

theorem batchRecordEffect_none (h : s.rcpt.batches.find? unsigned = none) : batchRecordEffect s = s := by
  simp [batchRecordEffect, h]

/-- The record of a batch, written over a state. -/
def recordWritten (b : Batch) (u : State) : State := modBatches (fun x => if x.num = b.num then { x with record := batchRecordBytes u x } else x) u

theorem batchRecordEffect_some (h : s.rcpt.batches.find? unsigned = some b) :
    batchRecordEffect s = if canSign (batchKeysRead s) then recordWritten b (batchKeysRead s) else batchKeysRead s := by
  simp only [batchRecordEffect, h]
  rfl

theorem batchHeader_length : (batchHeader s b).length = 128 := by
  simp [batchHeader, padTo_length]

/-- Both signatures of a batch record, zero in BLANK. -/
def batchSignatures (s : State) (b : Batch) : List Byte :=
  if s.lc.state = 1 then List.replicate 3405 0#8
  else padTo 96 0 (Config.ecdsaSign (keyCode s.lc.state) s.lc.deviceId (batchHeader s b)) ++
    padTo 3309 0 (Config.mldsaSign (keyCode s.lc.state) s.lc.deviceId (batchHeader s b))

theorem batchRecordBytes_eq : batchRecordBytes s b = batchHeader s b ++ batchSignatures s b := by
  unfold batchRecordBytes batchSignatures
  by_cases h : s.lc.state = 1
  · rw [if_pos h, if_pos h]
    rfl
  · rw [if_neg h, if_neg h]
    exact List.append_assoc _ _ _

theorem batchSignatures_length : (batchSignatures s b).length = 3405 := by
  unfold batchSignatures
  split
  · exact List.length_replicate
  · rw [List.length_append, padTo_length, padTo_length]

theorem batchRecordBytes_length : (batchRecordBytes s b).length = 3533 := by
  rw [batchRecordBytes_eq, List.length_append, batchHeader_length, batchSignatures_length]

theorem batchRecordBytes_header : (batchRecordBytes s b).take 128 = batchHeader s b := by
  rw [batchRecordBytes_eq]
  exact List.take_left' batchHeader_length

theorem batchRecordBytes_blank (h : s.lc.state = 1) : (batchRecordBytes s b).drop 128 = List.replicate 3405 0#8 := by
  rw [batchRecordBytes_eq, List.drop_left' batchHeader_length]
  exact if_pos h

/-- Settles O59: the steps by induction's one step each, and each pin, overrun and batch by its own cases. -/
theorem bringUpPinsRecordAndBatches : Obligations.BringUpPinsRecordAndBatches := by
  unfold Obligations.BringUpPinsRecordAndBatches
  intro z k s hz hk1 hk14 held alive good low high
  have hlow : low = resetAt false s := rfl
  clear_value low
  subst hlow
  have hfall : exec .pwrGoodInFall s = .next (pwrFallEffect s) := exec_pwrGoodInFall rfl
  have hrise : exec (.pwrGoodInRise z) s = .next (pwrRiseEffect z s) := exec_pwrGoodInRise hz
  have hassert : exec .resetInNAssert s = .next (resetAssertEffect s) := exec_resetInNAssert rfl
  have hrelease : exec (.resetInNRelease z) s = .next (resetReleaseEffect z s) := exec_resetInNRelease hz
  have hover : exec (.bringupStepTimeout k) s = .next (overrunEffect k s) :=
    exec_bringupStepTimeout (Bool.and_eq_true_iff.mpr ⟨decide_eq_true hk1, decide_eq_true hk14⟩)
  have hcommit : exec .recordCommit s = .next (recordCommitEffect s) := exec_recordCommit rfl
  have htime : exec .batchTimeout s = .next (batchTimeoutEffect s) := exec_batchTimeout rfl
  have hrecord : exec .batchRecord s = .next (batchRecordEffect s) := exec_batchRecord rfl
  refine ⟨fun full wake u => rfl, fun full wake l u h => runSteps_waits (waits_iff.mpr h),
    fun full wake l u c n h3 h4 hc h1 => ⟨_, runSteps_critical (stepWaits_false h3 h4) hc h1, stepsFailed_facts⟩,
    fun full wake l u h3 h4 hc hu => runSteps_runs (stepWaits_false h3 h4) hc hu,
    fun h => hfall.trans (congrArg _ (pwrFallEffect_low h)), fun h => hfall.trans (congrArg _ (pwrFallEffect_high h)),
    fun h => hrise.trans (congrArg _ (pwrRiseEffect_high h)),
    fun h => ⟨fun ha => hrise.trans (congrArg _ (pwrRiseEffect_dead h ha)),
      fun ha j l ht => hrise.trans (congrArg _ (pwrRiseEffect_waiting h ha ht)),
      fun ha ht => hrise.trans (congrArg _ (pwrRiseEffect_idle h ha ht))⟩,
    fun h => hassert.trans (congrArg _ (resetAssertEffect_low h)),
    fun h => ⟨fun hx => hassert.trans (congrArg _ (resetAssertEffect_ignored h hx)), fun hn hi hs he => ?_,
      fun hn hi hs e he => hassert.trans (congrArg _ (resetAssertEffect_dead h hn hi hs he))⟩,
    fun h => hrelease.trans (congrArg _ (resetReleaseEffect_high h)),
    fun h => ⟨fun j l ht => hrelease.trans (congrArg _ (resetReleaseEffect_waiting h ht)),
      fun ht => hrelease.trans (congrArg _ (resetReleaseEffect_idle h ht))⟩,
    fun h => hover.trans (congrArg _ (overrunEffect_none h)), fun h0 ht h3 h12 => ⟨_, hover, ?_, ?_⟩,
    hcommit.trans (congrArg _ recordCommitEffect_eq), fun h => htime.trans (congrArg _ (batchTimeoutEffect_none h)),
    fun h => hrecord.trans (congrArg _ (batchRecordEffect_none h)),
    fun hd => ⟨readVault_clean, readVault_bad, fun t => readVault_wiping⟩, fun b hb => ?_,
    fun b hb => ⟨_, htime.trans (congrArg _ (batchTimeoutEffect_open hb)), rfl, rfl⟩⟩
  · have hnone : s.tenders.find? (fun e => e.2.dead) = none := List.find?_eq_none.mpr (fun e hm => by
      simpa using List.all_eq_true.mp he e hm)
    refine ⟨_, hassert.trans (congrArg _ (resetAssertEffect_resets h hn hi hs hnone)), rfl, ?_⟩
    obtain ⟨h1, h2, h3, h4, h5, h6, h7⟩ := packageDown_facts (resetAt false s)
    generalize packageDown (resetAt false s) = v at h1 h2 h3 h4 h5 h6 h7
    exact ⟨h1, h2, h3, h4, h5, h6, h7⟩
  · exact overrunEffect_standby h0 ht
  · intro h6
    rw [overrunEffect_fails h0 ht h3 h12 h6]
    obtain ⟨⟨hrails, hparts, -, -, -, -, -, -, -, hsafe, -⟩, hst, -, -⟩ := enterSafe_facts (overrunCause k) 0 { s with bu := { s.bu with todo := [] } }
    exact ⟨hst.trans (if_neg (overrunCause_ne hk14)), hrails, hparts, hsafe⟩
  · intro u
    have hw := hrecord.trans (congrArg _ (batchRecordEffect_some hb))
    have hu : u = batchKeysRead s := rfl
    clear_value u
    subst hu
    intro signed
    exact ⟨fun hc => hw.trans (congrArg _ (if_neg (ne_true_of_eq_false hc))), fun hc => ⟨batchHeader_length, batchRecordBytes_length,
      batchRecordBytes_header, batchRecordBytes_blank, hw.trans (congrArg _ (if_pos hc))⟩⟩

end Sys2Proof.Machine
end

section
/-! PROOF. The I3C ports with MCTP, PLDM and SPDM, the debug UARTs and the TAP (O60). -/

namespace Sys2Proof.Machine

variable {s u : State} {hd slot off len i a k : Nat} {msg : List Byte} {c : Byte}

/-! ### What reaches a port (R397, R415) -/

/-- The port is powered, has its address and is that of the active Caboose, whose firmware serves. -/
def portUp (hd : Nat) (u : State) : Prop :=
  u.power.islands = true ∧ (mgmtOf u hd).addr.isSome = true ∧ u.active = some hd ∧ u.bu.state ≠ 3

theorem portServes_iff : portServes u hd = true ↔ portUp hd u := by
  simp [portServes, portLives, portUp, and_assoc]

theorem portServes_false (h : ¬ portUp hd u) : portServes u hd = false := eq_false_of_ne_true (fun hs => h (portServes_iff.mp hs))

theorem i3cAddressEffect_eq : i3cAddressEffect hd a s = if s.power.islands = true then setMgmt hd { mgmtOf s hd with addr := some a } s else s := rfl

/-- A control message is answered, and the endpoint ID that it sets is taken. -/
def mctpAnswered (hd : Nat) (msg : List Byte) (s : State) : State :=
  send (.i3c hd (Config.answerBody 0 msg)) (match eidOf msg with
    | some e => setMgmt hd { mgmtOf s hd with eid := e } s
    | none => s)

theorem mctpEffect_eq : mctpEffect hd msg s =
    if s.power.islands = true ∧ (mgmtOf s hd).addr.isSome = true then mctpAnswered hd msg s else s := by
  have h : mctpEffect hd msg s = if portLives s hd = true then mctpAnswered hd msg s else s := rfl
  rw [h]
  exact if_congr (by simp [portLives]) rfl rfl

/-- The condition of a port that serves, as one test. -/
theorem portIf_eq {t e : State} : (if portServes s hd = true then t else e) =
    if s.power.islands = true ∧ (mgmtOf s hd).addr.isSome = true ∧ s.active = some hd ∧ s.bu.state ≠ 3 then t else e :=
  if_congr portServes_iff rfl rfl

theorem pldmEffect_eq : pldmEffect hd k s =
    if s.power.islands = true ∧ (mgmtOf s hd).addr.isSome = true ∧ s.active = some hd ∧ s.bu.state ≠ 3 then
      send (.pldm hd k (sensorReading s (Config.sensorOf k))) s else s :=
  portIf_eq

/-! ### Requests by their stage (R398) -/

section
variable {code stage : Nat} {x : Option (List Byte)} {f : Mgmt → Mgmt}

theorem spdmStage_down (h : ¬ portUp hd u) : spdmStage hd code stage x f u = u := by
  simp [spdmStage, portServes_false h]

theorem spdmStage_early (h : portUp hd u) (hs : (mgmtOf u hd).spdm < stage) : spdmStage hd code stage x f u = send (.spdm hd code none) u := by
  simp [spdmStage, portServes_iff.mpr h, Nat.not_le.mpr hs]

theorem spdmStage_reached (h : portUp hd u) (hs : stage ≤ (mgmtOf u hd).spdm) :
    spdmStage hd code stage x f u = send (.spdm hd code x) (setMgmt hd (f (mgmtOf u hd)) u) := by
  simp [spdmStage, portServes_iff.mpr h, hs, spdmSend]

/-- A request where no Caboose serves the port, and one before its stage. -/
theorem spdm_row {j : Instr} (hex : exec j s = .next (spdmStage hd code stage x f u)) : (¬ portUp hd u → exec j s = .next u) ∧
    (portUp hd u → (mgmtOf u hd).spdm < stage → exec j s = .next (send (.spdm hd code none) u)) :=
  ⟨fun h => hex.trans (congrArg _ (spdmStage_down h)), fun h hs => hex.trans (congrArg _ (spdmStage_early h hs))⟩

end

/-! ### The certificate and the signature (R411) -/

/-- Certificate slot 0, empty but in PROVISIONED and DEPLOYED. -/
def idCert (u : State) : Option (List Byte) :=
  if u.lc.state = 2 ∨ u.lc.state = 3 then some (Config.certificate u.lc.deviceId) else none

theorem certOf_eq : certOf u = idCert u := by
  simp [certOf, idCert]

/-- The identity key's signature over a transcript. -/
def idSign (hd : Nat) (u : State) (t : List Byte) : Option (List Byte) :=
  if (vaultOf u hd).keys = true ∧ (idCert u).isSome = true then
    some (padTo 96 0#8 (Config.ecdsaSign (if u.lc.state = 2 then 3 else u.lc.state) u.lc.deviceId t)) else none

theorem identitySign_eq {t : List Byte} : identitySign u hd t = idSign hd u t := by
  unfold identitySign idSign
  rw [certOf_eq]
  exact if_congr (Bool.and_eq_true _ _ ▸ Iff.rfl) rfl rfl

theorem signing_eq : signing hd s =
    if s.power.islands = true ∧ (mgmtOf s hd).addr.isSome = true ∧ s.active = some hd ∧ s.bu.state ≠ 3 then readVault hd s else s :=
  portIf_eq

theorem signing_clean (hw : (vaultOf s hd).wiping = none) (hb : (vaultOf s hd).bad = false) : signing hd s = s := by
  unfold signing
  rw [readVault_clean hw hb, ite_self]

/-- The digest of a slot, nothing where it is empty. -/
def slotDigest (x : Option (List Byte)) : List Byte :=
  match x with
  | some x => sha384 x
  | none => []

theorem getDigestsEffect_eq : getDigestsEffect hd msg s = spdmStage hd 0x81 3 (some (slotDigest (idCert s))) (logMsg msg) s := by
  rw [← certOf_eq]
  rfl

theorem getCertificateEffect_eq : getCertificateEffect hd slot off len s =
    spdmStage hd 0x82 3 (if slot = 0 then (idCert s).map (fun x => (x.drop off).take len) else none) id s := by
  rw [← certOf_eq]
  rfl

theorem challengeEffect_eq : challengeEffect hd slot msg s =
    spdmStage hd 0x83 3 (if slot = 0 then idSign hd (signing hd s) ((mgmtOf (signing hd s) hd).transcript ++ msg) else none) (logMsg msg)
      (signing hd s) := by
  rw [← identitySign_eq]
  rfl

/-! ### GET_MEASUREMENTS -/

/-- The state in which measurements are answered: a request with a nonce has the vault read. -/
def measureState (hd : Nat) (msg : List Byte) (s : State) : State := if msg = [] then s else signing hd s

/-- The measurements that are returned, signed where the request has a nonce. -/
def measureAnswer (hd i : Nat) (msg : List Byte) (u : State) : Option (List Byte) :=
  match measurements u i with
  | some b => if msg = [] then some b else (idSign hd u ((mgmtOf u hd).transcript ++ msg ++ b)).map (b ++ ·)
  | none => none

theorem getMeasurementsEffect_eq : getMeasurementsEffect hd i msg s =
    spdmStage hd 0xE0 3 (measureAnswer hd i msg (measureState hd msg s)) (logMsg msg) (measureState hd msg s) := by
  cases msg with
  | nil => rfl
  | cons b bs =>
    have hu : measureState hd (b :: bs) s = signing hd s := if_neg (List.cons_ne_nil b bs)
    rw [hu]
    unfold measureAnswer
    cases hm : measurements (signing hd s) i with
    | none => simp [getMeasurementsEffect, hm]
    | some x => simp [getMeasurementsEffect, hm, identitySign_eq]

/-! ### KEY_EXCHANGE -/

theorem keyExchangeEffect_signed {g : List Byte} (hslot : slot = 0) (hx : (mgmtOf (signing hd s) hd).session = 0)
    (hg : idSign hd (signing hd s) ((mgmtOf (signing hd s) hd).transcript ++ msg) = some g) : keyExchangeEffect hd slot msg s =
    spdmStage hd 0xE4 3 (some (Config.answerBody 0xE4 msg ++ g)) (fun m => logMsg msg { m with session := 1 }) (signing hd s) := by
  rw [← identitySign_eq] at hg
  simp [keyExchangeEffect, hslot, hx, hg]

theorem keyExchangeEffect_refused (h : slot ≠ 0 ∨ (mgmtOf (signing hd s) hd).session ≠ 0 ∨
      idSign hd (signing hd s) ((mgmtOf (signing hd s) hd).transcript ++ msg) = none) :
    keyExchangeEffect hd slot msg s = spdmStage hd 0xE4 3 none id (signing hd s) := by
  rw [← identitySign_eq] at h
  rcases h with h | h | h <;> simp [keyExchangeEffect, h]

/-- Either way it is a request of stage 3. -/
theorem keyExchangeEffect_stage : ∃ x f, keyExchangeEffect hd slot msg s = spdmStage hd 0xE4 3 x f (signing hd s) := by
  by_cases h : slot ≠ 0 ∨ (mgmtOf (signing hd s) hd).session ≠ 0 ∨ idSign hd (signing hd s) ((mgmtOf (signing hd s) hd).transcript ++ msg) = none
  · exact ⟨_, _, keyExchangeEffect_refused h⟩
  · simp only [not_or, not_not] at h
    obtain ⟨hslot, hx, hg⟩ := h
    obtain ⟨g, hg⟩ := Option.ne_none_iff_exists'.mp hg
    exact ⟨_, _, keyExchangeEffect_signed hslot hx hg⟩

/-! ### FINISH and END_SESSION -/

theorem finishEffect_down (h : ¬ portUp hd s) : finishEffect hd msg s = s := if_neg (ne_true_of_eq_false (portServes_false h))

theorem endSessionEffect_down (h : ¬ portUp hd s) : endSessionEffect hd s = s := if_neg (ne_true_of_eq_false (portServes_false h))

section
variable (h : portUp hd s)
include h

/-- The outcome of a FINISH that ends a key exchange, by the free value. -/
theorem finishEffect_ends (hs : (mgmtOf s hd).session = 1) : finishEffect hd msg s =
    if (Config.free64 s.freeCtr).toNat % 2 = 1 then
      send (.spdm hd 0xE5 (some (Config.answerBody 0xE5 msg)))
        (setMgmt hd (logMsg msg { mgmtOf s hd with session := 2 }) { s with freeCtr := s.freeCtr + 1 })
    else send (.spdm hd 0xE5 none) (setMgmt hd { mgmtOf s hd with session := 0 } { s with freeCtr := s.freeCtr + 1 }) :=
  (if_pos (portServes_iff.mpr h)).trans (if_pos hs)

theorem finishEffect_none (hs : (mgmtOf s hd).session ≠ 1) : finishEffect hd msg s = send (.spdm hd 0xE5 none) s :=
  (if_pos (portServes_iff.mpr h)).trans (if_neg hs)

theorem endSessionEffect_up : endSessionEffect hd s =
    if (mgmtOf s hd).session = 2 then send (.spdm hd 0xEC (some [])) (setMgmt hd { mgmtOf s hd with session := 0 } s)
    else send (.spdm hd 0xEC none) s :=
  if_pos (portServes_iff.mpr h)

end

/-! ### UART_RECEIVE and TAP_INSTRUCTION (R399, R401) -/

theorem debugPermitted_iff : debugPermitted s = true ↔ s.lc.state = 1 ∨ s.lc.state = 4 := by
  simp [debugPermitted]

theorem uartEffect_eq : uartEffect hd c s = if s.power.islands = true ∧ (s.lc.state = 1 ∨ s.lc.state = 4) then
    setMgmt hd { mgmtOf s hd with uart := (mgmtOf s hd).uart ++ [c] } s else s :=
  if_congr (by rw [Bool.and_eq_true, debugPermitted_iff]) rfl rfl

theorem tapEffect_bypass (h : k = 0xFF ∨ Config.tapDebug k = true ∧ ¬ (s.lc.state = 1 ∨ s.lc.state = 4)) :
    tapEffect k s = send (.tap 0xFF 0) { s with tap := 0xFF } := by
  rw [← debugPermitted_iff] at h
  have hc : (if Config.tapDebug k && !debugPermitted s then tapBypass else k) = tapBypass := by
    rcases h with h | ⟨hk, hn⟩
    · rw [h]
      exact ite_self _
    · exact if_pos (by simp [hk, hn])
  unfold tapEffect
  rw [hc]
  exact if_pos rfl

theorem tapEffect_runs (hk : k ≠ 0xFF) (h : Config.tapDebug k = false ∨ s.lc.state = 1 ∨ s.lc.state = 4) :
    tapEffect k s = send (.tap k (Config.free64 s.freeCtr).toNat) { s with tap := k, freeCtr := s.freeCtr + 1 } := by
  rw [← debugPermitted_iff] at h
  have hc : (if Config.tapDebug k && !debugPermitted s then tapBypass else k) = k := if_neg (by rcases h with h | h <;> simp [h])
  unfold tapEffect
  rw [hc]
  exact if_neg hk

/-- Settles O60: each request of a connection is one of a stage, answered over the state in which its vault has been read. -/
theorem managementPortsServeTheirRequests : Obligations.ManagementPortsServeTheirRequests := by
  unfold Obligations.ManagementPortsServeTheirRequests
  intro hd slot off len i a flag msg c s hhd ha hi m powered up serves debug cert sign reply log v w row
  have hv : v = signing hd s := signing_eq.symm
  have hw : w = measureState hd msg s := congrArg (fun x => if msg = [] then s else x) hv
  clear_value w v
  subst hv hw
  have hhub : decide (hd < 2) = true := decide_eq_true hhd
  have haddr : exec (.i3cDynamicAddress hd a flag) s = .next (i3cAddressEffect hd a s) :=
    exec_i3cDynamicAddress (Bool.and_eq_true_iff.mpr ⟨hhub, decide_eq_true ha⟩)
  have hmctp : exec (.mctpControl hd msg) s = .next (mctpEffect hd msg s) := exec_mctpControl hhub
  have hpldm : exec (.pldmSensorRead hd i) s = .next (pldmEffect hd i s) :=
    exec_pldmSensorRead (Bool.and_eq_true_iff.mpr ⟨hhub, decide_eq_true hi⟩)
  have hver : exec (.getVersion hd msg) s = .next (getVersionEffect hd msg s) := exec_getVersion hhub
  have hcap : exec (.getCapabilities hd msg) s = .next (getCapabilitiesEffect hd msg s) := exec_getCapabilities hhub
  have halg : exec (.negotiateAlgorithms hd msg) s = .next (negotiateEffect hd msg s) := exec_negotiateAlgorithms hhub
  have hdig := (exec_getDigests (s := s) (hd := hd) (msg := msg) hhub).trans (congrArg _ getDigestsEffect_eq)
  have hcert := (exec_getCertificate (s := s) (hd := hd) (slot := slot) (offset := off) (len := len) hhub).trans (congrArg _ getCertificateEffect_eq)
  have hchal := (exec_challenge (s := s) (hd := hd) (slot := slot) (nonce := msg) hhub).trans (congrArg _ challengeEffect_eq)
  have hmeas := (exec_getMeasurements (s := s) (hd := hd) (index := i) (nonce := msg) hhub).trans (congrArg _ getMeasurementsEffect_eq)
  have hkey : exec (.keyExchange hd slot msg) s = .next (keyExchangeEffect hd slot msg s) := exec_keyExchange hhub
  have hfin : exec (.finish hd msg) s = .next (finishEffect hd msg s) := exec_finish hhub
  have hend : exec (.endSession hd) s = .next (endSessionEffect hd s) := exec_endSession hhub
  have huart : exec (.uartReceive hd c) s = .next (uartEffect hd c s) := exec_uartReceive hhub
  obtain ⟨_, _, hstage⟩ := keyExchangeEffect_stage (hd := hd) (slot := slot) (msg := msg) (s := s)
  refine ⟨haddr.trans (congrArg _ i3cAddressEffect_eq), hmctp.trans (congrArg _ mctpEffect_eq), hpldm.trans (congrArg _ pldmEffect_eq),
    spdm_row hver, spdm_row hcap, spdm_row halg, spdm_row hdig, spdm_row hcert, spdm_row hchal, spdm_row hmeas,
    spdm_row (hkey.trans (congrArg _ hstage)),
    fun h => hver.trans (congrArg _ (spdmStage_reached h (Nat.zero_le _))), fun h hs => hcap.trans (congrArg _ (spdmStage_reached h hs)),
    fun h hs => halg.trans (congrArg _ (spdmStage_reached h hs)),
    fun h hs => ⟨hdig.trans (congrArg _ (spdmStage_reached h hs)), hcert.trans (congrArg _ (spdmStage_reached h hs))⟩,
    fun x hx h hs => ?_, fun x hx h hs => ?_, fun _ hwipe hbad => signing_clean hwipe hbad,
    fun h => ⟨hfin.trans (congrArg _ (finishEffect_down h)), hend.trans (congrArg _ (endSessionEffect_down h))⟩,
    fun h hs => hfin.trans (congrArg _ (finishEffect_ends h hs)), fun h hs => hfin.trans (congrArg _ (finishEffect_none h hs)),
    fun h => hend.trans (congrArg _ (endSessionEffect_up h)), huart.trans (congrArg _ uartEffect_eq), fun k hk => ?_⟩
  · subst hx
    exact ⟨hchal.trans (congrArg _ (spdmStage_reached h hs)),
      fun g hslot hx hg => hkey.trans (congrArg _ ((keyExchangeEffect_signed hslot hx hg).trans (spdmStage_reached h hs))),
      fun hn => hkey.trans (congrArg _ ((keyExchangeEffect_refused hn).trans (spdmStage_reached h hs)))⟩
  · subst hx
    exact hmeas.trans (congrArg _ (spdmStage_reached h hs))
  · have htap : exec (.tapInstruction k) s = .next (tapEffect k s) := exec_tapInstruction (decide_eq_true hk)
    exact ⟨fun h => htap.trans (congrArg _ (tapEffect_bypass h)), fun h hd => htap.trans (congrArg _ (tapEffect_runs h hd))⟩

end Sys2Proof.Machine
end
